-- ==== Sys2Proof/Word.lean ====
section
/-! DEFINITION. The word types of the H2 and the type of sparse data (a list of key and value pairs). -/
namespace Sys2Proof

abbrev Byte := BitVec 8
abbrev W16 := BitVec 16
abbrev W32 := BitVec 32
abbrev W64 := BitVec 64

/-- Sparse data by key: strictly rising keys, no entry equal to the default an unlisted key reads as. -/
abbrev Table (α : Type) := List (Nat × α)

end Sys2Proof
end

