-- ==== Sys2Proof/Machine/Bits.lean ====
section
/-! DEFINITION. Sparse tables in their one canonical form (strictly rising keys, no entry equal to the default), and the
bit-field, sign-extension and byte-order helpers (R1) that decoding and every meaning use. -/
namespace Sys2Proof


/-- What key `k` reads as, `d` being what an unlisted key reads as. -/
def Table.get {α : Type} (d : α) : Table α → Nat → α
  | [], _ => d
  | (k', v) :: r, k => if k = k' then v else Table.get d r k

/-- Write `v` at key `k`, keeping the canonical form: writing the default removes the entry. -/
def Table.put {α : Type} [DecidableEq α] (d : α) : Table α → Nat → α → Table α
  | [], k, v => if v = d then [] else [(k, v)]
  | (k', v') :: r, k, v =>
    if v = d then (if k = k' then Table.put d r k v else (k', v') :: Table.put d r k v)
    else if k < k' then (k, v) :: (k', v') :: r
    else if k = k' then (k, v) :: r
    else (k', v') :: Table.put d r k v

/-- Every key is at least `lo`, keys rise strictly, and no value is the default. -/
def Table.okFrom {α : Type} [DecidableEq α] (d : α) : Nat → Table α → Bool
  | _, [] => true
  | lo, (k, v) :: r => decide (lo ≤ k) && decide (v ≠ d) && Table.okFrom d (k + 1) r

/-- The canonical form. -/
def Table.wf {α : Type} [DecidableEq α] (d : α) (t : Table α) : Bool := Table.okFrom d 0 t

/-- Remove every entry whose key satisfies `p`. -/
def Table.dropWhere {α : Type} (p : Nat → Bool) (t : Table α) : Table α := t.filter fun e => !p e.1

/-- The bits `hi` to `lo` of a number, bit 0 the least significant (R1). -/
def bits (w hi lo : Nat) : Nat := (w >>> lo) % 2 ^ (hi + 1 - lo)

/-- One bit of a number. -/
def bit (w i : Nat) : Bool := (w >>> i) % 2 == 1

/-- A number written over the bits `hi` to `lo` of another. -/
def setBits (w hi lo v : Nat) : Nat :=
  w - (bits w hi lo <<< lo) + ((v % 2 ^ (hi + 1 - lo)) <<< lo)

/-- The two's-complement reading of the low `n` bits. -/
def sext (n v : Nat) : Int :=
  let u := v % 2 ^ n
  if u < 2 ^ (n - 1) then (u : Int) else (u : Int) - (2 ^ n : Nat)

/-- The low `n` bits of an integer in two's complement. -/
def wrap (n : Nat) (v : Int) : Nat := (v % ((2 ^ n : Nat) : Int)).toNat

/-- A Bool as 0 or 1. -/
def b2n (b : Bool) : Nat := if b then 1 else 0

/-- Little-endian number of a list of bytes (R1). -/
def leNat : List Byte → Nat
  | [] => 0
  | b :: r => b.toNat + 256 * leNat r

/-- The `n` little-endian bytes of a number (R1). -/
def leBytes : Nat → Nat → List Byte
  | 0, _ => []
  | n + 1, v => BitVec.ofNat 8 v :: leBytes n (v / 256)

/-- The numbers `a, a + 1, …` below `a + n`. -/
def span (a n : Nat) : List Nat := (List.range n).map (a + ·)

end Sys2Proof
end

