-- ==== Sys2Proof/Machine/Numbers.lean ====
section
/-! DEFINITION. Numbers: the element types of R61, exact values, rounding (R69 to R71, R94), the floating-point formats
(R74, R75), the integer formats (R76, R77), bit planes (R78, R79), the lattice code (R80 to R85) and the Contour
exponential (R93). -/
namespace Sys2Proof

/-- RND (R69); the reserved code 11 is refused at decode. -/
inductive Rnd where
  | rne | rtz | rna
  deriving DecidableEq, Repr

/-- OVF (R70); the reserved code 11 is refused at decode. -/
inductive Ovf where
  | ieee | sat | gaz
  deriving DecidableEq, Repr

/-- The element types of R61. `bpn k` is BPNk, k from 2 to 8. -/
inductive ETy where
  | i4 | u4 | si4 | i8 | u8 | si8 | i16 | i32 | fp8e4 | fp8e5 | bf16 | fp32
  | bpn (k : Nat) | l8 | bmvBf16 | bmvFp8
  deriving DecidableEq, Repr

/-- The 8-bit type code of a type (R61). -/
def ETy.code : ETy → Nat
  | .i4 => 0x00 | .u4 => 0x01 | .si4 => 0x02 | .i8 => 0x03 | .u8 => 0x04 | .si8 => 0x05
  | .i16 => 0x06 | .i32 => 0x07 | .fp8e4 => 0x08 | .fp8e5 => 0x09 | .bf16 => 0x0A | .fp32 => 0x0C
  | .bpn k => 0x10 + k | .l8 => 0x20 | .bmvBf16 => 0x21 | .bmvFp8 => 0x22

/-- The type an 8-bit code names, or none for a reserved code (R61). -/
def ETy.ofCode (c : Nat) : Option ETy :=
  if c = 0x00 then some .i4 else if c = 0x01 then some .u4 else if c = 0x02 then some .si4
  else if c = 0x03 then some .i8 else if c = 0x04 then some .u8 else if c = 0x05 then some .si8
  else if c = 0x06 then some .i16 else if c = 0x07 then some .i32
  else if c = 0x08 then some .fp8e4 else if c = 0x09 then some .fp8e5
  else if c = 0x0A then some .bf16 else if c = 0x0C then some .fp32
  else if 0x12 ≤ c ∧ c ≤ 0x18 then some (.bpn (c - 0x10))
  else if c = 0x20 then some .l8 else if c = 0x21 then some .bmvBf16
  else if c = 0x22 then some .bmvFp8 else none

/-- Bits per element (R61); 0 for the types that have no lane element. -/
def ETy.width : ETy → Nat
  | .i4 | .u4 | .si4 => 4
  | .i8 | .u8 | .si8 | .fp8e4 | .fp8e5 => 8
  | .i16 | .bf16 => 16
  | .i32 | .fp32 => 32
  | .bpn _ => 0 | .l8 => 16 | .bmvBf16 | .bmvFp8 => 0

/-- Elements per 32-bit lane word (R61). -/
def ETy.perLane (t : ETy) : Nat := if t.width = 0 then 0 else 32 / t.width

def ETy.isFloat : ETy → Bool
  | .fp8e4 | .fp8e5 | .bf16 | .fp32 => true
  | _ => false

/-- The integer types of R76. -/
def ETy.isInt : ETy → Bool
  | .i4 | .u4 | .si4 | .i8 | .u8 | .si8 | .i16 | .i32 => true
  | _ => false

/-- The types that NEG governs (R59). -/
def ETy.negOk : ETy → Bool
  | .fp8e4 | .fp8e5 | .bf16 | .fp32 | .i4 | .i8 | .i16 | .i32 | .si4 | .si8 => true
  | _ => false

/-- The flags of `numst` that a command can set (R72). -/
structure Flags where
  nv : Bool := false
  of : Bool := false
  uf : Bool := false
  nx : Bool := false
  l8d : Bool := false
  gzl : Bool := false
  deriving DecidableEq, Repr

/-- Flags combine by OR (R73). -/
def Flags.or (a b : Flags) : Flags :=
  ⟨a.nv || b.nv, a.of || b.of, a.uf || b.uf, a.nx || b.nx, a.l8d || b.l8d, a.gzl || b.gzl⟩

/-- The bits of `numst` (R72). -/
def Flags.toNat (f : Flags) : Nat :=
  b2n f.nv + 2 * b2n f.of + 4 * b2n f.uf + 8 * b2n f.nx + 16 * b2n f.l8d + 32 * b2n f.gzl

/-- An exact value: NaN, an infinity, or sign and magnitude `n / d` with `d > 0` (a zero keeps its sign). -/
inductive XVal where
  | nan
  | inf (neg : Bool)
  | fin (neg : Bool) (n d : Nat)
  deriving DecidableEq, Repr

/-- The exact value of an integer. -/
def XVal.ofInt (i : Int) : XVal := .fin (decide (i < 0)) i.natAbs 1

def XVal.neg : XVal → XVal
  | .nan => .nan
  | .inf s => .inf (!s)
  | .fin s n d => .fin (!s) n d

def XVal.isNaN : XVal → Bool
  | .nan => true
  | _ => false

def XVal.isZero : XVal → Bool
  | .fin _ n _ => n == 0
  | _ => false

/-- Exact sum. An exact zero is +0 unless both terms are −0 (R75); opposite infinities give NaN. -/
def XVal.add : XVal → XVal → XVal
  | .nan, _ => .nan
  | _, .nan => .nan
  | .inf a, .inf b => if a = b then .inf a else .nan
  | .inf a, .fin _ _ _ => .inf a
  | .fin _ _ _, .inf b => .inf b
  | .fin s n d, .fin s' n' d' =>
    if n = 0 ∧ n' = 0 then .fin (s && s') 0 1 else
    let x : Int := (if s then -1 else 1) * (n * d' : Nat) + (if s' then -1 else 1) * (n' * d : Nat)
    .fin (decide (x < 0)) x.natAbs (d * d')

/-- Exact product: a zero times an infinity is NaN, and a zero product of unlike signs is −0 (R75). -/
def XVal.mul : XVal → XVal → XVal
  | .nan, _ => .nan
  | _, .nan => .nan
  | .inf a, .inf b => .inf (a != b)
  | .inf a, .fin s n _ => if n = 0 then .nan else .inf (a != s)
  | .fin s n _, .inf b => if n = 0 then .nan else .inf (s != b)
  | .fin s n d, .fin s' n' d' => .fin (s != s') (n * n') (d * d')

/-- Exact quotient of finite or infinite operands as IEEE 754 gives it. -/
def XVal.div : XVal → XVal → XVal
  | .nan, _ => .nan
  | _, .nan => .nan
  | .inf _, .inf _ => .nan
  | .inf a, .fin s _ _ => .inf (a != s)
  | .fin s _ _, .inf b => .fin (s != b) 0 1
  | .fin s n d, .fin s' n' d' =>
    if n' = 0 then (if n = 0 then .nan else .inf (s != s')) else .fin (s != s') (n * d') (d * n')

/-- Order of two values that are not NaN: −1, 0 or 1; the two zeros are equal. -/
def XVal.cmp : XVal → XVal → Int
  | .nan, _ => 0
  | _, .nan => 0
  | .inf a, .inf b => if a = b then 0 else if a then -1 else 1
  | .inf a, .fin _ _ _ => if a then -1 else 1
  | .fin _ _ _, .inf b => if b then 1 else -1
  | .fin s n d, .fin s' n' d' =>
    let x : Int := (if s then -1 else 1) * (n * d' : Nat)
    let y : Int := (if s' then -1 else 1) * (n' * d : Nat)
    if x < y then -1 else if x = y then 0 else 1

/-- Square root of a natural number, bit by bit from `2 ^ k` down. -/
def isqrt : Nat → Nat → Nat → Nat
  | 0, _, r => r
  | k + 1, x, r => if (r + 2 ^ k) * (r + 2 ^ k) ≤ x then isqrt k x (r + 2 ^ k) else isqrt k x r

/-- A value that rounds as the square root of `n / d` does: 256 binary places and a sticky bit. -/
def XVal.sqrtMag (n d : Nat) : Nat × Nat :=
  let x := n * 2 ^ 512 / d
  let r := isqrt 360 x 0
  (2 * r + (if r * r * d = n * 2 ^ 512 then 0 else 1), 2 ^ 257)

/-- Square root: of a negative number NaN, of ±0 the same zero. -/
def XVal.sqrt : XVal → XVal
  | .nan => .nan
  | .inf s => if s then .nan else .inf false
  | .fin s n d =>
    if n = 0 then .fin s 0 1 else if s then .nan else
    let m := XVal.sqrtMag n d
    .fin false m.1 m.2

/-- Reciprocal square root: of ±0 the infinity of that sign. -/
def XVal.rsqrt : XVal → XVal
  | .nan => .nan
  | .inf s => if s then .nan else .fin false 0 1
  | .fin s n d =>
    if n = 0 then .inf s else if s then .nan else
    let m := XVal.sqrtMag d n
    .fin false m.1 m.2

/-- A floating-point format (R74). -/
structure FFmt where
  eb : Nat
  mb : Nat
  bias : Nat
  hasInf : Bool
  deriving DecidableEq, Repr

def FFmt.fp32 : FFmt := ⟨8, 23, 127, true⟩
def FFmt.bf16 : FFmt := ⟨8, 7, 127, true⟩
def FFmt.fp8e5 : FFmt := ⟨5, 2, 15, true⟩
def FFmt.fp8e4 : FFmt := ⟨4, 3, 7, false⟩

/-- The format of a floating-point type; FP32 for any other, which no caller asks. -/
def ETy.fmt : ETy → FFmt
  | .fp8e4 => .fp8e4
  | .fp8e5 => .fp8e5
  | .bf16 => .bf16
  | _ => .fp32

/-- `n / d · 2 ^ e`. -/
def scaleFrac (n d : Nat) (e : Int) : Nat × Nat :=
  if 0 ≤ e then (n * 2 ^ e.toNat, d) else (n, d * 2 ^ (-e).toNat)

/-- Does the code hold a NaN (R74)? -/
def FFmt.isNaN (f : FFmt) (c : Nat) : Bool :=
  let e := (c >>> f.mb) % 2 ^ f.eb
  let m := c % 2 ^ f.mb
  if f.hasInf then e == 2 ^ f.eb - 1 && m != 0 else e == 2 ^ f.eb - 1 && m == 2 ^ f.mb - 1

/-- A NaN whose mantissa top bit is 0 is signalling, in the types with infinities (R75). -/
def FFmt.isSNaN (f : FFmt) (c : Nat) : Bool :=
  f.isNaN c && f.hasInf && !(bit c (f.mb - 1))

/-- The value of a floating-point code (R74). -/
def FFmt.value (f : FFmt) (c : Nat) : XVal :=
  let s := bit c (f.eb + f.mb)
  let e := (c >>> f.mb) % 2 ^ f.eb
  let m := c % 2 ^ f.mb
  if f.isNaN c then .nan
  else if f.hasInf && e == 2 ^ f.eb - 1 then .inf s
  else
    let x := if e = 0 then scaleFrac m 1 (1 - (f.bias : Int) - f.mb)
             else scaleFrac (2 ^ f.mb + m) 1 ((e : Int) - f.bias - f.mb)
    .fin s x.1 x.2

def FFmt.signBit (f : FFmt) (s : Bool) : Nat := b2n s * 2 ^ (f.eb + f.mb)

/-- The canonical NaN (R75): sign 0, exponent all ones; in FP8E4 the one NaN code. -/
def FFmt.canonNaN (f : FFmt) : Nat :=
  if f.hasInf then (2 ^ f.eb - 1) * 2 ^ f.mb + 2 ^ (f.mb - 1) else 2 ^ (f.eb + f.mb) - 1

/-- The magnitude code of the largest finite value (R74). -/
def FFmt.maxCode (f : FFmt) : Nat :=
  if f.hasInf then (2 ^ f.eb - 1) * 2 ^ f.mb - 1 else 2 ^ (f.eb + f.mb) - 2

/-- Round a quotient `n / d` to a natural number under a mode (R69). -/
def roundQuot (m : Rnd) (n d : Nat) : Nat :=
  let q := n / d
  let r2 := 2 * (n % d)
  match m with
  | .rtz => q
  | .rne => if r2 < d then q else if d < r2 then q + 1 else q + q % 2
  | .rna => if r2 < d then q else q + 1

/-- floor(log2(n / d)) for `n, d > 0`. -/
def floorLog2 (n d : Nat) : Int :=
  let e : Int := (Nat.log2 n : Int) - Nat.log2 d
  let x := scaleFrac n d (-e)
  if x.1 < x.2 then e - 1 else e

/-- What rounding gives: the code, the flags, and whether the result overflowed under GAZ (R94). -/
structure Rounded where
  code : Nat
  flags : Flags
  gazed : Bool
  deriving DecidableEq, Repr

/-- A finite magnitude rounded to a format with no upper limit on the exponent (R70, R94): the rounded magnitude as
`m · 2 ^ l`. -/
def FFmt.roundMag (f : FFmt) (mode : Rnd) (n d : Nat) : Nat × Int :=
  if n = 0 then (0, 0) else
  let e := floorLog2 n d
  let emin : Int := 1 - (f.bias : Int)
  let l : Int := (if e < emin then emin else e) - f.mb
  let x := scaleFrac n d (-l)
  (roundQuot mode x.1 x.2, l)

/-- The magnitude code of `m · 2 ^ l` as `FFmt.roundMag` gives it; `none` when it exceeds the largest finite value. -/
def FFmt.encodeMag (f : FFmt) (m : Nat) (l : Int) : Option Nat :=
  let emin : Int := 1 - (f.bias : Int)
  if m = 0 then some 0
  else
    let (m', l') := if m = 2 ^ (f.mb + 1) then (2 ^ f.mb, l + 1) else (m, l)
    if m' < 2 ^ f.mb then some m'
    else
      let ex : Int := l' + f.mb - emin + 1
      let c := ex.toNat * 2 ^ f.mb + (m' - 2 ^ f.mb)
      if c ≤ f.maxCode then some c else none

/-- What the R70 table writes for an out-of-range floating-point result that is not under GAZ. -/
def FFmt.overCode (f : FFmt) (ovf : Ovf) (mode : Rnd) (finite s : Bool) : Nat :=
  let big := f.signBit s + f.maxCode
  match ovf with
  | .sat => big
  | _ =>
    if mode = .rtz ∧ finite = true then big
    else if f.hasInf then f.signBit s + (2 ^ f.eb - 1) * 2 ^ f.mb
    else f.signBit s + f.canonNaN

/-- RoundTo to a floating-point format (R94, R70, R71, R75). -/
def FFmt.round (f : FFmt) (ovf : Ovf) (mode : Rnd) : XVal → Rounded
  | .nan => ⟨f.canonNaN, { nv := true }, false⟩
  | .inf s =>
    if f.hasInf then ⟨f.signBit s + (2 ^ f.eb - 1) * 2 ^ f.mb, {}, false⟩
    else if ovf = .gaz then ⟨0, {}, true⟩
    else ⟨f.overCode ovf mode false s, { of := true }, false⟩
  | .fin s n d =>
    let r := f.roundMag mode n d
    let y := scaleFrac r.1 1 r.2
    let inexact : Bool := decide (y.1 * d ≠ n * y.2)
    match f.encodeMag r.1 r.2 with
    | some c => ⟨f.signBit s + c, { nx := inexact, uf := inexact && decide (c < 2 ^ f.mb) }, false⟩
    | none =>
      if ovf = .gaz then ⟨0, { nx := true }, true⟩
      else ⟨f.overCode ovf mode true s, { nx := true, of := true }, false⟩

/-- The value range of an integer type (R76). -/
def ETy.intRange : ETy → Int × Int
  | .i4 => (-8, 7) | .u4 => (0, 15) | .si4 => (-7, 7)
  | .i8 => (-128, 127) | .u8 => (0, 255) | .si8 => (-127, 127)
  | .i16 => (-32768, 32767) | _ => (-2147483648, 2147483647)

/-- The code of an integer in range (R76). -/
def ETy.encInt (t : ETy) (i : Int) : Nat := wrap t.width i

/-- The reserved symmetric codes (R77). -/
def ETy.reserved (t : ETy) (c : Nat) : Bool :=
  match t with
  | .si4 => c == 0x8
  | .si8 => c == 0x80
  | _ => false

/-- What the R70 table writes for an integer out of range, not under GAZ. -/
def ETy.overInt (t : ETy) (ovf : Ovf) (i : Int) : Nat :=
  let (lo, hi) := t.intRange
  match t with
  | .si4 | .si8 => t.encInt (if i < 0 then lo else hi)
  | _ => if ovf = .sat then t.encInt (if i < lo then lo else hi) else t.encInt i

/-- RoundTo to an integer type (R94, R70, R71, R76). -/
def ETy.roundInt (t : ETy) (ovf : Ovf) (mode : Rnd) : XVal → Rounded
  | .nan => ⟨0, { nv := true }, false⟩
  | .inf s =>
    if ovf = .gaz then ⟨0, {}, true⟩
    else ⟨t.encInt (if s then t.intRange.1 else t.intRange.2), { of := true }, false⟩
  | .fin s n d =>
    let m := roundQuot mode n d
    let i : Int := if s then -(m : Int) else m
    let inexact : Bool := decide (m * d ≠ n)
    if t.intRange.1 ≤ i ∧ i ≤ t.intRange.2 then ⟨t.encInt i, { nx := inexact }, false⟩
    else if ovf = .gaz then ⟨0, { nx := true }, true⟩
    else ⟨t.overInt ovf i, { nx := true, of := true }, false⟩

/-- RoundTo (R94). A type with no element of its own is never a destination of it; FP32 stands in. -/
def ETy.round (t : ETy) (ovf : Ovf) (mode : Rnd) (x : XVal) : Rounded :=
  if t.isInt then t.roundInt ovf mode x else t.fmt.round ovf mode x

/-- The FP32 value a Gazetteer entry carries (R87): rounded to FP32, infinities kept. -/
def gazValue (mode : Rnd) (x : XVal) : Nat := (FFmt.fp32.round .ieee mode x).code

/-- An integer element's value; a reserved symmetric code reads as 0 here (R77). -/
def ETy.intVal (t : ETy) (c : Nat) : Int :=
  match t with
  | .u4 => ((c % 16 : Nat) : Int)
  | .u8 => ((c % 256 : Nat) : Int)
  | _ => if t.reserved (c % 2 ^ t.width) then 0 else sext t.width c

/-- An element read as a number for floating-point work: a reserved symmetric code is NaN (R77); the flag NV comes with a
signalling NaN or a reserved code (R72). -/
def ETy.value (t : ETy) (c : Nat) : XVal × Flags :=
  if t.isFloat then (t.fmt.value c, { nv := t.fmt.isSNaN c })
  else if t.reserved (c % 2 ^ t.width) then (.nan, { nv := true })
  else (.ofInt (t.intVal c), {})

/-- NEG on a floating-point code flips its sign bit (R59). -/
def FFmt.flipSign (f : FFmt) (c : Nat) : Nat :=
  if bit c (f.eb + f.mb) then c - 2 ^ (f.eb + f.mb) else c + 2 ^ (f.eb + f.mb)

/-! ### Bit planes (R78, R79) -/

/-- The value and factor exponent with which an engine takes a BPNk element (R79): from the k leading bits as a
number `u`, the delivered integer and the power of two it carries. -/
def bpnDeliver (k : Nat) (centre : Bool) (u : Nat) : Int × Nat :=
  let q := sext k u
  if centre && decide (k < 8) then (2 * q + 1, 7 - k) else (q, 8 - k)

/-- The 8-bit value of a BPNk element, truncated or centred (R79). -/
def bpnValue (k : Nat) (centre : Bool) (u : Nat) : Int :=
  let d := bpnDeliver k centre u
  d.1 * (2 ^ d.2 : Nat)

/-- The k leading plane bits of element `i` of a block whose bytes are `blk` (R78). -/
def bpnBits (k : Nat) (blk : Nat → Nat) (i : Nat) : Nat :=
  (List.range k).foldl (fun acc p => 2 * acc + b2n (bit (blk (32 * p + i / 8)) (i % 8))) 0

/-! ### The L8 lattice code (R80 to R85) -/

/-- DecodeL8 in quarters: the eight values 4·x_i, or none for the null group (R80, R83). -/
def l8Decode (g : Nat) : Option (List Int) :=
  if g % 65536 = 0 then none else
  let c := bit g 15
  let a := (List.range 7).map fun i => (g >>> (2 * i)) % 4
  let p := a.foldl (· + ·) 0 % 2
  let a7 := 2 * b2n (bit g 14) + p
  some ((a ++ [a7]).map fun ai =>
    if c then 4 * (ai : Int) - 5 else 4 * (ai : Int) - 7)

/-- The quarters 4·x_i of a code, a null group as zeros (R81, R83). -/
def l8Quarters (g : Nat) : List Int := (l8Decode g).getD [0, 0, 0, 0, 0, 0, 0, 0]

/-- Round `n / d` (signed) to an integer, ties to even. -/
def roundEven (n : Int) (d : Nat) : Int :=
  let m := roundQuot .rne n.natAbs d
  if n < 0 then -(m : Int) else m

/-- Position of the largest value, lowest index on ties. -/
def argMaxFrom : Nat → Nat → Nat → List Nat → Nat
  | _, best, _, [] => best
  | i, best, v, x :: r => if v < x then argMaxFrom (i + 1) i x r else argMaxFrom (i + 1) best v r

/-- NearestD8 on numerators over one denominator (R84). -/
def nearestD8 (d : Nat) (t : List Int) : List Int :=
  let f := t.map fun x => roundEven x d
  if (f.foldl (· + ·) 0) % 2 = 0 then f else
  let errs := (t.zip f).map fun p => (p.1 - p.2 * (d : Int)).natAbs
  let j := argMaxFrom 0 0 0 errs
  (f.zip t).mapIdx fun i p => if i = j then (if p.2 < p.1 * (d : Int) then p.1 - 1 else p.1 + 1) else p.1

/-- The L8 code of a point given in halves (2·y_i), if it lies in the code shell and is not the null point (R81, R84). -/
def l8Encode (y2 : List Int) (half : Bool) : Option Nat :=
  let a := y2.map fun v => if half then (v + 3) / 2 else (v + 4) / 2
  if a.all (fun v => decide (0 ≤ v ∧ v ≤ 3)) then
    let code := (a.take 7).foldr (fun v acc => v.toNat + 4 * acc) 0
      + (((a.getD 7 0).toNat / 2) <<< 14) + (b2n half <<< 15)
    if half = false ∧ a.all (fun v => decide (v = 0)) then none else some code
  else none

/-- QuantL8 (R84) on eight values, each a numerator over one common denominator `d`: the code, or none for shell
overflow. -/
def l8Nearest (d : Nat) (u : List Int) : Option Nat :=
  -- t = u − 1/4 over the denominator 4d
  let t := u.map fun x => 4 * x - (d : Int)
  let dd := 4 * d
  let f := nearestD8 dd t
  let h := nearestD8 dd (t.map fun x => x - 2 * (d : Int))
  let dist := fun (c2 : List Int) =>      -- in units of (1 / (2·dd))²
    (t.zip c2).foldl (fun acc p => acc + (2 * p.1 - p.2 * (dd : Int)) * (2 * p.1 - p.2 * (dd : Int))) (0 : Int)
  let f2 := f.map (2 * ·)
  let h2 := h.map fun v => 2 * v + 1
  if dist f2 ≤ dist h2 then l8Encode f2 false else l8Encode h2 true

/-- A list of finite values over one denominator; none where a value is NaN or infinite. -/
def commonDen : List XVal → Option (List Int × Nat)
  | [] => some ([], 1)
  | .fin s n d :: r =>
    match commonDen r with
    | none => none
    | some (l, d') => some ((if s then -((n * d' : Nat) : Int) else ((n * d' : Nat) : Int)) :: l.map (· * (d : Int)), d * d')
  | _ :: _ => none

/-- QuantL8 on eight FP32 codes (R84): the code or none for Overflow(u), and whether a NaN was among them (R85). -/
def quantL8 (u : List Nat) : Option Nat × Bool :=
  let xs := u.map FFmt.fp32.value
  let anyNaN := xs.any XVal.isNaN
  match commonDen xs with
  | none => (none, anyNaN)
  | some (l, d) => (l8Nearest d l, anyNaN)

/-- The FP32 code of `q / 4` for the small odd quarters of a decoded L8 element (exact). -/
def quarterFp32 (q : Int) : Nat := (FFmt.fp32.round .ieee .rne (.fin (decide (q < 0)) q.natAbs 4)).code

/-! ### The Contour exponential (R93) -/

/-- Fixed-point Taylor sum of e^y for `0 ≤ y = n/2^400 < 1`, with 400 binary places. -/
def expTaylor : Nat → Nat → Nat → Nat → Nat → Nat
  | 0, _, _, _, acc => acc
  | k + 1, i, y, term, acc =>
    let term' := term * y / (2 ^ 400 * i)
    expTaylor k (i + 1) y term' (acc + term')

def sqIter : Nat → Nat → Nat
  | 0, x => x
  | k + 1, x => sqIter k (x * x / 2 ^ 400)

/-- e^(n/d) for `0 ≤ n/d < 128` as a fixed-point number with 400 binary places. -/
def expFixed (n d : Nat) : Nat :=
  let y := n * 2 ^ 400 / (d * 128)
  sqIter 7 (expTaylor 80 1 y (2 ^ 400) (2 ^ 400))

/-- The exponential of the EXPSUM phase (R93) of an FP32 code, under the command's RND and OVF for the overflow case. -/
def contourExp (ovf : Ovf) (rnd : Rnd) (c : Nat) : Rounded :=
  match FFmt.fp32.value c with
  | .nan => ⟨FFmt.bf16.canonNaN, { nv := true }, false⟩
  | .inf s =>
    if s then ⟨0, {}, false⟩ else ⟨0x7F80, {}, false⟩
  | .fin s n d =>
    if n = 0 then ⟨0x3F80, {}, false⟩
    else if s then
      if 64 * d < n then ⟨0, {}, false⟩
      else FFmt.bf16.round .ieee .rne (.fin false (2 ^ 400) (expFixed n d))
    else if 100 * d < n then
      -- e^x above 0x7F7F for every mode: out of range (R70), whatever its exact size
      FFmt.bf16.round ovf rnd (.fin false (2 ^ 140) 1)
    else
      let x : XVal := .fin false (expFixed n d) (2 ^ 400)
      let r := FFmt.bf16.round ovf .rne x
      if r.flags.of || r.gazed then FFmt.bf16.round ovf rnd (.fin false (2 ^ 140) 1) else r

end Sys2Proof
end

