-- ==== Sys2Proof/Machine/Forms.lean ====
section
/-! DEFINITION. The operand forms of the instructions: agents, engines, scopes, the standard RV64 operations, and the
operands of the commands of each engine, field by field as the layouts of the spec name them. -/
namespace Sys2Proof

/-- A control-core register number. -/
abbrev Reg := BitVec 5

/-- Who executes RV64 instructions: a control core (R11), the management core (R395) or the lane service core of an
O-die (R388). -/
inductive Agent where
  | core (n : Nat)
  | mgmt
  | lane (o : Nat)
  deriving DecidableEq, Repr

/-- Is the agent a control core? -/
def Agent.isCore : Agent → Bool
  | .core _ => true
  | _ => false

/-- The engines of a core in ENG order (R55). -/
inductive Eng where
  | ld | st | mx | vx | ct | tv
  deriving DecidableEq, Repr

def Eng.num : Eng → Nat
  | .ld => 0 | .st => 1 | .mx => 2 | .vx => 3 | .ct => 4 | .tv => 5

def Eng.ofNum (n : Nat) : Option Eng :=
  if n = 0 then some .ld else if n = 1 then some .st else if n = 2 then some .mx
  else if n = 3 then some .vx else if n = 4 then some .ct else if n = 5 then some .tv else none

def Eng.all : List Eng := [.ld, .st, .mx, .vx, .ct, .tv]

/-- The engines of the fast domain (R29). -/
def Eng.fast : Eng → Bool
  | .mx | .vx | .ct => true
  | _ => false

/-- The scopes of R52 and R311, in their coding order. -/
inductive Scope where
  | core | cluster | die | pkg | sys
  deriving DecidableEq, Repr

def Scope.num : Scope → Nat
  | .core => 0 | .cluster => 1 | .die => 2 | .pkg => 3 | .sys => 4

def Scope.ofNum (n : Nat) : Option Scope :=
  if n = 0 then some .core else if n = 1 then some .cluster else if n = 2 then some .die
  else if n = 3 then some .pkg else if n = 4 then some .sys else none

/-- Width and extension of a standard load; a store uses `b`, `h`, `w` and `d`. -/
inductive MemKind where
  | b | h | w | d | bu | hu | wu
  deriving DecidableEq, Repr

def MemKind.bytes : MemKind → Nat
  | .b | .bu => 1
  | .h | .hu => 2
  | .w | .wu => 4
  | .d => 8

/-- Register-register operations of RV64I, M, Zba and Zbb that take a 64-bit form. -/
inductive AluOp where
  | add | sub | sll | slt | sltu | xor | srl | sra | or | and
  | mul | mulh | mulhsu | mulhu | div | divu | rem | remu
  | sh1add | sh2add | sh3add | addUw | sh1addUw | sh2addUw | sh3addUw
  | andn | orn | xnor | max | maxu | min | minu | rol | ror
  deriving DecidableEq, Repr

/-- Register-register operations of the 32-bit (W) forms, with the Zba and Zbb ones of that opcode. -/
inductive AluWOp where
  | addw | subw | sllw | srlw | sraw | mulw | divw | divuw | remw | remuw | rolw | rorw
  deriving DecidableEq, Repr

/-- Operations with a 12-bit immediate. -/
inductive ImmOp where
  | addi | slti | sltiu | xori | ori | andi
  deriving DecidableEq, Repr

/-- Operations with a shift amount of 6 bits. -/
inductive ShiftOp where
  | slli | srli | srai | rori | slliUw
  deriving DecidableEq, Repr

/-- Operations with a shift amount of 5 bits, on the low word. -/
inductive ShiftWOp where
  | slliw | srliw | sraiw | roriw
  deriving DecidableEq, Repr

/-- One-operand operations of Zbb. -/
inductive UnOp where
  | clz | ctz | cpop | clzw | ctzw | cpopw | sextB | sextH | zextH | rev8 | orcB
  deriving DecidableEq, Repr

inductive BranchOp where
  | beq | bne | blt | bge | bltu | bgeu
  deriving DecidableEq, Repr

/-- The three CSR operations; the source is a register or a 5-bit immediate. -/
inductive CsrOp where
  | rw | rs | rc
  deriving DecidableEq, Repr

inductive SysOp where
  | ecall | ebreak | mret | sret | wfi
  deriving DecidableEq, Repr

/-- A standard RV64 instruction other than a load, a store, an atomic or a fence, which are steps of their own in the
table (R48). Branch and jump offsets are kept without their zero bit 0. -/
inductive Rv where
  | lui (rd : Reg) (imm : BitVec 20)
  | auipc (rd : Reg) (imm : BitVec 20)
  | jal (rd : Reg) (off : BitVec 20)
  | jalr (rd rs1 : Reg) (imm : BitVec 12)
  | branch (op : BranchOp) (rs1 rs2 : Reg) (off : BitVec 12)
  | imm (op : ImmOp) (rd rs1 : Reg) (imm : BitVec 12)
  | addiw (rd rs1 : Reg) (imm : BitVec 12)
  | shift (op : ShiftOp) (rd rs1 : Reg) (sh : BitVec 6)
  | shiftw (op : ShiftWOp) (rd rs1 : Reg) (sh : BitVec 5)
  | un (op : UnOp) (rd rs1 : Reg)
  | alu (op : AluOp) (rd rs1 rs2 : Reg)
  | aluw (op : AluWOp) (rd rs1 rs2 : Reg)
  | csr (op : CsrOp) (rd rs1 : Reg) (num : BitVec 12)
  | csri (op : CsrOp) (rd : Reg) (uimm : BitVec 5) (num : BitVec 12)
  | sys (op : SysOp)
  | fencei
  deriving DecidableEq, Repr

/-- The standard atomics (A). -/
inductive AtOp where
  | lr | sc | swap | add | xor | and | or | min | max | minu | maxu
  deriving DecidableEq, Repr

/-- The atomic operations of custom-1 (R295). -/
inductive AmoOp where
  | add | and | or | xor | max | min | swap | cas
  deriving DecidableEq, Repr

/-- The part of Q0 that every command shares (R55); MOD is in the operands of each engine. -/
structure Hdr where
  wsem : BitVec 5
  wen : Bool
  rsem : BitVec 5
  ren : Bool
  bound : BitVec 20
  rnd : BitVec 2
  ovf : BitVec 2
  spec : Bool
  deriving DecidableEq, Repr

/-- RND of a decoded command (R69). -/
def Hdr.mode (h : Hdr) : Rnd :=
  if h.rnd = 1#2 then .rtz else if h.rnd = 2#2 then .rna else .rne

/-- OVF of a decoded command (R70). -/
def Hdr.ovm (h : Hdr) : Ovf :=
  if h.ovf = 1#2 then .sat else if h.ovf = 2#2 then .gaz else .ieee

/-- A 32-bit address operand (R57): register a0 to a7 and a signed byte offset. -/
abbrev Aop := BitVec 32

/-- The operands of a common command (R58). -/
structure CbArgs where
  cb : BitVec 5
  m : BitVec 9
  deriving DecidableEq, Repr

/-- The fields of an LD command (R148, R154, R156, R161). `q1hi` is SRC, or PAT of LD.FILL; `dst` is RMASK of
LD.MCAST; `q3` is cut as each command's layout says. -/
structure LdArgs where
  res : BitVec 2
  rft : Bool
  rreg : BitVec 3
  dcen : Bool
  span : BitVec 3
  tr : Bool
  cs : BitVec 4
  dst : BitVec 32
  q1hi : BitVec 32
  len0 : BitVec 16
  cnt1 : BitVec 12
  cnt2 : BitVec 12
  dctr : BitVec 12
  stype : BitVec 8
  q2z : BitVec 4
  q3 : BitVec 64
  deriving DecidableEq, Repr

/-- The fields of an ST command (R252, R253, R257, R259). -/
structure StArgs where
  res : BitVec 2
  z52 : BitVec 4
  dcen : Bool
  span : BitVec 3
  z1110 : BitVec 2
  gz : BitVec 3
  dst : BitVec 32
  src : BitVec 32
  len0 : BitVec 16
  cnt1 : BitVec 12
  cnt2 : BitVec 12
  dctr : BitVec 12
  stype : BitVec 8
  q2z : BitVec 4
  q3 : BitVec 64
  deriving DecidableEq, Repr

/-- MOD and the quarters of an MX command; the accessors beside the matrix engine name their parts. -/
structure MxArgs where
  md : BitVec 15
  q1 : BitVec 64
  q2 : BitVec 64
  q3 : BitVec 64
  deriving DecidableEq, Repr

/-- A vector operand specifier (R59). -/
structure VOp where
  reg : BitVec 6
  sel : BitVec 2
  swz : BitVec 3
  neg : Bool
  deriving DecidableEq, Repr

/-- The fields of a VX command (R169, R170). -/
structure VxArgs where
  msk : BitVec 4
  mz : Bool
  gz : BitVec 3
  xm : BitVec 7
  vd : BitVec 6
  z76 : BitVec 2
  etype : BitVec 8
  va : VOp
  vb : VOp
  vc : VOp
  kd : BitVec 4
  ka : BitVec 4
  kb : BitVec 4
  imm : BitVec 32
  etype2 : BitVec 8
  q2z : BitVec 24
  q3 : BitVec 64
  deriving DecidableEq, Repr

/-- The fields of a Contour command (R239). -/
structure CtArgs where
  causal : Bool
  pre : Bool
  modz : BitVec 13
  dst : BitVec 32
  src : BitVec 32
  len : BitVec 16
  rows : BitVec 12
  q2z : BitVec 4
  aux : BitVec 32
  spitch : BitVec 16
  dpitch : BitVec 16
  stype : BitVec 8
  dtype : BitVec 8
  row0 : BitVec 16
  deriving DecidableEq, Repr

/-- The fields of a Traverse command (R275). -/
structure TvArgs where
  fe : Bool
  fin : Bool
  modz : BitVec 13
  sreg : BitVec 3
  q1z : BitVec 13
  idx : BitVec 13
  q1zz : BitVec 3
  stw : BitVec 32
  src : BitVec 32
  spitch : BitVec 16
  ntok : BitVec 7
  q2z : BitVec 9
  q3 : BitVec 64
  deriving DecidableEq, Repr

/-- A fault record (R352), field by field; `Machine/Ops.lean` lays it out in its eight words. -/
structure FaultRec where
  cause : Nat
  detail : Nat := 0
  eng : Nat := 15
  vav : Bool := false
  stall : Bool := false
  halt : Bool := false
  cont : Bool := false
  ctx : Nat := 0
  slot : Nat := 0
  opc : Nat := 0
  va : Nat := 0
  prog : Nat := 0
  prog2 : Nat := 0
  wnum : Nat := 0
  wbuf : Bool := false
  wval : Bool := false
  wcnt : Nat := 0
  aux : Nat := 0
  aux2 : Nat := 0
  time : Nat := 0
  node : Nat := 0
  deriving DecidableEq, Repr

/-- Word `i` of a record (R352). -/
def FaultRec.word (r : FaultRec) (i : Nat) : W64 :=
  BitVec.ofNat 64 <|
    if i = 0 then
      r.cause % 256 + ((r.detail % 256) <<< 8) + ((r.eng % 16) <<< 16) + (b2n r.vav <<< 20) + (b2n r.stall <<< 21)
        + (b2n r.halt <<< 22) + (b2n r.cont <<< 23) + ((r.ctx % 256) <<< 24) + ((r.slot % 2 ^ 32) <<< 32)
    else if i = 1 then r.opc
    else if i = 2 then r.va
    else if i = 3 then r.prog
    else if i = 4 then
      r.prog2 % 2 ^ 32 + ((r.wnum % 32) <<< 32) + (b2n r.wbuf <<< 37) + (b2n r.wval <<< 38) + ((r.wcnt % 65536) <<< 48)
    else if i = 5 then r.aux
    else if i = 6 then r.aux2
    else r.time % 2 ^ 48 + ((r.node % 4096) <<< 48)

/-- Causes whose records the management log also receives (R353). -/
def FaultRec.logged (r : FaultRec) : Bool :=
  decide (4 ≤ r.cause ∧ r.cause ≤ 8 ∨ r.cause = 12 ∨ r.cause = 19)

/-- A read-modify-write: of the standard (on 4 or 8 bytes), of custom-1 (with what a `cas` compares), or an arrival (R49, R295, R298). -/
inductive Rmw where
  | std (op : AtOp) (dbl : Bool) (x : W64)
  | scoped (op : AmoOp) (x cmp : W64)
  | arrive
  deriving DecidableEq, Repr

/-- Bytes of a read-modify-write. -/
def Rmw.len : Rmw → Nat
  | .std _ dbl _ => if dbl then 8 else 4
  | _ => 8

/-- What the slots of fabric flits carry between packages (R286, R369 to R372), by class: requests, responses, posted messages. The
spec gives the slots no coding of their own (log 82). -/
inductive FabMsg where
  -- class 0: a read of the receiver's DRAM space, an atomic or an arrival there that wants its reply, and a walker's question of R271:
  -- its die, and whether the task is not yet counted in LIVE
  | read (tag off len : Nat)
  | rmw (tag off : Nat) (op : Rmw)
  | dispatchAsk (s die : Nat) (fresh : Bool)
  -- class 1: the answers: bytes or a failure, what Waypoint says (0 dispatch, 1 hold, 2 drop), and those of a D side
  | data (tag : Nat) (bytes : List Byte)
  | failed (tag code : Nat)
  | dispatchSays (s answer : Nat) (fresh : Bool)
  | streamReply (s idx code : Nat)
  | sealPassed (s n : Nat)
  | lifted (s : Nat)
  | discarded (s : Nat)
  -- class 2: a remote write and a posted arrival at DRAM-space offsets, and the abandon messages of a collective and of a stream, from its
  -- D side and from its home
  | write (off : Nat) (data : List Byte)
  | arrive (off : Nat)
  | abandon
  | streamAbandon (s : Nat)
  | homeAbandon (s : Nat)
  -- class 2: Traverse to a D side: admission, opening, blocks, a seal, and Waypoint's orders; from it, a task of the stream that ended
  | streamAdmit (s : Nat) (request : List Byte)
  | streamOpen (s : Nat)
  | streamBlock (s idx : Nat) (data : List Byte) (outliers : List (Nat × Nat))
  | streamSeal (s n : Nat)
  | streamLift (s : Nat)
  | streamDiscard (s : Nat)
  | streamClose (s : Nat)
  | abortTasks (s : Nat)
  | taskEnded (s : Nat)
  deriving DecidableEq, Repr

/-- The class of a message (R370). -/
def FabMsg.cls : FabMsg → Nat
  | .read _ _ _ | .rmw _ _ _ | .dispatchAsk _ _ _ => 0
  | .data _ _ | .failed _ _ | .dispatchSays _ _ _ | .streamReply _ _ _ | .sealPassed _ _ | .lifted _ | .discarded _ => 1
  | _ => 2

/-- The bytes that a message carries. -/
def FabMsg.bytes : FabMsg → List Byte
  | .data _ l | .write _ l | .streamAdmit _ l | .streamBlock _ _ l _ => l
  | _ => []

/-- Do the three line slots and the two request slots of a flit hold the messages that it completes (R369)? The lines of a longer
message came in flits before it (log 82). -/
def slotsHold (l : List FabMsg) : Bool :=
  decide ((l.filter fun m => !m.bytes.isEmpty).length ≤ 3) && decide ((l.filter fun m => m.bytes.isEmpty).length ≤ 2)

end Sys2Proof
end

