-- ==== Sys2Proof/Syntax.lean ====
section
/-! DEFINITION. The steps of the H2, one constructor per row of the table of operations and events
(spec/opcode_table.json; 95_what_each_step_holds.md: each step whole and indivisible). Control instructions carry the
fields of their encoding (R50 to R53), engine commands the fields of Q0 and of their engine's layout, and events the
data that their description names. -/
namespace Sys2Proof

inductive Instr where
  -- custom-0 (R51)
  | ringPost (e : Eng) (imm : BitVec 12)
  | ringPostReg (e : Eng) (rs1 : Reg) (imm : BitVec 12)
  | ringPostFresh (e : Eng) (imm : BitVec 12)
  | ringPostFreshReg (e : Eng) (rs1 : Reg) (imm : BitVec 12)
  | ringWait (e : Eng) (rs1 : Reg)
  | ringPtr (rd : Reg) (e : Eng)
  | semRaise (n : BitVec 5)
  | semWait (n : BitVec 5)
  | semRead (rd : Reg) (n : BitVec 5)
  | semTry (rd : Reg) (n : BitVec 5)
  | cbCfg (n : BitVec 5) (rs1 rs2 : Reg)
  | cbClaim (n : BitVec 5) (rs1 : Reg)
  | cbPush (n : BitVec 5) (rs1 : Reg)
  | cbTake (n : BitVec 5) (rs1 : Reg)
  | cbRel (n : BitVec 5) (rs1 : Reg)
  | cbStat (rd : Reg) (n : BitVec 5)
  | condSet (rs1 rs2 : Reg)
  | depDec (rs1 : Reg)
  | graphLaunch (rs1 : Reg)
  | datumRd (rd : Reg)
  | datumWait (rs1 : Reg)
  | snapRd (rd rs1 : Reg)
  -- custom-1 (R52)
  | ldAcq (sc : Bool) (s : Scope) (rd rs1 : Reg)
  | sdRel (sc : Bool) (s : Scope) (rs2 rs1 : Reg)
  | amoAdd (sc : Bool) (s : Scope) (rd rs2 rs1 : Reg)
  | amoAnd (sc : Bool) (s : Scope) (rd rs2 rs1 : Reg)
  | amoOr (sc : Bool) (s : Scope) (rd rs2 rs1 : Reg)
  | amoXor (sc : Bool) (s : Scope) (rd rs2 rs1 : Reg)
  | amoMax (sc : Bool) (s : Scope) (rd rs2 rs1 : Reg)
  | amoMin (sc : Bool) (s : Scope) (rd rs2 rs1 : Reg)
  | amoSwap (sc : Bool) (s : Scope) (rd rs2 rs1 : Reg)
  | amoCas (sc : Bool) (s : Scope) (rd rs2 rs1 : Reg)
  | fenceScoped (s : Scope)
  | arrive (s : Scope) (rd rs1 : Reg)
  | wait (s : Scope) (rs1 rs2 : Reg)
  -- custom-2 (R53)
  | ctxSave (rs1 : Reg)
  | ctxRest (rs1 : Reg)
  | fqRd (rd rs1 : Reg)
  | ringCfg (e : Eng) (rs1 rs2 : Reg)
  | ringOwn (e : Eng) (rs1 : Reg)
  | semSet (n : BitVec 5) (rs1 : Reg)
  | errInj (rs1 rs2 : Reg)
  -- standard accesses and the control core's own events
  | standardFence (fm pred succ : BitVec 4) (rs1 rd : Reg)
  | standardAtomic (op : AtOp) (dbl aq rl : Bool) (rd rs1 rs2 : Reg)
  | sfenceVma (rs1 rs2 : Reg)
  | controlCoreLoad (k : MemKind) (rd rs1 : Reg) (imm : BitVec 12)
  | controlCoreStore (k : MemKind) (rs2 rs1 : Reg) (imm : BitVec 12)
  | registerWrite (addr : BitVec 52) (v : W64)
  -- what every engine command passes through
  | faultRecordWrite (r : FaultRec)
  -- commands of every engine (R58)
  | nop (e : Eng) (h : Hdr)
  | cbRelCommand (e : Eng) (h : Hdr) (a : CbArgs)
  | cbClaimCommand (e : Eng) (h : Hdr) (a : CbArgs)
  | cbPushCommand (e : Eng) (h : Hdr) (a : CbArgs)
  | cbTakeCommand (e : Eng) (h : Hdr) (a : CbArgs)
  -- LD ring (R62)
  | ldTile (h : Hdr) (a : LdArgs)
  | ldGather (h : Hdr) (a : LdArgs)
  | ldMcast (h : Hdr) (a : LdArgs)
  | ldBmv (h : Hdr) (a : LdArgs)
  | ldBpn (h : Hdr) (a : LdArgs)
  | ldCvt (h : Hdr) (a : LdArgs)
  | ldPref (h : Hdr) (a : LdArgs)
  | ldMove (h : Hdr) (a : LdArgs)
  | ldFill (h : Hdr) (a : LdArgs)
  | multicastLanding (i : Nat)
  -- ST ring (R62)
  | stTile (h : Hdr) (a : StArgs)
  | stScat (h : Hdr) (a : StArgs)
  | stBmv (h : Hdr) (a : StArgs)
  | stDtile (h : Hdr) (a : StArgs)
  | stDscat (h : Hdr) (a : StArgs)
  | stCvt (h : Hdr) (a : StArgs)
  | stWb (h : Hdr) (a : StArgs)
  | stFlush (h : Hdr) (a : StArgs)
  -- MX ring (R63)
  | mmaBf16 (h : Hdr) (a : MxArgs)
  | mmaFp8 (h : Hdr) (a : MxArgs)
  | mmaI8 (h : Hdr) (a : MxArgs)
  | mmaQ4 (h : Hdr) (a : MxArgs)
  | mvBf16 (h : Hdr) (a : MxArgs)
  | mvFp8 (h : Hdr) (a : MxArgs)
  | mvI8 (h : Hdr) (a : MxArgs)
  | mvQ4 (h : Hdr) (a : MxArgs)
  | accZero (h : Hdr) (a : MxArgs)
  | accLd (h : Hdr) (a : MxArgs)
  | accSt (h : Hdr) (a : MxArgs)
  | accScale (h : Hdr) (a : MxArgs)
  -- VX ring (R64)
  | vxVld (h : Hdr) (a : VxArgs)
  | vxVst (h : Hdr) (a : VxArgs)
  | vxVldk (h : Hdr) (a : VxArgs)
  | vxVstk (h : Hdr) (a : VxArgs)
  | vxMov (h : Hdr) (a : VxArgs)
  | vxMovi (h : Hdr) (a : VxArgs)
  | vxIota (h : Hdr) (a : VxArgs)
  | vxPjLd (h : Hdr) (a : VxArgs)
  | vxAdd (h : Hdr) (a : VxArgs)
  | vxSub (h : Hdr) (a : VxArgs)
  | vxAdds (h : Hdr) (a : VxArgs)
  | vxSubs (h : Hdr) (a : VxArgs)
  | vxMul (h : Hdr) (a : VxArgs)
  | vxMulh (h : Hdr) (a : VxArgs)
  | vxMin (h : Hdr) (a : VxArgs)
  | vxMax (h : Hdr) (a : VxArgs)
  | vxAbs (h : Hdr) (a : VxArgs)
  | vxMadd (h : Hdr) (a : VxArgs)
  | vxDot (h : Hdr) (a : VxArgs)
  | vxDots (h : Hdr) (a : VxArgs)
  | vxAnd (h : Hdr) (a : VxArgs)
  | vxOr (h : Hdr) (a : VxArgs)
  | vxXor (h : Hdr) (a : VxArgs)
  | vxAndn (h : Hdr) (a : VxArgs)
  | vxSll (h : Hdr) (a : VxArgs)
  | vxSrl (h : Hdr) (a : VxArgs)
  | vxSra (h : Hdr) (a : VxArgs)
  | vxRol (h : Hdr) (a : VxArgs)
  | vxPopc (h : Hdr) (a : VxArgs)
  | vxClz (h : Hdr) (a : VxArgs)
  | vxCmpEq (h : Hdr) (a : VxArgs)
  | vxCmpNe (h : Hdr) (a : VxArgs)
  | vxCmpLt (h : Hdr) (a : VxArgs)
  | vxCmpLe (h : Hdr) (a : VxArgs)
  | vxCmpLtu (h : Hdr) (a : VxArgs)
  | vxCmpLeu (h : Hdr) (a : VxArgs)
  | vxSel (h : Hdr) (a : VxArgs)
  | vxCsel (h : Hdr) (a : VxArgs)
  | vxKand (h : Hdr) (a : VxArgs)
  | vxKor (h : Hdr) (a : VxArgs)
  | vxKxor (h : Hdr) (a : VxArgs)
  | vxKnot (h : Hdr) (a : VxArgs)
  | vxKmov (h : Hdr) (a : VxArgs)
  | vxKpop (h : Hdr) (a : VxArgs)
  | vxPerm (h : Hdr) (a : VxArgs)
  | vxBcast (h : Hdr) (a : VxArgs)
  | vxSlideup (h : Hdr) (a : VxArgs)
  | vxSlidedn (h : Hdr) (a : VxArgs)
  | vxZip (h : Hdr) (a : VxArgs)
  | vxUnzip (h : Hdr) (a : VxArgs)
  | vxProj (h : Hdr) (a : VxArgs)
  | vxRsum (h : Hdr) (a : VxArgs)
  | vxRand (h : Hdr) (a : VxArgs)
  | vxRor (h : Hdr) (a : VxArgs)
  | vxRmax (h : Hdr) (a : VxArgs)
  | vxRmin (h : Hdr) (a : VxArgs)
  | vxRargmax (h : Hdr) (a : VxArgs)
  | vxRargmin (h : Hdr) (a : VxArgs)
  | vxFadd (h : Hdr) (a : VxArgs)
  | vxFsub (h : Hdr) (a : VxArgs)
  | vxFmul (h : Hdr) (a : VxArgs)
  | vxFfma (h : Hdr) (a : VxArgs)
  | vxFdiv (h : Hdr) (a : VxArgs)
  | vxFsqrt (h : Hdr) (a : VxArgs)
  | vxFrsq (h : Hdr) (a : VxArgs)
  | vxFmin (h : Hdr) (a : VxArgs)
  | vxFmax (h : Hdr) (a : VxArgs)
  | vxFabs (h : Hdr) (a : VxArgs)
  | vxFcmpEq (h : Hdr) (a : VxArgs)
  | vxFcmpLt (h : Hdr) (a : VxArgs)
  | vxFcmpLe (h : Hdr) (a : VxArgs)
  | vxFcmpUn (h : Hdr) (a : VxArgs)
  | vxFrsum (h : Hdr) (a : VxArgs)
  | vxCvt (h : Hdr) (a : VxArgs)
  | vxQzL8 (h : Hdr) (a : VxArgs)
  | vxDqL8 (h : Hdr) (a : VxArgs)
  | vxBps (h : Hdr) (a : VxArgs)
  | vxBpm (h : Hdr) (a : VxArgs)
  | vxScacc (h : Hdr) (a : VxArgs)
  -- CT ring (R65)
  | ctMax (h : Hdr) (a : CtArgs)
  | ctExpsum (h : Hdr) (a : CtArgs)
  | ctScale (h : Hdr) (a : CtArgs)
  | ctSoftmax (h : Hdr) (a : CtArgs)
  | ctRmsnorm (h : Hdr) (a : CtArgs)
  | ctLayernorm (h : Hdr) (a : CtArgs)
  | ctSumsq (h : Hdr) (a : CtArgs)
  -- TV ring (R66)
  | tvOpen (h : Hdr) (a : TvArgs)
  | tvBlk (h : Hdr) (a : TvArgs)
  | tvSeal (h : Hdr) (a : TvArgs)
  | tvCancel (h : Hdr) (a : TvArgs)
  | tvCancelFin (h : Hdr) (a : TvArgs)
  | tvStat (h : Hdr) (a : TvArgs)
  | tvAcq (h : Hdr) (a : TvArgs)
  | tvDisc (h : Hdr) (a : TvArgs)
  | tvFree (h : Hdr) (a : TvArgs)
  -- Traverse and Waypoint events (R270 to R287); `i` is a place in the channel
  | blockArrival (i : Nat) (bad written : List Nat)
  | sealArrival (i : Nat) (bad : Bool)
  | fenceLifted (s : Nat)
  | discardAck (s : Nat)
  | cancelComplete (s : Nat)
  | peerLost (pkg : Nat)
  | streamAbandon (s : Nat)
  -- scheduling (R333 to R345)
  | doorbell (q : BitVec 12)
  | vfDoorbell (f : Nat) (q : BitVec 12)
  | packetTake (d i : Nat)
  | instanceCreate (g : Nat)
  | instanceStart (g : Nat)
  | counterDecrement (d : Nat) (c : BitVec 12) (skip : Bool)
  | taskDispatch (d : Nat)
  | conditionalNode (g n : Nat)
  | whileNode (g n : Nat)
  | joinNode (g n : Nat)
  | timedStartNode (g n : Nat)
  | transformJob (g n : Nat)
  | quantumEnd (d i : Nat)
  | preemptionGraceExpiry (c : Nat)
  -- faults and translation (R355 to R359)
  | engineResume (mask : BitVec 6)
  | pageWalk (va : W64) (write : Bool)
  | tlbInvalPage (vpn : BitVec 36) (asid : BitVec 16) (ctx : Byte)
  | tlbInvalAsid (asid : BitVec 16) (ctx : Byte)
  | tlbInvalCtx (ctx : Byte)
  -- region table, hub array, swap engine (R97 to R127)
  | hubSplitWrite (c : Byte) (v : W64)
  | hubFlushRange (base : BitVec 52) (len : BitVec 48)
  | hubFlushWays (first last : BitVec 4)
  | hubFlushContext (c : Byte)
  | layerThermalTrip (l : BitVec 2)
  | layerDrainDeadline (l : BitVec 2)
  | layerRestart (mask : BitVec 4)
  -- scratchpads (R131 to R143); `n` is a core, `g` a bank group
  | scratchpadArbitration (n g : Nat)
  | reconstructedRead (n g b r : Nat)
  | bankRetire (n : Nat) (b : BitVec 4) (g : BitVec 2)
  | rebuildComplete (n : Nat)
  -- mailbox, propagation hold, host, fabric, O-dies, management
  | mailboxRequest (v : W64)
  | mailboxResponse (n : Nat) (v : W64)
  | pholdWrite (v : W64)
  | hostRead (off len : Nat)
  | hostWrite (off : Nat) (data : List Byte)
  | functionLevelReset (f : Nat)
  | flitReceive (l : Nat) (body : List Byte) (crc : W64) (msgs : List FabMsg)
  | linkDown (l : Nat)
  | collectiveAbandon (pkg : Nat)
  | frameTransmit (port : Nat)
  | frameReceive (port : Nat) (data : List Byte)
  | laneMapWrite (o f : Nat) (v : W64)
  | replayControlWrite (o : Nat) (v : W64)
  | monitorReplayRead (o : Nat) (rd : Reg)
  | heaterWrite (o n : Nat) (v : W64)
  | monitorConversion (o n : Nat) (sample : BitVec 12)
  | laneServiceRun (o : Nat) (v : W64)
  | temperatureConversion (d : Nat) (temp : BitVec 12)
  | throttleGateApply (d : Nat)
  | standardInstruction (i : Rv)
  | postedArrival (i : Nat)
  | storeQueueDrain (i : Nat)
  | invalidationTaken (i : Nat)
  | timingPortLock (ns : Nat)
  | linkOpen (l pkg : Nat)
  | memoryControllerDown (d : Nat)
  | memoryControllerUp (d : Nat)
  | coreResetRelease (die : Nat)
  -- the steps that carry no operand, of every group above
  | taskRetire
  | taskAbort
  | taskDirect
  | taskYield
  | snapTrig
  | fqPop
  | waitComplete
  | waitOverrun
  | engineFaultException
  | engineAwaitTaken
  | commandRetire
  | boundOverrun
  | waypointAdmit
  | waypointCancel
  | waypointRelease
  | engineKill
  | tlbInvalAll
  | regionTableCommit
  | regionTableDrainDone
  | hubThaw
  | predictorClear
  | swapJob
  | heldWriteRelease
  | scRebase
  | firmwareGo
  | packageReset
  | logPush
  | surveyMgmtTrigger
  | surveyRearm
  | surveyTimeTrigger
  | localInterrupt
  | cxlLinkDown
  | cxlLinkUp
  | hubFlushDone
  | tlbInvalidationDone
  | swapRemapCommit
  deriving DecidableEq, Repr

end Sys2Proof
end

