-- ==== Sys2Proof/Config.lean ====
section
/-! DEFINITION. What an implementation fixes, and the free values: constants without a body, of which no proof can see
the value. Each is named in the assumption log. -/
namespace Sys2Proof

/-- What one step of the model performs: the turn of an agent, of an engine, an event, or the passing of time. The table
of the spec lists indivisible steps of many agents; which of them comes next the spec leaves to the machine
(log 1). -/
inductive Turn where
  /-- A control core, the management core or a lane service core comes to its next instruction boundary. -/
  | hart (a : Agent)
  /-- The next released slot of a ring becomes the engine's program counter (R24, R67). -/
  | start (n : Nat) (e : Eng)
  /-- The `i`th command in flight of a ring, oldest first, goes one step further: its work past at most `k` boundaries. `slow`
  says that a decoder then passes its cycle bound (R159). -/
  | advance (n : Nat) (e : Eng) (i : Nat) (k : Option Nat := none) (slow : Bool := false)
  /-- An event of the table; `slow` as before, for the decoder of a hub transform. -/
  | event (i : Instr) (slow : Bool := false)
  /-- `k` control cycles pass. -/
  | time (k : Nat)
  deriving DecidableEq, Repr, Inhabited

namespace Config

/-- Which turn comes next when the agenda is empty, by the count of free values taken (log 1). -/
opaque freeTurn : Nat → Turn

/-- A 64-bit value the spec leaves open, by the count of free values taken. -/
opaque freeWord : Nat → W64

/-- Whether a thing the spec leaves open happens, by the count of free values taken. -/
opaque freeBool : Nat → Bool

/-- How far die `d`'s local copy of Datum time stands from the hub's: the copy is within 2 ns of it (R333), so the
value counts modulo 5, less 2 (log 6). -/
opaque datumSkew : Nat → Nat

/-- The code of an integer element result that the spec calls exact and that does not fit its type: of MIN and MAX with a
negated operand (R178), by type code and exact value (log 18). -/
opaque unstatedElem : Nat → Int → Nat

/-- The identification registers of the RISC-V standard, whose values the spec does not give (log 7). -/
opaque mvendorid : W64
opaque marchid : W64
opaque mimpid : W64

end Config

end Sys2Proof
end

