-- ==== Sys2Proof/Machine/State.lean ====
section
/-! DEFINITION. The state of the package as plain data, everything the spec names in it, and its value after package
reset (R365). Sparse parts are tables in canonical form (`Machine/Bits.lean`); each table's default is its content at
reset. -/
namespace Sys2Proof.Machine

/-! ### Control cores -/

/-- Privilege modes (R48). -/
inductive Priv where
  | u | s | m
  deriving DecidableEq, Repr

/-- Whether a hart is held in reset (R365, R389), idle with no task to run (R343), or running. -/
inductive RunState where
  | reset | idle | run
  deriving DecidableEq, Repr

/-- A TLB entry (R357): its tag (context, ASID or global, virtual page of its size) and what it holds. -/
structure TlbEntry where
  ctx : Nat
  asid : Nat
  global : Bool
  vbase : Nat
  size : Nat
  pbase : Nat
  r : Bool
  w : Bool
  x : Bool
  user : Bool
  dirty : Bool
  home : Nat
  deriving DecidableEq, Repr

/-- What a waiting instruction waits for (R288). -/
inductive WaitKind where
  | ring (e : Eng) (x : Nat)
  | sem (n : Nat)
  | cbClaim (n m : Nat)
  | cbTake (n m : Nat)
  | datum (t : Nat)
  | barrier (s : Scope) (va : Nat) (ph : Bool)
  | retire
  | yield_
  deriving DecidableEq, Repr

structure WaitSt where
  since : Nat
  kind : WaitKind
  deriving DecidableEq, Repr

/-- A hart: x1 to x31, the pc, the mode, the CSRs that differ from their reset value by number, the control-core TLB
(R357), the load reservation (R49), the wait in progress (R288), and whether it runs. -/
structure Hart where
  run : RunState
  priv : Priv
  pc : W64
  x : Table W64
  csr : Table W64
  tlb : List TlbEntry
  resv : Option Nat
  wait : Option WaitSt
  deriving DecidableEq, Repr

/-! ### Engine rings -/

/-- The origin record of a slot (R26): the pc of its `ring.post`, a0 to a7, and the `satp` and context under which its
accesses translate (R357). -/
structure Origin where
  pc : W64
  a : List W64
  satp : W64
  ctx : Nat
  deriving DecidableEq, Repr

/-- Where a command in flight stands: awaiting its semaphore or buffer, about to do its work, done and about to retire,
ended by a fault whose record its retirement writes, stalled on a translation fault with its record written, or
halted with its record written. -/
inductive Phase where
  | await | ready | done
  | failed (r : FaultRec)
  | stalled | halted
  deriving DecidableEq, Repr

/-- The progress of a command (R304, R306, R352): copy offset, Contour row, nest counters, and whether Z was applied. -/
structure Prog where
  off : Nat
  row : Nat
  n : List Nat
  z : Bool
  deriving DecidableEq, Repr

/-- What a staging area holds for one of its lines (R33, R251): a line of memory, a line whose page has no translation yet by its virtual
address, the decrements of a counter, a launch packet. -/
inductive Room where
  | line (l : Nat)
  | page (l : Nat)
  | counter (k : Nat)
  | launch
  deriving DecidableEq, Repr

/-- A command in flight (R28): its slot pointer, its four quarters as the engine read them, its origin record, since
when it is the engine's program counter (R29; while stalled, the cycles counted so far, R355), whether it took its semaphore and its buffer slots, its progress, the
latched descriptor of a product command (R223) with the accumulator elements its saturated sums hold (R91), the continuing
records its retirement will write (R73), the staging lines it needs, once it has reserved (R251), the list, rows or header it has read
before it writes (R154, R158, R246, R257, R259), and the halves of poisoned bank lines that it has at hand (R138). -/
structure Flight where
  slot : W32
  q0 : W64
  q1 : W64
  q2 : W64
  q3 : W64
  org : Origin
  since : Nat
  phase : Phase
  taken : Bool
  claimed : Bool
  prog : Prog
  latch : Option (List Byte)
  stuck : List Nat
  recs : List FaultRec
  resv : Option (List Room) := none
  list : Option (List Byte) := none
  halves : List Nat := []
  deriving DecidableEq, Repr

/-- A command ring (R24, R309). -/
structure Ring where
  base : Nat
  size : Nat
  owner : Bool
  write : W32
  read : W32
  retire : W32
  org : Table Origin
  flight : List Flight
  halted : Bool
  deriving DecidableEq, Repr

/-- A circular buffer (R31, R145, R306); `clm` holds the claimed and unpushed slots of each ring by ENG number. -/
structure Cb where
  configured : Bool
  base : Nat
  sizeCode : Nat
  count : Nat
  free : Nat
  filled : Nat
  held : Nat
  inflight : Nat
  prod : Nat
  cons : Nat
  ccClm : Nat
  clm : Table Nat
  deriving DecidableEq, Repr

/-! ### Tasks -/

/-- The task a core holds (R20, R300): its instance and node, its context, whether the node is suspendable, whether the
task is pinned (R38), its stream (R271), its SAVE address, the node's physical address, its priority, the launch
time of its dispatch, and since when it is pending pre-emption (R345). -/
structure TaskSt where
  inst : Nat
  node : Nat
  ctx : Nat
  susp : Bool
  pinned : Bool
  stream : Option Nat
  save : Nat
  nodePa : Nat
  prio : Nat
  since : Nat
  pend : Option Nat
  deriving DecidableEq, Repr

/-- A store in a control core's store queue (R313): physical address, bytes, whether its home is UNCACHED, what a release store covers
and at which scope (R316), and whether it is performed beyond the cluster at once (R319). -/
structure SqEntry where
  pa : Nat
  data : List Byte
  uncached : Bool
  cov : List Nat := []
  covScope : Scope := .core
  wide : Bool := false
  deriving DecidableEq, Repr

/-- A staged line (R122, R263): whether it holds all 64 bytes or only those written, its sticky class (R252), and the
address of its line of the spill area, where it lies there. -/
structure StagedLine where
  whole : Bool
  sticky : Bool
  spill : Option Nat := none
  va : Nat := 0
  deriving DecidableEq, Repr

def StagedLine.spilled (l : StagedLine) : Bool := l.spill.isSome

/-- A task's staged output (R33): bytes by physical address, the lines they lie in, decrements by counter, and launch
packets with the launching context. -/
structure Staging where
  bytes : Table (Option Byte)
  lines : Table (Option StagedLine)
  decs : Table Nat
  launches : List (Nat × List Byte)
  deriving DecidableEq, Repr

/-- A bank group's state (R134, R139): mode 0 HEALTHY, 1 REBUILDING, 2 DEGRADED; the retired bank; stale rows, oldest
first; lines poisoned by rebuild. -/
structure Group where
  mode : Nat
  fbank : Nat
  stale : List Nat
  lost : Nat
  deriving DecidableEq, Repr

/-- A core with its engines. `rebuild` names the bank and group of a rebuild in progress (R141), `spRes` the result of the
last retirement (R140); a staging area, the store queue, lines of which it observed a write that some die does not see yet (R316), its engine TLB,
its `.sc` clock (R319) and its Survey bank (R400) stand beside the engines' registers. `dropFor` holds the first slots released
by the FRESH posts whose drop is due (R224). `frozen` holds the engines of a
suspended or restored context until `sret` (R304, R307), `resuming` names the instance and the node of a resume request under
way (R345). An accumulator element is kept as the 64-bit value its context area holds (R306): the FP32 code in the low half,
or the 48-bit integer sign-extended. -/
structure Core where
  hart : Hart
  rings : Table Ring
  sems : Table W16
  cbs : Table Cb
  v : Table W32
  vpois : Table Bool
  vorg : Table (Nat × Nat)
  k : Table (BitVec 128)
  pj : Table W64
  acc : Table W64
  accInt : Table Bool
  descs : List (Nat × List Byte)
  dropDue : Bool
  dropFor : List (Nat × W32)
  tags : Table Nat
  flips : Table W64
  linePois : Table Bool
  stuck : Table Bool
  ce : Table Nat
  ue : Table Nat
  groups : Table Group
  rebuild : Option (Nat × Nat)
  spRes : Nat
  fq : List FaultRec
  fqHeld : List FaultRec
  task : Option TaskSt
  suspended : Bool
  suspRegs : Table W64
  suspPc : W64
  frozen : Bool
  resuming : Option (Nat × Nat)
  staging : Staging
  sq : List SqEntry
  observed : List Nat
  etlb : List TlbEntry
  clk : Nat
  snap : Table W64
  deriving DecidableEq, Repr

/-! ### Memory beside its bytes -/

/-- What a 64-byte line carries beside its bytes (R105, R109): the poison bit, and the difference between the stored
check value and the check value of the stored bytes (0 when the check is good). -/
structure LineMeta where
  poison : Bool
  diff : W32
  deriving DecidableEq, Repr

/-- The tag of a hub or cluster-cache line (R113): its address, owner context, sticky bit, the core that staged it and
which half it staged (R122), predictor index, reused bit, LRU stamp, whether it is dirty and since when, and by how much the
check value of each half of this copy differs from a good one (R106). -/
structure CTag where
  addr : Nat
  ctx : Nat
  sticky : Bool
  staged : Option Nat
  half : Nat := 0
  pidx : Nat
  reused : Bool
  lru : Nat
  dirty : Bool
  dirtyAt : Nat
  diff0 : W32 := 0
  diff1 : W32 := 0
  deriving DecidableEq, Repr

/-- A write held by the propagation hold (R385), under a number of its own. -/
structure HeldWrite where
  cluster : Nat
  core : Nat
  pa : Nat
  data : List Byte
  at_ : Nat
  chosen : Bool
  ctx : Nat := 0
  cls : Nat := 0
  no : Nat := 0
  deriving DecidableEq, Repr

/-- An old copy of a line that a die reads until it takes the hub's invalidation (R318), with the cores whose writes it is
older than (a write of no core has a number beyond theirs), and how many writes it is behind. -/
structure StaleCopy where
  die : Nat
  line : Nat
  data : List Byte
  writers : List Nat := []
  behind : Nat := 1
  deriving DecidableEq, Repr

/-- A write held at the swap engine (R125), under a number of its own. -/
structure WaitingWrite where
  core : Option Nat
  pa : Nat
  data : List Byte
  no : Nat := 0
  deriving DecidableEq, Repr

/-- A home-directory record (R103): a physical range, its effective home, and how many TLB entries hold it. -/
structure HomeRec where
  pbase : Nat
  size : Nat
  home : Nat
  count : Nat
  deriving DecidableEq, Repr

/-- The times of a line touched by `.sc` operations (R319, R320). -/
structure ScTimes where
  wts : Nat
  rts : Nat
  epoch : Nat
  deriving DecidableEq, Repr

/-- What a hub unit has taken on and cannot perform yet, because its line holds a held write (R385) or requests are held
(R101): a write; a status word, written as a release (R336); the end of a collective, its status word and its barrier word (R372); an
arrival from the fabric (R370), and a request of package `src` that wants its answer (R368); a doorbell (R335). -/
inductive Owed where
  | put (ctx pa : Nat) (data : List Byte)
  | word (ctx pa v : Nat)
  | collective (stw bar v : Nat)
  | arrive (pa : Nat)
  | answer (src : Nat) (m : FabMsg)
  | bell (q : Nat)
  deriving DecidableEq, Repr

/-- A posted arrival on its channel (R298). -/
structure Posted where
  core : Nat
  pa : Nat
  va : Nat
  scope : Scope
  cov : List Nat := []
  deriving DecidableEq, Repr

/-- A word written by a release of a core at a scope, and the lines with a covered write that some die does not see yet
(R316, R317): what an acquire that synchronises with it comes to cover. `held` is the number of the held write (R385) that it is
as long as PHOLD keeps it. `past` when a later write follows it there: only a die with an old copy still reads the release's
value. -/
structure RelCover where
  core : Nat
  scope : Scope
  word : Nat
  lines : List Nat
  past : Bool := false
  held : Option Nat := none
  deriving DecidableEq, Repr

/-- A multicast landing that has not been performed at its receiver (R161): sender, its slot, receiver core, landing
buffer, time, the rows' bytes by landing-buffer offset, its layout tag, and the outcomes the sender gathers. -/
structure Landing where
  sender : Nat
  slot : W32
  receiver : Nat
  lbuf : Nat
  land : Nat
  data : List (Nat × List Byte)
  extent : Nat
  tag : Nat
  deriving DecidableEq, Repr

/-- What a landing came to: sender, slot, receiver, reason (0 when it passed) (R162). -/
structure LandDone where
  sender : Nat
  slot : W32
  receiver : Nat
  reason : Nat
  deriving DecidableEq, Repr

/-- A job of the swap engine past its hold (R125). -/
structure SwapSt where
  desc : Nat
  src : Nat
  dst : Nat
  home : Nat
  ctx : Nat
  ptepa : Nat
  res : Nat
  lines : Nat
  data : List Byte
  held : List WaitingWrite
  deriving DecidableEq, Repr

/-- A hub flush in progress (R116): mode, ways or range or context, lines left to report. -/
structure FlushSt where
  mode : Nat
  a : Nat
  b : Nat
  res : Nat
  count : Nat
  deriving DecidableEq, Repr

/-- A package-wide translation invalidation in progress (R359), and the physical ranges of the entries it has removed. -/
structure TlbInv where
  mode : Nat
  vpn : Nat
  asid : Nat
  ctx : Nat
  gone : List (Nat × Nat) := []
  deriving DecidableEq, Repr

/-! ### Scheduling -/

/-- A hardware queue slot (R335, R337): the queue bound to it, since when its quantum runs, and the queue it was taken from, and
when. -/
structure QSlot where
  queue : Nat
  since : Nat
  after : Option (Nat × Nat) := none
  deriving DecidableEq, Repr

/-- Where a node of an instance stands (R342, R343). -/
inductive NodePhase where
  | waiting | ready | running | suspended | retired | skipped | dropped
  deriving DecidableEq, Repr

/-- What the walker has heard from the Waypoint of another package about a node of one of its streams (R271, R286): it must ask, has
asked, or may dispatch the node, or must drop it. -/
inductive Asked where
  | ask | waiting | go | drop
  deriving DecidableEq, Repr

/-- A node of an instance: its kind and fields from the graph (R339), its initial count and whether a plain release has
reached it (R342), when it became ready (R343), whether its suspended task is pinned (R38), the lines of which its suspended task has seen a write that some
observer does not see yet (R321), and of its rings what the commands that had started keep beyond the area (log 49), and for a stream of another package's Waypoint its
place in the table of records and what that Waypoint said. -/
structure NodeSt where
  kind : Nat
  flags : Nat
  nsuc : List Nat
  nelse : List Nat
  p0 : Nat
  p1 : Nat
  imgoff : Nat
  stream : Nat
  save : Nat
  init : Nat
  plain : Bool
  phase : NodePhase
  readyAt : Nat
  pinned : Bool := false
  seen : List Nat := []
  kept : List (Nat × List Flight) := []
  asked : Option (Nat × Asked) := none
  deriving DecidableEq, Repr

/-- A graph instance, or a packet taken that waits to become one (R336, R341): `born` tells them apart. -/
structure GInst where
  id : Nat
  die : Nat
  queue : Nat
  ctx : Nat
  prio : Nat
  gbase : Nat
  start : Nat
  done : Nat
  born : Bool
  started : Bool
  cbase : Nat
  nodes : List NodeSt
  fault : Option (Nat × Nat)
  revoked : Bool
  deriving DecidableEq, Repr

/-! ### Streams -/

/-- A Waypoint stream record (R268, R269) with what Waypoint and Traverse keep beside it: the accepted block indices,
the indices that received any line (R285), the fence (R274), a cancel deferred in SEALED (R282), the free notice
(`some true` from a grant, `some false` from a cancel, R284), whether a discard is ordered and whether the record
returns to PREFILL at its acknowledgement, the lost peer, and how many of the tasks that LIVE counts run on it (R286). -/
structure Stream where
  state : Nat
  owner : Nat
  ctx : Nat
  pdie : Nat
  ddie : Nat
  dpkg : Nat
  dbase : Nat
  nbmax : Nat
  nacc : Nat
  nseal : Nat
  tc : Nat
  dhc : Nat
  gzbase : Nat
  gzcap : Nat
  gznext : Nat
  gzlost : Nat
  live : Nat
  lasterr : Nat
  erridx : Nat
  seq : Nat
  tchg : Nat
  accepted : List Nat
  received : List Nat
  fenced : Bool
  deferred : Bool
  notice : Option Bool
  discarding : Bool
  toPrefill : Bool
  lost : Bool
  away : Nat := 0
  deriving DecidableEq, Repr

/-- A message on the channel of a P-die to a stream's D-die (R279): a block with its lines and outliers, or a seal; the
command it belongs to; and whether an earlier link error of the channel dooms it (R285). -/
structure TvMsg where
  pdie : Nat
  stream : Nat
  core : Nat
  slot : W32
  idx : Nat
  isSeal : Bool
  data : List Byte
  outliers : List (Nat × Nat)
  doomed : Option Nat
  deriving DecidableEq, Repr

/-- The outcome of a Traverse command that waits for the D side or for Waypoint: which command, its code, the block the
code concerns, and the state of the stream after the event. -/
structure TvReply where
  core : Nat
  slot : W32
  code : Nat
  idx : Nat
  st : Nat
  gzl : Bool
  deriving DecidableEq, Repr

/-! ### The edge of the package -/

/-- A fabric link (R369): up or down, consecutive CRC failures, the package it reaches, the next sequence number it
expects, and the credits and the acknowledged sequence number that the last good flit carried. -/
structure Link where
  up : Bool
  fails : Nat
  pkg : Nat
  seq : Nat
  credits : Nat := 0
  acked : Nat := 0
  deriving DecidableEq, Repr

/-- An Ethernet port (R373): the bases and sizes of its descriptor rings and its place in each, the frames sent, and the Datum times at
which frames passed. -/
structure EthPort where
  txBase : Nat
  txSize : Nat
  txNext : Nat
  rxBase : Nat
  rxSize : Nat
  rxNext : Nat
  sent : List (List Byte)
  stamps : List Nat := []
  deriving DecidableEq, Repr

/-- For which agent the instruction of a step is executed. -/
inductive Focus where
  | hart (a : Agent)
  | flight (n : Nat) (e : Eng) (i : Nat)
  | hub
  deriving DecidableEq, Repr

/-- An answer to a host access (R363): what leaves the package and no register holds. `unsupported` answers an access of
another width or alignment (R404). -/
structure HostReply where
  poisoned : Bool
  unsupported : Bool
  data : List Byte
  deriving DecidableEq, Repr

/-- The state of the package. The first six fields are the model's own: the turns to come, the count of free values
taken, for which agent the step acts, the length of the instruction it executes, at how many more boundaries the engine
of the turn goes on (`none`: at every one), and whether a decoder then passes its cycle bound; and `burst`, the bank lines
fetched so far by the reads that one access of an engine is made of, each with the fault it met (R135). So are `owed` (log 63), `svAt`, when Survey's trigger came (R399),
`relCov` (log 14) and `foreign`, the launched packets, by queue and index, that name another context than their task's (R336). -/
structure State where
  agenda : List Turn
  freeNo : Nat
  focus : Focus
  ilen : Nat
  left : Option Nat
  slow : Bool
  burst : Option (List (Nat × List Nat))
  now : Nat
  datum9 : Nat
  slew9 : Nat
  slewAcc : Nat
  locked : Bool
  mem : List Host.Cell
  lines : Table LineMeta
  mmio : Table W64
  cores : Table Core
  mgmt : Hart
  lanes : Table Hart
  dac : Table Nat
  coreReset : Table Bool
  ctrlDown : Table Bool
  cxlDown : Bool
  gate : Table Nat
  rtDrain : Bool
  homes : List HomeRec
  dieTlb : Table (List TlbEntry)
  tlbInv : Option TlbInv
  hubTags : Table (Option CTag)
  ccTags : Table (Option CTag)
  stamp : Nat
  dbp : Table Nat
  dbpSample : Nat
  frozenWays : Table Bool
  dirtyWays : Table Bool
  layerOff : Table Bool
  layerTrip : Table (Option Nat)
  flush : Option FlushSt
  swap : Option SwapSt
  stale : List StaleCopy
  heldW : List HeldWrite
  scLines : Table ScTimes
  epoch : Nat
  posted : List Posted
  landings : List Landing
  landDone : List LandDone
  savedSets : Table (Option Staging)
  depCnt : Table W16
  depUsed : Table Bool
  insts : List GInst
  instNo : Nat
  qslots : Table (Option QSlot)
  qwait : Table (Option Nat)
  widx : Table Nat
  streams : Table Stream
  tvChan : List TvMsg
  tvReply : List TvReply
  logHead : Nat
  mbox : List Nat
  timeFired : Bool
  svAt : Nat
  sens : Table Nat
  links : Table Link
  eth : Table EthPort
  hostOut : List HostReply
  fabOut : List (Nat × FabMsg)
  flr : List Nat
  flrLast : List Nat
  owed : List Owed
  relCov : List RelCover
  foreign : List (Nat × Nat)
  deriving DecidableEq, Repr

/-- Reasons for which a step stops with a fault. Neither is raised by a turn that `step` chooses for an agent of its own
kind. -/
inductive Fault where
  /-- An engine command was given to an agent that is no engine with that command in flight; raised by the meanings of
  engine commands. Safe: the machine has no such step. -/
  | notInFlight
  /-- A hart instruction was given to the hub or to an engine; raised by the meanings of control instructions. Safe: the
  machine has no such step. -/
  | notAHart
  deriving DecidableEq, Repr

/-- Reasons for which an instruction is refused. -/
inductive Refusal where
  /-- The instruction has no meaning in the model yet; raised by `exec`'s arms only. Safe: nothing is claimed. -/
  | notModelled (mnemonic : String)
  deriving DecidableEq, Repr

/-! ### After package reset (R365) -/

/-- A hart held in reset. The mode after reset is M (log 8). -/
def Hart.reset : Hart :=
  { run := .reset, priv := .m, pc := 0, x := [], csr := [], tlb := [], resv := none, wait := none }

/-- An origin record cleared (R309). -/
def Origin.empty : Origin := { pc := 0, a := [0, 0, 0, 0, 0, 0, 0, 0], satp := 0, ctx := 0 }

def Prog.start : Prog := { off := 0, row := 0, n := [], z := false }

/-- A ring no `ring.cfg` has configured: the smallest legal ring at offset 0 (log 9). -/
def Ring.reset : Ring :=
  { base := 0, size := 16, owner := false, write := 0, read := 0, retire := 0, org := [], flight := [], halted := false }

/-- An unconfigured buffer (R22). -/
def Cb.reset : Cb :=
  { configured := false, base := 0, sizeCode := 0, count := 0, free := 0, filled := 0, held := 0, inflight := 0,
    prod := 0, cons := 0, ccClm := 0, clm := [] }

def Group.reset : Group := { mode := 0, fbank := 0, stale := [], lost := 0 }

def Staging.empty : Staging := { bytes := [], lines := [], decs := [], launches := [] }

/-- A core held in reset, its engine registers zero (log 9). -/
def Core.reset : Core :=
  { hart := Hart.reset, rings := [], sems := [], cbs := [], v := [], vpois := [], vorg := [], k := [], pj := [],
    acc := [], accInt := [], descs := [], dropDue := false, dropFor := [], tags := [], flips := [], linePois := [], stuck := [], ce := [], ue := [],
    groups := [], rebuild := none, spRes := 0, fq := [], fqHeld := [], task := none, suspended := false,
    suspRegs := [], suspPc := 0, frozen := false, resuming := none, staging := Staging.empty, sq := [], observed := [], etlb := [],
    clk := 0, snap := [] }

def LineMeta.good : LineMeta := { poison := false, diff := 0 }

def ScTimes.zero : ScTimes := { wts := 0, rts := 0, epoch := 0 }

/-- A stream record after package reset (R269): IDLE, owned by H. -/
def Stream.reset : Stream :=
  { state := 0, owner := 0x0C, ctx := 0, pdie := 0, ddie := 0, dpkg := 0, dbase := 0, nbmax := 0, nacc := 0, nseal := 0,
    tc := 0, dhc := 0, gzbase := 0, gzcap := 0, gznext := 0, gzlost := 0, live := 0, lasterr := 0, erridx := 0, seq := 0,
    tchg := 0, accepted := [], received := [], fenced := false, deferred := false, notice := none, discarding := false,
    toPrefill := false, lost := false }

def Link.reset : Link := { up := false, fails := 0, pkg := 0, seq := 0 }

def EthPort.reset : EthPort :=
  { txBase := 0, txSize := 0, txNext := 0, rxBase := 0, rxSize := 0, rxNext := 0, sent := [] }

/-- The package right after package reset (R365): every core and the management core held in reset, links down, no
image, memory listing nothing, every register at its reset value. -/
def State.reset : State :=
  { agenda := [], freeNo := 0, focus := .hub, ilen := 4, left := none, slow := false, burst := none, now := 0, datum9 := 0, slew9 := 0, slewAcc := 0, locked := false, mem := [],
    lines := [], mmio := [], cores := [], mgmt := Hart.reset, lanes := [], dac := [], coreReset := [], ctrlDown := [],
    cxlDown := false, gate := [], rtDrain := false, homes := [], dieTlb := [], tlbInv := none, hubTags := [],
    ccTags := [], stamp := 0, dbp := [], dbpSample := 0, frozenWays := [], dirtyWays := [], layerOff := [],
    layerTrip := [], flush := none, swap := none, stale := [], heldW := [], scLines := [],
    epoch := 0, posted := [], landings := [], landDone := [], savedSets := [], depCnt := [], depUsed := [], insts := [],
    instNo := 0, qslots := [], qwait := [], widx := [], streams := [], tvChan := [], tvReply := [], logHead := 0,
    mbox := [], timeFired := false, svAt := 0, sens := [], links := [], eth := [], hostOut := [], fabOut := [], flr := [], flrLast := [], owed := [], relCov := [], foreign := [] }

end Sys2Proof.Machine
end

