-- ==== Sys2Proof/Machine/Ops.lean ====
section
/-! DEFINITION. The named operations over cores, harts, registers and MMIO that every meaning shares: identities (R10,
R11), register access, Datum time (R333), the error log (R398), Survey's latch (R399), fault records and the fault
queue (R351, R352), and taking an exception and returning from one (R347, R349, R350; the RISC-V privileged standard
that R48 names). -/
namespace Sys2Proof.Machine

/-! ### Stops: what ends an operation before its end -/

/-- A fault by its cause number of R353, with the detail and the two cause-specific words of a record; `va` and `off` are
filled in by whoever knows the address and the copy offset. -/
structure Flt where
  cause : Nat
  detail : Nat := 0
  aux : Nat := 0
  aux2 : Nat := 0
  va : Option Nat := none
  off : Option Nat := none
  deriving DecidableEq, Repr

/-- A precise trap: exception code, stval, and for codes 24 to 28 the cause and detail of `shcause` (R347, R348). -/
structure Trap where
  code : Nat
  tval : Nat := 0
  cause : Nat := 0
  detail : Nat := 0
  deriving DecidableEq, Repr

/-- Why an operation does not run to its end: a fault, a precise trap, a wait (R288), a request that is held where it
stands and changes nothing yet, or an engine that stops at a boundary of its command with what it has done standing (R304); its
copy offset there. -/
inductive Stop where
  | flt (f : Flt)
  | trap (t : Trap)
  | wait (k : WaitKind)
  | stall
  | pause (off : Option Nat)
  deriving DecidableEq, Repr

/-- Operations on the package that may stop. -/
abbrev M := ExceptT Stop (StateM State)

/-! ### Identities (R10, R11, R12) -/

def isP (n : Nat) : Bool := decide (n < 32)

/-- The die number of core `n` (R11). -/
def dieOf (n : Nat) : Nat := if n < 32 then n / 8 else 4 + (n - 32) / 32

def clusterOf (n : Nat) : Nat := n / 4

/-- The cores of compute die `d` (R11). -/
def coresOf (d : Nat) : List Nat := if d < 4 then span (8 * d) 8 else span (32 + 32 * (d - 4)) 32

/-- Size of core `n`'s scratchpad (R12). -/
def spSize (n : Nat) : Nat := if isP n then 2 ^ 23 else 2 ^ 21

/-- Bank groups, and rows of a bank (R128). -/
def groupsOf (n : Nat) : Nat := if isP n then 4 else 2
def rowsOf (n : Nat) : Nat := if isP n then 2048 else 1024

/-- Rows and columns of an accumulator, and how many a core has (R44, R215). -/
def accDim (n : Nat) : Nat := if isP n then 256 else 64
def accCount (n : Nat) : Nat := if isP n then 2 else 4

/-- Does die `d` exist as a compute die? -/
def isCompute (d : Nat) : Bool := decide (d < 12)

/-- The base of core `n`'s scratchpad window (R95). -/
def spBase (n : Nat) : Nat := 0x020000000000 + n * 0x1000000

/-! ### Cores and harts -/

def State.core (s : State) (n : Nat) : Core := Table.get Core.reset s.cores n

def State.setCore (s : State) (n : Nat) (c : Core) : State := { s with cores := Table.put Core.reset s.cores n c }

def State.modCore (s : State) (n : Nat) (f : Core → Core) : State := s.setCore n (f (s.core n))

/-- A lane service core is held in reset by LSRUN (R389). -/
def State.lane (s : State) (o : Nat) : Hart := Table.get Hart.reset s.lanes o

def State.hart (s : State) : Agent → Hart
  | .core n => (s.core n).hart
  | .mgmt => s.mgmt
  | .lane o => s.lane o

def State.setHart (s : State) (a : Agent) (h : Hart) : State :=
  match a with
  | .core n => s.modCore n fun c => { c with hart := h }
  | .mgmt => { s with mgmt := h }
  | .lane o => { s with lanes := Table.put Hart.reset s.lanes o h }

/-- A core's reset domain (R110, R365): held in reset until firmware releases its die. -/
def State.inReset (s : State) (die : Nat) : Bool := Table.get true s.coreReset die

/-- Integer register `r` of a hart; x0 reads zero. -/
def Hart.get (h : Hart) (r : Reg) : W64 := if r = 0#5 then 0 else Table.get 0 h.x r.toNat

/-- Write an integer register; a write of x0 is discarded. -/
def Hart.set (h : Hart) (r : Reg) (v : W64) : Hart := if r = 0#5 then h else { h with x := Table.put 0 h.x r.toNat v }

/-- a0 to a7 (R26). -/
def Hart.args (h : Hart) : List W64 := (span 10 8).map fun i => Table.get 0 h.x i

/-- The agent of the step, when it is a hart. -/
def State.agent (s : State) : Agent :=
  match s.focus with
  | .hart a => a
  | _ => .mgmt

/-- The core of the step: of the hart or of the engine. -/
def State.cn (s : State) : Nat :=
  match s.focus with
  | .hart (.core n) => n
  | .flight n _ _ => n
  | _ => 0

def State.ring (s : State) (n : Nat) (e : Eng) : Ring := Table.get Ring.reset (s.core n).rings e.num

def Core.ring (c : Core) (e : Eng) : Ring := Table.get Ring.reset c.rings e.num

def Core.setRing (c : Core) (e : Eng) (r : Ring) : Core := { c with rings := Table.put Ring.reset c.rings e.num r }

def State.setRing (s : State) (n : Nat) (e : Eng) (r : Ring) : State := s.modCore n fun c => c.setRing e r

def Core.cb (c : Core) (i : Nat) : Cb := Table.get Cb.reset c.cbs i

def Core.setCb (c : Core) (i : Nat) (b : Cb) : Core := { c with cbs := Table.put Cb.reset c.cbs i b }

def Core.sem (c : Core) (i : Nat) : W16 := Table.get 0 c.sems i

def Core.setSem (c : Core) (i : Nat) (v : W16) : Core := { c with sems := Table.put 0 c.sems i v }

def Core.group (c : Core) (g : Nat) : Group := Table.get Group.reset c.groups g

def Core.setGroup (c : Core) (g : Nat) (x : Group) : Core := { c with groups := Table.put Group.reset c.groups g x }

/-! ### Monad shorthands -/

def flt {α : Type} (cause : Nat) (detail : Nat := 0) (aux : Nat := 0) (aux2 : Nat := 0) : M α :=
  throw (.flt { cause := cause, detail := detail, aux := aux, aux2 := aux2 })

def trapM {α : Type} (code : Nat) (tval : Nat := 0) (cause : Nat := 0) (detail : Nat := 0) : M α :=
  throw (.trap { code := code, tval := tval, cause := cause, detail := detail })

/-- Illegal instruction, code 2 (R54, R347). -/
def illegal {α : Type} : M α := trapM 2

/-- Run an operation that is known not to matter when it stops: the state it leaves. -/
def M.exec {α : Type} (m : M α) (s : State) : State := (m.run s).2

/-- The answer of an operation, if it ran to its end. -/
def M.result {α : Type} (m : M α) (s : State) : Option α :=
  match (m.run s).1 with
  | .ok a => some a
  | .error _ => none

/-- Fill in the address and the copy offset of a fault that passes (R352). -/
def M.at {α : Type} (va off : Option Nat) (m : M α) : M α :=
  tryCatch m fun e =>
    match e with
    | .flt f => throw (.flt { f with va := f.va.or va, off := f.off.or off })
    | e => throw e

/-- A boundary of a command (R232, R249, R304): the engine goes on past as many as its turn has left. -/
def boundary (off : Option Nat) : M Unit := do
  let s ← get
  match s.left with
  | none => pure ()
  | some 0 => throw (.pause off)
  | some (k + 1) => set { s with left := some k }

/-- A fresh free value (a value the spec leaves open): log 2. -/
def freshWord : M W64 := fun s => (.ok (Config.freeWord s.freeNo), { s with freeNo := s.freeNo + 1 })

/-- A fresh free choice: log 2. -/
def freshBool : M Bool := fun s => (.ok (Config.freeBool s.freeNo), { s with freeNo := s.freeNo + 1 })

/-! ### Datum time (R2, R333) -/

/-- The hub's Datum time in nanoseconds: one control cycle is 8/9 ns (R2), counted in ninths. -/
def State.hubDatum (s : State) : Nat := s.datum9 / 9

/-- Die `d`'s local copy of Datum time, within 2 ns of the hub's (R333; log 6). -/
def State.datum (s : State) (d : Nat) : Nat := s.hubDatum + Config.datumSkew d % 5 - 2

/-- The local Datum time an agent reads: of its die, and on the hub the hub's. -/
def State.datumOf (s : State) : Agent → Nat
  | .core n => s.datum (dieOf n)
  | .mgmt => s.hubDatum
  | .lane o => s.datum (0x10 + o)

/-! ### MMIO registers that only hold what is written (R3, R4, R404) -/

/-- Reset values of the MMIO registers that have one other than zero. -/
def mmioReset (a : Nat) : W64 :=
  if a = 0x030000100000 ∨ a = 0x030000100800 then
    -- region table entry 0: VALID, SMASK 0xFF, SIZE 512 (R97)
    BitVec.ofNat 64 (1 + (0xFF <<< 16) + (512 <<< 48))
  else if a = 0x030000211000 then 8#64                       -- DBPCTL.THR 4 (R121)
  else if a = 0x030000202000 then BitVec.ofNat 64 (0x1FEE0 <<< 22)   -- STGBASE (R122)
  else if a = 0x030000240000 then 0xF#64                     -- HLSTAT.UP (R127)
  else if a = 0x030001500010 then 225000#64                  -- SCHQUANT.TAU (R335)
  else if 0x030001700000 ≤ a ∧ a < 0x030001700000 + 16 * 288 ∧ a % 16 = 8 then 1#64   -- MBRSP.DONE (R378)
  else if 0x030002000000 ≤ a ∧ a < 0x030002100000 ∧ 0x400 ≤ a % 0x40000 ∧ a % 0x40000 < 0x800 then 0x3210#64  -- LMAP (R389)
  else 0

def State.reg (s : State) (a : Nat) : W64 := Table.get (mmioReset a) s.mmio a

def State.setReg (s : State) (a : Nat) (v : W64) : State := { s with mmio := Table.put (mmioReset a) s.mmio a v }

/-- A field of an MMIO register. -/
def State.fld (s : State) (a hi lo : Nat) : Nat := bits (s.reg a).toNat hi lo

def State.setFld (s : State) (a hi lo v : Nat) : State :=
  s.setReg a (BitVec.ofNat 64 (setBits (s.reg a).toNat hi lo v))

/-- This package's fabric number (R364). -/
def State.pkgId (s : State) : Nat := s.fld 0x030001800020 11 0

/-! ### The error log (R398) -/

/-- The words an entry's DETAIL and AUX take where the spec names the fields of the report and not their places: an
unknown function of the report (log 3). -/
opaque logEncode : List Nat → W64

/-- Append one entry: KIND, DIE, DETAIL in word 0, the physical address or 0, AUX, and the hub's Datum time. When the log
is full the entry is counted in LOST instead. -/
def State.logRaw (s : State) (w0 w1 w2 : W64) : State :=
  let head := s.logHead
  if (head + 1) % 256 = s.fld 0x030001720608 7 0 then
    s.setFld 0x030001720610 31 0 (min (s.fld 0x030001720610 31 0 + 1) 0xFFFFFFFF)
  else
    let a := 0x030001721000 + 32 * head
    let s := ((s.setReg a w0).setReg (a + 8) w1).setReg (a + 16) w2
    let s := s.setReg (a + 24) (BitVec.ofNat 64 s.hubDatum)
    { s with logHead := (head + 1) % 256 }

/-- A hardware report (R8, R398): its kind, die and address, and what its DETAIL and AUX are made of. -/
def State.log (s : State) (kind die pa : Nat) (info : List Nat) : State :=
  let e := logEncode (kind :: info)
  s.logRaw (BitVec.ofNat 64 (kind + die * 256 + (bits e.toNat 31 0 <<< 32))) (BitVec.ofNat 64 pa)
    (logEncode (kind :: pa :: info))

def logM (kind die pa : Nat) (info : List Nat) : M Unit := modify fun s => s.log kind die pa info

/-! ### CSR storage -/

/-- Reset values of the CSRs that have one other than zero: `cwlim` (R310). The standard's registers are zero at reset
(log 8). -/
def csrReset (num : Nat) : W64 := if num = 0x801 then 0x1000000#64 else 0

def Hart.csrRaw (h : Hart) (num : Nat) : W64 := Table.get (csrReset num) h.csr num

def Hart.setCsrRaw (h : Hart) (num : Nat) (v : W64) : Hart := { h with csr := Table.put (csrReset num) h.csr num v }

def Hart.csrBit (h : Hart) (num i : Nat) : Bool := (h.csrRaw num).getLsbD i

def Hart.setCsrBits (h : Hart) (num hi lo v : Nat) : Hart :=
  h.setCsrRaw num (BitVec.ofNat 64 (setBits (h.csrRaw num).toNat hi lo v))

/-- OR flags into `numst` of core `n` (R73). -/
def State.orFlags (s : State) (n : Nat) (f : Flags) : State :=
  s.modCore n fun c => { c with hart := c.hart.setCsrRaw 0x800 (c.hart.csrRaw 0x800 ||| BitVec.ofNat 64 f.toNat) }

/-! ### Survey's latch (R399, R400) -/

/-- `ring.ptr`'s view of a ring (R290). -/
def Ring.ptrs (r : Ring) : W64 :=
  BitVec.ofNat 64 ((r.write.toNat % 65536) * 2 ^ 32 + (r.read.toNat % 65536) * 2 ^ 16 + r.retire.toNat % 65536)

/-- Is a command of the ring stalled on a translation fault (R348)? -/
def Ring.isStalled (r : Ring) : Bool := r.flight.any fun f => f.phase == .stalled

/-- `engctl` as it reads (R348). -/
def Core.engctl (c : Core) : W64 :=
  BitVec.ofNat 64 (Eng.all.foldl (fun acc e =>
    acc + (b2n (c.ring e).halted <<< (16 + e.num)) + (b2n (c.ring e).isStalled <<< (24 + e.num))) 0)

/-- The values bank `n` of a core latches (R400). -/
def State.coreBank (s : State) (n : Nat) : Table W64 :=
  let c := s.core n
  let put := fun t i v => Table.put (0 : W64) t i v
  let t := put (put [] 0 (BitVec.ofNat 64 (s.datum (dieOf n)))) 1 (BitVec.ofNat 64 s.now)
  let t := Eng.all.foldl (fun t e => put t (2 + e.num) (c.ring e).ptrs) t
  put (put (put t 8 (c.hart.csrRaw 0x800)) 9 (BitVec.ofNat 64 c.fq.length)) 10 c.engctl

/-- The values the bank of compute die `d` latches (R400). The node of a suspended task is ready (R345). -/
def State.dieBank (s : State) (d : Nat) : List W64 :=
  let live := s.insts.filter fun g => g.die == d && g.born
  let ready := live.foldl (fun acc g =>
    acc + (g.nodes.filter fun x => x.kind == 1 && (x.phase == .ready || x.phase == .suspended)).length) 0
  [BitVec.ofNat 64 (s.datum d), s.reg (0x030001720000 + 8 * d), s.reg (0x030001720400 + 8 * d),
    BitVec.ofNat 64 live.length, BitVec.ofNat 64 ready]

/-- Every bank of the package latches (R399). Core banks are the cores' `snap`; die banks lie in the MMIO file. -/
def State.latchBanks (s : State) : State :=
  let s' := (List.range 288).foldl (fun t n => t.modCore n fun c => { c with snap := s.coreBank n }) s
  (List.range 12).foldl (fun t d =>
    (s.dieBank d).zipIdx.foldl (fun t p => t.setReg (0x030001760000 + 0x200 * (288 + d) + 8 * p.2) p.1) t) s'

/-- A Survey source fires (R399); sources are 1 MGMT, 2 FAULT, 3 TIME, 4 CORE, the bits of ARM and of SRC. Of the sources that fire
in the cycle of the trigger SRC takes the lowest-numbered. -/
def State.surveyFire (s : State) (src : Nat) : State :=
  if bit (s.reg 0x030001720700).toNat src then
    if s.fld 0x030001720710 0 0 = 1 then
      if s.svAt = s.now then s.setFld 0x030001720710 4 1 (min (s.fld 0x030001720710 4 1) (1 <<< (src - 1)))
      else s.setFld 0x030001720710 31 16 (min (s.fld 0x030001720710 31 16 + 1) 0xFFFF)
    else
      let s := s.setFld 0x030001720710 0 0 1
      let s := s.setFld 0x030001720710 4 1 (1 <<< (src - 1))
      let s := s.setFld 0x030001720710 47 32 (s.fld 0x030001720710 47 32 + 1)
      { s with svAt := s.now }.latchBanks
  else s

/-! ### Time (R160, R333, R397, R399) -/

/-- Every compute die takes its GATE (R397). -/
def State.takeGates (s : State) : State :=
  { s with gate := (List.range 12).foldl (fun t d => Table.put 0 t d (s.fld (0x030001720400 + 8 * d) 2 0)) s.gate }

/-- Is the TIME source due: armed, not yet fired, and its Datum time reached (R399)? -/
def State.timeDue (s : State) : Bool :=
  bit (s.reg 0x030001720700).toNat 3 && !s.timeFired && decide ((s.reg 0x030001720708).toNat ≤ s.hubDatum)

/-- The TIME source fires (R399). -/
def State.timeFire (s : State) : State := ({ s with timeFired := true } : State).surveyFire 3

/-- One control cycle passes. A backward correction is slewed at no more than 500 ns per second (R333), one ninth of a
nanosecond in two million. New GATEs govern from a count that is a multiple of 8 on (R397). -/
def State.cycle (s : State) : State :=
  let acc := if s.slew9 = 0 then 0 else s.slewAcc + 8
  let slew := min s.slew9 (acc / 2000000)
  let s := { s with now := s.now + 1, datum9 := s.datum9 + 8 - slew, slew9 := s.slew9 - slew, slewAcc := acc % 2000000 }
  let s := if s.now % 8 = 0 then s.takeGates else s
  if s.timeDue then s.timeFire else s

/-- `k` control cycles pass, one after the other. -/
def State.tick (s : State) : Nat → State
  | 0 => s
  | k + 1 => s.cycle.tick k

/-! ### Fault records (R351, R352) -/

/-- A record is written for core `n`: it enters the queue of 16, or is held by its writer while the queue is full
(R351); the FAULT source of Survey sees it (R399), and the management log receives it for the causes of R353, with the physical
address of causes 5 to 7 (R398). -/
def State.writeRec (s : State) (n : Nat) (r : FaultRec) : State :=
  let s := s.modCore n fun c =>
    if c.fq.length < 16 ∧ c.fqHeld = [] then { c with fq := c.fq ++ [r] } else { c with fqHeld := c.fqHeld ++ [r] }
  let s := if r.logged then s.log 0x03 (dieOf n) (if 5 ≤ r.cause ∧ r.cause ≤ 7 then r.aux2 else 0) [r.cause, r.detail, n, r.eng, r.slot] else s
  if s.fld 0x030001720700 15 8 = r.cause then s.surveyFire 2 else s

/-- Held records enter the queue, oldest first, while it has room (R351). -/
def Core.refillFq : Nat → Core → Core
  | 0, c => c
  | k + 1, c =>
    match c.fqHeld with
    | [] => c
    | r :: rest => if c.fq.length < 16 then Core.refillFq k { c with fq := c.fq ++ [r], fqHeld := rest } else c

/-- The oldest record leaves the queue; a held record joins its tail (R308, R351). -/
def Core.popFq (c : Core) : Core := ({ c with fq := c.fq.tail } : Core).refillFq 16

/-- The context and node a record of core `n` carries (R352). -/
def State.recCtx (s : State) (n : Nat) : Nat × Nat :=
  match (s.core n).task with
  | some t => (t.ctx, t.node)
  | none => (0, 0)

/-- Context and node, and the time of the record (R352). -/
def State.stampRec (s : State) (n : Nat) (r : FaultRec) : FaultRec :=
  let cn := s.recCtx n
  { r with ctx := cn.1, node := cn.2, time := s.datum (dieOf n) }

/-! ### Taking an exception and returning from one -/

def mstatusN : Nat := 0x300

/-- Is the trap delegated to S-mode: taken below M, and its bit set in `medeleg` or `mideleg`? -/
def Hart.delegated (h : Hart) (intr : Bool) (code : Nat) : Bool :=
  h.priv != .m && h.csrBit (if intr then 0x303 else 0x302) code

/-- Where a trap vector sends a trap: the base, and for an interrupt in vectored mode four bytes per code. -/
def vectorPc (tvec : W64) (intr : Bool) (code : Nat) : W64 :=
  let base := tvec &&& ~~~(3#64)
  if intr ∧ tvec &&& 3#64 = 1#64 then base + BitVec.ofNat 64 (4 * code) else base

def Priv.num : Priv → Nat
  | .u => 0 | .s => 1 | .m => 3

def Priv.ofNum (n : Nat) : Priv := if n = 0 then .u else if n = 1 then .s else .m

/-- Taking a trap (R347): `sepc`, `scause`, `stval`, SPP, SPIE and SIE for a delegated trap, else their M-mode
counterparts; the pc goes to the vector. A wait in progress ends (R288). -/
def Hart.takeTrap (h : Hart) (intr : Bool) (code tval : Nat) : Hart :=
  let cause : W64 := BitVec.ofNat 64 (code + (if intr then 2 ^ 63 else 0))
  let h := { h with wait := none }
  if h.delegated intr code then
    let h' := ((h.setCsrRaw 0x141 h.pc).setCsrRaw 0x142 cause).setCsrRaw 0x143 (BitVec.ofNat 64 tval)
    let h' := ((h'.setCsrBits mstatusN 8 8 (if h.priv = .s then 1 else 0)).setCsrBits mstatusN 5 5
      (b2n (h.csrBit mstatusN 1))).setCsrBits mstatusN 1 1 0
    { h' with priv := .s, pc := vectorPc (h.csrRaw 0x105) intr code }
  else
    let h' := ((h.setCsrRaw 0x341 h.pc).setCsrRaw 0x342 cause).setCsrRaw 0x343 (BitVec.ofNat 64 tval)
    let h' := ((h'.setCsrBits mstatusN 12 11 h.priv.num).setCsrBits mstatusN 7 7
      (b2n (h.csrBit mstatusN 3))).setCsrBits mstatusN 3 3 0
    { h' with priv := .m, pc := vectorPc (h.csrRaw 0x305) intr code }

/-- `shcause` records the cause and detail of the last trap of codes 24 to 28 (R348). -/
def Hart.setShcause (h : Hart) (t : Trap) : Hart :=
  if 24 ≤ t.code ∧ t.code ≤ 28 then h.setCsrRaw 0x5C2 (BitVec.ofNat 64 (t.cause % 256 + t.detail % 256 * 256)) else h

/-- A precise exception of an agent: none of the instruction's effects, and the trap taken (R347). What stval holds after
an illegal instruction and after a breakpoint the standard leaves to the machine and the spec does not say: a free value
(log 2). -/
def State.takeTrap (s : State) (a : Agent) (t : Trap) : State :=
  if t.code = 2 ∨ t.code = 3 then
    ({ s with freeNo := s.freeNo + 1 } : State).setHart a
      ((s.hart a).takeTrap false t.code (Config.freeWord s.freeNo).toNat)
  else s.setHart a (((s.hart a).takeTrap false t.code t.tval).setShcause t)

/-- `sret`: the mode of SPP, the pc of `sepc`, SIE from SPIE; the load reservation stands. -/
def Hart.sret (h : Hart) : Hart :=
  let p := if h.csrBit mstatusN 8 then Priv.s else Priv.u
  let h' := ((h.setCsrBits mstatusN 1 1 (b2n (h.csrBit mstatusN 5))).setCsrBits mstatusN 5 5 1).setCsrBits mstatusN 8 8 0
  let h' := h'.setCsrBits mstatusN 17 17 0
  { h' with priv := p, pc := h.csrRaw 0x141 }

/-- `mret`: the mode of MPP, the pc of `mepc`, MIE from MPIE, and MPP the least mode of the hart; MPRV clears when the mode is not
M. A hart without `modes` has M-mode alone, and there MPP is always 3 (R388, R395). -/
def Hart.mret (h : Hart) (modes : Bool) : Hart :=
  let p := if modes then Priv.ofNum (bits (h.csrRaw mstatusN).toNat 12 11) else .m
  let h' := ((h.setCsrBits mstatusN 3 3 (b2n (h.csrBit mstatusN 7))).setCsrBits mstatusN 7 7 1).setCsrBits mstatusN 12 11
    (if modes then 0 else 3)
  let h' := if p = .m then h' else h'.setCsrBits mstatusN 17 17 0
  { h' with priv := p, pc := h.csrRaw 0x341 }

/-- What exception a fault of a control-core access becomes (R347, R96, R102): fetch, load or store. -/
inductive AccKind where
  | fetch | load | store
  deriving DecidableEq, Repr

def AccKind.accessCode : AccKind → Nat
  | .fetch => 1 | .load => 5 | .store => 7

def AccKind.pageCode : AccKind → Nat
  | .fetch => 12 | .load => 13 | .store => 15

def AccKind.alignCode : AccKind → Nat
  | .fetch => 0 | .load => 4 | .store => 6

/-- The precise trap of a fault met by a control-core access at virtual address `va` (R347). -/
def Flt.toTrap (f : Flt) (k : AccKind) (va : Nat) : Trap :=
  if f.cause = 3 then
    { code := if f.detail = 1 then k.pageCode else k.accessCode, tval := va }
  else if f.cause = 14 then { code := 27, tval := va, cause := 14 }
  else if f.cause = 20 then { code := 27, tval := 0, cause := 20 }
  else { code := 25, tval := va, cause := f.cause, detail := f.detail }

/-- The die by which the error log names an agent (R10, R398). -/
def agentDie : Agent → Nat
  | .core n => dieOf n
  | .mgmt => 0x0C
  | .lane o => 0x10 + o

/-- Does the hart of the step translate its accesses of a kind: a control core below M-mode under Sv48 (R347, R357)? -/
def State.translates (s : State) (k : AccKind) : Bool :=
  match s.agent with
  | .core n =>
    let h := (s.core n).hart
    let mst := (h.csrRaw mstatusN).toNat
    let p := if h.priv = .m ∧ bit mst 17 ∧ k ≠ .fetch then Priv.ofNum (bits mst 12 11) else h.priv
    p != .m && bits (h.csrRaw 0x180).toNat 63 60 == 9
  | _ => false

/-- The report of a precise memory trap: with a fault of causes 5 to 7 the physical address, and of cause 5 the two check values
(R107, R111; in the error log, log 67). -/
def State.reportFlt (s : State) (f : Flt) : State :=
  if 4 ≤ f.cause ∧ f.cause ≤ 8 then
    s.log 0x03 (agentDie s.agent) (if f.cause = 4 ∨ f.cause = 8 then 0 else f.aux2) [f.cause, f.detail, f.aux]
  else s

/-- A fault that a hub unit or an event meets is reported (R8, R107): the physical address where the fault has one, and what it
found. -/
def State.hubReport (s : State) (f : Flt) : State :=
  s.log 0x03 0x0C (if 5 ≤ f.cause ∧ f.cause ≤ 7 then f.aux2 else 0) [f.cause, f.detail, f.aux]

/-- The precise trap of a fault at publication (R111, R347): stval names the virtual address of the first such line, and 0 for a
line staged by a physical access. -/
def M.asPublish {α : Type} (m : M α) : M α :=
  tryCatch m fun e =>
    match e with
    | .flt f => do
      modify fun s => s.reportFlt f
      throw (.trap (f.toTrap .store (f.va.getD 0)))
    | e => throw e

/-- Turn the faults of an access into its precise traps; of a physical access code 25 names no address (R347). -/
def M.asAccess {α : Type} (k : AccKind) (va : Nat) (m : M α) : M α :=
  tryCatch m fun e =>
    match e with
    | .flt f => do
      modify fun s => s.reportFlt f
      let s ← get
      let t := f.toTrap k va
      throw (.trap (if t.code = 25 ∧ s.translates k = false then { t with tval := 0 } else t))
    | e => throw e

/-! ### Running a control instruction -/

/-- The instruction completes: the pc moves on, or to where the instruction says, and the wait ends. -/
def State.finishInstr (s : State) (a : Agent) (pc : Option W64) : State :=
  let h := s.hart a
  let h := { h with pc := pc.getD (h.pc + BitVec.ofNat 64 s.ilen), wait := none }
  let h := if bit (h.csrRaw 0x320).toNat 2 then h else h.setCsrRaw 0xB02 (h.csrRaw 0xB02 + 1)
  s.setHart a h

/-- Begin to wait (R288): nothing is performed; the count runs from the start of the wait. -/
def State.enterWait (s : State) (a : Agent) (k : WaitKind) : State :=
  let h := s.hart a
  match h.wait with
  | some _ => s
  | none => s.setHart a { h with wait := some { since := s.now, kind := k } }

/-- Run the meaning of a control instruction for an agent: it completes, takes a precise trap with none of its effects
(the meaning checks before it acts), waits, or is held and changes nothing. -/
def runFor (a : Agent) (m : M (Option W64)) (s : State) : State :=
  match m.run s with
  | (.ok pc, s') => s'.finishInstr a pc
  | (.error (.trap t), s') => s'.takeTrap a t
  | (.error (.flt f), s') => s'.takeTrap a (f.toTrap .load 0)
  | (.error (.wait k), _) => s.enterWait a k
  | (.error .stall, _) => s
  | (.error (.pause _), _) => s

/-- Run a control instruction for the hart the step acts for. -/
def runHart (m : Agent → M (Option W64)) (s : State) : Host.Outcome State Fault Refusal :=
  match s.focus with
  | .hart a => .next (runFor a (m a) s)
  | _ => .fault .notAHart

/-- Run a control instruction that only a control core has; on the management core and a lane service core it is an
illegal instruction (R388, R395). -/
def runCore (m : Nat → M (Option W64)) (s : State) : Host.Outcome State Fault Refusal :=
  runHart (fun a => match a with
    | .core n => m n
    | _ => illegal) s

/-- The instruction ends with all its effects performed and the pc moves on. -/
def fin : M (Option W64) := pure none

/-- Write an integer register of an agent and end. -/
def finReg (a : Agent) (rd : Reg) (v : W64) : M (Option W64) := do
  modify fun s => s.setHart a ((s.hart a).set rd v)
  pure none

/-- Run an event of the hub: it is performed, or, where its condition does not hold, changes nothing (log 4); where it meets a fault
it changes nothing else and the fault is reported (R8). -/
def runEvent (m : M Unit) (s : State) : Host.Outcome State Fault Refusal :=
  match m.run s with
  | (.ok _, s') => .next s'
  | (.error (.flt f), _) => .next (s.hubReport f)
  | (.error _, _) => .next s

end Sys2Proof.Machine
end

