-- ==== Sys2Proof/Machine/Mem.lean ====
section
/-! DEFINITION. Physical memory: the address map (R95, R96), the region table's mapping (R97, R98), check values (R105 to
R109), homes that cannot answer (R110), the scratchpads' bank groups (R128 to R138), the caches' tags (R112, R113, R118 to
R123), replicas (R99), the propagation hold (R385) and the reads and writes built on them. -/
namespace Sys2Proof.Machine

/-! ### Bytes (the canonical memory) -/

/-- What a byte that nothing has written reads as (log 5). -/
def Memory.absent : Byte := 0

/-- The canonical form of memory: strictly rising addresses, no entry equal to what an unlisted address reads as. -/
def Memory.wf (m : List Host.Cell) : Bool := Table.wf Memory.absent m

def Memory.read (m : List Host.Cell) (k : Nat) : Byte := Table.get Memory.absent m k

def Memory.write (m : List Host.Cell) (k : Nat) (b : Byte) : List Host.Cell := Table.put Memory.absent m k b

/-- Bytes written at consecutive keys. -/
def Memory.writeList : List Host.Cell → Nat → List Byte → List Host.Cell
  | m, _, [] => m
  | m, k, b :: r => Memory.writeList (Memory.write m k b) (k + 1) r

def Memory.readList (m : List Host.Cell) (k n : Nat) : List Byte := (span k n).map (Memory.read m)

/-! ### CRC-32C (R105) -/

def crcBits : Nat → Nat → Nat
  | 0, c => c
  | k + 1, c => crcBits k (if c % 2 = 1 then (c / 2) ^^^ 0x82F63B78 else c / 2)

/-- CRC-32C of bytes in ascending address order. -/
def crc32c (l : List Byte) : Nat := (l.foldl (fun c b => crcBits 8 (c ^^^ b.toNat)) 0xFFFFFFFF) ^^^ 0xFFFFFFFF

/-! ### The address map (R95, R98) -/

/-- An entry of the region table (R97). -/
structure RtEnt where
  valid : Bool
  rplen : Bool
  rplidx : Nat
  gran : Nat
  smask : Nat
  base : Nat
  size : Nat
  stkoff : Nat
  deriving DecidableEq, Repr

def RtEnt.ofWords (w0 w1 : Nat) : RtEnt :=
  { valid := bit w0 0, rplen := bit w0 1, rplidx := bits w0 7 2, gran := bits w0 12 8, smask := bits w0 23 16,
    base := bits w0 40 32, size := bits w0 57 48, stkoff := bits w1 35 12 }

/-- Entry `n` of the active table, or of the staged one. -/
def State.rtActive (s : State) (n : Nat) : RtEnt :=
  RtEnt.ofWords (s.reg (0x030000100800 + 32 * n)).toNat (s.reg (0x030000100808 + 32 * n)).toNat

def State.rtStaged (s : State) (n : Nat) : RtEnt :=
  RtEnt.ofWords (s.reg (0x030000100000 + 32 * n)).toNat (s.reg (0x030000100008 + 32 * n)).toNat

/-- The participating stacks of an entry, ascending (R98). -/
def RtEnt.stacks (e : RtEnt) : List Nat := (List.range 8).filter fun d => bit e.smask d

def RtEnt.has (e : RtEnt) (pa : Nat) : Bool :=
  e.valid && decide (e.base * 2 ^ 30 ≤ pa) && decide (pa < (e.base + e.size) * 2 ^ 30)

/-- Stack and stack offset of a byte at offset `o` of an entry (R98). -/
def RtEnt.place (e : RtEnt) (o : Nat) : Nat × Nat :=
  let g := 4096 <<< e.gran
  let st := e.stacks
  let m := st.length
  let c := o / g
  (st.getD (c % m) 0, e.stkoff * 4096 + c / m * g + o % g)

/-- The valid entry in which a DRAM-space address lies. -/
def State.rtFind (s : State) (pa : Nat) : Option RtEnt :=
  ((List.range 64).map s.rtActive).find? fun e => e.has pa

/-- The key under which the model keeps a byte of a stack: stack · 2^36 + offset. -/
def dramKey (p : Nat × Nat) : Nat := p.1 * 2 ^ 36 + p.2

/-- What a physical address names (R95). -/
inductive Loc where
  | dram (stack off : Nat)
  | hub (o : Nat)
  | sp (n off : Nat)
  | mmio (a : Nat)
  | host
  | remote (pkg : Nat)
  | bad
  deriving DecidableEq, Repr

/-- A remote address of the own package names the local DRAM space (R95). -/
def State.norm (s : State) (pa : Nat) : Nat :=
  if 2 ^ 51 ≤ pa ∧ pa < 2 ^ 52 ∧ bits pa 50 39 = s.pkgId then bits pa 38 0 else pa

def State.loc (s : State) (pa0 : Nat) : Loc :=
  let pa := s.norm pa0
  if pa < 2 ^ 39 then
    match s.rtFind pa with
    | some e => let p := e.place (pa - e.base * 2 ^ 30); .dram p.1 p.2
    | none => .bad
  else if pa < 0x010000000000 then .bad
  else if pa < 0x010040000000 then .hub (pa - 0x010000000000)
  else if pa < 0x020000000000 then .bad
  else if pa < 0x020000000000 + 288 * 0x1000000 then
    let n := (pa - 0x020000000000) / 0x1000000
    let off := pa % 0x1000000
    if off < spSize n then .sp n off else .bad
  else if pa < 0x030000000000 then .bad
  else if pa < 0x030100000000 then .mmio pa
  else if 2 ^ 50 ≤ pa ∧ pa < 2 ^ 50 + 2 ^ 48 then .host
  else if 2 ^ 51 ≤ pa ∧ pa < 2 ^ 52 then .remote (bits pa 50 39)
  else .bad

def State.isMmio (s : State) (pa : Nat) : Bool :=
  match s.loc pa with
  | .mmio _ => true
  | _ => false

def State.isDram (s : State) (pa : Nat) : Bool :=
  match s.loc pa with
  | .dram _ _ => true
  | _ => false

/-- The key of a byte in the model's memory: by its place in a stack for DRAM (so that a new region table moves no
data), else by its physical address. -/
def State.key (s : State) (pa : Nat) : Nat :=
  match s.loc pa with
  | .dram st off => dramKey (st, off)
  | _ => s.norm pa

/-! ### Who asks -/

/-- A requester: a control core, an engine of a core, the management core, a lane service core, a hub unit with the
context its job names (R113), or the host. -/
inductive Who where
  | cc (n : Nat)
  | eng (n : Nat) (e : Eng)
  | mgmt
  | lane (o : Nat)
  | hub (ctx : Nat)
  | host
  deriving DecidableEq, Repr

def Who.coreNo : Who → Option Nat
  | .cc n => some n
  | .eng n _ => some n
  | _ => none

def Who.isCc : Who → Bool
  | .cc _ => true
  | _ => false

def Who.die : Who → Option Nat
  | .cc n => some (dieOf n)
  | .eng n _ => some (dieOf n)
  | _ => none

/-- The number under which a write names its writer: the core, or a number beyond the cores. -/
def Who.writer : Who → Nat
  | .cc n => n
  | .eng n _ => n
  | .mgmt => 288
  | .hub _ => 289
  | .host => 290
  | .lane o => 291 + o

/-- Requester rank at a scratchpad, from 1 (R131, R380); another core's access comes through the external port. -/
def Who.rank (w : Who) (target : Nat) : Nat :=
  match w with
  | .cc n => if n = target then 8 else 7
  | .eng n e =>
    if n ≠ target then 7 else
    match e with
    | .mx => 1 | .vx => 2 | .ct => 3 | .ld => 4 | .st => 5 | .tv => 6
  | _ => 7

/-- The context of a request (R113, R366). -/
def State.ctxOf (s : State) : Who → Nat
  | .cc n => (s.recCtx n).1
  | .eng n _ => (s.recCtx n).1
  | .hub c => c
  | .host => s.fld 0x030001800000 55 48
  | _ => 0

/-- The function a request belongs to (R366), none for a requester of no function. -/
def State.fnOf (s : State) : Who → Option Nat
  | .cc n => (s.core n).task.map fun t => s.fld (0x030001810000 + 8 * t.ctx) 6 0
  | .eng n _ => (s.core n).task.map fun t => s.fld (0x030001810000 + 8 * t.ctx) 6 0
  | .hub c => some (s.fld (0x030001810000 + 8 * c) 6 0)
  | .host => some 0
  | _ => none

/-! ### Homes that cannot answer (R110) -/

/-- Bytes per block of a stream, and its two regions (R269). -/
def Stream.blockBytes (t : Stream) : Nat := (8 <<< t.tc) * (16 * (t.dhc + 1))

def Stream.covers (t : Stream) (pa : Nat) : Bool :=
  decide (t.dbase ≤ pa ∧ pa < t.dbase + t.nbmax * t.blockBytes) ||
  decide (t.gzbase ≤ pa ∧ pa < t.gzbase + 8 * t.gzcap)

/-- Has the 64-byte line of an address a byte in a region of a stream (R273, R274)? -/
def Stream.coversLine (t : Stream) (pa : Nat) : Bool :=
  let a := pa / 64 * 64
  let meets := fun (b n : Nat) => decide (n ≠ 0 ∧ a < b + n ∧ b < a + 64)
  meets t.dbase (t.nbmax * t.blockBytes) || meets t.gzbase (8 * t.gzcap)

/-- Is an address of DRAM space, of this package or of another, in a fenced stream region (R274, R286)? -/
def State.fencedAt (s : State) (pa : Nat) : Bool :=
  let pkg := if pa < 2 ^ 39 then s.pkgId else bits pa 50 39
  s.streams.any fun e => e.2.fenced && e.2.dpkg == pkg && e.2.coversLine (bits pa 38 0)

/-- Where offset 0 of the DRAM space of a stream's package lies (R95, R269, R286). -/
def State.streamBase (s : State) (t : Stream) : Nat := if t.dpkg = s.pkgId then 0 else 2 ^ 51 + t.dpkg * 2 ^ 39

/-- Is a die of this package the decode die of a stream (R269, R286)? -/
def State.isDdie (s : State) (t : Stream) (die : Nat) : Bool := t.dpkg == s.pkgId && t.ddie == die

/-- The ways a context holds as scratchpad (R114). -/
def State.holdsWay (s : State) (ctx way : Nat) : Bool :=
  let w := (s.reg (0x030000200000 + 8 * ctx)).toNat
  decide (bits w 11 8 ≤ way ∧ way < bits w 11 8 + bits w 3 0)

def State.layerDown (s : State) (l : Nat) : Bool :=
  Table.get false s.layerOff l || (Table.get none s.layerTrip l).isSome

/-- Does an open link reach package `p` (R368)? -/
def State.reaches (s : State) (p : Nat) : Bool := s.links.any fun e => e.2.up && e.2.pkg == p

/-- The detail of the home-unavailable fault, when the home cannot answer (R110, R114, R126, R274). -/
def State.down (s : State) (ctx pa : Nat) : Option Nat :=
  match s.loc pa with
  | .dram st _ =>
    if s.fencedAt (s.norm pa) then some 8
    else if Table.get false s.ctrlDown st then some 1 else none
  | .hub o =>
    if s.holdsWay ctx (bits o 29 26) = false then some 3
    else if s.layerDown (bits o 12 7 / 16) then some 7 else none
  | .sp n _ => if s.inReset (dieOf n) then some 2 else none
  | .host => if s.cxlDown then some 4 else none
  | .remote p => if s.reaches p then (if s.fencedAt pa then some 8 else none) else some 5
  | _ => none

/-! ### Scratchpad bank groups -/

/-- Bank, group and row of a scratchpad offset (R129). -/
def spBank (off : Nat) : Nat := bits off 9 7
def spGroup (n off : Nat) : Nat := if isP n then bits off 11 10 else bits off 10 10
def spRow (n off : Nat) : Nat := if isP n then bits off 22 12 else bits off 20 11

/-- The offset of the bank line at a group, row and data bank (R129). -/
def spOff (n g r b : Nat) : Nat := if isP n then r * 4096 + g * 1024 + b * 128 else r * 2048 + g * 1024 + b * 128

/-- The number of a bank line, which also numbers parity lines beyond the data lines: `b = 8` is the parity bank. -/
def bankLine (n g r b : Nat) : Nat := if b < 8 then spOff n g r b / 128 else 2 ^ 20 + g * 4096 + r

/-- Words of a bank line that differ from their ECC in one bit, and in more (R143). -/
def Core.eccWords (c : Core) (line : Nat) : Nat × Nat :=
  (List.range 16).foldl (fun acc w =>
    let m := (Table.get 0 c.flips (line * 16 + w)).toNat
    if m = 0 then acc
    else if (List.range 64).foldl (fun k i => k + b2n (bit m i)) 0 = 1 then (acc.1 + 1, acc.2) else (acc.1, acc.2 + 1)) (0, 0)

/-- The bank in which a data bank's lines stand: after retirement, the parity bank (R142). -/
def Core.physBank (c : Core) (g b : Nat) : Nat :=
  let x := c.group g
  if x.mode = 2 ∧ x.fbank = b then 8 else b

def Core.setStale (c : Core) (g : Nat) (l : List Nat) : Core :=
  let x := c.group g
  c.setGroup g { x with stale := l }

def bumpCount (t : Table Nat) (k n : Nat) : Table Nat := Table.put 0 t k (min (Table.get 0 t k + n) 0xFFFF)

/-- One access to a bank reads and checks the whole line, counting and reporting each bad word once (R135); a stuck bank
counts one uncorrected word. The answer is whether the line can be read. -/
def bankAccess (n g r b : Nat) : M Bool := do
  let s ← get
  let c := s.core n
  let pb := c.physBank g b
  if Table.get false c.stuck (9 * g + pb) then
    modify fun s => s.modCore n fun c => { c with ue := bumpCount c.ue (9 * g + pb) 1 }
    logM 0x01 (dieOf n) 0 [n, g, pb, r, 2, 1]
    pure false
  else
    let e := c.eccWords (bankLine n g r pb)
    if e.1 ≠ 0 then
      modify fun s => s.modCore n fun c => { c with ce := bumpCount c.ce (9 * g + pb) e.1 }
      logM 0x01 (dieOf n) 0 [n, g, pb, r, 1, 1]
    if e.2 ≠ 0 then
      modify fun s => s.modCore n fun c => { c with ue := bumpCount c.ue (9 * g + pb) e.2 }
      logM 0x01 (dieOf n) 0 [n, g, pb, r, 2, 1]
    pure (e.2 == 0)

/-- The reconstruction fault (R137, R353): reason, stripe, bank mask and requester rank. -/
def reconFault {α : Type} (reason g r mask rank : Nat) : M α :=
  flt 8 reason (g + r * 4 + mask * 2 ^ 32) rank

/-- Rebuild bank `b`'s line of a row from the other eight (R136): their uncorrectable banks end it with reason 1. -/
def reconstruct (n g r b rank : Nat) : M Unit := do
  let others := (List.range 9).filter fun x => x != b
  let oks ← others.mapM fun x => do pure (x, ← bankAccess n g r x)
  let bads := (oks.filter fun p => !p.2).map (·.1)
  if bads ≠ [] then
    reconFault 1 g r (2 ^ b + bads.foldl (fun m x => m + 2 ^ x) 0) rank
  else logM 0x02 (dieOf n) 0 [n, g, b, r]

/-- The words of a bank line stand as written: their flips end (R143). -/
def Core.clearFlips (c : Core) (line : Nat) : Core :=
  { c with flips := Table.dropWhere (fun k => k / 16 == line) c.flips }

/-- The catch-up sequence on a row (R134): its eight data lines are read, one that is uncorrectable is poisoned and reported,
and the parity line is written afresh. -/
def catchUpRow (n g r : Nat) : M Unit := do
  (List.range 8).forM fun b => do
    let ok ← bankAccess n g r b
    if ok = false then
      modify fun s => s.modCore n fun c => { c with linePois := Table.put false c.linePois (spOff n g r b / 128) true }
  modify fun s => s.modCore n fun c =>
    (c.clearFlips (bankLine n g r 8)).setStale g ((c.group g).stale.filter (· != r))

/-- Stale-row catch-up of the oldest entry (R134). -/
def catchUp (n g : Nat) : M Unit := do
  let s ← get
  match ((s.core n).group g).stale with
  | [] => pure ()
  | r :: _ => catchUpRow n g r

/-- A request to a group has its turn: it waits through a rebuild (R141), and while the stale-row table is full the catch-up of the
oldest entry goes before it (R131, R134). -/
def groupTurn (n g : Nat) : M Unit := do
  let s ← get
  let x := (s.core n).group g
  if x.mode = 1 then throw .stall
  if x.mode = 0 ∧ 64 ≤ x.stale.length then catchUp n g

/-- Is a read served by triangulation (R132)? Whether its bank is taken by another read of the same cycle the spec leaves
to the run, so it is a free choice (log 2), made only where it can be seen: where a line of the row has a bad word. A
triangulation that meets an uncorrectable word delivers nothing, and the read waits for its own bank. -/
def triangulated (n g r b : Nat) : M Bool := do
  let s ← get
  let c := s.core n
  let x := c.group g
  let stuck := (List.range 9).any fun k => Table.get false c.stuck (9 * g + k)
  let bad := (List.range 9).any fun k => c.eccWords (bankLine n g r k) != (0, 0)
  if x.mode = 0 ∧ x.stale.contains r = false ∧ stuck = false ∧ bad = true then
    if (← freshBool) then
      let oks ← ((List.range 9).filter fun k => k != b).mapM fun k => bankAccess n g r k
      pure (oks.all id)
    else pure false
  else pure false

/-- A read of a bank line (R132, R136): clean, corrected, reconstructed, or a fault; then its poison bit (R138). -/
def readBankLine (n g r b rank : Nat) : M Unit := do
  groupTurn n g
  let ok ← do if (← triangulated n g r b) then pure true else bankAccess n g r b
  let s ← get
  let x := (s.core n).group g
  if ok = false then
    if x.mode ≠ 0 then reconFault 3 g r (2 ^ ((s.core n).physBank g b)) rank
    else if x.stale.contains r then reconFault 2 g r (2 ^ b) rank
    else reconstruct n g r b rank
  let s ← get
  if Table.get false (s.core n).linePois (spOff n g r b / 128) then
    flt 6 0 0 (spBase n + spOff n g r b)

/-- The lines of a run carry good check values and no poison of their own. -/
def State.freshLines (s : State) (pa len : Nat) : State :=
  let ls := span (pa / 64) ((pa % 64 + len + 63) / 64)
  { s with lines := ls.foldl (fun t l => Table.put LineMeta.good t l LineMeta.good) s.lines }

/-- The bytes and the fresh ECC of a bank line; a whole one clears the poison (R138). -/
def storeBankLine (n off : Nat) (data : List Byte) : M Unit := do
  modify fun s => s.modCore n fun c =>
    let c := c.clearFlips (bankLine n (spGroup n off) (spRow n off) (c.physBank (spGroup n off) (spBank off)))
    if data.length = 128 then { c with linePois := Table.put false c.linePois (off / 128) false } else c
  modify fun s => { s with mem := Memory.writeList s.mem (spBase n + off) data }
  modify fun s => s.freshLines (spBase n + off) data.length

/-- Does a run cover part of a 64-byte line, so that the old line is read for the merge (R106)? -/
def partHalf (off len : Nat) : Bool := off % 64 != 0 || (off + len) % 64 != 0

/-- Write part or all of one bank line (R133, R136, R138). In a row of a HEALTHY group that is not stale, with the parity bank
free the old line and the old parity line are read, and both lines are written; where the old line is uncorrectable, the
row's parity is computed again by the catch-up sequence, and so where the old parity line is (log 87). With the parity bank
busy (a free choice, log 2) the row becomes stale. A partial write of a poisoned line faults. -/
def writeBankLine (n off : Nat) (data : List Byte) : M Unit := do
  let g := spGroup n off
  let r := spRow n off
  let b := spBank off
  groupTurn n g
  let s ← get
  if data.length < 128 ∧ Table.get false (s.core n).linePois (off / 128) then flt 6 0 0 (spBase n + off)
  let x := (s.core n).group g
  let merge := if partHalf off data.length then do let _ ← bankAccess n g r b else pure ()
  if x.mode = 0 ∧ x.stale.contains r = false then
    if (← freshBool) then
      merge
      storeBankLine n off data
      modify fun s => s.modCore n fun c => c.setStale g ((c.group g).stale ++ [r])
    else
      let old ← bankAccess n g r b
      let par ← bankAccess n g r 8
      storeBankLine n off data
      if old && par then modify fun s => s.modCore n fun c => c.clearFlips (bankLine n g r 8)
      else catchUpRow n g r
  else
    merge
    storeBankLine n off data

/-- A command that covers all of a poisoned bank line, if in several runs, writes it in one access (R138): fresh checks for
both halves, and the poison bit is clear. -/
def healBankLine (n off : Nat) : M Unit :=
  modify fun s =>
    if Table.get false (s.core n).linePois (off / 128) then
      (s.modCore n fun c => { c with linePois := Table.put false c.linePois (off / 128) false }).freshLines
        (spBase n + off / 128 * 128) 128
    else s

/-- A whole stripe in one cycle (R133): every line fresh, parity computed directly, the row no longer stale. -/
def writeStripe (n off : Nat) (data : List Byte) : M Unit := do
  let g := spGroup n off
  let r := spRow n off
  groupTurn n g
  modify fun s => s.modCore n fun c =>
    let c := (List.range 8).foldl (fun c b =>
      let c := c.clearFlips (bankLine n g r (c.physBank g b))
      { c with linePois := Table.put false c.linePois (spOff n g r b / 128) false }) c
    let c := if (c.group g).mode = 0 then c.clearFlips (bankLine n g r 8) else c
    c.setStale g ((c.group g).stale.filter (· != r))
  modify fun s => { s with mem := Memory.writeList s.mem (spBase n + off) data }
  modify fun s => s.freshLines (spBase n + off) 1024

/-- Cut a run of bytes at the multiples of `step`: each piece with its offset. -/
def pieces : Nat → Nat → Nat → List Byte → List (Nat × List Byte)
  | 0, _, _, _ => []
  | fuel + 1, step, off, l =>
    if l.isEmpty then [] else
    let k := step - off % step
    (off, l.take k) :: pieces fuel step (off + k) (l.drop k)

/-- Break the load reservations on a line (R49), but not that of the control core that writes. -/
def State.breakResv (s : State) (line : Nat) (byCc : Option Nat) : State :=
  let drop := fun (h : Hart) => if h.resv = some line then { h with resv := none } else h
  let s := s.cores.foldl (fun t e => if some e.1 = byCc then t else t.modCore e.1 fun c => { c with hart := drop c.hart }) s
  { s with mgmt := drop s.mgmt, lanes := s.lanes.map fun e => (e.1, drop e.2) }

/-- Write a run of a scratchpad: whole stripes as stripes, the rest bank line by bank line (R133). -/
def spWrite (w : Who) (n off : Nat) (data : List Byte) : M Unit := do
  let byCc := if w.isCc then w.coreNo else none
  (pieces (data.length + 1) 1024 off data).forM fun p => do
    if p.2.length = 1024 then writeStripe n p.1 p.2
    else (pieces (p.2.length + 1) 128 p.1 p.2).forM fun q => do
      -- a partly written 64-byte half is verified before the merge (R106)
      let s ← get
      let halves := (span (q.1 / 64) ((q.1 % 64 + q.2.length + 63) / 64)).filter fun l =>
        !(decide (q.1 ≤ 64 * l ∧ 64 * l + 64 ≤ q.1 + q.2.length))
      halves.forM fun l => do
        let md := Table.get LineMeta.good s.lines (spBase n / 64 + l)
        if md.diff ≠ 0 then
          let got := crc32c (Memory.readList s.mem (spBase n + 64 * l) 64)
          flt 5 7 ((got ^^^ md.diff.toNat) + got * 2 ^ 32) (spBase n + 64 * l)
      writeBankLine n q.1 q.2
  modify fun s => (span ((spBase n + off) / 64) ((off % 64 + data.length + 63) / 64)).foldl
    (fun t l => t.breakResv l byCc) s

/-- The bytes of a run that lies in one bank line that has been read: the check value of each 64-byte line it takes bytes of
(R106, R130). -/
def spTake (n off len : Nat) : M (List Byte) := do
  let s ← get
  let pa := spBase n + off
  (span (pa / 64) ((pa % 64 + len + 63) / 64)).forM fun l => do
    let md := Table.get LineMeta.good s.lines l
    if md.diff ≠ 0 then
      let got := crc32c (Memory.readList s.mem (l * 64) 64)
      flt 5 3 ((got ^^^ md.diff.toNat) + got * 2 ^ 32) (max pa (l * 64))
  pure (Memory.readList s.mem pa len)

/-- The bank line of a scratchpad offset is fetched: read and checked whole, and once in a burst, whatever it comes to (R135). -/
def fetchBankLine (w : Who) (n off : Nat) : M Unit := do
  let s ← get
  let k := n * 2 ^ 20 + off / 128
  let note := fun (r : List Nat) => modify fun s => { s with burst := s.burst.map ((k, r) :: ·) }
  match (s.burst.getD []).find? fun e => e.1 == k with
  | some (_, [c, d, x, y]) => flt c d x y
  | some _ => pure ()
  | none => do
    tryCatch (readBankLine n (spGroup n off) (spRow n off) (spBank off) (w.rank n)) fun e => do
      match e with
      | .flt f => note [f.cause, f.detail, f.aux, f.aux2]
      | _ => pure ()
      throw e
    note []

/-- The reads of `m` are one access of its engine: each bank line is fetched once (R135). -/
def inBurst {α : Type} (m : M α) : M α := do
  let s ← get
  let close : M Unit := if s.burst.isSome then pure () else modify fun t => { t with burst := none }
  modify fun s => { s with burst := some (s.burst.getD []) }
  let r ← tryCatch m fun e => do
    close
    throw e
  close
  pure r

/-- Read a run of a scratchpad that lies in one bank line. -/
def spRead (w : Who) (n off len : Nat) : M (List Byte) := do
  fetchBankLine w n off
  spTake n off len

/-! ### What a requester sees -/

/-- The newest byte that a list of writes, oldest first, holds for an address. -/
def newestOf (l : List (Nat × List Byte)) (pa : Nat) : Option Byte :=
  l.foldl (fun acc e => if e.1 ≤ pa ∧ pa < e.1 + e.2.length then e.2[pa - e.1]? else acc) none

/-- The byte at an address as it stands at its home (coherent copies count as one). -/
def State.homeByte (s : State) (pa : Nat) : Byte := Memory.read s.mem (s.key pa)

/-- The old copy that a die still reads (R318). -/
def State.staleByte (s : State) (die pa : Nat) : Option Byte :=
  match s.stale.find? fun c => c.die == die && c.line == pa / 64 with
  | some c => c.data[pa % 64]?
  | none => none

/-- The byte of a staging area at an address; one of a spilled line is read from the spill area (R122). -/
def State.stagedByte (s : State) (g : Staging) (pa : Nat) : Option Byte :=
  (Table.get none g.bytes pa).map fun b => match (Table.get none g.lines (pa / 64)).bind (·.spill) with
    | some p => s.homeByte (p + pa % 64)
    | none => b

/-- The staged output that a requester of a core reads (R34): the supervisor that handles a suspended task reads its own stores
and not what the task has staged (R104). -/
def Core.stagedFor (c : Core) (w : Who) : Staging := if w.isCc && c.suspended then Staging.empty else c.staging

/-- The byte a requester reads: its own queued store (R104), its own staged line (R34), its own write that the swap
engine holds (R125), a write its cluster holds (R385), its die's old copy (R318), else the byte at its home. -/
def State.viewByte (s : State) (w : Who) (pa0 : Nat) : Byte :=
  let pa := s.norm pa0
  let home := s.homeByte pa
  match w.coreNo with
  | none => home
  | some n =>
    let c := s.core n
    let q := if w.isCc then newestOf (c.sq.map fun e => (e.pa, e.data)) pa else none
    let held := newestOf ((s.heldW.filter fun h => h.cluster == clusterOf n).map fun h => (h.pa, h.data)) pa
    let held := match s.swap with
      | some j => (newestOf ((j.held.filter fun (h : WaitingWrite) => h.core == some n).map fun (h : WaitingWrite) => (h.pa, h.data)) pa).or held
      | none => held
    (q.or ((s.stagedByte (c.stagedFor w) pa).or (held.or (s.staleByte (dieOf n) pa)))).getD home

/-- Does the requester's own store queue or staging hold every byte of the run, so that no home is asked? -/
def State.servedLocally (s : State) (w : Who) (pa0 len : Nat) : Bool :=
  let pa := s.norm pa0
  match w.coreNo with
  | none => false
  | some n =>
    let c := s.core n
    (span pa len).all fun a =>
      (w.isCc && (newestOf (c.sq.map fun e => (e.pa, e.data)) a).isSome) || (Table.get none (c.stagedFor w).bytes a).isSome

/-- The metadata key of a line. -/
def State.lineKey (s : State) (pa : Nat) : Nat := s.key pa / 64

def State.lineMeta (s : State) (pa : Nat) : LineMeta := Table.get LineMeta.good s.lines (s.lineKey pa)

/-- The place of a byte's mirror (R99), where its entry has a replica. -/
def State.mirror (s : State) (pa0 : Nat) : Option (Nat × Nat) :=
  let pa := s.norm pa0
  if pa < 2 ^ 39 then
    match s.rtFind pa with
    | some e => if e.rplen then some ((s.rtActive e.rplidx).place (pa - e.base * 2 ^ 30)) else none
    | none => none
  else none

/-- Why a home refuses a write: as any request, or because the stack of the mirror is down (R99, R110). -/
def State.downWrite (s : State) (ctx pa : Nat) : Option Nat :=
  (s.down ctx pa).or (match s.mirror pa with
    | some p => if Table.get false s.ctrlDown p.1 then some 1 else none
    | none => none)

/-- May a dirty line be written back now: its home, and its mirror, answer (R99, R111), and no new region table holds requests to
DRAM space (R101)? -/
def State.canWriteBack (s : State) (pa : Nat) : Bool := (s.downWrite 0 pa).isNone && !(s.rtDrain && s.isDram pa)

/-- The poison bit of a line is set where it stands, and at its mirror (R99, R108). -/
def State.poisonAt (s : State) (pa : Nat) : State :=
  let bad : LineMeta := { poison := true, diff := 0 }
  let s1 := { s with lines := Table.put LineMeta.good s.lines (s.lineKey pa) bad }
  match s.mirror pa with
  | some p => { s1 with lines := Table.put LineMeta.good s1.lines (dramKey p / 64) bad }
  | none => s1

/-- A write-back of a line whose check is bad, in the copy or where it stands, sets its poison bit and is logged (R108). -/
def State.writeBack (s : State) (pa : Nat) (copy : W32) : State :=
  if (s.lineMeta pa).diff = 0 ∧ copy = 0 then s else (s.poisonAt pa).log 0x03 0x0C pa [7]

/-- The write-back of both halves of a cached line. -/
def State.writeBackLine (s : State) (t : CTag) : State :=
  (s.writeBack (t.addr * 128) t.diff0).writeBack (t.addr * 128 + 64) t.diff1

/-- Is the address one whose lines caches may hold (R102)? -/
def State.cacheable (s : State) (pa : Nat) : Bool :=
  match s.loc pa with
  | .dram _ _ => true
  | .host => true
  | .remote _ => true
  | _ => false

/-! ### Cache tags (R112, R113, R118 to R123) -/

/-- Does an address lie in the hub array's scratchpad window (R95)? -/
def inHubWindow (pa : Nat) : Bool := decide (0x010000000000 ≤ pa ∧ pa < 0x010040000000)

/-- Bank and set of an address in the hub: of a CACHED one by the terms of R112, of one of the window those it names (R114). A staged
line of a scratchpad window takes those of R112 (log 66). -/
def hubBank (pa : Nat) : Nat :=
  if inHubWindow pa then bits pa 12 7 else bits pa 12 7 ^^^ bits pa 18 13 ^^^ bits pa 24 19 ^^^ bits pa 30 25
def hubSet (pa : Nat) : Nat := bits pa 25 13

def hubKey (bank way set : Nat) : Nat := (bank * 16 + way) * 8192 + set

/-- Sets of a cluster cache and the set of an address (R123). -/
def ccSet (cl pa : Nat) : Nat := if cl < 8 then bits pa 18 7 else bits pa 16 7

def ccKey (cl way set : Nat) : Nat := (cl * 16 + way) * 4096 + set

/-- The cluster and the die of a cluster cache's key. -/
def ccCluster (k : Nat) : Nat := k / 4096 / 16

def ccDie (k : Nat) : Nat := dieOf (4 * ccCluster k)

/-- The clusters of a die that hold a line, and the tags they hold it with: the entry of the die's directory (R123). -/
def State.sharers (s : State) (die addr : Nat) : List (Nat × CTag) :=
  s.ccTags.filterMap fun e => match e.2 with
    | some t => if ccDie e.1 = die ∧ t.addr = addr then some (ccCluster e.1, t) else none
    | none => none

/-- The presence bit of a die for a line (R123). -/
def State.present (s : State) (die addr : Nat) : Bool := !(s.sharers die addr).isEmpty

/-- The directory's state of a line (R123), read off the tags. -/
inductive DirState where
  | modified | exclusive | shared | invalid
  deriving DecidableEq, Repr

def State.dirState (s : State) (die addr : Nat) : DirState :=
  match s.sharers die addr with
  | [] => .invalid
  | [e] =>
    if e.2.dirty then .modified
    else if (List.range 12).any fun d => d != die && s.present d addr then .shared else .exclusive
  | _ => .shared

/-! ### Old copies (R318) -/

/-- Has the line a write that some observer does not see yet: one that PHOLD keeps (R385), or one that a die has not
taken (R318)? -/
def State.pending (s : State) (line : Nat) : Bool :=
  s.heldW.any (fun h => h.pa / 64 == line) || s.stale.any fun c => c.line == line

/-- What cores observed and releases covered of lines that no longer have such a write ends. -/
def State.settleCover (s : State) : State :=
  let keep := fun (l : List Nat) => l.filter s.pending
  let clear := fun (c : Core) => { c with observed := keep c.observed, sq := c.sq.map fun e => { e with cov := keep e.cov } }
  { s with cores := s.cores.map fun e => (e.1, clear e.2), relCov := s.relCov.map fun r => { r with lines := keep r.lines },
           posted := s.posted.map fun p => { p with cov := keep p.cov } }

/-- Dies take the invalidations of the old copies that a test picks: the copies go, and with the last of a hub line's the
die's cluster caches lose the line (R318). -/
def State.takeInval (s : State) (p : StaleCopy → Bool) : State :=
  if s.stale.any p then
    let left := s.stale.filter fun c => !p c
    let gone := fun (k : Nat) (t : CTag) =>
      (s.stale.any fun c => p c && c.die == ccDie k && c.line / 2 == t.addr) &&
      !(left.any fun c => c.die == ccDie k && c.line / 2 == t.addr)
    ({ s with stale := left, ccTags := s.ccTags.filter fun e => match e.2 with
        | some t => !(gone e.1 t)
        | none => true } : State).settleCover
  else s

/-- A die whose last copy of a hub line has gone reads no old one. -/
def State.lostCopy (s : State) (die addr : Nat) : State :=
  if s.present die addr then s else s.takeInval fun c => c.die == die && c.line / 2 == addr

/-- The same of every die and line. -/
def State.trimStale (s : State) : State :=
  if s.stale.all fun c => s.present c.die (c.line / 2) then s
  else ({ s with stale := s.stale.filter fun c => s.present c.die (c.line / 2) } : State).settleCover

/-- The copies of lines that a test picks leave the hub and the cluster caches, staged lines apart. -/
def State.dropTags (s : State) (p : CTag → Bool) : State :=
  let keep := fun (e : Nat × Option CTag) => match e.2 with
    | some t => t.staged.isSome || !p t
    | none => true
  ({ s with hubTags := s.hubTags.filter keep, ccTags := s.ccTags.filter keep } : State).trimStale

/-- The unstaged tags a test picks leave the hub and the cluster caches: dirty ones are written back, but those whose home
cannot answer stay dirty (R111). The answer is the lines written back and those left. -/
def State.flushTags (s : State) (p : CTag → Bool) : State × Nat × Nat :=
  let pick := fun (e : Nat × Option CTag) => match e.2 with
    | some t => t.staged.isNone && p t
    | none => false
  let hits := (s.hubTags.filter pick) ++ (s.ccTags.filter pick)
  let tags := hits.filterMap fun e => e.2.bind fun t => if t.dirty then some t else none
  let dirty := (tags.map (·.addr)).eraseDups
  let left := dirty.filter fun a => (s.downWrite 0 (a * 128)).isSome
  let done := dirty.filter fun a => !left.contains a
  (((tags.filter fun t => !left.contains t.addr).foldl State.writeBackLine s).dropTags
    fun t => p t && !left.contains t.addr, done.length, left.length)

/-- The predictor index of a fill (R121). -/
def dbpIdx (pa ctx cls : Nat) : Nat :=
  (bits pa 31 20 ^^^ bits pa 43 32 ^^^ (bits pa 47 44 <<< 8) ^^^ (ctx <<< 2) ^^^ cls) % 4096

/-- Is a way of the hub held as scratchpad by any context (R114)? -/
def State.spWay (s : State) (way : Nat) : Bool :=
  (List.range 256).any fun c => Table.get (0 : W64) s.mmio (0x030000200000 + 8 * c) != 0 && s.holdsWay c way

/-- Occupancy of a context in the hub (`none`) or a cluster (R120): unstaged lines it owns. -/
def State.occCount (s : State) (ctx : Nat) : Option Nat → Nat
  | none => (s.hubTags.filter fun e => match e.2 with
      | some t => t.ctx == ctx && t.staged.isNone
      | none => false).length
  | some cl => (s.ccTags.filter fun e => e.1 / 4096 / 16 == cl && (match e.2 with
      | some t => t.ctx == ctx && t.staged.isNone
      | none => false)).length

def occReg (ctx : Nat) : Option Nat → Nat
  | none => 0x030000220000 + 8 * ctx
  | some cl => 0x030000300000 + 0x1000 * cl + 8 * ctx

/-- Over(ctx) (R120). -/
def State.overLimit (s : State) (ctx : Nat) (c : Option Nat) : Bool :=
  let lim := s.fld (occReg ctx c) 23 0
  decide (lim ≠ 0 ∧ lim ≤ s.occCount ctx c)

/-- Where a requester's fill goes (R119): a free or victim way, or none for BYPASS. `ways` lists the candidate ways with
what they hold. -/
def victim (overLim : Bool) (ctx : Nat) (ways : List (Nat × Option CTag)) : Option Nat :=
  match ways.find? fun p => p.2.isNone with
  | some p => some p.1
  | none =>
    let live := ways.filterMap fun p => match p.2 with
      | some t => if t.staged.isNone then some (p.1, t) else none
      | none => none
    let pool := if overLim then live.filter fun p => p.2.ctx == ctx else live
    let lru := fun (l : List (Nat × CTag)) =>
      l.foldl (fun (best : Option (Nat × CTag)) p =>
        match best with
        | none => some p
        | some b => if p.2.lru < b.2.lru then some p else some b) none
    match lru (pool.filter fun p => !p.2.sticky) with
    | some p => some p.1
    | none => (lru pool).map (·.1)

/-- The hub ways a request may use in a set: cache ways that are not frozen and not on a dead layer (R119); a dirty line
whose home cannot answer stays (R111), and one whose write-back a new region table holds (R101, log 72). -/
def State.hubCand (s : State) (pa : Nat) : List (Nat × Option CTag) :=
  let b := hubBank pa
  if s.layerDown (b / 16) then [] else
  (((List.range 16).filter fun w => !(Table.get false s.frozenWays w) && !(s.spWay w)).map fun w =>
    (w, Table.get none s.hubTags (hubKey b w (hubSet pa)))).filter fun p => match p.2 with
      | some t => t.staged.isSome || !t.dirty || s.canWriteBack (t.addr * 128)
      | none => true

/-- The hub way that holds a line (R112), staged tags apart; on a tripped layer only a dirty line is still served (R126). -/
def State.hubFind (s : State) (pa : Nat) : Option (Nat × CTag) :=
  (List.range 16).findSome? fun w =>
    match Table.get none s.hubTags (hubKey (hubBank pa) w (hubSet pa)) with
    | some t =>
      if t.addr = pa / 128 ∧ t.staged = none ∧ (t.dirty = true ∨ s.layerDown (hubBank pa / 16) = false) then
        some (hubKey (hubBank pa) w (hubSet pa), t)
      else none
    | none => none

def State.ccFind (s : State) (cl pa : Nat) : Option (Nat × CTag) :=
  (List.range 16).findSome? fun w =>
    match Table.get none s.ccTags (ccKey cl w (ccSet cl pa)) with
    | some t => if t.addr = pa / 128 then some (ccKey cl w (ccSet cl pa), t) else none
    | none => none

def dbpBump (s : State) (i : Nat) (up : Bool) : State :=
  let v := Table.get 0 s.dbp i
  { s with dbp := Table.put 0 s.dbp i (if up then min (v + 1) 7 else v - 1) }

/-- The part of a way that lies on one layer: CLEAN bits are kept for each, since a layer restarts with every way of it
CLEAN (R127). -/
def wayPart (way layer : Nat) : Nat := way * 4 + layer

/-- Put a tag into a hub way; an evicted line is written back if dirty (R119) and trains the predictor (R121), and a way
that holds a line is not CLEAN (R117). -/
def State.hubAlloc (s : State) (pa way : Nat) (t : CTag) : State :=
  let k := hubKey (hubBank pa) way (hubSet pa)
  let s := match Table.get none s.hubTags k with
    | some old =>
      let s := if old.dirty then s.writeBackLine old else s
      if old.reused then s else dbpBump s old.pidx true
    | none => s
  { s with hubTags := Table.put none s.hubTags k (some t),
           dirtyWays := Table.put false s.dirtyWays (wayPart way (hubBank pa / 16)) true }

/-- The tag of a line that a fill brings in. -/
def State.newTag (s : State) (pa ctx res cls : Nat) (write : Bool) : CTag :=
  { addr := pa / 128, ctx := ctx, sticky := res == 1, staged := none, pidx := dbpIdx pa ctx cls,
    reused := false, lru := s.stamp, dirty := write, dirtyAt := s.stamp }

/-- An access to a line that the hub holds, at a tag's key. -/
def State.hubHit (s : State) (k : Nat) (t : CTag) (res : Nat) (write : Bool) : State :=
  let t' := { t with reused := true, lru := if res = 3 then t.lru else s.stamp, dirty := t.dirty || write,
                     dirtyAt := if write && !t.dirty then s.stamp else t.dirtyAt, sticky := t.sticky || res == 1 }
  let s' := { s with hubTags := Table.put none s.hubTags k (some t') }
  if res = 3 then s' else dbpBump s' t.pidx false

/-- A line that a request brings in goes into the hub way that R119 gives it, if any. -/
def State.hubPlace (s : State) (pa ctx res cls : Nat) (write : Bool) : State :=
  match victim (s.overLimit ctx none) ctx (s.hubCand pa) with
  | some way => s.hubAlloc pa way (s.newTag pa ctx res cls write)
  | none => s

/-- A fill of the hub; one predicted dead is placed only as every 32nd sample (R121). -/
def State.hubFill (s : State) (pa ctx res cls : Nat) (write : Bool) : State :=
  let thr := s.fld 0x030000211000 3 1
  let dead := res == 0 && !write && decide (thr ≠ 0 ∧ thr ≤ Table.get 0 s.dbp (dbpIdx pa ctx cls))
  if dead then
    let s1 := { s with dbpSample := (s.dbpSample + 1) % 32 }
    if s1.dbpSample ≠ 0 then s1 else s1.hubPlace pa ctx res cls write
  else s.hubPlace pa ctx res cls write

def State.touchHub (s : State) (pa ctx res cls : Nat) (write : Bool) : State :=
  match s.hubFind pa with
  | some e => s.hubHit e.1 e.2 res write
  | none => if res ≥ 2 then s else s.hubFill pa ctx res cls write

def State.ccHit (s : State) (k : Nat) (t : CTag) (res : Nat) (write : Bool) : State :=
  let t' := { t with reused := true, lru := if res = 3 then t.lru else s.stamp, dirty := t.dirty || write,
                     sticky := t.sticky || res == 1 }
  { s with ccTags := Table.put none s.ccTags k (some t') }

/-- The ways of a cluster cache that a fill may use: a line that holds a held write stays (R385), and so does a dirty one that cannot
be written back now. -/
def State.ccCand (s : State) (cl pa : Nat) : List (Nat × Option CTag) :=
  ((List.range 16).map fun way => (way, Table.get none s.ccTags (ccKey cl way (ccSet cl pa)))).filter fun p => match p.2 with
    | some t => (!t.dirty || s.canWriteBack (t.addr * 128)) &&
        !(s.heldW.any fun h => h.cluster == cl && h.pa / 128 == t.addr)
    | none => true

/-- A fill of a cluster cache; the evicted line is written back if dirty, and a die that loses its last copy so reads no
old one. -/
def State.ccFill (s : State) (cl pa ctx : Nat) (tag : CTag) : State :=
  match victim (s.overLimit ctx (some cl)) ctx (s.ccCand cl pa) with
  | some way =>
    let k := ccKey cl way (ccSet cl pa)
    let fill := fun (s : State) => { s with ccTags := Table.put none s.ccTags k (some tag) }
    match Table.get none s.ccTags k with
    | some old => (fill (if old.dirty then s.writeBackLine old else s)).lostCopy (ccDie k) old.addr
    | none => fill s
  | none => s

def State.touchCc (s : State) (cl pa ctx res cls : Nat) (write : Bool) : State :=
  match s.ccFind cl pa with
  | some e => s.ccHit e.1 e.2 res write
  | none => if res ≥ 2 then s else s.ccFill cl pa ctx (s.newTag pa ctx res cls write)

/-- A write that a cluster cache takes makes the hub's copy dirty too, and trains nothing there (log 65). -/
def State.hubDirty (s : State) (pa : Nat) : State :=
  match s.hubFind pa with
  | some (k, t) =>
    let t' : CTag := { t with dirty := true, dirtyAt := if t.dirty then t.dirtyAt else s.stamp }
    { s with hubTags := Table.put none s.hubTags k (some t') }
  | none => s

/-- The written half of a line carries a fresh check where the write puts it: in the hub's copy, and in that of the writer's cluster
(R106). An old copy of another die keeps its own. -/
def State.freshCopies (s : State) (cl : Option Nat) (pa : Nat) : State :=
  let fresh := fun (e : Nat × Option CTag) => (e.1, e.2.map fun t =>
    if t.addr = pa / 128 then (if bit pa 6 then { t with diff1 := 0 } else { t with diff0 := 0 }) else t)
  if (s.hubTags ++ s.ccTags).any fun e => match e.2 with
    | some t => t.addr == pa / 128 && (t.diff0 != 0 || t.diff1 != 0)
    | none => false
  then { s with hubTags := s.hubTags.map fresh
                ccTags := s.ccTags.map fun e => if some (ccCluster e.1) = cl then fresh e else e }
  else s

/-- What an access to a CACHED line does to the tags of the hub and of the requester's cluster cache: residency class
`res` (R118), predictor class `cls` (R121), and whether it writes. A hit in the cluster cache does not reach the hub. -/
def State.touchLine (s : State) (w : Who) (pa0 res cls : Nat) (write : Bool) : State :=
  let pa := s.norm pa0
  let ctx := s.ctxOf w
  let s : State := { s with stamp := s.stamp + 1 }
  let s := if write then s.freshCopies (w.coreNo.map clusterOf) pa else s
  match w.coreNo with
  | none => s.touchHub pa ctx res cls write
  | some n =>
    match s.ccFind (clusterOf n) pa with
    | some e => (if write then s.hubDirty pa else s).ccHit e.1 e.2 res write
    | none => (s.touchHub pa ctx res cls write).touchCc (clusterOf n) pa ctx res cls write

/-! ### Reads and writes of lines outside MMIO -/

/-- How a request is made: residency class, predictor class, whether the effective home is CACHED, whether it is a stream's own
Traverse write, the point at which a failing check is detected where it is not that of the line's place (R107), and whether a write
is performed at a scope beyond the cluster, which the propagation hold does not take (R295, R385), and whether what it does to another
package's memory travels in a message of its caller's. -/
structure Req where
  who : Who
  cached : Bool := true
  res : Nat := 0
  cls : Nat := 0
  traverse : Bool := false
  point : Option Nat := none
  wide : Bool := false
  told : Bool := false
  deriving DecidableEq, Repr

/-- Does a home answer this request: no reserved address (R96), no region-table drain in progress (R101), a home that
answers (R110)? A stream's own Traverse writes pass its fence (R274). -/
def homeCheck (q : Req) (pa : Nat) : M Unit := do
  let s ← get
  if s.loc pa = .bad ∨ s.isMmio pa = true then flt 3 2
  if s.rtDrain = true ∧ s.isDram pa = true then throw .stall
  match s.down (s.ctxOf q.who) pa with
  | none => pure ()
  | some d => if q.traverse && d == 8 then pure () else flt 7 d 0 pa

/-- The integrity fault of a line (R107): expected and computed check. -/
def integrity {α : Type} (code pa : Nat) (md : LineMeta) (bytes : List Byte) : M α :=
  let got := crc32c bytes
  flt 5 code ((got ^^^ md.diff.toNat) + got * 2 ^ 32) pa

/-- The line kept under a key is fit to be read: not poisoned (R109), its check good (R106, R107); a fault names `pa`. -/
def keyFit (key pa code : Nat) : M Unit := do
  let s ← get
  let md := Table.get LineMeta.good s.lines key
  if md.poison then flt 6 0 0 pa
  if md.diff ≠ 0 then integrity code pa md (Memory.readList s.mem (key * 64) 64)

/-- A line outside the scratchpads is fit to be read where it stands. -/
def lineFit (pa code : Nat) : M Unit := do
  let s ← get
  keyFit (s.lineKey pa) pa code

/-- Where a request finds a line (R107): detection code 2 for its cluster's cache, 1 for the hub array, 0 for DRAM, and for a copy
by how much its check differs. -/
def State.foundAt (s : State) (w : Who) (cached : Bool) (pa0 : Nat) : Nat × Option W32 :=
  let pa := s.norm pa0
  let half := fun (t : CTag) => if bit pa 6 then t.diff1 else t.diff0
  match s.loc pa with
  | .hub _ => (1, none)
  | .sp _ _ => (3, none)
  | _ =>
    if cached = false then (0, none)
    else match w.coreNo.bind fun n => s.ccFind (clusterOf n) pa with
      | some e => (2, some (half e.2))
      | none => match s.hubFind pa with
        | some e => (1, some (half e.2))
        | none => (0, none)

/-- At which point a failing check of a request's read is detected (R107): whatever the host reads is verified as it leaves, code 8;
a reader that names its point has it there (log 88); else where the line is found. -/
def State.readPoint (s : State) (q : Req) (pa : Nat) : Nat :=
  q.point.getD (if q.who = .host then 8 else (s.foundAt q.who q.cached pa).1)

/-- The line as a request finds it is fit: the copy, or the line at its home; `code` is the point of detection. -/
def foundFit (q : Req) (pa code : Nat) : M Unit := do
  let s ← get
  match (s.foundAt q.who q.cached pa).2 with
  | none => lineFit pa code
  | some d =>
    let md := s.lineMeta pa
    if md.poison then flt 6 0 0 pa
    if d ≠ 0 then integrity code pa { md with diff := d } (Memory.readList s.mem (s.lineKey pa * 64) 64)

/-- The line a request reads is fit. -/
def readFit (q : Req) (pa : Nat) : M Unit := do
  let s ← get
  foundFit q pa (s.readPoint q pa)

/-- A write of part of a line may be merged, into the line as the writer finds it and at its mirror (R99, R106, R109). -/
def mergeFit (q : Req) (pa : Nat) : M Unit := do
  foundFit q pa 7
  let s ← get
  match s.mirror pa with
  | some p => keyFit (dramKey p / 64) pa 7
  | none => pure ()

/-- A read of a CACHED line is seen by the caches. -/
def State.noteRead (s : State) (q : Req) (pa : Nat) : State :=
  if q.cached && s.cacheable pa then s.touchLine q.who pa q.res q.cls false else s

/-- How many writes the copy that a die reads of a line is behind. -/
def State.behindBy (s : State) (die line : Nat) : Nat :=
  match s.stale.find? fun c => c.die == die && c.line == line with
  | some c => c.behind
  | none => 0

/-- A write that a core or an engine of it reads and some observer does not see yet is covered by the core's later releases
(R316, R321): a held write of its cluster (R385), or one of which another die still reads an older copy. -/
def State.noteObserved (s : State) (w : Who) (pa : Nat) : State :=
  match w.coreNo with
  | some n =>
    let line := s.norm pa / 64
    if (s.heldW.any fun h => h.cluster == clusterOf n && h.pa / 64 == line) ||
       s.stale.any fun c => c.line == line && decide (s.behindBy (dieOf n) line < c.behind) then
      s.modCore n fun c => { c with observed := line :: c.observed.filter (· != line) }
    else s
  | none => s

/-- A line of the spill area that serves a read is there and fit (R122). -/
def spillFit (w : Who) (pa0 : Nat) : M Unit := do
  let s ← get
  let pa := s.norm pa0
  match w.coreNo.bind fun n => (Table.get none ((s.core n).stagedFor w).lines (pa / 64)).bind (·.spill) with
  | some p =>
    match s.down (s.ctxOf w) p with
    | some d => flt 7 d 0 p
    | none => lineFit p 0
  | none => pure ()

/-- Read a run that lies in one 64-byte line, or in one bank line of a scratchpad, at its home or from what the requester itself
holds. -/
def readSeg (q : Req) (pa len : Nat) : M (List Byte) := do
  let s ← get
  match s.loc pa with
  | .sp n off => do
    homeCheck q pa
    let _ ← spRead q.who n off len
    let s ← get
    pure ((span pa len).map (s.viewByte q.who))
  | _ =>
    if s.servedLocally q.who pa len then do
      spillFit q.who pa
      pure ((span pa len).map (s.viewByte q.who))
    else do
      homeCheck q pa
      readFit q pa
      modify fun s => (s.noteRead q pa).noteObserved q.who pa
      let s ← get
      pure ((span pa len).map (s.viewByte q.who))

/-- What a write of a line does to its copies (R123, R318): the other clusters of the writer's die lose theirs before the
write is performed at die scope, and an invalidation goes to every other die that holds one; until it takes its
invalidation, a die reads the line as it stood. -/
def State.sendInval (s : State) (line : Nat) (w : Who) (old : List Byte) : State :=
  let other := fun (k : Nat) => match w.coreNo with
    | some n => ccDie k == dieOf n && ccCluster k != clusterOf n
    | none => false
  let s := { s with
    ccTags := s.ccTags.filter fun e => match e.2 with
      | some t => !(t.addr == line / 2 && other e.1)
      | none => true
    stale := (s.stale.filter fun c => !(c.line == line && some c.die == w.die)).map fun c =>
      if c.line = line then { c with writers := w.writer :: c.writers.filter (· != w.writer), behind := c.behind + 1 } else c }
  ((List.range 12).filter fun d => some d != w.die && s.present d (line / 2)).foldl (fun t d =>
    if t.stale.any fun c => c.die == d && c.line == line then t
    else { t with stale := t.stale ++ [{ die := d, line := line, data := old, writers := [w.writer] }] }) s

/-- Does a run of bytes reach the word of a release? -/
def RelCover.reached (r : RelCover) (pa len : Nat) : Bool := decide (pa < 8 * r.word + 8 ∧ 8 * r.word < pa + len)

/-- A write at its home, or (`inHold`) one that PHOLD keeps, follows what releases left there at its words (R317): a release that a
write follows synchronises from then on only with an acquire that still reads an older copy. -/
def State.dropCover (s : State) (inHold : Bool) (pa len : Nat) : State :=
  { s with relCov := s.relCov.map fun r =>
      if r.held.isSome == inHold && r.reached pa len then { r with past := true } else r }

/-- What is left of overwritten releases of whose word no die reads an old copy ends. -/
def State.pastCover (s : State) : State :=
  { s with relCov := s.relCov.filter fun r => !r.past || r.held.isSome || s.stale.any fun c => c.line == r.word / 8 }

/-- A held write has come to its home: the release that made it stands there (R317, R385). -/
def State.coverHome (s : State) (no : Nat) : State :=
  { s with relCov := s.relCov.map fun r => if r.held = some no then { r with held := none, past := false } else r }

/-- Does a run of bytes reach the aligned 8-byte word at an address? -/
def reachesWord (pa a len : Nat) : Bool := decide (a < pa / 8 * 8 + 8 ∧ pa / 8 * 8 < a + len)

/-- The number of the newest held write that a core reads in the word at an address: its own at the swap engine (R125), or one of
its cluster (R385). No other agent reads one. -/
def State.heldNo (s : State) (core : Option Nat) (pa : Nat) : Option Nat :=
  core.bind fun n =>
    let own : Option WaitingWrite := s.swap.bind fun j =>
      (j.held.filter fun (h : WaitingWrite) => h.core == some n && reachesWord pa h.pa h.data.length).getLast?
    (own.map (·.no)).or
      ((s.heldW.filter fun h => h.cluster == clusterOf n && reachesWord pa h.pa h.data.length).getLast?.map (·.no))

/-- Does a reader of the word at `pa` read what a release left: the newest held write that it reads, or else, at the home, the
newest write or, where its die has an older copy, an overwritten one (R317, R318, R385)? -/
def State.readsRelease (s : State) (core : Option Nat) (pa : Nat) (r : RelCover) : Bool :=
  r.word == s.norm pa / 8 &&
  (match s.heldNo core (s.norm pa) with
   | some k => r.held == some k
   | none => r.held.isNone &&
      (!r.past || core.any fun n => s.stale.any fun c => c.die == dieOf n && c.line == s.norm pa / 64))

/-- Store bytes of one line at its home: the bytes, a fresh check and no poison, the replica (R99), the reservations it
breaks (R49), and the invalidations it sends when the line is CACHED. -/
def State.storeLine (s : State) (w : Who) (cached : Bool) (pa0 : Nat) (data : List Byte) : State :=
  let pa := s.norm pa0
  let old := Memory.readList s.mem (s.lineKey pa * 64) 64
  let fresh := fun (t : State) (k : Nat) =>
    { t with mem := Memory.writeList t.mem k data, lines := Table.put LineMeta.good t.lines (k / 64) LineMeta.good }
  let s1 := fresh (s.dropCover false pa data.length) (s.key pa)
  let s1 := match s.mirror pa with
    | some p => fresh s1 (dramKey p)
    | none => s1
  let s1 := s1.breakResv (pa / 64) (if w.isCc then w.coreNo else none)
  (if cached && s.cacheable pa then s1.sendInval (pa / 64) w old else s1).pastCover

/-- Does the propagation hold take this write (R385): a CACHED one that is performed at cluster scope? -/
def State.holdTakes (s : State) (q : Req) (pa : Nat) : Bool :=
  match q.who.coreNo with
  | none => false
  | some n =>
    let cyc := s.fld 0x030001710000 31 0
    let cl := s.fld 0x030001710000 38 32
    let cm := s.fld 0x030001710000 43 40
    q.cached && !q.wide && s.cacheable pa && ((decide (cyc ≠ 0 ∧ cm ≠ 0) && clusterOf n == cl && bit cm (n % 4)) ||
      s.heldW.any fun h => h.cluster == clusterOf n && h.pa / 64 == s.norm pa / 64)

/-- Is the page of an address the one that the swap engine moves (R125)? -/
def State.swapTakes (s : State) (pa : Nat) : Bool :=
  match s.swap with
  | some j => s.norm pa / 65536 == j.src / 65536
  | none => false

/-- A write to the page being moved is held at the hub, in arrival order and under a number of its own (R125); it breaks the
reservations on its line (R49). -/
def State.holdAtSwap (s : State) (w : Who) (no pa : Nat) (data : List Byte) : State :=
  let s := s.breakResv (s.norm pa / 64) (if w.isCc then w.coreNo else none)
  let h : WaitingWrite := { core := w.coreNo, pa := s.norm pa, data := data, no := no }
  { s with stamp := s.stamp + 1, swap := s.swap.map fun j => { j with held := j.held ++ [h] } }

/-- Bytes of one line go to their home, or to the swap engine where it moves the page. -/
def State.putLine (s : State) (w : Who) (cached : Bool) (pa : Nat) (data : List Byte) : State :=
  if s.swapTakes pa then s.holdAtSwap w s.stamp pa data else s.storeLine w cached pa data

/-- Send a message over the fabric. -/
def State.send (s : State) (pkg : Nat) (m : FabMsg) : State := { s with fabOut := s.fabOut ++ [(pkg, m)] }

/-- A write to another package's memory is posted to it (R368, R370); a Traverse write is that package's own. -/
def State.tellWrite (s : State) (q : Req) (pa : Nat) (data : List Byte) : State :=
  match s.loc pa with
  | .remote p => if q.told || q.traverse then s else s.send p (.write (bits pa 38 0) data)
  | _ => s

/-- A write of a line outside the scratchpads at its home. -/
def State.performWrite (s : State) (q : Req) (pa : Nat) (data : List Byte) : State :=
  let s1 := (s.putLine q.who q.cached pa data).tellWrite q pa data
  if q.cached && s.cacheable pa then s1.touchLine q.who pa q.res q.cls true else s1

/-- The propagation hold keeps a write: it is performed in the cluster only (R385). -/
def State.holdWrite (s : State) (q : Req) (pa : Nat) (data : List Byte) : State :=
  let n := q.who.coreNo.getD 0
  let cm := s.fld 0x030001710000 43 40
  let h : HeldWrite :=
    { cluster := clusterOf n, core := n, pa := s.norm pa, data := data, at_ := s.now, ctx := s.ctxOf q.who, cls := q.cls, no := s.stamp,
      chosen := s.fld 0x030001710000 38 32 == clusterOf n && bit cm (n % 4) }
  let s := if q.who.isCc then s else s.breakResv (s.norm pa / 64) none
  let s : State := { s.dropCover true (s.norm pa) data.length with heldW := s.heldW ++ [h] }
  ({ s with stamp := s.stamp + 1 } : State).touchCc (clusterOf n) (s.norm pa) (s.ctxOf q.who) q.res q.cls true

/-- A way of the hub array that is written as scratchpad is not CLEAN (R117). -/
def State.noteWay (s : State) (pa : Nat) : State :=
  match s.loc pa with
  | .hub o => { s with dirtyWays := Table.put false s.dirtyWays (wayPart (bits o 29 26) (bits o 12 7 / 16)) true }
  | _ => s

/-- Write a run that lies in one 64-byte line, outside MMIO: into a scratchpad, into the propagation hold, or at its home.
A partial write first verifies the line it merges into (R106, R109). -/
def writeSeg (q : Req) (pa : Nat) (data : List Byte) : M Unit := do
  let s ← get
  homeCheck q pa
  match s.loc pa with
  | .sp n off => spWrite q.who n off data
  | _ => do
    if s.downWrite (s.ctxOf q.who) pa = some 1 then flt 7 1 0 pa
    if data.length < 64 then mergeFit q pa
    modify fun s => s.noteWay pa
    if s.holdTakes q pa then modify fun s => s.holdWrite q pa data
    else if s.heldW.any fun h => h.pa / 64 == s.norm pa / 64 then throw .stall
    else modify fun s => s.performWrite q pa data

/-- Read a run of any length, line by line; in a scratchpad bank line by bank line (R135). -/
def readRun (q : Req) (pa len : Nat) : M (List Byte) := do
  let s ← get
  let step := match s.loc pa with
    | .sp _ _ => 128
    | _ => 64
  let segs := pieces (len + 1) step pa (List.replicate len 0)
  let parts ← segs.mapM fun p => readSeg q p.1 p.2.length
  pure parts.flatten

/-- Write a run of any length; in a scratchpad bank line by bank line, so that both halves of a line go in one access
(R138). -/
def writeRun (q : Req) (pa : Nat) (data : List Byte) : M Unit := do
  let s ← get
  match s.loc pa with
  | .sp _ _ => (pieces (data.length + 1) 1024 pa data).forM fun p => writeSeg q p.1 p.2
  | _ => (pieces (data.length + 1) 64 pa data).forM fun p => writeSeg q p.1 p.2

/-- A little-endian 64-bit read and write at a physical address. -/
def read64 (q : Req) (pa : Nat) : M Nat := do pure (leNat (← readRun q pa 8))

def write64 (q : Req) (pa v : Nat) : M Unit := writeRun q pa (leBytes 8 v)

/-- The hub's own access, with a context (R113). -/
def hubReq (ctx : Nat) : Req := { who := .hub ctx, cls := 3 }

end Sys2Proof.Machine
end

