-- ==== Sys2Proof/Machine/Trans.lean ====
section
/-! DEFINITION. Translation: Sv48 with Svnapot and Svpbmt (R48), effective homes (R102), the home directory (R103), the
three levels of TLB (R357), walks (R358) and invalidation (R359). -/
namespace Sys2Proof.Machine

/-- The home codes of R102. -/
def homeCached : Nat := 0
def homeHubpin : Nat := 1
def homeCorepin : Nat := 2
def homeUncached : Nat := 3

/-- The home an access has without translation: what its address admits (log 10). -/
def State.bareHome (s : State) (pa : Nat) : Nat :=
  match s.loc pa with
  | .hub _ => homeHubpin
  | .sp _ _ => homeCorepin
  | .mmio _ => homeUncached
  | _ => homeCached

/-- Is the physical address legal for an effective home (R102)? -/
def State.homeLegal (s : State) (home pa : Nat) : Bool :=
  match s.loc pa with
  | .mmio _ => home == homeUncached
  | .hub _ => home == homeHubpin || home == homeUncached
  | .sp _ _ => home == homeCorepin || home == homeUncached
  | .bad => true
  | _ => home == homeCached || home == homeUncached

/-! ### The home directory (R103) -/

def HomeRec.overlaps (r : HomeRec) (pbase size : Nat) : Bool :=
  decide (r.pbase < pbase + size ∧ pbase < r.pbase + r.size)

/-- The home of a live record that covers part of a range and differs from the home requested. -/
def State.homeClash (s : State) (pbase size home : Nat) : Option Nat :=
  (s.homes.find? fun r => r.overlaps pbase size && r.home != home).map (·.home)

/-- A fill counts itself in the record of its range, or makes one. -/
def State.homeAdd (s : State) (pbase size home : Nat) : State :=
  if s.homes.any fun r => r.pbase == pbase && r.size == size then
    { s with homes := s.homes.map fun r =>
        if r.pbase == pbase && r.size == size then { r with count := r.count + 1 } else r }
  else { s with homes := s.homes ++ [{ pbase := pbase, size := size, home := home, count := 1 }] }

/-- An entry that dies leaves its record; a record no entry holds is removed. -/
def State.homeDrop (s : State) (e : TlbEntry) : State :=
  { s with homes := (s.homes.map fun r =>
      if r.pbase == e.pbase && r.size == e.size then { r with count := r.count - 1 } else r).filter fun r => r.count != 0 }

/-! ### TLB entries -/

def TlbEntry.hits (e : TlbEntry) (ctx asid va : Nat) : Bool :=
  e.ctx == ctx && (e.global || e.asid == asid) && decide (e.vbase ≤ va ∧ va < e.vbase + e.size)

def tlbFind (l : List TlbEntry) (ctx asid va : Nat) : Option TlbEntry := l.find? fun e => e.hits ctx asid va

/-- Put an entry in front of a TLB of `cap` entries; an entry pushed out is evicted (which one the spec leaves open: the
oldest, log 11). -/
def tlbPut (cap : Nat) (l : List TlbEntry) (e : TlbEntry) : List TlbEntry × List TlbEntry :=
  let l' := e :: l
  (l'.take cap, l'.drop cap)

/-- Which TLB an access uses: a control core's, or the engine TLB of a core. -/
inductive TlbAt where
  | cc (n : Nat)
  | eng (n : Nat)
  deriving DecidableEq, Repr

def TlbAt.coreNo : TlbAt → Nat
  | .cc n => n
  | .eng n => n

def State.tlb (s : State) : TlbAt → List TlbEntry
  | .cc n => (s.core n).hart.tlb
  | .eng n => (s.core n).etlb

def State.setTlb (s : State) (t : TlbAt) (l : List TlbEntry) : State :=
  match t with
  | .cc n => s.modCore n fun c => { c with hart := { c.hart with tlb := l } }
  | .eng n => s.modCore n fun c => { c with etlb := l }

def TlbAt.cap : TlbAt → Nat
  | .cc _ => 64
  | .eng _ => 512

/-- An entry enters the TLB of an access: the directory counts it, and what it pushes out leaves the directory. -/
def State.fillTlb (s : State) (t : TlbAt) (e : TlbEntry) : State :=
  let r := tlbPut t.cap (s.tlb t) e
  r.2.foldl State.homeDrop ((s.setTlb t r.1).homeAdd e.pbase e.size e.home)

def State.fillDie (s : State) (d : Nat) (e : TlbEntry) : State :=
  let r := tlbPut 8192 (Table.get [] s.dieTlb d) e
  r.2.foldl State.homeDrop
    ({ s with dieTlb := Table.put [] s.dieTlb d r.1 }.homeAdd e.pbase e.size e.home)

/-! ### Walks (R358) -/

/-- Page sizes by level: 4 KiB, 2 MiB, 1 GiB, 512 GiB. -/
def pageSize (lvl : Nat) : Nat := 4096 * 512 ^ lvl

/-- The leaf a PTE makes at a level, or a page fault, or no such address (R96), or PBMT 3 (R102). -/
def leafOf (ctx asid va lvl pte : Nat) (glob : Bool) : M TlbEntry := do
  let ppn := bits pte 53 10
  let napot := bit pte 63
  let pbmt := bits pte 62 61
  if pbmt = 3 then flt 3 1
  if napot ∧ (lvl ≠ 0 ∨ ppn % 16 ≠ 8) then flt 3 1
  if lvl ≠ 0 ∧ ppn % 512 ^ lvl ≠ 0 then flt 3 1
  if bit pte 6 = false then flt 3 1
  if ppn ≥ 2 ^ 40 then flt 3 2
  let size := if napot then 65536 else pageSize lvl
  let ppn' := if napot then ppn / 16 * 16 else ppn
  pure { ctx := ctx, asid := asid, global := glob || bit pte 5, vbase := va / size * size, size := size,
         pbase := ppn' * 4096, r := bit pte 1, w := bit pte 2, x := bit pte 3, user := bit pte 4, dirty := bit pte 7,
         home := if pbmt = 0 then bits pte 9 8 else homeUncached }

/-- The walk from a level down: PTEs are read at pkg scope with their checks verified. -/
def walkFrom (ctx asid va : Nat) : Nat → Nat → Bool → M TlbEntry
  | 0, _, _ => flt 3 1
  | lvl + 1, table, glob => do
    let pa := table * 4096 + 8 * ((va / pageSize lvl) % 512)
    let pte ← read64 (hubReq ctx) pa
    if bit pte 0 = false ∨ (bit pte 2 = true ∧ bit pte 1 = false) ∨ bits pte 60 54 ≠ 0 then flt 3 1
    if bit pte 1 ∨ bit pte 3 then leafOf ctx asid va lvl pte glob
    else
      if bit pte 4 ∨ bit pte 6 ∨ bit pte 7 ∨ bits pte 63 61 ≠ 0 then flt 3 1
      if bits pte 53 10 ≥ 2 ^ 40 then flt 3 2
      walkFrom ctx asid va lvl (bits pte 53 10) (glob || bit pte 5)

/-- A virtual address of Sv48 is canonical when bits 63:47 are all alike. -/
def canonical (va : Nat) : Bool := bits va 63 47 == 0 || bits va 63 47 == 2 ^ 17 - 1

/-- The attribute-conflict fault (R102, R103): home of the live record, home requested. -/
def attrFault {α : Type} (live want : Nat) : M α := flt 4 0 live want

/-- What an access resolves to: a physical address and its effective home. -/
structure Phys where
  pa : Nat
  home : Nat
  va : Nat := 0
  deriving DecidableEq, Repr

/-- The effective home must be legal for the address (R102). With no conflicting record, the live home that the fault names is the one
the address admits (log 74). -/
def checkHome (pa home : Nat) : M Phys := do
  let s ← get
  match s.loc pa with
  | .bad => flt 3 2
  | _ => if s.homeLegal home pa then pure { pa := pa, home := home } else attrFault (s.bareHome pa) home

/-- The live home of a granule against the home of a translation (R103): the attribute-conflict fault where they differ. -/
def oneHome (e : TlbEntry) : M Unit := do
  let s ← get
  match s.homeClash e.pbase e.size e.home with
  | some h => attrFault h e.home
  | none => pure ()

/-- The leaf of a virtual address for an access of a kind, with its range under the local name (R95). A leaf with D = 0 is a page
fault for a write (R358). -/
def walkLeaf (ctx : Nat) (satp : W64) (va : Nat) (k : AccKind) : M TlbEntry := do
  let e ← walkFrom ctx (bits satp.toNat 59 44) (va % 2 ^ 48) 4 (bits satp.toNat 43 0) false
  if k = .store ∧ e.dirty = false then flt 3 1
  let s ← get
  pure { e with pbase := s.norm e.pbase }

/-- The physical address at which an entry places a virtual address. -/
def TlbEntry.at (e : TlbEntry) (va : Nat) : Nat := e.pbase + (va % 2 ^ 48 - e.vbase)

/-- A walk that makes its fill (R358, R103): every level takes the entry, once the home directory allows it. A walk whose home is
illegal for its address, or whose address names nothing, makes no fill (log 89). -/
def walkFill (t : TlbAt) (ctx : Nat) (satp : W64) (va : Nat) (k : AccKind) : M TlbEntry := do
  let e ← walkLeaf ctx satp va k
  let _ ← checkHome (e.at va) e.home
  oneHome e
  modify fun s => s.fillDie (dieOf t.coreNo) e
  modify fun s => s.fillTlb t e
  pure e

/-- Find a translation: the TLB of the access, the die TLB, else a walk. -/
def lookup (t : TlbAt) (ctx : Nat) (satp : W64) (va : Nat) (k : AccKind) : M TlbEntry := do
  let s ← get
  let asid := bits satp.toNat 59 44
  match tlbFind (s.tlb t) ctx asid (va % 2 ^ 48) with
  | some e => pure e
  | none =>
    match tlbFind (Table.get [] s.dieTlb (dieOf t.coreNo)) ctx asid (va % 2 ^ 48) with
    | some e => do
      modify fun s => s.fillTlb t e
      pure e
    | none => walkFill t ctx satp va k

/-- Who an access is made as, for the permission bits of a leaf. -/
structure Perm where
  user : Bool
  anyPage : Bool := false
  sum : Bool := false
  mxr : Bool := false
  deriving DecidableEq, Repr

/-- The permission bits of a leaf against an access. -/
def TlbEntry.allows (e : TlbEntry) (p : Perm) (k : AccKind) : Bool :=
  (p.anyPage || (if p.user then e.user else (!e.user || (p.sum && k != .fetch)))) &&
  (match k with
   | .fetch => e.x
   | .load => e.r || (p.mxr && e.x)
   | .store => e.w && e.dirty)

/-- Translate a virtual address under a `satp` (R102, R357): Bare gives the address itself; an address above 52 bits is a
reserved region (R96). -/
def translate (t : TlbAt) (ctx : Nat) (satp : W64) (p : Perm) (k : AccKind) (va : Nat) : M Phys := do
  if bits satp.toNat 63 60 = 9 then
    if canonical va = false then flt 3 1
    let e ← lookup t ctx satp va k
    if e.allows p k then
      let ph ← checkHome (e.at va) e.home
      pure { ph with va := va }
    else flt 3 1
  else
    if va ≥ 2 ^ 52 then flt 3 2
    let s ← get
    checkHome va (s.bareHome va)

/-- Translate for a hart: M-mode is not translated, unless MPRV lends it the mode of MPP for loads and stores; a lane
service core and the management core are Bare (R388, R395). -/
def translateHart (a : Agent) (k : AccKind) (va : Nat) : M Phys := do
  let s ← get
  let h := s.hart a
  let mst := (h.csrRaw mstatusN).toNat
  let p := if h.priv = .m ∧ bit mst 17 ∧ k ≠ .fetch then Priv.ofNum (bits mst 12 11) else h.priv
  match a with
  | .core n =>
    if p = .m then
      if va ≥ 2 ^ 52 then flt 3 2
      checkHome va (s.bareHome va)
    else
      translate (.cc n) (s.recCtx n).1 (h.csrRaw 0x180)
        { user := p == .u, sum := bit mst 18, mxr := bit mst 19 } k va
  | _ =>
    if va ≥ 2 ^ 52 then flt 3 2
    checkHome va (s.bareHome va)

/-- Translate an address of an engine command (R57, R357) under the `satp` and context of its slot's release; a ring owned
by U-mode reaches U pages only (log 12). -/
def translateEng (n : Nat) (o : Origin) (owner : Bool) (k : AccKind) (va : Nat) : M Phys :=
  translate (.eng n) o.ctx o.satp { user := true, anyPage := owner } k va

/-! ### Invalidation (R359) -/

/-- Which entries an invalidation removes: mode 0 one page, 1 one ASID, 2 one context, 3 all. -/
def TlbInv.matches (i : TlbInv) (e : TlbEntry) : Bool :=
  if i.mode = 3 then true
  else if i.mode = 2 then e.ctx == i.ctx
  else if i.mode = 1 then e.ctx == i.ctx && e.asid == i.asid
  else e.ctx == i.ctx && (e.global || e.asid == i.asid) &&
    decide (e.vbase ≤ i.vpn * 4096 ∧ i.vpn * 4096 < e.vbase + e.size)

/-- Remove the entries of one TLB that a test picks, and take them out of the home directory. -/
def State.dropFrom (s : State) (t : TlbAt) (p : TlbEntry → Bool) : State :=
  let l := s.tlb t
  (l.filter p).foldl State.homeDrop (s.setTlb t (l.filter fun e => !p e))

def State.dropFromDie (s : State) (d : Nat) (p : TlbEntry → Bool) : State :=
  let l := Table.get [] s.dieTlb d
  (l.filter p).foldl State.homeDrop { s with dieTlb := Table.put [] s.dieTlb d (l.filter fun e => !p e) }

/-- Remove the entries a test picks at every level of the package. -/
def State.dropEverywhere (s : State) (p : TlbEntry → Bool) : State :=
  let s := s.cores.foldl (fun t e => (t.dropFrom (.cc e.1) p).dropFrom (.eng e.1) p) s
  (List.range 12).foldl (fun t d => t.dropFromDie d p) s

end Sys2Proof.Machine
end

