-- ==== Sys2Proof/Machine/Csr.lean ====
section
/-! DEFINITION. The control and status registers: the standard ones that R48 implies and the Shefel ones of R310, R72, R88,
R160, R341 and R348, with their access rules. -/
namespace Sys2Proof.Machine

/-- The writable bits of `mstatus` on a control core: SIE, MIE, SPIE, MPIE, SPP, MPP, MPRV, SUM, MXR, TVM, TW, TSR. -/
def mstatusMask : Nat := 0x2 + 0x8 + 0x20 + 0x80 + 0x100 + 0x1800 + 0x20000 + 0x40000 + 0x80000 + 0x100000 + 0x200000 + 0x400000

/-- The bits of `mstatus` that `sstatus` shows: SIE, SPIE, SPP, SUM, MXR. -/
def sstatusMask : Nat := 0x2 + 0x20 + 0x100 + 0x40000 + 0x80000

/-- Exceptions that may be delegated: the standard ones, and bits 24 to 28 (R347). -/
def medelegMask : Nat := 0xB3FF + 0x1F000000

/-- Interrupts that may be delegated: the S-mode ones and the local interrupts 16 to 18 (R350). -/
def midelegMask : Nat := 0x222 + 0x70000

def mieMask : Nat := 0xAAA + 0x70000

/-- Pending interrupts of a hart: those its `mip` holds, and on the management core thermal alert and mailbox (R395). -/
def State.mip (s : State) (a : Agent) : Nat :=
  match a with
  | .mgmt => (b2n (s.reg 0x030001720300 != 0) <<< 16) + (b2n (s.mbox != []) <<< 17)
  | _ => ((s.hart a).csrRaw 0x344).toNat

/-- The CSRs of a machine with M-mode only (the management and lane service cores). -/
def csrMOnly (num : Nat) : Bool :=
  [0x300, 0x301, 0x304, 0x305, 0x320, 0x340, 0x341, 0x342, 0x343, 0x344, 0xB00, 0xB02, 0xC00, 0xC01, 0xC02,
   0xF11, 0xF12, 0xF13, 0xF14].contains num ||
  decide (0xC03 ≤ num ∧ num ≤ 0xC1F) || decide (0xB03 ≤ num ∧ num ≤ 0xB1F) || decide (0x323 ≤ num ∧ num ≤ 0x33F)

/-- The further CSRs of a control core (R310, R341, R348 and the standard's S-mode set). -/
def csrCoreOnly (num : Nat) : Bool :=
  [0x100, 0x104, 0x105, 0x106, 0x140, 0x141, 0x142, 0x143, 0x144, 0x180, 0x302, 0x303, 0x306,
   0x800, 0x801, 0x830, 0xCC0, 0xCC1, 0x5C0, 0x5C1, 0x5C2, 0x5C3, 0x5C4].contains num ||
  decide (0x810 ≤ num ∧ num ≤ 0x82F) || decide (0x840 ≤ num ∧ num ≤ 0x85F) || decide (0x860 ≤ num ∧ num ≤ 0x867)

/-- Which CSRs a hart has: the numbers of R310, R341 and R348, and those of the privileged standard that R48 implies. R48 names no
version of the standard; the model has the registers that every version has, and `menvcfg`, `senvcfg` and `mconfigptr` do not exist
(PRESUMED, log 20). -/
def csrExists (a : Agent) (num : Nat) : Bool := csrMOnly num || (a.isCore && csrCoreOnly num)

/-- May a hart touch a CSR at all: it exists, and the mode is high enough (R310 and the standard's numbering). -/
def Hart.csrAllowed (h : Hart) (num : Nat) : Bool := decide (bits num 9 8 ≤ h.priv.num)

/-- The gates of `mcounteren`, `scounteren` and TVM. -/
def Hart.csrGate (h : Hart) (num : Nat) : Bool :=
  if 0xC00 ≤ num ∧ num ≤ 0xC1F ∧ h.priv ≠ .m then
    h.csrBit 0x306 (num % 32) && (h.priv != .u || h.csrBit 0x106 (num % 32))
  else if num = 0x180 then !(h.priv == .s && h.csrBit mstatusN 20)
  else true

/-- `coreid` (R310). -/
def State.coreid (s : State) (n : Nat) : Nat :=
  n + (dieOf n <<< 16) + (b2n (!isP n) <<< 24) + ((s.recCtx n).1 <<< 32)

/-- `gctx` (R341): counter base and node of the held task; 0 without one. -/
def State.gctx (s : State) (n : Nat) : Nat :=
  match (s.core n).task with
  | some t =>
    let cb := ((s.insts.find? fun g => g.id == t.inst).map (·.cbase)).getD 0
    cb + t.node * 65536
  | none => 0

/-- `susp` (R310). -/
def Core.suspReg (c : Core) : Nat := b2n c.suspended + 2 * b2n (c.task.isSome && !c.suspended)

/-- What a CSR reads as. -/
def State.csrValue (s : State) (a : Agent) (num : Nat) : W64 :=
  let h := s.hart a
  let n := match a with
    | .core n => n
    | _ => 0
  if num = 0xC00 ∨ num = 0xB00 then BitVec.ofNat 64 s.now
  else if num = 0xC01 then BitVec.ofNat 64 (s.datumOf a)
  else if num = 0xC02 ∨ num = 0xB02 then h.csrRaw 0xB02
  else if (0xC03 ≤ num ∧ num ≤ 0xC1F) ∨ (0xB03 ≤ num ∧ num ≤ 0xB1F) ∨ (0x323 ≤ num ∧ num ≤ 0x33F) then 0
  else if num = 0x301 then
    -- misa: I, M, A, C, and on control cores S and U (R48); MXL 2
    BitVec.ofNat 64 (2 * 2 ^ 62 + 0x1105 + (if a.isCore then 0x140000 else 0))
  else if num = 0x300 then h.csrRaw 0x300 ||| (if a.isCore then 0xA00000000#64 else 0x1800#64)
  else if num = 0x100 then (h.csrRaw 0x300 &&& BitVec.ofNat 64 sstatusMask) ||| 0x200000000#64
  else if num = 0x344 then BitVec.ofNat 64 (s.mip a)
  else if num = 0x144 then BitVec.ofNat 64 (s.mip a) &&& h.csrRaw 0x303
  else if num = 0x104 then h.csrRaw 0x304 &&& h.csrRaw 0x303
  else if num = 0xF11 then Config.mvendorid
  else if num = 0xF12 then Config.marchid
  else if num = 0xF13 then Config.mimpid
  else if num = 0xF14 then
    match a with
    | .core n => BitVec.ofNat 64 n
    | .mgmt => 288#64
    | .lane o => BitVec.ofNat 64 (289 + o)
  else if num = 0xCC0 then BitVec.ofNat 64 (s.coreid n)
  else if num = 0xCC1 then BitVec.ofNat 64 (s.gctx n)
  else if num = 0x5C0 then BitVec.ofNat 64 (s.core n).suspReg
  else if num = 0x5C1 then BitVec.ofNat 64 (s.core n).fq.length
  else if num = 0x5C3 then (s.core n).engctl
  else h.csrRaw num

/-- Replace the bits of `old` that `mask` selects by those of `v`. -/
def maskIn (old v : W64) (mask : Nat) : W64 :=
  (old &&& ~~~(BitVec.ofNat 64 mask)) ||| (v &&& BitVec.ofNat 64 mask)

/-- MPP takes only legal modes: a write of the reserved code keeps the old one. -/
def mppFix (old v : W64) : W64 := if bits v.toNat 12 11 = 2 then maskIn v old 0x1800 else v

/-- Lines the live regions would hold in sum, with region `i` as `v` names it (R310). -/
def Hart.liveSum (h : Hart) (i : Nat) (v : W64) : Nat :=
  (List.range 8).foldl (fun acc j => acc + bits (if j = i then v else h.csrRaw (0x860 + j)).toNat 48 32) 0

/-- The bits that the registers of the 0x800 range hold (R72, R88, R160, R310); the others are reserved. -/
def csr800Mask (num : Nat) : Nat :=
  if num = 0x800 then 0x3003F
  else if num = 0x801 then 0xFFFFFFFFFF
  else if 0x810 ≤ num ∧ num ≤ 0x82F then
    if num % 4 = 0 then 2 ^ 64 - 8 else if num % 4 = 1 then 2 ^ 64 - 1 else if num % 4 = 2 then 2 ^ 64 - 4 else 0xFFFFFFFF
  else if num = 0x830 then 0xFFFFFFFF
  else 0x1FFFF007FFFC0

/-- What a write stores in a CSR of a hart that has no behaviour beyond its fields (R3, R4, R72, R88, R160, R310 and the
standard's WARL rules); the value is the whole value written. -/
def Hart.csrStore (h : Hart) (isCore : Bool) (num : Nat) (v : W64) : Hart :=
  let keep := fun (mask : Nat) => h.setCsrRaw num (v &&& BitVec.ofNat 64 mask)
  if num = 0x300 then
    let v := mppFix (h.csrRaw 0x300) v
    if isCore then h.setCsrRaw 0x300 (v &&& BitVec.ofNat 64 mstatusMask)
    else h.setCsrRaw 0x300 ((v &&& 0x88#64) ||| 0x1800#64)
  else if num = 0x100 then h.setCsrRaw 0x300 (maskIn (h.csrRaw 0x300) v sstatusMask)
  else if num = 0x302 then keep medelegMask
  else if num = 0x303 then keep midelegMask
  else if num = 0x304 then keep (if isCore then mieMask else 0x30888)
  else if num = 0x104 then h.setCsrRaw 0x304 (maskIn (h.csrRaw 0x304) v (h.csrRaw 0x303).toNat)
  else if num = 0x344 then if isCore then h.setCsrRaw 0x344 (maskIn (h.csrRaw 0x344) v 0x222) else h
  else if num = 0x144 then h.setCsrRaw 0x344 (maskIn (h.csrRaw 0x344) v (0x2 &&& (h.csrRaw 0x303).toNat))
  else if num = 0x105 ∨ num = 0x305 then
    h.setCsrRaw num ((v &&& ~~~(3#64)) ||| (if v &&& 3#64 = 1#64 then 1#64 else 0#64))
  else if num = 0x141 ∨ num = 0x341 then h.setCsrRaw num (v &&& ~~~(1#64))
  else if num = 0x180 then
    if bits v.toNat 63 60 = 0 ∨ bits v.toNat 63 60 = 9 then h.setCsrRaw num v else h
  else if num = 0x106 ∨ num = 0x306 then keep 0xFFFFFFFF
  else if num = 0x320 then keep 0x4
  else if num = 0xB02 then h.setCsrRaw num v
  else if num = 0x140 ∨ num = 0x142 ∨ num = 0x143 ∨ num = 0x340 ∨ num = 0x342 ∨ num = 0x343 then h.setCsrRaw num v
  else if num = 0x800 then
    -- numst: W1C flags, RW enables (R72)
    h.setCsrRaw num ((h.csrRaw num &&& ~~~v &&& 0x3F#64) ||| (v &&& 0x30000#64))
  else if num = 0x801 then
    if h.priv = .u ∧ v &&& 0xFFFFFFFFFF#64 = 0#64 then h else keep (csr800Mask num)
  else if 0x810 ≤ num ∧ num ≤ 0x82F then keep (csr800Mask num)
  else if num = 0x830 then h.setCsrRaw num (h.csrRaw num &&& ~~~v &&& 0xFFFFFFFF#64)
  else if 0x840 ≤ num ∧ num ≤ 0x85F then keep (csr800Mask num)
  else if 0x860 ≤ num ∧ num ≤ 0x867 then
    if h.liveSum (num - 0x860) v > 32768 then h else keep (csr800Mask num)
  else h

/-- The checks before a CSR access (R310; the standard's numbering): the register exists, the mode may touch it, a write
is not to a read-only number. -/
def csrCheck (a : Agent) (num : Nat) (writes : Bool) : M Unit := do
  let s ← get
  let h := s.hart a
  if csrExists a num = false ∨ h.csrAllowed num = false ∨ h.csrGate num = false ∨
      (writes = true ∧ bits num 11 10 = 3) then illegal

end Sys2Proof.Machine
end

