-- ==== Sys2Proof/Machine/Stage.lean ====
section
/-! DEFINITION. The store queue of a control core (R313), the commit staging area (R33, R34, R122, R251, R263), its
publication (R36, R111, R264), and releases, acquires and fences (R315 to R318, R322). -/
namespace Sys2Proof.Machine

/-- The predictor class of a requester (R121): a control core, an LD engine's bulk loads, or any other. -/
def Who.cls : Who → Nat
  | .cc _ => 0
  | .eng _ .ld => 1
  | _ => 3

/-- The home an access resolved to, as a request sees it. -/
def reqOf (w : Who) (home res : Nat) : Req := { who := w, cached := home == homeCached, res := res, cls := w.cls }

/-! ### What releases cover (R316, R322) -/

/-- Is a held write covered by a release of core `n`: its own, and one of its cluster that it observed (R316, R322)? -/
def State.covers (s : State) (n : Nat) (h : HeldWrite) : Bool :=
  h.core == n || (h.cluster == clusterOf n && (s.core n).observed.contains (h.pa / 64))

def State.coveredHeld (s : State) (n : Nat) : Bool := s.heldW.any (s.covers n)

/-- Is an old copy older than a write that a release of core `n` covers: one of its own, or one it observed (R316)? A line
counts as a whole, and a write of the core's engines as acquired (log 13). -/
def State.coversCopy (s : State) (n : Nat) (c : StaleCopy) : Bool :=
  c.writers.contains n || (s.core n).observed.contains c.line

/-- The lines with a write that a release of core `n` covers and some observer does not see yet. -/
def State.coveredLines (s : State) (n : Nat) : List Nat :=
  ((s.heldW.filter (s.covers n)).map (fun (h : HeldWrite) => h.pa / 64) ++
    (s.stale.filter (s.coversCopy n)).map fun (c : StaleCopy) => c.line).eraseDups

/-- A release of core `n` at a scope wrote the word at `pa` (R317), where it may be held yet; one with nothing to record leaves no
trace. -/
def State.noteRelease (s : State) (n : Nat) (sc : Scope) (pa : Nat) (lines : List Nat) : State :=
  if lines = [] then s
  else { s with relCov := s.relCov ++ [{ core := n, scope := sc, word := pa / 8, lines := lines, held := s.heldNo (some n) pa }] }

/-- The releases whose value a reader finds in the word at an address (R317). -/
def State.releasesRead (s : State) (core : Option Nat) (pa : Nat) : List RelCover := s.relCov.filter (s.readsRelease core pa)

/-- The chain of a release goes on through an atomic that read it (R317): what the atomic wrote at `pa` stands for each of the
releases `rs` that it read. -/
def State.chain (s : State) (core : Option Nat) (pa : Nat) (rs : List RelCover) : State :=
  { s with relCov := s.relCov ++ rs.map fun r => { r with past := false, held := s.heldNo core (s.norm pa) } }

/-! ### The store queue (R313) -/

/-- May entry `i` leave the queue: no older entry of its 64-byte line, and for an UNCACHED one none of its 4 KiB page
that is UNCACHED? -/
def Core.sqReady (c : Core) (i : Nat) : Bool :=
  match c.sq[i]? with
  | none => false
  | some e => (c.sq.take i).all fun o => o.pa / 64 != e.pa / 64 && !(o.uncached && e.uncached && o.pa / 4096 == e.pa / 4096)

/-- Entry `i` leaves the queue and is performed. One whose home cannot answer waits until it does; a fence (R274) or any other fault
that a store meets after it has retired is reported, and nothing is written (log 90). -/
def drainEntry (n i : Nat) : M Unit := do
  let s ← get
  let c := s.core n
  match c.sq[i]? with
  | none => throw .stall
  | some e =>
    if c.sqReady i = false then throw .stall
    tryCatch (writeRun { reqOf (.cc n) (if e.uncached then homeUncached else homeCached) 0 with wide := e.wide } e.pa e.data)
      fun e => match e with
        | .flt f => if f.cause = 7 ∧ f.detail ≠ 8 then throw .stall else modify fun s => s.hubReport f
        | _ => throw .stall
    modify fun s => (s.modCore n fun c => { c with sq := c.sq.eraseIdx i }).noteRelease n e.covScope e.pa e.cov

/-- The stores of the queue that a test picks are performed, oldest first. -/
def drainWhere (n : Nat) (p : SqEntry → Bool) : Nat → M Unit
  | 0 => pure ()
  | k + 1 => do
    let s ← get
    match (s.core n).sq.findIdx? p with
    | none => pure ()
    | some i => do
      drainEntry n i
      drainWhere n p k

/-- The stores of the queue to a line, and those to its page that are UNCACHED, are performed (R313). -/
def drainLine (n pa : Nat) : M Unit := do
  let s ← get
  drainWhere n (fun e => e.pa / 64 == pa / 64 || (e.uncached && e.pa / 4096 == pa / 4096)) (s.core n).sq.length

/-- Every store of the queue is performed, oldest first. -/
def drainAll (n : Nat) : M Unit := do
  let s ← get
  (s.core n).sq.forM fun _ => drainEntry n 0

/-! ### Releases, acquires and fences -/

/-- Does core `c`'s scope of a kind hold core `d` (R311)? -/
def scopeHolds (sc : Scope) (c d : Nat) : Bool :=
  match sc with
  | .core => c == d
  | .cluster => clusterOf c == clusterOf d
  | .die => dieOf c == dieOf d
  | .pkg | .sys => true

/-- Every write that a release of core `n` covers is performed at package scope: the dies that still read an older copy
take their invalidations (R318). A die never reads a copy older than a write of its own, or than one that a core of it
observed, so at a narrower scope there is nothing to take. -/
def State.takeCovered (s : State) (n : Nat) (sc : Scope) : State :=
  if 3 ≤ sc.num then s.takeInval (s.coversCopy n) else s

/-- The writes of a writer outside the cores are performed at package scope. -/
def State.takeWrites (s : State) (w : Who) : State := s.takeInval fun c => c.writers.contains w.writer

/-- Does the swap engine hold a write of core `n` (R125)? No other core sees it before the remap. -/
def State.swapHolds (s : State) (n : Nat) : Bool :=
  match s.swap with
  | some j => j.held.any fun h => h.core == some n
  | none => false

/-- A release by control core `n` at a scope (R316): its stores leave the queue; held writes it covers are waited for, at the
swap engine (R125), or by PHOLD at die scope and above (R322); and the dies take the invalidations of what it covers. -/
def releaseAt (n : Nat) (sc : Scope) : M Unit := do
  drainAll n
  let s ← get
  if 1 ≤ sc.num ∧ s.swapHolds n then throw .stall
  if 2 ≤ sc.num ∧ s.coveredHeld n then throw .stall
  modify fun s => s.takeCovered n sc

/-- A stream event acts as a release at package scope (R321): the writes before it of the core that causes it, or of another writer, are
performed there; it waits for those that the swap engine or PHOLD holds (R125, R322). -/
def eventRelease (w : Who) : M Unit := do
  match w.coreNo with
  | some n => do
    let s ← get
    if s.swapHolds n || s.coveredHeld n then throw .stall
    modify fun s => s.takeCovered n .pkg
  | none => modify fun s => s.takeWrites w

/-- The releases with which an acquire of core `n` at a scope that reads the word at `pa` synchronises (R317): it reads what they
wrote, or what a chain of atomics made of it, and each of the two scopes holds the other core. -/
def State.syncWith (s : State) (n : Nat) (sc : Scope) (pa : Nat) : List RelCover :=
  (s.releasesRead (some n) pa).filter fun r => scopeHolds r.scope r.core n && scopeHolds sc n r.core

/-- An acquire of core `n` beyond the cluster waits for a held write of its cluster to the line that it reads (R322). Held writes that
a release it synchronises with covered do not hold it back: R387 requires the observer on core 2 to go on under a hold that only
it ends. -/
def State.heldBack (s : State) (n pa : Nat) (sc : Scope) : Bool :=
  decide (2 ≤ sc.num) && s.heldW.any fun h => h.pa / 64 == s.norm pa / 64 && h.cluster == clusterOf n

/-- An acquire by core `n` at a scope reads the word at `pa` (R317): the writes that the releases it synchronises with covered and
some observer does not see yet are covered by the core's own later releases (log 14). -/
def State.acquireAt (s : State) (n : Nat) (sc : Scope) (pa : Nat) : State :=
  let rs := s.syncWith n sc pa
  if rs = [] then s
  else s.modCore n fun c => { c with observed := (rs.flatMap (·.lines) ++ c.observed).eraseDups }

/-! ### Staging (R33, R122, R263) -/

/-- Does core `n` stage its effects: it runs a task that is not pinned (R33, R38)? -/
def Core.stages (c : Core) : Bool :=
  match c.task with
  | some t => !t.pinned && !c.suspended
  | none => false

/-- Lines of the staging area in use (R33): lines, counters, launches. -/
def Staging.used (g : Staging) : Nat := g.lines.length + g.decs.length + g.launches.length

def Staging.has (g : Staging) (line : Nat) : Bool := (Table.get none g.lines line).isSome

/-- The lines of a run of bytes. -/
def linesOf (pa len : Nat) : List Nat := span (pa / 64) ((pa % 64 + len + 63) / 64)

/-- Does the area hold this already? -/
def Staging.holds (g : Staging) : Room → Bool
  | .line l => g.has l
  | .counter k => Table.get 0 g.decs k != 0
  | .page _ | .launch => false

/-- What commands in flight have reserved (R251). -/
def Core.reserved (c : Core) : List Room := (c.rings.flatMap fun r => r.2.flight).flatMap fun f => f.resv.getD []

/-- What of a need the staging area does not hold yet, each line and each counter counted once (R33). -/
def Staging.lacks (g : Staging) (l : List Room) : Nat := (l.filter fun r => !g.holds r).eraseDups.length

/-- How much the staging area of a core would hold with a need and what commands in flight have reserved (R33, R251). -/
def Core.roomWith (c : Core) (l : List Room) : Nat := c.staging.used + c.staging.lacks (l ++ c.reserved)

/-- Room for more beside what the area holds and what is reserved (R33, R251); else the staging-overflow fault with the lines
needed. -/
def needRoom (n : Nat) (l : List Room) : M Unit := do
  let s ← get
  if (s.core n).roomWith l > 65536 then flt 14 0 ((s.core n).staging.lacks l)

/-- The address of line `i` of the spill area of core `n` (R122). -/
def State.spillLine (s : State) (n i : Nat) : Nat := s.fld 0x030000202000 47 22 * 2 ^ 22 + n * 2 ^ 22 + 64 * i

/-- A free line of the spill area of core `n`: the lowest (log 66). -/
def State.spillFree (s : State) (n : Nat) : Nat :=
  let used := (s.core n).staging.lines.filterMap fun e => e.2.bind (·.spill)
  s.spillLine n (((List.range (used.length + 1)).find? fun i => !used.contains (s.spillLine n i)).getD 0)

/-- A staged line comes to lie at a line of the spill area. -/
def Staging.spillTo (g : Staging) (line p : Nat) : Staging :=
  match Table.get none g.lines line with
  | some x => { g with lines := Table.put none g.lines line (some { x with spill := some p }) }
  | none => g

/-- What a spilled line holds stands in the spill area (R122). -/
def State.spillPut (s : State) (n pa : Nat) (data : List Byte) : State :=
  (pieces (data.length + 1) 64 pa data).foldl (fun (t : State) p =>
    match (Table.get none (t.core n).staging.lines (p.1 / 64)).bind (·.spill) with
    | some a => t.storeLine (.hub (t.recCtx n).1) false (a + p.1 % 64) p.2
    | none => t) s

/-- A staged line takes one half of a hub line of its own, the other half empty, or, where R119 gives no way, a line of the
spill area (R122). `cls` is the predictor class of its writer. -/
def State.stageTag (s : State) (n line cls : Nat) : State × Bool :=
  let pa := line * 64
  let ctx := (s.recCtx n).1
  match victim (s.overLimit ctx none) ctx (s.hubCand pa) with
  | some way =>
    let t : CTag := { addr := line / 2, ctx := ctx, sticky := false, staged := some n, half := line % 2,
                      pidx := dbpIdx pa ctx cls, reused := false, lru := s.stamp, dirty := true, dirtyAt := s.stamp }
    (({ s with stamp := s.stamp + 1 } : State).hubAlloc pa way t, false)
  | none => (s, true)

/-- The hub tag of a staged line of an owner. -/
def State.stagedFind (s : State) (owner line : Nat) : Option (Nat × CTag) :=
  (List.range 16).findSome? fun w =>
    let k := hubKey (hubBank (line * 64)) w (hubSet (line * 64))
    match Table.get none s.hubTags k with
    | some t => if t.addr = line / 2 ∧ t.half = line % 2 ∧ t.staged = some owner then some (k, t) else none
    | none => none

/-- A published line becomes an ordinary dirty line of its context (R122): its staged tag in place, or joined with the line's
ordinary tag where there is one; a spilled line is filled as a write. -/
def State.publishTag (s0 : State) (n line ctx : Nat) (sticky : Bool) : State :=
  let s : State := { s0 with stamp := s0.stamp + 1 }.freshCopies none (line * 64)
  match s.stagedFind n line with
  | none => s.touchHub (line * 64) ctx (b2n sticky) 3 true
  | some (k, t) =>
    match s.hubFind (line * 64) with
    | some o =>
      ({ s with hubTags := Table.put none s.hubTags k none } : State).hubHit o.1 o.2 (b2n sticky) true
    | none =>
      let t' : CTag := { t with staged := none, half := 0, sticky := sticky, lru := s.stamp, dirtyAt := s.stamp }
      { s with hubTags := Table.put none s.hubTags k (some t') }

/-- The first staged write of a line verifies its published value and merges into it, a request to its home (R101); one that writes
all of the line (`full`) has nothing to merge and verifies nothing (R106, R109, log 91). Where the home cannot answer the line
holds only what is written (R263). -/
def openLine (n : Nat) (w : Who) (line res va : Nat) (full : Bool) : M Unit := do
  let s ← get
  match Table.get none (s.core n).staging.lines line with
  | some l =>
    if res = 1 then
      modify fun s => s.modCore n fun c =>
        { c with staging := { c.staging with lines := Table.put none c.staging.lines line (some { l with sticky := true }) } }
  | none =>
    let pa := line * 64
    if s.loc pa = .bad then flt 3 2
    let merge := !full && (s.down (s.ctxOf w) pa).isNone
    if merge then
      if s.rtDrain ∧ s.isDram pa then throw .stall
      match s.loc pa with
      | .sp m off => do let _ ← spRead w m off 64
      | _ => foundFit { who := w } pa 7
    let s ← get
    let old : List (Nat × Byte) := if merge then (span pa 64).map fun a => (a, s.homeByte a) else []
    let t := s.stageTag n line w.cls
    let spill := if t.2 then some (s.spillFree n) else none
    match spill with
    | some p =>
      if s.isDram p = false then flt 3 2
      if s.rtDrain then throw .stall
      match s.down (s.ctxOf w) p with
      | some d => flt 7 d 0 p
      | none => pure ()
    | none => pure ()
    set t.1
    modify fun s => s.modCore n fun c =>
      { c with staging := { c.staging with
          bytes := old.foldl (fun b e => Table.put none b e.1 (some e.2)) c.staging.bytes
          lines := Table.put none c.staging.lines line (some { whole := merge || full, sticky := res == 1, spill := spill, va := va }) } }
    modify fun s => s.spillPut n pa (old.map (·.2))

/-- Stage bytes of core `n` (R33, R263) at the address `pa0`, which a translated access names by `va` (0 for a physical one); the
caller has made sure of the room. -/
def stageBytes (n : Nat) (w : Who) (res pa0 va : Nat) (data : List Byte) : M Unit := do
  let s ← get
  let pa := s.norm pa0
  (linesOf pa data.length).forM fun l =>
    openLine n w l res (if va = 0 then 0 else va / 64 * 64 + 64 * (l - pa / 64))
      (decide (pa ≤ 64 * l ∧ 64 * l + 64 ≤ pa + data.length))
  modify fun s => s.modCore n fun c =>
    { c with staging := { c.staging with
        bytes := (data.zipIdx).foldl (fun b e => Table.put none b (pa + e.2) (some e.1)) c.staging.bytes } }
  modify fun s => s.spillPut n pa data

/-- Stage a decrement of a dependence counter: each distinct counter is one line (R33). -/
def stageDec (n ctr : Nat) : M Unit := do
  let s ← get
  let k := Table.get 0 (s.core n).staging.decs ctr
  if k = 0 then needRoom n [.counter ctr]
  modify fun s => s.modCore n fun c => { c with staging := { c.staging with decs := Table.put 0 c.staging.decs ctr (k + 1) } }

/-- The tags of the staged lines of core `n` go. -/
def State.dropStagedTags (s : State) (n : Nat) : State :=
  { s with hubTags := s.hubTags.filter fun e => match e.2 with
      | some t => t.staged != some n
      | none => true }

/-- Discard the staging area of core `n` (R37). -/
def State.discardStaging (s : State) (n : Nat) : State :=
  (s.dropStagedTags n).modCore n fun c => { c with staging := Staging.empty }

/-- What the hub tags of a set that is held for a suspended task carry in place of a core: its SAVE address (R345). -/
def heldKey (save : Nat) : Nat := 288 + save

/-- The staged lines of one owner pass to another. -/
def State.retag (s : State) (a b : Nat) : State :=
  { s with hubTags := s.hubTags.map fun e =>
      (e.1, e.2.map fun t => if t.staged = some a then { t with staged := some b } else t) }

/-- A held set is discarded and freed (R345, R271). -/
def State.dropSet (s : State) (save : Nat) : State :=
  { s.dropStagedTags (heldKey save) with savedSets := Table.put none s.savedSets save none }

/-- The first staged line whose home cannot answer (R111): the detail, its physical and its virtual address. -/
def State.stagedDown (s : State) (w : Who) (g : Staging) : Option (Nat × Nat × Nat) :=
  g.lines.findSome? fun e => (s.downWrite (s.ctxOf w) (e.1 * 64)).map fun d => (d, e.1 * 64, (e.2.map (·.va)).getD 0)

/-- Does a set hold both halves of the bank line of a staged line? -/
def Staging.bothHalves (g : Staging) (line : Nat) : Bool := g.has (line / 2 * 2) && g.has (line / 2 * 2 + 1)

/-- The bytes that a staged line publishes. A spilled line is verified as it is copied (R264); a line that holds only the bytes
written merges now, with the verification of R263; half of a poisoned bank line of a scratchpad is not written (R138). -/
def publishData (w : Who) (g : Staging) (line : Nat) (l : StagedLine) : M (List Byte) := do
  let pa := line * 64
  let s ← get
  match l.spill with
  | some p =>
    match s.down (s.ctxOf w) p with
    | some d => flt 7 d 0 p
    | none => lineFit p 0
  | none => pure ()
  match s.loc pa with
  | .sp m off =>
    if l.whole = false then do let _ ← spRead w m off 64
    else if Table.get false (s.core m).linePois (off / 128) ∧ g.bothHalves line = false then flt 6 0 0 pa
  | _ => if l.whole = false then mergeFit { who := w } pa
  let s ← get
  pure ((span pa 64).map fun a => (s.stagedByte g a).getD (s.homeByte a))

/-- Write one staged line of core `n` at its home, as an ordinary dirty line of its context (R122, R264). Every copy of the line
in a cluster cache goes before the release completes, and with them every die's old copy (R122, R318). -/
def publishLine (n : Nat) (w : Who) (g : Staging) (line : Nat) (l : StagedLine) (data : List Byte) : M Unit := do
  let pa := line * 64
  let s ← get
  match s.loc pa with
  | .sp m off => do
    if g.bothHalves line then healBankLine m off
    spWrite w m off data
  | .hub _ => modify fun s => (s.noteWay pa).storeLine w false pa data
  | _ =>
    modify fun s => (s.storeLine w false pa data).publishTag n line (s.ctxOf w) l.sticky
    modify fun s =>
      let keep := fun (e : Nat × Option CTag) => match e.2 with
        | some t => t.addr != line / 2
        | none => true
      ({ s with ccTags := s.ccTags.filter keep } : State).trimStale

/-- Does a staged line wait: for a held write of it (R322), for the swap of its page (R125), for a new region table (R101)? -/
def State.publishWaits (s : State) (n : Nat) (g : Staging) : Bool :=
  s.coveredHeld n || s.heldW.any (fun h => g.has (h.pa / 64)) ||
  (match s.swap with
   | some j => g.lines.any fun e => e.1 / 1024 == j.src / 65536
   | none => false) ||
  (s.rtDrain && g.lines.any fun e => s.isDram (e.1 * 64))

/-- Publish a staging area: homes first (R111), what its lines wait for, the verification of every line, and then every line, in
one release at pkg scope (R36 step 2). A fault publishes nothing. -/
def publishLines (n : Nat) : M Unit := do
  let s ← get
  let g := (s.core n).staging
  let w : Who := .eng n .st
  match s.stagedDown w g with
  | some (d, pa, va) => throw (.flt { cause := 7, detail := d, aux2 := pa, va := some va })
  | none =>
    if s.publishWaits n g then throw .stall
    let lines := g.lines.filterMap fun e => e.2.map fun l => (e.1, l)
    let datas ← lines.mapM fun (e : Nat × StagedLine) => do pure (e, ← M.at (some e.2.va) none (publishData w g e.1 e.2))
    let s1 ← get
    tryCatch (datas.forM fun (p : (Nat × StagedLine) × List Byte) =>
        M.at (some p.1.2.va) none (publishLine n w g p.1.1 p.1.2 p.2)) fun x => do
      set s1
      throw x
    modify fun s => s.dropStagedTags n
    releaseAt n .pkg

end Sys2Proof.Machine
end

