-- ==== Sys2Proof/Machine/Graph.lean ====
section
/-! DEFINITION. Stream records (R268, R269), dependence counters (R39, R341), releases between nodes (R342), graph faults
and the end of an instance (R336, R342, R343), the reading of a graph (R339, R340) and of launch packets (R334, R336). -/
namespace Sys2Proof.Machine

/-! ### Stream records -/

def State.stream (s : State) (i : Nat) : Stream := Table.get Stream.reset s.streams i

def State.setStream (s : State) (i : Nat) (t : Stream) : State := { s with streams := Table.put Stream.reset s.streams i t }

/-- Owner of a state (R268). -/
def Stream.ownerIn (t : Stream) (st : Nat) : Nat :=
  if 1 ≤ st ∧ st ≤ 4 then t.pdie else if st = 5 then t.ddie else 0x0C

/-- A state change: the owner of the new state, SEQ and TCHG (R282). -/
def State.toState (s : State) (i st : Nat) : State :=
  let t := s.stream i
  s.setStream i { t with state := st, owner := t.ownerIn st, seq := (t.seq + 1) % 65536, tchg := s.hubDatum }

/-- Is a line of the package's DRAM space, or of another's, one of a stream's regions (R269, R274, R286)? -/
def State.inStream (s : State) (t : Stream) (pa : Nat) : Bool :=
  (if pa < 2 ^ 39 then s.pkgId == t.dpkg else decide (2 ^ 51 ≤ pa ∧ pa < 2 ^ 52) && bits pa 50 39 == t.dpkg) && t.coversLine (bits pa 38 0)

/-- A stream of another package whose D side this package is stands in the table of records beyond the 65,536 of its own
Waypoint (R286, R371). -/
def guestKey (pkg i : Nat) : Nat := 65536 * (pkg % 4096 + 1) + i % 65536

/-- The package whose Waypoint holds the stream of a key, where it is another, and the stream's number there. -/
def guestOf (key : Nat) : Option (Nat × Nat) := if key < 65536 then none else some (key / 65536 - 1, key % 65536)

/-- Send a message to the home of a stream, where that is another package. -/
def State.tellHome (s : State) (key : Nat) (m : Nat → FabMsg) : State :=
  match guestOf key with
  | some g => s.send g.1 (m g.2)
  | none => s

/-- LIVE counts a task out (R271), at the stream's own Waypoint (R286). -/
def State.decLive (s : State) : Option Nat → State
  | none => s
  | some i =>
    if 65536 ≤ i then s.tellHome i .taskEnded
    else let t := s.stream i; s.setStream i { t with live := t.live - 1 }

/-- Word `i` of a record (R269). -/
def Stream.word (t : Stream) (i : Nat) : Nat :=
  if i = 0 then t.state % 16 + ((t.owner % 32) <<< 4) + ((t.ctx % 256) <<< 16) + ((t.pdie % 32) <<< 24) + ((t.ddie % 32) <<< 29)
    + ((t.dpkg % 4096) <<< 34)
  else if i = 1 then t.dbase % 2 ^ 52
  else if i = 2 then t.nbmax % 8192 + ((t.nacc % 8192) <<< 16) + ((t.nseal % 8192) <<< 32) + ((t.tc % 4) <<< 48)
    + ((t.dhc % 16) <<< 50)
  else if i = 3 then t.gzbase % 2 ^ 52
  else if i = 4 then t.gzcap % 2 ^ 32 + ((t.gznext % 2 ^ 32) <<< 32)
  else if i = 5 then t.gzlost % 2 ^ 32 + ((t.live % 65536) <<< 32)
  else if i = 6 then t.lasterr % 256 + ((t.erridx % 8192) <<< 16) + ((t.seq % 65536) <<< 32)
  else t.tchg

/-- A nonzero Traverse code is copied into LASTERR and ERRIDX (R277). -/
def State.streamErr (s : State) (i code idx : Nat) : State :=
  if code = 0 then s else let t := s.stream i; s.setStream i { t with lasterr := code, erridx := idx }

/-! ### What a hub unit owes -/

/-- An arrival at a word: the new word and the phase it met, or none for a malformed word. -/
def arriveWord (w : Nat) : Option (Nat × Nat) :=
  let ex := bits w 15 0
  let pe := bits w 31 16
  if ex = 0 ∨ pe = 0 ∨ ex < pe ∨ bits w 63 33 ≠ 0 then none
  else
    let ph := bits w 32 32
    if pe = 1 then some (setBits (setBits w 31 16 ex) 32 32 (1 - ph), ph) else some (setBits w 31 16 (pe - 1), ph)

/-- The result of an AMO of the standard on `w` bits. -/
def atNew {w : Nat} (op : AtOp) (old x : BitVec w) : BitVec w :=
  match op with
  | .swap | .lr | .sc => x
  | .add => old + x
  | .xor => old ^^^ x
  | .and => old &&& x
  | .or => old ||| x
  | .min => if old.slt x then old else x
  | .max => if old.slt x then x else old
  | .minu => if old.ult x then old else x
  | .maxu => if old.ult x then x else old

/-- The result of a scoped atomic (R295). -/
def amoNew (op : AmoOp) (old x cmp : W64) : W64 :=
  match op with
  | .add => old + x
  | .and => old &&& x
  | .or => old ||| x
  | .xor => old ^^^ x
  | .max => if x.toInt < old.toInt then old else x
  | .min => if old.toInt < x.toInt then old else x
  | .swap => x
  | .cas => if old = cmp then x else old

/-- What a read-modify-write leaves for the value it met; none where it writes nothing, at a malformed barrier word. -/
def rmwNew (r : Rmw) (o : Nat) : Option Nat :=
  match r with
  | .std op dbl x =>
    some (if dbl then (atNew op (BitVec.ofNat 64 o) x).toNat else (atNew op (BitVec.ofNat 32 o) (BitVec.ofNat 32 x.toNat)).toNat)
  | .scoped op x cmp => some (amoNew op (BitVec.ofNat 64 o) x cmp).toNat
  | .arrive => (arriveWord o).map (·.1)

/-- Is an access a release of the writes before it: a status word (R336), the end of a collective (R372), an arrival from the fabric
(R370)? -/
def Owed.releases : Owed → Bool
  | .word _ _ _ | .collective _ _ _ | .arrive _ => true
  | .put _ _ _ | .answer _ _ | .bell _ => false

/-- Perform a read-modify-write as the hub: the value it met. -/
def hubRmw (pa : Nat) (r : Rmw) : M Nat := do
  let q := { hubReq 0 with point := some 9 }
  let old := leNat (← readRun q pa r.len)
  match rmwNew r old with
  | some v => writeRun q pa (leBytes r.len v)
  | none => pure ()
  pure old

/-- Answer a request of package `src` for this package's DRAM space (R368): bytes, or the cause of the fault met, which is reported. A
failing check is detected as the line leaves (R107). -/
def fabricAnswer (src : Nat) (m : FabMsg) : M Unit := do
  let tell : FabMsg → M Unit := fun a => modify fun s => s.send src a
  let orFail : Nat → Bool → M (List Byte) → M Unit := fun tag inSpace act =>
    if inSpace then
      tryCatch (do tell (.data tag (← act))) fun e => match e with
        | .flt f => do
          modify fun s => s.hubReport f
          tell (.failed tag f.cause)
        | e => throw e
    else tell (.failed tag 3)
  match m with
  | .read tag off len => orFail tag (decide (off + len ≤ 2 ^ 39)) (readRun { hubReq 0 with point := some 9 } off len)
  | .rmw tag off r =>
    orFail tag (decide (off < 2 ^ 39 ∧ off % r.len = 0)) (do pure (leBytes r.len (← hubRmw off r)))
  | _ => pure ()

/-- Perform what a hub unit owes at its home; before a release the writes of the hub's units are performed at package scope, and so is
what it writes. The status word of a collective is written before its barrier word flips, and where the swap engine holds it neither is
yet. A doorbell is no memory access. -/
def Owed.act : Owed → M Unit
  | .put ctx pa data => writeRun (hubReq ctx) pa data
  | .word ctx pa v => do
    modify fun s => s.takeWrites (.hub ctx)
    write64 (hubReq ctx) pa v
    modify fun s => s.takeWrites (.hub ctx)
  | .collective stw bar v => do
    let s ← get
    if s.swapTakes stw then throw .stall
    modify fun s => s.takeWrites (.hub 0)
    write64 (hubReq 0) stw v
    let w ← read64 (hubReq 0) bar
    write64 (hubReq 0) bar (setBits (setBits w 31 16 (bits w 15 0)) 32 32 (1 - bits w 32 32))
    modify fun s => s.takeWrites (.hub 0)
  | .arrive pa => do
    modify fun s => s.takeWrites (.hub 0)
    let w ← read64 (hubReq 0) pa
    match arriveWord w with
    | some r => write64 (hubReq 0) pa r.1
    | none => logM 0x07 0x0C pa [23]
  | .answer src m => fabricAnswer src m
  | .bell _ => pure ()

/-- A hub unit looks at memory in the course of another step: the bytes, where they can be read, and else the report (R8). -/
def State.hubLook (s : State) (m : M (Option (List Byte))) : State × Option (List Byte) :=
  match m.run s with
  | (.ok r, t) => (t, r)
  | (.error _, _) => (s, none)

/-- A hub unit performs an access, or owes it until the line or the homes are free again, a release also behind what is owed before
it; one that fails is reported (R8, log 63). -/
def State.hubPost (s : State) (o : Owed) : State :=
  if o.releases = true ∧ s.owed ≠ [] then { s with owed := s.owed ++ [o] } else
  match (o.act).run s with
  | (.ok _, t) => t
  | (.error .stall, _) => { s with owed := s.owed ++ [o] }
  | (.error (.flt f), t) => t.hubReport f
  | (.error _, t) => t

/-! ### Queues and the slot mapper (R335, R337) -/

/-- A little-endian field of a list of bytes. -/
def fieldOf (l : List Byte) (off len : Nat) : Nat := leNat ((l.drop off).take len)

/-- Address of queue table entry `q`. -/
def State.qEntry (s : State) (q : Nat) : Nat := s.fld 0x030001500000 51 12 * 4096 + 32 * q

/-- A queue table entry as read. -/
structure QEnt where
  rbase : Nat
  rlog : Nat
  qprio : Nat
  qdie : Nat
  en : Bool
  widx : Nat
  ridx : Nat
  deriving DecidableEq, Repr

def readQ (q : Nat) : M QEnt := do
  let s ← get
  let l ← readRun (hubReq 0) (s.qEntry q) 32
  pure { rbase := fieldOf l 0 8, rlog := fieldOf l 8 1, qprio := bits (fieldOf l 9 1) 2 0, qdie := fieldOf l 10 1,
         en := bit (fieldOf l 11 1) 0, widx := fieldOf l 16 4, ridx := fieldOf l 20 4 }

def slotKey (d i : Nat) : Nat := d * 64 + i

/-- Is queue `q` bound to a slot? -/
def State.boundQ (s : State) (q : Nat) : Bool := s.qslots.any fun e => match e.2 with
  | some b => b.queue == q
  | none => false

/-- The quantum in control cycles (R335). -/
def State.tau (s : State) : Nat := max 1125 (s.fld 0x030001500010 31 0)

def State.grace (s : State) : Nat := s.fld 0x030001500010 55 32

/-- Effective priority of a queue (R337). -/
def State.eprio (s : State) (q qprio : Nat) : Nat :=
  match Table.get none s.qwait q with
  | some since => min 7 (qprio + (s.now - since) / (8 * s.tau))
  | none => qprio

def queueEnt (q : Nat) (s : State) : Option QEnt := (readQ q).result s

/-- Does queue `q` have work (R337)? -/
def State.hasWork (s : State) (q : Nat) (e : QEnt) : Bool :=
  Table.get 0 s.widx q != e.ridx || s.insts.any fun g => g.queue == q

/-- An unbound queue with work begins to wait; one without work does not wait. -/
def State.noteWork (s : State) (q : Nat) : State :=
  match queueEnt q s with
  | none => s
  | some e =>
    if s.boundQ q then s
    else if s.hasWork q e then
      (if (Table.get none s.qwait q).isNone then { s with qwait := Table.put none s.qwait q (some s.now) } else s)
    else { s with qwait := Table.put none s.qwait q none }

/-- The unbound queue with work of highest EPRIO on die `d`: the longest wait on ties, then the lowest number. -/
def State.bestQueue (s : State) (d : Nat) : Option (Nat × Nat) :=
  s.qwait.foldl (fun acc e =>
    match e.2, queueEnt e.1 s with
    | some since, some ent =>
      if ent.qdie = d ∧ s.hasWork e.1 ent = true then
        let p := s.eprio e.1 ent.qprio
        match acc with
        | some (b, bp) =>
          let bs := (Table.get none s.qwait b).getD 0
          if bp < p ∨ (bp = p ∧ since < bs) then some (e.1, p) else acc
        | none => some (e.1, p)
      else acc
    | _, _ => acc) none

/-- Bind a queue to a slot, taken over from another queue or free. -/
def State.bind (s : State) (d i q : Nat) (after : Option Nat) : State :=
  { s with qslots := Table.put none s.qslots (slotKey d i) (some { queue := q, since := s.now, after := after.map fun p => (p, s.now) })
           qwait := Table.put none s.qwait q none }

/-- Free slots take the best waiting queues. -/
def fillSlots (d : Nat) : Nat → State → State
  | 0, s => s
  | fuel + 1, s =>
    match s.bestQueue d, (List.range 64).find? fun i => (Table.get none s.qslots (slotKey d i)).isNone with
    | some (q, _), some i => fillSlots d fuel (s.bind d i q none)
    | _, _ => s

/-- A queue that has no work does not wait (R337). -/
def State.idleQueues (s : State) : State :=
  { s with qwait := s.qwait.filter fun e => match queueEnt e.1 s with
      | some ent => s.hasWork e.1 ent
      | none => true }

/-- The mapper of die `d`: slots of queues without work are freed, then filled (R337). -/
def State.mapDie (s : State) (d : Nat) : State :=
  let s := (List.range 64).foldl (fun t i =>
    match Table.get none t.qslots (slotKey d i) with
    | some b =>
      match queueEnt b.queue t with
      | some e => if t.hasWork b.queue e then t else { t with qslots := Table.put none t.qslots (slotKey d i) none }
      | none => t
    | none => t) s
  fillSlots d s.qwait.length s.idleQueues

/-- The mapper of every compute die. -/
def State.mapAll (s : State) : State := (List.range 12).foldl State.mapDie s

/-! ### Instances -/

def State.inst? (s : State) (id : Nat) : Option GInst := s.insts.find? fun g => g.id == id

def State.modInst (s : State) (id : Nat) (f : GInst → GInst) : State :=
  { s with insts := s.insts.map fun g => if g.id == id then f g else g }

/-- The stream a node names (R271). -/
def NodeSt.streamNo (x : NodeSt) : Option Nat := if bit x.flags 1 then some x.stream else none

/-- The place of that stream in the table of records: of this package's Waypoint where its record there is in use, else of another's
whose D side is here, the lowest package number first (log 82). -/
def State.streamKey (s : State) (i : Nat) : Nat :=
  if (s.stream i).state ≠ 0 then i else ((s.streams.map (·.1)).find? fun k => 65536 ≤ k && k % 65536 == i).getD i

/-- The stream on which a node's task counts (R271, R286). -/
def State.streamOf (s : State) (x : NodeSt) : Option Nat := x.streamNo.map fun i => (x.asked.map (·.1)).getD (s.streamKey i)

def GInst.modNode (g : GInst) (i : Nat) (f : NodeSt → NodeSt) : GInst := { g with nodes := g.nodes.modify i f }

def ctrKey (die c : Nat) : Nat := die * 4096 + c % 4096

def State.ctr (s : State) (k : Nat) : Nat := (Table.get (0 : W16) s.depCnt k).toNat

def State.setCtr (s : State) (k v : Nat) : State := { s with depCnt := Table.put 0 s.depCnt k (BitVec.ofNat 16 v) }

/-- Counter of node `i` (R341). -/
def GInst.ctrOf (g : GInst) (i : Nat) : Nat := ctrKey g.die (g.cbase + i)

/-- Body of a while node (R339). -/
def NodeSt.body (x : NodeSt) : Nat × Nat := (bits x.p1 15 0, bits x.p1 31 16)

def NodeSt.holds (x : NodeSt) (i : Nat) : Bool := x.kind == 4 && decide (x.body.1 ≤ i ∧ i ≤ x.body.2)

/-- Of the bodies that hold a node, given with their while nodes in order, the innermost: the smallest, of equal ones the last. -/
def inmost (l : List (Nat × Nat × Nat)) : Option Nat :=
  (l.foldl (fun (acc : Option (Nat × Nat × Nat)) p => match acc with
    | some a => if p.2.2 - p.2.1 ≤ a.2.2 - a.2.1 then some p else acc
    | none => some p) none).map (·.1)

/-- The innermost while node in whose body node `i` lies. -/
def innermost (nodes : List NodeSt) (i : Nat) : Option Nat :=
  inmost ((nodes.zipIdx.filter fun p => p.1.holds i).map fun p => (p.2, p.1.body))

def NodePhase.ended : NodePhase → Bool
  | .retired | .skipped | .dropped => true
  | _ => false

/-- Report an instance's end: the completion word, written once (R336), the counters freed (R342, R343); its queue may have no more
work (R337). -/
def State.endInst (s : State) (g : GInst) (status cause node : Nat) : State :=
  let w := status + cause * 256 + node * 65536
  let s := if g.done = 0 then s else s.hubPost (.word g.ctx g.done w)
  let s := { s with
    insts := s.insts.filter fun x => x.id != g.id
    depUsed := (span g.cbase g.nodes.length).foldl (fun t c => Table.put false t (ctrKey g.die c) false) s.depUsed
    depCnt := (span g.cbase g.nodes.length).foldl (fun t c => Table.put 0 t (ctrKey g.die c) 0) s.depCnt }
  s.mapDie g.die

/-- Has the instance come to its end (R342, R343, R360)? A suspended node of a faulted or revoked instance runs no more:
its set is discarded and LIVE counts it out, as it does one that another package's Waypoint has let go and that has not run. -/
def State.settle (s : State) (id : Nat) : State :=
  match s.inst? id with
  | none => s
  | some g =>
    if g.born = false then (if g.revoked then s.endInst g 6 0 0 else s) else
    let running := g.nodes.any fun x => x.phase == .running && (x.kind == 1 || x.kind == 2)
    let drop := fun (s : State) =>
      g.nodes.foldl (fun t x =>
        if x.phase == .suspended then (t.dropSet x.save).decLive (t.streamOf x)
        else if x.phase == .ready && x.asked.any fun a => a.2 == .go then t.decLive (t.streamOf x) else t) s
    if g.revoked then (if running then s else (drop s).endInst g 6 0 0)
    else match g.fault with
      | some (c, n) => if running then s else (drop s).endInst g 2 c n
      | none => if g.nodes.all fun x => x.phase.ended then s.endInst g 1 0 0 else s

/-- A graph fault (R343, R354): the first one stands; it stops further dispatch and is logged with the management core. -/
def State.graphFault (s : State) (id cause node : Nat) : State :=
  match s.inst? id with
  | none => s
  | some g =>
    let s := s.log 0x08 g.die 0 [cause, node, id]
    let s := if g.fault = none then s.modInst id fun g => { g with fault := some (cause, node) } else s
    s.settle id

/-- A running task becomes pending pre-emption (R345), once. -/
def State.makePending (s : State) (n : Nat) : State :=
  s.modCore n fun c => match c.task with
    | some t => if t.pend = none then { c with task := some { t with pend := some s.now } } else c
    | none => c

/-- Is core `n` idle: out of reset, holding no task and no suspended context (R343), and with no resume under way? -/
def State.idleCore (s : State) (n : Nat) : Bool :=
  let c := s.core n
  !s.inReset (dieOf n) && c.task.isNone && !c.suspended && c.resuming.isNone

/-- A task of priority `p` becomes ready on die `d`: with no idle core, the running task of lowest PRIO below `p` becomes
pending, the youngest dispatch on ties (R345). -/
def State.preemptFor (s : State) (d p : Nat) : State :=
  if (coresOf d).any s.idleCore then s else
  let pick := (coresOf d).foldl (fun (acc : Option (Nat × TaskSt)) n =>
    match (s.core n).task with
    | some t =>
      if t.prio < p ∧ t.pend = none ∧ (s.core n).suspended = false then
        match acc with
        | some (_, b) => if t.prio < b.prio ∨ (t.prio = b.prio ∧ b.since < t.since) then some (n, t) else acc
        | none => some (n, t)
      else acc
    | none => acc) none
  match pick with
  | some (n, _) => s.makePending n
  | none => s

/-- What a node whose counter reaches zero comes to: ready, or skipped with skip releases to follow; a skipped while node
skips its body (R342). The answer is the releases it gives. -/
def State.nodeZero (s : State) (id i : Nat) : State × List (Nat × Bool) :=
  match s.inst? id with
  | none => (s, [])
  | some g =>
    match g.nodes[i]? with
    | none => (s, [])
    | some x =>
      if x.plain then
        let s := s.modInst id fun g => g.modNode i fun x => { x with phase := .ready, readyAt := s.datum g.die }
        (if x.kind = 1 then s.preemptFor g.die g.prio else s, [])
      else
        let s := s.modInst id fun g =>
          let g := g.modNode i fun x => { x with phase := .skipped }
          if x.kind = 4 then (span x.body.1 (x.body.2 + 1 - x.body.1)).foldl
            (fun g j => g.modNode j fun y => { y with phase := .skipped }) g
          else g
        (s, (x.nsuc ++ x.nelse).map fun j => (j, true))

/-- A pass of a while body ends when every body node has retired or been skipped: the while node reads its condition word
again (R342). -/
def State.passEnds (s : State) (id : Nat) : State :=
  match s.inst? id with
  | none => s
  | some g =>
    g.nodes.zipIdx.foldl (fun t p =>
      if p.1.kind == 4 && p.1.phase == .running &&
          ((g.nodes.zipIdx.filter fun q => p.1.holds q.2).all fun q => q.1.phase.ended) then
        t.modInst id fun g => g.modNode p.2 fun x => { x with phase := .ready }
      else t) s

/-- One release (R39, R342): a counter at zero stays there, with the fault "counter underflow". -/
def State.release1 (s : State) (id i : Nat) (skip : Bool) : State × List (Nat × Bool) :=
  match s.inst? id with
  | none => (s, [])
  | some g =>
    let k := g.ctrOf i
    if s.ctr k = 0 then (s.graphFault id 1 i, [])
    else
      let s := s.setCtr k (s.ctr k - 1)
      let s := s.modInst id fun g => g.modNode i fun x => { x with plain := x.plain || !skip }
      if s.ctr k = 0 then s.nodeZero id i else (s, [])

/-- Releases one after another, with those that skipped nodes give. -/
def releaseLoop (id : Nat) : Nat → List (Nat × Bool) → State → State
  | 0, _, s => s
  | _ + 1, [], s => s
  | fuel + 1, (i, skip) :: rest, s =>
    let r := s.release1 id i skip
    releaseLoop id fuel (rest ++ r.2) r.1

/-- Releases to a list of nodes; then passes and the instance may end (R342). -/
def State.releaseAll (s : State) (id : Nat) (l : List (Nat × Bool)) : State :=
  let fuel := match s.inst? id with
    | some g => l.length + (g.nodes.map fun x => x.nsuc.length + x.nelse.length).sum + 1
    | none => 1
  ((releaseLoop id fuel l s).passEnds id).settle id

/-- A node completes: plain releases to its successors (R342). -/
def State.completeNode (s : State) (id i : Nat) : State :=
  match s.inst? id with
  | none => s
  | some g =>
    match g.nodes[i]? with
    | none => s
    | some x =>
      let s := s.modInst id fun g => g.modNode i fun x => { x with phase := .retired }
      s.releaseAll id (x.nsuc.map fun j => (j, false))

/-- The live instance and node whose counter is number `c` of die `d` (R341). -/
def State.counterNode (s : State) (d c : Nat) : Option (Nat × Nat) :=
  s.insts.findSome? fun g =>
    if g.die == d && g.born then
      (List.range g.nodes.length).findSome? fun i => if g.ctrOf i = ctrKey d c then some (g.id, i) else none
    else none

/-- A decrement of a counter by its number (R39): of the node whose counter it is; of a counter no instance holds it is
reported as an underflow. -/
def State.decrementCtr (s : State) (die c : Nat) (skip : Bool) : State :=
  match s.counterNode die c with
  | some (id, i) => s.releaseAll id [(i, skip)]
  | none => s.log 0x08 die 0 [1, c]

/-! ### Reading memory as the hub does -/

/-- What a hub unit tries to read, or none where it cannot be read (R340, R342), with the report of what stood in the way (R8). -/
def hubTry {α : Type} (m : M α) : M (Option α) :=
  tryCatch (do pure (some (← m))) fun e =>
    match e with
    | .stall => throw .stall
    | .flt f => do
      modify fun s => s.hubReport f
      pure none
    | _ => pure none

/-- Read bytes at a physical address as a hub unit. -/
def hubRead (ctx pa len : Nat) : M (Option (List Byte)) := hubTry (readRun (hubReq ctx) pa len)

/-- Translate a virtual address of a graph in the address space of its context (R339, R403): the hub walker's fills go to
no core, and the home of a live record holds for it too (R103). A permission the access needs is required. -/
def hubXlate (ctx : Nat) (k : AccKind) (va : Nat) : M Phys := do
  let s ← get
  let satp := s.reg (0x030001602000 + 8 * ctx)
  if bits satp.toNat 63 60 = 9 then
    if canonical va = false then flt 3 1
    let e ← walkLeaf ctx satp va k
    oneHome e
    if e.allows { user := true, anyPage := true } k then checkHome (e.at va) e.home else flt 3 1
  else
    if va ≥ 2 ^ 52 then flt 3 2
    checkHome va (s.bareHome va)

/-- Read bytes at a virtual address in a context, page by page; `point` is where a failing check is detected (R107). -/
def hubReadVa (ctx va len : Nat) (point : Option Nat := none) : M (List Byte) := do
  let parts ← (pieces (len + 1) 64 va (List.replicate len 0)).mapM fun p => do
    let ph ← hubXlate ctx .load p.1
    readRun { hubReq ctx with point := point } ph.pa p.2.length
  pure parts.flatten

/-- The same, none where the bytes cannot be read. -/
def hubTryVa (ctx va len : Nat) : M (Option (List Byte)) := hubTry (hubReadVa ctx va len)

/-! ### The graph of a packet (R339, R340, R341) -/

/-- A footprint entry: base, length, read and write. -/
structure Foot where
  base : Nat
  len : Nat
  r : Bool
  w : Bool
  deriving DecidableEq, Repr

/-- What is read of a node before the checks: the record, its successors, and its footprint. -/
structure RawNode where
  raw : List Byte
  sucs : List Nat
  feet : List Foot
  zeroFeet : Bool
  zeroImg : Bool := false
  deriving DecidableEq, Repr

/-- A node that could not be read: it names no successor. -/
def RawNode.unread : RawNode := { raw := List.replicate 64 0, sucs := [], feet := [], zeroFeet := false }

def RawNode.kind (r : RawNode) : Nat := fieldOf r.raw 0 1
def RawNode.flags (r : RawNode) : Nat := fieldOf r.raw 1 1
def RawNode.nsuc (r : RawNode) : Nat := fieldOf r.raw 2 2
def RawNode.nelse (r : RawNode) : Nat := fieldOf r.raw 4 2
def RawNode.p0 (r : RawNode) : Nat := fieldOf r.raw 16 8
def RawNode.p1 (r : RawNode) : Nat := fieldOf r.raw 24 8

def feetOf (l : List Byte) : Nat → List Foot
  | 0 => []
  | k + 1 =>
    let w1 := fieldOf l 8 8
    { base := fieldOf l 0 8, len := bits w1 47 0, r := bit w1 48, w := bit w1 49 } :: feetOf (l.drop 16) k

/-- Bits of a footprint table that must be zero, and the codes that must name an access (R339). -/
def feetBad (l : List Byte) : Nat → Bool
  | 0 => false
  | k + 1 =>
    let w1 := fieldOf l 8 8
    decide (bits w1 63 50 ≠ 0 ∨ bits w1 49 48 = 0 ∨ bits w1 47 0 = 0) || feetBad (l.drop 16) k

def u16s : Nat → List Byte → List Nat
  | 0, _ => []
  | k + 1, l => fieldOf l 0 2 :: u16s k (l.drop 2)

/-- Read node `i` with its tables, none where something cannot be read. -/
def readNode (ctx gbase i : Nat) : M (Option RawNode) := do
  match ← hubRead ctx (gbase + 64 + 64 * i) 64 with
  | none => pure none
  | some r =>
    let ns := fieldOf r 2 2 + fieldOf r 4 2
    match ← hubRead ctx (gbase + fieldOf r 8 4) (2 * ns) with
    | none => pure none
    | some sl =>
      if fieldOf r 0 1 = 1 then
        let nf := bits (fieldOf r 1 1) 4 2 + 1
        match ← hubRead ctx (gbase + fieldOf r 32 4) (16 * nf) with
        | none => pure none
        | some fl =>
          -- an image table that cannot be read is met at dispatch (R22)
          let img ← hubRead ctx (gbase + fieldOf r 36 4) 96
          let zi := (List.range 6).any fun e => fieldOf (img.getD []) (16 * e + 12) 4 != 0
          pure (some { raw := r, sucs := u16s ns sl, feet := feetOf fl nf, zeroFeet := feetBad fl nf, zeroImg := zi })
      else pure (some { raw := r, sucs := u16s ns sl, feet := [], zeroFeet := false })

/-- A zero field of a record that is nonzero, by kind (R339). -/
def RawNode.zeroBad (r : RawNode) : Bool :=
  let f := fun off len => fieldOf r.raw off len != 0
  let k := r.kind
  bits r.flags 7 5 != 0 || f 12 4 || f 42 6 || f 56 8 ||
  (k != 1 && (r.flags != 0 || f 32 4 || f 36 4 || f 40 2 || f 48 8)) ||
  (k == 1 && ((bit r.flags 1 == false && f 40 2) || (bit r.flags 0 == false && f 48 8) ||
    r.zeroFeet || r.zeroImg || r.p1 % 64 != 0 || (bit r.flags 0 && fieldOf r.raw 48 8 % 4096 != 0))) ||
  (k != 3 && r.nelse != 0) ||
  ((k == 2 || k == 3 || k == 5 || k == 6) && r.p1 != 0) ||
  (k == 4 && r.p1 ≥ 2 ^ 32) || (k == 5 && r.p0 != 0) ||
  ((k == 3 || k == 4) && r.p0 % 8 != 0)

/-- Body range of a raw node, if it is a while node. -/
def RawNode.body (r : RawNode) : Option (Nat × Nat) := if r.kind = 4 then some (bits r.p1 15 0, bits r.p1 31 16) else none

/-- Innermost body in which node `i` lies. -/
def rawInner (l : List RawNode) (i : Nat) : Option Nat :=
  inmost (l.zipIdx.filterMap fun p => match p.1.body with
    | some b => if b.1 ≤ i ∧ i ≤ b.2 then some (p.2, b) else none
    | none => none)

/-- Faults of node `i` on its own or against others (R340). -/
def nodeBad (l : List RawNode) (i : Nat) (r : RawNode) : Bool :=
  let nn := l.length
  decide (r.kind = 0 ∨ r.kind > 6) || r.zeroBad ||
  r.sucs.any (fun j => decide (j ≤ i ∨ nn ≤ j)) ||
  (match r.body with
   | some b => decide (b.1 ≤ i ∨ b.2 < b.1) || r.sucs.any (fun j => decide (j ≤ b.2))
       || l.zipIdx.any (fun p => match p.1.body with
            | some c => decide (p.2 < i ∧ c.1 ≤ b.2 ∧ b.1 ≤ c.2) &&
                !(decide (c.1 ≤ b.1 ∧ b.2 ≤ c.2)) && !(decide (b.1 ≤ c.1 ∧ c.2 ≤ b.2))
            | none => false)
   | none => false) ||
  r.sucs.any (fun j => rawInner l j != rawInner l i) ||
  (r.kind == 3 && r.nsuc + r.nelse == 0)

/-- Do the footprints of two nodes make an edge: ranges overlap, one of them writing (R39, R341)? -/
def feetClash (a b : List Foot) : Bool :=
  a.any fun x => b.any fun y => (x.w || y.w) && decide (x.base < y.base + y.len ∧ y.base < x.base + x.len)

/-- Nodes to which node `i` has a derived edge (R39, R341). -/
def derived (l : List RawNode) (i : Nat) : List Nat :=
  match l[i]? with
  | none => []
  | some a => (l.zipIdx.filter fun p =>
      decide (i < p.2) && rawInner l p.2 == rawInner l i && feetClash a.feet p.1.feet).map (·.2)

/-- The nodes of an accepted graph with their initial counts (R341). -/
def buildNodes (l : List RawNode) : List NodeSt :=
  let der := (List.range l.length).map (derived l)
  let edges := l.zipIdx.map fun p => p.1.sucs ++ der.getD p.2 []
  l.zipIdx.map fun p =>
    let r := p.1
    let preds := (edges.map fun e => e.count p.2).sum
    let root := (rawInner l p.2).isSome && preds == 0
    { kind := r.kind, flags := r.flags, nsuc := r.sucs.take r.nsuc ++ der.getD p.2 [], nelse := r.sucs.drop r.nsuc,
      p0 := r.p0, p1 := r.p1, imgoff := fieldOf r.raw 36 4, stream := fieldOf r.raw 40 2, save := fieldOf r.raw 48 8,
      init := preds + fieldOf r.raw 6 2 + b2n root, plain := false, phase := .waiting, readyAt := 0 }

/-- Read and check a graph: its nodes, or the offending node and whether it could not be read (R340). -/
def readGraph (ctx gbase : Nat) : M (Except (Nat × Bool) (List NodeSt)) := do
  match ← hubRead ctx gbase 64 with
  | none => pure (.error (0, true))
  | some h =>
    let nn := fieldOf h 4 2
    if fieldOf h 0 4 ≠ 0x48505247 ∨ nn = 0 ∨ nn > 4096 ∨ (h.drop 6).any (· != 0) then pure (.error (0, false)) else
    let raw ← (List.range nn).mapM (readNode ctx gbase)
    let l := raw.map fun r => r.getD RawNode.unread
    let nodes := buildNodes l
    match (raw.zip (l.zip nodes)).zipIdx.find? fun p =>
        p.1.1.isNone || nodeBad l p.2 p.1.2.1 || decide (p.1.2.2.init > 65535) with
    | some p => pure (.error (p.2, p.1.1.isNone))
    | none => pure (.ok nodes)

/-! ### Launch packets and queues (R334, R335, R336) -/

/-- A zero field of a packet that is nonzero (R334). -/
def packetZeroBad (p : List Byte) : Bool :=
  bits (fieldOf p 0 8) 63 52 != 0 || bits (fieldOf p 9 1) 7 3 != 0 || fieldOf p 11 1 != 0 || bits (fieldOf p 12 2) 15 12 != 0 ||
    fieldOf p 14 2 != 0 || (p.drop 32).any (· != 0)

/-- The check of a packet of queue `q` (R336). -/
def State.packetBad (s : State) (e : QEnt) (p : List Byte) : Bool :=
  packetZeroBad p || fieldOf p 10 1 != e.qdie || decide (12 ≤ fieldOf p 10 1) || !e.en || fieldOf p 0 8 % 64 != 0 ||
    (match s.loc (fieldOf p 0 8) with
     | .hub _ => false
     | _ => decide (2 ^ 39 ≤ s.norm (fieldOf p 0 8))) || fieldOf p 24 8 % 8 != 0

/-- Write the status of a packet that becomes no instance into its DONE word, at its address as it stands (R335, R336,
log 76). -/
def State.packetStatus (s : State) (p : List Byte) (status node : Nat) : State :=
  let done := fieldOf p 24 8
  if done = 0 then s
  else s.hubPost (.word (fieldOf p 8 1) done (status + node * 65536))

end Sys2Proof.Machine
end

