-- ==== Sys2Proof/Machine/Tasks.lean ====
section
/-! DEFINITION. Tasks on their cores: the state after dispatch (R22, R25, R88, R160, R210, R216, R309, R310), abort and kill
(R37, R356), suspension (R304), the slot mapper (R335, R337), launches (R301, R335), and the events of the graph walker
(R336 to R343). -/
namespace Sys2Proof.Machine

/-! ### Leaving a task -/

/-- Every ring of a core empty, no ring halted (R22, R37). -/
def Core.emptyRings (c : Core) : Core :=
  Eng.all.foldl (fun c e =>
    let r := c.ring e
    c.setRing e { r with read := r.write, retire := r.write, org := [], flight := [], halted := false }) c

/-- The local interrupts of a task end with it (R345, R350). -/
def Hart.noLocal (h : Hart) : Hart := h.setCsrBits 0x344 18 16 0

/-- The core becomes idle (R300). -/
def Core.toIdle (c : Core) : Core :=
  let h := { c.hart.noLocal with run := .idle, wait := none }
  let c := c.emptyRings
  { c with hart := h, task := none, suspended := false, frozen := false, resuming := none }

/-- Stream of a task (R271). -/
def TaskSt.streamOf (t : TaskSt) : Option Nat := t.stream

/-- A Traverse command that ends with its task has no use for its outcome (R37, R278): what it sent is its own no more. -/
def State.forgetTv (s : State) (n : Nat) : State :=
  { s with tvReply := s.tvReply.filter fun (r : TvReply) => r.core != n
           tvChan := s.tvChan.map fun (m : TvMsg) => if m.core = n then { m with core := 288 } else m }

/-- The same for one Traverse command that ends before its answer (R278): sent again, it is a command of its own. -/
def State.forgetSlot (s : State) (n : Nat) (slot : W32) : State :=
  { s with tvReply := s.tvReply.filter fun (r : TvReply) => !(r.core == n && r.slot == slot)
           tvChan := s.tvChan.map fun (m : TvMsg) => if m.core = n ∧ m.slot = slot then { m with core := 288 } else m }

/-- Abort (R37): staging discarded, engines stopped, rings emptied; the node returns to ready with its original age
(R343); LIVE counts the task out (R271). -/
def State.abortTask (s : State) (n : Nat) : State :=
  match (s.core n).task with
  | none => s
  | some t =>
    let s := ((s.discardStaging n).modCore n Core.toIdle).forgetTv n
    let s := s.decLive t.stream
    let s := s.modInst t.inst fun g => g.modNode t.node fun x => { x with phase := .ready, asked := none }
    s.settle t.inst

/-- A suspended context is given up: its set goes, LIVE counts its task out, and its node takes a phase. -/
def State.dropSaved (s : State) (id i : Nat) (x : NodeSt) (p : NodePhase) : State :=
  (((s.dropSet x.save).decLive (s.streamOf x)).modInst id fun g =>
    g.modNode i fun x => { x with phase := p, pinned := false, seen := [], kept := [], asked := none })

/-- The node whose context a core has been asked to resume and has not restored yet (R345). -/
def State.resumed (s : State) (n : Nat) : Option (GInst × Nat × NodeSt) := do
  let r ← (s.core n).resuming
  let g ← s.inst? r.1
  let x ← g.nodes[r.2]?
  pure (g, r.2, x)

/-- A resume that is under way on core `n` ends: its context is given up, and the core is idle. -/
def State.endResume (s : State) (n : Nat) (p : NodePhase) : State :=
  match s.resumed n with
  | none => s
  | some (g, i, x) => (((s.modCore n Core.toIdle).dropSaved g.id i x p).settle g.id)

/-- The tasks that have no core to run on, suspended or asked to resume, and that a test picks are aborted (R37): their nodes are
ready afresh. -/
def State.abortSavedIf (s : State) (p : GInst → NodeSt → Bool) : State :=
  let s := (List.range 288).foldl (fun t n => match t.resumed n with
    | some (g, _, x) => if p g x then t.endResume n .ready else t
    | none => t) s
  s.insts.foldl (fun t g => (g.nodes.zipIdx.foldl (fun t q =>
    if q.1.phase = .suspended ∧ p g q.1 = true then (t.dropSaved g.id q.2 q.1 .ready).settle g.id else t) t)) s

/-- Abort of a task whose staged output is held under a SAVE address (R126). -/
def State.abortSaved (s : State) (save : Nat) : State := s.abortSavedIf fun _ x => x.save == save

/-- The end of a task by KILL (R356): as an abort, but the node ends and the instance takes a graph fault. -/
def State.endTask (s : State) (n cause : Nat) : State :=
  match (s.core n).task with
  | none => s
  | some t =>
    let s := ((s.discardStaging n).modCore n Core.toIdle).forgetTv n
    let s := s.decLive t.stream
    let s := s.modInst t.inst fun g => g.modNode t.node fun x => { x with phase := .dropped }
    s.graphFault t.inst cause t.node

/-- Has the command started (R28, R223): it holds its semaphore and its slots? -/
def Flight.begun (f : Flight) : Bool :=
  let opc := bits f.q0.toNat 63 56
  match f.phase with
  | .ready => f.claimed || !(opc == 0xF2 || opc == 0xF4)
  | .done | .stalled => true
  | _ => false

/-- Is work of a ring under way: a command that has started and is not done? -/
def Ring.busy (r : Ring) : Bool := r.flight.any fun f => f.phase == .ready && f.begun

/-- A direct ST command that has started runs to completion before its task stops (R262, R304, R356). -/
def Core.directBusy (c : Core) : Bool :=
  (match c.task with
   | some t => t.pinned
   | none => false) && (c.ring .st).busy

/-- Does a started command run to its end before its task stops: of VX and TV, or a direct ST command (R304, R356)? -/
def Core.mustEnd (c : Core) : Bool := c.directBusy || (c.ring .vx).busy || (c.ring .tv).busy

/-- Is a core quiet (R304): no started command that runs to its end, and no command at a ring's head that has still to
retire or to write its record? Every other started command stands at a boundary between two turns. -/
def Core.quiet (c : Core) : Bool :=
  !c.mustEnd &&
  Eng.all.all fun e => match (c.ring e).flight with
    | f :: _ => match f.phase with
      | .done => false
      | .failed _ => false
      | _ => true
    | [] => true

/-- Has a command ended with a fault whose record its retirement has still to write? -/
def Flight.isFailed (f : Flight) : Bool :=
  match f.phase with
  | .failed _ => true
  | _ => false

/-- A ring at suspension (R304): the commands that have started stay in flight, halted, or with the record they owe; the others are
unstarted. -/
def Ring.unstart (r : Ring) : Ring :=
  let kept := r.flight.filter fun f => f.begun || f.isFailed || f.phase == .halted
  { r with flight := kept, read := r.retire + BitVec.ofNat 32 kept.length }

/-- Steps 1 to 4 of R304: nothing new starts, x1 to x31 and the resume PC go into the suspension bank, the rest is
frozen. -/
def State.suspend (s : State) (n : Nat) (pc : W64) : State :=
  s.modCore n fun c =>
    let c := Eng.all.foldl (fun c e => c.setRing e (c.ring e).unstart) c
    -- Contour starts again from phase 0 of its row
    let ct := c.ring .ct
    let c := c.setRing .ct { ct with flight := ct.flight.map fun f => { f with list := none } }
    { c with suspRegs := c.hart.x, suspPc := pc, suspended := true, frozen := true }

/-- Must an unpinned suspendable task be aborted instead of suspended (R345)? -/
def State.abortsInstead (s : State) (n : Nat) : Bool :=
  match (s.core n).task with
  | some t => !t.pinned && (!t.susp || (s.core n).staging.lines.any (fun e => match e.2 with
      | some l => l.spilled
      | none => false) || decide (256 ≤ s.savedSets.length ∧ (s.core n).staging ≠ Staging.empty))
  | none => false

/-- Is interrupt `k` enabled: its `mie` bit, and the global enable of the mode that takes it? -/
def Hart.intrEnabled (h : Hart) (k : Nat) : Bool :=
  h.csrBit 0x304 k &&
  (if h.csrBit 0x303 k then h.priv == .u || (h.priv == .s && h.csrBit mstatusN 1)
   else h.priv != .m || h.csrBit mstatusN 3)

/-- Is a suspension of the core's task being carried out, at its next boundary or at a `task.yield` that awaits quiet engines: no
ring starts another command (R304)? -/
def Core.stopping (c : Core) : Bool :=
  match c.task with
  | none => false
  | some t => !c.suspended &&
    ((t.susp && c.hart.csrBit 0x344 16 && c.hart.intrEnabled 16) || (match c.hart.wait with
      | some w => w.kind == .yield_
      | none => false))

/-- Entering S-mode for a local interrupt, whatever the delegation registers say (R345, R350). -/
def Hart.enterS (h : Hart) (code : Nat) : Hart :=
  let cause : W64 := BitVec.ofNat 64 (code + 2 ^ 63)
  let h' := ((h.setCsrRaw 0x141 h.pc).setCsrRaw 0x142 cause).setCsrRaw 0x143 0
  let h' := ((h'.setCsrBits mstatusN 8 8 (if h.priv = .s then 1 else 0)).setCsrBits mstatusN 5 5
    (b2n (h.csrBit mstatusN 1))).setCsrBits mstatusN 1 1 0
  { h' with priv := .s, pc := vectorPc (h.csrRaw 0x105) true code, wait := none }

/-- Carry out a pre-emption of core `n` (R345) with the given resume PC: abort, or suspension and entry of the S-mode
handler with `shinfo` holding SAVE. -/
def State.preempt (s : State) (n : Nat) (pc : W64) : State :=
  if s.abortsInstead n then s.abortTask n
  else
    let s := s.suspend n pc
    s.modCore n fun c =>
      let save := match c.task with
        | some t => t.save
        | none => 0
      let h := (c.hart.setCsrRaw 0x5C4 (BitVec.ofNat 64 save)).setCsrBits 0x344 16 16 0
      { c with hart := { h with pc := pc }.enterS 16 }

/-! ### The state after dispatch (R22) -/

/-- Every ring, semaphore, buffer, mask, pattern, register and accumulator at the dispatch state; ring configuration
persists, every owner is U (R309). -/
def Core.dispatchState (c : Core) : Core :=
  let c := c.emptyRings
  let c := Eng.all.foldl (fun c e => let r := c.ring e; c.setRing e { r with owner := false }) c
  { c with sems := [], cbs := [], v := [], vpois := [], vorg := [], k := [], pj := [], acc := [], accInt := [],
           descs := [], dropDue := false, dropFor := [] }

/-- The CSRs of the 0x800 range at their reset values (R310). -/
def Hart.resetCsr800 (h : Hart) : Hart := { h with csr := Table.dropWhere (fun k => decide (0x800 ≤ k ∧ k < 0x900)) h.csr }

/-- The control core of a dispatched task (R22). -/
def Hart.forDispatch (h : Hart) (n : Nat) (pc satp : W64) : Hart :=
  let h := ((h.resetCsr800).setCsrRaw 0x180 satp).noLocal
  { h with run := .run, priv := .u, pc := pc, wait := none, resv := none,
           x := Table.put 0 (Table.put 0 [] 10 (BitVec.ofNat 64 (spBase n))) 11 (BitVec.ofNat 64 n) }

/-- The packets of a queue that names a reserved die are rejected, in their order (R10, R336): no slot can be bound to it. -/
def State.rejectQueue (s : State) (q : Nat) (e : QEnt) : State :=
  let n := min ((e.widx + 2 ^ 32 - e.ridx) % 2 ^ 32) (2 ^ e.rlog)
  let s := (span e.ridx n).foldl (fun (t : State) k =>
    match (t.log 0x08 0x0C 0 [3, q]).hubLook (hubRead 0 (e.rbase + 64 * (k % 2 ^ e.rlog)) 64) with
    | (t, some p) => t.packetStatus p 3 0
    | (t, none) => t) s
  ({ s with widx := Table.put 0 s.widx q e.widx } : State).hubPost (.put 0 (s.qEntry q + 20) (leBytes 4 e.widx))

/-- A doorbell: the mapper rereads WIDX of the queue (R335); an entry that cannot be read is reported (R8). -/
def State.ringDoorbell (s : State) (q : Nat) : State :=
  if s.rtDrain then { s with owed := s.owed ++ [.bell q] } else
  match queueEnt q s with
  | none => s.log 0x08 0x0C 0 [3, q]
  | some e =>
    if 12 ≤ e.qdie then s.rejectQueue q e
    else
      let s := { s with widx := Table.put 0 s.widx q e.widx }
      (s.noteWork q).mapDie e.qdie

/-- A quantum end of slot `i` of die `d` (R337). -/
def quantumEndOp (d i : Nat) : M Unit := do
  let s ← get
  if 64 ≤ i then throw .stall
  match Table.get none s.qslots (slotKey d i) with
  | none => throw .stall
  | some b =>
    if s.now < b.since + s.tau then throw .stall
    match queueEnt b.queue s with
    | none => throw .stall
    | some e =>
      match s.bestQueue d with
      | some (q, p) =>
        if e.qprio ≤ p then
          modify fun s =>
            let s := { s with qslots := Table.put none s.qslots (slotKey d i) none }
            let s := if s.hasWork b.queue e then { s with qwait := Table.put none s.qwait b.queue (some s.now) } else s
            let s := (coresOf d).foldl (fun t n =>
              match (t.core n).task with
              | some k => if (t.inst? k.inst).any (fun g => g.queue == b.queue) then t.makePending n else t
              | none => t) s
            s.bind d i q (some b.queue)
        else modify fun s => { s with qslots := Table.put none s.qslots (slotKey d i) (some { b with since := s.now }) }
      | none => modify fun s => { s with qslots := Table.put none s.qslots (slotKey d i) (some { b with since := s.now }) }

/-- A `graph.launch` performed (R301, R335): append to the ring of the packet's queue, status 5 when it is full; a fault that this
meets appends nothing and is reported (R8). A packet that names another context than its task's is remembered, and fails when the
walker takes it (R336). -/
def launchPacket (ctx : Nat) (p : List Byte) : M Unit := do
  let q := fieldOf p 12 2 % 4096
  let s ← get
  if s.rtDrain then throw .stall
  match queueEnt q s with
  | none => modify fun s => s.log 0x08 0x0C 0 [3, q]
  | some e =>
    if (e.widx + 2 ^ 32 - e.ridx) % 2 ^ 32 ≥ 2 ^ e.rlog then modify fun s => s.packetStatus p 5 0
    else
      let r ← hubTry (do
        writeRun (hubReq ctx) (e.rbase + 64 * (e.widx % 2 ^ e.rlog)) p
        writeRun (hubReq ctx) (s.qEntry q + 16) (leBytes 4 (e.widx + 1)))
      if r.isSome then
        if fieldOf p 8 1 ≠ ctx then modify fun s => { s with foreign := s.foreign ++ [(q, e.widx)] }
        modify fun s => s.ringDoorbell q

/-! ### The walker's events -/

/-- The mapper's slot takes the next packet of its queue (R336). -/
def packetTakeOp (d i : Nat) : M Unit := do
  let s ← get
  if 64 ≤ i then throw .stall
  match Table.get none s.qslots (slotKey d i) with
  | none => throw .stall
  | some b =>
    match queueEnt b.queue s with
    | none => throw .stall
    | some e =>
      if Table.get 0 s.widx b.queue = e.ridx then throw .stall
      if (s.insts.filter fun g => g.queue == b.queue).length ≥ 8 then throw .stall
      let pk ← hubRead 0 (e.rbase + 64 * (e.ridx % 2 ^ e.rlog)) 64
      writeRun (hubReq 0) (s.qEntry b.queue + 20) (leBytes 4 (e.ridx + 1))
      match pk with
      | none => logM 0x08 d 0 [3, b.queue]
      | some p =>
        let foreign := s.foreign.contains (b.queue, e.ridx)
        modify fun s => { s with foreign := s.foreign.filter (· != (b.queue, e.ridx)) }
        if s.packetBad e p || foreign then modify fun s => (s.packetStatus p 3 0).log 0x08 d 0 [3, b.queue]
        else
          let g : GInst :=
            { id := s.instNo, die := d, queue := b.queue, ctx := fieldOf p 8 1, prio := bits (fieldOf p 9 1) 2 0,
              gbase := bits (fieldOf p 0 8) 51 0, start := fieldOf p 16 8, done := fieldOf p 24 8, born := false,
              started := false, cbase := 0, nodes := [], fault := none, revoked := false }
          modify fun s => { s with instNo := s.instNo + 1, insts := s.insts ++ [g] }
      modify fun s => s.mapDie d

/-- Counter bases at which `k` consecutive counters of die `d` are free (R341). -/
def State.freeBases (s : State) (d k : Nat) : List Nat :=
  (List.range 4096).filter fun b => (List.range k).all fun i => !(Table.get false s.depUsed (ctrKey d (b + i)))

/-- Create the instance of an accepted packet (R339 to R341): a malformed graph gets STATUS 4; an instance holds until its
counters are free. Which free base it gets the spec leaves open (log 2). -/
def instanceCreateOp (id : Nat) : M Unit := do
  let s ← get
  match s.inst? id with
  | none => throw .stall
  | some g =>
    if g.born then throw .stall
    match ← readGraph g.ctx g.gbase with
    | .error (n, unread) =>
      if unread then logM 0x08 g.die 0 [4, n]
      modify fun s => s.endInst g 4 0 n
    | .ok nodes =>
      let bases := s.freeBases g.die nodes.length
      let w ← freshWord
      match bases[w.toNat % bases.length]? with
      | none => throw .stall
      | some b =>
        modify fun s =>
          let s := { s with depUsed := (span b nodes.length).foldl (fun t c => Table.put false t (ctrKey g.die c) true) s.depUsed }
          let s := nodes.zipIdx.foldl (fun t p => t.setCtr (ctrKey g.die (b + p.2)) p.1.init) s
          s.modInst id fun g => { g with born := true, cbase := b, nodes := nodes }

/-- START passes: the nodes of initial count zero become ready (R343). -/
def instanceStartOp (id : Nat) : M Unit := do
  let s ← get
  match s.inst? id with
  | none => throw .stall
  | some g =>
    if g.born = false ∨ g.started ∨ s.datum g.die < g.start then throw .stall
    modify fun s =>
      let s := s.modInst id fun g => { g with started := true, nodes := g.nodes.map fun x =>
        if x.init = 0 then { x with plain := true } else x }
      g.nodes.zipIdx.foldl (fun t p => if p.1.init = 0 then (t.nodeZero id p.2).1 else t) s

/-- May a node's ring of releases go on: its instance is live, started and not faulted. -/
def GInst.live (g : GInst) : Bool := g.born && g.started && g.fault.isNone && !g.revoked

/-- A ready node of a kind, in a live instance. -/
def readyNode (id i kind : Nat) : M (GInst × NodeSt) := do
  let s ← get
  match s.inst? id with
  | none => throw .stall
  | some g =>
    match g.nodes[i]? with
    | none => throw .stall
    | some x => if g.live ∧ x.phase = .ready ∧ x.kind = kind then pure (g, x) else throw .stall

/-- A condition word, read in the instance's context; one that cannot be read is a graph fault (R342). -/
def condWord (g : GInst) (i : Nat) (x : NodeSt) : M (Option Nat) := do
  match ← hubTryVa g.ctx x.p0 8 with
  | some l => pure (some (leNat l))
  | none =>
    modify fun s => (s.modInst g.id fun g => g.modNode i fun x => { x with phase := .dropped }).graphFault g.id 6 i
    pure none

/-- A conditional node: nonzero releases the then-successors, zero the else-successors; the others get skips (R40, R342). -/
def conditionalOp (id i : Nat) : M Unit := do
  let (g, x) ← readyNode id i 3
  match ← condWord g i x with
  | none => pure ()
  | some w =>
    modify fun s =>
      let s := s.modInst id fun g => g.modNode i fun x => { x with phase := .retired }
      s.releaseAll id ((x.nsuc.map fun j => (j, w == 0)) ++ (x.nelse.map fun j => (j, w != 0)))

/-- A while node: nonzero resets the body's counters and releases its roots, zero releases the exit successors (R342). -/
def whileOp (id i : Nat) : M Unit := do
  let (g, x) ← readyNode id i 4
  match ← condWord g i x with
  | none => pure ()
  | some w =>
    if w = 0 then modify fun s => s.completeNode id i
    else
      let body := (span x.body.1 (x.body.2 + 1 - x.body.1)).filter (· < g.nodes.length)
      let hasPred := fun (j : Nat) => g.nodes.any fun y => (y.nsuc ++ y.nelse).contains j
      let roots := body.filter fun j => innermost g.nodes j == some i && !hasPred j
      modify fun s =>
        let s := s.modInst id fun g =>
          let g := g.modNode i fun x => { x with phase := .running }
          body.foldl (fun g j => g.modNode j fun y => { y with phase := .waiting, plain := false }) g
        let s := body.foldl (fun t j => t.setCtr (g.ctrOf j) ((g.nodes[j]?.map (·.init)).getD 0)) s
        s.releaseAll id (roots.map fun j => (j, false))

/-- A join node does no work (R40). -/
def joinOp (id i : Nat) : M Unit := do
  let _ ← readyNode id i 5
  modify fun s => s.completeNode id i

/-- A timed-start node completes once local Datum time is at its start time (R40, R342). -/
def timedStartOp (id i : Nat) : M Unit := do
  let (g, x) ← readyNode id i 6
  let s ← get
  if s.datum g.die < x.p0 then throw .stall
  modify fun s => s.completeNode id i

/-! ### Dispatch (R343) -/

/-- What Waypoint's table says of a node naming a stream (R271): dispatched, held or dropped, or, of another package's Waypoint, that it
must be asked (R286). -/
inductive StreamSays where
  | go | hold | drop | ask
  deriving DecidableEq, Repr

def Stream.says (t : Stream) (onP onD : Bool) : StreamSays :=
  if t.state = 1 ∨ t.state = 2 ∨ t.state = 3 then (if onP then .go else if onD then .hold else .drop)
  else if t.state = 4 then (if onD then .hold else .drop)
  else if t.state = 5 then (if onD then .go else .drop)
  else .drop

def State.says (s : State) (die : Nat) (x : NodeSt) : StreamSays :=
  match s.streamOf x with
  | none => .go
  | some i =>
    if i < 65536 then (s.stream i).says ((s.stream i).pdie == die) (s.isDdie (s.stream i) die)
    else match x.asked with
      | none | some (_, .ask) => .ask
      | some (_, .waiting) => .hold
      | some (_, .go) => .go
      | some (_, .drop) => .drop

/-- A candidate for dispatch: instance, node index, node. -/
structure Cand where
  g : GInst
  i : Nat
  x : NodeSt
  deriving DecidableEq, Repr

/-- The order of R343: highest PRIO, earliest ready, oldest instance, lowest node. -/
def Cand.before (a b : Cand) : Bool :=
  if a.g.prio ≠ b.g.prio then decide (b.g.prio < a.g.prio)
  else if a.x.readyAt ≠ b.x.readyAt then decide (a.x.readyAt < b.x.readyAt)
  else if a.g.id ≠ b.g.id then decide (a.g.id < b.g.id) else decide (a.i < b.i)

/-- The slot of a queue still waits for the pre-emptions of the queue it took over from (R337). -/
def State.slotWaits (s : State) (d q : Nat) : Bool :=
  s.qslots.any fun e => match e.2 with
    | some b => b.queue == q && (coresOf d).any fun n => match (s.core n).task with
        | some t => b.after.any fun a => t.pend.any (fun p => decide (p ≤ a.2)) && (s.inst? t.inst).any fun g => g.queue == a.1
        | none => false
    | none => false

/-- Ready and suspended task nodes of die `d` that the walker may take now, first to last (R343, R271). -/
def State.nextCand (s : State) (d : Nat) : Option Cand :=
  let all := s.insts.flatMap fun g =>
    if g.die == d && g.live && s.boundQ g.queue && !s.slotWaits d g.queue then
      (g.nodes.zipIdx.filter fun p => p.1.kind == 1 && (p.1.phase == .ready || p.1.phase == .suspended)
        && s.says d p.1 != .hold).map fun p => ({ g := g, i := p.2, x := p.1 } : Cand)
    else []
  all.foldl (fun acc c => match acc with
    | some b => if c.before b then some c else acc
    | none => some c) none

/-- A node is dropped (R271): it releases nothing; a suspended one ends as KILL ends its task. -/
def State.dropNode (s : State) (c : Cand) : State :=
  let s := if c.x.phase = .suspended then s.dropSaved c.g.id c.i c.x .dropped
    else s.modInst c.g.id fun g => g.modNode c.i fun x => { x with phase := .dropped }
  s.graphFault c.g.id 2 c.i

/-- The record of a ring image that could not be copied (R25). -/
def imageRec (e : Eng) (f : Flt) (slot off : Nat) : FaultRec :=
  { cause := f.cause, detail := f.detail, eng := e.num, vav := f.va.isSome, halt := true, slot := slot, va := f.va.getD 0,
    prog := off, aux := f.aux, aux2 := f.aux2 }

/-- Copy the lines of an image from `off` on (R25); a line that cannot be read ends the copy with its offset. -/
def copyImage (n ctx addr base : Nat) : Nat → Nat → Nat → M (Option (Flt × Nat))
  | 0, _, _ => pure none
  | fuel + 1, off, left =>
    if left = 0 then pure none else do
      let k := min left (64 - (addr + off) % 64)
      let r ← tryCatch (do pure (Except.ok (← hubReadVa ctx (addr + off) k))) fun e => match e with
        | .flt f => pure (Except.error { f with va := f.va.or (if f.cause = 3 ∨ f.cause = 4 then some (addr + off) else none) })
        | .stall => throw .stall
        | _ => pure (Except.error { cause := 3, detail := 2 })
      match r with
      | .error f => pure (some (f, off))
      | .ok (data : List Byte) =>
        spWrite (.hub ctx) n (base + off) data
        copyImage n ctx addr base fuel (off + k) (left - k)

/-- Copy one ring image (R25). A ring may wrap: the image starts at the write pointer's slot. -/
def ringImage (n ctx : Nat) (e : Eng) (addr count : Nat) : M Unit := do
  let s ← get
  let r := (s.core n).ring e
  if count = 0 then pure ()
  else if count > r.size then
    modify fun s => (s.setRing n e { r with halted := true }).writeRec n
      (s.stampRec n (imageRec e { cause := 1 } r.size 0))
  else
    let first := min count (r.size - r.write.toNat % r.size)
    let a ← copyImage n ctx addr (r.base + 32 * (r.write.toNat % r.size)) (32 * first + 1) 0 (32 * first)
    let b ← if a.isNone ∧ first < count then copyImage n ctx (addr + 32 * first) r.base (32 * count) 0 (32 * (count - first))
            else pure (a.map fun p => (p.1, p.2))
    match b with
    | none => pure ()
    | some (f, off) =>
      let off := if a.isNone then off + 32 * first else off
      modify fun s => (s.setRing n e { r with halted := true }).writeRec n
        (s.stampRec n (imageRec e f r.write.toNat off))

/-- Dispatch of a fresh task to core `n` (R22, R25). Where the scratchpad refuses a line of the argument block or of an image the
dispatch does not happen yet (log 77). -/
def dispatchTo (n : Nat) (c : Cand) : M Unit := do
  let fail : M Unit := modify fun s =>
    (s.modInst c.g.id fun g => g.modNode c.i fun x => { x with phase := .dropped }).graphFault c.g.id 5 c.i
  match ← hubTryVa c.g.ctx c.x.p1 64 with
  | none => fail
  | some args =>
    match ← hubRead c.g.ctx (c.g.gbase + c.x.imgoff) 96 with
    | none => fail
    | some img =>
      spWrite (.hub c.g.ctx) n 0 args
      let s ← get
      let satp := s.reg (0x030001602000 + 8 * c.g.ctx)
      modify fun s => s.modCore n fun k =>
        let k := k.dispatchState
        let task : TaskSt :=
          { inst := c.g.id, node := c.i, ctx := c.g.ctx, susp := bit c.x.flags 0, pinned := false,
            stream := s.streamOf c.x, save := c.x.save, nodePa := c.g.gbase + 64 + 64 * c.i, prio := c.g.prio,
            since := s.now, pend := none }
        { k with hart := k.hart.forDispatch n (BitVec.ofNat 64 c.x.p0) satp, suspended := false, frozen := false,
                 staging := Staging.empty, task := some task, resuming := none }
      Eng.all.forM fun e => ringImage n c.g.ctx e (fieldOf img (16 * e.num) 8) (fieldOf img (16 * e.num + 8) 4)
      modify fun s => s.modInst c.g.id fun g => g.modNode c.i fun x => { x with phase := .running }
      match s.streamOf c.x with
      | none => pure ()
      | some i =>
        if 65536 ≤ i then pure ()
        else modify fun s =>
          let t := s.stream i
          let s := s.setStream i { t with live := t.live + 1 }
          if t.state = 1 then s.toState i 2 else s

/-- A suspended node is dispatched: the core enters S-mode with the resume request, carrying SAVE (R345, R350). -/
def State.requestResume (s : State) (n : Nat) (c : Cand) : State :=
  let s := s.modInst c.g.id fun g => g.modNode c.i fun x => { x with phase := .running }
  s.modCore n fun k =>
    let h := (k.hart.noLocal.setCsrRaw 0x5C4 (BitVec.ofNat 64 c.x.save)).setCsrBits 0x344 17 17 1
    { k with hart := { h with run := .run, wait := none }, resuming := some (c.g.id, c.i), descs := [], dropDue := false, dropFor := [] }

/-- The walker of die `d` asks the Waypoint of another package about a node (R286); for a suspended one LIVE has counted its task. -/
def State.askAbout (s : State) (d : Nat) (c : Cand) : State :=
  match s.streamOf c.x with
  | none => s
  | some k =>
    (s.modInst c.g.id fun g => g.modNode c.i fun x => { x with asked := some (k, .waiting) }).tellHome k fun i =>
      .dispatchAsk i d (c.x.phase == .ready)

/-- The walker of die `d` dispatches the chosen ready task to the lowest idle core (R343). -/
def taskDispatchOp (d : Nat) : M Unit := do
  let s ← get
  match s.nextCand d with
  | none => throw .stall
  | some c =>
    if s.says d c.x = .drop then modify fun s => s.dropNode c
    else
      match (coresOf d).find? s.idleCore with
      | none => throw .stall
      | some n =>
        if s.says d c.x = .ask then modify fun s => s.askAbout d c
        else if c.x.phase = .suspended then modify fun s => s.requestResume n c else dispatchTo n c

/-- The grace of a pending pre-emption expires (R345): interrupt 16 becomes pending for a suspendable task, any other is
aborted by hardware. -/
def graceExpiryOp (n : Nat) : M Unit := do
  let s ← get
  match (s.core n).task with
  | none => throw .stall
  | some t =>
    match t.pend with
    | none => throw .stall
    | some t0 =>
      if s.now < t0 + s.grace ∨ (s.core n).suspended then throw .stall
      if s.abortsInstead n then modify fun s => s.abortTask n
      else modify fun s => s.modCore n fun c => { c with hart := c.hart.setCsrBits 0x344 16 16 1 }

/-! ### Context events (R350, R126) -/

/-- A bit of CTXEV of context `c` becomes 1: interrupt 18 goes to every core that holds a task of the context. -/
def State.contextEvent (s : State) (c layer die : Nat) : State :=
  let a := 0x030001601000 + 8 * c
  if bit (s.reg a).toNat layer then s
  else
    let s := s.setReg a (s.reg a ||| BitVec.ofNat 64 (2 ^ layer))
    let s := s.cores.foldl (fun t e =>
      match e.2.task with
      | some k => if k.ctx = c then t.modCore e.1 fun x => { x with hart := x.hart.setCsrBits 0x344 18 18 1 } else t
      | none => t) s
    s.log 0x0A die 0 [c, layer]

end Sys2Proof.Machine
end

