-- ==== Sys2Proof/Machine/Streams.lean ====
section
/-! DEFINITION. Waypoint (R270 to R274, R281 to R287) and the D side of Traverse (R278 to R280, R285): each event on a stream
record as one operation, in the single order in which steps are taken (R270). -/
namespace Sys2Proof.Machine

/-- Reply codes of the channel: the Traverse codes of R277, and two for a seal and a discard whose outcome is still to
come. -/
def waitLift : Nat := 100
def waitDisc : Nat := 101

/-- Does a reply wait for an event of stream `i`? -/
def TvReply.waits (r : TvReply) (code i : Nat) : Bool := r.code == code && r.idx == i

/-- Replies that wait are given their outcome. -/
def State.tvSettle (s : State) (wait i code st : Nat) : State :=
  let hit := s.tvReply.any fun r => r.waits wait i
  let s := { s with tvReply := s.tvReply.map fun (r : TvReply) => if r.waits wait i then { r with code := code, idx := 0, st := st } else r }
  if hit ∧ code ≠ 0 then let t := s.stream i; s.setStream i { t with lasterr := code, erridx := 0 } else s

/-- A Traverse outcome reaches its command (R277): a nonzero code goes into LASTERR and ERRIDX. That of another package's stream goes
to its home (R286). -/
def State.tvAnswer (s : State) (stream core : Nat) (slot : W32) (code idx : Nat) (gzl : Bool) : State :=
  let s := if code ≤ 11 then s.streamErr stream code idx else s
  if 65536 ≤ stream then s.tellHome stream fun i => .streamReply i idx code
  else if 288 ≤ core then s else
  let r : TvReply := { core := core, slot := slot, code := code, idx := idx, st := (s.stream stream).state, gzl := gzl }
  { s with tvReply := s.tvReply ++ [r] }

/-- Every copy in a cache of a line of a region is written back if dirty and invalidated (R273). -/
def State.dropCopies (s : State) (p : Nat → Bool) : State :=
  (s.flushTags fun t => p (t.addr * 128) || p (t.addr * 128 + 64)).1

/-! ### Cancel (R282, R284) -/

/-- Unpinned tasks of a stream are aborted (R37, R284), on one die or on every die: those that cores hold, and those that are
suspended. -/
def State.abortStream (s : State) (i : Nat) (die : Option Nat) : State :=
  let s := s.cores.foldl (fun t e =>
    match (t.core e.1).task with
    | some k =>
      if k.stream = some i ∧ k.pinned = false ∧ (die = none ∨ die = some (dieOf e.1)) then t.abortTask e.1 else t
    | none => t) s
  s.abortSavedIf fun g x => s.streamOf x == some i && !x.pinned && (die.isNone || die == some g.die)

/-- The free notice, once per admission (R284). -/
def State.giveNotice (s : State) (i : Nat) (grant : Bool) : State :=
  let t := s.stream i
  if t.notice.isSome then s else s.setStream i { t with notice := some grant }

/-- The cancel event (R282, R284): the code it gets, 0 when it is taken. -/
def State.cancelStream (s : State) (i : Nat) : State × Nat :=
  let t := s.stream i
  if t.state = 0 then (s, 1)
  else if t.state = 1 ∨ t.state = 2 then
    (((s.toState i 7).abortStream i none).giveNotice i false, 0)
  else if t.state = 3 then
    let s := (s.toState i 7).abortStream i none
    let t := s.stream i
    (s.setStream i { t with discarding := !t.lost, toPrefill := false }, 0)
  else if t.state = 4 then (s.setStream i { t with deferred := true }, 0)
  else if t.state = 5 then
    (if t.dpkg = s.pkgId then (s.toState i 7).abortStream i (some t.ddie) else (s.toState i 7).send t.dpkg (.abortTasks i), 0)
  else if t.state = 6 then (s, 3)
  else if t.state = 7 then (s, 0)
  else (s, 5)

/-- The key of an event's stream: one of this package's 65,536 (R268), or of another's whose D side it is (R286). -/
def streamNo (i : Nat) : Nat := i % (65536 * 4097)

/-- Cancel complete (R281, R282, R284). -/
def cancelCompleteOp (i : Nat) : M Unit := do
  let s ← get
  let t := s.stream i
  if t.state ≠ 7 ∨ t.live ≠ 0 ∨ (t.discarding ∧ t.lost = false) then throw .stall
  modify fun s =>
    let s := s.toState i 8
    let t := s.stream i
    (s.setStream i { t with fenced := false, discarding := false, lasterr := if t.lost then 11 else t.lasterr }).giveNotice i false

/-- Zeros over the blocks of a stream that received any line (R284): a home that cannot answer holds the discard up, and a block whose
address the region table no longer maps is reported (R8). -/
def zeroBlocks (t : Stream) : List Nat → M Unit
  | [] => pure ()
  | b :: rest => do
    let s ← get
    let pa := s.streamBase t + t.dbase + b * t.blockBytes
    tryCatch (writeRun { who := .hub t.ctx, cached := false, traverse := true } pa (List.replicate t.blockBytes 0)) fun e => match e with
      | .flt f => if f.cause = 7 then throw .stall else logM 0x03 0x0C pa [f.cause, f.detail]
      | _ => throw .stall
    zeroBlocks t rest

/-- DDIE has discarded (R284): zeros over every block index that received any line, the bitmap cleared, NACC 0, and the
acknowledgement; a TV.DISC returns the stream to PREFILL. What was sent before on its channel has arrived. -/
def discardAckOp (i : Nat) : M Unit := do
  let s ← get
  let t := s.stream i
  if t.discarding = false ∨ t.lost = true ∨ s.tvChan.any fun m => m.stream == i then throw .stall
  zeroBlocks t t.received
  modify fun s =>
    let t := s.stream i
    let s := s.setStream i { t with accepted := [], received := [], nacc := 0, discarding := false, toPrefill := false }
    if 65536 ≤ i then (s.setStream i { s.stream i with state := 2 }).tellHome i .discarded
    else if t.state = 7 then (s.giveNotice i false).tvSettle waitDisc i 5 7
    else if t.toPrefill then (s.toState i 2).tvSettle waitDisc i 0 2 else s

/-- The fence lift is acknowledged (R282, R283): DECODE with owner DDIE, the free notice, the seal's outcome; a deferred
cancel is applied on entry to DECODE. -/
def fenceLiftedOp (i : Nat) : M Unit := do
  let s ← get
  let t := s.stream i
  if t.state ≠ 4 then throw .stall
  modify fun s =>
    let s := s.takeInval fun c => s.inStream t (c.line * 64)
    let s := s.toState i 5
    let t := s.stream i
    let s := (s.setStream i { t with fenced := false, deferred := false }).giveNotice i true
    let s := (s.tvSettle waitLift i 0 5).tellHome i .lifted
    if t.deferred then (s.cancelStream i).1 else s

/-- The fabric reports DPKG unreachable (R286): commands waiting on it report c11, and a cancel no longer waits, for its discard or for
its tasks. -/
def State.loseStream (s : State) (i : Nat) : State :=
  let waiting := s.tvChan.filter fun m => m.stream == i
  let t := s.stream i
  let hit := !waiting.isEmpty || t.discarding
  let s := { s with tvChan := s.tvChan.filter fun m => m.stream != i }
  let s := ((waiting.foldl (fun t m => t.tvAnswer i m.core m.slot 11 0 false) s).tvSettle waitLift i 11 t.state).tvSettle
    waitDisc i 11 t.state
  let s := if hit then s.streamErr i 11 0 else s
  let t := s.stream i
  s.setStream i { t with lost := true, live := t.live - t.away, away := 0 }

def peerLostOp (pkg : Nat) : M Unit := do
  let s ← get
  if pkg = s.pkgId ∨ s.reaches pkg then throw .stall
  modify fun s => s.streams.foldl (fun t e => if e.2.dpkg = pkg ∧ e.2.state ≠ 0 then t.loseStream e.1 else t) s

/-- An abandon message from DPKG (R286): a cancel event, with LASTERR 11 where it is taken. -/
def streamAbandonOp (i : Nat) : M Unit := do
  let s ← get
  let t := s.stream i
  if 65536 ≤ i ∨ t.dpkg = s.pkgId ∨ t.state = 0 then throw .stall
  modify fun s =>
    let r := s.cancelStream i
    if r.2 = 0 ∧ t.state ≠ 7 then r.1.streamErr i 11 0 else s

/-! ### The D side (R278, R280, R285) -/

/-- Message `k` of the channels, if no earlier message of its channel is before it (R279). -/
def State.chanHead (s : State) (k : Nat) : Option TvMsg :=
  match s.tvChan[k]? with
  | none => none
  | some m =>
    if (s.tvChan.take k).any fun o => o.pdie == m.pdie && o.stream == m.stream then none else some m

def State.dropMsg (s : State) (k : Nat) : State := { s with tvChan := s.tvChan.eraseIdx k }

/-- Append outliers to the stream's Gazetteer (R89, R278): the answer is whether one was lost. -/
def streamAppend (i : Nat) : List (Nat × Nat) → M Bool
  | [] => pure false
  | (idx, val) :: rest => do
    let s ← get
    let t := s.stream i
    if t.gznext < t.gzcap then
      writeRun { who := .hub t.ctx, cached := false, traverse := true } (s.streamBase t + t.gzbase + 8 * t.gznext)
        (leBytes 4 idx ++ leBytes 4 val)
      modify fun s => let t := s.stream i; s.setStream i { t with gznext := t.gznext + 1 }
      streamAppend i rest
    else
      modify fun s => let t := s.stream i; s.setStream i { t with gzlost := min (t.gzlost + 1) 0xFFFFFFFF }
      let _ ← streamAppend i rest
      pure true

/-- A block arrives (R278, R285): `bad` are its lines that fail, `written` those of the others that had been written when
the block failed. -/
def blockArrivalOp (k : Nat) (bad written : List Nat) : M Unit := do
  let s ← get
  match s.chanHead k with
  | none => throw .stall
  | some m =>
    if m.isSeal then throw .stall
    let t := s.stream m.stream
    let i := m.stream
    modify fun s => s.dropMsg k
    if t.state ≠ 3 ∧ t.state ≠ 7 then modify fun s => s.tvAnswer i m.core m.slot 3 0 false
    else if bad ≠ [] ∧ m.doomed = none then
      let sz := t.blockBytes
      let put := (written.filter fun l => !bad.contains l && decide (l < sz / 64)).eraseDups
      if t.accepted.contains m.idx = false then
        put.forM fun l => writeRun { who := .hub t.ctx, cached := false, traverse := true }
          (s.streamBase t + t.dbase + m.idx * sz + 64 * l) ((m.data.drop (64 * l)).take 64)
      modify fun s =>
        let t := s.stream i
        let s := s.setStream i { t with received := m.idx :: t.received.filter (· != m.idx) }
        let s := { s with tvChan := s.tvChan.map fun (o : TvMsg) =>
          if o.pdie == m.pdie && o.stream == i && o.doomed.isNone then { o with doomed := some m.idx } else o }
        (s.tvAnswer i m.core m.slot (if t.state = 3 then 6 else 5) (if t.state = 3 then m.idx else 0) false).log 0x09 t.ddie 0 [i, m.idx]
    else if t.state = 7 then modify fun s => s.tvAnswer i m.core m.slot 5 0 false
    else match m.doomed with
      | some j => modify fun s => s.tvAnswer i m.core m.slot 6 j false
      | none =>
        if t.accepted.contains m.idx then modify fun s => s.tvAnswer i m.core m.slot 0 0 false
        else
          writeRun { who := .hub t.ctx, cached := false, traverse := true } (s.streamBase t + t.dbase + m.idx * t.blockBytes) m.data
          let lost ← streamAppend i m.outliers
          modify fun s =>
            let t := s.stream i
            let s := s.setStream i { t with accepted := m.idx :: t.accepted, nacc := t.nacc + 1,
                                            received := m.idx :: t.received.filter (· != m.idx) }
            s.tvAnswer i m.core m.slot 0 0 lost

/-- A seal arrives (R280, R282): indices 0 to N − 1 must all be accepted; then the seal request moves the stream to SEALED
and orders the lift. While a discard is ordered no block counts as accepted (log 75). -/
def sealArrivalOp (k : Nat) (bad : Bool) : M Unit := do
  let s ← get
  match s.chanHead k with
  | none => throw .stall
  | some m =>
    if m.isSeal = false then throw .stall
    let i := m.stream
    let t := s.stream i
    modify fun s => s.dropMsg k
    if t.state = 7 then modify fun s => s.tvAnswer i m.core m.slot 5 0 false
    else if t.state ≠ 3 then modify fun s => s.tvAnswer i m.core m.slot 3 0 false
    else match m.doomed with
      | some j => modify fun s => s.tvAnswer i m.core m.slot 6 j false
      | none =>
        if bad then modify fun s => (s.tvAnswer i m.core m.slot 6 0 false).log 0x09 t.ddie 0 [i, m.idx]
        else match (List.range m.idx).find? fun b => t.discarding || !t.accepted.contains b with
          | some b => modify fun s => s.tvAnswer i m.core m.slot 9 b false
          | none =>
            modify fun s =>
              let s := if 65536 ≤ i then s else s.toState i 4
              let t := s.stream i
              let s := s.setStream i { t with nseal := m.idx }
              -- the seal request goes to the Waypoint that holds the stream (R280, R286)
              if 65536 ≤ i then s.tellHome i fun j => .sealPassed j m.idx else s.tvAnswer i m.core m.slot waitLift i false

/-! ### Waypoint requests (R272, R273) -/

def wpStat : Nat := 0x030001400010

/-- The end of a request: BUSY 0 and its result. -/
def State.wpDone (s : State) (res : Nat) : State := s.setReg wpStat (BitVec.ofNat 64 (2 * res))

/-- The request in progress, as read at WPDESC (R273); one that cannot be read is malformed. -/
def wpRequest : M (List Byte) := do
  let s ← get
  if s.fld wpStat 0 0 = 0 then throw .stall
  match ← hubRead 0 (s.fld 0x030001400000 51 6 * 64) 64 with
  | some l => pure l
  | none => pure (List.replicate 64 0)

def wpOp (l : List Byte) : Nat := bits (fieldOf l 0 8) 2 0
def wpStream (l : List Byte) : Nat := bits (fieldOf l 0 8) 31 16

/-- A nonzero bit of word 0 outside its fields, or of a word the request does not use. -/
def wpZeroBad (l : List Byte) (opening : Bool) : Bool :=
  let w := fun i => fieldOf l (8 * i) 8
  bits (w 0) 15 3 != 0 || bits (w 0) 63 32 != 0 || w 6 != 0 || w 7 != 0 ||
  (if opening then
    bits (w 1) 15 0 != 0 || bits (w 1) 63 46 != 0 || bits (w 2) 63 52 != 0 || bits (w 3) 47 13 != 0 ||
    bits (w 3) 63 54 != 0 || bits (w 4) 63 52 != 0 || bits (w 5) 63 32 != 0
   else (List.range 5).any fun i => w (i + 1) != 0)

/-- The record an admission writes (R273). -/
def admitRecord (l : List Byte) (seq : Nat) : Stream :=
  let w := fun i => fieldOf l (8 * i) 8
  { Stream.reset with
    ctx := bits (w 1) 23 16, pdie := bits (w 1) 28 24, ddie := bits (w 1) 33 29, dpkg := bits (w 1) 45 34,
    dbase := bits (w 2) 51 0, nbmax := bits (w 3) 12 0, tc := bits (w 3) 49 48, dhc := bits (w 3) 53 50,
    gzbase := bits (w 4) 51 0, gzcap := bits (w 5) 31 0, seq := seq, fenced := true }

/-- Out of range (R273, RES 3). -/
def Stream.rangeBad (t : Stream) : Bool :=
  decide (3 < t.pdie ∨ t.ddie < 4 ∨ 0x0B < t.ddie ∨ t.nbmax = 0 ∨ 4096 < t.nbmax ∨ t.dbase % 128 ≠ 0 ∨ t.gzbase % 8 ≠ 0 ∨
    2 ^ 39 < t.dbase + t.nbmax * t.blockBytes ∨ 2 ^ 39 < t.gzbase + 8 * t.gzcap)

/-- Two ranges of bytes that meet. -/
def meet (a la b lb : Nat) : Bool := decide (a < b + lb ∧ b < a + la ∧ la ≠ 0 ∧ lb ≠ 0)

/-- Do the regions of two streams overlap (R273, RES 4)? -/
def Stream.clash (t u : Stream) : Bool :=
  t.dpkg == u.dpkg &&
  (let r := fun (x : Stream) => [(x.dbase, x.nbmax * x.blockBytes), (x.gzbase, 8 * x.gzcap)]
   (r t).any fun a => (r u).any fun b => meet a.1 a.2 b.1 b.2)

/-- Must an admission wait before the copies of the lines of a stream's regions can go: for the release of a held write (R385), or for
a new region table (R101)? -/
def State.admitWaits (s : State) (t : Stream) : Bool := s.rtDrain || s.heldW.any fun h => s.inStream t h.pa

/-- Admission, and the answer to a request that names no operation (R273). -/
def waypointAdmitOp : M Unit := do
  let l ← wpRequest
  if wpOp l = 2 ∨ wpOp l = 3 then throw .stall
  let s ← get
  let i := wpStream l
  let t := s.stream i
  let u := admitRecord l t.seq
  if wpOp l ≠ 1 ∨ wpZeroBad l true then modify fun s => s.wpDone 1
  else if t.state ≠ 0 then modify fun s => s.wpDone 2
  else if u.rangeBad then modify fun s => s.wpDone 3
  else if s.streams.any fun e => e.1 != i && e.2.state != 0 && e.2.clash u then modify fun s => s.wpDone 4
  else
    if s.admitWaits u then throw .stall
    modify fun s =>
      let s := s.dropCopies (s.inStream u)
      ((s.setStream i u).toState i 1).wpDone 0

def waypointCancelOp : M Unit := do
  let l ← wpRequest
  if wpOp l ≠ 2 then throw .stall
  if wpZeroBad l false then modify fun s => s.wpDone 1
  else
    modify fun s =>
      let r := s.cancelStream (wpStream l)
      r.1.wpDone (if r.2 = 0 then 0 else 2)

def waypointReleaseOp : M Unit := do
  let l ← wpRequest
  if wpOp l ≠ 3 then throw .stall
  let s ← get
  let i := wpStream l
  let t := s.stream i
  if wpZeroBad l false then modify fun s => s.wpDone 1
  else if t.state ≠ 6 ∧ t.state ≠ 8 then modify fun s => s.wpDone 2
  else
    modify fun s =>
      (s.setStream i { Stream.reset with seq := (t.seq + 1) % 65536, tchg := s.hubDatum }).wpDone 0

/-! ### The fabric's part of a stream (R286, R371) -/

/-- The walker of a die of DPKG asks about a node of a stream (R271, R286): where it may dispatch, LIVE counts a task in that it has
not counted yet. -/
def State.dispatchAsked (s : State) (src i die : Nat) (fresh : Bool) : State :=
  let t := s.stream i
  if t.dpkg ≠ src ∨ t.dpkg = s.pkgId then s.send src (.dispatchSays i 2 fresh)
  else match t.says false (t.ddie == die) with
    | .go =>
      let s := if fresh then s.setStream i { t with live := t.live + 1, away := t.away + 1 } else s
      s.send src (.dispatchSays i 0 fresh)
    | .hold => s.send src (.dispatchSays i 1 fresh)
    | _ => s.send src (.dispatchSays i 2 fresh)

/-- The answer of a stream's Waypoint to this package's walker (R271, R286): it is for the first node that waits for one. A held node is
asked about again. A task let go whose node is no longer there is counted out. -/
def State.dispatchTold (s : State) (src i answer : Nat) (fresh : Bool) : State :=
  let k := guestKey src i
  let waits := fun (x : NodeSt) => x.asked == some (k, .waiting) && (x.phase == .ready) == fresh
  match s.insts.findSome? fun g => (g.nodes.findIdx? waits).map fun j => (g.id, j) with
  | some p =>
    let a := if answer = 0 then some (k, .go) else if answer = 1 then (if fresh then none else some (k, .ask)) else some (k, .drop)
    s.modInst p.1 fun g => g.modNode p.2 fun x => { x with asked := a }
  | none => if answer = 0 ∧ fresh = true then s.decLive (some k) else s

/-- A task of a stream has ended on DPKG: LIVE counts it out (R271, R286). -/
def State.awayEnded (s : State) (src i : Nat) : State :=
  let t := s.stream i
  if t.dpkg = src ∧ 0 < t.away then s.setStream i { t with live := t.live - 1, away := t.away - 1 } else s

/-- The record of a stream of another package whose D side is here, up to its TV.OPEN. -/
def State.guestRecord (s : State) (request : List Byte) : Stream := { admitRecord request 0 with dpkg := s.pkgId, state := 2 }

/-- Another package admits a stream whose D side is here: its regions are fenced, and what caches hold of them goes (R273, R286). -/
def State.guestAdmit (s : State) (key : Nat) (request : List Byte) : State :=
  let u := s.guestRecord request
  if u.rangeBad then s.tellHome key fun i => .streamReply i 0 7
  else (s.dropCopies (s.inStream u)).setStream key u

/-- TV.OPEN of another package's stream: this package's D side reserves its bitmap (R280, R286). -/
def State.guestOpen (s : State) (key : Nat) : State :=
  let t := s.stream key
  if t.state = 2 then s.setStream key { t with state := 3 } else s

/-- A block or a seal of another package's stream joins its channel to the D side here (R279, R286). -/
def State.guestMsg (s : State) (key idx : Nat) (isSeal : Bool) (data : List Byte) (outliers : List (Nat × Nat)) : State :=
  { s with tvChan := s.tvChan ++ [{ pdie := (s.stream key).pdie, stream := key, core := 288, slot := 0, idx := idx, isSeal := isSeal,
                                    data := data, outliers := outliers, doomed := none }] }

/-- An order of the Waypoint that holds a stream: lift the fence once the seal has passed, or discard, as an abandon message of the
stream's home does too (R283, R284, R286, R287). -/
def State.guestOrder (s : State) (key : Nat) (discard : Bool) : State :=
  let t := s.stream key
  if t.state ≠ 3 then s
  else if discard then s.setStream key { t with discarding := true } else s.toState key 4

end Sys2Proof.Machine
end

