-- ==== Sys2Proof/Machine/Spad.lean ====
section
/-! DEFINITION. Scratchpad events: a cycle of arbitration (R131, R134), reconstructed reads (R136), bank retirement and
rebuild (R140, R141, R379), error injection (R143), and the propagation hold (R322, R384, R385). -/
namespace Sys2Proof.Machine

/-- One cycle of a group with no request of a higher step (R131): a rebuild under way keeps the group; otherwise the
oldest stale row is caught up, whether the table is full or the banks are free (R134). -/
def arbitrationOp (n g : Nat) : M Unit := do
  let s ← get
  let x := (s.core n).group g
  if x.mode ≠ 0 ∨ x.stale = [] then throw .stall
  catchUp n g

/-- A direct read of a bank whose line is uncorrectable, by the external port (R136, R137): counted, and delivered by
reconstruction or ended by the reconstruction fault. -/
def reconstructedReadOp (n g b r : Nat) : M Unit := do
  let s ← get
  let c := s.core n
  let bad := Table.get false c.stuck (9 * g + c.physBank g b) || (c.eccWords (bankLine n g r (c.physBank g b))).2 != 0
  if bad = false ∨ g ≥ groupsOf n ∨ b ≥ 8 ∨ r ≥ rowsOf n then throw .stall
  tryCatch (readBankLine n g r b 6) fun e => match e with
    | .stall => throw .stall
    | _ => pure ()

/-- Base of a core's scratchpad block (R139). -/
def spReg (n : Nat) : Nat := 0x030000400000 + 0x1000 * n

/-- A retirement ordered through SPRET (R140, R141): the group rebuilds, or, for the parity bank, degrades at once. -/
def bankRetireOp (n b g : Nat) : M Unit := do
  let s ← get
  let c := s.core n
  if c.rebuild.isSome then modify fun s => s.modCore n fun c => { c with spRes := 3 }
  else if b > 8 ∨ g ≥ groupsOf n then modify fun s => s.modCore n fun c => { c with spRes := 1 }
  else if (c.group g).mode ≠ 0 then modify fun s => s.modCore n fun c => { c with spRes := 2 }
  else if b = 8 then
    modify fun s => (s.modCore n fun c =>
      let c := c.setGroup g { c.group g with mode := 2, fbank := 8, stale := [] }
      { c with spRes := 0, stuck := Table.put false c.stuck (9 * g + 8) false }).log 0x02 (dieOf n) 0 [n, g, 8, 0]
  else
    modify fun s => s.modCore n fun c =>
      let c := c.setGroup g { c.group g with mode := 1 }
      { c with spRes := 0, rebuild := some (b, g) }

/-- Does a bank line read clean or corrected, with no counter changed (R379)? -/
def Core.lineOk (c : Core) (n g r k : Nat) : Bool :=
  !(Table.get false c.stuck (9 * g + k)) && (c.eccWords (bankLine n g r k)).2 == 0

/-- Rebuild one row (R141, R379): the failed bank's line is copied, reconstructed, or written with its poison bit. The
parity bank's lines stand for the retired bank's from then on; a row of the parity bank is fresh. -/
def rebuildRow (n g b r : Nat) (c : Core) : Core :=
  let x := c.group g
  let ok := c.lineOk n g r b ||
    (!x.stale.contains r && ((List.range 9).filter fun k => k != b).all fun k => c.lineOk n g r k)
  let c := (c.clearFlips (bankLine n g r 8)).clearFlips (bankLine n g r b)
  if ok then c
  else
    let c := { c with linePois := Table.put false c.linePois (spOff n g r b / 128) true }
    c.setGroup g { c.group g with lost := min ((c.group g).lost + 1) 0xFFFF }

/-- The banks whose line of a row a rebuild reads: the failed bank's, and where that is bad and the row is not stale the other eight
(R141). -/
def Core.rebuildReads (c : Core) (n g b r : Nat) : List Nat :=
  if c.lineOk n g r b || (c.group g).stale.contains r then [b] else List.range 9

/-- What the reads of a rebuild met (R379): corrected words, bad words, and rows that were reconstructed. -/
def Core.rebuildMet (c : Core) (n g b : Nat) (rows : List Nat) : List Nat :=
  let words := fun (r k : Nat) => if Table.get false c.stuck (9 * g + k) then (0, 1) else c.eccWords (bankLine n g r k)
  let met := rows.flatMap fun r => (c.rebuildReads n g b r).map (words r)
  let mended := rows.filter fun r => c.rebuildReads n g b r != [b] &&
    ((List.range 9).filter fun k => k != b).all fun k => c.lineOk n g r k
  [(met.map (·.1)).sum, (met.map (·.2)).sum, mended.length]

/-- Rows with something to rebuild other than as it stands: any row of a stuck bank, and those with a bad word. -/
def Core.rowsToMend (c : Core) (n g : Nat) : List Nat :=
  (List.range (rowsOf n)).filter fun r =>
    (List.range 9).any fun k => Table.get false c.stuck (9 * g + k) || c.eccWords (bankLine n g r k) != (0, 0)

/-- Perform, in order, what the hub units owe; what must still wait stays owed. -/
def State.payOwed (s : State) : State :=
  s.owed.foldl (fun t o => match o with
    | .bell q => t.ringDoorbell q
    | o => t.hubPost o) { s with owed := [] }

/-- The rebuild is complete (R141, R379), and reported with its lost lines and what its reads met. -/
def rebuildCompleteOp (n : Nat) : M Unit := do
  let s ← get
  match (s.core n).rebuild with
  | none => throw .stall
  | some (b, g) =>
    let c := s.core n
    let rows := c.rowsToMend n g
    modify fun s =>
      let s := s.modCore n fun c =>
        let c := rows.foldl (fun c r => rebuildRow n g b r c) c
        let c := c.setGroup g { c.group g with mode := 2, fbank := b, stale := [] }
        { c with rebuild := none, stuck := Table.put false c.stuck (9 * g + b) false }
      (s.log 0x02 (dieOf n) 0 ([n, g, b, ((s.core n).group g).lost] ++ c.rebuildMet n g b rows)).payOwed

/-! ### Error injection (R143) -/

/-- Are the operands of `err.inj` within their limits? -/
def injectLegal (n x1 x2 : Nat) : Bool :=
  decide (bits x1 3 0 ≤ 8 ∧ bits x1 5 4 < groupsOf n ∧ bits x1 16 6 < rowsOf n ∧ bits x1 63 17 = 0 ∧ bits x2 63 18 = 0) &&
  !(bits x2 1 0 == 2 && bits x2 7 2 == bits x2 13 8)

/-- The injection: an injection aimed at a retired bank has no effect. -/
def Core.inject (c : Core) (n x1 x2 : Nat) : Core :=
  let b := bits x1 3 0
  let g := bits x1 5 4
  let r := bits x1 16 6
  let kind := bits x2 1 0
  let x := c.group g
  if x.mode = 2 ∧ x.fbank = b then c
  else if kind = 0 then { c with stuck := Table.put false c.stuck (9 * g + b) false }
  else if kind = 3 then { c with stuck := Table.put false c.stuck (9 * g + b) true }
  else
    let w := bankLine n g r b * 16 + bits x2 17 14
    let m : W64 := BitVec.ofNat 64 (2 ^ bits x2 7 2) ^^^ (if kind = 2 then BitVec.ofNat 64 (2 ^ bits x2 13 8) else 0)
    { c with flips := Table.put 0 c.flips w (Table.get 0 c.flips w ^^^ m) }

/-! ### The propagation hold (R384, R385) -/

def pholdA : Nat := 0x030001710000

/-- Release one held write: it proceeds to the hub as an ordinary write, or to the swap engine where it moves the page (R125); the
release that made it is no longer held. -/
def State.releaseHeld (s : State) (h : HeldWrite) : State :=
  let w : Who := if h.cls = 0 then .cc h.core else .eng h.core .st
  if s.swapTakes h.pa then s.holdAtSwap w h.no h.pa h.data
  else
    let s := (s.storeLine w true h.pa h.data).coverHome h.no
    (({ s with stamp := s.stamp + 1 } : State).touchHub h.pa h.ctx 0 h.cls true).settleCover

/-- Release every held write, in the order in which they were performed. -/
def State.releaseAllHeld (s : State) : State :=
  s.heldW.foldl (fun t h => ({ t with heldW := t.heldW.tail } : State).releaseHeld h) s

/-- An accepted write of PHOLD (R384): every held write is released first; a CLUSTER above 71 is ignored whole. -/
def State.pholdSet (s : State) (v : W64) : State :=
  if bits v.toNat 38 32 > 71 then s
  else (s.releaseAllHeld.setReg pholdA (v &&& 0xF7FFFFFFFFF#64)).payOwed

/-- The oldest held write is released when CYCLES have passed since it was performed (R385); one that no core of CMASK
made leaves with the line's earlier held writes. -/
def heldReleaseOp : M Unit := do
  let s ← get
  match s.heldW with
  | [] => throw .stall
  | h :: _ =>
    let cyc := s.fld pholdA 31 0
    let due := !h.chosen || (cyc != 0xFFFFFFFF && decide (h.at_ + cyc ≤ s.now))
    if due = false then throw .stall
    modify fun s => (({ s with heldW := s.heldW.tail } : State).releaseHeld h).payOwed

/-- Lines that hold a held write (R384). -/
def State.heldLines (s : State) : Nat := min 0xFFFF ((s.heldW.map fun h => h.pa / 64).eraseDups).length

end Sys2Proof.Machine
end

