-- ==== Sys2Proof/Machine/Hub.lean ====
section
/-! DEFINITION. Hub events: region-table commits (R100, R101), the hub split (R114, R115), flushes (R116, R117), the
predictor (R121), the swap engine (R124, R125), layers (R126, R127), package-wide translation invalidation (R359), and
the rebase of logical times (R320). -/
namespace Sys2Proof.Machine

/-! ### Region table -/

def rtStat : Nat := 0x030000101008

/-- A field of an entry out of range (R100, RES 1). -/
def RtEnt.rangeBad (e : RtEnt) : Bool :=
  e.valid &&
  decide (e.smask = 0 ∨ 18 < e.gran ∨ e.size = 0 ∨ 512 < e.base + e.size ∨
    e.size * 2 ^ 30 % (e.stacks.length * (4096 <<< e.gran)) ≠ 0 ∨
    64 * 2 ^ 30 < e.stkoff * 4096 + e.size * 2 ^ 30 / e.stacks.length)

def RtEnt.overlaps (a b : RtEnt) : Bool :=
  a.valid && b.valid && decide (a.base < b.base + b.size ∧ b.base < a.base + a.size)

def RtEnt.stackClash (a b : RtEnt) : Bool :=
  a.valid && b.valid && a.stacks.any b.stacks.contains &&
  decide (a.stkoff * 4096 < b.stkoff * 4096 + b.size * 2 ^ 30 / b.stacks.length ∧
          b.stkoff * 4096 < a.stkoff * 4096 + a.size * 2 ^ 30 / a.stacks.length)

/-- The result of validating the staged table: RES and the first entry that fails, in ascending order (R100). Of two entries that
clash that is the lower; the fields of an entry that is not valid are not looked at (log 71). -/
def State.rtCheck (s : State) : Nat × Nat :=
  let es := (List.range 64).map s.rtStaged
  let bad := es.zipIdx.findSome? fun p =>
    let e := p.1
    let others := es.zipIdx.filter fun q => q.2 != p.2
    if e.valid = false then none
    else if e.rangeBad then some (1, p.2)
    else if others.any fun q => q.1.overlaps e then some (2, p.2)
    else if others.any fun q => q.1.stackClash e then some (3, p.2)
    else if e.rplen then
      match es[e.rplidx]? with
      | some t => if e.rplidx = p.2 ∨ t.valid = false ∨ t.size ≠ e.size ∨ t.rplen then some (4, p.2) else none
      | none => some (4, p.2)
    else none
  bad.getD (0, 0)

/-- COMMIT (R100, R101): validate, and start the drain that holds new DRAM-space requests. -/
def regionTableCommitOp : M Unit := do
  let s ← get
  if s.rtDrain then modify fun s => s.setFld rtStat 18 16 5
  else
    let r := s.rtCheck
    modify fun s => ((s.setFld rtStat 18 16 r.1).setFld rtStat 29 24 r.2).log 0x05 0x0C 0 [1, r.1, r.2]
    if r.1 = 0 then modify fun s => { s with rtDrain := true }

/-- The staged table becomes the active one. -/
def State.rtSwitch (s : State) : State :=
  (List.range 64).foldl (fun t n =>
    (t.setReg (0x030000100800 + 32 * n) (s.reg (0x030000100000 + 32 * n))).setReg
      (0x030000100808 + 32 * n) (s.reg (0x030000100008 + 32 * n))) s

/-- What the caches hold under a new table `t` (R101): a dirty line will be written back to where the table now maps it, and to its
new mirror (R99), so what it holds stands there; a clean one that the table moves is dropped (log 72). -/
def State.remapLines (s t : State) : State :=
  let tags := (s.hubTags ++ s.ccTags).filterMap fun e => e.2.bind fun g => if g.staged.isNone then some g else none
  let moved := fun (a : Nat) => s.key (a * 128) != t.key (a * 128)
  let dirty := ((tags.filter (·.dirty)).map (·.addr)).eraseDups
  let lines := dirty.flatMap fun a => [a * 128, a * 128 + 64]
  let u := lines.foldl (fun (u : State) pa =>
    let put := fun (u : State) (k : Nat) =>
      { u with mem := Memory.writeList u.mem k (Memory.readList s.mem (s.key pa) 64)
               lines := Table.put LineMeta.good u.lines (k / 64) (s.lineMeta pa) }
    let u := if t.isDram pa && s.key pa != t.key pa then put u (t.key pa) else u
    if t.mirror pa = s.mirror pa then u
    else match t.mirror pa with
      | some p => put u (dramKey p)
      | none => u) t
  u.dropTags fun g => moved g.addr && !dirty.contains g.addr

/-- The drain is done (R101): the staged table becomes the active one, under the next version. -/
def regionTableDrainOp : M Unit := do
  let s ← get
  if s.rtDrain = false then throw .stall
  modify fun s =>
    let s := s.remapLines s.rtSwitch
    ({ s.setFld rtStat 15 8 (s.fld rtStat 15 8 + 1) with rtDrain := false } : State).payOwed

/-! ### Hub split and CLEAN bits (R115, R117) -/

/-- Is a way CLEAN: on every layer? -/
def State.clean (s : State) (w : Nat) : Bool := (List.range 4).all fun l => !(Table.get false s.dirtyWays (wayPart w l))

def splitWays (v : Nat) : List Nat := span (bits v 11 8) (bits v 3 0)

/-- Is a task of context `c` dispatched or suspended? -/
def State.ctxBusy (s : State) (c : Nat) : Bool :=
  s.cores.any (fun e => match e.2.task with
    | some t => t.ctx == c
    | none => false) ||
  s.insts.any fun g => g.ctx == c && g.nodes.any fun x => x.kind == 1 && (x.phase == .suspended || x.phase == .running)

/-- The result of a HUBSPLIT write and the way that caused RES 3. -/
def State.splitCheck (s : State) (c v : Nat) : Nat × Nat :=
  let spw := bits v 3 0
  let wb := bits v 11 8
  let old := splitWays (s.reg (0x030000200000 + 8 * c)).toNat
  let new := splitWays v
  if 12 < spw ∨ 12 < wb + spw ∨ (spw = 0 ∧ wb ≠ 0) then (1, 0)
  else if (List.range 256).any fun d => d != c && new.any fun w => s.holdsWay d w then (2, 0)
  else
    match (List.range 16).find? fun w => (old.contains w != new.contains w) && !s.clean w with
    | some w => (3, w)
    | none => if s.ctxBusy c then (4, 0) else (0, 0)

/-- A write to HUBSPLIT (R115): checked, reported, and in any case every frozen way thaws (R117). -/
def State.hubSplit (s : State) (c : Nat) (v : W64) : State :=
  let r := s.splitCheck c v.toNat
  let s := { s with frozenWays := [] }
  let s := s.setReg 0x030000200800 (BitVec.ofNat 64 (r.1 + c * 256 + r.2 * 65536))
  if r.1 = 0 then s.setReg (0x030000200000 + 8 * c) (v &&& 0xF0F#64) else s

/-! ### Flushes (R116, R117) -/

def hfStat : Nat := 0x030000201018

/-- Start a flush: ignored with RES 3 while one is in progress. -/
def State.flushStart (s : State) (mode res count : Nat) : State :=
  { s.setReg hfStat 1#64 with flush := some { mode := mode, a := 0, b := 0, res := res, count := count } }

def State.flushRefused (s : State) (res : Nat) : State := s.setReg hfStat (BitVec.ofNat 64 (2 * res))

/-- Does every byte from `lo` up to `hi`, in the package's DRAM space, lie in a region? Regions are whole GiB (R97). -/
def State.inRegions (s : State) (lo hi : Nat) : Bool :=
  (span (lo / 2 ^ 30) ((hi + 2 ^ 30 - 1) / 2 ^ 30 - lo / 2 ^ 30)).all fun g => (s.rtFind (g * 2 ^ 30)).isSome

/-- Is a range ill-formed (R116), or does it reach the hub window, MMIO or a hole (R117)? A range of the
remote space may reach the package's own DRAM under its remote addresses (R95). -/
def State.rangeBad (s : State) (base len : Nat) : Bool :=
  let fin := base + len
  let own := 2 ^ 51 + s.pkgId * 2 ^ 39
  decide (base % 128 ≠ 0 ∨ len = 0 ∨ len % 128 ≠ 0) ||
  !(if fin ≤ 2 ^ 39 then s.inRegions base fin
    else if 2 ^ 51 ≤ base ∧ fin ≤ 2 ^ 52 then
      if own < fin ∧ base < own + 2 ^ 39 then s.inRegions (max base own - own) (min fin (own + 2 ^ 39) - own) else true
    else
      let n := (base - spBase 0) / 0x1000000
      decide (2 ^ 50 ≤ base ∧ fin ≤ 2 ^ 50 + 2 ^ 48) || decide (spBase 0 ≤ base ∧ n < 288 ∧ fin ≤ spBase n + spSize n))

/-- Does a range of physical addresses hold an address, given under its local name (R95)? -/
def State.inRange (s : State) (base len pa : Nat) : Bool :=
  decide (base ≤ pa ∧ pa < base + len) ||
  (decide (pa < 2 ^ 39) && decide (base ≤ 2 ^ 51 + s.pkgId * 2 ^ 39 + pa ∧ 2 ^ 51 + s.pkgId * 2 ^ 39 + pa < base + len))

/-- Does a flush wait: for the release of a held write whose line it reaches (R385), or, since its write-backs are requests, for a
new region table (R101)? `reach` says where it meets the copies of a line of 128 bytes. -/
def State.flushWaits (s : State) (reach : Nat → Bool) : Bool := s.rtDrain || s.heldW.any fun h => reach (h.pa / 128)

/-- Is a line of 128 bytes in the hub or a cluster cache, under a tag that a test picks? -/
def State.tagged (s : State) (p : CTag → Bool) (addr : Nat) : Bool :=
  (s.hubTags ++ s.ccTags).any fun e => match e.2 with
    | some t => t.addr == addr && t.staged.isNone && p t
    | none => false

/-- Range flush. -/
def hubFlushRangeOp (base len : Nat) : M Unit := do
  let s ← get
  if s.flush.isSome then modify fun s => s.setFld hfStat 3 1 3
  else if s.rangeBad base len then modify fun s => s.flushRefused 2
  else
    if s.flushWaits fun a => s.inRange base len (a * 128) then throw .stall
    modify fun s =>
      let r := s.flushTags fun t => s.inRange base len (t.addr * 128)
      r.1.flushStart 0 (if r.2.2 = 0 then 0 else 1) r.2.1

/-- A staged line leaves its way for another one that R119 gives, or for its owner's spill area (R117, R122). A task that is
suspended may hold no spilled line (R345): it is aborted (log 66). -/
def State.moveStaged (s : State) (owner : Nat) (t : CTag) : State :=
  let pa := t.addr * 128 + t.half * 64
  if 288 ≤ owner ∧ (Table.get none s.savedSets (owner - 288)).isNone then s else
  match victim (s.overLimit t.ctx none) t.ctx (s.hubCand pa) with
  | some way => s.hubAlloc pa way t
  | none =>
    if owner < 288 then
      (s.modCore owner fun c => { c with staging := c.staging.spillTo (pa / 64) (s.spillFree owner) }).spillPut owner pa
        ((span pa 64).map fun a => (s.stagedByte (s.core owner).staging a).getD (s.homeByte a))
    else s.abortSaved (owner - 288)

/-- Way flush: the ways are frozen, their lines leave, scratchpad contents are overwritten with zeros and fresh checks, and
at completion each way is CLEAN. -/
def hubFlushWaysOp (first last : Nat) : M Unit := do
  let s ← get
  if s.flush.isSome then modify fun s => s.setFld hfStat 3 1 3
  else if last < first then modify fun s => s.flushRefused 2
  else
    let ways := span first (last + 1 - first)
    let inW := fun (k : Nat) => ways.contains (k / 8192 % 16)
    if s.flushWaits fun a => s.hubTags.any fun e => inW e.1 && e.2.any fun t => t.staged.isNone && t.addr == a then throw .stall
    modify fun s =>
      let s := { s with frozenWays := ways.foldl (fun t w => Table.put false t w true) s.frozenWays }
      let dirty := (s.hubTags.filter fun e => inW e.1).filterMap fun e => e.2.bind fun t =>
        if t.dirty && t.staged.isNone then some t else none
      let left := (dirty.map (·.addr)).filter fun a => (s.downWrite 0 (a * 128)).isSome
      let done := dirty.filter fun t => !left.contains t.addr
      let s := done.foldl State.writeBackLine s
      let moved := (s.hubTags.filter fun e => inW e.1).filterMap fun e => e.2.bind fun t => t.staged.map fun n => (n, t)
      let s := { s with hubTags := s.hubTags.filter fun e => !(inW e.1) || (match e.2 with
        | some t => t.staged.isNone && left.contains t.addr
        | none => false) }
      let s := moved.foldl (fun t m => t.moveStaged m.1 m.2) s
      let isWay := fun (pa : Nat) => decide (0x010000000000 ≤ pa ∧ pa < 0x010040000000) &&
        ways.contains (bits (pa - 0x010000000000) 29 26)
      let s := { s with mem := Table.dropWhere isWay s.mem, lines := Table.dropWhere (fun l => isWay (l * 64)) s.lines }
      let s := s.flushStart 1 (if left = [] then 0 else 1) done.length
      { s with flush := s.flush.map fun f => { f with a := first, b := last } }

/-- Context flush. A staged line is not one that the context owns in its caches: it stays (log 38). -/
def hubFlushContextOp (c : Nat) : M Unit := do
  let s ← get
  if s.flush.isSome then modify fun s => s.setFld hfStat 3 1 3
  else
    if s.flushWaits (s.tagged fun t => t.ctx == c) then throw .stall
    modify fun s =>
      let r := s.flushTags fun t => t.ctx == c
      r.1.flushStart 2 (if r.2.2 = 0 then 0 else 1) r.2.1

/-- Thaw: every frozen way at once. -/
def hubThawOp : M Unit := do
  let s ← get
  if s.flush.isSome then modify fun s => s.setFld hfStat 3 1 3
  else modify fun s => { s.setReg hfStat 0 with frozenWays := [] }

/-- Way `w` part by part as a way flush leaves it: CLEAN, but where a line whose home cannot answer stays in it (R111, R117,
log 73). -/
def State.cleanWay (s : State) (w : Nat) : State :=
  { s with dirtyWays := Table.dropWhere (fun k => k / 4 == w && !(s.hubTags.any fun e =>
      e.2.isSome && e.1 / 8192 % 16 == w && e.1 / 8192 / 16 / 16 == k % 4)) s.dirtyWays }

/-- A flush is done: BUSY 0, RES and COUNT; flushed ways are CLEAN. -/
def hubFlushDoneOp : M Unit := do
  let s ← get
  match s.flush with
  | none => throw .stall
  | some f =>
    modify fun s =>
      let s := (s.setReg hfStat (BitVec.ofNat 64 (2 * f.res + f.count % 2 ^ 32 * 2 ^ 32))).log 0x05 0x0C 0 [2, f.res, f.count]
      let s := if f.mode = 1 then (span f.a (f.b + 1 - f.a)).foldl State.cleanWay s else s
      { s with flush := none }

/-! ### The swap engine (R124, R125) -/

def swStat : Nat := 0x030000230010

/-- A job ends: its result in the descriptor and SWSTAT, reported to the management core. -/
def swapEnd (desc ctx res lines : Nat) : M Unit := do
  tryCatch (write64 (hubReq ctx) (desc + 24) (res + lines * 2 ^ 32)) fun e => match e with
    | .flt f => modify fun s => s.hubReport f
    | e => throw e
  modify fun s => ({ s.setReg swStat (BitVec.ofNat 64 (2 * res)) with swap := none } : State).log 0x05 0x0C desc [res, lines]

/-- Copy lines of 128 bytes, from number `i` on: how far it came, and the cause of the fault, reported, that ended it (R8, R124,
R125). -/
def swapLines (io : Nat → M Unit) : Nat → Nat → M (Nat × Option Nat)
  | 0, i => pure (i, none)
  | k + 1, i => do
    let r ← tryCatch (do io i; pure none) fun e => match e with
      | .flt f => do
        modify fun s => s.hubReport f
        pure (some f.cause)
      | e => throw e
    match r with
    | none => swapLines io k (i + 1)
    | some c => pure (i, some c)

/-- The 16 PTEs of a job: valid leaves with one NAPOT 64 KiB PPN (R125). -/
def pteNapot (p : Nat) : Bool :=
  bit p 0 && bit p 63 && (bit p 1 || bit p 3) && !(bit p 2 && !bit p 1) && bits p 13 10 == 8

/-- A swap job up to its copy (R125): validation, then the page as it stands; from here on writes to the source page are
held. What a descriptor that cannot be read or is ill-formed, or a poisoned source line, comes to, the model chooses
(log 70). -/
def swapJobOp : M Unit := do
  let s ← get
  if s.fld swStat 0 0 = 0 ∨ s.swap.isSome then throw .stall
  let desc := s.fld 0x030000230000 51 5 * 32
  match ← hubRead 0 desc 32 with
  | none => swapEnd desc 0 1 0
  | some d =>
    let ptepa := bits (fieldOf d 0 8) 51 0
    let dst := bits (fieldOf d 8 8) 51 16 * 65536
    let home := bits (fieldOf d 16 8) 1 0
    let ctx := bits (fieldOf d 16 8) 15 8
    let ptes ← hubRead ctx ptepa 128
    let s ← get
    let ps := (List.range 16).map fun i => fieldOf (ptes.getD []) (8 * i) 8
    let p0 := ps.getD 0 0
    let zero := fieldOf d 0 8 != bits (fieldOf d 0 8) 51 0 || fieldOf d 8 8 != dst || fieldOf d 16 8 != home + ctx * 256
    let src := s.norm (bits p0 53 14 * 65536)
    if ptes.isNone ∨ zero = true ∨ ptepa % 128 ≠ 0 ∨ ps.all pteNapot = false ∨ ps.any (fun p => bits p 53 10 != bits p0 53 10) then
      swapEnd desc ctx 1 0
    else if s.homeLegal home dst = false ∨ s.loc dst = .bad ∨
        (home = homeHubpin ∧ s.down ctx dst = some 3) then swapEnd desc ctx 2 0
    else if s.homes.any fun r => r.overlaps dst 65536 then swapEnd desc ctx 3 0
    else
      let r ← swapLines (fun i => do let _ ← readRun (hubReq ctx) (src + 128 * i) 128) 512 0
      match r.2 with
      | some c => swapEnd desc ctx (if c = 7 then 5 else 4) r.1
      | none =>
        let s ← get
        let data := (span src 65536).map s.homeByte
        let j : SwapSt := { desc := desc, src := src, dst := dst, home := home, ctx := ctx, ptepa := ptepa, res := 0,
                            lines := 512, data := data, held := [] }
        modify fun s => { s with swap := some j }

/-- The writes that the swap engine held are performed in arrival order, each at the address that `dest` gives; one that meets a fault
is reported (R8, R125). -/
def swapRelease (j : SwapSt) (dest : Nat → Nat) : M Unit := do
  j.held.forM fun h => do
    tryCatch (writeRun (hubReq j.ctx) (dest h.pa) h.data) fun e => match e with
      | .flt f => modify fun s => s.hubReport f
      | e => throw e
    modify fun s => s.coverHome h.no
  modify fun s => s.takeWrites (.hub j.ctx)

/-- Is a write through an entry of the source page outstanding that has not reached the hub: a queued store, or a held one of a
cluster (R125, R359)? -/
def State.swapWaits (s : State) (j : SwapSt) : Bool :=
  let onPage := fun (pa : Nat) => pa / 65536 == j.src / 65536
  s.cores.any (fun e => e.2.sq.any fun q => onPage q.pa) || s.heldW.any fun h => onPage h.pa

/-- A staging area whose lines follow a page that is moved. -/
def Staging.move (g : Staging) (dest : Nat → Nat) : Staging :=
  { g with bytes := g.bytes.foldl (fun t e => Table.put none t (dest e.1) e.2) []
           lines := g.lines.foldl (fun t e => Table.put none t (dest (e.1 * 64) / 64) e.2) [] }

/-- What the package keeps by the address of a page and has yet to perform or to compare follows the page that is moved (R125): staged
output, posted arrivals, the words of releases, the times of `.sc` operations; the staged lines' tags, where the hub has a way for
them, move too. No die reads an old copy of the page any more. -/
def State.movePage (s : State) (src dst : Nat) : State :=
  let on := fun (pa : Nat) => decide (pa / 65536 = src / 65536)
  let dest := fun (pa : Nat) => if on pa then dst + pa % 65536 else pa
  let s := s.takeInval fun c => on (c.line * 64)
  let tags := s.hubTags.filterMap fun e => e.2.bind fun t => t.staged.bind fun o => if on (t.addr * 128) then some (o, t) else none
  let s : State := { s with
    cores := s.cores.map fun e => (e.1, { e.2 with staging := e.2.staging.move dest })
    savedSets := s.savedSets.map fun e => (e.1, e.2.map fun g => g.move dest)
    posted := s.posted.map fun p => { p with pa := dest p.pa }
    relCov := s.relCov.map fun r => { r with word := dest (r.word * 8) / 8 }
    scLines := s.scLines.foldl (fun t e => Table.put ScTimes.zero t (dest (e.1 * 64) / 64) e.2) []
    hubTags := s.hubTags.filter fun e => match e.2 with
      | some t => t.staged.isNone || !on (t.addr * 128)
      | none => true }
  tags.foldl (fun t m => t.moveStaged m.1 { m.2 with addr := dest (m.2.addr * 128) / 128 }) s

/-- The remap commits (R125): the copy stands at DST, the PTEs name it, every TLB entry of the source page is gone, the
held writes are performed at DST in arrival order, all of it at package scope, and the job reports. It waits for the writes through
those entries to reach the hub. A store of the copy, or a PTE, that faults ends the job with RES 5 and the held writes at the source
(log 70). -/
def swapRemapOp : M Unit := do
  let s ← get
  match s.swap with
  | none => throw .stall
  | some j =>
    if s.swapWaits j then throw .stall
    let back : Nat → Nat → M Unit := fun res lines => do
      modify fun s => { s with swap := none }
      swapRelease j id
      swapEnd j.desc j.ctx res lines
    let r ← swapLines (fun i => writeRun (hubReq j.ctx) (j.dst + 128 * i) ((j.data.drop (128 * i)).take 128)) 512 0
    if r.2.isSome then back 5 r.1
    else
      let fix := fun (p : Nat) => setBits (setBits p 53 10 (j.dst / 4096 + 8)) 9 8 j.home
      let p ← swapLines (fun _ => do
        let ptes ← readRun (hubReq j.ctx) j.ptepa 128
        writeRun (hubReq j.ctx) j.ptepa ((List.range 16).flatMap fun i => leBytes 8 (fix (fieldOf ptes (8 * i) 8)))) 1 0
      if p.2.isSome then back 5 j.lines
      else
        modify fun s => { s with swap := none }
        modify fun s => s.dropEverywhere fun e => decide (e.pbase < j.src + 65536 ∧ j.src < e.pbase + e.size)
        modify fun s => s.movePage j.src j.dst
        swapRelease j fun pa => j.dst + pa % 65536
        swapEnd j.desc j.ctx 0 j.lines

/-! ### Layers (R126, R127) -/

def hlStat : Nat := 0x030000240000

/-- The layer of a hub tag. -/
def tagLayer (k : Nat) : Nat := k / 8192 / 16 / 16

/-- A layer trips (R126): it takes no new work; staged lines on it are discarded and their owners aborted; scratchpad
contents on it are lost; contexts that hold ways get the context event. -/
def layerTripOp (l : Nat) : M Unit := do
  let s ← get
  if s.layerDown l then throw .stall
  modify fun s =>
    let s := { s with layerTrip := Table.put none s.layerTrip l (some s.datum9) }
    let s := s.setReg hlStat ((s.reg hlStat &&& ~~~(BitVec.ofNat 64 (2 ^ l))) ||| BitVec.ofNat 64 (2 ^ (4 + l)))
    let owners := (s.hubTags.filterMap fun e => if tagLayer e.1 == l then e.2.bind (·.staged) else none).eraseDups
    let s := owners.foldl (fun t o => if o < 288 then t.abortTask o else t.abortSaved (o - 288)) s
    let isL := fun (pa : Nat) => decide (0x010000000000 ≤ pa ∧ pa < 0x010040000000) && bits pa 12 7 / 16 == l
    let s := { s with mem := Table.dropWhere isL s.mem, lines := Table.dropWhere (fun k => isL (k * 64)) s.lines }
    let s := (List.range 256).foldl (fun t c =>
      if bits (t.reg (0x030000200000 + 8 * c)).toNat 3 0 ≠ 0 then t.contextEvent c l 0x0C else t) s
    s.log 0x06 0x0C 0 [l]

/-- Insert a tag into a list that is sorted by the time at which its lines became dirty. -/
def insertDirty (t : CTag) : List CTag → List CTag
  | [] => [t]
  | u :: r => if t.dirtyAt ≤ u.dirtyAt then t :: u :: r else u :: insertDirty t r

/-- The dirty lines of a bank, oldest-dirtied first. -/
def State.bankDirty (s : State) (bank : Nat) : List CTag :=
  (s.hubTags.filterMap fun e => e.2.bind fun t =>
    if e.1 / 8192 / 16 = bank ∧ t.dirty = true ∧ t.staged = none then some t else none).foldl (fun l t => insertDirty t l) []

/-- How far the drain of a bank has come by the deadline: the lines whose home answers leave oldest-dirtied first (R126),
and how many the 50 µs allow is left open: a free choice each time (log 2). The answer is the lines that are left. -/
def drainBank : List CTag → M (List Nat)
  | [] => pure []
  | t :: r => do
    let s ← get
    if s.canWriteBack (t.addr * 128) = false then do pure (t.addr :: (← drainBank r))
    else if (← freshBool) then do
      modify fun s => s.writeBackLine t
      drainBank r
    else pure (t.addr :: r.map (·.addr))

/-- 50 µs after the trip (R126): in each bank the lines that have not drained are poisoned, the first 4,096 logged and of the
others each 1 MiB region poisoned whole, and the layer is powered off. -/
def layerDeadlineOp (l : Nat) : M Unit := do
  let s ← get
  match Table.get none s.layerTrip l with
  | none => throw .stall
  | some t0 =>
    if s.datum9 < t0 + 450000 then throw .stall
    let left ← (span (16 * l) 16).mapM fun b => drainBank (s.bankDirty b)
    left.flatten.zipIdx.forM fun p => modify fun s =>
      let s := (s.poisonAt (p.1 * 128)).poisonAt (p.1 * 128 + 64)
      if p.2 < 4096 then s.log 0x06 0x0C (p.1 * 128) [l]
      else (span (p.1 * 128 / 1048576 * 16384) 16384).foldl (fun t k => t.poisonAt (k * 64)) s
    modify fun s => { s with layerTrip := Table.put none s.layerTrip l none
                             layerOff := Table.put false s.layerOff l true
                             hubTags := s.hubTags.filter fun e => tagLayer e.1 != l }

/-- START (R127): a layer comes up empty, unless its TRIP bit is set or it is above its trip temperature, which no register
shows: a free choice (log 2). Every way of it is CLEAN. A layer that is up or still drains stays as it is (log 92). -/
def State.layerStart (s : State) (mask : Nat) : State :=
  let hot := Config.freeWord s.freeNo
  (List.range 4).foldl (fun t l =>
    if bit mask l && Table.get false t.layerOff l && !(bit (t.reg hlStat).toNat (4 + l)) && !(bit hot.toNat l) then
      let t' := { t with layerOff := Table.put false t.layerOff l false, dirtyWays := Table.dropWhere (fun k => k % 4 == l) t.dirtyWays }
      t'.setReg hlStat (t'.reg hlStat ||| BitVec.ofNat 64 (2 ^ l))
    else t) { s with freeNo := s.freeNo + 1 }

/-! ### Package-wide invalidation (R359) -/

def tlbStat : Nat := 0x030001600010

/-- GO of an invalidation: every matching entry of every level leaves, and the home directory's counts with it; ignored
with RES 1 while one is in progress. -/
def tlbInvalOp (i : TlbInv) : M Unit := do
  let s ← get
  if s.tlbInv.isSome then modify fun s => s.setFld tlbStat 2 1 1
  else
    modify fun s =>
      let l := (s.cores.flatMap fun e => e.2.hart.tlb ++ e.2.etlb) ++ s.dieTlb.flatMap (·.2)
      let i := { i with gone := ((l.filter i.matches).map fun e => (e.pbase, e.size)).eraseDups }
      let s := s.dropEverywhere i.matches
      { s.setReg tlbStat 1#64 with tlbInv := some i }

/-- Is an access outstanding that was made through a removed entry: a queued store, a write that PHOLD or the swap engine holds, or a
posted arrival in its range (R359)? -/
def State.invalWaits (s : State) (i : TlbInv) : Bool :=
  let through := fun (pa : Nat) => i.gone.any fun r => decide (r.1 ≤ pa ∧ pa < r.1 + r.2)
  s.cores.any (fun e => e.2.sq.any fun q => through q.pa) || s.heldW.any (fun h => through h.pa) ||
    (s.swap.any fun j => j.held.any fun h => through h.pa) || s.posted.any fun p => through p.pa

/-- Every level has acknowledged and every access through a removed entry is performed (R359). -/
def tlbInvalDoneOp : M Unit := do
  let s ← get
  match s.tlbInv with
  | none => throw .stall
  | some i =>
    if s.invalWaits i then throw .stall
    modify fun s =>
      let s := s.dropEverywhere i.matches
      { s.setReg tlbStat 0 with tlbInv := none }

/-! ### Rebase (R320) -/

/-- The rebase: the epoch counts on, every core clock is 0; stored times of an older epoch read as 0. -/
def State.rebase (s : State) : State :=
  { s with epoch := (s.epoch + 1) % 2 ^ 32, cores := s.cores.map fun e => (e.1, { e.2 with clk := 0 }) }

/-- The times of a line, an older epoch's reading as 0 (R320). -/
def State.scTimes (s : State) (pa : Nat) : ScTimes :=
  let t := Table.get ScTimes.zero s.scLines (s.norm pa / 64)
  if t.epoch = s.epoch then t else { wts := 0, rts := 0, epoch := s.epoch }

/-- The key of a `.sc` operation (R319): it takes its time, and the line and the core's clock keep it. A time that would
pass 2^47 waits for the rebase (R320). -/
def scStep (n pa : Nat) (write : Bool) : M Unit := do
  let s ← get
  let t := s.scTimes pa
  let clk := (s.core n).clk
  let x := if write then max clk (max t.wts t.rts) + 1 else max (clk + 1) (t.wts + 1)
  if 2 ^ 47 < x then throw .stall
  let t' : ScTimes := if write then { wts := x, rts := x, epoch := s.epoch } else { t with rts := max t.rts x }
  modify fun s => { s with scLines := Table.put ScTimes.zero s.scLines (s.norm pa / 64) t' }
  modify fun s => s.modCore n fun c => { c with clk := x }

/-- A rebase comes when some logical time stands at its limit. -/
def scRebaseOp : M Unit := do
  let s ← get
  let hit := s.cores.any (fun e => decide (2 ^ 47 ≤ e.2.clk)) ||
    s.scLines.any fun e => e.2.epoch == s.epoch && decide (2 ^ 47 ≤ max e.2.wts e.2.rts)
  if hit = false then throw .stall
  modify State.rebase

end Sys2Proof.Machine
end

