-- ==== Sys2Proof/Machine/Edge.lean ====
section
/-! DEFINITION. The edge of the package and its management: reset and firmware (R365), functions (R360, R366, R367), the
fabric (R368 to R372), Ethernet (R373), the timing port (R333), O-dies (R389 to R392), sensors and throttles (R396,
R397), the error log and Survey (R398 to R400), and the mailbox (R378). -/
namespace Sys2Proof.Machine

/-! ### Reset and firmware (R365) -/

def fwCtl : Nat := 0x030001800018

def State.fwState (s : State) : Nat := s.fld fwCtl 10 8

/-- What package reset leaves of a core: the words and bits of its banks that differ from their check, or stand poisoned or stuck. -/
def Core.afterReset (c : Core) : Core := { Core.reset with flips := c.flips, linePois := c.linePois, stuck := c.stuck }

/-- Package reset: every register at its reset value, every hart held in reset. What memory and scratchpads hold stays, with its check
state (log 15). -/
def State.packageReset (s : State) : State :=
  { State.reset with agenda := s.agenda, freeNo := s.freeNo, focus := s.focus, ilen := s.ilen, mem := s.mem, lines := s.lines,
                     cores := s.cores.foldl (fun t e => Table.put Core.reset t e.1 e.2.afterReset) [] }

/-- The image as the check of GO reads it, line by line with verification (R106); none where a line cannot be read. -/
def fwImage (len : Nat) : M (Option (List Byte)) := hubTry (readRun { who := .hub 0, cached := false } 0 len)

/-- GO of FWCTL: the image is checked and the management core starts at DRAM-space 0 in M-mode. An image that cannot be read gives
no CRC that could match (log 78). -/
def firmwareGoOp : M Unit := do
  let s ← get
  if s.fwState = 1 then pure ()
  else
    let len := s.fld 0x030001800008 26 0
    if len = 0 ∨ 2 ^ 26 < len ∨ len % 64 ≠ 0 then modify fun s => s.setFld fwCtl 10 8 3
    else
      let img ← fwImage len
      if img.all (fun l => crc32c l != s.fld 0x030001800010 31 0) then modify fun s => s.setFld fwCtl 10 8 2
      else modify fun s => { s.setFld fwCtl 10 8 1 with mgmt := { s.mgmt with run := .run, priv := .m, pc := 0 } }

/-- The firmware releases the cores of a compute die from reset: they are idle (R365, R343). -/
def coreResetReleaseOp (d : Nat) : M Unit := do
  let s ← get
  if s.fwState ≠ 1 ∨ isCompute d = false ∨ s.inReset d = false then throw .stall
  modify fun s => (coresOf d).foldl (fun t n => t.modCore n fun c => { c with hart := { c.hart with run := .idle } })
    { s with coreReset := Table.put true s.coreReset d false }

/-! ### Homes that go and come (R110) -/

def State.setCtrl (s : State) (d : Nat) (down : Bool) : State := { s with ctrlDown := Table.put false s.ctrlDown d down }

/-! ### Virtual functions (R360, R366, R367) -/

def qfn (q : Nat) : Nat := 0x030001820000 + 8 * q
def ctxfn (c : Nat) : Nat := 0x030001810000 + 8 * c
def vfrst (f : Nat) : Nat := 0x030001830000 + 8 * f

def State.queueFn (s : State) (q : Nat) : Nat := s.fld (qfn q) 6 0
def State.ctxFn (s : State) (c : Nat) : Nat := s.fld (ctxfn c) 6 0

/-- A doorbell of VFn acts as SCHDB for a queue of its own, outside a reset (R362, R367). -/
def State.vfDoorbell (s : State) (f q : Nat) : State :=
  if s.queueFn q = f ∧ f ≠ 0 ∧ s.fld (vfrst f) 0 0 = 0 then s.ringDoorbell q else s

/-- Step 1 of R360: slots revoked, packets not yet taken completed with STATUS 6, the function's instances revoked. -/
def State.flrQueues (s : State) (f : Nat) : State :=
  let s := { s with qslots := s.qslots.filter fun e => match e.2 with
    | some b => s.queueFn b.queue != f
    | none => false }
  let qs := (s.widx.map (·.1) ++ s.qwait.map (·.1)).eraseDups.filter fun q => s.queueFn q == f
  let s := qs.foldl (fun t q =>
    match queueEnt q t with
    | none => t
    | some e =>
      let t := (span e.ridx (min ((e.widx + 2 ^ 32 - e.ridx) % 2 ^ 32) (2 ^ e.rlog))).foldl (fun t k =>
        match t.hubLook (hubRead 0 (e.rbase + 64 * (k % 2 ^ e.rlog)) 64) with
        | (t, some p) => t.packetStatus p 6 0
        | (t, none) => t) t
      let t := t.hubPost (.put 0 (t.qEntry q + 20) (leBytes 4 e.widx))
      { t with qwait := Table.put none t.qwait q none, widx := Table.put 0 t.widx q e.widx }) s
  { s with insts := s.insts.map fun g => if s.ctxFn g.ctx = f then { g with revoked := true } else g }

/-- Step 2: the cancel event, in ascending stream number; an abandon message to the other package of a stream, be it the D side of one
of this package's streams or the home of one whose D side this package is (R286, R287). -/
def State.flrStreams (s : State) (f : Nat) : State :=
  s.streams.foldl (fun t e =>
    if t.ctxFn e.2.ctx = f ∧ e.2.state ≠ 0 then
      if 65536 ≤ e.1 then t.tellHome e.1 .streamAbandon
      else
        let t := (t.cancelStream e.1).1
        if e.2.dpkg ≠ t.pkgId then t.send e.2.dpkg (.homeAbandon e.1) else t
    else t) s

/-- Is a pinned task of the function still held up, by a command that runs to its end or by a store in its core's queue (R356,
R367)? -/
def State.flrBusy (s : State) (f : Nat) : Bool :=
  s.cores.any fun e => match e.2.task with
    | some t => s.ctxFn t.ctx == f && t.pinned && (e.2.mustEnd || !e.2.sq.isEmpty)
    | none => false

/-- Step 3: unpinned tasks aborted, pinned ones stopped as KILL stops them once nothing holds them up, and contexts asked to resume
given up with the suspended ones. -/
def State.flrTasks (s : State) (f : Nat) : State :=
  s.cores.foldl (fun t e =>
    let c := t.core e.1
    match c.task with
    | some k =>
      if t.ctxFn k.ctx ≠ f ∨ (k.pinned = true ∧ (c.mustEnd = true ∨ c.sq ≠ [])) then t
      else if k.pinned then t.endTask e.1 4 else t.abortTask e.1
    | none => if (t.resumed e.1).any fun r => t.ctxFn r.1.ctx == f then t.endResume e.1 .dropped else t) s

/-- The members of collective entry `n`; a list that cannot be read is reported and names none (R8, R372). -/
def State.collMembers (s : State) (n : Nat) : State × List Nat :=
  let a := 0x030001840000 + 32 * n
  let r := s.hubLook (hubRead 0 (s.fld (a + 24) 51 0) (2 * s.fld a 27 16))
  (r.1, (r.2.map (u16s (s.fld a 27 16))).getD [])

/-- An abandon message of package `pkg` (R372): every valid entry that names it gets status 2 and its barrier word flips. -/
def State.abandonFrom (s : State) (pkg : Nat) : State :=
  (List.range 64).foldl (fun t n =>
    let a := 0x030001840000 + 32 * n
    if t.fld a 7 7 = 1 then
      let r := t.collMembers n
      if r.2.contains pkg then
        r.1.hubPost (.collective (t.fld (a + 16) 51 0) (t.fld (a + 8) 51 0) (2 + pkg % 4096 * 65536))
      else r.1
    else t) s

/-- Step 4: an abandon message to every package that a valid entry of the function names, this one too (R372); one to each (log 82). -/
def State.flrCollectives (s : State) (f : Nat) : State :=
  let r := (List.range 64).foldl (fun (r : State × List Nat) n =>
    let a := 0x030001840000 + 32 * n
    if r.1.fld a 7 7 = 1 ∧ r.1.fld a 6 0 = f then
      let m := r.1.collMembers n
      (m.1, r.2 ++ m.2)
    else r) (s, [])
  r.2.eraseDups.foldl (fun t p => if p = t.pkgId then t.abandonFrom p else t.send p .abandon) r.1

/-- Is a status word still to be performed: owed by a hub unit, or held by the swap engine (R125, R360)? -/
def State.wordsOwed (s : State) : Bool :=
  s.owed.any (fun o => match o with
    | .word _ _ _ => true
    | _ => false) || s.swap.any fun j => j.held.any fun h => h.core.isNone

/-- A Function Level Reset of VFf (R360, R367). While a direct store of one of its tasks is under way, and while a status word has still
to be performed, BUSY stays 1, and the event takes the reset on from there. -/
def flrOp (f : Nat) : M Unit := do
  if f = 0 ∨ 64 < f then throw .stall
  let s ← get
  if s.rtDrain then throw .stall
  if s.flr.contains f = false ∧ s.flrLast.contains f = false then
    modify fun s => ({ s.setFld (vfrst f) 0 0 1 with flr := s.flr ++ [f] } : State)
    modify fun s => (s.flrQueues f).flrStreams f
  let s ← get
  if s.flr.contains f then
    modify fun s => s.flrTasks f
    modify fun s =>
      if s.flrBusy f then s
      else
        let s := s.flrCollectives f
        let s := (s.insts.filter (·.revoked)).foldl (fun t g => t.settle g.id) s
        { s with flr := s.flr.filter (· != f), flrLast := s.flrLast ++ [f] }
  modify fun s =>
    if s.flrLast.contains f = false ∨ s.wordsOwed = true then s
    else
      let s := { s with flrLast := s.flrLast.filter (· != f) }
      (s.setFld (vfrst f) 0 0 0).setFld (vfrst f) 31 16 (s.fld (vfrst f) 31 16 + 1) |>.mapAll

/-! ### Barriers (R297, R298) -/

/-- A posted arrival is performed at the home, and the chain of the releases that it read goes on through it (R298, R317): a malformed
word writes a record into the issuing core's queue. One whose home cannot answer, or whose page the swap engine moves, waits; another
fault is reported, and nothing is written (log 90). -/
def postedArrivalOp (i : Nat) : M Unit := do
  let s ← get
  match s.posted[i]? with
  | none => throw .stall
  | some p =>
    -- it never overtakes an earlier write or arrival of its core (R298, R330)
    if (s.posted.take i).any (fun o => o.core == p.core) ∨ s.swapTakes p.pa = true then throw .stall
    let q := { hubReq (s.recCtx p.core).1 with told := true }
    tryCatch (do
      let w ← read64 q p.pa
      match arriveWord w with
      | some r => do
        let s ← get
        write64 q p.pa r.1
        modify fun t => (t.chain none p.pa (s.releasesRead none p.pa)).noteRelease p.core p.scope p.pa p.cov
        match s.loc p.pa with
        | .remote k => modify fun t => t.send k (.arrive (bits p.pa 38 0))
        | _ => pure ()
      | none =>
        modify fun s => s.writeRec p.core (s.stampRec p.core { cause := 23, eng := 15, vav := true, va := p.va, aux := w })) fun e =>
      match e with
      | .flt f => if f.cause = 7 ∧ f.detail ≠ 8 then throw .stall else modify fun s => s.hubReport f
      | e => throw e
    modify fun s => { s with posted := s.posted.eraseIdx i }

/-! ### The fabric (R369 to R372) -/

def State.link (s : State) (l : Nat) : Link := Table.get Link.reset s.links l

def State.setLink (s : State) (l : Nat) (k : Link) : State := { s with links := Table.put Link.reset s.links l k }

/-! A flit (R369): its header, its acknowledged sequence number and its check. -/

def crc64Bits : Nat → Nat → Nat
  | 0, c => c
  | k + 1, c => crc64Bits k (if 2 ^ 63 ≤ c then (2 * c % 2 ^ 64) ^^^ 0x42F0E1EBA9EA3693 else 2 * c)

/-- CRC-64/ECMA of bytes in ascending order: the polynomial of ECMA-182, from 0, most significant bit first (log 83). -/
def crc64 (l : List Byte) : Nat := l.foldl (fun c b => crc64Bits 8 (c ^^^ (b.toNat * 2 ^ 56))) 0

def flitDest (f : List Byte) : Nat := bits (fieldOf f 0 8) 11 0
def flitSource (f : List Byte) : Nat := bits (fieldOf f 0 8) 27 16
def flitClass (f : List Byte) : Nat := bits (fieldOf f 0 8) 33 32
def flitSeq (f : List Byte) : Nat := bits (fieldOf f 0 8) 63 40

/-- Is a flit whole and its check good? -/
def flitOk (f : List Byte) : Bool := f.length == 256 && crc64 (f.take 248) == fieldOf f 248 8

/-- What one message from package `src` does (R370 to R372). Answers are taken by the unit that asked, which is no part of this
package's state (log 82). -/
def State.fabricMsg (src : Nat) (s : State) : FabMsg → State
  | .read tag off len => s.hubPost (.answer src (.read tag off len))
  | .rmw tag off r => s.hubPost (.answer src (.rmw tag off r))
  | .dispatchAsk i die fresh => s.dispatchAsked src (i % 65536) die fresh
  | .dispatchSays i answer fresh => s.dispatchTold src i answer fresh
  | .abortTasks i => s.abortStream (guestKey src i) none
  | .write off data => if off + data.length ≤ 2 ^ 39 then s.hubPost (.put 0 off data) else s
  | .arrive off => if off % 8 = 0 ∧ off < 2 ^ 39 then s.hubPost (.arrive off) else s
  | .abandon => s.abandonFrom src
  | .streamAbandon i => if (s.stream (i % 65536)).dpkg = src then (streamAbandonOp (i % 65536)).exec s else s
  | .homeAbandon i => s.guestOrder (guestKey src i) true
  | .taskEnded i => s.awayEnded src (i % 65536)
  | .streamAdmit i request => s.guestAdmit (guestKey src i) request
  | .streamOpen i => s.guestOpen (guestKey src i)
  | .streamBlock i idx data outliers => s.guestMsg (guestKey src i) idx false data outliers
  | .streamSeal i n => s.guestMsg (guestKey src i) n true [] []
  | .streamLift i => s.guestOrder (guestKey src i) false
  | .streamDiscard i => s.guestOrder (guestKey src i) true
  | .streamClose i => s.setStream (guestKey src i) Stream.reset
  | .data _ _ | .failed _ _ | .streamReply _ _ _ | .sealPassed _ _ | .lifted _ | .discarded _ => s

/-- Must a message wait before it can be performed: an abandon message for a new region table, under which the lists of the collectives
are read (R101), an admission as at home (`State.admitWaits`)? -/
def State.msgWaits (s : State) : FabMsg → Bool
  | .abandon => s.rtDrain
  | .streamAdmit _ request => s.admitWaits (s.guestRecord request)
  | _ => false

/-- A flit arrives on an open link (R369): one that fails its check is counted and will be replayed; one out of sequence is a
replay already taken. The messages of a good one that is for this package are performed in order, those of its class (R370). More
messages than its slots hold there are not. -/
def flitReceiveOp (l : Nat) (flit : List Byte) (msgs : List FabMsg) : M Unit := do
  let s ← get
  let k := s.link l
  if k.up = false ∨ 8 ≤ k.fails ∨ slotsHold msgs = false then throw .stall
  if flitOk flit = false then modify fun s => s.setLink l { k with fails := k.fails + 1 }
  else if flitSeq flit ≠ k.seq then modify fun s => s.setLink l { k with fails := 0 }
  else
    let mine := msgs.filter fun m => m.cls == flitClass flit
    if flitDest flit = s.pkgId ∧ mine.any s.msgWaits = true then throw .stall
    modify fun s =>
      let k := { k with fails := 0, seq := (k.seq + 1) % 2 ^ 24, credits := fieldOf flit 8 8, acked := fieldOf flit 240 8 }
      let s := s.setLink l k
      if flitDest flit ≠ s.pkgId then s
      else mine.foldl (State.fabricMsg (flitSource flit)) s

/-- After 8 consecutive failures the link is down, and the event is logged (R8, R369). -/
def linkDownOp (l : Nat) : M Unit := do
  let s ← get
  let k := s.link l
  if k.up = false ∨ k.fails < 8 then throw .stall
  modify fun s => (s.setLink l { k with up := false, fails := 0 }).log 0x07 0x0C 0 [1, l]

/-- The management core opens a link that is down (R369, R365). -/
def linkOpenOp (l pkg : Nat) : M Unit := do
  let s ← get
  if s.fwState ≠ 1 ∨ (s.link l).up then throw .stall
  modify fun s => s.setLink l { up := true, fails := 0, pkg := pkg % 4096, seq := 0 }

/-! ### Ethernet (R373) -/

def State.port (s : State) (p : Nat) : EthPort := Table.get EthPort.reset s.eth p

def State.setPort (s : State) (p : Nat) (e : EthPort) : State := { s with eth := Table.put EthPort.reset s.eth p e }

/-- Read the descriptor at place `k` of a ring; it must be owned by the device. -/
def ethDesc (base size k : Nat) : M (Nat × List Byte) := do
  if size = 0 then throw .stall
  let a := base + 16 * (k % size)
  let d ← readRun (hubReq 0) a 16
  if bit (fieldOf d 10 1) 0 = false then throw .stall
  pure (a, d)

/-- A frame of at most 9,216 bytes leaves: OWN is cleared as a release at pkg scope after the bytes are read. At a descriptor of another
length the port stays (log 93). The frame has its Datum time. -/
def frameTransmitOp (p : Nat) : M Unit := do
  if 8 ≤ p then throw .stall
  let s ← get
  let e := s.port p
  let (a, d) ← ethDesc e.txBase e.txSize e.txNext
  if fieldOf d 8 2 = 0 ∨ 9216 < fieldOf d 8 2 then throw .stall
  let data ← readRun (hubReq 0) (fieldOf d 0 8) (fieldOf d 8 2)
  writeRun (hubReq 0) (a + 10) [BitVec.ofNat 8 (fieldOf d 10 1 - 1)]
  modify fun s => s.setPort p { s.port p with txNext := e.txNext + 1, sent := e.sent ++ [data], stamps := e.stamps ++ [s.hubDatum] }

/-- A frame of at most 9,216 bytes arrives: its bytes, its length, then OWN cleared as a release at pkg scope. The frame has its Datum
time. -/
def frameReceiveOp (p : Nat) (data : List Byte) : M Unit := do
  let s ← get
  let e := s.port p
  if 9216 < data.length ∨ data = [] ∨ 8 ≤ p then throw .stall
  let (a, d) ← ethDesc e.rxBase e.rxSize e.rxNext
  writeRun (hubReq 0) (fieldOf d 0 8) data
  modify fun s => s.takeWrites (.hub 0)
  writeRun (hubReq 0) (a + 8) (leBytes 2 data.length ++ [BitVec.ofNat 8 (fieldOf d 10 1 - 1)])
  modify fun s => s.setPort p { s.port p with rxNext := e.rxNext + 1, stamps := e.stamps ++ [s.hubDatum] }

/-- The timing port locks, or disciplines the hub again (R333): Datum time takes the grandmaster's, a backward step by slewing. -/
def timingLockOp (ns : Nat) : M Unit := do
  modify fun s =>
    if s.datum9 ≤ 9 * ns then { s with locked := true, datum9 := 9 * ns, slew9 := 0 }
    else { s with locked := true, slew9 := s.datum9 - 9 * ns }

/-! ### O-dies (R389 to R392) -/

def oBase (o : Nat) : Nat := 0x030002000000 + 0x40000 * o

/-- The drive of a ring's heater DAC (R390). -/
def dacKey (o n : Nat) : Nat := o * 640 + n

def State.replaying (s : State) (o : Nat) : Bool := s.fld (oBase o) 0 0 == 1

/-- A write of LMAP(f) (R391): refused whole, with ERR, when a ring exceeds 4 or two are equal. -/
def State.laneMap (s : State) (o f : Nat) (v : W64) : State :=
  let a := oBase o + 0x400 + 8 * f
  let r := [bits v.toNat 2 0, bits v.toNat 6 4, bits v.toNat 10 8, bits v.toNat 14 12]
  if r.any (fun x => decide (4 < x)) ∨ ¬ r.Nodup then s.setFld a 31 31 1
  else s.setReg a (v &&& 0x7777#64)

/-- A write of RHTR(n) (R390, R392): the DAC follows at once, unless the O-die is in replay mode. -/
def State.heater (s : State) (o n : Nat) (v : W64) : State :=
  let s := s.setReg (oBase o + 0x1000 + 8 * n) (v &&& 0xFFF#64)
  if s.replaying o then s else { s with dac := Table.put 0 s.dac (dacKey o n) (bits v.toNat 11 0) }

/-- A write of RPCTL (R392): EN = 1 sets IDX to 0 and freezes the DACs, EN = 0 drives every DAC to its RHTR. -/
def State.replayControl (s : State) (o : Nat) (v : W64) : State :=
  let a := oBase o
  let exh := s.fld a 48 48 = 1 ∧ bit v.toNat 48 = false
  let idx := if bit v.toNat 0 then 0 else s.fld a 47 32
  let s := s.setReg a (BitVec.ofNat 64 (bits v.toNat 0 0 + bits v.toNat 31 16 * 2 ^ 16 + idx * 2 ^ 32
    + (if exh then 2 ^ 48 else 0)))
  if bit v.toNat 0 then s
  else { s with dac := (List.range 640).foldl (fun t n =>
      Table.put 0 t (dacKey o n) (s.fld (oBase o + 0x1000 + 8 * n) 11 0)) s.dac }

/-- A read of a monitor in replay mode (R392): a failed fetch is the read's own fault and leaves IDX. -/
def monitorReplay (o : Nat) : M W64 := do
  let s ← get
  let a := oBase o
  let idx := s.fld a 47 32
  if s.fld a 31 16 ≤ idx then
    modify fun s => s.setFld a 48 48 1
    pure 0
  else
    let e ← readRun (hubReq 0) (s.fld (a + 8) 51 1 * 2 + 2 * idx) 2
    modify fun s => s.setFld a 47 32 (idx + 1)
    pure (BitVec.ofNat 64 (leNat e % 4096 + 4096))

/-- A monitor ADC converts (R390). -/
def monitorConversionOp (o n sample : Nat) : M Unit := do
  let s ← get
  if 4 ≤ o ∨ 640 ≤ n ∨ s.replaying o then throw .stall
  modify fun s => s.setReg (oBase o + 0x3000 + 8 * n) (BitVec.ofNat 64 (sample % 4096 + 4096))

/-- A write of LSRUN (R389): the lane service core starts at PC with a0 = ARG, goes on, or is held in reset. -/
def State.laneRun (s : State) (o : Nat) (v : W64) : State :=
  let a := oBase o + 0x20
  if bit v.toNat 0 then
    if s.fld a 0 0 = 1 then s
    else
      let h := { Hart.reset with run := .run, pc := s.reg (oBase o + 0x10) &&& 0xFFFFFFFFFFFFE#64,
                                 x := Table.put 0 [] 10 (s.reg (oBase o + 0x18)) }
      { s.setReg a 1#64 with lanes := Table.put Hart.reset s.lanes o h }
  else { s.setReg a 0 with lanes := Table.put Hart.reset s.lanes o Hart.reset }

/-! ### Sensors and throttles (R396, R397) -/

def mgBase : Nat := 0x030001720000

/-- TEMP(d) changes: a rise from below HI to HI or above sets the die's TAST bit while EN = 1. -/
def State.setTemp (s : State) (d temp : Nat) : State :=
  let old := s.fld (mgBase + 8 * d) 11 0
  let hi := s.fld (mgBase + 0x200 + 8 * d) 11 0
  let en := s.fld (mgBase + 0x200 + 8 * d) 12 12
  let s := s.setFld (mgBase + 8 * d) 11 0 temp
  if old < hi ∧ hi ≤ temp ∧ en = 1 then s.setReg (mgBase + 0x300) (s.reg (mgBase + 0x300) ||| BitVec.ofNat 64 (2 ^ d)) else s

/-- A die number of the sensors: 0 to 19, of which 13 to 15 are reserved (R10, R396). -/
def sensorDie (d : Nat) : Bool := decide (d < 13) || (decide (16 ≤ d) && decide (d < 20))

/-- TEMP(d) as TSTEST has it (R396): IVAL under INJ, else what the sensor keeps. -/
def State.feelTemp (s : State) (d : Nat) : State :=
  let t := mgBase + 0x100 + 8 * d
  s.setTemp d (if s.fld t 12 12 = 1 then s.fld t 11 0 else Table.get 0 s.sens d)

/-- A sensor converts (R396): under HOLD it keeps the value that TEMP had when HOLD was set. -/
def temperatureOp (d temp : Nat) : M Unit := do
  if sensorDie d = false then throw .stall
  modify fun s =>
    let s := if s.fld (mgBase + 0x100 + 8 * d) 13 13 = 1 then s else { s with sens := Table.put 0 s.sens d (temp % 4096) }
    s.feelTemp d |>.setFld (mgBase + 8 * d) 12 12 1

/-- A write of TSTEST(d): TEMP and the alert logic follow at once. -/
def State.tstest (s : State) (d : Nat) (v : W64) : State :=
  if sensorDie d = false then s else
  let t := mgBase + 0x100 + 8 * d
  let s := if bit v.toNat 13 && s.fld t 13 13 == 0 then
      { s with sens := Table.put 0 s.sens d (s.fld (mgBase + 8 * d) 11 0) } else s
  (s.setReg t (v &&& 0x3FFF#64)).feelTemp d

/-- The GATE of a die takes effect at a multiple of 8 of the common count (R397); every such cycle does so for every die
(`State.cycle`). -/
def gateApplyOp (d : Nat) : M Unit := do
  let s ← get
  if s.now % 8 ≠ 0 ∨ isCompute d = false then throw .stall
  modify fun s => { s with gate := Table.put 0 s.gate d (s.fld (mgBase + 0x400 + 8 * d) 2 0) }

/-- Is die `d` stalled in this control cycle (R397)? -/
def State.gated (s : State) (d : Nat) : Bool := decide (s.now % 8 < Table.get 0 s.gate d)

/-! ### Log and Survey (R398, R399) -/

/-- ELPUSH: a software entry. -/
def State.pushLog (s : State) : State :=
  s.logRaw (s.reg (mgBase + 0x620)) (s.reg (mgBase + 0x628)) (s.reg (mgBase + 0x630))

def svCtl : Nat := 0x030001720700
def svStat : Nat := 0x030001720710

/-- REARM: TRIG and SRC are 0; the banks keep their values. -/
def State.surveyRearm (s : State) : State := s.setFld svStat 4 0 0

/-- The TIME source fires when the hub's Datum time first reaches TIME while it is armed; every cycle looks (`State.cycle`). -/
def surveyTimeOp : M Unit := do
  let s ← get
  if s.timeDue = false then throw .stall
  modify State.timeFire

/-! ### Mailbox (R378) -/

def mbReq (n : Nat) : Nat := 0x030001700000 + 16 * n
def mbRsp (n : Nat) : Nat := 0x030001700008 + 16 * n

/-- A request of core `n`: taken only while DONE = 1; it clears DONE and waits for the management core. -/
def State.mailRequest (s : State) (n : Nat) (v : W64) : State :=
  if s.fld (mbRsp n) 0 0 = 1 then
    { (s.setReg (mbReq n) (v &&& 0xFFFFFFFF01FF3FFF#64)).setFld (mbRsp n) 0 0 0 with mbox := s.mbox ++ [n] }
  else s

/-- The management core's write of MBRSP: RES, TAG and DONE as written; DONE = 1 answers the request. -/
def State.mailAnswer (s : State) (n : Nat) (v : W64) : State :=
  let s := s.setReg (mbRsp n) (v &&& 0xFFFFFFFF0000000F#64)
  if bit v.toNat 0 then { s with mbox := s.mbox.filter (· != n) }
  else { s with mbox := if s.mbox.contains n then s.mbox else s.mbox ++ [n] }

end Sys2Proof.Machine
end

