-- ==== Sys2Proof/Machine/Mmio.lean ====
section
/-! DEFINITION. The MMIO space (R404): what each register reads as and what a write of it does, by requester (R3, R4, R362,
R366), and the host's accesses (R361 to R363). An MMIO address that no rule names reads 0 and ignores writes
(log 16). -/
namespace Sys2Proof.Machine

/-- Does a requester belong to PF0 (R366)? -/
def State.isPf0 (s : State) (w : Who) : Bool := s.fnOf w == some 0

/-- The writable bits of the registers that only hold what is written (R3), by offset from 0x0300_0000_0000. -/
def plainMask (o : Nat) : Option Nat :=
  if 0x100000 ≤ o ∧ o < 0x100800 then
    if o % 32 = 0 then some 0x03FF01FF00FF1FFF else if o % 32 = 8 then some 0xFFFFFF000 else some 0
  else if o = 0x201008 then some 0xFFFFFFFFFFFFF
  else if o = 0x201010 then some 0xFFFFFFFFFFFF
  else if o = 0x202000 then some 0xFFFFFFC00000
  else if 0x220000 ≤ o ∧ o < 0x220800 then some 0xFFFFFF
  else if 0x300000 ≤ o ∧ o < 0x348000 ∧ o % 0x1000 < 0x800 then some 0xFFFFFF
  else if o = 0x230000 then some 0xFFFFFFFFFFFE0
  else if o = 0x1400000 then some 0xFFFFFFFFFFFC0
  else if o = 0x1500000 then some 0xFFFFFFFFFF000
  else if o = 0x1500010 then some 0xFFFFFFFFFFFFFF
  else if o = 0x1600000 then some 0xFFFFFFFFF000
  else if o = 0x1800008 then some 0x7FFFFFF
  else if o = 0x1800010 then some 0xFFFFFFFF
  else if 0x1840000 ≤ o ∧ o < 0x1840800 then
    if o % 32 = 0 then some 0xFFF00FF else some 0xFFFFFFFFFFFFF
  else none

/-- Registers of the management block that only hold what is written (R396, R398). -/
def mgMask (o : Nat) : Option Nat :=
  if 0x200 ≤ o ∧ o < 0x2A0 then (if sensorDie ((o - 0x200) / 8) then some 0x1FFF else none)
  else if 0x400 ≤ o ∧ o < 0x460 then some 0x7
  else if o = 0x608 then some 0xFF
  else if o = 0x610 then some 0xFFFFFFFF
  else if o = 0x620 ∨ o = 0x628 ∨ o = 0x630 then some (2 ^ 64 - 1)
  else none

/-- SPECC and SPGRP of a core (R139). -/
def State.specc (s : State) (n k : Nat) : Nat :=
  let c := s.core n
  let x := c.group (k / 9)
  Table.get 0 c.ce k + (Table.get 0 c.ue k <<< 16) + (b2n (Table.get false c.stuck k) <<< 32)
    + (b2n (x.mode == 2 && x.fbank == k % 9) <<< 33)

def State.spgrp (s : State) (n g : Nat) : Nat :=
  let x := (s.core n).group g
  x.mode + (x.fbank <<< 2) + (x.stale.length <<< 6) + (x.lost <<< 16)

/-- A host-port register of R364, which PF0 BAR0 and the management core reach and no other requester does (log 78). -/
def hostPort (w : Who) (o : Nat) : Bool := decide (0x1800000 ≤ o ∧ o ≤ 0x1800020) && w != .host && w != .mgmt

/-- Does a register stand in a compute die that is held in reset (R365): among the bank registers of a core, or the occupancy of a
cluster? Its block cannot answer (R110, log 58). -/
def State.blockInReset (s : State) (o : Nat) : Bool :=
  if 0x300000 ≤ o ∧ o < 0x348000 then s.inReset (dieOf (4 * ((o - 0x300000) / 0x1000)))
  else if 0x400000 ≤ o ∧ o < 0x400000 + 0x1000 * 288 then s.inReset (dieOf ((o - 0x400000) / 0x1000))
  else false

/-- What an MMIO register reads as. -/
def mmioRead (w : Who) (a : Nat) : M W64 := do
  let s ← get
  let o := a - 0x030000000000
  let raw := s.reg a
  if s.blockInReset o then flt 7 6 0 a
  if o = 0x101000 ∨ hostPort w o = true then pure 0
  else if o = 0x101008 then pure (raw ||| BitVec.ofNat 64 (b2n s.rtDrain))
  else if o = 0x201000 then pure (raw &&& 0xFFFF06#64)
  else if 0x210000 ≤ o ∧ o < 0x211000 then
    pure (BitVec.ofNat 64 (leNat ((span (o - 0x210000) 8).map fun i => BitVec.ofNat 8 (Table.get 0 s.dbp i))))
  else if 0x220000 ≤ o ∧ o < 0x220800 then
    pure (raw ||| BitVec.ofNat 64 ((s.occCount ((o - 0x220000) / 8) none % 2 ^ 24) <<< 24))
  else if 0x300000 ≤ o ∧ o < 0x348000 ∧ o % 0x1000 < 0x800 then
    pure (raw ||| BitVec.ofNat 64 ((s.occCount (o % 0x1000 / 8) (some ((o - 0x300000) / 0x1000)) % 2 ^ 24) <<< 24))
  else if 0x400000 ≤ o ∧ o < 0x400000 + 0x1000 * 288 then
    let n := (o - 0x400000) / 0x1000
    let p := o % 0x1000
    if p < 8 * 9 * groupsOf n then pure (BitVec.ofNat 64 (s.specc n (p / 8)))
    else if 0x200 ≤ p ∧ p < 0x200 + 8 * groupsOf n then pure (BitVec.ofNat 64 (s.spgrp n ((p - 0x200) / 8)))
    else if p = 0x308 then pure (BitVec.ofNat 64 (b2n (s.core n).rebuild.isSome + 2 * (s.core n).spRes))
    else pure 0
  else if 0x1000000 ≤ o ∧ o < 0x1400000 then
    pure (BitVec.ofNat 64 ((s.stream ((o - 0x1000000) / 64)).word (o % 64 / 8)))
  else if 0x1510000 ≤ o ∧ o < 0x1510000 + 0x200 * 12 then
    match Table.get none s.qslots (slotKey ((o - 0x1510000) / 0x200) (o % 0x200 / 8)) with
    | some b => pure (BitVec.ofNat 64 (b.queue + 4096 + ((queueEnt b.queue s).map (·.qprio)).getD 0 * 8192))
    | none => pure 0
  else if 0x1700000 ≤ o ∧ o < 0x1700000 + 16 * 288 then
    if o % 16 = 8 then pure raw else pure (if w = .mgmt then raw else 0)
  else if o = 0x1710000 then pure (raw ||| BitVec.ofNat 64 (s.heldLines <<< 48))
  else if o = 0x1720600 then pure (BitVec.ofNat 64 s.logHead)
  else if o = 0x1720640 then pure 0
  else if 0x1760000 ≤ o ∧ o < 0x1760000 + 0x200 * 288 then
    let i := o % 0x200 / 8
    pure (if i ≤ 10 then Table.get 0 (s.core ((o - 0x1760000) / 0x200)).snap i else 0)
  else if 0x2000000 ≤ o ∧ o < 0x2100000 then
    let d := (o - 0x2000000) / 0x40000
    let p := o % 0x40000
    if 0x3000 ≤ p ∧ p < 0x3000 + 8 * 640 ∧ s.replaying d then monitorReplay d else pure raw
  else pure raw

/-- The swap engine's, Waypoint's and the flush controls' GO bits. -/
def mmioGo (a : Nat) (v : W64) : M Unit := do
  let s ← get
  let o := a - 0x030000000000
  let go := bit v.toNat 0
  if o = 0x201000 then
    modify fun s => s.setReg a (v &&& 0xFFFF06#64)
    if go then
      let m := bits v.toNat 2 1
      if m = 0 then hubFlushRangeOp (s.fld 0x030000201008 51 0) (s.fld 0x030000201010 47 0)
      else if m = 1 then hubFlushWaysOp (bits v.toNat 11 8) (bits v.toNat 15 12)
      else if m = 2 then hubFlushContextOp (bits v.toNat 23 16)
      else hubThawOp
  else if o = 0x230008 then
    if go ∧ s.fld swStat 0 0 = 0 then modify fun s => s.setFld swStat 0 0 1
  else if o = 0x1400008 then
    if go then modify fun s => if s.fld wpStat 0 0 = 1 then s.setFld wpStat 3 1 5 else s.setFld wpStat 0 0 1
  else if o = 0x1600008 then
    modify fun s => s.setReg a (v &&& 0xFFFFFF0006#64)
    if go then tlbInvalOp { mode := bits v.toNat 2 1, vpn := s.fld 0x030001600000 47 12, asid := bits v.toNat 31 16,
                            ctx := bits v.toNat 39 32 }

/-- A write of SVCTL (R399): ARM and FCLASS are stored, then REARM, then the management trigger. -/
def State.surveyControl (s : State) (v : W64) : State :=
  let rising := bit v.toNat 3 && !(bit (s.reg svCtl).toNat 3)
  let s := { s.setReg svCtl (v &&& 0xFF1E#64) with timeFired := if rising then false else s.timeFired }
  let s := if bit v.toNat 16 then s.surveyRearm else s
  if bit v.toNat 0 then s.surveyFire 1 else s

/-- A write into the management block, by the management core (R396, R398, R399). -/
def State.mgWrite (s : State) (p : Nat) (v : W64) : State :=
  let a := mgBase + p
  if 0x100 ≤ p ∧ p < 0x1A0 then s.tstest ((p - 0x100) / 8) v
  else if p = 0x300 then s.setReg a (s.reg a &&& ~~~v)
  else if p = 0x640 then (if bit v.toNat 0 then s.pushLog else s)
  else if p = 0x700 then s.surveyControl v
  else if p = 0x708 then { s.setReg a v with timeFired := false }
  else match mgMask p with
    | some m => s.setReg a (v &&& BitVec.ofNat 64 m)
    | none => s

/-- A write into an O-die's block, by its lane service core or the management core (R389). -/
def State.oWrite (s : State) (o p : Nat) (v : W64) : State :=
  if p = 0 then s.replayControl o v
  else if p = 0x8 ∨ p = 0x10 then s.setReg (oBase o + p) (v &&& 0xFFFFFFFFFFFFE#64)
  else if p = 0x18 then s.setReg (oBase o + p) v
  else if p = 0x20 then s.laneRun o v
  else if 0x400 ≤ p ∧ p < 0x800 then s.laneMap o ((p - 0x400) / 8) v
  else if 0x1000 ≤ p ∧ p < 0x1000 + 8 * 640 then s.heater o ((p - 0x1000) / 8) v
  else s

/-- HOSTMEM (R364): an ill-formed window, and a change of an open window, are ignored. -/
def State.hostMem (s : State) (v : W64) : State :=
  let a := 0x030001800000
  let sz := bits v.toNat 41 32
  if sz = 0 ∨ 512 < bits v.toNat 16 8 + sz ∨ (s.fld a 0 0 = 1 ∧ bit v.toNat 0) then s
  else s.setReg a (v &&& 0xFF03FF0001FF01#64)

/-- What a write of an MMIO register does. -/
def mmioWrite (w : Who) (a : Nat) (v : W64) : M Unit := do
  let s ← get
  let o := a - 0x030000000000
  let mg := w == .mgmt
  if s.blockInReset o then flt 7 6 0 a
  if hostPort w o then pure ()
  else if o = 0x101000 then if bit v.toNat 0 then regionTableCommitOp
  else if 0x200000 ≤ o ∧ o < 0x200800 then modify fun s => s.hubSplit ((o - 0x200000) / 8) v
  else if o = 0x201000 ∨ o = 0x230008 ∨ o = 0x1400008 ∨ o = 0x1600008 then do
    -- a request of Waypoint is a stream event to come
    if o = 0x1400008 ∧ bit v.toNat 0 then eventRelease w
    mmioGo a v
  else if o = 0x211000 then
    modify fun s => { s.setReg a (v &&& 0xE#64) with dbp := if bit v.toNat 0 then [] else s.dbp }
  else if o = 0x240000 then modify fun s => s.setReg a (s.reg a &&& ~~~(v &&& 0xF0#64))
  else if o = 0x240008 then if mg then modify fun s => s.layerStart (bits v.toNat 3 0)
  else if 0x400000 ≤ o ∧ o < 0x400000 + 0x1000 * 288 then
    let n := (o - 0x400000) / 0x1000
    let p := o % 0x1000
    if p < 8 * 9 * groupsOf n then
      modify fun s => s.modCore n fun c => { c with ce := Table.put 0 c.ce (p / 8) (bits v.toNat 15 0)
                                                    ue := Table.put 0 c.ue (p / 8) (bits v.toNat 31 16) }
    else if p = 0x300 ∧ mg = true ∧ bit v.toNat 0 = true then bankRetireOp n (bits v.toNat 7 4) (bits v.toNat 9 8)
  else if o = 0x1500008 then modify fun s => s.ringDoorbell (bits v.toNat 11 0)
  else if 0x1601000 ≤ o ∧ o < 0x1601800 then modify fun s => s.setReg a (s.reg a &&& ~~~(v &&& 0xF#64))
  else if 0x1602000 ≤ o ∧ o < 0x1602800 then
    if mg ∨ s.isPf0 w then
      let mode := bits v.toNat 63 60
      modify fun s => if mode = 0 ∨ mode = 9 then s.setReg a v
        else s.setReg a (BitVec.ofNat 64 (setBits v.toNat 63 60 (bits (s.reg a).toNat 63 60)))
  else if 0x1700000 ≤ o ∧ o < 0x1700000 + 16 * 288 then
    let n := (o - 0x1700000) / 16
    if o % 16 = 0 then if w = .cc n then modify fun s => s.mailRequest n v
    if o % 16 = 8 then if mg then modify fun s => s.mailAnswer n v
  else if o = 0x1710000 then if mg ∨ s.isPf0 w then modify fun s => s.pholdSet v
  else if 0x1720000 ≤ o ∧ o < 0x1722000 + 0x1000 then if mg then modify fun s => s.mgWrite (o - 0x1720000) v
  else if o = 0x1800000 then if mg then modify fun s => s.hostMem v
  else if o = 0x1800018 then if bit v.toNat 0 then firmwareGoOp
  else if o = 0x1800020 then
    if s.links.all fun e => !e.2.up then modify fun s => s.setReg a (v &&& 0xFFF#64)
  else if 0x1810000 ≤ o ∧ o < 0x1810800 then
    let c := (o - 0x1810000) / 8
    if (mg ∨ s.isPf0 w) ∧ bits v.toNat 6 0 ≤ 64 ∧ s.ctxBusy c = false then modify fun s => s.setReg a (v &&& 0x7F#64)
  else if 0x1820000 ≤ o ∧ o < 0x1828000 then
    let q := (o - 0x1820000) / 8
    if (mg ∨ s.isPf0 w) ∧ bits v.toNat 6 0 ≤ 64 ∧ s.boundQ q = false then modify fun s => s.setReg a (v &&& 0x7F#64)
  else if 0x2000000 ≤ o ∧ o < 0x2100000 then
    let d := (o - 0x2000000) / 0x40000
    if mg ∨ w = .lane d then modify fun s => s.oWrite d (o % 0x40000) v
  else match plainMask o with
    | some m => modify fun s => s.setReg a (v &&& BitVec.ofNat 64 m)
    | none => pure ()

/-! ### The host (R361 to R363)

A host access names its target in one offset: the CXL.mem window from 0, PF0 BAR0 from 2^40, PF0 BAR2 (the firmware load
window) from 2^41, and the doorbell page of VFn from 2^42 + 4096·n. -/

/-- Answer a host read. -/
def hostAnswer (poisoned unsupported : Bool) (data : List Byte) : M Unit :=
  let r : HostReply := { poisoned := poisoned, unsupported := unsupported, data := data }
  modify fun s => { s with hostOut := s.hostOut ++ [r] }

/-- The physical address of an offset of the CXL.mem window, when it is open there (R364). -/
def State.hostPa (s : State) (off len : Nat) : Option Nat :=
  let a := 0x030001800000
  if s.fld a 0 0 = 1 ∧ off + len ≤ s.fld a 41 32 * 2 ^ 30 then some (s.fld a 16 8 * 2 ^ 30 + off) else none

def hostRq : Req := { who := .host, cls := 3 }

def ones (len : Nat) : List Byte := List.replicate len 0xFF

/-- A read of the doorbell page of VFn (R362, R367). -/
def State.vfPage (s : State) (f p : Nat) : W64 :=
  if s.fld (vfrst f) 0 0 = 1 then 0xFFFFFFFFFFFFFFFF#64
  else if p = 8 then BitVec.ofNat 64 (s.fld (vfrst f) 31 16 * 65536) else 0

/-- The report of a host access that could not be served, at the address of the line where the fault names it (R8, R107, R363). -/
def hostReport (pa len : Nat) (e : Stop) : M Unit :=
  match e with
  | .flt f => logM 0x07 0x0C (if 5 ≤ f.cause ∧ f.cause ≤ 7 then f.aux2 else pa) [len, f.cause, f.detail, f.aux]
  | _ => logM 0x07 0x0C pa [len]

/-- A host read of memory (R363): one that cannot be served is a poisoned completion, and is logged. -/
def hostLoad (q : Req) (pa len : Nat) : M Unit :=
  tryCatch (do hostAnswer false false (← readRun q pa len)) fun e => match e with
    | .stall => throw .stall
    | e => do
      hostReport pa len e
      hostAnswer true false (ones len)

/-- A host write of memory (R363), line by line: one that cannot be served is dropped; a whole line over a poisoned or failed one is
performed; both are logged. -/
def hostStore (q : Req) (pa : Nat) (data : List Byte) : M Unit := do
  (pieces (data.length + 1) 64 pa data).forM fun p => do
    let s ← get
    let bad := s.lineMeta p.1 != LineMeta.good
    tryCatch (do
      writeSeg q p.1 p.2
      if bad then logM 0x07 0x0C p.1 [p.2.length]) fun e => match e with
        | .stall => throw .stall
        | e => hostReport p.1 p.2.length e
  modify fun s => s.takeWrites .host

/-- The firmware load window allocates nothing (R113). It is memory: any width and alignment is served (log 79). -/
def barRq : Req := { who := .host, cached := false, cls := 3 }

/-- A host read (R363): an answer that cannot be served is a poisoned completion, and is logged. -/
def hostReadOp (off len : Nat) : M Unit := do
  let s ← get
  if len = 0 ∨ 4096 < len then throw .stall
  if off < 2 ^ 40 then
    match s.hostPa off len with
    | none => hostAnswer false true (ones len)
    | some pa => hostLoad hostRq pa len
  else if off < 2 ^ 41 then
    let o := off - 2 ^ 40
    if o % 8 ≠ 0 ∨ len ≠ 8 ∨ 2 ^ 32 ≤ o then hostAnswer false true (ones len)
    else
      tryCatch (do hostAnswer false false (leBytes 8 (← mmioRead .host (0x030000000000 + o)).toNat)) fun e => match e with
        | .stall => throw .stall
        | e => do
          hostReport (0x030000000000 + o) 8 e
          hostAnswer true false (ones 8)
  else if off < 2 ^ 42 then
    let o := off - 2 ^ 41
    if s.fwState = 1 ∨ 2 ^ 26 < o + len then hostAnswer false false (ones len)
    else hostLoad barRq o len
  else
    let o := off - 2 ^ 42
    let f := o / 4096
    if f = 0 ∨ 64 < f ∨ o % 8 ≠ 0 ∨ len ≠ 8 then hostAnswer false true (ones len)
    else hostAnswer false false (leBytes 8 (s.vfPage f (o % 4096)).toNat)

/-- A host write (R363): one that cannot be served is dropped and logged; a whole line clears its poison. -/
def hostWriteOp (off : Nat) (data : List Byte) : M Unit := do
  let s ← get
  let len := data.length
  if len = 0 ∨ 4096 < len then throw .stall
  if off < 2 ^ 40 then
    match s.hostPa off len with
    | none => pure ()
    | some pa => hostStore hostRq pa data
  else if off < 2 ^ 41 then
    let o := off - 2 ^ 40
    if o % 8 ≠ 0 ∨ len ≠ 8 ∨ 2 ^ 32 ≤ o then hostAnswer false true []
    else mmioWrite .host (0x030000000000 + o) (BitVec.ofNat 64 (leNat data))
  else if off < 2 ^ 42 then
    let o := off - 2 ^ 41
    if s.fwState = 1 ∨ 2 ^ 26 < o + len then pure ()
    else hostStore barRq o data
  else
    let o := off - 2 ^ 42
    let f := o / 4096
    if f = 0 ∨ 64 < f ∨ o % 8 ≠ 0 ∨ len ≠ 8 then hostAnswer false true []
    else if o % 4096 = 0 then modify fun s => s.vfDoorbell f (leNat data % 4096)

end Sys2Proof.Machine
end

