-- ==== Sys2Proof/Machine/Access.lean ====
section
/-! DEFINITION. Accesses of the RV64 cores: loads, stores, fetches and atomics (R24, R33 to R35, R48, R49, R96, R102, R104,
R294, R295, R313, R319, R388, R395, R404). -/
namespace Sys2Proof.Machine

/-- The requester an agent is. -/
def whoOf : Agent → Who
  | .core n => .cc n
  | .mgmt => .mgmt
  | .lane o => .lane o

/-- Does the agent run a task that stages its effects (R33)? -/
def State.agentStages (s : State) : Agent → Bool
  | .core n => (s.core n).stages
  | _ => false

/-- The trap "direct effect not declared" (R35, R347). -/
def directTrap {α : Type} : M α := trapM 27 0 20 0

/-- R35 for an access that has its meaning only when performed. -/
def needDirect (a : Agent) : M Unit := do
  let s ← get
  if s.agentStages a then directTrap

/-- An access that crosses a 64-byte line is misaligned (R49). -/
def crosses (va len : Nat) : Bool := decide (64 < va % 64 + len)

/-- The slots at which a ring is halted: of its halted commands; without one, the slot it would start next (R25, R67). -/
def Ring.haltedSlots (r : Ring) : List Nat :=
  if r.halted = false then []
  else match r.flight.filter fun f => f.phase == .halted with
    | [] => [r.read.toNat % r.size]
    | l => l.map fun f => f.slot.toNat % r.size

/-- Is the byte at scratchpad offset `o` in a slot that the hardware owns (R24)? The slot at which a ring is halted is
open to a store above U-mode, of M-mode as of S-mode (log 94). -/
def Core.ownsByte (c : Core) (p : Priv) (o : Nat) : Bool :=
  Eng.all.any fun e =>
    let r := c.ring e
    decide (r.base ≤ o ∧ o < r.base + 32 * r.size) &&
    (let i := (o - r.base) / 32
     let k := (i + r.size - r.retire.toNat % r.size) % r.size
     decide (k < (r.write - r.retire).toNat) && !(p != .u && r.haltedSlots.contains i))

/-- A store of control core `n` into a scratchpad may not touch an owned slot: a store access fault (R24). -/
def slotGuard (a : Agent) (pa len va : Nat) : M Unit := do
  let s ← get
  match a, s.loc pa with
  | .core n, .sp m off => if (span off len).any ((s.core m).ownsByte (s.core n).hart.priv) then trapM 7 va
  | _, _ => pure ()

/-- A fetch of instruction bytes (R96): a fault is the standard exception or code 25. -/
def fetchBytes (a : Agent) (va len : Nat) : M (List Byte) :=
  M.asAccess .fetch va do
    let ph ← translateHart a .fetch va
    let s ← get
    match s.loc ph.pa with
    | .mmio _ => flt 3 2
    | _ => readRun (reqOf (whoOf a) ph.home 0) ph.pa len

/-- An MMIO access must be 64 bits wide and aligned (R404), and its task pinned (R35): of an access that is neither, the spec
does not say which trap goes first (log 80). -/
def mmioGuard (a : Agent) (pa len va : Nat) (k : AccKind) : M Unit := do
  needDirect a
  if len ≠ 8 ∨ pa % 8 ≠ 0 then trapM k.accessCode va

/-- A load follows the core's earlier stores of its line, and an UNCACHED one those of its page that are UNCACHED (R313): they leave
the queue first, unless the queue itself holds every byte that is read. -/
def loadOrder (a : Agent) (ph : Phys) (len : Nat) : M Unit :=
  match a with
  | .core n => do
    let s ← get
    let pa := s.norm ph.pa
    let older := fun (e : SqEntry) =>
      e.pa / 64 == pa / 64 || (ph.home == homeUncached && e.uncached && e.pa / 4096 == pa / 4096)
    if s.servedLocally (.cc n) pa len = false ∧ (s.core n).sq.any older then drainLine n pa
  | _ => pure ()

/-- A load of `len` bytes by an agent. In MMIO one that crosses a line is ill-formed as any other is (R404). -/
def loadM (a : Agent) (va len : Nat) : M (List Byte) :=
  M.asAccess .load va do
    let ph ← if crosses va len then tryCatch (translateHart a .load va) fun e => match e with
        | .flt _ => trapM 4 va
        | e => throw e
      else translateHart a .load va
    let s ← get
    match s.loc ph.pa with
    | .mmio pa => do
      mmioGuard a pa len va .load
      let v ← mmioRead (whoOf a) pa
      pure (leBytes 8 v.toNat)
    | _ => do
      if crosses va len then trapM 4 va
      loadOrder a ph len
      readRun (reqOf (whoOf a) ph.home 0) ph.pa len

/-- Is a store of core `n` at a translated address performed by the core itself: it is not staged (R33)? -/
def State.storesNow (s : State) (n : Nat) (ph : Phys) : Bool :=
  !(s.core n).stages || (match s.loc ph.pa with
    | .sp m _ => m == n
    | _ => false)

/-- A store to memory outside MMIO at a translated address: into the own scratchpad and into windows at once, staged by an
unpinned task, else through the store queue (R33, R313). The other cores' stores are performed at pkg scope at once. `wide`
marks a store that is performed beyond the cluster at once. -/
def storePhys (a : Agent) (va : Nat) (ph : Phys) (data : List Byte) (wide : Bool := false) : M Unit := do
  let s ← get
  let q := { reqOf (whoOf a) ph.home 0 with wide := wide }
  if s.agentStages a ∧ ph.home = homeUncached then directTrap
  slotGuard a ph.pa data.length va
  match a with
  | .core n =>
    if s.storesNow n ph = false then
      needRoom n ((linesOf (s.norm ph.pa) data.length).map .line)
      stageBytes n (.cc n) 0 ph.pa ph.va data
    else match s.loc ph.pa with
      | .sp _ _ => writeRun q ph.pa data
      | .hub _ => writeRun q ph.pa data
      | _ => do
        homeCheck q ph.pa
        if s.downWrite (s.ctxOf q.who) ph.pa = some 1 then flt 7 1 0 ph.pa
        if data.length < 64 then mergeFit q ph.pa
        modify fun s => s.modCore n fun c =>
          { c with sq := c.sq ++ [{ pa := s.norm ph.pa, data := data, uncached := ph.home == homeUncached, wide := wide }] }
  | _ => do
    writeRun q ph.pa data
    modify fun s => s.takeWrites (whoOf a)

/-- A store of bytes by an agent. -/
def storeM (a : Agent) (va : Nat) (data : List Byte) (wide : Bool := false) : M Unit :=
  M.asAccess .store va do
    let ph ← if crosses va data.length then tryCatch (translateHart a .store va) fun e => match e with
        | .flt _ => trapM 6 va
        | e => throw e
      else translateHart a .store va
    let s ← get
    match s.loc ph.pa with
    | .mmio pa => do
      mmioGuard a pa data.length va .store
      mmioWrite (whoOf a) pa (BitVec.ofNat 64 (leNat data))
    | _ => do
      if crosses va data.length then trapM 6 va
      storePhys a va ph data wide

/-! ### Atomics (R49, R295) -/

/-- An access to host memory or a remote package is performed at sys scope (R294, R311). -/
def State.effScope (s : State) (pa : Nat) (sc : Scope) : Scope :=
  match s.loc pa with
  | .host => .sys
  | .remote _ => .sys
  | _ => sc

/-- Does a coherent access to a line wait: at a scope beyond the cluster for a write that its own cluster holds; and, where it
writes, for one that another cluster holds (R385) and for the end of the swap of its page (R125)? One that only reads is
served with the line as it stood. -/
def State.coherentWaits (s : State) (a : Agent) (pa : Nat) (sc : Scope) (write : Bool) : Bool :=
  let mine := fun (h : HeldWrite) => match a with
    | .core n => h.cluster == clusterOf n
    | _ => false
  s.heldW.any (fun h => h.pa / 64 == s.norm pa / 64 && (if mine h then decide (2 ≤ sc.num) else write)) ||
    (write && s.swapTakes pa)

/-- Before a coherent access: the agent's stores are performed; it waits as it must; the agent's die reads no old copy of the
line (R318). -/
def coherent (a : Agent) (pa : Nat) (sc : Scope) (write : Bool) : M Unit := do
  match a with
  | .core n => drainAll n
  | _ => pure ()
  let s ← get
  if s.coherentWaits a pa sc write then throw .stall
  match a with
  | .core n => modify fun s => s.takeInval fun c => c.line == s.norm pa / 64 && c.die == dieOf n
  | _ => pure ()

/-- A standard atomic must be aligned to its width (R49): code 4 for LR, 6 for the others; but an ill-formed access to MMIO takes
its access fault (R404). -/
def atomicAligned (a : Agent) (k : AccKind) (va len : Nat) : M Unit := do
  if va % len ≠ 0 then
    let ph ← tryCatch (translateHart a k va) fun e => match e with
      | .flt _ => trapM k.alignCode va
      | e => throw e
    let s ← get
    match s.loc ph.pa with
    | .mmio pa => mmioGuard a pa len va k
    | _ => trapM k.alignCode va

/-- A read-modify-write of a remote line is that package's, asked of it (R368, R370). -/
def State.tellRmw (s : State) (pa : Nat) (r : Rmw) : State :=
  match s.loc pa with
  | .remote p => { s with stamp := s.stamp + 1 }.send p (.rmw s.stamp (bits pa 38 0) r)
  | _ => s

/-- One indivisible read-modify-write at an aligned address (R295). MMIO takes the access fault, code 7 (R294). -/
def atomicM (a : Agent) (sc : Scope) (va : Nat) (isSc acq rel : Bool) (r : Rmw) : M Nat :=
  M.asAccess .store va do
    needDirect a
    let ph ← translateHart a .store va
    let s ← get
    match s.loc ph.pa with
    | .mmio _ => trapM 7 va
    | _ => slotGuard a ph.pa r.len va
    let sc := s.effScope ph.pa sc
    if rel then match a with
      | .core n => releaseAt n sc
      | _ => pure ()
    coherent a ph.pa sc true
    if isSc then match a with
      | .core n => scStep n ph.pa true
      | _ => pure ()
    let q := { reqOf (whoOf a) ph.home 0 with wide := decide (2 ≤ sc.num), told := true }
    let old ← readRun q ph.pa r.len
    modify fun s => s.tellRmw ph.pa r
    if acq then match a with
      | .core n => modify fun s => s.acquireAt n sc ph.pa
      | _ => pure ()
    let s ← get
    match rmwNew r (leNat old) with
    | some v => do
      writeRun q ph.pa (leBytes r.len v)
      modify fun t => t.chain (whoOf a).coreNo ph.pa (s.releasesRead (whoOf a).coreNo ph.pa)
      if rel then match a with
        | .core n => modify fun t => t.noteRelease n sc (t.norm ph.pa) (t.coveredLines n)
        | _ => pure ()
    | none => pure ()
    pure (leNat old)

end Sys2Proof.Machine
end

