-- ==== Sys2Proof/Machine/Engine.lean ====
section
/-! DEFINITION. The life of an engine command: awaiting its semaphore (R30), its bound (R29, R41), its faults and its
retirement (R28, R67, R73, R163, R352, R353), the record of a fault, and the commands that every engine has (R31, R58). -/
namespace Sys2Proof.Machine

/-- The command a step of an engine is about: its core and engine, whether S-mode owns the ring, and the command. -/
structure Cx where
  n : Nat
  e : Eng
  owner : Bool
  f : Flight
  deriving DecidableEq, Repr

/-! ### Fields of the command word that its life depends on (R55) -/

def Flight.opc (f : Flight) : Nat := bits f.q0.toNat 63 56
def Flight.wsem (f : Flight) : Nat := bits f.q0.toNat 51 47
def Flight.wen (f : Flight) : Bool := bit f.q0.toNat 46
def Flight.rsem (f : Flight) : Nat := bits f.q0.toNat 45 41
def Flight.ren (f : Flight) : Bool := bit f.q0.toNat 40
def Flight.bound (f : Flight) : Nat := bits f.q0.toNat 39 20

/-- Buffer and slot count of a buffer command (R58). -/
def Flight.buf (f : Flight) : Nat × Nat := (bits f.q1.toNat 4 0, bits f.q1.toNat 24 16)

/-- The counter a copy command decrements at completion (R148, R252). -/
def Flight.dctr (f : Flight) (e : Eng) : Option Nat :=
  if (e = .ld ∨ e = .st) ∧ f.opc < 0xF0 ∧ bit f.q0.toNat 6 then some (bits f.q2.toNat 51 40) else none

/-! ### Flights of a ring -/

/-- Is the command one of MX that reads a descriptor (a product command) and has started, and has not latched it yet (R223)? -/
def Flight.unlatched (f : Flight) : Bool :=
  f.latch.isNone && decide (1 ≤ f.opc ∧ f.opc ≤ 8) && (f.phase == .ready || f.phase == .stalled)

/-- The descriptor copies of MX are dropped when every command of it that has started has latched; no slot that the posts asking for
it released starts before (R224). -/
def Core.dropIfDue (c : Core) : Core :=
  if c.dropDue && !((c.ring .mx).flight.any Flight.unlatched) then { c with descs := [], dropDue := false, dropFor := [] } else c

/-- Replace the command of a slot among those in flight. -/
def Ring.modFlight (r : Ring) (slot : W32) (g : Flight → Flight) : Ring :=
  { r with flight := r.flight.map fun f => if f.slot = slot then g f else f }

def State.modFlight (s : State) (n : Nat) (e : Eng) (slot : W32) (g : Flight → Flight) : State :=
  s.setRing n e ((s.ring n e).modFlight slot g)

/-- Change the command of the step. -/
def Cx.modFlight (c : Cx) (g : Flight → Flight) : M Unit := modify fun s => s.modFlight c.n c.e c.f.slot g

/-- Keep a continuing record for the retirement, one for each cause (R73). -/
def Cx.owe (c : Cx) (r : FaultRec) : M Unit :=
  c.modFlight fun f => if f.recs.any (fun o => o.cause == r.cause) then f else { f with recs := f.recs ++ [r] }

/-- The command of a ring that has still to start: the first that has not begun. -/
def Ring.active (r : Ring) : Option Flight := r.flight.find? fun f => !f.begun

/-- The flight at place `i` when every earlier one of its ring has started (R28). -/
def Ring.turnOf (r : Ring) (i : Nat) : Option Flight :=
  if (r.flight.take i).all Flight.begun then r.flight[i]? else none

/-! ### Fault records of commands (R352, R353) -/

/-- What the command awaits or claims: a buffer or not, its number, the count. -/
def Flight.awaited (f : Flight) : Option (Bool × Nat × Nat) :=
  if f.phase = .await ∧ f.wen then some (false, f.wsem, 1)
  else if f.phase = .ready ∧ (f.opc = 0xF2 ∨ f.opc = 0xF4) ∧ f.claimed = false then some (true, f.buf.1, f.buf.2)
  else none

/-- PROG and PROG2 of an engine's progress. -/
def Prog.words (p : Prog) (e : Eng) : Nat × Nat :=
  match e with
  | .ld | .st => (p.off, 0)
  | .ct => (p.row, 0)
  | .mx => (p.n.getD 0 0 + (p.n.getD 1 0 <<< 16) + (p.n.getD 2 0 <<< 32) + (p.n.getD 3 0 <<< 48),
            p.n.getD 4 0 + (p.n.getD 5 0 <<< 16))
  | .vx | .tv => (0, 0)

/-- The record of a fault of a command. WVAL is set on every bound overrun; the fields of one that awaits nothing are 0
(log 43). -/
def Flight.record (f : Flight) (e : Eng) (t : Flt) : FaultRec :=
  let w := if t.cause = 11 then some (f.awaited.getD (false, 0, 0)) else f.awaited
  let g := w.getD (false, 0, 0)
  let p := f.prog.words e
  { cause := t.cause, detail := t.detail, eng := e.num, vav := t.va.isSome && decide (3 ≤ t.cause ∧ t.cause ≤ 8),
    slot := f.slot.toNat, opc := f.org.pc.toNat, va := if 3 ≤ t.cause ∧ t.cause ≤ 8 then t.va.getD 0 else 0,
    prog := p.1, prog2 := p.2, wnum := g.2.1, wbuf := g.1, wval := w.isSome, wcnt := g.2.2, aux := t.aux, aux2 := t.aux2 }

/-- A command meets a fault: a page fault stalls it, with its record written at once (R353); any other ends it, with its
record written at its retirement (R67). The copy offset, where the fault names one, is its progress from then on. -/
def State.engineFault (s : State) (n : Nat) (e : Eng) (slot : W32) (t : Flt) : State :=
  match (s.ring n e).flight.find? fun f => f.slot == slot with
  | none => s
  | some f =>
    let p := { f.prog with off := t.off.getD f.prog.off }
    let f := { f with prog := p }
    if t.cause = 3 ∧ t.detail = 1 then
      -- Contour starts again from phase 0 of its row (R249)
      let list := if e = .ct then none else f.list
      (s.modFlight n e slot fun _ => { f with phase := .stalled, since := s.now - f.since, list := list }).writeRec n
        (s.stampRec n { f.record e t with stall := true })
    else s.modFlight n e slot fun _ => { f with phase := .failed { f.record e t with halt := true }, resv := none, halves := [] }

/-- A command whose work is done keeps the staging line of its counter's decrement until it retires (R33, R165). -/
def Flight.finish (f : Flight) (_ : Eng) : Flight :=
  let counter : Room → Bool := fun r => match r with
    | .counter _ => true
    | _ => false
  { f with phase := .done, list := none, halves := [], resv := f.resv.map fun l => l.filter counter }

/-- Run the work of a command of one of the engines `es`, as far as the boundaries left to the turn. `m` answers whether the
command is done. A body that is held where it stands changes nothing; one that stops at a boundary has done what came before. -/
def runEngine (es : Eng → Bool) (m : Cx → M Bool) (s : State) : Host.Outcome State Fault Refusal :=
  match s.focus with
  | .flight n e i =>
    match (s.ring n e).turnOf i with
    | some f =>
      if es e = true ∧ f.phase = .ready then
        match (m { n := n, e := e, owner := (s.ring n e).owner, f := f }).run s with
        | (.ok true, s') => .next (s'.modFlight n e f.slot fun f => f.finish e)
        | (.ok false, s') => .next s'
        | (.error (.flt t), s') => .next (s'.engineFault n e f.slot t)
        | (.error (.pause o), s') =>
          .next (s'.modFlight n e f.slot fun f => { f with prog := { f.prog with off := o.getD f.prog.off } })
        | (.error _, _) => .next s
      else .fault .notInFlight
    | none => .fault .notInFlight
  | _ => .fault .notInFlight

/-- Run a step in the life of the command of the turn that is no work of its own. -/
def runFlight (m : Nat → Eng → Nat → M Unit) (s : State) : Host.Outcome State Fault Refusal :=
  match s.focus with
  | .flight n e i =>
    match (m n e i).run s with
    | (.ok _, s') => .next s'
    | (.error _, _) => .next s
  | _ => .fault .notInFlight

/-! ### Awaiting (R30) -/

/-- May an engine start a command: its ring is not halted, no pre-emption is being carried out (R304), and it holds no record for
want of room in the fault queue (R351)? -/
def Core.mayBegin (c : Core) (e : Eng) : Bool :=
  !(c.ring e).halted && !c.frozen && !c.stopping && !(c.fqHeld.any fun x => x.eng == e.num)

/-- Engines whose next command waits for semaphore `i`. -/
def Core.awaiters (c : Core) (i : Nat) : List Eng :=
  Eng.all.filter fun e => c.mayBegin e && (match (c.ring e).active with
    | some f => f.phase == .await && f.wen && f.wsem == i
    | none => false)

/-- Slots that engines whose next command claims or takes of buffer `i`, of which `avail` slots are there, could take now
(R30, R288: the engine wins). -/
def Core.claimers (c : Core) (i avail : Nat) (take : Bool) : Nat :=
  (Eng.all.map fun e => if c.mayBegin e = false then 0 else match (c.ring e).active with
    | some f => if f.phase == .ready && f.opc == (if take then 0xF4 else 0xF2) && !f.claimed && f.buf.1 == i && f.buf.2 ≤ avail
        then f.buf.2 else 0
    | none => 0).sum

/-- The command takes its semaphore and starts; of several awaiters the lowest ENG takes it first. -/
def awaitTakenOp (n : Nat) (e : Eng) (i : Nat) : M Unit := do
  let s ← get
  let c := s.core n
  match (c.ring e).turnOf i with
  | none => throw .stall
  | some f =>
    if f.phase ≠ .await then throw .stall
    if f.wen then
      let before := (c.awaiters f.wsem).filter fun k => k.num < e.num
      if (c.sem f.wsem).toNat ≤ before.length then throw .stall
      modify fun s => s.modCore n fun c => c.setSem f.wsem (c.sem f.wsem - 1)
    if e = .mx then modify fun s => s.modCore n Core.dropIfDue
    modify fun s => s.modFlight n e f.slot fun f => { f with phase := .ready, taken := f.wen }

/-! ### The bound (R29, R41) -/

/-- Control cycles of a command's bound: engine cycles in units of 64, two to the control cycle in the fast domain. -/
def Flight.limit (f : Flight) (e : Eng) : Nat := if e.fast then f.bound * 32 else f.bound * 64

/-- Has the command passed its bound? -/
def Flight.overdue (f : Flight) (e : Eng) (now : Nat) : Bool :=
  (f.phase == .await || f.phase == .ready) && f.bound != 0 && decide (f.since + f.limit e ≤ now)

/-- Records owed by a command are written (R73). -/
def State.writeOwed (s : State) (n : Nat) (l : List FaultRec) : State :=
  l.foldl (fun t r => t.writeRec n (t.stampRec n r)) s

/-- The command ends here with its records, and its ring halts at the slot. What it has sent on its channel is its own no more. -/
def State.haltNow (s : State) (n : Nat) (e : Eng) (f : Flight) (recs : List FaultRec) : State :=
  let s := s.writeOwed n recs
  let s := if e = .tv then s.forgetSlot n f.slot else s
  s.setRing n e ({ s.ring n e with halted := true } |>.modFlight f.slot fun f => { f with phase := .halted, recs := [] })

/-- A bound overrun ends the command with its record at once: an earlier command of the ring may wait without limit (R41,
log 69). -/
def boundOverrunOp (n : Nat) (e : Eng) (i : Nat) : M Unit := do
  let s ← get
  match (s.ring n e).flight[i]? with
  | none => throw .stall
  | some f =>
    if f.overdue e s.now = false then throw .stall
    modify fun s => s.haltNow n e f (f.recs ++ [{ f.record e { cause := 11 } with halt := true }])
    modify fun s => s.modFlight n e f.slot fun f => { f with resv := none, list := none, halves := [] }

/-! ### Retirement (R28, R67, R73, R165, R262) -/

/-- A raise; at the limit the value stays and a record says so (R30). -/
def State.raise (s : State) (n : Nat) (e : Eng) (f : Flight) : State :=
  if f.ren = false then s
  else if (s.core n).sem f.rsem = 0xFFFF#16 then
    s.writeRec n (s.stampRec n { f.record e { cause := 18, detail := f.rsem } with cont := true, prog := 0, prog2 := 0 })
  else s.modCore n fun c => c.setSem f.rsem (c.sem f.rsem + 1)

/-- Has an engine of core `n` a direct write that its home has not acknowledged: kept by PHOLD (R385), or held at the swap
engine (R125)? -/
def State.unacked (s : State) (n : Nat) : Bool := s.swapHolds n || s.heldW.any fun h => h.core == n && h.cls == 3

/-- The oldest command of a ring retires, an ST command once its direct writes are acknowledged (R262): its records, its raise, its counter; or, where it failed, its record and the halt
of its ring. -/
def commandRetireOp (n : Nat) (e : Eng) (i : Nat) : M Unit := do
  let s ← get
  let r := s.ring n e
  match i, r.flight with
  | 0, f :: rest =>
    match f.phase with
    | .done =>
      if e = .st ∧ s.unacked n then throw .stall
      let r' : Ring := { r with retire := r.retire + 1, org := Table.put Origin.empty r.org r.retire.toNat Origin.empty, flight := rest }
      modify fun s => (((s.writeOwed n f.recs).raise n e f).setRing n e r')
      match f.dctr e with
      | some k =>
        -- the decrement comes last: staged while the task is not pinned, applied otherwise (R33, R165)
        if (s.core n).stages then stageDec n k else modify fun s => s.decrementCtr (dieOf n) k false
      | none => pure ()
    | .failed rec0 => modify fun s => s.haltNow n e f (f.recs ++ [rec0])
    | _ => throw .stall
  | _, _ => throw .stall

/-! ### Commands of every engine (R31, R58) -/

/-- NOP awaits and raises only. -/
def nopBody (_ : Cx) : M Bool := pure true

/-- CB.REL. -/
def cbRelBody (c : Cx) (a : CbArgs) : M Bool := do
  let s ← get
  let i := a.cb.toNat
  let m := a.m.toNat
  let b := (s.core c.n).cb i
  if b.held < m then flt 1
  let b' := { b with held := b.held - m, free := b.free + m }
  modify fun s => s.modCore c.n fun k => k.setCb i b'
  pure true

/-- CB.CLAIM waits until enough slots are free. -/
def cbClaimBody (c : Cx) (a : CbArgs) : M Bool := do
  let s ← get
  let i := a.cb.toNat
  let m := a.m.toNat
  let b := (s.core c.n).cb i
  if b.free < m then throw .stall
  let b' := { b with free := b.free - m, inflight := b.inflight + m, prod := (b.prod + m) % b.count,
                     clm := Table.put 0 b.clm c.e.num (Table.get 0 b.clm c.e.num + m) }
  modify fun s => s.modCore c.n fun k => k.setCb i b'
  c.modFlight fun f => { f with claimed := true }
  pure true

/-- CB.PUSH of slots its ring has claimed. -/
def cbPushBody (c : Cx) (a : CbArgs) : M Bool := do
  let s ← get
  let i := a.cb.toNat
  let m := a.m.toNat
  let b := (s.core c.n).cb i
  let k := Table.get 0 b.clm c.e.num
  if k < m then flt 1
  let b' := { b with inflight := b.inflight - m, filled := b.filled + m, clm := Table.put 0 b.clm c.e.num (k - m) }
  modify fun s => s.modCore c.n fun q => q.setCb i b'
  pure true

/-- CB.TAKE waits until enough slots are filled. -/
def cbTakeBody (c : Cx) (a : CbArgs) : M Bool := do
  let s ← get
  let i := a.cb.toNat
  let m := a.m.toNat
  let b := (s.core c.n).cb i
  if b.filled < m then throw .stall
  let b' := { b with filled := b.filled - m, held := b.held + m, cons := (b.cons + m) % b.count }
  modify fun s => s.modCore c.n fun k => k.setCb i b'
  c.modFlight fun f => { f with claimed := true }
  pure true

end Sys2Proof.Machine
end

