-- ==== Sys2Proof/Machine/Operands.lean ====
section
/-! DEFINITION. Operands of engine commands: addresses (R27, R57), memory reached through the engine TLB (R147, R251, R404),
the runs of bytes a copy moves (R146, R151, R163), layout tags (R144), and the delivery of vector operands (R59, R60, R76,
R166, R167, R174, R195). -/
namespace Sys2Proof

/-! ### Delivery within a lane word, and elements in memory (R59, R76) -/

/-- Source position of destination position `e` among `n`, by SWZ. -/
def swzAt (swz n e : Nat) : Nat :=
  (if swz = 0 then e else if swz = 1 then n - 1 - e else if swz = 2 then e ^^^ 1 else if swz = 3 then e + 1
   else if swz = 4 then e / 2 * 2 else if swz = 5 then e / 2 * 2 + 1 else if swz = 6 then e / 2 else n / 2 + e / 2) % n

/-- Position that SEL takes. -/
def selAt (sel n j : Nat) : Nat :=
  if sel = 0 then j else if sel = 1 then 0 else if sel = 2 then n - 1 else if n = 1 then j else j ^^^ (n / 2)

def VOp.num (o : VOp) : Nat := o.reg.toNat

/-- The position of the lane word from which position `e` of an operand is delivered. -/
def VOp.from (o : VOp) (n e : Nat) : Nat := selAt o.sel.toNat n (swzAt o.swz.toNat n e)

/-- Element `p` of a lane word (R76). -/
def ETy.elem (t : ETy) (w p : Nat) : Nat := (w >>> (t.width * p)) % 2 ^ t.width

/-- A lane word of element codes. -/
def ETy.pack (t : ETy) (codes : List Nat) : Nat :=
  codes.foldr (fun c acc => c % 2 ^ t.width + 2 ^ t.width * acc) 0

/-- Bytes of `len` elements of a type. -/
def ETy.bytes (t : ETy) (len : Nat) : Nat := (t.width * len + 7) / 8

/-- Element `e` of a row of bytes. -/
def ETy.inRow (t : ETy) (row : List Byte) (e : Nat) : Nat :=
  if t.width = 4 then bits (Machine.fieldOf row (e / 2) 1) (4 * (e % 2) + 3) (4 * (e % 2)) else Machine.fieldOf row (e * (t.width / 8)) (t.width / 8)

/-- The bytes of a row of codes. -/
def ETy.rowBytes (t : ETy) : List Nat → List Byte
  | [] => []
  | [a] => if t.width = 4 then [BitVec.ofNat 8 (a % 16)] else leBytes (t.width / 8) a
  | a :: b :: r =>
    if t.width = 4 then BitVec.ofNat 8 (a % 16 + b % 16 * 16) :: t.rowBytes r
    else leBytes (t.width / 8) a ++ t.rowBytes (b :: r)

end Sys2Proof

namespace Sys2Proof.Machine

/-! ### Addresses -/

/-- Register aN as the slot's origin record captured it (R27). -/
def Cx.areg (c : Cx) (i : Nat) : W64 := c.f.org.a.getD i 0

/-- An address operand (R57). -/
def Cx.addr (c : Cx) (w : Aop) : Nat :=
  (c.areg (w.toNat / 2 ^ 29) + (w.extractLsb' 0 29).signExtend 64).toNat

/-- Addition modulo 2^64, with a signed offset (R57). -/
def addVa (a : Nat) (d : Int) : Nat := wrap 64 ((a : Int) + d)

def Cx.who (c : Cx) : Who := .eng c.n c.e

/-- Translate an address of the command; a fault names the address, and of cause 3 whether it was a write (R353). -/
def Cx.xlate (c : Cx) (k : AccKind) (va : Nat) : M Phys :=
  tryCatch (translateEng c.n c.f.org c.owner k va) fun e => match e with
    | .flt f => throw (.flt { f with va := some va, aux := if f.cause = 3 then (if k = .store then 1 else 0) else f.aux })
    | e => throw e

/-- A fault that a run at `pa` meets names its virtual address: for the causes that carry a physical address, that of the
line they name (R352, R353). -/
def M.atRun {α : Type} (va pa : Nat) (m : M α) : M α :=
  tryCatch m fun e => match e with
    | .flt f =>
      let d := if f.cause = 5 ∨ f.cause = 6 ∨ f.cause = 7 then f.aux2 - pa else 0
      throw (.flt { f with va := f.va.or (some (wrap 64 (va + d))) })
    | e => throw e

/-- The fault "not local scratchpad" (R353). -/
def notLocal {α : Type} (k : AccKind) (va : Nat) : M α :=
  throw (.flt { cause := 3, detail := 3, aux := if k = .store then 1 else 0, va := some va })

/-- The offset in the issuing core's own scratchpad that an operand names (R147). -/
def Cx.localOff (c : Cx) (k : AccKind) (va : Nat) : M Nat := do
  let p ← c.xlate k va
  let s ← get
  match s.loc p.pa with
  | .sp m off => if m = c.n then pure off else notLocal k va
  | _ => notLocal k va

/-! ### Reading -/

def Cx.req (c : Cx) (home res : Nat) : Req := reqOf c.who home res

/-- MMIO registers read whole by an engine whose access `run` covers them whole (R404), of which `len` bytes are wanted; anything
else is no such address. -/
def Cx.readMmio (c : Cx) (run : Nat × Nat) (va pa len : Nat) : M (List Byte) := do
  let d := pa % 8
  let n := (d + len + 7) / 8
  if va % 8 ≠ d ∨ va < run.1 + d ∨ run.1 + run.2 + d < va + 8 * n then throw (.flt { cause := 3, detail := 2, va := some va })
  let parts ← (List.range n).mapM fun i => M.at (some va) none do pure (leBytes 8 (← mmioRead c.who (pa - d + 8 * i)).toNat)
  pure ((parts.flatten.drop d).take len)

/-- Read a part of an access `run` from any mapped memory, line by line. -/
def Cx.readPart (c : Cx) (res : Nat) (run : Nat × Nat) (va len : Nat) : M (List Byte) := do
  let parts ← (pieces (len + 1) 64 va (List.replicate len 0)).mapM fun p => do
    let ph ← c.xlate .load (p.1 % 2 ^ 64)
    let s ← get
    match s.loc ph.pa with
    | .mmio pa => c.readMmio run p.1 pa p.2.length
    | _ => M.atRun p.1 ph.pa (readSeg (c.req ph.home res) ph.pa p.2.length)
  pure parts.flatten

/-- Read a run from any mapped memory. -/
def Cx.read (c : Cx) (res va len : Nat) : M (List Byte) := inBurst (c.readPart res (va, len) va len)

/-- Read runs of the own scratchpad, none of which crosses a 64-byte line, in order and in one access (R135). -/
def Cx.readPieces (c : Cx) (l : List (Nat × Nat)) : M (List Byte) := inBurst do
  let parts ← l.mapM fun r => do
    let off ← c.localOff .load (r.1 % 2 ^ 64)
    M.atRun r.1 (spBase c.n + off) do
      homeCheck { who := c.who, cached := false } (spBase c.n + off)
      spRead c.who c.n off r.2
  pure parts.flatten

/-- Cut runs at the 64-byte lines. -/
def inLines (l : List (Nat × Nat)) : List (Nat × Nat) :=
  l.flatMap fun r => (pieces (r.2 + 1) 64 r.1 (List.replicate r.2 0)).map fun p => (p.1, p.2.length)

/-- Read a run of the issuing core's own scratchpad. -/
def Cx.readLocal (c : Cx) (va len : Nat) : M (List Byte) := c.readPieces (inLines [(va, len)])

/-- Where bytes `o` to `o + n` of a row at `base` lie under the swizzle of its row: byte `k` at `k XOR m` (R218, R256). -/
def unswizzledRuns (base m o n : Nat) : List (Nat × Nat) :=
  if m = 0 then inLines [(base + o, n)]
  else inLines ((pieces (n + 1) 16 o (List.replicate n 0)).map fun p => (base + ((p.1 / 16 * 16) ^^^ m) + p.1 % 16, p.2.length))

/-- Read bytes `o` to `o + n` of a row of the own scratchpad through its swizzle. -/
def Cx.unswizzled (c : Cx) (base m o n : Nat) : M (List Byte) := c.readPieces (unswizzledRuns base m o n)

/-- The 64-byte lines of the own scratchpad that runs touch, as far as they translate. -/
def Cx.ownLines (c : Cx) (l : List (Nat × Nat)) : M (List Nat) := do
  let per ← (inLines l).mapM fun r => tryCatch (do
      let off ← c.localOff .load (r.1 % 2 ^ 64)
      pure [off / 64]) fun e => match e with
    | .flt _ => pure []
    | e => throw e
  pure per.flatten

/-! ### Writing -/

/-- Set the layout tag of every 2 KiB block a run touches (R144). -/
def Core.setTags (k : Core) (off len tag : Nat) : Core :=
  { k with tags := (span (off / 2048) ((off % 2048 + len + 2047) / 2048)).foldl (fun t b => Table.put 0 t b tag) k.tags }

/-- The tag that an LD command gives the blocks it writes (R144); no other engine reads or writes one (R252). -/
def Cx.layTag (c : Cx) : Option Nat := if c.e = .ld then some (bits c.f.q0.toNat 9 7 * 2 + bits c.f.q0.toNat 10 10) else none

/-- The command of the step as it stands by now. -/
def Cx.asNow (c : Cx) (s : State) : Flight := ((s.ring c.n c.e).flight.find? fun f => f.slot == c.f.slot).getD c.f

/-- A run is written in whole stripes, else by bank lines (R133). -/
def stripes (va : Nat) (data : List Byte) : List (Nat × List Byte) :=
  (pieces (data.length + 1) 1024 va data).flatMap fun p =>
    if p.2.length = 1024 then [p] else pieces (p.2.length + 1) 128 p.1 p.2

/-- Write into one bank line, or a whole stripe, of the own scratchpad. Of a poisoned line that the command covers in several runs
(`whole`) it keeps what it writes at hand and writes both halves in one access (R138). -/
def Cx.putBank (c : Cx) (whole : Bool) (off : Nat) (data : List Byte) : M Unit := do
  let s ← get
  let q : Req := { who := c.who, cached := false }
  if Table.get false (s.core c.n).linePois (off / 128) && whole && decide (data.length < 128) then
    homeCheck q (spBase c.n + off)
    let line := off / 128 * 128
    let got := (c.asNow s).halves ++ [off / 128 * 2, off / 128 * 2 + 1].filter fun h =>
      decide (off ≤ 64 * h ∧ 64 * h + 64 ≤ off + data.length)
    modify fun s => { s with mem := Memory.writeList s.mem (spBase c.n + off) data }
    c.modFlight fun f => { f with halves := got }
    let s ← get
    if got.contains (line / 64) && got.contains (line / 64 + 1) then
      writeRun q (spBase c.n + line) (Memory.readList s.mem (spBase c.n + line) 128)
  else writeRun q (spBase c.n + off) data

/-- Write a run of the own scratchpad, each piece at its own translation and with the tag of the command (R144). Of the bank
lines that `whole` picks the command covers every byte, if in several runs (R138). -/
def Cx.putLocal (c : Cx) (whole : Nat → Bool) (va : Nat) (data : List Byte) : M Unit :=
  (stripes va data).forM fun p => do
    let off ← c.localOff .store (p.1 % 2 ^ 64)
    M.atRun p.1 (spBase c.n + off) (c.putBank (whole (p.1 / 128)) off p.2)
    match c.layTag with
    | some tag => modify fun s => s.modCore c.n fun k => k.setTags off p.2.length tag
    | none => pure ()

def noLines (_ : Nat) : Bool := false

def Cx.writeLocal (c : Cx) (va : Nat) (data : List Byte) : M Unit := c.putLocal noLines va data

/-- The fault "direct effect not declared" (R251). -/
def notDeclared {α : Type} : M α := flt 20

/-- Whole MMIO registers written by an engine of a pinned task (R251, R404). -/
def Cx.writeMmio (c : Cx) (va pa : Nat) (data : List Byte) : M Unit := do
  if pa % 8 ≠ 0 ∨ data.length % 8 ≠ 0 then throw (.flt { cause := 3, detail := 2, aux := 1, va := some va })
  (List.range (data.length / 8)).forM fun i => M.at (some va) none <| mmioWrite c.who (pa + 8 * i) (BitVec.ofNat 64 (fieldOf data (8 * i) 8))

/-- The lines that a run of a command comes to occupy have their room (R251); a page that had no translation when they were reserved
has one now. -/
def Cx.takeRoom (c : Cx) (va : Nat) (ls : List Nat) : M Unit := do
  c.modFlight fun f => { f with resv := f.resv.map fun l => l.filter (· != .page (va % 2 ^ 64 / 64)) }
  needRoom c.n (ls.map .line)

/-- Stage a run of a command. -/
def Cx.stage (c : Cx) (res va : Nat) (ph : Phys) (data : List Byte) : M Unit := do
  if ph.home = homeUncached then notDeclared
  let s ← get
  c.takeRoom va (linesOf (s.norm ph.pa) data.length)
  M.atRun va ph.pa (stageBytes c.n c.who res ph.pa ph.va data)

/-- Where a store of a command goes (R251): into the own scratchpad, staged, or to its home. The run lies in one line, or in
one 1 KiB block of a scratchpad. -/
def Cx.storeOver (c : Cx) (whole : Nat → Bool) (res va : Nat) (data : List Byte) : M Unit := do
  let ph ← c.xlate .store (va % 2 ^ 64)
  let s ← get
  let staging := (s.core c.n).stages
  match s.loc ph.pa with
  | .sp m _ =>
    if m = c.n then c.putLocal whole va data
    else if staging then c.stage res va ph data
    else M.atRun va ph.pa (writeRun (c.req ph.home res) ph.pa data)
  | .mmio pa => if staging then notDeclared else c.writeMmio va pa data
  | _ =>
    if staging then c.stage res va ph data
    else
      M.atRun va ph.pa (writeRun (c.req ph.home res) ph.pa data)
      -- acknowledged by its home, the write is performed at package scope (R321)
      modify fun s => s.takeInval fun k => (linesOf (s.norm ph.pa) data.length).contains k.line

def Cx.store (c : Cx) (res va : Nat) (data : List Byte) : M Unit := c.storeOver noLines res va data

/-- The staging lines that runs occupy, checked to be stageable (R251). A page that does not translate is met when the command comes
to it (R261), and its lines count by their virtual addresses (log 95); `strict` meets it now. -/
def Cx.linesToStage (c : Cx) (strict : Bool) (runs : List (Nat × Nat)) : M (List Room) := do
  let per ← runs.mapM fun r => (pieces (r.2 + 1) 64 r.1 (List.replicate r.2 0)).mapM fun p =>
    tryCatch (do
      let ph ← c.xlate .store (p.1 % 2 ^ 64)
      let s ← get
      match s.loc ph.pa with
      | .sp m _ => if m = c.n then pure [] else
          if ph.home = homeUncached then notDeclared else pure ((linesOf (s.norm ph.pa) p.2.length).map .line)
      | .mmio _ => notDeclared
      | _ => if ph.home = homeUncached then notDeclared else pure ((linesOf (s.norm ph.pa) p.2.length).map .line)) fun e =>
        match e with
        | .flt f => if strict ∨ f.cause = 20 then throw e else pure ((linesOf (p.1 % 2 ^ 64) p.2.length).map .page)
        | e => throw e
  pure per.flatten.flatten

/-- Reserve the staging lines of a command before it writes anything (R33, R251): of its runs, and of a counter that it will
decrement. -/
def Cx.reserve (c : Cx) (strict : Bool) (runs : List (Nat × Nat)) (ctr : Option Nat) : M Unit := do
  let s ← get
  if (s.core c.n).stages ∧ (c.asNow s).resv = none then
    let ls := (← c.linesToStage strict runs) ++ (ctr.map Room.counter).toList
    needRoom c.n ls
    c.modFlight fun f => { f with resv := some ls }

/-! ### Runs of a copy command -/

/-- Cut a destination in a scratchpad: whole stripes, else bank lines (R133, R138). Offsets from its start, with lengths. -/
def cutBanks (va len : Nat) : List (Nat × Nat) :=
  (pieces (len + 1) 1024 va (List.replicate len 0)).flatMap fun p =>
    if p.2.length = 1024 then [(p.1 - va, 1024)]
    else (pieces (p.2.length + 1) 128 p.1 p.2).map fun q => (q.1 - va, q.2.length)

/-- Cut a run into its 64-byte lines. -/
def cutLines (va len : Nat) : List (Nat × Nat) :=
  (pieces (len + 1) 64 va (List.replicate len 0)).map fun p => (p.1 - va, p.2.length)

/-- Bytes of a piece of a row with the Gazetteer entries they give rise to. -/
abbrev Bits := List Byte × List (Nat × Nat)

/-- Gather the bytes of a piece line by line; what was gathered when a line failed, and the failure with its place. -/
def gather (get1 : Nat → Nat → M Bits) : List (Nat × Nat) → Bits → M (Bits × Option (Flt × Nat))
  | [], acc => pure (acc, none)
  | (o, n) :: rest, acc => do
    let r ← tryCatch (do pure (Except.ok (← get1 o n))) fun e => match e with
      | .flt f => pure (Except.error f)
      | e => throw e
    match r with
    | .ok (b : Bits) => gather get1 rest (acc.1 ++ b.1, acc.2 ++ b.2)
    | .error f => pure (acc, some (f, o))

/-- A row of a copy: where it begins in the destination as the copy offset counts (R163), the pitch to the next row (0 for
a single row), its address and length, the swizzle mask of the row (R151), where the bytes come from by their place `c`
in the row, the addresses that reads, for a conversion the width of a destination element and what element `e` comes to, with its
entries (R153, R258), and for a decoder the address of its stream (R159). -/
structure CopyRow where
  base : Nat
  pitch : Nat
  va : Nat
  len : Nat
  swz : Nat
  src : Nat → Nat → M Bits
  reads : Nat → Nat → List (Nat × Nat) := fun _ _ => []
  each : Option (Nat × (Nat → M (Nat × List (Nat × Nat)))) := none
  stream : Option Nat := none

/-- From which place of the row on a command with copy offset `done` has still to work; none when the row is done. -/
def CopyRow.from (r : CopyRow) (done : Nat) : Option Nat :=
  if done < r.base then some 0
  else if r.pitch ≠ 0 ∧ r.base + r.pitch ≤ done then none
  else some ((done - r.base) ^^^ (r.swz / 64 * 64))

/-- The bytes of a block of places, each at its place XOR `m` (R151). -/
def swizzle (m : Nat) (l : List Byte) : List Byte := (List.range l.length).map fun o => l.getD (o ^^^ m) 0

/-- How a command puts bytes at their destination: the check that comes before any byte of a piece is gathered, the write,
the check that comes before so many entries, the append of one, how a row is cut into pieces, which lines of the own
scratchpad runs touch, a byte of it as it stands, and the runs of the command in the order of its rows. -/
structure Sink where
  check : Nat → M Unit
  put : Nat → List Byte → M Unit
  room : Nat → M Unit
  gaz : Nat → Nat → M Unit
  cut : Nat → Nat → M (List (Nat × Nat))
  own : List (Nat × Nat) → M (List Nat)
  peek : Nat → M Nat
  runs : List (Nat × Nat)

/-- The pieces of a swizzled row from place `c` on, in the order of their places: the place, the offset in the row at which the piece
lies, and its bytes as they lie there (R151). A piece is a whole stripe or a bank line where the row begins at one. -/
def swzPieces (va m c : Nat) (l : List Byte) : List (Nat × Nat × List Byte) :=
  let lay := fun (u : Nat) (p : Nat × List Byte) => (p.1, p.1 ^^^ (m / u * u), swizzle (m % u) p.2)
  (pieces (l.length + 1) 1024 c l).flatMap fun p =>
    if p.2.length = 1024 ∧ va % 1024 = 0 then [lay 1024 p]
    else (pieces (p.2.length + 1) 128 p.1 p.2).flatMap fun q =>
      if q.2.length = 128 ∧ va % 128 = 0 then [lay 128 q]
      else (pieces (q.2.length + 1) 64 q.1 q.2).map (lay 64)

/-- Where a place of a row lies as the copy offset counts. -/
def CopyRow.flat (r : CopyRow) (c : Nat) : Nat := r.base + (c ^^^ (r.swz / 64 * 64))

/-- Put what is at hand from place `c` on, line by line in the order of the places, then append its entries. A line that fails stops the
command there (R163). -/
def Sink.take (k : Sink) (r : CopyRow) (c : Nat) (b : Bits) : M Unit := do
  if r.swz = 0 then
    (stripes (r.va + c) b.1).forM fun p => M.at none (some (r.flat (p.1 - r.va))) (k.put p.1 p.2)
  else
    (swzPieces r.va r.swz c b.1).forM fun p => M.at none (some (r.flat p.1)) (k.put (r.va + p.2.1) p.2.2)
  b.2.forM fun e => k.gaz e.1 e.2

/-- Copy lines of a row, as places and lengths, that are gathered whole, in one access, before they are put. -/
def copyLines (k : Sink) (r : CopyRow) (ls : List (Nat × Nat)) : M Unit :=
  match ls with
  | [] => pure ()
  | (c, _) :: _ => do
    M.at none (some (r.flat c)) (k.check (r.va + (c ^^^ (r.swz / 64 * 64))))
    let (data, bad) ← inBurst (gather r.src ls ([], []))
    M.at none (some (r.flat c)) (k.room data.2.length)
    M.at none (some (r.flat c)) (k.take r c data)
    match bad with
    | none => pure ()
    | some (f, c') => throw (.flt { f with off := some (r.flat c') })

/-- Copy lines of a row byte after byte: where the destination meets the source, a byte is read after the bytes before it are written
(R151, R256). -/
def copyUnits (k : Sink) (r : CopyRow) (ls : List (Nat × Nat)) : M Unit :=
  ls.forM fun l => M.at none (some (r.flat l.1)) do
    (span l.1 l.2).forM fun o => do
      let m := r.swz / 16 * 16
      k.check (r.va + (o ^^^ m))
      let b ← r.src o 1
      k.put (r.va + (o ^^^ m)) b.1

/-- Convert the elements that begin in lines of a row one after the other, each read after the ones before it are written (R153, R258).
`c0` is where the command goes on: of an element that it has begun before, the rest is written. -/
def copyElems (k : Sink) (r : CopyRow) (w : Nat) (elem : Nat → M (Nat × List (Nat × Nat))) (c0 : Nat) (ls : List (Nat × Nat)) : M Unit := do
  let lo := (ls.headD (0, 0)).1
  let hi := ls.foldl (fun _ l => l.1 + l.2) 0
  let e0 := if lo = c0 then 8 * lo / w else (8 * lo + w - 1) / w
  (span e0 ((8 * hi + w - 1) / w - e0)).forM fun e => do
    let b := max c0 (e * w / 8)
    let at_ := fun (o : Nat) => r.va + (o ^^^ (r.swz / 16 * 16))
    M.at none (some (r.flat b)) (k.check (at_ b))
    let x ← M.at none (some (r.flat b)) (elem e)
    M.at none (some (r.flat b)) (k.room x.2.length)
    let bytes ← if w = 4 then do
        let old ← M.at none (some (r.flat b)) (k.peek (at_ b))
        pure [BitVec.ofNat 8 (if e % 2 = 0 then x.1 % 16 + old / 16 * 16 else old % 16 + x.1 % 16 * 16)]
      else pure ((leBytes (w / 8) x.1).drop (b - e * w / 8))
    (pieces (bytes.length + 1) 64 (at_ b) bytes).forM fun p => M.at none (some (r.flat (b + (p.1 - at_ b)))) (k.put p.1 p.2)
    x.2.forM fun g => M.at none (some (r.flat b)) (k.gaz g.1 g.2)

/-- Has no 64-byte line bytes of two lists of runs? -/
def linesApart (a b : List (Nat × Nat)) : Bool :=
  !(a.any fun x => b.any fun y =>
    decide (x.2 ≠ 0 ∧ y.2 ≠ 0 ∧ x.1 / 64 ≤ (y.1 + y.2 - 1) / 64 ∧ y.1 / 64 ≤ (x.1 + x.2 - 1) / 64))

/-- May a command be seen between what it has written and what it has still to write, at place `c` of its row `i`: no line of its
destination is half new (R32)? -/
def CopyRow.seam (r : CopyRow) (runs : List (Nat × Nat)) (i c : Nat) : Bool :=
  let before := runs.take i
  let after := runs.drop (i + 1)
  (match r.each with
   | some (w, _) => 8 * c % w == 0
   | none => true) &&
  (if c = 0 then linesApart before ((r.va, r.len) :: after)
   else if r.swz = 0 then linesApart ((r.va, c) :: before) ((r.va + c, r.len - c) :: after)
   else r.va % 64 == 0 && linesApart before ((r.va, r.len) :: after) && linesApart [(r.va, r.len)] after)

/-- Copy row `i` of a command, piece by piece in the order of R151 from the copy offset on (R163, R261): a failing line stops the command
at that line, with the lines before it written and none from it onward. The lines are boundaries at which the engine may
stop (R304), or at which a decoder is cut off (R159). -/
def copyRow (done : Nat) (k : Sink) (i : Nat) (r : CopyRow) : M Unit := do
  match r.from done with
  | none => pure ()
  | some c0 => do
    let groups ← if r.swz = 0 then k.cut r.va r.len
      else pure ((pieces (r.len + 1) 1024 0 (List.replicate r.len 0)).map fun p => (p.1, p.2.length))
    groups.forM fun g => do
      let ls := ((cutLines (if r.swz = 0 then r.va + g.1 else g.1) g.2).map fun q => (g.1 + q.1, q.2)).filter
        fun q => decide (c0 ≤ q.1)
      let s ← get
      let n := (s.left.bind fun m => (List.range ls.length).find? fun j =>
        decide (m ≤ j) && r.seam k.runs i (ls.getD j (0, 0)).1).getD ls.length
      set ({ s with left := s.left.map fun m => m - n } : State)
      let go := ls.take n
      let from_ ← k.own (go.flatMap fun l => r.reads l.1 l.2)
      let into ← if from_ = [] then pure [] else k.own (go.map fun l => (r.va + (l.1 ^^^ (r.swz / 64 * 64)), l.2))
      if from_.any into.contains then
        match r.each with
        | some x => copyElems k r x.1 x.2 c0 go
        | none => copyUnits k r go
      else copyLines k r go
      match ls.drop n with
      | [] => pure ()
      | (c, _) :: _ =>
        match r.stream with
        | some a => if s.slow then throw (.flt { cause := 19, detail := 5, aux2 := a, off := some (r.flat c) })
        | none => pure ()
        throw (.pause (some (r.flat c)))

/-- Copy the rows of a command in order. -/
def copyRows (done : Nat) (k : Sink) (rows : List CopyRow) : M Unit := rows.zipIdx.forM fun r => copyRow done k r.2 r.1

/-! ### Vector operands (R59, R166, R167) -/

/-- A lane word of a vector register. -/
def Core.lane (k : Core) (r i : Nat) : Nat := (Table.get (0 : W32) k.v (r * 128 + i)).toNat

def Core.poisoned (k : Core) (r i : Nat) : Bool := Table.get false k.vpois (r * 128 + i)

/-- A mask register; k0 reads all-ones (R166). -/
def Core.mask (k : Core) (i : Nat) : BitVec 128 := if i = 0 then BitVec.allOnes 128 else Table.get 0 k.k i

/-- Writing k0 has no effect: no command does (R166). -/
def Core.setMask (k : Core) (i : Nat) (v : BitVec 128) : Core := if i = 0 then k else { k with k := Table.put 0 k.k i v }

/-- Write a lane without poison, or with poison from an origin. -/
def Core.setLane (k : Core) (r i w : Nat) (pois : Option (Nat × Nat)) : Core :=
  let k := { k with v := Table.put 0 k.v (r * 128 + i) (BitVec.ofNat 32 w), vpois := Table.put false k.vpois (r * 128 + i) pois.isSome }
  match pois with
  | some g => { k with vorg := Table.put (0, 0) k.vorg r g }
  | none => k

/-- The code that an operand delivers at position `e` of lane `i`, before NEG (R59). -/
def Core.code (k : Core) (t : ETy) (o : VOp) (i e : Nat) : Nat := t.elem (k.lane o.num i) (o.from t.perLane e)

/-- The same code with NEG applied to a floating-point type (R59). -/
def Core.fcode (k : Core) (t : ETy) (o : VOp) (i e : Nat) : Nat :=
  let c := k.code t o i e
  if o.neg && t.isFloat then t.fmt.flipSign c else c

/-- The integer an operand delivers (R174), with the flag of a reserved code. -/
def Core.int (k : Core) (t : ETy) (o : VOp) (i e : Nat) : Int × Flags :=
  let c := k.code t o i e
  let v := t.intVal c
  (if o.neg then -v else v, { nv := t.reserved c })

/-- The floating-point value an operand delivers (R195), with the flag of a signalling NaN. -/
def Core.fval (k : Core) (t : ETy) (o : VOp) (i e : Nat) : XVal × Flags := t.value (k.fcode t o i e)

/-- Any element as a value: NEG gives the exact negated value (R174, R195). -/
def Core.val (k : Core) (t : ETy) (o : VOp) (i e : Nat) : XVal × Flags :=
  if t.isFloat then k.fval t o i e
  else
    let v := t.value (k.code t o i e)
    (if v.1.isNaN then v.1 else .ofInt (k.int t o i e).1, v.2)

end Sys2Proof.Machine
end

