-- ==== Sys2Proof/Machine/Flags.lean ====
section
/-! DEFINITION. Flags of engine commands in `numst` (R72, R73) and the Gazetteer: its descriptors (R88), its entries (R87) and
appending to it (R89, R251). -/
namespace Sys2Proof.Machine

/-- OR the flags of a command into `numst` (R73). -/
def Cx.flags (c : Cx) (f : Flags) : M Unit := modify fun s => s.orFlags c.n f

/-- A continuing record of the command (R73, R353), without cause and words of its own. -/
def Cx.informs (c : Cx) (cause detail aux aux2 : Nat) : FaultRec :=
  { cause := cause, detail := detail, eng := c.e.num, cont := true, slot := c.f.slot.toNat, opc := c.f.org.pc.toNat,
    aux := aux, aux2 := aux2 }

/-- L8D, with the record that EL8D asks for: `g` is the first code position disturbed (R73, R205). -/
def Cx.l8Disturbed (c : Cx) (g : Nat) : M Unit := do
  c.flags { l8d := true }
  let s ← get
  if (s.core c.n).hart.csrBit 0x800 16 then c.owe (c.informs 15 0 g 0)

/-! ### The Gazetteer -/

/-- Words of descriptor `d` of a core (R88). -/
def Core.gazWord (k : Core) (d i : Nat) : Nat := (k.hart.csrRaw (0x810 + 4 * d + i)).toNat

def Core.gazBase (k : Core) (d : Nat) : Nat := bits (k.gazWord d 0) 63 3 * 8
def Core.gazCap (k : Core) (d : Nat) : Nat := bits (k.gazWord d 1) 31 0
def Core.gazNext (k : Core) (d : Nat) : Nat := bits (k.gazWord d 1) 63 32
def Core.gazCnta (k : Core) (d : Nat) : Nat := bits (k.gazWord d 2) 63 2 * 4
def Core.gazLost (k : Core) (d : Nat) : Nat := bits (k.gazWord d 3) 31 0

/-- Set a field of a word of a descriptor. -/
def Core.gazSet (k : Core) (d i hi lo v : Nat) : Core := { k with hart := k.hart.setCsrBits (0x810 + 4 * d + i) hi lo v }

/-- What appending `n` entries and storing the count word would write: addresses and lengths. -/
def Core.gazRuns (k : Core) (d n : Nat) : List (Nat × Nat) :=
  let last := min (k.gazCap d) (k.gazNext d + n)
  ((span (k.gazNext d) (last - k.gazNext d)).map fun i => ((k.gazBase d + 8 * i) % 2 ^ 64, 8)) ++
    (if k.gazCnta d = 0 then [] else [(k.gazCnta d, 4)])

/-- A lost append: the flag GZL, and the record that EGZL asks for, whose AUX is LOST after the command's last loss (R73,
R353). -/
def Cx.gazLoss (c : Cx) (d : Nat) : M Unit := do
  modify fun s => s.modCore c.n fun k => k.gazSet d 3 31 0 (min (k.gazLost d + 1) 0xFFFFFFFF)
  c.flags { gzl := true }
  let s ← get
  let k := s.core c.n
  if k.hart.csrBit 0x800 17 then
    let r := c.informs 16 d (k.gazLost d) 0
    c.owe r
    c.modFlight fun f => { f with recs := f.recs.map fun (o : FaultRec) => if o.cause = 16 then r else o }

/-- GazAppend (R89): one entry whole, or counted lost. -/
def Cx.gazAppend (c : Cx) (d idx val : Nat) : M Unit := do
  let s ← get
  let k := s.core c.n
  if k.gazNext d < k.gazCap d then
    c.store 0 (k.gazBase d + 8 * k.gazNext d) (leBytes 4 idx ++ leBytes 4 val)
    modify fun s => s.modCore c.n fun k => k.gazSet d 1 63 32 (k.gazNext d + 1)
  else c.gazLoss d

/-- The count word at the command's completion (R89). -/
def Cx.gazCount (c : Cx) (d : Nat) : M Unit := do
  let s ← get
  let k := s.core c.n
  if k.gazCnta d = 0 then pure ()
  else c.store 0 (k.gazCnta d) (leBytes 4 (min (k.gazNext d) (k.gazCap d)))

/-- Put an entry into a list by ascending index. -/
def gazInsert (e : Nat × Nat) : List (Nat × Nat) → List (Nat × Nat)
  | [] => [e]
  | x :: r => if e.1 < x.1 then e :: x :: r else x :: gazInsert e r

/-- Entries in ascending flat index (R89). -/
def gazSort (l : List (Nat × Nat)) : List (Nat × Nat) := l.foldl (fun acc e => gazInsert e acc) []

/-- Every store of `n` appends and of the count word is known to translate and to have its staging line (R33, R251). -/
def Cx.gazReady (c : Cx) (d n : Nat) : M Unit := do
  let s ← get
  let runs := (s.core c.n).gazRuns d n
  runs.forM fun r => do let _ ← c.xlate .store r.1
  c.reserve true runs none

/-- All appends of a command that knows them at once, and its count word: nothing is stored before everything is ready. -/
def Cx.gazAll (c : Cx) (d : Nat) (l : List (Nat × Nat)) : M Unit := do
  c.gazReady d l.length
  (gazSort l).forM fun e => c.gazAppend d e.1 e.2
  c.gazCount d

end Sys2Proof.Machine
end

