-- ==== Sys2Proof/Machine/Ld.lean ====
section
/-! DEFINITION. The LD ring of the copy engine (R146 to R165). -/
namespace Sys2Proof

/-! ### Fields of the layouts (R148, R154, R161) -/

def LdArgs.sstr1 (a : LdArgs) : Int := sext 24 (bits a.q3.toNat 23 0)
def LdArgs.sstr2 (a : LdArgs) : Int := sext 24 (bits a.q3.toNat 47 24)
def LdArgs.dp1 (a : LdArgs) : Nat := bits a.q3.toNat 55 48
def LdArgs.dtype (a : LdArgs) : Nat := bits a.q3.toNat 63 56
/-- DP1 of LD.GATHER and LD.MCAST. -/
def LdArgs.dp1g (a : LdArgs) : Nat := bits a.q3.toNat 31 24
/-- IDX of LD.GATHER, LAND of LD.MCAST. -/
def LdArgs.hi3 (a : LdArgs) : Nat := bits a.q3.toNat 63 32
def LdArgs.lbuf (a : LdArgs) : Nat := bits a.stype.toNat 4 0
/-- EXP and CTR of LD.BPN and LD.BMV, GZ of LD.CVT. -/
def LdArgs.exp (a : LdArgs) : Bool := a.cs.getLsbD 0
def LdArgs.ctr (a : LdArgs) : Bool := a.cs.getLsbD 1
def LdArgs.gz (a : LdArgs) : Nat := a.cs.toNat / 2
def LdArgs.len (a : LdArgs) : Nat := a.len0.toNat
def LdArgs.tag (a : LdArgs) : Nat := a.span.toNat * 2 + b2n a.tr

end Sys2Proof

namespace Sys2Proof.Machine

/-! ### Refetch (R164) -/

/-- Is a copy of the line dirty in a cache? -/
def State.dirtyCopy (s : State) (pa : Nat) : Bool :=
  let d := fun (e : Nat × Option CTag) => match e.2 with
    | some t => t.addr == pa / 128 && t.dirty
    | none => false
  s.hubTags.any d || s.ccTags.any d

/-- Drop the cached copies of a line. -/
def State.dropLine (s : State) (pa : Nat) : State :=
  s.dropTags fun t => t.addr == pa / 128

/-- One attempt of a recovery, logged with the address it reads and its outcome. -/
def attempt (c : Cx) (step pa : Nat) (m : M (List Byte)) : M (List Byte) :=
  tryCatch (do
    let b ← m
    logM 0x04 (dieOf c.n) pa [step, 0]
    pure b) fun e => do
      match e with
      | .flt f => logM 0x04 (dieOf c.n) pa [step, f.cause]
      | _ => pure ()
      throw e

/-- The recovery of one failing source line: once more from its home, then once from the replica. -/
def Cx.refetch (c : Cx) (f : Flt) (replica : W64) (res : Nat) (run : Nat × Nat) (va len : Nat) : M (List Byte) := do
  let pa := f.aux2
  let s ← get
  if s.dirtyCopy pa then throw (.flt f)
  let third := do
    let va' := addVa va replica.toNat
    let at_ ← tryCatch (do pure (← c.xlate .load va').pa) fun e => match e with
      | .flt _ => pure 0
      | e => throw e
    attempt c 3 at_ (c.readPart res (addVa run.1 replica.toNat, run.2) va' len)
  if f.cause = 6 then third
  else
    modify fun s => s.dropLine pa
    tryCatch (attempt c 2 pa (c.readPart 3 run va len)) fun e => match e with
      | .flt _ => third
      | e => throw e

/-- Read bytes `o` to `o + n` of a source run of an LD command, recovering each failing line where RFT asks for it. -/
def Cx.source (c : Cx) (a : LdArgs) (run : Nat × Nat) (o n : Nat) : M (List Byte) := do
  let va := addVa run.1 o
  let parts ← (pieces (n + 1) 64 va (List.replicate n 0)).mapM fun p =>
    tryCatch (c.readPart a.res.toNat run p.1 p.2.length) fun e => match e with
      | .flt f =>
        if a.rft ∧ (f.cause = 5 ∨ f.cause = 6) then c.refetch f (c.areg a.rreg.toNat) a.res.toNat run p.1 p.2.length
        else throw e
      | e => throw e
  pure parts.flatten

/-! ### Rows and their landing -/

/-- The rows of the shape fields: row number, and the source address of the row (R151). -/
def Cx.ldRows (c : Cx) (a : LdArgs) : List (Nat × Nat) :=
  (List.range (a.cnt1.toNat * a.cnt2.toNat)).map fun rho =>
    (rho, addVa (c.addr a.q1hi) ((rho % a.cnt1.toNat : Nat) * a.sstr1 + (rho / a.cnt1.toNat : Nat) * a.sstr2 * 64))

/-- The swizzle mask of a row (R151). -/
def swzMask (span rho : Nat) : Nat := 16 * (rho % 2 ^ span)

/-- A destination row in the own scratchpad. -/
def Cx.ldRow (c : Cx) (a : LdArgs) (pitch len rho : Nat) (src : Nat → Nat → M Bits) : CopyRow :=
  { base := rho * pitch, pitch := if a.cnt1.toNat * a.cnt2.toNat ≤ 1 then 0 else pitch, va := c.addr a.dst + rho * pitch, len := len,
    swz := swzMask a.span.toNat rho, src := src }

/-- Do runs that a command writes cover every byte of a bank line (R138)? -/
def coverLine (runs : List (Nat × Nat)) (l : Nat) : Bool :=
  let half := fun (h : Nat) => runs.any fun r => decide (r.1 ≤ h ∧ h + 64 ≤ r.1 + r.2)
  half (l * 128) && half (l * 128 + 64)

/-- What rows write. -/
def runsOf (rows : List CopyRow) : List (Nat × Nat) := rows.map fun r => (r.va, r.len)

/-- A byte of the own scratchpad as it stands, 0 elsewhere. -/
def Cx.peekByte (c : Cx) (va : Nat) : M Nat := do
  let ph ← c.xlate .store (va % 2 ^ 64)
  let s ← get
  match s.loc ph.pa with
  | .sp m off => pure (if m = c.n then (Memory.read s.mem (spBase c.n + off)).toNat else 0)
  | _ => pure 0

/-- Where LD rows go: the own scratchpad, with the layout tag; entries to descriptor `d`. `runs` are those of the command. -/
def Cx.ldSink (c : Cx) (runs : List (Nat × Nat)) (d : Nat) : Sink :=
  { check := fun va => do let _ ← c.localOff .store (va % 2 ^ 64)
    put := c.putLocal (coverLine runs)
    room := fun n => do
      let s ← get
      ((s.core c.n).gazRuns d n).forM fun r => if n = 0 then pure () else do let _ ← c.xlate .store r.1
    gaz := c.gazAppend d
    cut := fun va len => pure (cutBanks va len)
    own := c.ownLines
    peek := c.peekByte
    runs := runs }

/-- Bytes with no entries. -/
def plainBits (m : M (List Byte)) : M Bits := do pure (← m, [])

/-- Copy rows into the own scratchpad; the counter has its staging line beforehand (R33, R165). -/
def Cx.ldCopy (c : Cx) (rows : List CopyRow) : M Bool := do
  c.reserve false [] (c.f.dctr c.e)
  copyRows c.f.prog.off (c.ldSink (runsOf rows) 0) rows
  pure true

/-! ### LD.TILE, LD.MOVE, LD.FILL (R151) -/

def ldTileBody (c : Cx) (a : LdArgs) : M Bool :=
  c.ldCopy ((c.ldRows a).map fun r =>
    { c.ldRow a (a.dp1 * 64) a.len r.1 (fun o n => plainBits (c.source a (r.2, a.len) o n)) with
      reads := fun o n => [(addVa r.2 o, n)] })

/-- A run of any core's scratchpad; anything else is "not local scratchpad", before it is read. -/
def Cx.readWindow (c : Cx) (va len : Nat) : M (List Byte) := do
  let parts ← (pieces (len + 1) 64 va (List.replicate len 0)).mapM fun p => do
    let ph ← c.xlate .load p.1
    let s ← get
    match s.loc ph.pa with
    | .sp _ _ => M.atRun p.1 ph.pa (readSeg (c.req ph.home 0) ph.pa p.2.length)
    | _ => notLocal .load p.1
  pure parts.flatten

/-- Each row is read whole before it is written. -/
def ldMoveBody (c : Cx) (a : LdArgs) : M Bool := do
  c.reserve false [] (c.f.dctr c.e)
  let rows := (c.ldRows a).map fun r => (r.2, c.ldRow a (a.dp1 * 64) a.len r.1 fun _ _ => plainBits (pure []))
  rows.zipIdx.forM fun p => do
    let r := p.1
    match r.2.from c.f.prog.off with
    | none => pure ()
    | some o0 => do
      -- of a row that the command has begun to write, what it has read is kept (log 49)
      let kept := (c.asNow (← get)).list
      let data ← match (if o0 = 0 then none else kept) with
        | some d => pure d
        | none => M.at none (some (r.2.flat o0)) (inBurst (c.readWindow r.1 a.len))
      c.modFlight fun f => { f with list := some data }
      copyRow c.f.prog.off (c.ldSink (runsOf (rows.map (·.2))) 0) p.2
        { r.2 with src := fun o n => plainBits (pure ((data.drop o).take n)) }
  c.modFlight fun f => { f with list := none }
  pure true

def ldFillBody (c : Cx) (a : LdArgs) : M Bool :=
  c.ldCopy ((c.ldRows a).map fun r => c.ldRow a (a.dp1 * 64) a.len r.1 fun o n =>
    plainBits (pure ((span o n).map fun k => BitVec.ofNat 8 (a.q1hi.toNat >>> (8 * (k % 4))))))

/-! ### LD.CVT (R153) -/

/-- The element type of a code; I4 stands in where a reserved code never comes. -/
def tyOf (code : Nat) : ETy := (ETy.ofCode code).getD .i4

/-- Convert the elements whose bytes lie at places `o` to `o + n` of a destination row: the bytes, the flags, and the entries
of elements that begin there. -/
def cvtRun (st dt : ETy) (h : Hdr) (first o n e0 : Nat) (codes : List Nat) : List Byte × Flags × List (Nat × Nat) :=
  let outs := codes.map fun code =>
    let v := st.value code
    let r := dt.round h.ovm h.mode v.1
    (r.code, v.2.or r.flags, if r.gazed then some (gazValue h.mode v.1) else none)
  let starts := fun (i : Nat) => let b := (e0 + i) * dt.width / 8; decide (o ≤ b ∧ b < o + n)
  let row := dt.rowBytes (outs.map (·.1))
  (((row.drop (o - e0 * dt.width / 8)).take n),
   outs.zipIdx.foldl (fun fl p => if starts p.2 then fl.or p.1.2.1 else fl) {},
   outs.zipIdx.filterMap fun p => if starts p.2 then p.1.2.2.map fun v => (first + e0 + p.2, v) else none)

/-- Elements needed for bytes `o` to `o + n` of a row: the first, and how many (4-bit elements in pairs). -/
def needed (dt : ETy) (o n len : Nat) : Nat × Nat :=
  let e0 := if dt.width = 4 then o * 2 else o / (dt.width / 8)
  let e1 := if dt.width = 4 then (o + n) * 2 else (o + n - 1) / (dt.width / 8) + 1
  (e0, min e1 len - e0)

/-- Source codes of elements `e0` to `e0 + k` of a row read by `rd` (4-bit elements begin in whole bytes). -/
def codesOf (st : ETy) (rd : Nat → Nat → M (List Byte)) (e0 k : Nat) : M (List Nat) := do
  let b0 := e0 * st.width / 8
  let b1 := ((e0 + k) * st.width + 7) / 8
  let row ← rd b0 (b1 - b0)
  let skip := if st.width = 4 then e0 % 2 else 0
  pure ((List.range k).map fun i => st.inRow row (i + skip))

/-- The source bytes that a destination run takes. -/
def cvtReads (st dt : ETy) (len base o n : Nat) : List (Nat × Nat) :=
  let w := needed dt o n len
  let b0 := w.1 * st.width / 8
  [(addVa base b0, ((w.1 + w.2) * st.width + 7) / 8 - b0)]

/-- The converted bytes of a destination run, with flags set and entries to append. -/
def Cx.cvtSrc (c : Cx) (h : Hdr) (st dt : ETy) (first len : Nat) (rd : Nat → Nat → M (List Byte)) (o n : Nat) : M Bits := do
  let w := needed dt o n len
  let codes ← codesOf st rd w.1 w.2
  let r := cvtRun st dt h first o n w.1 codes
  c.flags r.2.1
  pure (r.1, r.2.2)

/-- One element of a row converted, with flags set and its entry. -/
def Cx.cvtElem (c : Cx) (h : Hdr) (st dt : ETy) (first : Nat) (rd : Nat → Nat → M (List Byte)) (e : Nat) : M (Nat × List (Nat × Nat)) := do
  let code := (← codesOf st rd e 1).headD 0
  let v := st.value code
  let r := dt.round h.ovm h.mode v.1
  c.flags (v.2.or r.flags)
  pure (r.code, if r.gazed then [(first + e, gazValue h.mode v.1)] else [])

def ldCvtBody (c : Cx) (h : Hdr) (a : LdArgs) : M Bool := do
  let st := tyOf a.stype.toNat
  let dt := tyOf a.dtype
  let total := a.len * a.cnt1.toNat * a.cnt2.toNat
  let s ← get
  c.reserve false (if h.ovm = .gaz then (s.core c.n).gazRuns a.gz total else []) (c.f.dctr c.e)
  let rows := (c.ldRows a).map fun r =>
    let rd := fun (o n : Nat) => c.source a (r.2, st.bytes a.len) o n
    { c.ldRow a (a.dp1 * 64) (dt.bytes a.len) r.1 (c.cvtSrc h st dt (a.len * r.1) a.len rd) with
      reads := cvtReads st dt a.len r.2, each := some (dt.width, c.cvtElem h st dt (a.len * r.1) rd), stream := some r.2 }
  copyRows c.f.prog.off (c.ldSink (runsOf rows) a.gz) rows
  if h.ovm = .gaz then M.at none (some (a.cnt1.toNat * a.cnt2.toNat * max (a.dp1 * 64) (dt.bytes a.len))) (c.gazCount a.gz)
  pure true

/-! ### LD.GATHER (R154) -/

/-- What a command reads before it writes it reads once: it goes on with the same after a stall or a pause. -/
def Cx.once (c : Cx) (m : M (List Byte)) : M (List Byte) := do
  match (c.asNow (← get)).list with
  | some l => pure l
  | none => do
    let l ← M.at none (some c.f.prog.off) m
    c.modFlight fun f => { f with list := some l }
    pure l

def ldGatherBody (c : Cx) (a : LdArgs) : M Bool := do
  let idx ← c.once (c.readLocal (c.addr (BitVec.ofNat 32 a.hi3)) (4 * a.cnt1.toNat))
  c.ldCopy ((List.range a.cnt1.toNat).map fun i =>
    let k := fieldOf idx (4 * i) 4
    let from_ := addVa (c.addr a.q1hi) (k * a.sstr1)
    { c.ldRow a (a.dp1g * 64) a.len i (fun o n => plainBits <|
        if k = 0xFFFFFFFF then pure (List.replicate n 0) else c.source a (from_, a.len) o n) with
      reads := fun o n => if k = 0xFFFFFFFF then [] else [(addVa from_ o, n)] })

/-! ### LD.PREF (R155) -/

/-- Bring one line into the hub, or skip it. -/
def Cx.prefetch (c : Cx) (res va : Nat) : M Unit := do
  let r ← tryCatch (do pure (some (← c.xlate .load va))) fun e => match e with
    | .flt _ => pure none
    | e => throw e
  match r with
  | none => pure ()
  | some ph => do
    let s ← get
    let md := s.lineMeta ph.pa
    if s.rtDrain ∧ s.isDram ph.pa then throw .stall
    if ph.home ≠ homeCached ∨ (s.down (s.ctxOf c.who) ph.pa).isSome ∨ md.poison then pure ()
    else if md.diff ≠ 0 then logM 0x03 (dieOf c.n) ph.pa [0, c.n]
    else modify fun s => s.touchLine (.hub (s.ctxOf c.who)) ph.pa res 2 false

def ldPrefBody (c : Cx) (a : LdArgs) : M Bool := do
  c.reserve false [] (c.f.dctr c.e)
  let lines := (c.ldRows a).flatMap fun r => linesOf r.2 a.len
  (lines.zipIdx.drop (c.f.prog.off / 64)).forM fun l => do
    boundary (some (64 * l.2))
    c.prefetch a.res.toNat (l.1 * 64)
  pure true

/-! ### LD.BPN (R156) -/

def ldBpnBody (c : Cx) (a : LdArgs) : M Bool := do
  let k := a.stype.toNat - 0x10
  let base := c.addr a.q1hi
  if a.exp = false then
    -- planes 0 to k − 1 of each block, packed
    let rd := fun (o n : Nat) => do
      let parts ← (pieces (n + 1) (32 * k) o (List.replicate n 0)).mapM fun p =>
        c.source a (base, 256 * ((a.len + 255) / 256)) (256 * (p.1 / (32 * k)) + p.1 % (32 * k)) p.2.length
      pure parts.flatten
    c.ldCopy [c.ldRow a 0 (32 * k * ((a.len + 255) / 256)) 0 fun o n => plainBits (rd o n)]
  else
    let rd := fun (o n : Nat) => do
      let parts ← (pieces (n + 1) 256 o (List.replicate n 0)).mapM fun p => do
        let blk ← c.source a (base, 256 * ((a.len + 255) / 256)) (256 * (p.1 / 256)) (32 * k)
        pure ((span (p.1 % 256) p.2.length).map fun i =>
          BitVec.ofNat 8 (wrap 8 (bpnValue k a.ctr (bpnBits k (fun b => (blk.getD b 0).toNat) i))))
      pure parts.flatten
    c.ldCopy [{ c.ldRow a 0 a.len 0 (fun o n => plainBits (rd o n)) with stream := some base }]

/-! ### LD.BMV (R157, R158) -/

/-- A BMV stream's header and mask, as far as they are needed. -/
structure Bmv where
  count : Nat
  nnz : Nat
  mask : List Byte
  deriving DecidableEq, Repr

/-- Bytes of a stream's mask, and of the whole stream (R157). -/
def bmvMaskLen (count : Nat) : Nat := 64 * ((count + 511) / 512)
def bmvSize (count nnz w : Nat) : Nat := 16 + bmvMaskLen count + nnz * w

def bmvBit (mask : List Byte) (i : Nat) : Bool := bit (fieldOf mask (i / 8) 1) (i % 8)

/-- Mask bits set below element `i`. -/
def bmvRank (mask : List Byte) (i : Nat) : Nat :=
  (mask.take (i / 8)).foldl (fun acc b => acc + ((List.range 8).filter fun k => bit b.toNat k).length) 0 +
    ((List.range (i % 8)).filter fun k => bmvBit mask (i / 8 * 8 + k)).length

/-- Is a header malformed by itself (R157, detail 1)? -/
def bmvHeaderBad (ety : Nat) (h : List Byte) : Bool :=
  decide (fieldOf h 0 1 ≠ 0xB7 ∨ fieldOf h 1 1 ≠ ety ∨ fieldOf h 2 2 = 0 ∨ fieldOf h 2 2 < fieldOf h 4 2 ∨ fieldOf h 6 2 ≠ 0 ∨
    fieldOf h 8 4 ≠ 0)

/-- Read and check the header and the whole mask through `rd`; the lowest-numbered failing detail of R158, or the stream.
`limit` tells a length violation by the count and the size. -/
def bmvHead (rd : Nat → Nat → M (List Byte)) (ety w : Nat) (limit : Nat → Nat → Bool) : M (Except Nat Bmv) := do
  let h ← rd 0 16
  let count := fieldOf h 2 2
  let nnz := fieldOf h 4 2
  if bmvHeaderBad ety h then pure (.error 1)
  else
    let mask ← rd 16 (bmvMaskLen count)
    let ones := bmvRank mask (8 * mask.length)
    if bmvRank mask count ≠ ones then pure (.error 1)
    else if fieldOf h 12 4 ≠ crc32c (h.take 12) then pure (.error 2)
    else if ones ≠ nnz then pure (.error 3)
    else if limit count (bmvSize count nnz w) then pure (.error 4)
    else pure (.ok { count := count, nnz := nnz, mask := mask })

/-- Expanded bytes at places `o` to `o + n` of a stream's row. -/
def bmvBytes (rd : Nat → Nat → M (List Byte)) (m : Bmv) (w o n : Nat) : M (List Byte) := do
  let e0 := o / w
  let e1 := (o + n - 1) / w + 1
  let r0 := bmvRank m.mask e0
  let k := bmvRank m.mask e1 - r0
  let vals ← if k = 0 then pure [] else rd (16 + bmvMaskLen m.count + w * r0) (w * k)
  pure ((span o n).map fun b =>
    let e := b / w
    if e < m.count ∧ bmvBit m.mask e then vals.getD (w * (bmvRank m.mask e - r0) + b % w) 0 else 0)

/-- The element type code and width that a BMV type holds. -/
def bmvElem (t : Nat) : Nat × Nat := if t = 0x21 then (0x0A, 2) else (0x08, 1)

/-- The header of a stream and, where it is sound, the mask behind it, read in one access. -/
def bmvTop (rd : Nat → Nat → M (List Byte)) (ety : Nat) : M (List Byte) := inBurst do
  let h ← rd 0 16
  if bmvHeaderBad ety h then pure h else pure (h ++ (← rd 16 (bmvMaskLen (fieldOf h 2 2))))

def ldBmvBody (c : Cx) (a : LdArgs) : M Bool := do
  let (ety, w) := bmvElem a.stype.toNat
  let base := c.addr a.q1hi
  let rd := fun (o n : Nat) => c.source a (base, 2 ^ 32) o n
  -- header and mask are read once
  let top ← c.once (bmvTop rd ety)
  let r ← M.at none (some c.f.prog.off) (bmvHead (fun o n => pure ((top.drop o).take n)) ety w fun count size =>
    if a.exp then decide (a.len < count) else decide (a.len < size))
  match r with
  | .error d => throw (.flt { cause := 19, detail := d, aux2 := base, off := some c.f.prog.off })
  | .ok (m : Bmv) =>
    let row := if a.exp then c.ldRow a 0 (a.len * w) 0 fun o n => plainBits (bmvBytes rd m w o n)
      else c.ldRow a 0 (bmvSize m.count m.nnz w) 0 fun o n => plainBits (rd o n)
    c.ldCopy [{ row with stream := if a.exp then some base else none }]

/-! ### LD.MCAST and the landing (R160 to R162) -/

/-- The receivers of a mask, by core number. -/
def receivers (n mask : Nat) : List Nat :=
  (coresOf (dieOf n)).zipIdx.filterMap fun p => if bit mask p.2 then some p.1 else none

/-- Read all rows, each as it lands: its place in the buffer and its bytes. -/
def Cx.mcastRows (c : Cx) (a : LdArgs) : M (List (Nat × List Byte)) :=
  (List.range a.cnt1.toNat).mapM fun rho => do
    let m := swzMask a.span.toNat rho
    let parts ← inBurst <| (pieces (a.len + 1) 64 0 (List.replicate a.len 0)).mapM fun p =>
      M.at none (some (rho * a.dp1g * 64 + (p.1 ^^^ (m / 64 * 64))))
        (c.source a (addVa (c.addr a.q1hi) ((rho : Nat) * a.sstr1), a.len) p.1 p.2.length)
    pure (rho * a.dp1g * 64, swizzle m parts.flatten)

/-- The data goes out to every receiver; the command completes when every receiver has answered, and owes a record when one
has failed. -/
def ldMcastBody (c : Cx) (a : LdArgs) : M Bool := do
  let rcv := receivers c.n a.dst.toNat
  if c.f.prog.row = 0 then
    c.reserve false [] (c.f.dctr c.e)
    let rows ← c.mcastRows a
    let extent := rows.foldl (fun m r => max m (r.1 + r.2.length)) 0
    let mk := fun (r : Nat) => ({ sender := c.n, slot := c.f.slot, receiver := r, lbuf := a.lbuf, land := a.hi3, data := rows,
                                  extent := extent, tag := a.tag } : Landing)
    modify fun s => { s with
      landings := s.landings ++ rcv.map mk
      landDone := s.landDone.filter fun (d : LandDone) => !(d.sender == c.n && d.slot == c.f.slot) }
    c.modFlight fun f => { f with prog := { f.prog with row := 1 } }
    pure false
  else
    let s ← get
    let mine := s.landDone.filter fun (d : LandDone) => d.sender == c.n && d.slot == c.f.slot
    if (rcv.all fun r => mine.any fun d => d.receiver == r) = false then throw .stall
    let failed := rcv.filterMap fun r => (mine.find? fun d => d.receiver == r && d.reason != 0)
    modify fun s => { s with landDone := s.landDone.filter fun (d : LandDone) => !(d.sender == c.n && d.slot == c.f.slot) }
    match failed with
    | [] => pure ()
    | d :: _ =>
      let first := (coresOf (dieOf c.n)).headD 0
      c.owe (c.informs 9 d.reason (failed.foldl (fun m (d : LandDone) => m + 2 ^ (d.receiver - first)) 0) 0)
    pure true

/-- Why a landing fails at its receiver, 0 when it passes (R161, R162). -/
def State.landReason (s : State) (l : Landing) : Nat :=
  let h := (s.core l.receiver).hart
  let w := (h.csrRaw (0x840 + l.lbuf)).toNat
  if s.inReset (dieOf l.receiver) then 4
  else if h.csrBit 0x830 l.lbuf then 1
  else if bits w 48 32 = 0 then 2
  else if bits w 48 32 * 64 < l.extent then 3
  else 0

/-- A landing is performed at its receiver at or after its landing time: it writes every line and then sets the in-use bit,
or it fails, writes nothing and is reported there. -/
def landingOp (i : Nat) : M Unit := do
  let s ← get
  match s.landings[i]? with
  | none => throw .stall
  | some l =>
    if (s.now + 2 ^ 32 - l.land) % 2 ^ 32 ≥ 2 ^ 31 then throw .stall
    let r := s.landReason l
    modify fun s => { s with
      landings := s.landings.eraseIdx i
      landDone := s.landDone ++ [{ sender := l.sender, slot := l.slot, receiver := l.receiver, reason := r }] }
    if r = 0 then
      let base := bits ((s.core l.receiver).hart.csrRaw (0x840 + l.lbuf)).toNat 22 6 * 64
      let whole := coverLine (l.data.map fun p => (base + p.1, p.2.length))
      l.data.forM fun p => (stripes (base + p.1) p.2).forM fun q =>
        tryCatch (do
          let s ← get
          if Table.get false (s.core l.receiver).linePois (q.1 / 128) && whole (q.1 / 128) then healBankLine l.receiver q.1
          writeRun { who := .eng l.sender .ld, cached := false } (spBase l.receiver + q.1) q.2
          modify fun s => s.modCore l.receiver fun k => k.setTags q.1 q.2.length l.tag) fun e => match e with
          | .flt f => modify fun s => s.log 0x03 (dieOf l.receiver) f.aux2 [f.cause, f.detail, l.receiver]
          | e => throw e
      modify fun s => s.modCore l.receiver fun k => { k with hart := k.hart.setCsrBits 0x830 l.lbuf l.lbuf 1 }
    else if r ≠ 4 then
      modify fun s => s.writeRec l.receiver (s.stampRec l.receiver
        { cause := 9, detail := r, eng := 15, slot := l.slot.toNat, aux := l.sender + l.lbuf * 2 ^ 16 })

end Sys2Proof.Machine
end

