-- ==== Sys2Proof/Machine/St.lean ====
section
/-! DEFINITION. The ST ring of the copy engine (R250 to R263) and the hub transform engines (R265 to R267). -/
namespace Sys2Proof

/-! ### Fields of the layouts (R253, R257, R259) -/

def StArgs.dstr1 (a : StArgs) : Int := sext 24 (bits a.q3.toNat 23 0)
def StArgs.dstr2 (a : StArgs) : Int := sext 24 (bits a.q3.toNat 47 24)
def StArgs.sp1 (a : StArgs) : Nat := bits a.q3.toNat 55 48
def StArgs.dtype (a : StArgs) : Nat := bits a.q3.toNat 63 56
/-- SP1 and IDX of ST.SCAT and ST.DSCAT. -/
def StArgs.sp1s (a : StArgs) : Nat := bits a.q3.toNat 31 24
def StArgs.idx (a : StArgs) : BitVec 32 := BitVec.ofNat 32 (bits a.q3.toNat 63 32)
/-- RSVB of ST.BMV. -/
def StArgs.rsvb (a : StArgs) : Nat := bits a.q3.toNat 23 0
def StArgs.len (a : StArgs) : Nat := a.len0.toNat

end Sys2Proof

namespace Sys2Proof.Machine

/-! ### Rows -/

/-- The rows of the shape fields: row number and destination address (R256). -/
def Cx.stRows (c : Cx) (a : StArgs) : List (Nat × Nat) :=
  (List.range (a.cnt1.toNat * a.cnt2.toNat)).map fun rho =>
    (rho, addVa (c.addr a.dst) ((rho % a.cnt1.toNat : Nat) * a.dstr1 + (rho / a.cnt1.toNat : Nat) * a.dstr2 * 64))

/-- A destination row of `len` bytes at `va`, the copy offset counting rows of that length (R261). -/
def stRow (rho len va : Nat) (src : Nat → Nat → M Bits) : CopyRow :=
  { base := rho * len, pitch := len, va := va, len := len, swz := 0, src := src }

/-- Pieces of a destination run: in the own scratchpad by whole stripes and bank lines, elsewhere by lines. -/
def Cx.stCut (c : Cx) (va len : Nat) : M (List (Nat × Nat)) := do
  let parts ← (pieces (len + 1) 1024 va (List.replicate len 0)).mapM fun p => do
    let own ← tryCatch (do
      let ph ← c.xlate .store (p.1 % 2 ^ 64)
      let s ← get
      match s.loc ph.pa with
      | .sp m _ => pure (decide (m = c.n) || !(s.core c.n).stages)
      | _ => pure false) fun e => match e with
        | .flt _ => pure false
        | e => throw e
    pure ((if own then cutBanks p.1 p.2.length else cutLines p.1 p.2.length).map fun q => (p.1 - va + q.1, q.2))
  pure parts.flatten

/-- Where ST rows go (R251); entries to descriptor `d`. `runs` are those of the command. -/
def Cx.stSink (c : Cx) (a : StArgs) (runs : List (Nat × Nat)) (d : Nat) : Sink :=
  { check := fun va => do let _ ← c.xlate .store (va % 2 ^ 64)
    put := fun va data => c.storeOver (coverLine runs) a.res.toNat va data
    room := fun n => do
      let s ← get
      ((s.core c.n).gazRuns d n).forM fun r => if n = 0 then pure () else do let _ ← c.xlate .store r.1
    gaz := c.gazAppend d
    cut := c.stCut
    own := c.ownLines
    peek := c.peekByte
    runs := runs }

/-- Reserve, and store the rows (R251, R262). -/
def Cx.stCopy (c : Cx) (a : StArgs) (rows : List CopyRow) : M Bool := do
  c.reserve false (runsOf rows) (c.f.dctr c.e)
  copyRows c.f.prog.off (c.stSink a (runsOf rows) 0) rows
  pure true

/-! ### ST.TILE, ST.DTILE (R256), ST.SCAT, ST.DSCAT (R257) -/

def stTileOp (c : Cx) (a : StArgs) : M Bool :=
  c.stCopy a ((c.stRows a).map fun r =>
    let runs := unswizzledRuns (c.addr a.src + r.1 * (a.sp1 * 64)) (swzMask a.span.toNat r.1)
    { stRow r.1 a.len r.2 (fun o n => plainBits (c.readPieces (runs o n))) with reads := runs })

def stScatOp (c : Cx) (a : StArgs) : M Bool := do
  let idx ← c.once (c.readLocal (c.addr a.idx) (4 * a.cnt1.toNat))
  let rows := (List.range a.cnt1.toNat).filterMap fun i =>
    let k := fieldOf idx (4 * i) 4
    if k = 0xFFFFFFFF then none
    else
      let runs := unswizzledRuns (c.addr a.src + i * (a.sp1s * 64)) (swzMask a.span.toNat i)
      some { stRow i a.len (addVa (c.addr a.dst) ((k : Nat) * a.dstr1)) (fun o n => plainBits (c.readPieces (runs o n))) with
        reads := runs }
  c.stCopy a rows

def stTileBody (c : Cx) (a : StArgs) : M Bool := stTileOp c a
def stScatBody (c : Cx) (a : StArgs) : M Bool := stScatOp c a

/-- ST.DTILE and ST.DSCAT run in a pinned task only; the decoder refuses them elsewhere (R255). -/
def stDtileBody (c : Cx) (a : StArgs) : M Bool := do
  let s ← get
  if (s.core c.n).stages then notDeclared
  stTileOp c a

def stDscatBody (c : Cx) (a : StArgs) : M Bool := do
  let s ← get
  if (s.core c.n).stages then notDeclared
  stScatOp c a

/-! ### ST.CVT (R258) -/

def stCvtBody (c : Cx) (h : Hdr) (a : StArgs) : M Bool := do
  let st := tyOf a.stype.toNat
  let dt := tyOf a.dtype
  let gz := a.gz.toNat
  let total := a.len * a.cnt1.toNat * a.cnt2.toNat
  let rows := (c.stRows a).map fun r =>
    let base := c.addr a.src + r.1 * (a.sp1 * 64)
    let m := swzMask a.span.toNat r.1
    { stRow r.1 (dt.bytes a.len) r.2 (c.cvtSrc h st dt (a.len * r.1) a.len (c.unswizzled base m)) with
      reads := fun o n => (cvtReads st dt a.len 0 o n).flatMap fun q => unswizzledRuns base m q.1 q.2
      each := some (dt.width, c.cvtElem h st dt (a.len * r.1) (c.unswizzled base m))
      stream := some base }
  let s ← get
  c.reserve false (runsOf rows ++ (if h.ovm = .gaz then (s.core c.n).gazRuns gz total else [])) (c.f.dctr c.e)
  copyRows c.f.prog.off (c.stSink a (runsOf rows) gz) rows
  if h.ovm = .gaz then
    let done := a.cnt1.toNat * a.cnt2.toNat * dt.bytes a.len
    -- the lines are acknowledged before the count word is stored (R262)
    if (← get).unacked c.n then throw (.pause (some done))
    M.at none (some done) (c.gazCount gz)
  pure true

/-! ### ST.BMV (R259) -/

/-- The stream of a dense row of `len` elements of `w` bytes (R157, R259). -/
def bmvStream (ety w len : Nat) (row : List Byte) : List Byte :=
  let el := (List.range len).map fun e => (row.drop (e * w)).take w
  let nz := el.filter fun b => b.any (· != 0)
  let hd := leBytes 1 0xB7 ++ leBytes 1 ety ++ leBytes 2 len ++ leBytes 2 nz.length ++ leBytes 2 0 ++ leBytes 4 0
  let mask := (List.range (bmvMaskLen len)).map fun i =>
    BitVec.ofNat 8 ((List.range 8).foldl (fun acc k =>
      acc + (if ((el[8 * i + k]?).getD []).any (· != 0) then 2 ^ k else 0)) 0)
  hd ++ leBytes 4 (crc32c hd) ++ mask ++ nz.flatten

def stBmvBody (c : Cx) (a : StArgs) : M Bool := do
  let w := if a.stype.toNat = 0x0A then 2 else 1
  let row ← c.once (c.readLocal (c.addr a.src) (a.len * w))
  let out := bmvStream a.stype.toNat w a.len row
  if a.rsvb < out.length then throw (.flt { cause := 13, aux := out.length, off := some 0 })
  c.stCopy a [stRow 0 out.length (c.addr a.dst) fun o n => plainBits (pure ((out.drop o).take n))]

/-! ### ST.WB, ST.FLUSH (R260) -/

/-- Act on the copies of the line of an address: written back, and with `inval` invalidated. -/
def Cx.wbLine (c : Cx) (inval : Bool) (va : Nat) : M Unit := do
  let ph ← c.xlate .store va
  let s ← get
  let pa := s.norm ph.pa
  let mine := fun (e : Nat × Option CTag) => match e.2 with
    | some t => t.addr == pa / 128 && t.staged.isNone
    | none => false
  let staged := (s.cores.any fun k => k.2.staging.has (pa / 64)) || s.savedSets.any fun k => match k.2 with
    | some g => g.has (pa / 64)
    | none => false
  if ph.home ≠ homeCached ∨ staged = true ∨ (s.hubTags ++ s.ccTags).any mine = false then pure ()
  else
    if s.heldW.any fun h => h.pa / 128 == pa / 128 then throw .stall
    let dirty := (s.hubTags ++ s.ccTags).any fun e => mine e && (match e.2 with
      | some t => t.dirty
      | none => false)
    if dirty then
      if s.rtDrain ∧ s.isDram pa then throw .stall
      match s.downWrite (s.ctxOf c.who) pa with
      | some d => flt 7 d 0 pa
      | none =>
        let tags := (s.hubTags ++ s.ccTags).filterMap fun e => if mine e then e.2 else none
        modify fun s => tags.foldl (fun (t : State) (g : CTag) => if g.dirty then t.writeBackLine g else t) s
    if inval then
      modify fun s => s.dropTags fun t => t.addr == pa / 128
    else
      let clean := fun (e : Nat × Option CTag) => if mine e then (e.1, e.2.map fun t => { t with dirty := false }) else e
      modify fun s => { s with hubTags := s.hubTags.map clean, ccTags := s.ccTags.map clean }

def Cx.wbRegion (c : Cx) (inval : Bool) (a : StArgs) : M Bool := do
  c.reserve false [] (c.f.dctr c.e)
  (c.stRows a).forM fun r => (cutLines r.2 a.len).forM fun p =>
    let off := r.1 * a.len + p.1
    if off < c.f.prog.off then pure ()
    else do
      boundary (some off)
      M.at none (some off) (c.wbLine inval (addVa r.2 p.1))
  pure true

def stWbBody (c : Cx) (a : StArgs) : M Bool := c.wbRegion false a
def stFlushBody (c : Cx) (a : StArgs) : M Bool := c.wbRegion true a

/-! ### Hub transform engines (R265 to R267) -/

/-- A transform job (R265). -/
structure Job where
  op : Nat
  stype : Nat
  dtype : Nat
  flags : Nat
  len : Nat
  rows : Nat
  rsvb : Nat
  src : Nat
  dst : Nat
  sstr : Int
  dstr : Int
  repl : Nat
  deriving DecidableEq, Repr

def Job.of (l : List Byte) : Job :=
  { op := fieldOf l 0 1, stype := fieldOf l 1 1, dtype := fieldOf l 2 1, flags := fieldOf l 3 1, len := fieldOf l 4 4,
    rows := fieldOf l 8 2, rsvb := fieldOf l 12 4, src := fieldOf l 16 8, dst := fieldOf l 24 8,
    sstr := sext 64 (fieldOf l 32 8), dstr := sext 64 (fieldOf l 40 8), repl := fieldOf l 48 8 }

def Job.rnd (j : Job) : Rnd := if bits j.flags 1 0 = 1 then .rtz else if bits j.flags 1 0 = 2 then .rna else .rne
def Job.ovf (j : Job) : Ovf := if bits j.flags 3 2 = 1 then .sat else .ieee
def Job.rft (j : Job) : Bool := bit j.flags 4
def Job.tr (j : Job) : Bool := bit j.flags 5

/-- The 12 types that a conversion takes (R153). -/
def cvtType (code : Nat) : Bool := match ETy.ofCode code with
  | some t => t.isInt || t.isFloat
  | none => false

/-- Malformed jobs (R265, R266); a 4-bit row of odd length is one of them. -/
def Job.bad (j : Job) (raw : List Byte) : Bool :=
  let pair := j.stype + 256 * j.dtype
  let w := (tyOf j.stype).width
  decide (j.op < 1 ∨ 4 < j.op) || bits j.flags 1 0 == 3 || decide (2 ≤ bits j.flags 3 2) || bits j.flags 7 6 != 0 ||
  decide (j.len = 0 ∨ 65535 < j.len ∨ j.rows = 0) || fieldOf raw 10 2 != 0 || (j.op != 1 && j.rsvb != 0) ||
  (j.op == 1 && !(pair == 0x0A + 256 * 0x21 || pair == 0x08 + 256 * 0x22)) ||
  (j.op == 2 && !(pair == 0x21 + 256 * 0x0A || pair == 0x22 + 256 * 0x08)) ||
  (j.op == 3 && !(j.stype == j.dtype && (ETy.ofCode j.stype).isSome && (w == 8 || w == 16 || w == 32))) ||
  (j.op == 4 && (!(cvtType j.stype && cvtType j.dtype) ||
    (j.len % 2 == 1 && ((tyOf j.stype).width == 4 || (tyOf j.dtype).width == 4))))

/-- A source line of a job, whose failing check is detected in the transform (R107, log 88), refetched where RFT asks for it (R164). -/
def Job.line (j : Job) (ctx va len : Nat) : M (List Byte) :=
  tryCatch (hubReadVa ctx va len (some 6)) fun e => match e with
    | .flt f =>
      if j.rft ∧ (f.cause = 5 ∨ f.cause = 6) then do
        let note := fun (step r : Nat) => logM 0x04 0x0C f.aux2 [step, r]
        let try1 := fun (step va : Nat) => tryCatch (do
            let b ← hubReadVa ctx va len (some 6)
            note step 0
            pure b) fun e => do
              match e with
              | .flt g => note step g.cause
              | _ => pure ()
              throw e
        let s ← get
        if s.dirtyCopy f.aux2 then throw e
        let third := try1 3 ((va + j.repl) % 2 ^ 64)
        if f.cause = 6 then third
        else
          modify fun s => s.dropLine f.aux2
          tryCatch (try1 2 va) fun e => match e with
            | .flt _ => third
            | e => throw e
      else throw e
    | e => throw e

def Job.read (j : Job) (ctx va len : Nat) : M (List Byte) := do
  let parts ← inBurst <| (pieces (len + 1) 64 va (List.replicate len 0)).mapM fun p => j.line ctx (p.1 % 2 ^ 64) p.2.length
  pure parts.flatten

/-- What row `r` writes: addresses and bytes. -/
def Job.row (j : Job) (ctx r : Nat) : M (List (Nat × List Byte)) := do
  let src := addVa j.src ((r : Nat) * j.sstr)
  let dst := addVa j.dst ((r : Nat) * j.dstr)
  let st := tyOf j.stype
  let dt := tyOf j.dtype
  if j.op = 1 then
    let w := if j.stype = 0x0A then 2 else 1
    let out := bmvStream j.stype w j.len (← j.read ctx src (j.len * w))
    if j.rsvb < out.length then throw (.flt { cause := 13, aux := out.length })
    pure [(dst, out)]
  else if j.op = 2 then
    let (ety, w) := bmvElem j.stype
    let rd := fun (o n : Nat) => j.read ctx (addVa src o) n
    match ← bmvHead rd ety w fun count _ => decide (j.len < count) with
    | .error d => flt 19 d
    | .ok (m : Bmv) => pure [(dst, ← bmvBytes rd m w 0 (j.len * w))]
  else if j.op = 3 then
    let w := st.width / 8
    let row ← j.read ctx src (j.len * w)
    if j.tr then
      pure ((List.range j.len).map fun e => (addVa j.dst ((e : Nat) * j.dstr + (r * w : Nat)), (row.drop (e * w)).take w))
    else pure [(dst, row)]
  else
    let row ← j.read ctx src (st.bytes j.len)
    let codes := (List.range j.len).map fun e => (dt.round j.ovf j.rnd (st.value (st.inRow row e)).1).code
    pure [(dst, dt.rowBytes codes)]

/-- A decoder of the hub (expansion, conversion) that passes its cycle bound is cut off (R159). -/
def Job.watch (j : Job) : M Unit := do
  let s ← get
  if s.slow ∧ (j.op = 2 ∨ j.op = 4) then flt 19 5

/-- All output of a job, published as one release; a destination that cannot be written publishes nothing. -/
def Job.publish (ctx : Nat) (out : List (Nat × List Byte)) : M Unit := do
  let s0 ← get
  tryCatch (do
    let segs := out.flatMap fun o => pieces (o.2.length + 1) 64 o.1 o.2
    let places ← segs.mapM fun p => do
      let ph ← hubXlate ctx .store (p.1 % 2 ^ 64)
      let s ← get
      match s.loc ph.pa with
      | .mmio _ => flt 3 2
      | _ => pure ()
      match s.down ctx ph.pa with
      | some d => flt 7 d
      | none => pure (ph, p.2)
    if 65536 < ((places.map fun p => p.1.pa / 64).eraseDups).length then flt 14
    places.forM fun p => writeSeg (reqOf (.hub ctx) p.1.home 0) p.1.pa p.2
    modify fun s => s.takeWrites (.hub ctx)) fun e => do
      set s0
      throw e

/-- RES of a failed job, by the cause of the fault (R267). -/
def jobRes (cause : Nat) : Nat :=
  if cause = 3 ∨ cause = 4 then 2 else if cause = 6 then 4 else if cause = 19 then 5 else if cause = 7 then 6
  else if cause = 14 then 7 else if cause = 13 then 8 else 3

/-- Write RES, DET and NEED of a job; an engine that cannot write them reports the node all the same. -/
def jobAnswer (ctx pa res det need : Nat) : M Unit :=
  tryCatch (writeRun (hubReq ctx) (pa + 56) (leBytes 1 res ++ leBytes 1 det ++ leBytes 2 0 ++ leBytes 4 need)) fun e =>
    match e with
    | .stall => throw .stall
    | _ => pure ()

/-- Run a job: RES, DET and NEED. A fault it meets is reported (R8, R107). -/
def Job.run (j : Job) (ctx : Nat) (raw : List Byte) : M (Nat × Nat × Nat) :=
  if j.bad raw then pure (1, 0, 0)
  else tryCatch (do
    let rows ← (List.range j.rows).mapM (j.row ctx)
    j.watch
    Job.publish ctx rows.flatten
    pure (0, 0, 0)) fun e => match e with
      | .flt f => do
        if 4 ≤ f.cause ∧ f.cause ≤ 8 then modify fun s => s.hubReport f
        pure (jobRes f.cause, if f.cause = 19 then f.detail else 0, if f.cause = 13 then f.aux else 0)
      | e => throw e

/-- A transform node runs its job, then is reported to the walker. A job that cannot be read, is misaligned or does not lie
in DRAM space or the hub window is malformed. -/
def transformJobOp (id i : Nat) : M Unit := do
  let (g, x) ← readyNode id i 2
  let fail := modify fun s =>
    (s.modInst g.id fun g => g.modNode i fun x => { x with phase := .dropped }).graphFault g.id 3 i
  let ph ← tryCatch (do pure (some (← hubXlate g.ctx .load x.p0))) fun e => match e with
    | .flt _ => pure none
    | e => throw e
  match ph with
  | none => fail
  | some ph =>
    let s ← get
    let inPlace := match s.loc ph.pa with
      | .dram _ _ => true
      | .hub _ => true
      | _ => false
    if inPlace = false ∨ ph.pa % 64 ≠ 0 then
      jobAnswer g.ctx ph.pa 1 0 0
      fail
    else
      match ← hubRead g.ctx ph.pa 64 with
      | none => fail
      | some raw =>
        let r ← (Job.of raw).run g.ctx raw
        jobAnswer g.ctx ph.pa r.1 r.2.1 r.2.2
        if r.1 = 0 then modify fun s => s.completeNode id i else fail

end Sys2Proof.Machine
end

