-- ==== Sys2Proof/Machine/Vx.lean ====
section
/-! DEFINITION. The vector engine: how a command reads, masks, poisons and writes lanes (R166 to R174, R192 to R194, R214),
loads and stores (R175, R176), and the integer, logic, lane, permute and reduction commands (R177 to R191). -/
namespace Sys2Proof

/-! ### Fields (R169, R170) -/

/-- XM[8] and XM[10:8]. -/
def VxArgs.x8 (a : VxArgs) : Bool := a.xm.getLsbD 0
def VxArgs.x9 (a : VxArgs) : Bool := a.xm.getLsbD 1
def VxArgs.x10 (a : VxArgs) : Nat := bits a.xm.toNat 2 0
def VxArgs.t (a : VxArgs) : ETy := Machine.tyOf a.etype.toNat
def VxArgs.t2 (a : VxArgs) : ETy := Machine.tyOf a.etype2.toNat
def VxArgs.dst (a : VxArgs) : Nat := a.vd.toNat
def VxArgs.gzd (a : VxArgs) : Nat := a.gz.toNat

/-- What an element comes to: its code, flags, and the value of a Gazetteer entry. -/
abbrev ERes := Nat × Flags × Option Nat

def plainRes (code : Nat) : ERes := (code, {}, none)

/-- An exact value written through RoundTo under a command's RND and OVF (R94). -/
def ETy.result (t : ETy) (h : Hdr) (x : XVal) (fl : Flags) : ERes :=
  let r := t.round h.ovm h.mode x
  (r.code, fl.or r.flags, if r.gazed then some (gazValue h.mode x) else none)

/-- The low bits of an exact integer. -/
def ETy.modRes (t : ETy) (x : Int) (fl : Flags) : ERes := (wrap t.width x, fl, none)

/-- An integer result that the spec calls exact (log 18). -/
def ETy.exactRes (t : ETy) (x : Int) (fl : Flags) : ERes :=
  (if t.intRange.1 ≤ x ∧ x ≤ t.intRange.2 then t.encInt x else Config.unstatedElem t.code x, fl, none)

end Sys2Proof

namespace Sys2Proof.Machine

/-! ### A command on lanes -/

/-- A lane word that a command makes, its flags, and its Gazetteer entries by flat index. -/
structure Lane where
  word : Nat
  flags : Flags := {}
  gaz : List (Nat × Nat) := []
  deriving DecidableEq, Repr

/-- A lane of elements of type `t`; `idx` gives the flat index of a position. -/
def laneOf (t : ETy) (idx : Nat → Nat) (f : Nat → ERes) : Lane :=
  let l := (List.range t.perLane).map f
  { word := t.pack (l.map (·.1))
    flags := l.foldl (fun fl r => fl.or r.2.1) {}
    gaz := l.zipIdx.filterMap fun p => p.1.2.2.map fun v => (idx p.2, v) }

/-- What a VX command does: the registers it writes, its source registers in operand order, which lanes of the `d`th
destination it writes and which it zeroes, whether it carries poison or consumes it, the source lanes that contribute to
a lane (R193, R214), the lane it makes, and whether lanes are written at all. -/
structure VJob where
  dests : List Nat
  order : List Nat
  en : Nat → Nat → Bool
  zero : Nat → Nat → Bool
  carrier : Bool := false
  src : Nat → Nat → List (Nat × Nat)
  out : Nat → Nat → Lane
  write : Bool := true

/-- Is lane `i` enabled? -/
def Core.on (k : Core) (a : VxArgs) (i : Nat) : Bool := (k.mask a.msk.toNat).getLsbD i

/-- Masked-off lanes that MZ zeroes (R169). -/
def Core.mzero (k : Core) (a : VxArgs) (i : Nat) : Bool := a.mz && a.msk != 0#4 && !(k.on a i)

/-- The lowest poisoned lane among those read, the first so listed (R194). -/
def Core.firstPoison (k : Core) (uses : List (Nat × Nat)) : Option (Nat × Nat) :=
  (uses.filter fun u => k.poisoned u.1 u.2).foldl (fun (b : Option (Nat × Nat)) u =>
    match b with
    | none => some u
    | some v => if u.2 < v.2 then some u else some v) none

/-- The deferred poison fault of a command that would consume one of the lanes (R194). -/
def Cx.consume (c : Cx) (uses : List (Nat × Nat)) : M Unit := do
  let s ← get
  let k := s.core c.n
  match k.firstPoison uses with
  | none => pure ()
  | some u =>
    let g := Table.get (0, 0) k.vorg u.1
    flt 10 u.1 (u.2 + g.1 * 2 ^ 32) g.2

/-- A lane of a destination that is written: its register and number, the poisoned lanes it is made from, what it is. -/
structure VOut where
  reg : Nat
  lane : Nat
  pois : List (Nat × Nat)
  out : Lane
  deriving DecidableEq, Repr

def Core.outs (k : Core) (j : VJob) : List VOut :=
  j.dests.zipIdx.flatMap fun d => (List.range 128).filterMap fun i =>
    if j.en d.2 i then
      some { reg := d.1, lane := i, pois := (j.src d.2 i).filter fun u => k.poisoned u.1 u.2, out := j.out d.2 i }
    else none

/-- The poison origin a destination register receives: of the first poisoned source in operand order (R193). -/
def Core.originFor (k : Core) (order : List Nat) (l : List VOut) (reg : Nat) : Nat × Nat :=
  match order.find? fun r => l.any fun o => o.reg == reg && o.pois.any fun u => u.1 == r with
  | some r => Table.get (0, 0) k.vorg r
  | none => (0, 0)

/-- Write one lane of a command. A lane that consumed poison under SPEC has no stated value (log 19). -/
def Cx.putLane (c : Cx) (carrier : Bool) (org : Nat × Nat) (o : VOut) : M Unit := do
  let w ← if o.pois = [] ∨ carrier = true then pure o.out.word else do pure ((← freshWord).toNat % 2 ^ 32)
  modify fun s => s.modCore c.n fun k => k.setLane o.reg o.lane w (if o.pois = [] then none else some org)

/-- Run a VX command on lanes: every source lane is read before any lane is written (R172). -/
def Cx.vx (c : Cx) (h : Hdr) (a : VxArgs) (mk1 : Core → VJob) : M Bool := do
  let s ← get
  let k := s.core c.n
  let j := mk1 k
  let l := k.outs j
  if j.carrier = false ∧ h.spec = false then
    c.consume (j.dests.zipIdx.flatMap fun d => (List.range 128).flatMap fun i => if j.en d.2 i then j.src d.2 i else [])
  if h.ovm = .gaz then c.gazAll a.gzd (l.flatMap fun o => o.out.gaz)
  if j.write then
    l.forM fun o => c.putLane j.carrier (k.originFor j.order l o.reg) o
    j.dests.zipIdx.forM fun d => (List.range 128).forM fun i =>
      if j.zero d.2 i then modify fun s => s.modCore c.n fun k => k.setLane d.1 i 0 none else pure ()
  c.flags (l.foldl (fun fl o => fl.or o.out.flags) {})
  pure true

/-- The flat index of an element (R167). -/
def flat (t : ETy) (i p : Nat) : Nat := i * t.perLane + p

/-- A command whose lane `i` reads lane `i` of its operands alone, element by element. -/
def Core.elemJob (k : Core) (a : VxArgs) (t : ETy) (ops : List VOp) (f : Nat → Nat → ERes) : VJob :=
  { dests := [a.dst], order := ops.map VOp.num
    en := fun _ i => k.on a i
    zero := fun _ i => k.mzero a i
    src := fun _ i => ops.map fun o => (o.num, i)
    out := fun _ i => laneOf t (flat t i) (f i) }

/-- An element as a data mover delivers it: bits unchanged, unless NEG changes a value, which goes through RoundTo (R174) and is
never appended (R213); a reserved code stays reserved. NEG on a floating-point type flips its sign bit, NaN included (R59); of those
values RoundTo changes an infinity alone (log 45). -/
def Core.moved (k : Core) (h : Hdr) (t : ETy) (o : VOp) (i p : Nat) : ERes :=
  let code := k.code t o i p
  let put := fun (x : XVal) => let r := t.result h x {}; ((r.1, r.2.1, none) : ERes)
  if o.neg = false then plainRes code
  else if t.isFloat then
    match (t.value (t.fmt.flipSign code)).1 with
    | .inf m => put (.inf m)
    | _ => plainRes (t.fmt.flipSign code)
  else if t.reserved code then plainRes code
  else put (.ofInt (-(t.intVal code)))

/-! ### Loads and stores (R175, R176) -/

/-- One 64-byte line of a load, with the lanes of it that are enabled. -/
structure VLine where
  reg : Nat
  first : Nat
  off : Nat
  deriving DecidableEq, Repr

/-- The lines of a register group at consecutive addresses. -/
def vlines (reg cnt : Nat) : List VLine :=
  (List.range (8 * cnt)).map fun q => { reg := reg + q / 8, first := 16 * (q % 8), off := 64 * q }

def lanes16 (first : Nat) : List Nat := span first 16

/-- The faults that SPEC turns into poison (R192). -/
def laneFault (cause : Nat) : Bool := cause == 3 || cause == 5 || cause == 6 || cause == 8

/-- Read one line of a VLD: its bytes, or none where SPEC makes poison of its fault. -/
def Cx.vldLine (c : Cx) (spec : Bool) (va : Nat) : M (Option (List Byte)) :=
  tryCatch (do pure (some (← c.readLocal va 64))) fun e => match e with
    | .flt f => if spec = true ∧ laneFault f.cause = true then pure none else throw e
    | e => throw e

def vldBody (c : Cx) (h : Hdr) (a : VxArgs) : M Bool := do
  let s ← get
  let k := s.core c.n
  let base := c.addr (a.imm)
  let ls := (vlines a.dst (a.x10 + 1)).filter fun l => (lanes16 l.first).any (k.on a)
  let data ← inBurst <| ls.mapM fun l => do pure (l, ← c.vldLine h.spec (base + l.off))
  let org := (c.f.slot.toNat, c.f.org.pc.toNat)
  data.forM fun p => (lanes16 p.1.first).forM fun i =>
    if k.on a i then
      modify fun s => s.modCore c.n fun k => match p.2 with
        | some (b : List Byte) => k.setLane p.1.reg i (fieldOf b (4 * (i - p.1.first)) 4) none
        | none => k.setLane p.1.reg i 0 (some org)
    else pure ()
  (span a.dst (a.x10 + 1)).forM fun r => (List.range 128).forM fun i =>
    if k.mzero a i then modify fun s => s.modCore c.n fun k => k.setLane r i 0 none else pure ()
  pure true

/-- Runs of set bits in a list: offset and length. -/
def setRuns : List Bool → Nat → Nat → List (Nat × Nat)
  | [], st, n => if n = 0 then [] else [(st, n)]
  | b :: r, st, n =>
    if b then setRuns r st (n + 1)
    else if n = 0 then setRuns r (st + 1) 0 else (st, n) :: setRuns r (st + n + 1) 0

/-- The lane of a register group that byte `o` of its image belongs to. -/
def groupLane (reg o : Nat) : Nat × Nat := (reg + o / 512, o / 4 % 128)

/-- The bytes `o` to `o + n` of the image of a register group. -/
def Core.image (k : Core) (reg o n : Nat) : List Byte :=
  (span o n).map fun b => let l := groupLane reg b; BitVec.ofNat 8 (k.lane l.1 l.2 >>> (8 * (b % 4)))

/-- Write the bytes of a run that `has` picks, in ascending address order from place `done` on: whole stripes and bank lines
in one bank access, the rest run by run (R133, R138); `post` follows each piece. Of the bank lines that `whole` picks the command
covers every byte. -/
def Cx.putMasked (c : Cx) (whole : Nat → Bool) (done va len : Nat) (has : Nat → Bool) (bytes : Nat → Nat → List Byte) (post : Nat → Nat → M Unit) :
    M Unit :=
  let ps := (cutBanks va len).flatMap fun p =>
    if p.2 = 1024 ∧ (span p.1 1024).all has = false then (List.range 8).map fun b => (p.1 + 128 * b, 128) else [p]
  ps.forM fun p => if p.1 < done then pure () else do
    M.at none (some p.1) <| (setRuns ((span p.1 p.2).map has) 0 0).forM fun r =>
      c.putLocal whole (va + p.1 + r.1) (bytes (p.1 + r.1) r.2)
    post p.1 p.2

/-- VST: lanes that are enabled are written; under SPEC a bank line that holds a poisoned one gets its poison bit (R192). -/
def vstBody (c : Cx) (h : Hdr) (a : VxArgs) : M Bool := do
  let s ← get
  let k := s.core c.n
  let base := c.addr (a.imm)
  let reg := a.va.num
  let ls := (vlines reg (a.x10 + 1)).flatMap fun l => (lanes16 l.first).map fun i => (l.reg, i)
  if h.spec = false then c.consume (ls.filter fun u => k.on a u.2)
  c.putMasked noLines c.f.prog.off base (512 * (a.x10 + 1)) (fun o => k.on a (groupLane reg o).2) (k.image reg) fun o n =>
    (List.range (n / 4)).forM fun q =>
      let l := groupLane reg (o + 4 * q)
      if k.on a l.2 && k.poisoned l.1 l.2 then do
        let off ← c.localOff .store (base + o + 4 * q)
        modify fun s => s.modCore c.n fun k => { k with linePois := Table.put false k.linePois (off / 128) true }
      else pure ()
  pure true

def vldkBody (c : Cx) (a : VxArgs) : M Bool := do
  let b ← c.readLocal (c.addr (a.imm)) 16
  modify fun s => s.modCore c.n fun k => k.setMask a.kd.toNat (BitVec.ofNat 128 (leNat b))
  pure true

def vstkBody (c : Cx) (a : VxArgs) : M Bool := do
  let s ← get
  c.writeLocal (c.addr (a.imm)) (leBytes 16 ((s.core c.n).mask a.ka.toNat).toNat)
  pure true

/-! ### Moves and constants (R177) -/

def movBody (c : Cx) (h : Hdr) (a : VxArgs) : M Bool :=
  c.vx h a fun k => { k.elemJob a a.t [a.va] (k.moved h a.t a.va) with carrier := true }

def moviBody (c : Cx) (h : Hdr) (a : VxArgs) : M Bool :=
  c.vx h a fun k => { k.elemJob a a.t [] (fun _ _ => plainRes 0) with out := fun _ _ => { word := a.imm.toNat } }

def iotaBody (c : Cx) (h : Hdr) (a : VxArgs) : M Bool :=
  c.vx h a fun k => k.elemJob a a.t [] fun i p => a.t.modRes (sext 32 a.imm.toNat + (flat a.t i p : Nat)) {}

/-! ### Integer element arithmetic (R178 to R180) -/

/-- An element-wise integer command on `va`, `vb` and `vc`. -/
def Cx.intOp (c : Cx) (h : Hdr) (a : VxArgs) (ops : List VOp) (f : Int → Int → Int → Flags → ERes) : M Bool :=
  c.vx h a fun k => k.elemJob a a.t ops fun i p =>
    let v := ops.map fun o => k.int a.t o i p
    f (v.getD 0 (0, {})).1 (v.getD 1 (0, {})).1 (v.getD 2 (0, {})).1 (v.foldl (fun fl x => fl.or x.2) {})

def vaddBody (c : Cx) (h : Hdr) (a : VxArgs) : M Bool := c.intOp h a [a.va, a.vb] fun x y _ fl => a.t.modRes (x + y) fl
def vsubBody (c : Cx) (h : Hdr) (a : VxArgs) : M Bool := c.intOp h a [a.va, a.vb] fun x y _ fl => a.t.modRes (x - y) fl
def vaddsBody (c : Cx) (h : Hdr) (a : VxArgs) : M Bool := c.intOp h a [a.va, a.vb] fun x y _ fl => a.t.result h (.ofInt (x + y)) fl
def vsubsBody (c : Cx) (h : Hdr) (a : VxArgs) : M Bool := c.intOp h a [a.va, a.vb] fun x y _ fl => a.t.result h (.ofInt (x - y)) fl
def vmulhBody (c : Cx) (h : Hdr) (a : VxArgs) : M Bool :=
  c.intOp h a [a.va, a.vb] fun x y _ fl => a.t.exactRes (x * y / (2 ^ a.t.width : Nat)) fl
def vminBody (c : Cx) (h : Hdr) (a : VxArgs) : M Bool := c.intOp h a [a.va, a.vb] fun x y _ fl => a.t.exactRes (min x y) fl
def vmaxBody (c : Cx) (h : Hdr) (a : VxArgs) : M Bool := c.intOp h a [a.va, a.vb] fun x y _ fl => a.t.exactRes (max x y) fl
def vabsBody (c : Cx) (h : Hdr) (a : VxArgs) : M Bool := c.intOp h a [a.va] fun x _ _ fl => a.t.result h (.ofInt x.natAbs) fl
def vmaddBody (c : Cx) (h : Hdr) (a : VxArgs) : M Bool :=
  c.intOp h a [a.va, a.vb, a.vc] fun x y z fl => a.t.result h (.ofInt (x * y + z)) fl

/-- The product type of MUL.W (R179). -/
def wideOf : ETy → Option ETy
  | .i4 => some .i8
  | .si4 => some .i8
  | .u4 => some .u8
  | .i8 => some .i16
  | .si8 => some .i16
  | .i16 => some .i32
  | _ => none

def vmulBody (c : Cx) (h : Hdr) (a : VxArgs) : M Bool :=
  if a.x8 = false then c.intOp h a [a.va, a.vb] fun x y _ fl => a.t.modRes (x * y) fl
  else
    let w := (wideOf a.t).getD .i32
    c.vx h a fun k =>
      { k.elemJob a w [a.va, a.vb] (fun _ _ => plainRes 0) with
        dests := [a.dst, a.dst + 1]
        out := fun d i => laneOf w (flat w i) fun q =>
          let x := k.int a.t a.va i (2 * q + d)
          let y := k.int a.t a.vb i (2 * q + d)
          w.modRes (x.1 * y.1) (x.2.or y.2) }

/-- The total of a packed dot product in a lane (R180). -/
def Core.dotSum (k : Core) (a : VxArgs) (i : Nat) : Int × Flags :=
  let c0 := k.int .i32 a.vc i 0
  (List.range a.t.perLane).foldl (fun acc p =>
    let x := k.int a.t a.va i p
    let y := k.int a.t2 a.vb i p
    (acc.1 + x.1 * y.1, (acc.2.or x.2).or y.2)) c0

def vdotBody (c : Cx) (h : Hdr) (a : VxArgs) : M Bool :=
  c.vx h a fun k => k.elemJob a .i32 [a.va, a.vb, a.vc] fun i _ => let r := k.dotSum a i; ETy.i32.modRes r.1 r.2

def vdotsBody (c : Cx) (h : Hdr) (a : VxArgs) : M Bool :=
  c.vx h a fun k => k.elemJob a .i32 [a.va, a.vb, a.vc] fun i _ => let r := k.dotSum a i; ETy.i32.result h (.ofInt r.1) r.2

/-! ### Logic, shifts and counts (R181 to R183) -/

/-- A command on the bits of elements. -/
def Cx.bitOp (c : Cx) (h : Hdr) (a : VxArgs) (ops : List VOp) (f : Nat → Nat → Nat) : M Bool :=
  c.vx h a fun k => k.elemJob a a.t ops fun i p =>
    let v := ops.map fun o => k.code a.t o i p
    plainRes (f (v.getD 0 0) (v.getD 1 0))

def vandBody (c : Cx) (h : Hdr) (a : VxArgs) : M Bool := c.bitOp h a [a.va, a.vb] fun x y => x &&& y
def vorBody (c : Cx) (h : Hdr) (a : VxArgs) : M Bool := c.bitOp h a [a.va, a.vb] fun x y => x ||| y
def vxorBody (c : Cx) (h : Hdr) (a : VxArgs) : M Bool := c.bitOp h a [a.va, a.vb] fun x y => x ^^^ y
def vandnBody (c : Cx) (h : Hdr) (a : VxArgs) : M Bool :=
  c.bitOp h a [a.va, a.vb] fun x y => x &&& (y ^^^ (2 ^ a.t.width - 1))

/-- A shift, its amount from `vb` or the immediate. -/
def Cx.shiftOp (c : Cx) (h : Hdr) (a : VxArgs) (f : Nat → Nat → Nat) : M Bool :=
  if a.x8 then c.bitOp h a [a.va] fun x _ => f x (bits a.imm.toNat 4 0)
  else c.bitOp h a [a.va, a.vb] fun x y => f x (y % a.t.width)

def vsllBody (c : Cx) (h : Hdr) (a : VxArgs) : M Bool := c.shiftOp h a fun x m => (x <<< m) % 2 ^ a.t.width
def vsrlBody (c : Cx) (h : Hdr) (a : VxArgs) : M Bool := c.shiftOp h a fun x m => x >>> m
def vsraBody (c : Cx) (h : Hdr) (a : VxArgs) : M Bool :=
  c.shiftOp h a fun x m => wrap a.t.width (sext a.t.width x / (2 ^ m : Nat))
def vrolBody (c : Cx) (h : Hdr) (a : VxArgs) : M Bool :=
  c.shiftOp h a fun x m => ((x <<< m) ||| (x >>> (a.t.width - m))) % 2 ^ a.t.width

/-- Ones of the low `w` bits, and zeros above the highest one. -/
def onesOf (w x : Nat) : Nat := ((List.range w).filter fun i => bit x i).length
def zerosAbove (w x : Nat) : Nat := if x % 2 ^ w = 0 then w else w - 1 - Nat.log2 (x % 2 ^ w)

/-- A count of the bits of an element; with NEG, of the negated value modulo 2^w (R59, R174; log 81). -/
def Cx.countOp (c : Cx) (h : Hdr) (a : VxArgs) (f : Nat → Nat) : M Bool :=
  c.vx h a fun k => k.elemJob a a.t [a.va] fun i p => plainRes (f (wrap a.t.width (k.int a.t a.va i p).1))

def vpopcBody (c : Cx) (h : Hdr) (a : VxArgs) : M Bool := c.countOp h a (onesOf a.t.width)
def vclzBody (c : Cx) (h : Hdr) (a : VxArgs) : M Bool := c.countOp h a (zerosAbove a.t.width)

/-! ### Compares and selects (R184, R185, R199) -/

/-- A compare: `vd` takes all-ones where it holds, KD a bit for each lane. -/
def Cx.cmpOp (c : Cx) (h : Hdr) (a : VxArgs) (holds : Core → Nat → Nat → Bool × Flags) : M Bool := do
  let s ← get
  let k := s.core c.n
  let ones := 2 ^ a.t.width - 1
  let lane := fun (i : Nat) =>
    let l := (List.range a.t.perLane).map fun p => (holds k i p).1
    k.on a i && (if a.x9 then l.all id else l.any id)
  let kd := (List.range 128).foldl (fun m i => if lane i then m + 2 ^ i else m) 0
  let r ← c.vx h a fun k =>
    { k.elemJob a a.t [a.va, a.vb] (fun i p => let r := holds k i p; (if r.1 then ones else 0, r.2, none)) with write := a.x8 }
  modify fun s => s.modCore c.n fun k => k.setMask a.kd.toNat (BitVec.ofNat 128 kd)
  pure r

/-- An integer compare of values. -/
def Cx.icmp (c : Cx) (h : Hdr) (a : VxArgs) (f : Int → Int → Bool) : M Bool :=
  c.cmpOp h a fun k i p =>
    let x := k.int a.t a.va i p
    let y := k.int a.t a.vb i p
    (f x.1 y.1, x.2.or y.2)

/-- A compare of bits read unsigned. With NEG the bits are those of the exact negation. -/
def Cx.ucmp (c : Cx) (h : Hdr) (a : VxArgs) (f : Nat → Nat → Bool) : M Bool :=
  c.cmpOp h a fun k i p =>
    let w := fun (o : VOp) => wrap a.t.width (k.int a.t o i p).1
    (f (w a.va) (w a.vb), {})

def cmpEqBody (c : Cx) (h : Hdr) (a : VxArgs) : M Bool := c.icmp h a fun x y => x == y
def cmpNeBody (c : Cx) (h : Hdr) (a : VxArgs) : M Bool := c.icmp h a fun x y => x != y
def cmpLtBody (c : Cx) (h : Hdr) (a : VxArgs) : M Bool := c.icmp h a fun x y => decide (x < y)
def cmpLeBody (c : Cx) (h : Hdr) (a : VxArgs) : M Bool := c.icmp h a fun x y => decide (x ≤ y)
def cmpLtuBody (c : Cx) (h : Hdr) (a : VxArgs) : M Bool := c.ucmp h a fun x y => decide (x < y)
def cmpLeuBody (c : Cx) (h : Hdr) (a : VxArgs) : M Bool := c.ucmp h a fun x y => decide (x ≤ y)

def selBody (c : Cx) (h : Hdr) (a : VxArgs) : M Bool :=
  c.vx h a fun k =>
    let cond := fun (i p : Nat) => k.fcode a.t a.vc i p != 0
    { k.elemJob a a.t [a.va, a.vb, a.vc] (fun i p => k.moved h a.t (if cond i p then a.va else a.vb) i p) with
      carrier := true
      src := fun _ i =>
        let l := (List.range a.t.perLane).map (cond i)
        (if l.any id then [(a.va.num, i)] else []) ++ (if l.all id then [] else [(a.vb.num, i)]) ++ [(a.vc.num, i)] }

def cselBody (c : Cx) (h : Hdr) (a : VxArgs) : M Bool :=
  c.vx h a fun k =>
    let arm := fun (i : Nat) => if (k.mask a.ka.toNat).getLsbD i then a.va else a.vb
    { k.elemJob a a.t [a.va, a.vb] (fun i p => k.moved h a.t (arm i) i p) with
      carrier := true
      src := fun _ i => [((arm i).num, i)] }

/-! ### Mask registers (R186) -/

/-- Write KD from the core's masks. -/
def Cx.maskOp (c : Cx) (a : VxArgs) (f : Core → BitVec 128) : M Bool := do
  modify fun s => s.modCore c.n fun k => k.setMask a.kd.toNat (f k)
  pure true

def kandBody (c : Cx) (a : VxArgs) : M Bool := c.maskOp a fun k => k.mask a.ka.toNat &&& k.mask a.kb.toNat
def korBody (c : Cx) (a : VxArgs) : M Bool := c.maskOp a fun k => k.mask a.ka.toNat ||| k.mask a.kb.toNat
def kxorBody (c : Cx) (a : VxArgs) : M Bool := c.maskOp a fun k => k.mask a.ka.toNat ^^^ k.mask a.kb.toNat
def knotBody (c : Cx) (a : VxArgs) : M Bool := c.maskOp a fun k => ~~~(k.mask a.ka.toNat)
def kmovBody (c : Cx) (a : VxArgs) : M Bool :=
  c.maskOp a fun k => if a.x8 then BitVec.ofNat 128 (2 ^ bits a.imm.toNat 7 0 - 1) else k.mask a.ka.toNat

def kpopBody (c : Cx) (h : Hdr) (a : VxArgs) : M Bool :=
  c.vx h a fun k => { k.elemJob a .i32 [] (fun _ _ => plainRes (onesOf 128 (k.mask a.ka.toNat).toNat)) with en := fun _ _ => true }

/-! ### Permutes (R187 to R189) -/

/-- A cross-lane carrier: element `j` of destination `d` comes from where `pick d j` says, an operand and an element of
it, or is 0; `also` lists lanes read besides. -/
def Cx.cross (c : Cx) (h : Hdr) (a : VxArgs) (dests : List Nat) (ops : List VOp)
    (pick : Core → Nat → Nat → Option (VOp × Nat)) (also : Nat → List (Nat × Nat)) : M Bool :=
  c.vx h a fun k =>
    let n := a.t.perLane
    { k.elemJob a a.t ops (fun _ _ => plainRes 0) with
      dests := dests
      carrier := true
      src := fun d i => ((List.range n).filterMap fun p => (pick k d (flat a.t i p)).map fun q => (q.1.num, q.2 / n)) ++ also i
      out := fun d i => laneOf a.t (fun p => flat a.t (128 * d + i) p) fun p =>
        match pick k d (flat a.t i p) with
        | some q => k.moved h a.t q.1 (q.2 / n) (q.2 % n)
        | none => plainRes 0 }

def permBody (c : Cx) (h : Hdr) (a : VxArgs) : M Bool :=
  let n := a.t.perLane
  c.cross h a [a.dst] [a.va, a.vb] (fun k _ e =>
    let x := k.code a.t a.vb (e / n) (e % n)
    if x < 128 * n then some (a.va, x) else none) fun i => [(a.vb.num, i)]

def bcastBody (c : Cx) (h : Hdr) (a : VxArgs) : M Bool :=
  c.cross h a [a.dst] [a.va] (fun _ _ _ => some (a.va, bits a.imm.toNat 9 0)) fun _ => []

def slideupBody (c : Cx) (h : Hdr) (a : VxArgs) : M Bool :=
  let m := bits a.imm.toNat 10 0
  c.cross h a [a.dst] [a.va] (fun _ _ e => if m ≤ e then some (a.va, e - m) else none) fun _ => []

def slidednBody (c : Cx) (h : Hdr) (a : VxArgs) : M Bool :=
  let m := bits a.imm.toNat 10 0
  c.cross h a [a.dst] [a.va] (fun _ _ e => if e + m < 128 * a.t.perLane then some (a.va, e + m) else none) fun _ => []

def zipBody (c : Cx) (h : Hdr) (a : VxArgs) : M Bool :=
  c.cross h a [a.dst, a.dst + 1] [a.va, a.vb] (fun _ d e =>
    let r := d * (128 * a.t.perLane) + e
    some (if r % 2 = 0 then a.va else a.vb, r / 2)) fun _ => []

def unzipBody (c : Cx) (h : Hdr) (a : VxArgs) : M Bool :=
  c.cross h a [a.dst, a.dst + 1] [a.va, a.vb] (fun _ d e =>
    let n := 128 * a.t.perLane
    let r := 2 * e + d
    some (if r < n then a.va else a.vb, r % n)) fun _ => []

/-! ### Reductions (R190, R191, R200) -/

/-- A reduction: the first `top` lanes of `vd` carry a result, the rest are 0. -/
def Cx.reduce (c : Cx) (h : Hdr) (a : VxArgs) (top : Nat) (f : Core → List Nat → List Lane) : M Bool :=
  c.vx h a fun k =>
    let on := (List.range 128).filter (k.on a)
    let r := f k on
    { dests := [a.dst], order := [a.va.num]
      en := fun _ _ => true
      zero := fun _ _ => false
      src := fun _ i => if i < top then on.map fun l => (a.va.num, l) else []
      out := fun _ i => r.getD i { word := 0 } }

/-- The elements of the enabled lanes in flat order: lane and position. -/
def flatElems (n : Nat) (on : List Nat) : List (Nat × Nat) := on.flatMap fun i => (List.range n).map fun p => (i, p)

def rsumBody (c : Cx) (h : Hdr) (a : VxArgs) : M Bool :=
  c.reduce h a 1 fun k on =>
    let r := (flatElems a.t.perLane on).foldl (fun acc e =>
      let x := k.int a.t a.va e.1 e.2
      (acc.1 + x.1, acc.2.or x.2)) ((0 : Int), ({} : Flags))
    let v := max (-(2 ^ 31 : Int)) (min (2 ^ 31 - 1) r.1)
    [{ word := wrap 32 v, flags := r.2.or { of := v != r.1 } }]

def randBody (c : Cx) (h : Hdr) (a : VxArgs) : M Bool :=
  c.reduce h a 1 fun k on => [{ word := on.foldl (fun x i => x &&& k.lane a.va.num i) (2 ^ 32 - 1) }]

def rorBody (c : Cx) (h : Hdr) (a : VxArgs) : M Bool :=
  c.reduce h a 1 fun k on => [{ word := on.foldl (fun x i => x ||| k.lane a.va.num i) 0 }]

/-- The extreme element of the enabled lanes: its flat index and its result, with the flags of all that were read. -/
def Core.extreme (k : Core) (h : Hdr) (a : VxArgs) (up : Bool) (on : List Nat) : Option (Nat × ERes) × Flags :=
  let r := (flatElems a.t.perLane on).foldl (fun (acc : Option ((Nat × Nat) × XVal) × Flags) e =>
    let v := if a.t.isFloat then (k.fval a.t a.va e.1 e.2).1 else .ofInt (k.int a.t a.va e.1 e.2).1
    let bad := v.isNaN || (!a.t.isFloat && a.t.reserved (k.code a.t a.va e.1 e.2))
    let fl := acc.2.or { nv := bad }
    if v.isNaN then (acc.1, fl) else
    match acc.1 with
    | none => (some (e, v), fl)
    | some b => (if (if up then XVal.cmp b.2 v else XVal.cmp v b.2) < 0 then some (e, v) else acc.1, fl)) (none, {})
  (r.1.map fun b => (flat a.t b.1.1 b.1.2, k.moved h a.t a.va b.1.1 b.1.2), r.2)

/-- The value that stands where there is no candidate (R191). -/
def noCandidate (t : ETy) (up : Bool) : Nat :=
  if t.isFloat then t.fmt.canonNaN else t.encInt (if up then t.intRange.1 else t.intRange.2)

def Cx.extremeOp (c : Cx) (h : Hdr) (a : VxArgs) (up arg : Bool) : M Bool :=
  c.reduce h a (if arg then 2 else 1) fun k on =>
    let r := k.extreme h a up on
    let e := r.1.getD (0xFFFFFFFF, plainRes (noCandidate a.t up))
    let v : Lane := { word := e.2.1, flags := r.2.or e.2.2.1 }
    if arg then [{ word := e.1 }, v] else [v]

def rmaxBody (c : Cx) (h : Hdr) (a : VxArgs) : M Bool := c.extremeOp h a true false
def rminBody (c : Cx) (h : Hdr) (a : VxArgs) : M Bool := c.extremeOp h a false false
def rargmaxBody (c : Cx) (h : Hdr) (a : VxArgs) : M Bool := c.extremeOp h a true true
def rargminBody (c : Cx) (h : Hdr) (a : VxArgs) : M Bool := c.extremeOp h a false true

end Sys2Proof.Machine
end

