-- ==== Sys2Proof/Machine/Vf.lean ====
section
/-! DEFINITION. Vector commands on numbers: floating point (R195 to R200), conversion (R201 to R203), the lattice (R204 to
R206), bit planes (R207, R208), scale and accumulate (R209) and Projection (R210 to R212). -/
namespace Sys2Proof

/-- STYPE of CVT, CNT of QZ.L8 and DQ.L8 (Q2 7:0). -/
def VxArgs.lowByte (a : VxArgs) : Nat := bits a.imm.toNat 7 0
/-- BLK and STRICT of QZ.L8 and DQ.L8 (R204). -/
def VxArgs.blk (a : VxArgs) : Nat := bits a.xm.toNat 3 0
def VxArgs.strict (a : VxArgs) : Bool := a.xm.getLsbD 4
/-- CTR of BPM (R208). -/
def VxArgs.ctr (a : VxArgs) : Bool := a.xm.getLsbD 3
/-- An operand with the register `d` places on. -/
def VOp.plus (o : VOp) (d : Nat) : VOp := { o with reg := o.reg + BitVec.ofNat 6 d }

end Sys2Proof

namespace Sys2Proof.Machine

/-! ### Arithmetic (R196, R197) -/

/-- A rounding command on floating-point operands. -/
def Cx.fpOp (c : Cx) (h : Hdr) (a : VxArgs) (ops : List VOp) (f : XVal → XVal → XVal → XVal) : M Bool :=
  c.vx h a fun k => k.elemJob a a.t ops fun i p =>
    let v := ops.map fun o => k.fval a.t o i p
    let g := fun (q : Nat) => (v.getD q (.nan, {})).1
    a.t.result h (f (g 0) (g 1) (g 2)) (v.foldl (fun fl x => fl.or x.2) {})

def faddBody (c : Cx) (h : Hdr) (a : VxArgs) : M Bool := c.fpOp h a [a.va, a.vb] fun x y _ => x.add y
def fsubBody (c : Cx) (h : Hdr) (a : VxArgs) : M Bool := c.fpOp h a [a.va, a.vb] fun x y _ => x.add y.neg
def fmulBody (c : Cx) (h : Hdr) (a : VxArgs) : M Bool := c.fpOp h a [a.va, a.vb] fun x y _ => x.mul y
def ffmaBody (c : Cx) (h : Hdr) (a : VxArgs) : M Bool := c.fpOp h a [a.va, a.vb, a.vc] fun x y z => (x.mul y).add z
def fdivBody (c : Cx) (h : Hdr) (a : VxArgs) : M Bool := c.fpOp h a [a.va, a.vb] fun x y _ => x.div y
def fsqrtBody (c : Cx) (h : Hdr) (a : VxArgs) : M Bool := c.fpOp h a [a.va] fun x _ _ => x.sqrt
def frsqBody (c : Cx) (h : Hdr) (a : VxArgs) : M Bool := c.fpOp h a [a.va] fun x _ _ => x.rsqrt

/-! ### FMIN, FMAX, FABS (R198) -/

/-- The lesser or greater of two codes, NaNs as R198 has them. -/
def FFmt.pick (f : FFmt) (up : Bool) (x y : Nat) : ERes :=
  let fl : Flags := { nv := f.isSNaN x || f.isSNaN y }
  if f.isNaN x && f.isNaN y then (f.canonNaN, { nv := true }, none)
  else if f.isNaN x then (y, fl, none)
  else if f.isNaN y then (x, fl, none)
  else
    let o := XVal.cmp (f.value x) (f.value y)
    let xLess := decide (o < 0) || (o == 0 && bit x (f.eb + f.mb))
    (if xLess != up then x else y, fl, none)

def Cx.pickOp (c : Cx) (h : Hdr) (a : VxArgs) (up : Bool) : M Bool :=
  c.vx h a fun k => k.elemJob a a.t [a.va, a.vb] fun i p => FFmt.pick a.t.fmt up (k.fcode a.t a.va i p) (k.fcode a.t a.vb i p)

def fminBody (c : Cx) (h : Hdr) (a : VxArgs) : M Bool := c.pickOp h a false
def fmaxBody (c : Cx) (h : Hdr) (a : VxArgs) : M Bool := c.pickOp h a true

def fabsBody (c : Cx) (h : Hdr) (a : VxArgs) : M Bool :=
  c.vx h a fun k => k.elemJob a a.t [a.va] fun i p => plainRes (k.fcode a.t a.va i p % 2 ^ (a.t.width - 1))

/-! ### FCMP (R199) -/

/-- A floating-point compare; `quiet` sets NV only for a signalling NaN, the others for any NaN. -/
def Cx.fcmp (c : Cx) (h : Hdr) (a : VxArgs) (quiet : Bool) (f : Bool → Int → Bool) : M Bool :=
  c.cmpOp h a fun k i p =>
    let x := k.fval a.t a.va i p
    let y := k.fval a.t a.vb i p
    let un := x.1.isNaN || y.1.isNaN
    (f un (x.1.cmp y.1), if quiet then x.2.or y.2 else { nv := un })

def fcmpEqBody (c : Cx) (h : Hdr) (a : VxArgs) : M Bool := c.fcmp h a true fun un o => !un && o == 0
def fcmpLtBody (c : Cx) (h : Hdr) (a : VxArgs) : M Bool := c.fcmp h a false fun un o => !un && decide (o < 0)
def fcmpLeBody (c : Cx) (h : Hdr) (a : VxArgs) : M Bool := c.fcmp h a false fun un o => !un && decide (o ≤ 0)
def fcmpUnBody (c : Cx) (h : Hdr) (a : VxArgs) : M Bool := c.fcmp h a true fun un _ => un

/-! ### FRSUM (R200) -/

/-- The running sum over elements in flat order: FP32 code and flags. -/
def frsum (mode : Rnd) (l : List (XVal × Flags)) : Nat × Flags :=
  match l with
  | [] => (0, {})
  | x :: r =>
    let s0 := FFmt.fp32.round .ieee mode x.1
    r.foldl (fun acc y =>
      let s := FFmt.fp32.round .ieee mode ((FFmt.fp32.value acc.1).add y.1)
      (s.code, (acc.2.or y.2).or s.flags)) (s0.code, x.2.or s0.flags)

def frsumBody (c : Cx) (h : Hdr) (a : VxArgs) : M Bool :=
  c.reduce h a 1 fun k on =>
    let r := frsum h.mode ((flatElems a.t.perLane on).map fun e => k.fval a.t a.va e.1 e.2)
    [{ word := r.1, flags := r.2 }]

/-! ### CVT (R201 to R203) -/

def cvtBody (c : Cx) (h : Hdr) (a : VxArgs) : M Bool :=
  let st := tyOf a.lowByte
  let dt := a.t
  let wide := dt.perLane < st.perLane
  let k1 := if wide then st.perLane / dt.perLane else dt.perLane / st.perLane
  c.vx h a fun k =>
    let conv := fun (o : VOp) (i p : Nat) => let v := k.val st o i p; dt.result h v.1 v.2
    if wide then
      { k.elemJob a dt [a.va] (fun _ _ => plainRes 0) with
        dests := span a.dst k1
        out := fun d i => laneOf dt (fun q => i * st.perLane + q * k1 + d) fun q => conv a.va i (q * k1 + d) }
    else
      { k.elemJob a dt ((List.range k1).map a.va.plus) (fun _ _ => plainRes 0) with
        out := fun _ i => laneOf dt (flat dt i) fun q => conv (a.va.plus (q % k1)) i (q / k1) }

/-! ### The lattice (R204 to R206) -/

/-- Code `g` of a register of L8 codes (R167). -/
def Core.l8Code (k : Core) (r g : Nat) : Nat := ETy.i16.elem (k.lane r (g / 2)) (g % 2)

/-- A group of a QZ.L8: its number, code, flags, entries, and whether it disturbs a neighbour. -/
structure QGroup where
  g : Nat
  code : Nat
  flags : Flags
  gaz : List (Nat × Nat)
  dist : Bool
  deriving DecidableEq, Repr

def Core.quantGroup (k : Core) (h : Hdr) (a : VxArgs) (g : Nat) : QGroup :=
  let n := a.lowByte
  let gg := 16 * a.blk + g
  let cur := l8Quarters (k.l8Code a.dst gg)
  let en := fun (p : Nat) => decide (8 * g + p < n) && k.on a (8 * g + p)
  let u := (List.range 8).map fun p =>
    if n ≤ 8 * g + p then quarterFp32 1
    else if en p then k.fcode .fp32 a.va (8 * g + p) 0
    else quarterFp32 (cur.getD p 0)
  let q := quantL8 u
  let code := q.1.getD 0
  let now := l8Quarters code
  let full := q.1.isNone
  { g := g, code := code
    flags := { nv := q.2, of := full && h.ovm != .gaz }
    gaz := if full && h.ovm == .gaz then u.zipIdx.map fun e => (8 * gg + e.2, e.1) else []
    dist := (List.range 8).any fun p => decide (8 * g + p < n) && !(en p) && now.getD p 0 != cur.getD p 0 }

/-- The groups of a command that hold an enabled position (R205). -/
def Core.quantGroups (k : Core) (h : Hdr) (a : VxArgs) : List QGroup :=
  ((List.range ((a.lowByte + 7) / 8)).filter fun g =>
    (List.range 8).any fun p => decide (8 * g + p < a.lowByte) && k.on a (8 * g + p)).map (k.quantGroup h a)

def qzL8Body (c : Cx) (h : Hdr) (a : VxArgs) : M Bool := do
  let s ← get
  let k := s.core c.n
  let res := k.quantGroups h a
  let stop := if a.strict then res.find? fun (r : QGroup) => r.dist else none
  let written := match stop with
    | some g0 => res.filter fun (r : QGroup) => decide (r.g < g0.g)
    | none => res
  let uses := fun (g : Nat) => ((span (8 * g) 8).filter fun e => decide (e < a.lowByte) && k.on a e).map (fun e => (a.va.num, e)) ++
    [(a.dst, 8 * a.blk + g / 2)]
  if h.spec = false then c.consume (res.flatMap fun (r : QGroup) => uses r.g)
  match stop with
  | some g => if h.ovm = .gaz then c.gazReady a.gzd ((written ++ [g]).flatMap QGroup.gaz).length
  | none => pure ()
  let of := fun (i : Nat) => written.filter fun (r : QGroup) => decide (8 * a.blk + r.g / 2 = i)
  let _ ← c.vx h a fun k =>
    { dests := [a.dst], order := [a.va.num, a.dst]
      en := fun _ i => !(of i).isEmpty
      zero := fun _ _ => false
      src := fun _ i => (of i).flatMap fun (r : QGroup) => uses r.g
      out := fun _ i =>
        let code := fun (p : Nat) => match (of i).find? fun (r : QGroup) => decide (r.g % 2 = p) with
          | some r => r.code
          | none => ETy.i16.elem (k.lane a.dst i) p
        { word := ETy.i16.pack [code 0, code 1]
          flags := (of i).foldl (fun fl (r : QGroup) => fl.or r.flags) {}
          gaz := (of i).flatMap QGroup.gaz } }
  match stop with
  | some g => do
    -- the group is quantised before it is found disturbed
    c.flags g.flags
    if h.ovm = .gaz then c.gazAll a.gzd g.gaz
    throw (.flt { cause := 15, detail := 1, aux := 16 * a.blk + g.g })
  | none =>
    match written.find? fun (r : QGroup) => r.dist with
    | some r => c.l8Disturbed (16 * a.blk + r.g)
    | none => pure ()
    pure true

def dqL8Body (c : Cx) (h : Hdr) (a : VxArgs) : M Bool :=
  c.vx h a fun k =>
    let n := a.lowByte
    { k.elemJob a .fp32 [a.va] (fun e _ =>
        plainRes (if e < n then quarterFp32 ((l8Quarters (k.l8Code a.va.num (16 * a.blk + e / 8))).getD (e % 8) 0) else 0)) with
      src := fun _ e => if e < n then [(a.va.num, (16 * a.blk + e / 8) / 2)] else [] }

/-! ### Bit planes (R207, R208) -/

/-- Byte `y` of a register. -/
def Core.byteOf (k : Core) (r y : Nat) : Nat := bits (k.lane r (y / 4)) (8 * (y % 4) + 7) (8 * (y % 4))

/-- A command that makes byte `y` of `vd` from the register block it lies in. -/
def Cx.blockOp (c : Cx) (h : Hdr) (a : VxArgs) (f : Core → Nat → Nat) : M Bool :=
  c.vx h a fun k =>
    { k.elemJob a .i8 [a.va] (fun i p => plainRes (f k (4 * i + p))) with
      src := fun _ i => (span (i / 64 * 64) 64).map fun l => (a.va.num, l) }

def bpsBody (c : Cx) (h : Hdr) (a : VxArgs) : M Bool :=
  c.blockOp h a fun k y =>
    let b := y / 256
    let p := y % 256 / 32
    let q := y % 32
    (List.range 8).foldl (fun acc t => acc + (if bit (k.byteOf a.va.num (256 * b + 8 * q + t)) (7 - p) then 2 ^ t else 0)) 0

def bpmBody (c : Cx) (h : Hdr) (a : VxArgs) : M Bool :=
  let n := a.x10 + 1
  c.blockOp h a fun k y =>
    let b := y / 256
    wrap 8 (bpnValue n a.ctr (bpnBits n (fun o => k.byteOf a.va.num (256 * b + o)) (y % 256)))

/-! ### Scale and accumulate (R209) -/

def scaccBody (c : Cx) (h : Hdr) (a : VxArgs) : M Bool :=
  let scaleAt := fun (e : Nat) => e / 2 ^ a.x10
  c.vx h a fun k =>
    { k.elemJob a .fp32 [a.va, a.vb] (fun e _ =>
        let x := k.val a.t a.va e 0
        let y := k.fval .fp32 a.vb (scaleAt e) 0
        let z := ETy.fp32.value (k.lane a.dst e)
        ETy.fp32.result h (z.1.add (x.1.mul y.1)) ((x.2.or y.2).or z.2)) with
      order := [a.va.num, a.vb.num, a.dst]
      src := fun _ e => [(a.va.num, e), (a.vb.num, scaleAt e), (a.dst, e)] }

/-! ### Projection (R210 to R212) -/

/-- Entry `j` of a pattern. -/
def Core.pjEntry (k : Core) (n j : Nat) : Nat := bits (Table.get (0 : W64) k.pj (8 * n + j / 8)).toNat (8 * (j % 8) + 7) (8 * (j % 8))

/-- An entry that no pattern may hold (R211). -/
def pjBad (e : Nat) : Bool := bit e 7 || (bit e 6 && bits e 5 1 != 0)

def pjLdBody (c : Cx) (a : VxArgs) : M Bool := do
  let b ← c.readLocal (c.addr (a.imm)) 64
  if b.any fun e => pjBad e.toNat then flt 1
  modify fun s => s.modCore c.n fun k =>
    { k with pj := (List.range 8).foldl (fun t w => Table.put 0 t (8 * a.x10 + w) (BitVec.ofNat 64 (fieldOf b (8 * w) 8))) k.pj }
  pure true

def projBody (c : Cx) (h : Hdr) (a : VxArgs) : M Bool :=
  c.vx h a fun k =>
    let v1 := a.va.num + 1
    { k.elemJob a .i32 [a.va, a.va.plus 1] (fun _ _ => plainRes 0) with
      dests := [a.dst, a.dst + 1]
      out := fun d i =>
        let s := k.lane v1 i * 2 ^ 32 + k.lane a.va.num i
        let bitAt := fun (j : Nat) =>
          let e := k.pjEntry a.x10 j
          if bit e 6 then bit e 0 else bit s (bits e 5 0)
        { word := (List.range 32).foldl (fun acc j => if bitAt (32 * d + j) then acc + 2 ^ j else acc) 0 } }

end Sys2Proof.Machine
end

