-- ==== Sys2Proof/Machine/Mx.lean ====
section
/-! DEFINITION. The matrix engine: layout words and tags (R218, R219), the nest descriptor (R220 to R224), the operand
collector (R225 to R228), chaining (R229), product commands (R222, R230, R232) and accumulator commands (R234 to R236). -/
namespace Sys2Proof

/-! ### Fields (R230, R235) -/

def MxArgs.acc (a : MxArgs) : Nat := bits a.md.toNat 1 0
def MxArgs.z (a : MxArgs) : Bool := a.md.getLsbD 2
def MxArgs.che (a : MxArgs) : Bool := a.md.getLsbD 3
def MxArgs.asrc (a : MxArgs) : Nat := bits a.md.toNat 5 4
def MxArgs.cty (a : MxArgs) : Nat := bits a.md.toNat 7 6
def MxArgs.ctr (a : MxArgs) : Bool := a.md.getLsbD 8
def MxArgs.spa (a : MxArgs) : Nat := bits a.md.toNat 10 9
/-- MODE of ACC.ZERO, ROWS of ACC.SCALE. -/
def MxArgs.b11 (a : MxArgs) : Bool := a.md.getLsbD 11
def MxArgs.gsh (a : MxArgs) : Nat := bits a.md.toNat 14 12
/-- NEST, ADDR or the scale vector's address. -/
def MxArgs.addr (a : MxArgs) : BitVec 32 := a.q1.extractLsb' 0 32
def MxArgs.lay (a : MxArgs) : Nat := bits a.q1.toNat 63 32
def MxArgs.nr (a : MxArgs) : Nat := bits a.q2.toNat 8 0
def MxArgs.nc (a : MxArgs) : Nat := bits a.q2.toNat 17 9
def MxArgs.row0 (a : MxArgs) : Nat := bits a.q2.toNat 25 18
def MxArgs.col0 (a : MxArgs) : Nat := bits a.q2.toNat 33 26
def MxArgs.gz (a : MxArgs) : Nat := bits a.q2.toNat 36 34

/-- Values per group under N-of-8, 0 when B is dense (R228). -/
def MxArgs.nof8 (a : MxArgs) : Nat := if a.spa = 0 then 0 else 2 ^ (a.spa - 1)

end Sys2Proof

namespace Sys2Proof.Machine

/-! ### Layout words (R218) -/

def laySpan (l : Nat) : Nat := bits l 2 0
def layTr (l : Nat) : Bool := bit l 3
def layTy (l : Nat) : Nat := bits l 15 8
def layPitch (l : Nat) : Nat := bits l 31 16 * 64

/-- Bytes of a row of `n` positions; a stream of R157 has no fixed size. -/
def rowBytes (t : ETy) (n : Nat) : Nat :=
  match t with
  | .l8 => 2 * ((n + 7) / 8)
  | .bpn _ => 256 * ((n + 255) / 256)
  | .bmvBf16 => 0
  | .bmvFp8 => 0
  | t => t.bytes n

/-- A layout word for rows of `n` positions of an accepted type. -/
def layOk (l n : Nat) (accepts : Nat → Bool) : Bool :=
  bits l 7 4 == 0 && accepts (layTy l) && layPitch l != 0 && layPitch l % (16 * 2 ^ laySpan l) == 0 &&
    decide (rowBytes (tyOf (layTy l)) n ≤ layPitch l)

/-! ### Fetching (R219, R226 to R228) -/

/-- The tag of the block that an address lies in must be that of the layout word. -/
def Cx.tagged (c : Cx) (l va : Nat) : M Unit := do
  let off ← c.localOff .load (va % 2 ^ 64)
  let s ← get
  let want := laySpan l * 2 + b2n (layTr l)
  let got := Table.get 0 (s.core c.n).tags (off / 2048)
  if got ≠ want then flt 12 (want + got * 16) 0 (spBase c.n + off / 2048 * 2048)

/-- Bytes `o` to `o + n` of row `rho` of a tile, through the swizzle, every block's tag compared first. -/
def Cx.mxBytes (c : Cx) (l base rho o n : Nat) : M (List Byte) := do
  let m := swzMask (laySpan l) rho
  let row := base + rho * layPitch l
  let runs := unswizzledRuns row m o n
  runs.forM fun r => c.tagged l r.1
  c.readPieces runs

/-- A row of `n` positions as the collector takes it, in one access: of BPN the planes it reads, of BMV the stream expanded, by a decoder
with a cycle bound (R159). -/
def Cx.mxRow (c : Cx) (l base n rho : Nat) : M (List Byte) := inBurst <|
  match tyOf (layTy l) with
  | .bpn k => do
    let blocks ← (List.range ((n + 255) / 256)).mapM fun b => do
      let planes ← c.mxBytes l base rho (256 * b) (32 * k)
      pure (planes ++ List.replicate (256 - 32 * k) 0)
    pure blocks.flatten
  | .bmvBf16 | .bmvFp8 => do
    let (ety, w) := bmvElem (layTy l)
    let at1 := (base + rho * layPitch l) % 2 ^ 64
    match ← bmvHead (c.mxBytes l base rho) ety w fun count size => decide (count ≠ n ∨ layPitch l < size) with
    | .error d => flt 19 d 0 at1
    | .ok (m : Bmv) => do
      if (← get).slow then flt 19 5 0 at1
      bmvBytes (c.mxBytes l base rho) m w 0 (n * w)
  | t => c.mxBytes l base rho 0 (rowBytes t n)

/-- The element type in which a fetched row stands. -/
def fetched : ETy → ETy
  | .bmvBf16 => .bf16
  | .bmvFp8 => .fp8e4
  | t => t

/-- A delivered value in the FP kind, its factor applied (R83, R225, R226). -/
def mxVal (t : ETy) (ctr : Bool) (row : List Byte) (q : Nat) : XVal × Flags :=
  match t with
  | .l8 =>
    let x := (l8Quarters (fieldOf row (q / 8 * 2) 2)).getD (q % 8) 0
    (.fin (decide (x < 0)) x.natAbs 4, {})
  | .bpn k => (.ofInt (bpnValue k ctr (bpnBits k (fun b => fieldOf row (q / 256 * 256 + b) 1) (q % 256))), {})
  | t => t.value (t.inRow row q)

/-- A delivered value in the INT kind. -/
def mxInt (t : ETy) (ctr : Bool) (row : List Byte) (q : Nat) : Int × Flags :=
  match t with
  | .bpn k => (bpnValue k ctr (bpnBits k (fun b => fieldOf row (q / 256 * 256 + b) 1) (q % 256)), {})
  | t => let code := t.inRow row q; (t.intVal code, { nv := t.reserved code })

/-- A fetched tile: its rows, and where element (x, y) stands (R218). -/
structure Tile where
  ty : ETy
  tr : Bool
  rows : List (List Byte)
  deriving DecidableEq, Repr

def Tile.at (t : Tile) (x y : Nat) : List Byte × Nat := if t.tr then (t.rows.getD y [], x) else (t.rows.getD x [], y)

def Cx.tile (c : Cx) (l base d1 d2 : Nat) : M Tile := do
  let tr := layTr l
  let rows ← (List.range (if tr then d2 else d1)).mapM (c.mxRow l base (if tr then d1 else d2))
  pure { ty := fetched (tyOf (layTy l)), tr := tr, rows := rows }

/-- Positions of a metadata word, or none where it is malformed (R228). -/
def metaOf (n w : Nat) : Option (List Nat) :=
  let ps := (List.range n).map fun t => bits w (3 * t + 2) (3 * t)
  if w >>> (3 * n) = 0 ∧ ((ps.zip ps.tail).all fun p => decide (p.1 < p.2)) = true then some ps else none

/-- A B tile under N-of-8 (R228): its stored rows, values and metadata. -/
def Cx.sparseTile (c : Cx) (l base n kc tn : Nat) : M Tile := do
  let t := tyOf (layTy l)
  let rows ← (List.range (kc / 8 * (n + 1))).mapM fun rho => do
    if rho % (n + 1) = n then
      let row ← c.mxBytes l base rho 0 (2 * tn)
      if (List.range tn).any fun j => (metaOf n (fieldOf row (2 * j) 2)).isNone then
        flt 19 1 0 ((base + rho * layPitch l) % 2 ^ 64)
      pure row
    else c.mxBytes l base rho 0 (rowBytes t tn)
  pure { ty := t, tr := false, rows := rows }

/-- Where element (k, j) of a B tile stands; none where N-of-8 marks it absent. -/
def Tile.atB (t : Tile) (n k j : Nat) : Option (List Byte × Nat) :=
  if n = 0 then some (t.at k j)
  else
    let g := k / 8 * (n + 1)
    let ps := (metaOf n (fieldOf (t.rows.getD (g + n) []) (2 * j) 2)).getD []
    match ps.findIdx? (· == k % 8) with
    | some i => some (t.rows.getD (g + i) [], j)
    | none => none

/-! ### Accumulators (R216) -/

/-- The key of an accumulator element. -/
def accKey (n acc r col : Nat) : Nat := acc * (accDim n * accDim n) + r * accDim n + col

def Core.accGet (k : Core) (key : Nat) : W64 := Table.get 0 k.acc key

/-- An element as an FP32 code, or as an integer. -/
def Core.accFp (k : Core) (key : Nat) : Nat := bits (k.accGet key).toNat 31 0
def Core.accI (k : Core) (key : Nat) : Int := sext 64 (k.accGet key).toNat
def Core.accMode (k : Core) (acc : Nat) : Bool := Table.get false k.accInt acc

/-- Zero an accumulator and set its mode. -/
def Core.accClear (n acc : Nat) (int : Bool) (k : Core) : Core :=
  let sz := accDim n * accDim n
  { k with acc := Table.dropWhere (fun q => decide (acc * sz ≤ q ∧ q < (acc + 1) * sz)) k.acc, accInt := Table.put false k.accInt acc int }

/-- An element's value: FP32, or the integer exactly. -/
def Core.accVal (k : Core) (acc key : Nat) : XVal × Flags :=
  if k.accMode acc then (.ofInt (k.accI key), {}) else ETy.fp32.value (k.accFp key)

/-! ### The nest descriptor (R220 to R223) -/

/-- A latched descriptor, its fields by name. -/
structure Nest where
  d : List Byte
  deriving DecidableEq, Repr

def Nest.u (d : Nest) (off len : Nat) : Nat := fieldOf d.d off len
def Nest.tm (d : Nest) : Nat := d.u 16 2
def Nest.tn (d : Nest) : Nat := d.u 18 2
def Nest.kc (d : Nest) : Nat := d.u 20 2
def Nest.count (d : Nest) (l : Nat) : Nat := d.u (32 + 16 * l) 2
def Nest.kind (d : Nest) (l : Nat) : Nat := d.u (34 + 16 * l) 2
/-- A stride of a level at place `o` (4 SA, 8 SB, 12 SC), whole or by halves. -/
def Nest.stride (d : Nest) (l o : Nat) : Int := sext 32 (d.u (32 + 16 * l + o) 4)
def Nest.row (d : Nest) (l o : Nat) : Int := sext 16 (d.u (32 + 16 * l + o) 2)
def Nest.col (d : Nest) (l o : Nat) : Int := sext 16 (d.u (34 + 16 * l + o) 2)

/-- Sum over the levels of counter times stride. -/
def Nest.walk (n : List Nat) (f : Nat → Int) : Int :=
  (List.range 6).foldl (fun acc l => acc + (n.getD l 0 : Nat) * f l) 0

/-- The least and greatest of that sum over all steps. -/
def Nest.extent (d : Nest) (f : Nat → Int) : Int × Int :=
  (List.range 6).foldl (fun acc l =>
    let x := ((d.count l : Int) - 1) * f l
    (acc.1 + min x 0, acc.2 + max x 0)) (0, 0)

/-- Which types a form accepts for A and for B (R225); forms 0 BF16, 1 FP8, 2 I8, 3 Q4. -/
def formA (form code : Nat) : Bool :=
  if form = 0 then code == 0x0A || code == 0x21 || code == 0x20
  else if form = 1 then code == 0x08 || code == 0x09 || code == 0x22 || code == 0x20
  else if form = 2 then code == 0x03 || code == 0x04 || code == 0x05 || decide (0x15 ≤ code ∧ code ≤ 0x18)
  else code == 0x00 || code == 0x02 || decide (0x12 ≤ code ∧ code ≤ 0x14) || code == 0x20

def formB (form code : Nat) : Bool := formA form code && code != 0x21 && code != 0x22

/-- g of a form (R215). -/
def formG (form : Nat) : Nat := if form = 0 then 1 else if form = 3 then 4 else 2

/-- The chain type (R229). -/
def chainTy (cty : Nat) : ETy := if cty = 1 then .fp8e4 else if cty = 2 then .fp8e5 else .bf16

/-- Is the product of the FP kind (R225)? -/
def Nest.isFp (d : Nest) (a : MxArgs) (form : Nat) : Bool :=
  decide (form < 2) || (!a.che && layTy (d.u 8 4) == 0x20) || layTy (d.u 12 4) == 0x20

/-- The byte offsets of the fields that fail their check (R223). -/
def Nest.badFields (d : Nest) (n : Nat) (a : MxArgs) (form : Nat) : List Nat :=
  let alay := d.u 8 4
  let blay := d.u 12 4
  let sp := a.nof8
  let kmax := (if sp = 0 then 256 else 512) * formG form
  let t := fun (b : Bool) (o : Nat) => if b then [o] else []
  ([22, 23, 28, 29, 30, 31].filter fun o => d.u o 1 != 0) ++
  t (if a.che then alay != 0
     else !(layOk alay (if layTr alay then d.tm else d.kc) (formA form)) || ((layTy alay == 0x21 || layTy alay == 0x22) && layTr alay)) 8 ++
  t (if sp = 0 then !(layOk blay (if layTr blay then d.kc else d.tn) (formB form))
     else !(layOk blay d.tn (formB form)) || layTr blay || decide (0x12 ≤ layTy blay ∧ layTy blay ≤ 0x18) ||
       decide (layPitch blay < 2 * d.tn)) 12 ++
  t (decide (d.tm = 0 ∨ accDim n < d.tm)) 16 ++ t (decide (d.tn = 0 ∨ accDim n < d.tn)) 18 ++
  t (decide (d.kc = 0 ∨ kmax < d.kc) || (sp != 0 && d.kc % 8 != 0)) 20 ++
  (List.range 6).flatMap fun l =>
    let o := 32 + 16 * l
    t (d.count l == 0) o ++ t (decide (2 < d.kind l)) (o + 2) ++
    t (d.kind l == 0 && d.stride l 4 != 0) (o + 4) ++ t (d.kind l == 0 && d.stride l 8 != 0) (o + 8) ++
    t (decide (d.kind l < 2) && d.stride l 12 != 0) (o + 12)

/-- Does a region of `h` by `w` at (r, c), moved by a stride, stay within an accumulator at every step? -/
def Nest.within (d : Nest) (n o r col h w : Nat) : Bool :=
  let er := d.extent fun l => d.row l o
  let ec := d.extent fun l => d.col l o
  decide (0 ≤ (r : Int) + er.1 ∧ (r : Int) + er.2 + h ≤ accDim n ∧ 0 ≤ (col : Int) + ec.1 ∧ (col : Int) + ec.2 + w ≤ accDim n)

/-- The first failing check of the latch, as the DETAIL of "illegal command" (R223). -/
def Nest.defect (d : Nest) (k : Core) (n : Nat) (a : MxArgs) (form : Nat) : Option Nat :=
  match d.badFields n a form with
  | b :: r => some (r.foldl min b)
  | [] =>
    if d.within n 12 (d.u 24 2) (d.u 26 2) d.tm d.tn = false then some 0x82
    else if a.che ∧ d.within n 4 (d.u 0 2) (d.u 2 2) d.tm d.kc = false then some 0x83
    else if a.z = false ∧ k.accMode a.acc = d.isFp a form then some 0x80
    else if a.che ∧ k.accMode a.asrc = true then some 0x80
    else none

/-- The command's configuration: latched before, from a copy held, or read now (R223, R224). -/
def Cx.latch (c : Cx) (a : MxArgs) : M Nest :=
  match c.f.latch with
  | some d => pure { d := d }
  | none => do
    let va := c.addr a.addr
    if va % 128 ≠ 0 then flt 1 0x81
    let off ← c.localOff .load va
    let s ← get
    let d ← match (s.core c.n).descs.find? fun e => e.1 == off with
      | some e => pure e.2
      | none => c.readLocal va 128
    modify fun s => s.modCore c.n fun k => { k with descs := ((off, d) :: k.descs.filter fun e => e.1 != off).take 8 }
    pure { d := d }

/-! ### Steps (R222, R229) -/

/-- Element (i, k) of A through the chaining converter. -/
def Core.chained (k : Core) (h : Hdr) (n : Nat) (a : MxArgs) (r col i q : Nat) : XVal × Flags :=
  let t := chainTy a.cty
  let x := ETy.fp32.value (k.accFp (accKey n a.asrc (r + i) (col + q)))
  let w := t.round h.ovm h.mode x.1
  ((t.value w.code).1, x.2.or w.flags)

/-- One FP element: group sums exact, one rounding each, in ascending k; a group with no term adds nothing (R90). -/
def fpElem (mode : Rnd) (g kc x0 : Nat) (term : Nat → Option (XVal × Flags)) : Nat × Flags :=
  (List.range ((kc + g - 1) / g)).foldl (fun acc q =>
    let ts := (span (g * q) (min g (kc - g * q))).filterMap term
    match ts with
    | [] => acc
    | t :: r =>
      let s := r.foldl (fun (u v : XVal × Flags) => (u.1.add v.1, u.2.or v.2)) t
      let x := ETy.fp32.value acc.1
      let w := FFmt.fp32.round .ieee mode (x.1.add s.1)
      (w.code, ((acc.2.or x.2).or s.2).or w.flags)) (x0, {})

/-- One INT element: an exact 48-bit sum, held at the end it passes for the rest of the run (R91). -/
def intElem (kc : Nat) (x0 : Int) (stuck0 : Bool) (term : Nat → Option (Int × Flags)) : Int × Bool × Flags :=
  (List.range kc).foldl (fun acc q =>
    match term q with
    | none => acc
    | some t =>
      let fl := acc.2.2.or t.2
      if acc.2.1 then (acc.1, true, fl)
      else
        let x := acc.1 + t.1
        if x < -(2 ^ 47 : Int) then (-(2 ^ 47 : Int), true, fl.or { of := true })
        else if (2 ^ 47 : Int) ≤ x then (2 ^ 47 - 1, true, fl.or { of := true })
        else (x, false, fl)) (x0, stuck0, {})

/-- What a step lands: key, value, held or not, and flags. -/
abbrev Landed := List (Nat × W64 × Bool × Flags)

/-- One step: everything is fetched, verified and computed before the region lands. -/
def Cx.mxStep (c : Cx) (h : Hdr) (a : MxArgs) (form : Nat) (d : Nest) (n : List Nat) : M Unit := do
  let tm := d.tm
  let tn := d.tn
  let kc := d.kc
  let sp := a.nof8
  let s0 ← get
  let k := s0.core c.n
  let cr := ((d.u 24 2 : Nat) + Nest.walk n fun l => d.row l 12).toNat
  let cc := ((d.u 26 2 : Nat) + Nest.walk n fun l => d.col l 12).toNat
  let ar := ((d.u 0 2 : Nat) + Nest.walk n fun l => d.row l 4).toNat
  let ac := ((d.u 2 2 : Nat) + Nest.walk n fun l => d.col l 4).toNat
  let pa := addVa (c.addr (BitVec.ofNat 32 (d.u 0 4))) (Nest.walk n fun l => d.stride l 4)
  let pb := addVa (c.addr (BitVec.ofNat 32 (d.u 4 4))) (Nest.walk n fun l => d.stride l 8)
  let ta ← if a.che then pure { ty := .bf16, tr := false, rows := [] } else c.tile (d.u 8 4) pa tm kc
  let tb ← if sp = 0 then c.tile (d.u 12 4) pb kc tn else c.sparseTile (d.u 12 4) pb sp kc tn
  let cells := (List.range tm).flatMap fun i => (List.range tn).map fun j => (i, j)
  let landed : Landed ← if d.isFp a form then
      let av := fun (i q : Nat) => if a.che then k.chained h c.n a ar ac i q else mxVal ta.ty a.ctr (ta.at i q).1 (ta.at i q).2
      pure (cells.map fun ij =>
        let key := accKey c.n a.acc (cr + ij.1) (cc + ij.2)
        let r := fpElem h.mode (formG form) kc (k.accFp key) fun q =>
          (tb.atB sp q ij.2).map fun b =>
            let x := av ij.1 q
            let y := mxVal tb.ty a.ctr b.1 b.2
            (x.1.mul y.1, x.2.or y.2)
        (key, BitVec.ofNat 64 r.1, false, r.2))
    else
      pure (cells.map fun ij =>
        let key := accKey c.n a.acc (cr + ij.1) (cc + ij.2)
        let stuck := ((s0.ring c.n c.e).flight.any fun f => f.slot == c.f.slot && f.stuck.contains key)
        let r := intElem kc (k.accI key) stuck fun q =>
          (tb.atB sp q ij.2).map fun b =>
            let x := mxInt ta.ty a.ctr (ta.at ij.1 q).1 (ta.at ij.1 q).2
            let y := mxInt tb.ty a.ctr b.1 b.2
            (x.1 * y.1, x.2.or y.2)
        (key, BitVec.ofInt 64 r.1, r.2.1, r.2.2))
  modify fun s => s.modCore c.n fun k => { k with acc := landed.foldl (fun t e => Table.put 0 t e.1 e.2.1) k.acc }
  c.modFlight fun f => { f with stuck := f.stuck ++ (landed.filterMap fun e => if e.2.2.1 ∧ !f.stuck.contains e.1 then some e.1 else none) }
  c.flags (landed.foldl (fun fl e => fl.or e.2.2.2) {})

/-- The next counters, n0 fastest; none after the last. -/
def nextCount : List Nat → List Nat → Option (List Nat)
  | _, [] => none
  | [], _ => none
  | m :: ms, n :: ns => if n + 1 < m then some ((n + 1) :: ns) else (nextCount ms ns).map (0 :: ·)

/-- Steps from counters on; a step that faults leaves its counters in the command's progress, and between two steps the engine may
stop (R232, R233). -/
def Cx.mxLoop (c : Cx) (h : Hdr) (a : MxArgs) (form : Nat) (d : Nest) : Nat → List Nat → M Unit
  | 0, _ => pure ()
  | fuel + 1, n => do
    c.modFlight fun f => { f with prog := { f.prog with n := n } }
    boundary none
    c.mxStep h a form d n
    match nextCount ((List.range 6).map d.count) n with
    | some n' => c.mxLoop h a form d fuel n'
    | none => pure ()

/-- A product command of a form: latch, checks, Z, and its steps (R222, R223). -/
def productOp (form : Nat) (c : Cx) (h : Hdr) (a : MxArgs) : M Bool := do
  let d ← c.latch a
  let s ← get
  if c.f.latch = none then
    match d.defect (s.core c.n) c.n a form with
    | some x => flt 1 x
    | none => pure ()
    c.modFlight fun f => { f with latch := some d.d }
    -- a drop that is due takes effect once every command that has started has latched (R224)
    modify fun s => s.modCore c.n Core.dropIfDue
  if a.z ∧ c.f.prog.z = false then
    modify fun s => s.modCore c.n (Core.accClear c.n a.acc (!d.isFp a form))
    c.modFlight fun f => { f with prog := { f.prog with z := true } }
  let start := if c.f.prog.n = [] then [0, 0, 0, 0, 0, 0] else c.f.prog.n
  c.mxLoop h a form d (((List.range 6).map d.count).foldl (· * ·) 1) start
  pure true

def mmaBf16Body (c : Cx) (h : Hdr) (a : MxArgs) : M Bool := productOp 0 c h a
def mmaFp8Body (c : Cx) (h : Hdr) (a : MxArgs) : M Bool := productOp 1 c h a
def mmaI8Body (c : Cx) (h : Hdr) (a : MxArgs) : M Bool := productOp 2 c h a
def mmaQ4Body (c : Cx) (h : Hdr) (a : MxArgs) : M Bool := productOp 3 c h a
def mvBf16Body (c : Cx) (h : Hdr) (a : MxArgs) : M Bool := productOp 0 c h a
def mvFp8Body (c : Cx) (h : Hdr) (a : MxArgs) : M Bool := productOp 1 c h a
def mvI8Body (c : Cx) (h : Hdr) (a : MxArgs) : M Bool := productOp 2 c h a
def mvQ4Body (c : Cx) (h : Hdr) (a : MxArgs) : M Bool := productOp 3 c h a

/-! ### Accumulator commands (R234 to R236) -/

def accZeroBody (c : Cx) (a : MxArgs) : M Bool := do
  modify fun s => s.modCore c.n (Core.accClear c.n a.acc a.b11)
  pure true

/-- The memory rows of a region: row count, positions, and the region element at a row and position. -/
def regionOf (a : MxArgs) : Nat × Nat × (Nat → Nat → Nat × Nat) :=
  if layTr a.lay then (a.nc, a.nr, fun rho q => (q, rho)) else (a.nr, a.nc, fun rho q => (rho, q))

/-- Does a memory type belong to the INT kind of an accumulator? -/
def intMem (t : ETy) : Bool := t.isInt

def accLdBody (c : Cx) (a : MxArgs) : M Bool := do
  let s ← get
  let t := tyOf (layTy a.lay)
  if a.z = false ∧ (s.core c.n).accMode a.acc ≠ intMem t then flt 1 0x80
  let (rows, n, elem) := regionOf a
  let base := c.addr a.addr
  let data ← (List.range rows).mapM fun rho =>
    c.unswizzled (base + rho * layPitch a.lay) (swzMask (laySpan a.lay) rho) 0 (t.bytes n)
  if a.z then modify fun s => s.modCore c.n (Core.accClear c.n a.acc (intMem t))
  let puts := data.zipIdx.flatMap fun (r : List Byte × Nat) => (List.range n).map fun q =>
    let e := elem r.2 q
    let code := t.inRow r.1 q
    let v := if intMem t then BitVec.ofInt 64 (t.intVal code) else BitVec.ofNat 64 (if t = .bf16 then code * 65536 else code)
    (accKey c.n a.acc (a.row0 + e.1) (a.col0 + e.2), v)
  modify fun s => s.modCore c.n fun k => { k with acc := puts.foldl (fun m p => Table.put 0 m p.1 p.2) k.acc }
  pure true

/-- An element of an ACC.ST (R235). -/
def Core.accOut (k : Core) (h : Hdr) (acc key : Nat) (t : ETy) : ERes :=
  if k.accMode acc ∧ t.isInt then
    let x := k.accI key
    let v := max t.intRange.1 (min t.intRange.2 x)
    (t.encInt v, { of := v != x }, none)
  else
    let x := k.accVal acc key
    t.result h x.1 x.2

/-- A row of an odd number of 4-bit elements leaves the other half of its last byte as it is (R76, R235). -/
def Cx.keepNibble (c : Cx) (t : ETy) (n last : Nat) (row : List Byte) : M (List Byte) := do
  if t.width = 4 ∧ n % 2 = 1 then
    let old ← c.readLocal last 1
    pure (row.dropLast ++ [BitVec.ofNat 8 ((row.getLastD 0).toNat % 16 + (old.headD 0).toNat / 16 * 16)])
  else pure row

def accStBody (c : Cx) (h : Hdr) (a : MxArgs) : M Bool := do
  let s ← get
  let k := s.core c.n
  let t := tyOf (layTy a.lay)
  let int := k.accMode a.acc
  if (int ∧ !(intMem t || (t == .fp32 && h.ovm == .ieee))) ∨ (int = false ∧ intMem t = true) then flt 1 0x80
  let (rows, n, elem) := regionOf a
  let base := c.addr a.addr
  let out := fun (r col : Nat) => k.accOut h a.acc (accKey c.n a.acc (a.row0 + r) (a.col0 + col)) t
  let pitch := layPitch a.lay
  let unit := 16 * 2 ^ laySpan a.lay
  let mask := fun (rho : Nat) => swzMask (laySpan a.lay) rho
  let len := t.bytes n
  let room := fun (rho : Nat) => if mask rho = 0 then len else (len + unit - 1) / unit * unit
  let whole := fun (l : Nat) => (span (128 * l) 128).all fun v =>
    let o := v - base
    decide (base ≤ v ∧ o / pitch < rows ∧ o % pitch < room (o / pitch) ∧ (o % pitch) ^^^ mask (o / pitch) < len)
  let cells := (List.range a.nr).flatMap fun r => (List.range a.nc).map fun col => (r, col)
  let entries := if h.ovm = .gaz then cells.filterMap fun e => (out e.1 e.2).2.2.map fun v => (e.1 * a.nc + e.2, v) else []
  if h.ovm = .gaz then M.at none (some c.f.prog.off) (c.reserve false (k.gazRuns a.gz entries.length) none)
  (List.range rows).forM fun rho => do
    let from0 := rho * pitch
    let done := c.f.prog.off - from0
    if room rho ≤ done then pure ()
    else do
      if linesApart [(base, from0 - pitch + room (rho - 1))] [(base + from0, (rows - rho) * pitch)] || rho == 0 then
        boundary (some (max c.f.prog.off from0))
      let m := mask rho
      let row := t.rowBytes ((List.range n).map fun q => (out (elem rho q).1 (elem rho q).2).1)
      let bytes ← M.at none (some (max c.f.prog.off from0)) (c.keepNibble t n (base + from0 + ((len - 1) ^^^ m)) row)
      M.at none none (tryCatch (c.putMasked whole done (base + from0) (room rho) (fun o => decide (o ^^^ m < len))
        (fun o cnt => (span o cnt).map fun b => bytes.getD (b ^^^ m) 0) fun _ _ => pure ()) fun e => match e with
          | .flt f => throw (.flt { f with off := f.off.map (· + from0) })
          | e => throw e)
  if h.ovm = .gaz then M.at none (some (rows * pitch)) (c.gazAll a.gz entries)
  c.flags (cells.foldl (fun fl e => fl.or (out e.1 e.2).2.1) {})
  pure true

def accScaleBody (c : Cx) (h : Hdr) (a : MxArgs) : M Bool := do
  let s ← get
  let k := s.core c.n
  let dim := accDim c.n
  if k.accMode a.acc then flt 1 0x80
  let sc ← c.readLocal (c.addr a.addr) (4 * dim)
  let cells := (List.range dim).flatMap fun r => (List.range dim).map fun col => (r, col)
  let new := cells.map fun e =>
    let y := ETy.fp32.value (fieldOf sc (4 * ((if a.b11 then e.1 else e.2) / 2 ^ a.gsh)) 4)
    let x := k.accVal a.acc (accKey c.n a.acc e.1 e.2)
    let v := k.accVal a.asrc (accKey c.n a.asrc e.1 e.2)
    let r := if a.asrc = a.acc then ETy.fp32.result h (x.1.mul y.1) (x.2.or y.2)
      else ETy.fp32.result h (x.1.add (v.1.mul y.1)) ((x.2.or v.2).or y.2)
    (accKey c.n a.acc e.1 e.2, r)
  modify fun s => s.modCore c.n fun k => { k with acc := new.foldl (fun m p => Table.put 0 m p.1 (BitVec.ofNat 64 p.2.1)) k.acc }
  c.flags (new.foldl (fun fl p => fl.or p.2.2.1) {})
  pure true

end Sys2Proof.Machine
end

