-- ==== Sys2Proof/Machine/Ct.lean ====
section
/-! DEFINITION. Contour, the row engine (R238 to R249). -/
namespace Sys2Proof

def CtArgs.st (a : CtArgs) : ETy := Machine.tyOf a.stype.toNat
def CtArgs.dt (a : CtArgs) : ETy := Machine.tyOf a.dtype.toNat

/-- The bytes that a row is kept as between its first and its last period: its source row, P0 and the two statistics it takes. -/
def CtArgs.kept (a : CtArgs) : Nat := a.st.bytes a.len.toNat + 12

end Sys2Proof

namespace Sys2Proof.Machine

/-! ### Rounding inside Contour (R243) -/

/-- A value carried with the flags that have been set on the way to it. -/
abbrev FV := XVal × Flags

/-- Every internal rounding is to FP32 under RNE with IEEE overflow. -/
def rnd32 (x : XVal) (fl : Flags) : FV :=
  let r := FFmt.fp32.round .ieee .rne x
  (FFmt.fp32.value r.code, fl.or r.flags)

/-- The FP32 code of a value that FP32 holds; a NaN is written canonical (R71). -/
def code32 (x : XVal) : Nat := (FFmt.fp32.round .ieee .rne x).code

/-- The element that enters a row's arithmetic; none where the causal mask hides it. -/
def ctElem (a : CtArgs) (c0 : Option FV) (r i : Nat) (s : FV) : Option FV :=
  if a.causal ∧ a.row0.toNat + r < i then none
  else match c0 with
    | some c => some (let p := rnd32 (c.1.mul s.1) (c.2.or s.2); p)
    | none => some s

/-! ### The phases (R244, R245) -/

/-- MAX: NaNs are skipped; the first of equal values stands. -/
def ctMaxOf (t : List (Option FV)) : FV :=
  t.foldl (fun (m : FV) x => match x with
    | none => m
    | some v =>
      if v.1.isNaN then (m.1, (m.2.or v.2).or { nv := true })
      else (if XVal.cmp m.1 v.1 < 0 then v.1 else m.1, m.2.or v.2)) (.inf true, {})

/-- EXPSUM: the BF16 codes of the row, their sum, and the flags. -/
def ctExpSum (h : Hdr) (m : XVal) (t : List (Option FV)) : List Nat × FV :=
  let e := t.map fun x => match x with
    | none => (0, ({} : Flags))
    | some v =>
      let d := rnd32 (v.1.add m.neg) v.2
      let r := contourExp h.ovm h.mode (code32 d.1)
      (r.code, d.2.or r.flags)
  let sum := match e with
    | [] => (XVal.fin false 0 1, ({} : Flags))
    | x :: r => r.foldl (fun (acc : FV) (y : Nat × Flags) => rnd32 (acc.1.add (FFmt.bf16.value y.1)) acc.2) (FFmt.bf16.value x.1, {})
  (e.map (·.1), (sum.1, e.foldl (fun fl x => fl.or x.2) sum.2))

/-- A row element written under the command's RND and OVF. -/
def ctOut (h : Hdr) (dt : ETy) (x : XVal) (fl : Flags) : Nat × Flags :=
  let r := dt.round h.ovm h.mode x
  (r.code, fl.or r.flags)

/-- SCALE. -/
def ctScaleOf (h : Hdr) (dt : ETy) (e : List FV) (sum : XVal) : List (Nat × Flags) :=
  e.map fun x => if sum.isZero then (0, {}) else ctOut h dt (x.1.div sum) x.2

/-- SqSum: exact squares, one rounding per addition. -/
def sqSum : List FV → FV
  | [] => (.fin false 0 1, {})
  | x :: r => r.foldl (fun (q : FV) s => rnd32 (q.1.add (s.1.mul s.1)) (q.2.or s.2)) (rnd32 (x.1.mul x.1) x.2)

/-- Plain FP32 sum, the first term as it is. -/
def plainSum : List FV → FV
  | [] => (.fin false 0 1, {})
  | x :: r => r.foldl (fun (q : FV) s => rnd32 (q.1.add s.1) (q.2.or s.2)) x

/-- rho from a sum of squares: the mean plus epsilon, then the reciprocal root. -/
def rhoOf (q : FV) (len : Nat) (eps : FV) : FV :=
  let d := rnd32 ((q.1.div (.ofInt len)).add eps.1) (q.2.or eps.2)
  rnd32 d.1.rsqrt d.2

/-! ### A row -/

/-- What a row comes to: the bytes of its destination row, the statistics it writes by their place in the parameter block,
and its flags. -/
structure CtRow where
  row : List Byte := []
  stats : List (Nat × Nat) := []
  flags : Flags := {}
  deriving DecidableEq, Repr

/-- The seven commands. -/
inductive CtOp where
  | max | expsum | scale | softmax | rmsnorm | layernorm | sumsq
  deriving DecidableEq, Repr

/-- Phases of a command (R241). -/
def CtOp.phases : CtOp → Nat
  | .softmax | .layernorm => 3
  | .rmsnorm => 2
  | _ => 1

/-- Rows of outputs as bytes with their flags. -/
def ctBytes (dt : ETy) (l : List (Nat × Flags)) (stats : List (Nat × Nat)) (fl : Flags) : CtRow :=
  { row := dt.rowBytes (l.map (·.1)), stats := stats, flags := l.foldl (fun f x => f.or x.2) fl }

/-- The arithmetic of row `r` on its source elements, P0 and its statistics. -/
def ctRow (op : CtOp) (h : Hdr) (a : CtArgs) (r : Nat) (s : List FV) (p0 m sig : Nat) : CtRow :=
  let c0 := if a.pre then some (ETy.fp32.value p0) else none
  let t := s.zipIdx.map fun x => ctElem a c0 r x.2 x.1
  let eps := ETy.fp32.value p0
  match op with
  | .max => let v := ctMaxOf t; { stats := [(64 + 8 * r, code32 v.1)], flags := v.2 }
  | .expsum =>
    let mv := ETy.fp32.value m
    let e := ctExpSum h mv.1 t
    { row := ETy.bf16.rowBytes e.1, stats := [(68 + 8 * r, code32 e.2.1)], flags := e.2.2.or mv.2 }
  | .scale => let sv := ETy.fp32.value sig; ctBytes a.dt (ctScaleOf h a.dt s sv.1) [] sv.2
  | .softmax =>
    let v := ctMaxOf t
    let e := ctExpSum h v.1 t
    ctBytes a.dt (ctScaleOf h a.dt (e.1.map fun c => (FFmt.bf16.value c, {})) e.2.1) [] (v.2.or e.2.2)
  | .rmsnorm =>
    let rho := rhoOf (sqSum s) s.length eps
    ctBytes a.dt (s.map fun x => ctOut h a.dt (x.1.mul rho.1) x.2) [] rho.2
  | .layernorm =>
    let sg := plainSum s
    let mu := rnd32 (sg.1.div (.ofInt s.length)) sg.2
    let w := sqSum (s.map fun x => (x.1.add mu.1.neg, x.2))
    let rho := rhoOf w s.length eps
    ctBytes a.dt (s.map fun x => ctOut h a.dt ((x.1.add mu.1.neg).mul rho.1) x.2) [] (mu.2.or rho.2)
  | .sumsq => let q := sqSum s; { stats := [(68 + 8 * r, code32 q.1)], flags := q.2 }

/-! ### Periods (R246, R247, R249) -/

/-- Read a run that rows of the same command may have written since its start: a byte that differs from its old value is
either of the two (R247; a free choice, log 2). -/
def Cx.readMixed (c : Cx) (old : List Host.Cell) (va len : Nat) : M (List Byte) := do
  let parts ← inBurst <| (pieces (len + 1) 64 va (List.replicate len 0)).mapM fun p => do
    let off ← c.localOff .load (p.1 % 2 ^ 64)
    let now ← c.readLocal p.1 p.2.length
    let was := Memory.readList old (spBase c.n + off) p.2.length
    (now.zip was).mapM fun b => do
      if b.1 = b.2 then pure b.1 else if (← freshBool) then pure b.1 else pure b.2
  pure parts.flatten

/-- What a row that was read comes to. -/
def ctOf (op : CtOp) (h : Hdr) (a : CtArgs) (r : Nat) (raw : List Byte) : CtRow :=
  let w := fun (i : Nat) => fieldOf raw (a.st.bytes a.len.toNat + 4 * i) 4
  ctRow op h a r ((List.range a.len.toNat).map fun i => a.st.value (a.st.inRow raw i)) (w 0) (w 1) (w 2)

/-- Read row `r` and what its arithmetic takes from the parameter block. -/
def Cx.ctRead (c : Cx) (op : CtOp) (a : CtArgs) (old : List Host.Cell) (r : Nat) : M (List Byte) := do
  let aux := c.addr a.aux
  let b ← c.readMixed old (c.addr a.src + r * a.spitch.toNat * 64) (a.st.bytes a.len.toNat)
  let word := fun (need : Bool) (o : Nat) => if need then c.readMixed old (aux + o) 4 else pure [0, 0, 0, 0]
  let p0 ← word (a.pre || op == .rmsnorm || op == .layernorm) 0
  let m ← word (op == .expsum) (64 + 8 * r)
  let sig ← word (op == .scale) (68 + 8 * r)
  pure (b ++ p0 ++ m ++ sig)

/-- What rows `lo` to `hi` of a command write. -/
def Cx.ctRuns (c : Cx) (a : CtArgs) (row stats : Nat) (lo hi : Nat) : List (Nat × Nat) :=
  (span lo (hi - lo)).flatMap fun r =>
    (if row = 0 then [] else [(c.addr a.dst + r * a.dpitch.toNat * 64, row)]) ++
    (if stats = 0 then [] else [(c.addr a.aux + 64 + 8 * r, 8)])

/-- Write row `r` and its statistics. The row is then complete, and the engine may stop where no line is half new (R32, R304); the
rows `pend` it has read go on with it (R246). -/
def Cx.ctWrite (c : Cx) (a : CtArgs) (r : Nat) (x : CtRow) (pend : List (List Byte)) : M Unit := do
  (cutBanks (c.addr a.dst + r * a.dpitch.toNat * 64) x.row.length).forM fun p =>
    c.writeLocal (c.addr a.dst + r * a.dpitch.toNat * 64 + p.1) ((x.row.drop p.1).take p.2)
  x.stats.forM fun p => c.writeLocal (c.addr a.aux + p.1) (leBytes 4 p.2)
  c.flags x.flags
  c.modFlight fun f => { f with prog := { f.prog with row := r + 1 }, list := some pend.flatten }
  let runs := c.ctRuns a x.row.length x.stats.length
  if linesApart (runs 0 (r + 1)) (runs (r + 1) a.rows.toNat) then boundary none

/-- Periods from `p` on: every read of a period lands before its write; `pend` holds the rows read and not yet written,
oldest first. -/
def Cx.ctPeriods (c : Cx) (op : CtOp) (h : Hdr) (a : CtArgs) (old : List Host.Cell) (start : Nat) :
    Nat → Nat → List (List Byte) → M Unit
  | 0, _, _ => pure ()
  | fuel + 1, p, pend => do
    let new ← if p < a.rows.toNat then do pure [← c.ctRead op a old p] else pure []
    let l := pend ++ new
    if start + op.phases ≤ p + 1 then
      match l with
      | x :: rest => do
        let r := p + 1 - op.phases
        c.ctWrite a r (ctOf op h a r x) rest
        c.ctPeriods op h a old start fuel (p + 1) rest
      | [] => c.ctPeriods op h a old start fuel (p + 1) l
    else c.ctPeriods op h a old start fuel (p + 1) l

/-- Run a Contour command from the first row that is not complete: from its phase 0, or, after a pause, with the rows it has read. -/
def contourOp (op : CtOp) (c : Cx) (h : Hdr) (a : CtArgs) : M Bool := do
  let s ← get
  let start := c.f.prog.row
  let kept := (c.asNow s).list.getD []
  let pend := (List.range (kept.length / a.kept)).map fun i => (kept.drop (a.kept * i)).take a.kept
  let p0 := if pend = [] then start else start + op.phases - 1
  c.ctPeriods op h a s.mem start (a.rows.toNat + op.phases - 1 - p0) p0 pend
  pure true

def ctMaxBody (c : Cx) (h : Hdr) (a : CtArgs) : M Bool := contourOp .max c h a
def ctExpsumBody (c : Cx) (h : Hdr) (a : CtArgs) : M Bool := contourOp .expsum c h a
def ctScaleBody (c : Cx) (h : Hdr) (a : CtArgs) : M Bool := contourOp .scale c h a
def ctSoftmaxBody (c : Cx) (h : Hdr) (a : CtArgs) : M Bool := contourOp .softmax c h a
def ctRmsnormBody (c : Cx) (h : Hdr) (a : CtArgs) : M Bool := contourOp .rmsnorm c h a
def ctLayernormBody (c : Cx) (h : Hdr) (a : CtArgs) : M Bool := contourOp .layernorm c h a
def ctSumsqBody (c : Cx) (h : Hdr) (a : CtArgs) : M Bool := contourOp .sumsq c h a

end Sys2Proof.Machine
end

