-- ==== Sys2Proof/Machine/Tv.lean ====
section
/-! DEFINITION. The TV ring: the Traverse commands of a compute die (R275 to R280, R282). -/
namespace Sys2Proof.Machine

/-- The stream a command names (R275). -/
def Cx.stream (c : Cx) (a : TvArgs) : Nat := bits (c.areg a.sreg.toNat).toNat 15 0

/-- Write the status word (R277): the code, the state after the event, the block the code concerns. -/
def Cx.tvWord (c : Cx) (a : TvArgs) (code st idx : Nat) : M Unit :=
  c.writeLocal (c.addr a.stw) (leBytes 8 (code + st * 2 ^ 8 + idx * 2 ^ 16))

/-- End, the status word written (R277): with FE a nonzero code owes a record. -/
def Cx.tvRecord (c : Cx) (a : TvArgs) (code idx : Nat) : M Bool := do
  if a.fe ∧ code ≠ 0 then c.owe (c.informs 17 code idx (c.stream a))
  pure true

/-- Write the status word and end. -/
def Cx.tvEnd (c : Cx) (a : TvArgs) (code st idx : Nat) : M Bool := do
  c.tvWord a code st idx
  c.tvRecord a code idx

/-- The status word must be writable before the event is taken, so that a fault leaves it untaken. -/
def Cx.tvReady (c : Cx) (a : TvArgs) : M Unit := do
  let _ ← c.localOff .store (c.addr a.stw)

/-- End with a code about the record as it stands (R277, R280): the nonzero code goes into LASTERR and ERRIDX. -/
def Cx.tvCode (c : Cx) (a : TvArgs) (code idx : Nat) : M Bool := do
  let i := c.stream a
  modify fun s => s.streamErr i code idx
  let s ← get
  c.tvEnd a code (if code = 1 ∨ code = 10 then 0 else (s.stream i).state) idx

/-- The first of codes 1, 10, 2, 5 and 3 that applies (R280): `die` is the die that must issue, `closed` whether CANCELLING
and CANCELLED refuse with code 5, `ok` the states in which the command is legal. -/
def State.tvLegal (s : State) (n i : Nat) (die : Stream → Option Nat) (closed : Bool) (ok : Nat → Bool) : Nat :=
  let t := s.stream i
  if t.state = 0 then 1
  else if (s.recCtx n).1 ≠ t.ctx then 10
  else if (die t).any fun d => d != dieOf n then 2
  else if closed ∧ (t.state = 7 ∨ t.state = 8) then 5
  else if ok t.state then 0 else 3

def onPdie (t : Stream) : Option Nat := some t.pdie
def anyDie (_ : Stream) : Option Nat := none

/-- The reply to a command that was sent (R278, R280): it stands until the status word is written. -/
def Cx.tvReplied (c : Cx) (a : TvArgs) : M Bool := do
  let s ← get
  match s.tvReply.find? fun r => r.core == c.n && r.slot == c.f.slot && decide (r.code < waitLift) with
  | none => throw .stall
  | some r =>
    c.tvWord a r.code r.st r.idx
    modify fun s => { s with tvReply := s.tvReply.erase r }
    if r.gzl then
      c.flags { gzl := true }
      if (s.core c.n).hart.csrBit 0x800 17 then c.owe (c.informs 16 0 (s.stream (c.stream a)).gzlost 0)
    c.tvRecord a r.code r.idx

/-- The command has been sent and waits. -/
def Cx.tvSent (c : Cx) : M Bool := do
  c.modFlight fun f => { f with prog := { f.prog with row := 1 } }
  pure false

/-- TV.OPEN. -/
def tvOpenBody (c : Cx) (a : TvArgs) : M Bool := do
  c.tvReady a
  let s ← get
  let i := c.stream a
  let t := s.stream i
  let code := s.tvLegal c.n i onPdie true fun st => st == 2 || st == 3
  let own := match (s.core c.n).task with
    | some k => if k.stream = some i then 1 else 0
    | none => 0
  if code ≠ 0 then c.tvCode a code 0
  else if t.state = 3 then c.tvCode a 0 0
  else if own < t.live then c.tvCode a 4 0
  else if 64 ≤ (s.streams.filter fun e => (e.2.state == 3 || e.2.state == 4) && e.2.ddie == t.ddie && e.2.dpkg == t.dpkg).length then
    c.tvCode a 8 0
  else
    eventRelease c.who
    modify fun s => s.toState i 3
    c.tvCode a 0 0

/-- A block formed from source rows of BF16 (R278): its bytes, its outliers, and the flags. -/
def formBlock (t : Stream) (h : Hdr) (idx ntok : Nat) (rows : List (List Byte)) : List Byte × List (Nat × Nat) × Flags :=
  let nt := 8 <<< t.tc
  let dh := 16 * (t.dhc + 1)
  let el := (List.range (nt * dh)).map fun o =>
    -- byte o of the block holds token and dimension in head-dim-major order
    let tok := o / (8 * dh) * 8 + o % 8
    let dim := o / 8 % dh
    let code := if tok < ntok then fieldOf (rows.getD tok []) (2 * dim) 2 else 0
    let v := FFmt.bf16.value code
    let r := ETy.fp8e4.round h.ovm .rne v
    (r.code, { r.flags with nv := r.flags.nv || FFmt.bf16.isSNaN code }, if r.gazed then some (idx * nt * dh + o, code * 65536) else none)
  (el.map fun x => BitVec.ofNat 8 x.1, el.filterMap fun x => x.2.2, el.foldl (fun fl x => fl.or x.2.1) {})

/-- TV.BLK. -/
def tvBlkBody (c : Cx) (h : Hdr) (a : TvArgs) : M Bool := do
  if c.f.prog.row = 1 then c.tvReplied a
  else
    c.tvReady a
    let s ← get
    let i := c.stream a
    let t := s.stream i
    let idx := a.idx.toNat
    let ntok := a.ntok.toNat
    let dh := 16 * (t.dhc + 1)
    let code := s.tvLegal c.n i onPdie true fun st => st == 3
    if code ≠ 0 then c.tvCode a code 0
    else if t.nbmax ≤ idx ∨ 8 <<< t.tc < ntok ∨ a.spitch.toNat < 2 * dh then c.tvCode a 7 idx
    else if t.lost then c.tvCode a 11 0
    else
      let rows ← (List.range ntok).mapM fun r => c.readLocal (c.addr a.src + r * a.spitch.toNat) (2 * dh)
      let b := formBlock t h idx ntok rows
      c.flags b.2.2
      let m : TvMsg := { pdie := dieOf c.n, stream := i, core := c.n, slot := c.f.slot, idx := idx, isSeal := false, data := b.1,
                         outliers := b.2.1, doomed := none }
      modify fun s => { s with tvChan := s.tvChan ++ [m] }
      c.tvSent

/-- TV.SEAL. -/
def tvSealBody (c : Cx) (a : TvArgs) : M Bool := do
  if c.f.prog.row = 1 then c.tvReplied a
  else
    c.tvReady a
    let s ← get
    let i := c.stream a
    let t := s.stream i
    let code := s.tvLegal c.n i onPdie true fun st => st == 3
    if code ≠ 0 then c.tvCode a code 0
    else if t.nbmax < a.idx.toNat then c.tvCode a 7 0
    else if t.lost then c.tvCode a 11 0
    else
      eventRelease c.who
      let m : TvMsg := { pdie := dieOf c.n, stream := i, core := c.n, slot := c.f.slot, idx := a.idx.toNat, isSeal := true, data := [],
                         outliers := [], doomed := none }
      modify fun s => { s with tvChan := s.tvChan ++ [m] }
      c.tvSent

/-- TV.CANCEL: the cancel event. -/
def tvCancelBody (c : Cx) (a : TvArgs) : M Bool := do
  c.tvReady a
  let s ← get
  let i := c.stream a
  let code := s.tvLegal c.n i anyDie false fun _ => true
  if code ≠ 0 then c.tvCode a code 0
  else
    eventRelease c.who
    let s ← get
    let r := s.cancelStream i
    set r.1
    c.tvCode a r.2 0

/-- TV.CANCEL with FIN: the owner finishes the stream. -/
def tvCancelFinBody (c : Cx) (a : TvArgs) : M Bool := do
  c.tvReady a
  let s ← get
  let i := c.stream a
  let code := s.tvLegal c.n i (fun t => if t.state = 5 ∧ t.dpkg ≠ s.pkgId then some 0x0C else if 1 ≤ t.state ∧ t.state ≤ 5 then some t.owner else none) true fun st => st == 5
  if code ≠ 0 then c.tvCode a code 0
  else
    eventRelease c.who
    modify fun s => s.toState i 6
    c.tvCode a 0 0

/-- TV.STAT copies the record. -/
def tvStatBody (c : Cx) (a : TvArgs) : M Bool := do
  c.tvReady a
  let s ← get
  let i := c.stream a
  let code := s.tvLegal c.n i anyDie false fun _ => true
  if code = 0 then
    c.writeLocal (c.addr a.src) ((List.range 8).flatMap fun w => leBytes 8 ((s.stream i).word w))
  c.tvCode a code 0

/-- TV.ACQ waits for the grant; its completion in DECODE is an acquire at pkg scope. -/
def tvAcqBody (c : Cx) (a : TvArgs) : M Bool := do
  c.tvReady a
  let s ← get
  let i := c.stream a
  let t := s.stream i
  let code := s.tvLegal c.n i (fun t => some (if t.dpkg = s.pkgId then t.ddie else 0x0C)) false fun _ => true
  if code ≠ 0 then c.tvCode a code 0
  else if t.state = 5 then c.tvCode a 0 0
  else if 6 ≤ t.state then c.tvCode a 5 0
  else throw .stall

/-- TV.DISC orders the discard and completes at its acknowledgement. -/
def tvDiscBody (c : Cx) (a : TvArgs) : M Bool := do
  if c.f.prog.row = 1 then c.tvReplied a
  else
    c.tvReady a
    let s ← get
    let i := c.stream a
    let t := s.stream i
    let code := s.tvLegal c.n i onPdie true fun st => st == 3
    if code ≠ 0 then c.tvCode a code 0
    else if t.lost then c.tvCode a 11 0
    else
      let r : TvReply := { core := c.n, slot := c.f.slot, code := waitDisc, idx := i, st := 0, gzl := false }
      modify fun s => { s.setStream i { t with discarding := true, toPrefill := true } with tvReply := s.tvReply ++ [r] }
      c.tvSent

/-- TV.FREE waits for the free notice. -/
def tvFreeBody (c : Cx) (a : TvArgs) : M Bool := do
  c.tvReady a
  let s ← get
  let i := c.stream a
  let code := if c.f.prog.row = 1 ∧ (s.stream i).state ≠ 0 then 0 else s.tvLegal c.n i onPdie false fun st => decide (3 ≤ st)
  if code ≠ 0 then c.tvCode a code 0
  else match (s.stream i).notice with
    | some grant => c.tvCode a (if grant then 0 else 5) 0
    | none => if c.f.prog.row = 1 then throw .stall else c.tvSent

end Sys2Proof.Machine
end

