-- ==== Sys2Proof/Machine/Commands.lean ====
section
/-! DEFINITION. The meanings of the engine commands (R58, R62 to R66): each runs its body for the command of the step, on
the ring of its engine. -/
namespace Sys2Proof.Machine

/-! ### Commands of every engine -/

def execNop (e : Eng) (_ : Hdr) (s : State) : Host.Outcome State Fault Refusal := runEngine (· == e) nopBody s

def execCbRelCommand (e : Eng) (_ : Hdr) (a : CbArgs) (s : State) : Host.Outcome State Fault Refusal :=
  runEngine (· == e) (fun c => cbRelBody c a) s

def execCbClaimCommand (e : Eng) (_ : Hdr) (a : CbArgs) (s : State) : Host.Outcome State Fault Refusal :=
  runEngine (· == e) (fun c => cbClaimBody c a) s

def execCbPushCommand (e : Eng) (_ : Hdr) (a : CbArgs) (s : State) : Host.Outcome State Fault Refusal :=
  runEngine (· == e) (fun c => cbPushBody c a) s

def execCbTakeCommand (e : Eng) (_ : Hdr) (a : CbArgs) (s : State) : Host.Outcome State Fault Refusal :=
  runEngine (· == e) (fun c => cbTakeBody c a) s

/-! ### LD -/

def execLdTile (_ : Hdr) (a : LdArgs) (s : State) : Host.Outcome State Fault Refusal :=
  runEngine (· == .ld) (fun c => ldTileBody c a) s

def execLdGather (_ : Hdr) (a : LdArgs) (s : State) : Host.Outcome State Fault Refusal :=
  runEngine (· == .ld) (fun c => ldGatherBody c a) s

def execLdMcast (_ : Hdr) (a : LdArgs) (s : State) : Host.Outcome State Fault Refusal :=
  runEngine (· == .ld) (fun c => ldMcastBody c a) s

def execLdBmv (_ : Hdr) (a : LdArgs) (s : State) : Host.Outcome State Fault Refusal :=
  runEngine (· == .ld) (fun c => ldBmvBody c a) s

def execLdBpn (_ : Hdr) (a : LdArgs) (s : State) : Host.Outcome State Fault Refusal :=
  runEngine (· == .ld) (fun c => ldBpnBody c a) s

def execLdCvt (h : Hdr) (a : LdArgs) (s : State) : Host.Outcome State Fault Refusal :=
  runEngine (· == .ld) (fun c => ldCvtBody c h a) s

def execLdPref (_ : Hdr) (a : LdArgs) (s : State) : Host.Outcome State Fault Refusal :=
  runEngine (· == .ld) (fun c => ldPrefBody c a) s

def execLdMove (_ : Hdr) (a : LdArgs) (s : State) : Host.Outcome State Fault Refusal :=
  runEngine (· == .ld) (fun c => ldMoveBody c a) s

def execLdFill (_ : Hdr) (a : LdArgs) (s : State) : Host.Outcome State Fault Refusal :=
  runEngine (· == .ld) (fun c => ldFillBody c a) s

/-! ### ST -/

def execStTile (_ : Hdr) (a : StArgs) (s : State) : Host.Outcome State Fault Refusal :=
  runEngine (· == .st) (fun c => stTileBody c a) s

def execStScat (_ : Hdr) (a : StArgs) (s : State) : Host.Outcome State Fault Refusal :=
  runEngine (· == .st) (fun c => stScatBody c a) s

def execStBmv (_ : Hdr) (a : StArgs) (s : State) : Host.Outcome State Fault Refusal :=
  runEngine (· == .st) (fun c => stBmvBody c a) s

def execStDtile (_ : Hdr) (a : StArgs) (s : State) : Host.Outcome State Fault Refusal :=
  runEngine (· == .st) (fun c => stDtileBody c a) s

def execStDscat (_ : Hdr) (a : StArgs) (s : State) : Host.Outcome State Fault Refusal :=
  runEngine (· == .st) (fun c => stDscatBody c a) s

def execStCvt (h : Hdr) (a : StArgs) (s : State) : Host.Outcome State Fault Refusal :=
  runEngine (· == .st) (fun c => stCvtBody c h a) s

def execStWb (_ : Hdr) (a : StArgs) (s : State) : Host.Outcome State Fault Refusal :=
  runEngine (· == .st) (fun c => stWbBody c a) s

def execStFlush (_ : Hdr) (a : StArgs) (s : State) : Host.Outcome State Fault Refusal :=
  runEngine (· == .st) (fun c => stFlushBody c a) s

/-! ### MX -/

def execMmaBf16 (h : Hdr) (a : MxArgs) (s : State) : Host.Outcome State Fault Refusal :=
  runEngine (· == .mx) (fun c => mmaBf16Body c h a) s

def execMmaFp8 (h : Hdr) (a : MxArgs) (s : State) : Host.Outcome State Fault Refusal :=
  runEngine (· == .mx) (fun c => mmaFp8Body c h a) s

def execMmaI8 (h : Hdr) (a : MxArgs) (s : State) : Host.Outcome State Fault Refusal :=
  runEngine (· == .mx) (fun c => mmaI8Body c h a) s

def execMmaQ4 (h : Hdr) (a : MxArgs) (s : State) : Host.Outcome State Fault Refusal :=
  runEngine (· == .mx) (fun c => mmaQ4Body c h a) s

def execMvBf16 (h : Hdr) (a : MxArgs) (s : State) : Host.Outcome State Fault Refusal :=
  runEngine (· == .mx) (fun c => mvBf16Body c h a) s

def execMvFp8 (h : Hdr) (a : MxArgs) (s : State) : Host.Outcome State Fault Refusal :=
  runEngine (· == .mx) (fun c => mvFp8Body c h a) s

def execMvI8 (h : Hdr) (a : MxArgs) (s : State) : Host.Outcome State Fault Refusal :=
  runEngine (· == .mx) (fun c => mvI8Body c h a) s

def execMvQ4 (h : Hdr) (a : MxArgs) (s : State) : Host.Outcome State Fault Refusal :=
  runEngine (· == .mx) (fun c => mvQ4Body c h a) s

def execAccZero (_ : Hdr) (a : MxArgs) (s : State) : Host.Outcome State Fault Refusal :=
  runEngine (· == .mx) (fun c => accZeroBody c a) s

def execAccLd (_ : Hdr) (a : MxArgs) (s : State) : Host.Outcome State Fault Refusal :=
  runEngine (· == .mx) (fun c => accLdBody c a) s

def execAccSt (h : Hdr) (a : MxArgs) (s : State) : Host.Outcome State Fault Refusal :=
  runEngine (· == .mx) (fun c => accStBody c h a) s

def execAccScale (h : Hdr) (a : MxArgs) (s : State) : Host.Outcome State Fault Refusal :=
  runEngine (· == .mx) (fun c => accScaleBody c h a) s

/-! ### VX -/

def execVxVld (h : Hdr) (a : VxArgs) (s : State) : Host.Outcome State Fault Refusal :=
  runEngine (· == .vx) (fun c => vldBody c h a) s

def execVxVst (h : Hdr) (a : VxArgs) (s : State) : Host.Outcome State Fault Refusal :=
  runEngine (· == .vx) (fun c => vstBody c h a) s

def execVxVldk (_ : Hdr) (a : VxArgs) (s : State) : Host.Outcome State Fault Refusal :=
  runEngine (· == .vx) (fun c => vldkBody c a) s

def execVxVstk (_ : Hdr) (a : VxArgs) (s : State) : Host.Outcome State Fault Refusal :=
  runEngine (· == .vx) (fun c => vstkBody c a) s

def execVxMov (h : Hdr) (a : VxArgs) (s : State) : Host.Outcome State Fault Refusal :=
  runEngine (· == .vx) (fun c => movBody c h a) s

def execVxMovi (h : Hdr) (a : VxArgs) (s : State) : Host.Outcome State Fault Refusal :=
  runEngine (· == .vx) (fun c => moviBody c h a) s

def execVxIota (h : Hdr) (a : VxArgs) (s : State) : Host.Outcome State Fault Refusal :=
  runEngine (· == .vx) (fun c => iotaBody c h a) s

def execVxPjLd (_ : Hdr) (a : VxArgs) (s : State) : Host.Outcome State Fault Refusal :=
  runEngine (· == .vx) (fun c => pjLdBody c a) s

def execVxAdd (h : Hdr) (a : VxArgs) (s : State) : Host.Outcome State Fault Refusal :=
  runEngine (· == .vx) (fun c => vaddBody c h a) s

def execVxSub (h : Hdr) (a : VxArgs) (s : State) : Host.Outcome State Fault Refusal :=
  runEngine (· == .vx) (fun c => vsubBody c h a) s

def execVxAdds (h : Hdr) (a : VxArgs) (s : State) : Host.Outcome State Fault Refusal :=
  runEngine (· == .vx) (fun c => vaddsBody c h a) s

def execVxSubs (h : Hdr) (a : VxArgs) (s : State) : Host.Outcome State Fault Refusal :=
  runEngine (· == .vx) (fun c => vsubsBody c h a) s

def execVxMul (h : Hdr) (a : VxArgs) (s : State) : Host.Outcome State Fault Refusal :=
  runEngine (· == .vx) (fun c => vmulBody c h a) s

def execVxMulh (h : Hdr) (a : VxArgs) (s : State) : Host.Outcome State Fault Refusal :=
  runEngine (· == .vx) (fun c => vmulhBody c h a) s

def execVxMin (h : Hdr) (a : VxArgs) (s : State) : Host.Outcome State Fault Refusal :=
  runEngine (· == .vx) (fun c => vminBody c h a) s

def execVxMax (h : Hdr) (a : VxArgs) (s : State) : Host.Outcome State Fault Refusal :=
  runEngine (· == .vx) (fun c => vmaxBody c h a) s

def execVxAbs (h : Hdr) (a : VxArgs) (s : State) : Host.Outcome State Fault Refusal :=
  runEngine (· == .vx) (fun c => vabsBody c h a) s

def execVxMadd (h : Hdr) (a : VxArgs) (s : State) : Host.Outcome State Fault Refusal :=
  runEngine (· == .vx) (fun c => vmaddBody c h a) s

def execVxDot (h : Hdr) (a : VxArgs) (s : State) : Host.Outcome State Fault Refusal :=
  runEngine (· == .vx) (fun c => vdotBody c h a) s

def execVxDots (h : Hdr) (a : VxArgs) (s : State) : Host.Outcome State Fault Refusal :=
  runEngine (· == .vx) (fun c => vdotsBody c h a) s

def execVxAnd (h : Hdr) (a : VxArgs) (s : State) : Host.Outcome State Fault Refusal :=
  runEngine (· == .vx) (fun c => vandBody c h a) s

def execVxOr (h : Hdr) (a : VxArgs) (s : State) : Host.Outcome State Fault Refusal :=
  runEngine (· == .vx) (fun c => vorBody c h a) s

def execVxXor (h : Hdr) (a : VxArgs) (s : State) : Host.Outcome State Fault Refusal :=
  runEngine (· == .vx) (fun c => vxorBody c h a) s

def execVxAndn (h : Hdr) (a : VxArgs) (s : State) : Host.Outcome State Fault Refusal :=
  runEngine (· == .vx) (fun c => vandnBody c h a) s

def execVxSll (h : Hdr) (a : VxArgs) (s : State) : Host.Outcome State Fault Refusal :=
  runEngine (· == .vx) (fun c => vsllBody c h a) s

def execVxSrl (h : Hdr) (a : VxArgs) (s : State) : Host.Outcome State Fault Refusal :=
  runEngine (· == .vx) (fun c => vsrlBody c h a) s

def execVxSra (h : Hdr) (a : VxArgs) (s : State) : Host.Outcome State Fault Refusal :=
  runEngine (· == .vx) (fun c => vsraBody c h a) s

def execVxRol (h : Hdr) (a : VxArgs) (s : State) : Host.Outcome State Fault Refusal :=
  runEngine (· == .vx) (fun c => vrolBody c h a) s

def execVxPopc (h : Hdr) (a : VxArgs) (s : State) : Host.Outcome State Fault Refusal :=
  runEngine (· == .vx) (fun c => vpopcBody c h a) s

def execVxClz (h : Hdr) (a : VxArgs) (s : State) : Host.Outcome State Fault Refusal :=
  runEngine (· == .vx) (fun c => vclzBody c h a) s

def execVxCmpEq (h : Hdr) (a : VxArgs) (s : State) : Host.Outcome State Fault Refusal :=
  runEngine (· == .vx) (fun c => cmpEqBody c h a) s

def execVxCmpNe (h : Hdr) (a : VxArgs) (s : State) : Host.Outcome State Fault Refusal :=
  runEngine (· == .vx) (fun c => cmpNeBody c h a) s

def execVxCmpLt (h : Hdr) (a : VxArgs) (s : State) : Host.Outcome State Fault Refusal :=
  runEngine (· == .vx) (fun c => cmpLtBody c h a) s

def execVxCmpLe (h : Hdr) (a : VxArgs) (s : State) : Host.Outcome State Fault Refusal :=
  runEngine (· == .vx) (fun c => cmpLeBody c h a) s

def execVxCmpLtu (h : Hdr) (a : VxArgs) (s : State) : Host.Outcome State Fault Refusal :=
  runEngine (· == .vx) (fun c => cmpLtuBody c h a) s

def execVxCmpLeu (h : Hdr) (a : VxArgs) (s : State) : Host.Outcome State Fault Refusal :=
  runEngine (· == .vx) (fun c => cmpLeuBody c h a) s

def execVxSel (h : Hdr) (a : VxArgs) (s : State) : Host.Outcome State Fault Refusal :=
  runEngine (· == .vx) (fun c => selBody c h a) s

def execVxCsel (h : Hdr) (a : VxArgs) (s : State) : Host.Outcome State Fault Refusal :=
  runEngine (· == .vx) (fun c => cselBody c h a) s

def execVxKand (_ : Hdr) (a : VxArgs) (s : State) : Host.Outcome State Fault Refusal :=
  runEngine (· == .vx) (fun c => kandBody c a) s

def execVxKor (_ : Hdr) (a : VxArgs) (s : State) : Host.Outcome State Fault Refusal :=
  runEngine (· == .vx) (fun c => korBody c a) s

def execVxKxor (_ : Hdr) (a : VxArgs) (s : State) : Host.Outcome State Fault Refusal :=
  runEngine (· == .vx) (fun c => kxorBody c a) s

def execVxKnot (_ : Hdr) (a : VxArgs) (s : State) : Host.Outcome State Fault Refusal :=
  runEngine (· == .vx) (fun c => knotBody c a) s

def execVxKmov (_ : Hdr) (a : VxArgs) (s : State) : Host.Outcome State Fault Refusal :=
  runEngine (· == .vx) (fun c => kmovBody c a) s

def execVxKpop (h : Hdr) (a : VxArgs) (s : State) : Host.Outcome State Fault Refusal :=
  runEngine (· == .vx) (fun c => kpopBody c h a) s

def execVxPerm (h : Hdr) (a : VxArgs) (s : State) : Host.Outcome State Fault Refusal :=
  runEngine (· == .vx) (fun c => permBody c h a) s

def execVxBcast (h : Hdr) (a : VxArgs) (s : State) : Host.Outcome State Fault Refusal :=
  runEngine (· == .vx) (fun c => bcastBody c h a) s

def execVxSlideup (h : Hdr) (a : VxArgs) (s : State) : Host.Outcome State Fault Refusal :=
  runEngine (· == .vx) (fun c => slideupBody c h a) s

def execVxSlidedn (h : Hdr) (a : VxArgs) (s : State) : Host.Outcome State Fault Refusal :=
  runEngine (· == .vx) (fun c => slidednBody c h a) s

def execVxZip (h : Hdr) (a : VxArgs) (s : State) : Host.Outcome State Fault Refusal :=
  runEngine (· == .vx) (fun c => zipBody c h a) s

def execVxUnzip (h : Hdr) (a : VxArgs) (s : State) : Host.Outcome State Fault Refusal :=
  runEngine (· == .vx) (fun c => unzipBody c h a) s

def execVxProj (h : Hdr) (a : VxArgs) (s : State) : Host.Outcome State Fault Refusal :=
  runEngine (· == .vx) (fun c => projBody c h a) s

def execVxRsum (h : Hdr) (a : VxArgs) (s : State) : Host.Outcome State Fault Refusal :=
  runEngine (· == .vx) (fun c => rsumBody c h a) s

def execVxRand (h : Hdr) (a : VxArgs) (s : State) : Host.Outcome State Fault Refusal :=
  runEngine (· == .vx) (fun c => randBody c h a) s

def execVxRor (h : Hdr) (a : VxArgs) (s : State) : Host.Outcome State Fault Refusal :=
  runEngine (· == .vx) (fun c => rorBody c h a) s

def execVxRmax (h : Hdr) (a : VxArgs) (s : State) : Host.Outcome State Fault Refusal :=
  runEngine (· == .vx) (fun c => rmaxBody c h a) s

def execVxRmin (h : Hdr) (a : VxArgs) (s : State) : Host.Outcome State Fault Refusal :=
  runEngine (· == .vx) (fun c => rminBody c h a) s

def execVxRargmax (h : Hdr) (a : VxArgs) (s : State) : Host.Outcome State Fault Refusal :=
  runEngine (· == .vx) (fun c => rargmaxBody c h a) s

def execVxRargmin (h : Hdr) (a : VxArgs) (s : State) : Host.Outcome State Fault Refusal :=
  runEngine (· == .vx) (fun c => rargminBody c h a) s

def execVxFadd (h : Hdr) (a : VxArgs) (s : State) : Host.Outcome State Fault Refusal :=
  runEngine (· == .vx) (fun c => faddBody c h a) s

def execVxFsub (h : Hdr) (a : VxArgs) (s : State) : Host.Outcome State Fault Refusal :=
  runEngine (· == .vx) (fun c => fsubBody c h a) s

def execVxFmul (h : Hdr) (a : VxArgs) (s : State) : Host.Outcome State Fault Refusal :=
  runEngine (· == .vx) (fun c => fmulBody c h a) s

def execVxFfma (h : Hdr) (a : VxArgs) (s : State) : Host.Outcome State Fault Refusal :=
  runEngine (· == .vx) (fun c => ffmaBody c h a) s

def execVxFdiv (h : Hdr) (a : VxArgs) (s : State) : Host.Outcome State Fault Refusal :=
  runEngine (· == .vx) (fun c => fdivBody c h a) s

def execVxFsqrt (h : Hdr) (a : VxArgs) (s : State) : Host.Outcome State Fault Refusal :=
  runEngine (· == .vx) (fun c => fsqrtBody c h a) s

def execVxFrsq (h : Hdr) (a : VxArgs) (s : State) : Host.Outcome State Fault Refusal :=
  runEngine (· == .vx) (fun c => frsqBody c h a) s

def execVxFmin (h : Hdr) (a : VxArgs) (s : State) : Host.Outcome State Fault Refusal :=
  runEngine (· == .vx) (fun c => fminBody c h a) s

def execVxFmax (h : Hdr) (a : VxArgs) (s : State) : Host.Outcome State Fault Refusal :=
  runEngine (· == .vx) (fun c => fmaxBody c h a) s

def execVxFabs (h : Hdr) (a : VxArgs) (s : State) : Host.Outcome State Fault Refusal :=
  runEngine (· == .vx) (fun c => fabsBody c h a) s

def execVxFcmpEq (h : Hdr) (a : VxArgs) (s : State) : Host.Outcome State Fault Refusal :=
  runEngine (· == .vx) (fun c => fcmpEqBody c h a) s

def execVxFcmpLt (h : Hdr) (a : VxArgs) (s : State) : Host.Outcome State Fault Refusal :=
  runEngine (· == .vx) (fun c => fcmpLtBody c h a) s

def execVxFcmpLe (h : Hdr) (a : VxArgs) (s : State) : Host.Outcome State Fault Refusal :=
  runEngine (· == .vx) (fun c => fcmpLeBody c h a) s

def execVxFcmpUn (h : Hdr) (a : VxArgs) (s : State) : Host.Outcome State Fault Refusal :=
  runEngine (· == .vx) (fun c => fcmpUnBody c h a) s

def execVxFrsum (h : Hdr) (a : VxArgs) (s : State) : Host.Outcome State Fault Refusal :=
  runEngine (· == .vx) (fun c => frsumBody c h a) s

def execVxCvt (h : Hdr) (a : VxArgs) (s : State) : Host.Outcome State Fault Refusal :=
  runEngine (· == .vx) (fun c => cvtBody c h a) s

def execVxQzL8 (h : Hdr) (a : VxArgs) (s : State) : Host.Outcome State Fault Refusal :=
  runEngine (· == .vx) (fun c => qzL8Body c h a) s

def execVxDqL8 (h : Hdr) (a : VxArgs) (s : State) : Host.Outcome State Fault Refusal :=
  runEngine (· == .vx) (fun c => dqL8Body c h a) s

def execVxBps (h : Hdr) (a : VxArgs) (s : State) : Host.Outcome State Fault Refusal :=
  runEngine (· == .vx) (fun c => bpsBody c h a) s

def execVxBpm (h : Hdr) (a : VxArgs) (s : State) : Host.Outcome State Fault Refusal :=
  runEngine (· == .vx) (fun c => bpmBody c h a) s

def execVxScacc (h : Hdr) (a : VxArgs) (s : State) : Host.Outcome State Fault Refusal :=
  runEngine (· == .vx) (fun c => scaccBody c h a) s

/-! ### CT -/

def execCtMax (h : Hdr) (a : CtArgs) (s : State) : Host.Outcome State Fault Refusal :=
  runEngine (· == .ct) (fun c => ctMaxBody c h a) s

def execCtExpsum (h : Hdr) (a : CtArgs) (s : State) : Host.Outcome State Fault Refusal :=
  runEngine (· == .ct) (fun c => ctExpsumBody c h a) s

def execCtScale (h : Hdr) (a : CtArgs) (s : State) : Host.Outcome State Fault Refusal :=
  runEngine (· == .ct) (fun c => ctScaleBody c h a) s

def execCtSoftmax (h : Hdr) (a : CtArgs) (s : State) : Host.Outcome State Fault Refusal :=
  runEngine (· == .ct) (fun c => ctSoftmaxBody c h a) s

def execCtRmsnorm (h : Hdr) (a : CtArgs) (s : State) : Host.Outcome State Fault Refusal :=
  runEngine (· == .ct) (fun c => ctRmsnormBody c h a) s

def execCtLayernorm (h : Hdr) (a : CtArgs) (s : State) : Host.Outcome State Fault Refusal :=
  runEngine (· == .ct) (fun c => ctLayernormBody c h a) s

def execCtSumsq (h : Hdr) (a : CtArgs) (s : State) : Host.Outcome State Fault Refusal :=
  runEngine (· == .ct) (fun c => ctSumsqBody c h a) s

/-! ### TV -/

def execTvOpen (_ : Hdr) (a : TvArgs) (s : State) : Host.Outcome State Fault Refusal :=
  runEngine (· == .tv) (fun c => tvOpenBody c a) s

def execTvBlk (h : Hdr) (a : TvArgs) (s : State) : Host.Outcome State Fault Refusal :=
  runEngine (· == .tv) (fun c => tvBlkBody c h a) s

def execTvSeal (_ : Hdr) (a : TvArgs) (s : State) : Host.Outcome State Fault Refusal :=
  runEngine (· == .tv) (fun c => tvSealBody c a) s

def execTvCancel (_ : Hdr) (a : TvArgs) (s : State) : Host.Outcome State Fault Refusal :=
  runEngine (· == .tv) (fun c => tvCancelBody c a) s

def execTvCancelFin (_ : Hdr) (a : TvArgs) (s : State) : Host.Outcome State Fault Refusal :=
  runEngine (· == .tv) (fun c => tvCancelFinBody c a) s

def execTvStat (_ : Hdr) (a : TvArgs) (s : State) : Host.Outcome State Fault Refusal :=
  runEngine (· == .tv) (fun c => tvStatBody c a) s

def execTvAcq (_ : Hdr) (a : TvArgs) (s : State) : Host.Outcome State Fault Refusal :=
  runEngine (· == .tv) (fun c => tvAcqBody c a) s

def execTvDisc (_ : Hdr) (a : TvArgs) (s : State) : Host.Outcome State Fault Refusal :=
  runEngine (· == .tv) (fun c => tvDiscBody c a) s

def execTvFree (_ : Hdr) (a : TvArgs) (s : State) : Host.Outcome State Fault Refusal :=
  runEngine (· == .tv) (fun c => tvFreeBody c a) s

end Sys2Proof.Machine
end

