-- ==== Sys2Proof/Machine/Legal.lean ====
section
/-! DEFINITION. Which command words are commands: the checks that an engine makes when a command becomes its program
counter (R56, R67), command by command as the chapters of the engines list them. `Instr.legal` holds what the word
itself determines; `Cx.legalHere` what depends on registers, buffers and the core. -/
namespace Sys2Proof

/-! ### Q0 (R55, R56) -/

/-- No semaphore number without its enable, no reserved RND or OVF. -/
def Hdr.ok (h : Hdr) : Bool :=
  (h.wen || h.wsem == 0#5) && (h.ren || h.rsem == 0#5) && h.rnd != 3#2 && h.ovf != 3#2

/-- RND, OVF and SPEC all zero. -/
def Hdr.plain (h : Hdr) : Bool := h.ok && h.rnd == 0#2 && h.ovf == 0#2 && !h.spec

def CbArgs.legal (h : Hdr) (a : CbArgs) : Bool := h.plain && decide (1 ≤ a.m.toNat ∧ a.m.toNat ≤ 256)

/-! ### The copy engine -/

/-- The types of LD.CVT, ST.CVT and CVT (R153, R201). -/
def cvtTypes : List Nat := [0x00, 0x01, 0x02, 0x03, 0x04, 0x05, 0x06, 0x07, 0x08, 0x09, 0x0A, 0x0C]

/-- Row length against pitch and swizzle span (R150, R151, R255). -/
def rowsFit (multi : Bool) (span pitch len : Nat) : Bool :=
  (!multi || (pitch != 0 && decide (len ≤ pitch * 64))) &&
    (span == 0 || (len % (16 * 2 ^ span) == 0 && (!multi || pitch * 64 % (16 * 2 ^ span) == 0)))

/-- Shape fields that are never zero, and DCTR (R148, R150). -/
def LdArgs.shape (a : LdArgs) : Bool :=
  a.len0 != 0#16 && a.cnt1 != 0#12 && a.cnt2 != 0#12 && (a.dcen || a.dctr == 0#12) && a.q2z == 0#4

def LdArgs.multi (a : LdArgs) : Bool := decide (1 < a.cnt1.toNat * a.cnt2.toNat)

/-- RFT and RREG. -/
def LdArgs.refOk (a : LdArgs) : Bool := a.rft || a.rreg == 0#3

def LdArgs.noRef (a : LdArgs) : Bool := !a.rft && a.rreg == 0#3

/-- The second stride of a single plane is zero. -/
def LdArgs.plane (a : LdArgs) : Bool := a.cnt2 != 1#12 || bits a.q3.toNat 47 24 == 0

def LdArgs.untyped (a : LdArgs) : Bool := a.stype == 0#8 && a.dtype == 0

def ldTileLegal (h : Hdr) (a : LdArgs) : Bool :=
  h.plain && a.shape && a.refOk && a.plane && a.untyped && a.cs == 0#4 && rowsFit a.multi a.span.toNat a.dp1 a.len

def ldMoveLegal (h : Hdr) (a : LdArgs) : Bool :=
  h.plain && a.shape && a.noRef && a.res == 0#2 && a.plane && a.untyped && a.cs == 0#4 &&
    rowsFit a.multi a.span.toNat a.dp1 a.len

def ldFillLegal (h : Hdr) (a : LdArgs) : Bool := ldMoveLegal h a && bits a.q3.toNat 47 0 == 0

def ldGatherLegal (h : Hdr) (a : LdArgs) : Bool :=
  h.plain && a.shape && a.refOk && a.cnt2 == 1#12 && a.stype == 0#8 && a.cs == 0#4 &&
    rowsFit a.multi a.span.toNat a.dp1g a.len

def ldMcastLegal (h : Hdr) (a : LdArgs) : Bool :=
  h.plain && a.shape && a.refOk && a.cnt2 == 1#12 && decide (a.stype.toNat < 32) && a.dst != 0#32 && a.cs == 0#4 &&
    rowsFit a.multi a.span.toNat a.dp1g a.len

def ldCvtLegal (h : Hdr) (a : LdArgs) : Bool :=
  let st := Machine.tyOf a.stype.toNat
  let dt := Machine.tyOf a.dtype
  h.ok && !h.spec && a.shape && a.refOk && a.plane && cvtTypes.contains a.stype.toNat && cvtTypes.contains a.dtype &&
    (a.cs == 0#4 || (h.ovf == 2#2 && a.cs.getLsbD 0 == false)) &&
    ((st.width != 4 && dt.width != 4) || a.len % 2 == 0) && rowsFit a.multi a.span.toNat a.dp1 (dt.bytes a.len)

def ldPrefLegal (h : Hdr) (a : LdArgs) : Bool :=
  h.plain && a.shape && a.noRef && a.plane && a.untyped && a.cs == 0#4 && a.res != 2#2 && a.res != 3#2 &&
    a.dst == 0#32 && a.dp1 == 0 && a.span == 0#3 && !a.tr

def LdArgs.oneRow (a : LdArgs) : Bool := a.shape && a.refOk && a.cnt1 == 1#12 && a.cnt2 == 1#12 && a.q3 == 0#64

def ldBpnLegal (h : Hdr) (a : LdArgs) : Bool :=
  h.plain && a.oneRow && decide (0x12 ≤ a.stype.toNat ∧ a.stype.toNat ≤ 0x18) && decide (a.cs.toNat < 4) && a.cs != 2#4

def ldBmvLegal (h : Hdr) (a : LdArgs) : Bool :=
  h.plain && a.oneRow && (a.stype == 0x21#8 || a.stype == 0x22#8) && decide (a.cs.toNat < 2)

/-- Shape fields of ST commands, and its bits that are always zero (R252, R253, R255). -/
def StArgs.shape (a : StArgs) : Bool :=
  a.len0 != 0#16 && a.cnt1 != 0#12 && a.cnt2 != 0#12 && (a.dcen || a.dctr == 0#12) && a.q2z == 0#4 && a.z52 == 0#4 &&
    a.z1110 == 0#2

def StArgs.multi (a : StArgs) : Bool := decide (1 < a.cnt1.toNat * a.cnt2.toNat)

def StArgs.plane (a : StArgs) : Bool := a.cnt2 != 1#12 || bits a.q3.toNat 47 24 == 0

def stTileLegal (h : Hdr) (a : StArgs) : Bool :=
  h.plain && a.shape && a.plane && a.gz == 0#3 && a.stype == 0#8 && a.dtype == 0 &&
    rowsFit a.multi a.span.toNat a.sp1 a.len

def stScatLegal (h : Hdr) (a : StArgs) : Bool :=
  h.plain && a.shape && a.cnt2 == 1#12 && a.gz == 0#3 && a.stype == 0#8 && rowsFit a.multi a.span.toNat a.sp1s a.len

def stCvtLegal (h : Hdr) (a : StArgs) : Bool :=
  let st := Machine.tyOf a.stype.toNat
  let dt := Machine.tyOf a.dtype
  h.ok && !h.spec && a.shape && a.plane && cvtTypes.contains a.stype.toNat && cvtTypes.contains a.dtype &&
    (a.gz == 0#3 || h.ovf == 2#2) && ((st.width != 4 && dt.width != 4) || a.len % 2 == 0) &&
    rowsFit a.multi a.span.toNat a.sp1 (st.bytes a.len)

def stBmvLegal (h : Hdr) (a : StArgs) : Bool :=
  h.plain && a.shape && a.gz == 0#3 && a.span == 0#3 && a.cnt1 == 1#12 && a.cnt2 == 1#12 &&
    ((a.stype == 0x0A#8 && a.dtype == 0x21) || (a.stype == 0x08#8 && a.dtype == 0x22)) &&
    bits a.q3.toNat 55 24 == 0 && a.rsvb != 0

def stWbLegal (h : Hdr) (a : StArgs) : Bool :=
  h.plain && a.shape && a.plane && a.res == 0#2 && a.gz == 0#3 && a.span == 0#3 && a.src == 0#32 && a.stype == 0#8 &&
    bits a.q3.toNat 63 48 == 0

/-! ### The vector engine (R169, R170, and the chapters' commands) -/

def tI : List Nat := [0x00, 0x03, 0x06, 0x07]
def tUint : List Nat := [0x01, 0x04]
def tSi : List Nat := [0x02, 0x05]
def tInt : List Nat := tI ++ tUint ++ tSi
def tFloat : List Nat := [0x08, 0x09, 0x0A, 0x0C]
/-- Any type that stands in a register (R167). -/
def tReg : List Nat := tInt ++ tFloat ++ [0x20]

/-- How an operand field may be filled: unused and zero, a register alone, with SEL and SWZ, with NEG where its type allows
(R59), or with NEG and no SEL nor SWZ. -/
inductive OpUse where
  | none | reg | pick | full | neg
  deriving DecidableEq, Repr

def VOp.fits (o : VOp) (u : OpUse) (t : ETy) : Bool :=
  let still := o.sel == 0#2 && o.swz == 0#3
  match u with
  | .none => o.reg == 0#6 && still && !o.neg
  | .reg => still && !o.neg
  | .pick => !o.neg
  | .full => !o.neg || t.negOk
  | .neg => still && (!o.neg || t.negOk)

/-- The fields a VX command uses; every other field of MOD and of Q1 to Q3 must be zero (R56, R170). `xm` masks the bits of
XM that it defines. -/
structure VUse where
  vd : Bool := false
  va : OpUse := .none
  vb : OpUse := .none
  vc : OpUse := .none
  kd : Bool := false
  ka : Bool := false
  kb : Bool := false
  imm : Bool := false
  two : Bool := false
  xm : BitVec 7 := 0
  deriving DecidableEq, Repr

/-- The fields of a command with its types, VB read as type `tb` and VC as type `tc`. -/
def VxArgs.uses (a : VxArgs) (u : VUse) (ta tb tc : ETy) : Bool :=
  (u.vd || a.vd == 0#6) && a.z76 == 0#2 && a.va.fits u.va ta && a.vb.fits u.vb tb && a.vc.fits u.vc tc &&
    (u.kd || a.kd == 0#4) && (u.ka || a.ka == 0#4) && (u.kb || a.kb == 0#4) && (u.imm || a.imm == 0#32) &&
    (u.two || a.etype2 == 0#8) && a.q2z == 0#24 && a.q3 == 0#64 && (a.xm &&& ~~~u.xm) == 0#7

/-- A command of one type. -/
def VxArgs.takes (a : VxArgs) (types : List Nat) (u : VUse) : Bool :=
  types.contains a.etype.toNat && a.uses u a.t a.t a.t

/-- Q0 of a VX command: whether it rounds under RND, and the OVF codes it takes; GZ only under GAZ (R169). -/
def VxArgs.head (a : VxArgs) (h : Hdr) (rnds : Bool) (ovfs : List Nat) : Bool :=
  h.ok && (rnds || h.rnd == 0#2) && ovfs.contains h.ovf.toNat && (a.gz == 0#3 || h.ovf == 2#2)

/-- Q0 of a data mover: OVF is legal where NEG may change a value (R174). -/
def VxArgs.mover (a : VxArgs) (h : Hdr) : Bool :=
  a.head h false (if (a.va.neg || a.vb.neg) && (a.t.isInt || a.t.isFloat) then [0, 1, 2] else [0])

def vxUn : VUse := { vd := true, va := .full }
def vxBin : VUse := { vd := true, va := .full, vb := .full }
def vxTri : VUse := { vd := true, va := .full, vb := .full, vc := .full }

def vxVldLegal (h : Hdr) (a : VxArgs) : Bool :=
  a.head h false [0] && a.takes [0] { vd := true, imm := true, xm := 0x7#7 } && decide (a.vd.toNat + a.x10 ≤ 63)

def vxVstLegal (h : Hdr) (a : VxArgs) : Bool :=
  a.head h false [0] && a.takes [0] { va := .reg, imm := true, xm := 0x7#7 } && decide (a.va.num + a.x10 ≤ 63)

def vxVldkLegal (h : Hdr) (a : VxArgs) : Bool :=
  h.plain && a.head h false [0] && a.msk == 0#4 && a.kd != 0#4 && a.takes [0] { kd := true, imm := true }

def vxVstkLegal (h : Hdr) (a : VxArgs) : Bool :=
  h.plain && a.head h false [0] && a.msk == 0#4 && a.takes [0] { ka := true, imm := true }

def vxMovLegal (h : Hdr) (a : VxArgs) : Bool := a.mover h && a.takes tReg vxUn

def vxMoviLegal (h : Hdr) (a : VxArgs) : Bool := a.head h false [0] && a.takes tReg { vd := true, imm := true }

def vxIotaLegal (h : Hdr) (a : VxArgs) : Bool := a.head h false [0] && a.takes (tI ++ tUint) { vd := true, imm := true }

def vxPjLdLegal (h : Hdr) (a : VxArgs) : Bool :=
  h.plain && a.head h false [0] && a.msk == 0#4 && !a.mz && a.takes [0] { imm := true, xm := 0x7#7 }

/-- ADD and SUB, modular. -/
def vxModLegal (h : Hdr) (a : VxArgs) : Bool := a.head h false [0] && a.takes (tI ++ tUint) vxBin

/-- ADDS and SUBS, range-checked. -/
def vxSatLegal (h : Hdr) (a : VxArgs) : Bool := a.head h false [0, 1, 2] && a.takes tInt vxBin

/-- MUL, with XM[8] its wide form (R179). -/
def vxMulLegal (h : Hdr) (a : VxArgs) : Bool :=
  a.head h false [0] &&
    if a.x8 then a.takes [0x00, 0x01, 0x02, 0x03, 0x05, 0x06] { vxBin with xm := 0x1#7 } && a.vd.getLsbD 0 == false
    else a.takes (tI ++ tUint) vxBin

def vxMinMaxLegal (h : Hdr) (a : VxArgs) : Bool := a.head h false [0] && a.takes tInt vxBin

def vxAbsLegal (h : Hdr) (a : VxArgs) : Bool := a.head h false [0, 1, 2] && a.takes (tI ++ tSi) vxUn

def vxMaddLegal (h : Hdr) (a : VxArgs) : Bool := a.head h false [0, 1, 2] && a.takes tInt vxTri

/-- DOT and DOTS (R180). -/
def vxDotLegal (ovfs : List Nat) (h : Hdr) (a : VxArgs) : Bool :=
  let ok := fun (c : Nat) => decide (c ≤ 6)
  a.head h false ovfs && ok a.etype.toNat && ok a.etype2.toNat && a.t.width == a.t2.width &&
    a.uses { vd := true, va := .full, vb := .full, vc := .neg, two := true } a.t a.t2 .i32

/-- AND, OR, XOR and ANDN (R181). -/
def vxLogicLegal (h : Hdr) (a : VxArgs) : Bool :=
  a.head h false [0] && a.takes tReg { vd := true, va := .pick, vb := .pick }

/-- Shifts of the given types (R182). -/
def vxShiftLegal (types : List Nat) (h : Hdr) (a : VxArgs) : Bool :=
  a.head h false [0] &&
    if a.x8 then a.takes types { vd := true, va := .pick, imm := true, xm := 0x1#7 } && decide (a.imm.toNat < a.t.width)
    else a.takes types { vd := true, va := .pick, vb := .pick }

/-- POPC and CLZ. -/
def vxCountLegal (h : Hdr) (a : VxArgs) : Bool := a.head h false [0] && a.takes (tI ++ tUint) vxUn

/-- The three forms of a compare (R184, R199). -/
def vxCmpLegal (types : List Nat) (h : Hdr) (a : VxArgs) : Bool :=
  a.head h false [0] && a.takes types { vd := a.x8, va := .full, vb := .full, kd := true, xm := 0x3#7 } &&
    (a.kd != 0#4 || a.x8) && (!h.spec || a.kd == 0#4)

def vxSelLegal (h : Hdr) (a : VxArgs) : Bool := a.mover h && a.takes tReg vxTri

def vxCselLegal (h : Hdr) (a : VxArgs) : Bool := a.mover h && a.takes tReg { vxBin with ka := true }

/-- KAND, KOR and KXOR (R186). -/
def vxMask2Legal (h : Hdr) (a : VxArgs) : Bool :=
  h.plain && a.head h false [0] && a.msk == 0#4 && a.kd != 0#4 && a.takes [0] { kd := true, ka := true, kb := true }

def vxKnotLegal (h : Hdr) (a : VxArgs) : Bool :=
  h.plain && a.head h false [0] && a.msk == 0#4 && a.kd != 0#4 && a.takes [0] { kd := true, ka := true }

def vxKmovLegal (h : Hdr) (a : VxArgs) : Bool :=
  h.plain && a.head h false [0] && a.msk == 0#4 && a.kd != 0#4 &&
    if a.x8 then a.takes [0] { kd := true, imm := true, xm := 0x1#7 } && decide (a.imm.toNat ≤ 128)
    else a.takes [0] { kd := true, ka := true }

def vxKpopLegal (h : Hdr) (a : VxArgs) : Bool :=
  h.plain && a.head h false [0] && a.msk == 0#4 && a.takes [0x07] { vd := true, ka := true }

def vxPermLegal (h : Hdr) (a : VxArgs) : Bool :=
  a.mover h && a.takes [0x06, 0x07, 0x0A, 0x0C, 0x20] { vd := true, va := .full, vb := .reg }

def vxBcastLegal (h : Hdr) (a : VxArgs) : Bool :=
  a.mover h && a.takes tReg { vxUn with imm := true } && decide (a.imm.toNat < 128 * a.t.perLane)

/-- SLIDEUP and SLIDEDN. -/
def vxSlideLegal (h : Hdr) (a : VxArgs) : Bool :=
  a.mover h && a.takes tReg { vxUn with imm := true } && decide (a.imm.toNat ≤ 1024)

/-- ZIP and UNZIP. -/
def vxZipLegal (h : Hdr) (a : VxArgs) : Bool := a.mover h && a.takes tReg vxBin && decide (a.vd.toNat ≤ 62)

def vxProjLegal (h : Hdr) (a : VxArgs) : Bool :=
  a.head h false [0] && a.takes [0] { vd := true, va := .reg, xm := 0x7#7 } && a.vd.getLsbD 0 == false &&
    a.va.reg.getLsbD 0 == false

def vxRsumLegal (h : Hdr) (a : VxArgs) : Bool := a.head h false [0] && a.takes tInt vxUn

/-- RAND and ROR. -/
def vxRlogicLegal (h : Hdr) (a : VxArgs) : Bool :=
  a.head h false [0] && a.takes (tI ++ tUint) { vd := true, va := .reg }

/-- RMAX, RMIN, RARGMAX and RARGMIN. -/
def vxRextLegal (h : Hdr) (a : VxArgs) : Bool := a.head h false [0] && a.takes (tInt ++ tFloat) vxUn

/-- The rounding arithmetic of R196. -/
def vxFarithLegal (types : List Nat) (u : VUse) (h : Hdr) (a : VxArgs) : Bool :=
  a.head h true [0, 1, 2] && a.takes types u

/-- FMIN, FMAX and FABS. -/
def vxFpickLegal (u : VUse) (h : Hdr) (a : VxArgs) : Bool := a.head h false [0] && a.takes tFloat u

def vxFrsumLegal (h : Hdr) (a : VxArgs) : Bool := a.head h true [0] && a.takes tFloat vxUn

/-- CVT (R201, R202). -/
def vxCvtLegal (h : Hdr) (a : VxArgs) : Bool :=
  let st := Machine.tyOf a.imm.toNat
  let k := max st.perLane a.t.perLane / min st.perLane a.t.perLane
  a.head h true [0, 1, 2] && cvtTypes.contains a.etype.toNat && cvtTypes.contains a.imm.toNat && decide (k ≤ 4) &&
    a.uses { vd := true, va := if k = 1 then .full else .neg, imm := true } st st st &&
    (if a.t.perLane < st.perLane then a.vd.toNat % k == 0 else a.va.num % k == 0)

/-- QZ.L8 (R204). -/
def vxQzLegal (h : Hdr) (a : VxArgs) : Bool :=
  a.head h false [0, 2] && !a.mz && a.etype == 0x20#8 &&
    a.uses { vd := true, va := .neg, imm := true, xm := 0x1F#7 } .fp32 .fp32 .fp32 &&
    decide (1 ≤ a.imm.toNat ∧ a.imm.toNat ≤ 128)

/-- DQ.L8 (R204). -/
def vxDqLegal (h : Hdr) (a : VxArgs) : Bool :=
  a.head h false [0] && a.takes [0x0C] { vd := true, va := .reg, imm := true, xm := 0xF#7 } &&
    decide (1 ≤ a.imm.toNat ∧ a.imm.toNat ≤ 128)

def vxBpsLegal (h : Hdr) (a : VxArgs) : Bool :=
  a.head h false [0] && a.msk == 0#4 && !a.mz && a.takes [0x03] { vd := true, va := .reg }

def vxBpmLegal (h : Hdr) (a : VxArgs) : Bool :=
  a.head h false [0] && a.msk == 0#4 && !a.mz && a.takes [0x03] { vd := true, va := .reg, xm := 0xF#7 } && a.x10 != 0

def vxScaccLegal (h : Hdr) (a : VxArgs) : Bool :=
  a.head h true [0, 1, 2] && (a.etype == 0x07#8 || a.etype == 0x0C#8) &&
    a.uses { vxBin with xm := 0x7#7 } a.t .fp32 .fp32

/-! ### The matrix engine (R230, R231, R234 to R236) -/

/-- A product command; `ctys` are the chain types its form takes. -/
def mxProdLegal (ctys : List Nat) (h : Hdr) (a : MxArgs) : Bool :=
  h.ok && !h.spec && h.ovf != 2#2 && bits a.md.toNat 14 11 == 0 && bits a.q1.toNat 63 32 == 0 && a.q2 == 0#64 &&
    a.q3 == 0#64 &&
    if a.che then ctys.contains a.cty && a.asrc != a.acc else h.ovf == 0#2 && a.asrc == 0 && a.cty == 0

def accZeroLegal (h : Hdr) (a : MxArgs) : Bool :=
  h.plain && (a.md &&& ~~~0x803#15) == 0#15 && a.q1 == 0#64 && a.q2 == 0#64 && a.q3 == 0#64

/-- The region of ACC.LD and ACC.ST: its layout word holds one of the types, and its rows fit their pitch. -/
def MxArgs.region (a : MxArgs) (types : List Nat) : Bool :=
  decide (1 ≤ a.nr ∧ 1 ≤ a.nc) && bits a.q2.toNat 63 37 == 0 && a.q3 == 0#64 &&
    Machine.layOk a.lay (if Machine.layTr a.lay then a.nr else a.nc) types.contains

def accLdLegal (h : Hdr) (a : MxArgs) : Bool :=
  h.plain && (a.md &&& ~~~0x7#15) == 0#15 && a.gz == 0 && a.region [0x0C, 0x0A, 0x07, 0x06, 0x03]

def accStLegal (h : Hdr) (a : MxArgs) : Bool :=
  h.ok && !h.spec && (a.md &&& ~~~0x3#15) == 0#15 && (a.gz == 0 || h.ovf == 2#2) &&
    a.region [0x0C, 0x0A, 0x08, 0x09, 0x07, 0x06, 0x03, 0x05, 0x00, 0x02] &&
    (tFloat.contains (Machine.layTy a.lay) || (h.rnd == 0#2 && h.ovf == 0#2))

def accScaleLegal (h : Hdr) (a : MxArgs) : Bool :=
  h.ok && !h.spec && h.ovf != 2#2 && (a.md &&& ~~~0x7833#15) == 0#15 && bits a.q1.toNat 63 32 == 0 && a.q2 == 0#64 &&
    a.q3 == 0#64

/-! ### Contour (R241, R248) -/

/-- A Contour command: its destination types, whether it writes rows, whether AUX is read, whether the causal mask and the
pre-scale are taken, and whether the final write rounds. -/
def ctLegal (dts : List Nat) (rows aux masked rounds : Bool) (h : Hdr) (a : CtArgs) : Bool :=
  h.ok && !h.spec && h.ovf != 2#2 && (rounds || (h.rnd == 0#2 && h.ovf == 0#2)) && a.modz == 0#13 && a.q2z == 0#4 &&
    a.len != 0#16 && a.rows != 0#12 && (a.stype == 0x0A#8 || a.stype == 0x0C#8) && dts.contains a.dtype.toNat &&
    (masked || (!a.causal && !a.pre)) && (a.causal || a.row0 == 0#16) && (aux || a.aux == 0#32) &&
    decide (a.len.toNat * (a.st.width / 8) ≤ a.spitch.toNat * 64) &&
    if rows then decide (a.len.toNat * (a.dt.width / 8) ≤ a.dpitch.toNat * 64) else a.dst == 0#32 && a.dpitch == 0#16

/-! ### Traverse (R275, R276) -/

/-- What every TV command obeys. -/
def TvArgs.base (h : Hdr) (a : TvArgs) : Bool :=
  h.ok && !h.spec && h.rnd == 0#2 && a.modz == 0#13 && a.q1z == 0#13 && a.q1zz == 0#3 && a.q2z == 0#9 && a.q3 == 0#64

/-- A TV command that names no block and no memory beside its status word. -/
def tvPlainLegal (fin : Bool) (h : Hdr) (a : TvArgs) : Bool :=
  a.base h && h.ovf == 0#2 && a.fin == fin && a.idx == 0#13 && a.src == 0#32 && a.spitch == 0#16 && a.ntok == 0#7

def tvSealLegal (h : Hdr) (a : TvArgs) : Bool :=
  a.base h && h.ovf == 0#2 && !a.fin && decide (1 ≤ a.idx.toNat ∧ a.idx.toNat ≤ 4096) && a.src == 0#32 &&
    a.spitch == 0#16 && a.ntok == 0#7

def tvStatLegal (h : Hdr) (a : TvArgs) : Bool :=
  a.base h && h.ovf == 0#2 && !a.fin && a.idx == 0#13 && a.spitch == 0#16 && a.ntok == 0#7

def tvBlkLegal (h : Hdr) (a : TvArgs) : Bool :=
  a.base h && !a.fin && decide (a.idx.toNat ≤ 4095) && a.spitch.getLsbD 0 == false && a.ntok != 0#7

/-! ### Every command -/

/-- Destination types of the Contour commands that write result rows. -/
def ctRowTypes : List Nat := [0x0A, 0x0C, 0x08, 0x09]

/-- Is a command word legal as far as the word itself determines? Every other step is. -/
def Instr.legal : Instr → Bool
  | .nop _ h => h.plain
  | .cbRelCommand _ h a | .cbClaimCommand _ h a | .cbPushCommand _ h a | .cbTakeCommand _ h a => a.legal h
  | .ldTile h a => ldTileLegal h a
  | .ldGather h a => ldGatherLegal h a
  | .ldMcast h a => ldMcastLegal h a
  | .ldBmv h a => ldBmvLegal h a
  | .ldBpn h a => ldBpnLegal h a
  | .ldCvt h a => ldCvtLegal h a
  | .ldPref h a => ldPrefLegal h a
  | .ldMove h a => ldMoveLegal h a
  | .ldFill h a => ldFillLegal h a
  | .stTile h a | .stDtile h a => stTileLegal h a
  | .stScat h a | .stDscat h a => stScatLegal h a
  | .stBmv h a => stBmvLegal h a
  | .stCvt h a => stCvtLegal h a
  | .stWb h a | .stFlush h a => stWbLegal h a
  | .mmaBf16 h a | .mvBf16 h a => mxProdLegal [0] h a
  | .mmaFp8 h a | .mvFp8 h a => mxProdLegal [1, 2] h a
  | .mmaI8 h a | .mvI8 h a | .mmaQ4 h a | .mvQ4 h a => mxProdLegal [] h a
  | .accZero h a => accZeroLegal h a
  | .accLd h a => accLdLegal h a
  | .accSt h a => accStLegal h a
  | .accScale h a => accScaleLegal h a
  | .vxVld h a => vxVldLegal h a
  | .vxVst h a => vxVstLegal h a
  | .vxVldk h a => vxVldkLegal h a
  | .vxVstk h a => vxVstkLegal h a
  | .vxMov h a => vxMovLegal h a
  | .vxMovi h a => vxMoviLegal h a
  | .vxIota h a => vxIotaLegal h a
  | .vxPjLd h a => vxPjLdLegal h a
  | .vxAdd h a | .vxSub h a | .vxMulh h a => vxModLegal h a
  | .vxAdds h a | .vxSubs h a => vxSatLegal h a
  | .vxMul h a => vxMulLegal h a
  | .vxMin h a | .vxMax h a => vxMinMaxLegal h a
  | .vxAbs h a => vxAbsLegal h a
  | .vxMadd h a => vxMaddLegal h a
  | .vxDot h a => vxDotLegal [0] h a
  | .vxDots h a => vxDotLegal [0, 1, 2] h a
  | .vxAnd h a | .vxOr h a | .vxXor h a | .vxAndn h a => vxLogicLegal h a
  | .vxSll h a | .vxSrl h a | .vxRol h a => vxShiftLegal (tI ++ tUint) h a
  | .vxSra h a => vxShiftLegal tI h a
  | .vxPopc h a | .vxClz h a => vxCountLegal h a
  | .vxCmpEq h a | .vxCmpNe h a => vxCmpLegal tInt h a
  | .vxCmpLt h a | .vxCmpLe h a => vxCmpLegal (tI ++ tSi) h a
  | .vxCmpLtu h a | .vxCmpLeu h a => vxCmpLegal (tI ++ tUint) h a
  | .vxSel h a => vxSelLegal h a
  | .vxCsel h a => vxCselLegal h a
  | .vxKand h a | .vxKor h a | .vxKxor h a => vxMask2Legal h a
  | .vxKnot h a => vxKnotLegal h a
  | .vxKmov h a => vxKmovLegal h a
  | .vxKpop h a => vxKpopLegal h a
  | .vxPerm h a => vxPermLegal h a
  | .vxBcast h a => vxBcastLegal h a
  | .vxSlideup h a | .vxSlidedn h a => vxSlideLegal h a
  | .vxZip h a | .vxUnzip h a => vxZipLegal h a
  | .vxProj h a => vxProjLegal h a
  | .vxRsum h a => vxRsumLegal h a
  | .vxRand h a | .vxRor h a => vxRlogicLegal h a
  | .vxRmax h a | .vxRmin h a | .vxRargmax h a | .vxRargmin h a => vxRextLegal h a
  | .vxFadd h a | .vxFsub h a | .vxFmul h a => vxFarithLegal tFloat vxBin h a
  | .vxFfma h a => vxFarithLegal tFloat vxTri h a
  | .vxFdiv h a => vxFarithLegal [0x0A, 0x0C] vxBin h a
  | .vxFsqrt h a | .vxFrsq h a => vxFarithLegal [0x0A, 0x0C] vxUn h a
  | .vxFmin h a | .vxFmax h a => vxFpickLegal vxBin h a
  | .vxFabs h a => vxFpickLegal vxUn h a
  | .vxFcmpEq h a | .vxFcmpLt h a | .vxFcmpLe h a | .vxFcmpUn h a => vxCmpLegal tFloat h a
  | .vxFrsum h a => vxFrsumLegal h a
  | .vxCvt h a => vxCvtLegal h a
  | .vxQzL8 h a => vxQzLegal h a
  | .vxDqL8 h a => vxDqLegal h a
  | .vxBps h a => vxBpsLegal h a
  | .vxBpm h a => vxBpmLegal h a
  | .vxScacc h a => vxScaccLegal h a
  | .ctMax h a => ctLegal [0] false true true false h a
  | .ctExpsum h a => ctLegal [0x0A] true true true false h a
  | .ctScale h a => ctLegal ctRowTypes true true false true h a
  | .ctSoftmax h a => ctLegal ctRowTypes true a.pre true true h a
  | .ctRmsnorm h a => ctLegal ctRowTypes true true false true h a
  | .ctLayernorm h a => ctLegal ctRowTypes true true false true h a
  | .ctSumsq h a => ctLegal [0] false true false false h a
  | .tvOpen h a | .tvCancel h a | .tvAcq h a | .tvDisc h a | .tvFree h a => tvPlainLegal false h a
  | .tvCancelFin h a => tvPlainLegal true h a
  | .tvBlk h a => tvBlkLegal h a
  | .tvSeal h a => tvSealLegal h a
  | .tvStat h a => tvStatLegal h a
  | _ => true

end Sys2Proof

namespace Sys2Proof.Machine

/-! ### What registers, buffers and the core determine (R67, order 7) -/

/-- A buffer command's buffer (R145): configured, aligned to its slots, within the scratchpad, and of at least `m` slots. -/
def bufOk (n m : Nat) (b : Cb) : Bool :=
  let slot := 64 * 2 ^ b.sizeCode
  b.configured && b.base % slot == 0 && decide (b.base + b.count * slot ≤ spSize n) && decide (m ≤ b.count)

def Cx.cbOk (c : Cx) (s : State) (a : CbArgs) : Bool := bufOk c.n a.m.toNat ((s.core c.n).cb a.cb.toNat)

/-- Is an address operand a multiple of `k`? -/
def Cx.aligned (c : Cx) (k : Nat) (w : Aop) : Bool := c.addr w % k == 0

/-- Do the accumulators a command names exist (R215)? -/
def Cx.accOk (c : Cx) (i : Nat) : Bool := decide (i < accCount c.n)

/-- Does the region of ACC.LD and ACC.ST lie in the accumulator? -/
def Cx.regionOk (c : Cx) (a : MxArgs) : Bool :=
  c.accOk a.acc && decide (a.row0 + a.nr ≤ accDim c.n ∧ a.col0 + a.nc ≤ accDim c.n)

/-- Does the profile of the core hold the command (R19, R63)? -/
def inProfile (n : Nat) : Instr → Bool
  | .mmaBf16 _ _ | .mmaFp8 _ _ | .mmaI8 _ _ | .mmaQ4 _ _ => isP n
  | .mvBf16 _ _ | .mvFp8 _ _ | .mvI8 _ _ | .mvQ4 _ _ => !isP n
  | _ => true

/-- The limits that depend on the registers of the slot's origin record, on buffers and on the core. -/
def Cx.legalHere (c : Cx) (s : State) : Instr → Bool
  | .cbRelCommand _ _ a | .cbClaimCommand _ _ a | .cbPushCommand _ _ a | .cbTakeCommand _ _ a => c.cbOk s a
  | .ldMcast _ a => !isP c.n || decide (a.dst.toNat < 256)
  | .mmaBf16 _ a | .mmaFp8 _ a | .mmaI8 _ a | .mmaQ4 _ a | .mvBf16 _ a | .mvFp8 _ a | .mvI8 _ a | .mvQ4 _ a =>
    c.accOk a.acc && c.accOk a.asrc
  | .accZero _ a => c.accOk a.acc
  | .accLd _ a | .accSt _ a => c.regionOk a
  | .accScale _ a => c.accOk a.acc && c.accOk a.asrc && c.aligned 64 a.addr
  | .vxVld _ a | .vxVst _ a | .vxPjLd _ a => c.aligned 64 a.imm
  | .vxVldk _ a | .vxVstk _ a => c.aligned 16 a.imm
  | .ctMax _ a | .ctExpsum _ a | .ctScale _ a | .ctRmsnorm _ a | .ctLayernorm _ a | .ctSumsq _ a => c.aligned 64 a.aux
  | .ctSoftmax _ a => !a.pre || c.aligned 64 a.aux
  | .tvOpen _ a | .tvBlk _ a | .tvSeal _ a | .tvCancel _ a | .tvCancelFin _ a | .tvAcq _ a | .tvDisc _ a | .tvFree _ a =>
    c.aligned 8 a.stw
  | .tvStat _ a => c.aligned 8 a.stw && c.aligned 64 a.src
  | _ => true

/-- Is the command a direct store (R62)? -/
def isDirect : Instr → Bool
  | .stDtile _ _ | .stDscat _ _ => true
  | _ => false

/-- The first defect of a command word, in the order of R67, as a cause of R353; 0 for a command. `i` is what the word reads
as, none where its ENG or OPC is reserved, it is not of the ring's engine, or a common command carries a bit it does not
define. -/
def Cx.defect (c : Cx) (s : State) (i : Option Instr) : Nat :=
  match i with
  | none => 1
  | some i =>
    if inProfile c.n i = false then 2
    else if i.legal = false ∨ c.legalHere s i = false ∨ (c.f.bound = 0 ∧ c.owner = false) then 1
    else if isDirect i ∧ (s.core c.n).stages then 20
    else 0

end Sys2Proof.Machine
end

