-- ==== Sys2Proof/Machine/Context.lean ====
section
/-! DEFINITION. Context areas (R305 to R307) and the other supervisor operations of custom-2 (R291, R308, R309, R143). -/
namespace Sys2Proof.Machine

/-! ### The layout of an area (R306) -/

/-- The CSRs of the 0x800 range in ascending number (R310). -/
def csrs800 : List Nat := [0x800, 0x801] ++ span 0x810 32 ++ [0x830] ++ span 0x840 32 ++ span 0x860 8

/-- Bytes followed by zeros, `len` in all. -/
def padTo (len : Nat) (l : List Byte) : List Byte := l ++ List.replicate (len - l.length) 0

/-- Bytes of the accumulator section. -/
def accBytes (n : Nat) : Nat := 8 * accCount n * accDim n * accDim n

def orgOff (n : Nat) : Nat := 0x10000 + accBytes n

def align64 (x : Nat) : Nat := (x + 63) / 64 * 64

/-- Slots of a ring that have an origin record: from retire to write − 1. -/
def Ring.slots (r : Ring) : List W32 := (List.range (r.write - r.retire).toNat).map fun i => r.retire + BitVec.ofNat 32 i

/-- The live regions (R310): scratchpad offset and length in lines. -/
def liveRegions (live : List Nat) : List (Nat × Nat) := live.map fun v => (bits v 22 6 * 64, bits v 48 32)

/-- The scratchpad lines of the live regions, in order, and the 2 KiB blocks they touch, in address order. -/
def liveLines (rs : List (Nat × Nat)) : List Nat := rs.flatMap fun r => (List.range r.2).map fun i => r.1 + 64 * i

def liveBlocks (rs : List (Nat × Nat)) : List Nat :=
  (List.range 5121).filter fun b => rs.any fun r => r.2 != 0 && decide (r.1 < 2048 * b + 2048 ∧ 2048 * b < r.1 + 64 * r.2)

/-- Offset of the scratchpad section and length of the area, by origin records and live regions. -/
def areaSizes (n orgs : Nat) (rs : List (Nat × Nat)) : Nat × Nat :=
  let sp := align64 (orgOff n + 72 * orgs)
  (sp, sp + 64 * (liveLines rs).length + (liveBlocks rs).length)

def Hart.live (h : Hart) : List Nat := (span 0x860 8).map fun k => (h.csrRaw k).toNat

def Cb.area (b : Cb) : List Byte :=
  leBytes 4 b.base ++ leBytes 1 b.sizeCode ++ leBytes 1 (b.count - 1) ++ leBytes 1 (b2n b.configured) ++ leBytes 1 0 ++
  leBytes 2 b.free ++ leBytes 2 b.filled ++ leBytes 2 b.held ++ leBytes 2 b.inflight ++ leBytes 1 b.prod ++
  leBytes 1 b.cons ++ leBytes 2 b.ccClm ++ (List.range 6).flatMap fun e => leBytes 2 (Table.get 0 b.clm e)

def Cb.ofArea (l : List Byte) : Cb :=
  { configured := fieldOf l 6 1 != 0, base := fieldOf l 0 4, sizeCode := fieldOf l 4 1,
    count := if fieldOf l 6 1 = 0 then 0 else fieldOf l 5 1 + 1,
    free := fieldOf l 8 2, filled := fieldOf l 10 2, held := fieldOf l 12 2, inflight := fieldOf l 14 2,
    prod := fieldOf l 16 1, cons := fieldOf l 17 1, ccClm := fieldOf l 18 2,
    clm := (List.range 6).foldl (fun t e => Table.put 0 t e (fieldOf l (20 + 2 * e) 2)) [] }

def Ring.area (r : Ring) : List Byte :=
  padTo 32 (leBytes 4 r.base ++ leBytes 2 r.size ++ leBytes 1 (b2n r.owner) ++ leBytes 1 (b2n r.halted) ++
    leBytes 4 r.write.toNat ++ leBytes 4 r.read.toNat ++ leBytes 4 r.retire.toNat)

/-- The progress record of a ring: of its one started command, or zeros. -/
def Ring.progArea (r : Ring) (e : Eng) : List Byte :=
  padTo 128 (match r.flight with
    | f :: _ =>
      leBytes 1 1 ++ leBytes 1 (b2n f.taken) ++ leBytes 1 (b2n f.claimed) ++ leBytes 1 (b2n f.prog.z) ++
      leBytes 4 f.slot.toNat ++
      (match e with
       | .ld | .st => leBytes 8 f.prog.off
       | .ct => leBytes 2 f.prog.row
       | .mx => (List.range 6).flatMap fun i => leBytes 2 (f.prog.n.getD i 0)
       | .vx | .tv => [])
    | [] => [])

def Ring.orgArea (r : Ring) : List Byte :=
  r.slots.flatMap fun k =>
    let o := Table.get Origin.empty r.org k.toNat
    leBytes 8 o.pc.toNat ++ o.a.flatMap fun a => leBytes 8 a.toNat

/-- Every section up to the accumulators. -/
def Core.headArea (c : Core) (n : Nat) (t : TaskSt) : List Byte :=
  let orgs := (Eng.all.map fun e => (c.ring e).slots.length).sum
  let sizes := areaSizes n orgs (liveRegions c.hart.live)
  let reg := fun (i : Nat) => leBytes 8 (Table.get (0 : W64) c.suspRegs i).toNat
  padTo 64 (leBytes 4 0x53484358 ++ leBytes 4 1 ++ leBytes 1 (b2n (!isP n)) ++ leBytes 1 (b2n t.pinned) ++ leBytes 2 n ++
    leBytes 4 0 ++ leBytes 8 sizes.2 ++ leBytes 8 (orgOff n) ++ leBytes 8 sizes.1 ++ leBytes 8 t.nodePa) ++
  ((span 1 31).flatMap reg ++ leBytes 8 c.suspPc.toNat) ++
  padTo 640 (csrs800.flatMap fun k => leBytes 8 (c.hart.csrRaw k).toNat) ++
  ((List.range 32).flatMap fun i => leBytes 2 (c.sem i).toNat) ++
  ((List.range 32).flatMap fun i => (c.cb i).area) ++
  padTo 256 (Eng.all.flatMap fun e => (c.ring e).area) ++
  ((List.range 16).flatMap fun i => leBytes 16 (c.mask i).toNat) ++
  ((List.range 64).flatMap fun i => leBytes 8 (Table.get (0 : W64) c.pj i).toNat) ++
  (Eng.all.flatMap fun e => (c.ring e).progArea e) ++
  padTo 128 ((match (c.ring .mx).flight with
    | f :: _ => f.latch
    | [] => none).getD []) ++
  padTo 128 ((List.range (accCount n)).map fun i => BitVec.ofNat 8 (b2n (Table.get false c.accInt i))) ++
  ((List.range (64 * 128)).flatMap fun i => leBytes 4 (Table.get (0 : W32) c.v i).toNat) ++
  ((List.range 64).flatMap fun r => leBytes 16 ((List.range 128).foldl (fun a i => a + (b2n (c.poisoned r i) <<< i)) 0)) ++
  ((List.range 64).flatMap fun r =>
    let o := Table.get (0, 0) c.vorg r
    leBytes 4 o.1 ++ leBytes 4 0 ++ leBytes 8 o.2) ++
  List.replicate 26624 0

def Core.accArea (c : Core) (n : Nat) : List Byte :=
  (List.range (accBytes n / 8)).flatMap fun k => leBytes 8 (Table.get (0 : W64) c.acc k).toNat

/-! ### Accesses to the area -/

/-- Write bytes of the area at a virtual address, line by line; a fault is the precise trap of the access (R305). -/
def areaWrite (n va : Nat) (data : List Byte) : M Unit :=
  (pieces (data.length + 1) 64 va data).forM fun p =>
    M.asAccess .store p.1 do
      let ph ← translateHart (.core n) .store p.1
      let s ← get
      match s.loc ph.pa with
      | .mmio _ => trapM 7 p.1
      | _ => writeRun (reqOf (.cc n) ph.home 0) ph.pa p.2

/-- Read bytes of the area. -/
def areaRead (n va len : Nat) : M (List Byte) := do
  let parts ← (pieces (len + 1) 64 va (List.replicate len 0)).mapM fun p =>
    M.asAccess .load p.1 do
      let ph ← translateHart (.core n) .load p.1
      let s ← get
      match s.loc ph.pa with
      | .mmio _ => trapM 5 p.1
      | _ => readRun (reqOf (.cc n) ph.home 0) ph.pa p.2.length
  pure parts.flatten

/-- A line of the own scratchpad for the area; what a live region names beyond the scratchpad the spec leaves open, and
its bytes are free values (log 2). -/
def liveLine (n off : Nat) : M (List Byte) :=
  if off + 64 ≤ spSize n then M.asAccess .load 0 (spRead (.cc n) n off 64)
  else do
    let ws ← (List.range 8).mapM fun _ => freshWord
    pure (ws.flatMap fun w => leBytes 8 w.toNat)

/-! ### `ctx.save` and `ctx.rest` -/

/-- The context leaves the core: an unpinned task's staged output is held under its SAVE address (R345), the node is
suspended and waits, with the lines whose writes it has made or observed and others do not see yet (R321) and with what of its
started commands the area has no place for (log 49), and every engine resource takes the dispatch state (R305). -/
def State.releaseContext (s : State) (n : Nat) (t : TaskSt) : State :=
  let g := (s.core n).staging
  let seen := s.coveredLines n
  let kept := Eng.all.map fun e => (e.num, (s.ring n e).flight)
  let s := if g = Staging.empty then s
    else ({ s with savedSets := Table.put none s.savedSets t.save (some g) } : State).retag n (heldKey t.save)
  let s := s.modCore n fun c =>
    { c.dispatchState with hart := c.dispatchState.hart.noLocal, staging := Staging.empty, task := none, suspended := false,
                           frozen := false, suspRegs := [], suspPc := 0 }
  s.modInst t.inst fun g => g.modNode t.node fun x =>
    { x with phase := .suspended, pinned := t.pinned, seen := seen, kept := kept, asked := x.asked.map fun a => (a.1, Asked.ask) }

/-- The live regions and their tags go into the area; `spOff` is the offset of their section. -/
def saveLive (n va spOff : Nat) (rs : List (Nat × Nat)) (tags : Table Nat) : M Unit := do
  (liveLines rs).zipIdx.forM fun p => do
    let l ← liveLine n p.1
    areaWrite n (va + spOff + 64 * p.2) l
  areaWrite n (va + spOff + 64 * (liveLines rs).length)
    ((liveBlocks rs).map fun b => BitVec.ofNat 8 (Table.get 0 tags b))

/-- Every section of the area of core `n` is written, in order (R306). -/
def saveArea (n va : Nat) (c : Core) (t : TaskSt) : M Unit := do
  areaWrite n va (c.headArea n t)
  areaWrite n (va + 0x10000) (c.accArea n)
  let rs := liveRegions c.hart.live
  let orgs := Eng.all.flatMap fun e => (c.ring e).orgArea
  let spOff := (areaSizes n (orgs.length / 72) rs).1
  areaWrite n (va + orgOff n) (padTo (spOff - orgOff n) orgs)
  saveLive n va spOff rs c.tags

/-- `ctx.save`. -/
def ctxSaveOp (rs1 : Reg) (n : Nat) : M (Option W64) := do
  let s ← get
  let c := s.core n
  let va := (c.hart.get rs1).toNat
  match c.task with
  | none => illegal
  | some t =>
    if c.hart.priv ≠ .s ∨ c.suspended = false ∨ va % 4096 ≠ 0 ∨ c.fq ≠ [] then illegal
    drainAll n
    -- a write of the task that the swap engine holds is seen by no other core yet (R125, R321)
    let s ← get
    if s.swapHolds n then throw .stall
    saveArea n va c t
    modify fun s => ((s.releaseContext n t).settle t.inst).mapDie (dieOf n)
    pure none

/-- The trap "bad context area" (R307, R347). -/
def badArea {α : Type} (va : Nat) : M α := trapM 28 va 24 0

/-- A ring as an area holds it, without its flights. -/
def Ring.ofArea (l : List Byte) : Ring :=
  { base := fieldOf l 0 4, size := fieldOf l 4 2, owner := fieldOf l 6 1 != 0,
    write := BitVec.ofNat 32 (fieldOf l 8 4), read := BitVec.ofNat 32 (fieldOf l 12 4),
    retire := BitVec.ofNat 32 (fieldOf l 16 4), org := [], flight := [], halted := fieldOf l 7 1 != 0 }

/-- The progress a record of the area holds. -/
def Prog.ofArea (e : Eng) (l : List Byte) : Prog :=
  match e with
  | .ld | .st => { Prog.start with off := fieldOf l 8 8 }
  | .ct => { Prog.start with row := fieldOf l 8 2 }
  | .mx => { Prog.start with n := (List.range 6).map fun i => fieldOf l (8 + 2 * i) 2, z := fieldOf l 3 1 != 0 }
  | .vx | .tv => Prog.start

/-- Put the origin records of the area into a ring; translation goes on under the `satp` and context of the restore
(R357). -/
def Ring.withOrgs (r : Ring) (l : List Byte) (satp : W64) (ctx : Nat) : Ring :=
  { r with org := r.slots.zipIdx.foldl (fun t p =>
      let o := l.drop (72 * p.2)
      let x : Origin := { pc := BitVec.ofNat 64 (fieldOf o 0 8),
                          a := (List.range 8).map fun i => BitVec.ofNat 64 (fieldOf o (8 + 8 * i) 8), satp := satp, ctx := ctx }
      Table.put Origin.empty t p.1.toNat x) [] }

/-- The command that an area records as started goes on from its progress; its words are read again from its slot. With it come
what the area has no place for: the elements held at an overflow (R91), the records it owes (R73), its staging lines, what it
has read, and the commands in flight behind it (log 49). -/
def Ring.withStarted (r : Ring) (n now : Nat) (e : Eng) (l : List Byte) (latch : Option (List Byte)) (kept : List Flight)
    (mem : List Host.Cell) : Ring :=
  if fieldOf l 0 1 = 0 then r
  else
    let slot : W32 := BitVec.ofNat 32 (fieldOf l 4 4)
    let q := fun (i : Nat) => BitVec.ofNat 64 (leNat (Memory.readList mem (spBase n + r.base + 32 * (slot.toNat % r.size) + 8 * i) 8))
    let f : Flight :=
      { slot := slot, q0 := q 0, q1 := q 1, q2 := q 2, q3 := q 3, org := Table.get Origin.empty r.org slot.toNat,
        since := now, phase := if r.halted then .halted else .ready, taken := fieldOf l 1 1 != 0,
        claimed := fieldOf l 2 1 != 0, prog := Prog.ofArea e l, latch := latch, stuck := [], recs := [] }
    match kept with
    | [] => { r with flight := [f] }
    | g :: rest =>
      if g.slot ≠ slot then { r with flight := [f] }
      else
        -- a ring that is halted at a later command leaves its head to go on
        let phase : Phase := if g.phase = .halted then .halted else .ready
        let again := fun (x : Flight) =>
          { x with org := Table.get Origin.empty r.org x.slot.toNat, since := now, phase := if x.phase = .stalled then .ready else x.phase }
        { r with flight := { f with phase := phase, stuck := g.stuck, recs := g.recs, resv := g.resv, list := g.list, halves := g.halves } :: rest.map again }

/-- Registers, without their reserved bits, semaphores, buffers, masks, patterns and accumulators of an area; `l` holds the sections up to the
accumulators, `accs` the accumulators. -/
def Core.loadArea (c : Core) (n : Nat) (l accs : List Byte) : Core :=
  let csr := csrs800.zipIdx.foldl (fun (h : Hart) p =>
    h.setCsrRaw p.1 (BitVec.ofNat 64 (fieldOf l (0x140 + 8 * p.2) 8) &&& BitVec.ofNat 64 (csr800Mask p.1))) c.hart
  let words := fun (off w k : Nat) => (List.range k).map fun i => fieldOf l (off + w * i) w
  let nums := fun (d : List Nat) => d.zipIdx.foldl (fun (t : Table W64) p => Table.put 0 t p.2 (BitVec.ofNat 64 p.1)) []
  { c with
    hart := csr
    sems := (words 0x3C0 2 32).zipIdx.foldl (fun t p => Table.put 0 t p.2 (BitVec.ofNat 16 p.1)) []
    cbs := (List.range 32).foldl (fun t i => Table.put Cb.reset t i (Cb.ofArea ((l.drop (0x400 + 32 * i)).take 32))) []
    k := (words 0x900 16 16).zipIdx.foldl (fun t p => if p.2 = 0 then t else Table.put 0 t p.2 (BitVec.ofNat 128 p.1)) []
    pj := nums (words 0xA00 8 64)
    accInt := (List.range (accCount n)).foldl (fun t i => Table.put false t i (fieldOf l (0xF80 + i) 1 != 0)) []
    v := (words 0x1000 4 8192).zipIdx.foldl (fun t p => Table.put 0 t p.2 (BitVec.ofNat 32 p.1)) []
    vpois := (words 0x9000 16 64).zipIdx.foldl (fun t p =>
      (List.range 128).foldl (fun t i => Table.put false t (p.2 * 128 + i) (bit p.1 i)) t) []
    vorg := (List.range 64).foldl (fun t r =>
      Table.put (0, 0) t r (fieldOf l (0x9400 + 16 * r) 4, fieldOf l (0x9408 + 16 * r) 8)) []
    acc := nums ((List.range (accBytes n / 8)).map fun i => fieldOf accs (8 * i) 8) }

/-- The node whose physical address an area names: its instance, place and node, dispatched to resume (R345). -/
def State.nodeAt (s : State) (pa : Nat) : Option (GInst × Nat × NodeSt) :=
  s.insts.findSome? fun g =>
    if g.gbase + 64 ≤ pa ∧ (pa - g.gbase) % 64 = 0 then
      let i := (pa - g.gbase) / 64 - 1
      match g.nodes[i]? with
      | some x => if x.phase = .running then some (g, i, x) else none
      | none => none
    else none

/-- The task and the rest of the context are the core's: x1 to x31, `sepc`, SPP, `satp`, and the held set (R307, R345). -/
def State.adopt (s : State) (n : Nat) (g : GInst) (i : Nat) (x : NodeSt) (pinned : Bool) (l : List Byte) : State :=
  let satp := s.reg (0x030001602000 + 8 * g.ctx)
  let task : TaskSt :=
    { inst := g.id, node := i, ctx := g.ctx, susp := bit x.flags 0, pinned := pinned, stream := s.streamOf x,
      save := x.save, nodePa := g.gbase + 64 + 64 * i, prio := g.prio, since := s.now, pend := none }
  let set := (Table.get none s.savedSets x.save).getD Staging.empty
  let s := ({ s with savedSets := Table.put none s.savedSets x.save none } : State).retag (heldKey x.save) n
  s.modCore n fun c =>
    let h := (List.range 31).foldl (fun (h : Hart) k =>
      { h with x := Table.put 0 h.x (k + 1) (BitVec.ofNat 64 (fieldOf l (0x40 + 8 * k) 8)) }) c.hart
    let h := ((h.setCsrRaw 0x141 (BitVec.ofNat 64 (fieldOf l 0x138 8))).setCsrBits mstatusN 8 8 0).setCsrRaw 0x180 satp
    { c with hart := h, task := some task, staging := set, resuming := none, frozen := true, suspended := false }

/-- The lines of the live regions come back from the area. -/
def restLive (n va spOff : Nat) (rs : List (Nat × Nat)) : M Unit :=
  (liveLines rs).zipIdx.forM fun p => do
    let d ← areaRead n (va + spOff + 64 * p.2) 64
    if p.1 + 64 ≤ spSize n then M.asAccess .store 0 (spWrite (.cc n) n p.1 d)

/-- Is the header of an area that of a context of core `n`'s profile, with the sizes its rings and live regions give (R306, R307)? -/
def headerOk (n : Nat) (l : List Byte) (sizes : Nat × Nat) : Bool :=
  fieldOf l 0 4 == 0x53484358 && fieldOf l 4 4 == 1 && fieldOf l 8 1 == b2n (!isP n) && fieldOf l 16 8 == sizes.2 &&
  fieldOf l 24 8 == orgOff n && fieldOf l 32 8 == sizes.1

/-- The rings, and the live regions, that an area describes. -/
def ringsOf (l : List Byte) : List Ring := (List.range 6).map fun e => Ring.ofArea ((l.drop (0x800 + 32 * e)).take 32)

def regionsOf (l : List Byte) : List (Nat × Nat) := liveRegions ((List.range 8).map fun i => fieldOf l (0x140 + 8 * (67 + i)) 8)

/-- A restored task observes every write it had observed before its suspension (R321): it waits while PHOLD keeps one of them
in another cluster, and the core's die takes its invalidations. -/
def resumeSeen (n : Nat) (seen : List Nat) : M Unit := do
  let s ← get
  if s.heldW.any fun h => seen.contains (h.pa / 64) && h.cluster != clusterOf n then throw .stall
  modify fun s =>
    let s := s.takeInval fun c => c.die == dieOf n && seen.contains c.line
    s.modCore n fun c => { c with observed := ((seen.filter s.pending) ++ c.observed).eraseDups }

/-- Everything the area holds is the core's again, with `tags` for the blocks of the live regions. -/
def State.restored (s : State) (n : Nat) (g : GInst) (i : Nat) (x : NodeSt) (l accs orgs tags : List Byte) : State :=
  let satp := s.reg (0x030001602000 + 8 * g.ctx)
  let rs := regionsOf l
  let rings := ringsOf l
  let lens := rings.map fun r => r.slots.length
  let desc := (l.drop 0xF00).take 128
  let latch := if desc.all (· == 0) then none else some desc
  let s := s.modCore n fun c =>
    let c := { c with tags := ((liveBlocks rs).zip tags).foldl (fun (t : Table Nat) (p : Nat × Byte) => Table.put 0 t p.1 p.2.toNat) c.tags }
    { c with descs := [], dropDue := false, dropFor := [] }.loadArea n l accs
  let s := Eng.all.foldl (fun (t : State) e =>
    match rings[e.num]? with
    | none => t
    | some r =>
      let skip := (lens.take e.num).sum
      let r := r.withOrgs (orgs.drop (72 * skip)) satp g.ctx
      t.setRing n e (r.withStarted n t.now e ((l.drop (0xC00 + 128 * e.num)).take 128)
        (if e = .mx then latch else none) (Table.get [] x.kept e.num) t.mem)) s
  s.adopt n g i x (fieldOf l 9 1 != 0) l

/-- `ctx.rest`: check, scratchpad, everything else, then the registers. -/
def ctxRestOp (rs1 : Reg) (n : Nat) : M (Option W64) := do
  let s ← get
  let c := s.core n
  let va := (c.hart.get rs1).toNat
  if c.hart.priv ≠ .s ∨ c.task.isSome ∨ va % 4096 ≠ 0 then illegal
  drainAll n
  let l ← areaRead n va 0x10000
  let rs := regionsOf l
  let orgNo := ((ringsOf l).map fun r => r.slots.length).sum
  let sizes := areaSizes n orgNo rs
  let s ← get
  if headerOk n l sizes = false then badArea va
  match s.nodeAt (fieldOf l 40 8) with
  | none => badArea va
  | some (g, i, x) =>
    let accs ← areaRead n (va + 0x10000) (accBytes n)
    let orgs ← areaRead n (va + orgOff n) (72 * orgNo)
    restLive n va sizes.1 rs
    let tags ← areaRead n (va + sizes.1 + 64 * (liveLines rs).length) (liveBlocks rs).length
    modify fun s => s.restored n g i x l accs orgs tags
    resumeSeen n x.seen
    pure none

/-! ### The fault queue, rings and semaphores (R308, R309, R291) -/

/-- Supervisor operations are legal above U-mode only (R53). -/
def superOnly (n : Nat) : M Unit := do
  let s ← get
  if (s.core n).hart.priv = .u then illegal

/-- `fq.rd`: a word of the oldest record, 0 without one. -/
def fqRdOp (rd rs1 : Reg) (n : Nat) : M (Option W64) := do
  superOnly n
  let s ← get
  let c := s.core n
  finReg (.core n) rd (match c.fq with
    | r :: _ => r.word ((c.hart.get rs1).toNat % 8)
    | [] => 0)

/-- `fq.pop`. -/
def fqPopOp (n : Nat) : M (Option W64) := do
  superOnly n
  modify fun s => s.modCore n Core.popFq
  fin

/-- `ring.cfg` (R309, R54). -/
def ringCfgOp (e : Eng) (rs1 rs2 : Reg) (n : Nat) : M (Option W64) := do
  superOnly n
  let s ← get
  let c := s.core n
  let r := c.ring e
  let base := (c.hart.get rs1).toNat
  let k := bits (c.hart.get rs2).toNat 3 0
  if k < 4 ∨ 12 < k ∨ r.write ≠ r.retire ∨ base % 32 ≠ 0 ∨ spSize n < base + 32 * 2 ^ k then illegal
  modify fun s => s.setRing n e { r with base := base, size := 2 ^ k, write := 0, read := 0, retire := 0, org := [], flight := [] }
  fin

/-- `ring.own`: bit 0 of x[rs1] is the owner, 1 for S-mode. -/
def ringOwnOp (e : Eng) (rs1 : Reg) (n : Nat) : M (Option W64) := do
  superOnly n
  modify fun s => s.setRing n e { s.ring n e with owner := ((s.core n).hart.get rs1).getLsbD 0 }
  fin

/-- `sem.set`. -/
def semSetOp (i : Nat) (rs1 : Reg) (n : Nat) : M (Option W64) := do
  superOnly n
  modify fun s => s.modCore n fun c => c.setSem i (BitVec.ofNat 16 (c.hart.get rs1).toNat)
  fin

/-- `err.inj` (R143), in S-mode only. -/
def errInjOp (rs1 rs2 : Reg) (n : Nat) : M (Option W64) := do
  let s ← get
  let c := s.core n
  if c.hart.priv ≠ .s then illegal
  let x1 := (c.hart.get rs1).toNat
  let x2 := (c.hart.get rs2).toNat
  if injectLegal n x1 x2 = false then illegal
  modify fun s => s.modCore n fun c => c.inject n x1 x2
  fin

end Sys2Proof.Machine
end

