-- ==== Sys2Proof/Decode.lean ====
section
/-! DEFINITION. Decoding: the 32-bit and 16-bit control instructions (R48 to R54 and the RISC-V standard that R48 names), and
the 256-bit command words (R55 to R66); after it the encoder, written from the same encodings. Decoding is total and
answers none for every bit pattern that is no instruction. -/
namespace Sys2Proof

/-! ### The control stream: fields -/

/-- A field of a word: `n` bits from bit `lo` on. -/
abbrev fld (w : W32) (lo n : Nat) : BitVec n := w.extractLsb' lo n

def fRd (w : W32) : Reg := fld w 7 5
def fRs1 (w : W32) : Reg := fld w 15 5
def fRs2 (w : W32) : Reg := fld w 20 5
def fF3 (w : W32) : BitVec 3 := fld w 12 3
def fF7 (w : W32) : BitVec 7 := fld w 25 7
def fImm (w : W32) : BitVec 12 := fld w 20 12

/-- Answer only where a condition holds. -/
def when1 {α : Type} (b : Bool) (x : α) : Option α := if b then some x else none

/-! ### custom-0 (R51, R54) -/

/-- `ring.post` in its four forms: an immediate count where rs1 is x0. -/
def decodePost (w : W32) : Option Instr :=
  if fld w 11 1 = 0#1 then
    (Eng.ofNum (fld w 7 3).toNat).map fun e =>
      if fld w 10 1 = 0#1 then (if fRs1 w = 0#5 then .ringPost e (fImm w) else .ringPostReg e (fRs1 w) (fImm w))
      else (if fRs1 w = 0#5 then .ringPostFresh e (fImm w) else .ringPostFreshReg e (fRs1 w) (fImm w))
  else none

def decodeCustom0 (w : W32) : Option Instr :=
  let d := fRd w
  let a := fRs1 w
  let b := fRs2 w
  let f := (fF7 w).toNat
  let d0 := d == 0#5
  let a0 := a == 0#5
  let b0 := b == 0#5
  match (fF3 w).toNat with
  | 0 => decodePost w
  | 1 =>
    if f = 0 then (if d0 then (Eng.ofNum b.toNat).map fun e => .ringWait e a else none)
    else if f = 1 then (if a0 then (Eng.ofNum b.toNat).map fun e => .ringPtr d e else none)
    else if f = 2 then when1 (d0 && a0) (.semRaise b)
    else if f = 3 then when1 (d0 && a0) (.semWait b)
    else if f = 4 then when1 a0 (.semRead d b)
    else if f = 5 then when1 a0 (.semTry d b)
    else none
  | 2 =>
    if f = 0 then some (.cbCfg d a b)
    else if f = 1 then when1 b0 (.cbClaim d a)
    else if f = 2 then when1 b0 (.cbPush d a)
    else if f = 3 then when1 b0 (.cbTake d a)
    else if f = 4 then when1 b0 (.cbRel d a)
    else if f = 5 then when1 a0 (.cbStat d b)
    else none
  | 3 =>
    if f = 0 then when1 (d0 && a0 && b0) .taskRetire
    else if f = 1 then when1 (d0 && a0 && b0) .taskAbort
    else if f = 2 then when1 (d0 && a0 && b0) .taskDirect
    else if f = 3 then when1 (d0 && a0 && b0) .taskYield
    else none
  | 4 =>
    if f = 0 then when1 d0 (.condSet a b)
    else if f = 1 then when1 (d0 && b0) (.depDec a)
    else if f = 2 then when1 (d0 && b0) (.graphLaunch a)
    else none
  | 5 =>
    if f = 0 then when1 (a0 && b0) (.datumRd d)
    else if f = 1 then when1 (d0 && b0) (.datumWait a)
    else if f = 2 then when1 (d0 && a0 && b0) .snapTrig
    else if f = 3 then when1 b0 (.snapRd d a)
    else none
  | _ => none

/-! ### custom-1 (R52, R54) -/

def decodeCustom1 (w : W32) : Option Instr :=
  let d := fRd w
  let a := fRs1 w
  let b := fRs2 w
  let isSc := fld w 26 1 == 1#1
  let op := (fld w 27 5).toNat
  let d0 := d == 0#5
  let b0 := b == 0#5
  if fld w 25 1 = 1#1 then none
  else match Scope.ofNum (fF3 w).toNat with
    | none => none
    | some s =>
      if op = 0 then when1 b0 (.ldAcq isSc s d a)
      else if op = 1 then when1 d0 (.sdRel isSc s b a)
      else if op = 2 then some (.amoAdd isSc s d b a)
      else if op = 3 then some (.amoAnd isSc s d b a)
      else if op = 4 then some (.amoOr isSc s d b a)
      else if op = 5 then some (.amoXor isSc s d b a)
      else if op = 6 then some (.amoMax isSc s d b a)
      else if op = 7 then some (.amoMin isSc s d b a)
      else if op = 8 then some (.amoSwap isSc s d b a)
      else if op = 9 then some (.amoCas isSc s d b a)
      else if op = 10 then when1 (!isSc && d0 && b0 && a == 0#5) (.fenceScoped s)
      else if op = 11 then when1 (!isSc && b0) (.arrive s d a)
      else if op = 12 then when1 (!isSc && d0) (.wait s a b)
      else none

/-! ### custom-2 (R53, R54) -/

def decodeCustom2 (w : W32) : Option Instr :=
  let d := fRd w
  let a := fRs1 w
  let b := fRs2 w
  let f := (fF7 w).toNat
  let d0 := d == 0#5
  let a0 := a == 0#5
  let b0 := b == 0#5
  if fF3 w ≠ 0#3 then none
  else if f = 0 then when1 (d0 && b0) (.ctxSave a)
  else if f = 1 then when1 (d0 && b0) (.ctxRest a)
  else if f = 2 then when1 b0 (.fqRd d a)
  else if f = 3 then when1 (d0 && a0 && b0) .fqPop
  else if f = 4 then (Eng.ofNum d.toNat).map fun e => .ringCfg e a b
  else if f = 5 then (if b0 then (Eng.ofNum d.toNat).map fun e => .ringOwn e a else none)
  else if f = 6 then when1 d0 (.semSet b a)
  else if f = 7 then when1 d0 (.errInj a b)
  else none

/-! ### The standard instructions (R48) -/

def decodeBranch (f3 : Nat) : Option BranchOp :=
  match f3 with
  | 0 => some .beq | 1 => some .bne | 4 => some .blt | 5 => some .bge | 6 => some .bltu | 7 => some .bgeu | _ => none

def decodeLoad (f3 : Nat) : Option MemKind :=
  match f3 with
  | 0 => some .b | 1 => some .h | 2 => some .w | 3 => some .d | 4 => some .bu | 5 => some .hu | 6 => some .wu | _ => none

def decodeStore (f3 : Nat) : Option MemKind :=
  match f3 with
  | 0 => some .b | 1 => some .h | 2 => some .w | 3 => some .d | _ => none

/-- OP: by funct7 and funct3. -/
def decodeAlu (f7 f3 : Nat) : Option AluOp :=
  match f7, f3 with
  | 0x00, 0 => some .add | 0x00, 1 => some .sll | 0x00, 2 => some .slt | 0x00, 3 => some .sltu
  | 0x00, 4 => some .xor | 0x00, 5 => some .srl | 0x00, 6 => some .or | 0x00, 7 => some .and
  | 0x20, 0 => some .sub | 0x20, 4 => some .xnor | 0x20, 5 => some .sra | 0x20, 6 => some .orn | 0x20, 7 => some .andn
  | 0x01, 0 => some .mul | 0x01, 1 => some .mulh | 0x01, 2 => some .mulhsu | 0x01, 3 => some .mulhu
  | 0x01, 4 => some .div | 0x01, 5 => some .divu | 0x01, 6 => some .rem | 0x01, 7 => some .remu
  | 0x05, 4 => some .min | 0x05, 5 => some .minu | 0x05, 6 => some .max | 0x05, 7 => some .maxu
  | 0x10, 2 => some .sh1add | 0x10, 4 => some .sh2add | 0x10, 6 => some .sh3add
  | 0x30, 1 => some .rol | 0x30, 5 => some .ror
  | _, _ => none

/-- The 64-bit operations that lie in OP-32 (Zba). -/
def decodeAluUw (f7 f3 : Nat) : Option AluOp :=
  match f7, f3 with
  | 0x04, 0 => some .addUw | 0x10, 2 => some .sh1addUw | 0x10, 4 => some .sh2addUw | 0x10, 6 => some .sh3addUw
  | _, _ => none

def decodeAluW (f7 f3 : Nat) : Option AluWOp :=
  match f7, f3 with
  | 0x00, 0 => some .addw | 0x00, 1 => some .sllw | 0x00, 5 => some .srlw
  | 0x20, 0 => some .subw | 0x20, 5 => some .sraw
  | 0x01, 0 => some .mulw | 0x01, 4 => some .divw | 0x01, 5 => some .divuw | 0x01, 6 => some .remw | 0x01, 7 => some .remuw
  | 0x30, 1 => some .rolw | 0x30, 5 => some .rorw
  | _, _ => none

/-- One-operand operations of OP-IMM, by the whole immediate. -/
def decodeUn (f3 imm : Nat) : Option UnOp :=
  match f3, imm with
  | 1, 0x600 => some .clz | 1, 0x601 => some .ctz | 1, 0x602 => some .cpop | 1, 0x604 => some .sextB
  | 1, 0x605 => some .sextH | 5, 0x287 => some .orcB | 5, 0x6B8 => some .rev8
  | _, _ => none

def decodeUnW (f3 imm : Nat) : Option UnOp :=
  match f3, imm with
  | 1, 0x600 => some .clzw | 1, 0x601 => some .ctzw | 1, 0x602 => some .cpopw
  | _, _ => none

/-- Shifts by six bits, by funct3 and the six bits above the amount. -/
def decodeShift (f3 hi : Nat) : Option ShiftOp :=
  match f3, hi with
  | 1, 0x00 => some .slli | 5, 0x00 => some .srli | 5, 0x10 => some .srai | 5, 0x18 => some .rori
  | _, _ => none

/-- Shifts of the low word, by funct3 and funct7. -/
def decodeShiftW (f3 f7 : Nat) : Option ShiftWOp :=
  match f3, f7 with
  | 1, 0x00 => some .slliw | 5, 0x00 => some .srliw | 5, 0x20 => some .sraiw | 5, 0x30 => some .roriw
  | _, _ => none

def decodeImmOp (f3 : Nat) : Option ImmOp :=
  match f3 with
  | 0 => some .addi | 2 => some .slti | 3 => some .sltiu | 4 => some .xori | 6 => some .ori | 7 => some .andi | _ => none

def decodeAt (f5 : Nat) : Option AtOp :=
  match f5 with
  | 0x02 => some .lr | 0x03 => some .sc | 0x01 => some .swap | 0x00 => some .add | 0x04 => some .xor | 0x0C => some .and
  | 0x08 => some .or | 0x10 => some .min | 0x14 => some .max | 0x18 => some .minu | 0x1C => some .maxu | _ => none

def decodeOpImm (w : W32) : Option Rv :=
  let f3 := (fF3 w).toNat
  match decodeImmOp f3 with
  | some op => some (.imm op (fRd w) (fRs1 w) (fImm w))
  | none =>
    match decodeUn f3 (fImm w).toNat with
    | some op => some (.un op (fRd w) (fRs1 w))
    | none => (decodeShift f3 (fld w 26 6).toNat).map fun op => .shift op (fRd w) (fRs1 w) (fld w 20 6)

def decodeOpImmW (w : W32) : Option Rv :=
  let f3 := (fF3 w).toNat
  if f3 = 0 then some (.addiw (fRd w) (fRs1 w) (fImm w))
  else if f3 = 1 ∧ (fld w 26 6).toNat = 2 then some (.shift .slliUw (fRd w) (fRs1 w) (fld w 20 6))
  else match decodeUnW f3 (fImm w).toNat with
    | some op => some (.un op (fRd w) (fRs1 w))
    | none => (decodeShiftW f3 (fF7 w).toNat).map fun op => .shiftw op (fRd w) (fRs1 w) (fRs2 w)

def decodeOpW (w : W32) : Option Rv :=
  let f3 := (fF3 w).toNat
  let f7 := (fF7 w).toNat
  if f7 = 4 ∧ f3 = 4 ∧ fRs2 w = 0#5 then some (.un .zextH (fRd w) (fRs1 w))
  else match decodeAluUw f7 f3 with
    | some op => some (.alu op (fRd w) (fRs1 w) (fRs2 w))
    | none => (decodeAluW f7 f3).map fun op => .aluw op (fRd w) (fRs1 w) (fRs2 w)

def decodeSystem (w : W32) : Option Instr :=
  match (fF3 w).toNat with
  | 0 =>
    if fF7 w = 0x09#7 ∧ fRd w = 0#5 then some (.sfenceVma (fRs1 w) (fRs2 w))
    else if fRd w = 0#5 ∧ fRs1 w = 0#5 then
      match (fImm w).toNat with
      | 0x000 => some (.standardInstruction (.sys .ecall))
      | 0x001 => some (.standardInstruction (.sys .ebreak))
      | 0x102 => some (.standardInstruction (.sys .sret))
      | 0x302 => some (.standardInstruction (.sys .mret))
      | 0x105 => some (.standardInstruction (.sys .wfi))
      | _ => none
    else none
  | 1 => some (.standardInstruction (.csr .rw (fRd w) (fRs1 w) (fImm w)))
  | 2 => some (.standardInstruction (.csr .rs (fRd w) (fRs1 w) (fImm w)))
  | 3 => some (.standardInstruction (.csr .rc (fRd w) (fRs1 w) (fImm w)))
  | 5 => some (.standardInstruction (.csri .rw (fRd w) (fRs1 w) (fImm w)))
  | 6 => some (.standardInstruction (.csri .rs (fRd w) (fRs1 w) (fImm w)))
  | 7 => some (.standardInstruction (.csri .rc (fRd w) (fRs1 w) (fImm w)))
  | _ => none

def decodeAmo (w : W32) : Option Instr :=
  let f3 := (fF3 w).toNat
  if f3 ≠ 2 ∧ f3 ≠ 3 then none
  else match decodeAt (fld w 27 5).toNat with
    | none => none
    | some op =>
      if op = .lr ∧ fRs2 w ≠ 0#5 then none
      else some (.standardAtomic op (f3 == 3) (fld w 26 1 == 1#1) (fld w 25 1 == 1#1) (fRd w) (fRs1 w) (fRs2 w))

/-- A 32-bit instruction, by its major opcode. -/
def decode32 (w : W32) : Option Instr :=
  let f3 := (fF3 w).toNat
  let std := fun (r : Option Rv) => r.map Instr.standardInstruction
  match (fld w 0 7).toNat with
  | 0x0B => decodeCustom0 w
  | 0x2B => decodeCustom1 w
  | 0x5B => decodeCustom2 w
  | 0x37 => std (some (.lui (fRd w) (fld w 12 20)))
  | 0x17 => std (some (.auipc (fRd w) (fld w 12 20)))
  | 0x6F => std (some (.jal (fRd w) (fld w 31 1 ++ fld w 12 8 ++ fld w 20 1 ++ fld w 21 10)))
  | 0x67 => if f3 = 0 then std (some (.jalr (fRd w) (fRs1 w) (fImm w))) else none
  | 0x63 => std ((decodeBranch f3).map fun op =>
      .branch op (fRs1 w) (fRs2 w) (fld w 31 1 ++ fld w 7 1 ++ fld w 25 6 ++ fld w 8 4))
  | 0x03 => (decodeLoad f3).map fun k => .controlCoreLoad k (fRd w) (fRs1 w) (fImm w)
  | 0x23 => (decodeStore f3).map fun k => .controlCoreStore k (fRs2 w) (fRs1 w) (fld w 25 7 ++ fld w 7 5)
  | 0x13 => std (decodeOpImm w)
  | 0x1B => std (decodeOpImmW w)
  | 0x33 => std ((decodeAlu (fF7 w).toNat f3).map fun op => .alu op (fRd w) (fRs1 w) (fRs2 w))
  | 0x3B => std (decodeOpW w)
  | 0x0F =>
    if f3 = 0 then some (.standardFence (fld w 28 4) (fld w 24 4) (fld w 20 4) (fRs1 w) (fRd w))
    else if f3 = 1 then std (some .fencei)
    else none
  | 0x73 => decodeSystem w
  | 0x2F => decodeAmo w
  | _ => none

/-! ### The 16-bit instructions (C without the floating-point ones) -/

abbrev cfld (w : W16) (lo n : Nat) : BitVec n := w.extractLsb' lo n

/-- A register field of three bits: x8 to x15. -/
def cReg (r : BitVec 3) : Reg := 1#2 ++ r

/-- The signed 6-bit immediate. -/
def cImm (w : W16) : BitVec 12 := (cfld w 12 1 ++ cfld w 2 5 : BitVec 6).signExtend 12

def decodeC0 (w : W16) : Option Instr :=
  let d := cReg (cfld w 2 3)
  let a := cReg (cfld w 7 3)
  let iw : BitVec 12 := 0#5 ++ cfld w 5 1 ++ cfld w 10 3 ++ cfld w 6 1 ++ 0#2
  let idw : BitVec 12 := 0#4 ++ cfld w 5 2 ++ cfld w 10 3 ++ 0#3
  match (cfld w 13 3).toNat with
  | 0 =>
    let i : BitVec 12 := 0#2 ++ cfld w 7 4 ++ cfld w 11 2 ++ cfld w 5 1 ++ cfld w 6 1 ++ 0#2
    if i = 0#12 then none else some (.standardInstruction (.imm .addi d 2#5 i))
  | 2 => some (.controlCoreLoad .w d a iw)
  | 3 => some (.controlCoreLoad .d d a idw)
  | 6 => some (.controlCoreStore .w d a iw)
  | 7 => some (.controlCoreStore .d d a idw)
  | _ => none

/-- The register arithmetic of quadrant 1. -/
def decodeC1Alu (w : W16) : Option Rv :=
  let d := cReg (cfld w 7 3)
  let b := cReg (cfld w 2 3)
  let sh : BitVec 6 := cfld w 12 1 ++ cfld w 2 5
  match (cfld w 10 2).toNat with
  | 0 => some (.shift .srli d d sh)
  | 1 => some (.shift .srai d d sh)
  | 2 => some (.imm .andi d d (cImm w))
  | _ =>
    match (cfld w 12 1).toNat, (cfld w 5 2).toNat with
    | 0, 0 => some (.alu .sub d d b)
    | 0, 1 => some (.alu .xor d d b)
    | 0, 2 => some (.alu .or d d b)
    | 0, _ => some (.alu .and d d b)
    | _, 0 => some (.aluw .subw d d b)
    | _, 1 => some (.aluw .addw d d b)
    | _, _ => none

def decodeC1 (w : W16) : Option Rv :=
  let d : Reg := cfld w 7 5
  let off : BitVec 12 := (cfld w 12 1 ++ cfld w 5 2 ++ cfld w 2 1 ++ cfld w 10 2 ++ cfld w 3 2 : BitVec 8).signExtend 12
  match (cfld w 13 3).toNat with
  | 0 => some (.imm .addi d d (cImm w))
  | 1 => if d = 0#5 then none else some (.addiw d d (cImm w))
  | 2 => some (.imm .addi d 0#5 (cImm w))
  | 3 =>
    if d = 2#5 then
      let i : BitVec 10 := cfld w 12 1 ++ cfld w 3 2 ++ cfld w 5 1 ++ cfld w 2 1 ++ cfld w 6 1 ++ 0#4
      if i = 0#10 then none else some (.imm .addi 2#5 2#5 (i.signExtend 12))
    else
      let i : BitVec 6 := cfld w 12 1 ++ cfld w 2 5
      if i = 0#6 then none else some (.lui d (i.signExtend 20))
  | 4 => decodeC1Alu w
  | 5 =>
    let j : BitVec 11 := cfld w 12 1 ++ cfld w 8 1 ++ cfld w 9 2 ++ cfld w 6 1 ++ cfld w 7 1 ++ cfld w 2 1 ++ cfld w 11 1 ++
      cfld w 3 3
    some (.jal 0#5 (j.signExtend 20))
  | 6 => some (.branch .beq (cReg (cfld w 7 3)) 0#5 off)
  | _ => some (.branch .bne (cReg (cfld w 7 3)) 0#5 off)

def decodeC2 (w : W16) : Option Instr :=
  let d : Reg := cfld w 7 5
  let b : Reg := cfld w 2 5
  let std := fun (r : Rv) => some (Instr.standardInstruction r)
  match (cfld w 13 3).toNat with
  | 0 => std (.shift .slli d d (cfld w 12 1 ++ cfld w 2 5))
  | 2 =>
    if d = 0#5 then none
    else some (.controlCoreLoad .w d 2#5 (0#4 ++ cfld w 2 2 ++ cfld w 12 1 ++ cfld w 4 3 ++ 0#2))
  | 3 =>
    if d = 0#5 then none
    else some (.controlCoreLoad .d d 2#5 (0#3 ++ cfld w 2 3 ++ cfld w 12 1 ++ cfld w 5 2 ++ 0#3))
  | 4 =>
    if cfld w 12 1 = 0#1 then
      if b = 0#5 then (if d = 0#5 then none else std (.jalr 0#5 d 0#12))
      else std (.alu .add d 0#5 b)
    else if b = 0#5 then (if d = 0#5 then std (.sys .ebreak) else std (.jalr 1#5 d 0#12))
    else std (.alu .add d d b)
  | 6 => some (.controlCoreStore .w b 2#5 (0#4 ++ cfld w 7 2 ++ cfld w 9 4 ++ 0#2))
  | 7 => some (.controlCoreStore .d b 2#5 (0#3 ++ cfld w 7 3 ++ cfld w 10 3 ++ 0#3))
  | _ => none

/-- A 16-bit instruction, as the instruction it abbreviates. -/
def decode16 (w : W16) : Option Instr :=
  match (cfld w 0 2).toNat with
  | 0 => decodeC0 w
  | 1 => (decodeC1 w).map .standardInstruction
  | 2 => decodeC2 w
  | _ => none

/-- Does a parcel begin a 32-bit instruction? -/
def isLong (w : W16) : Bool := cfld w 0 2 == 3#2

/-! ### The command word (R55) -/

/-- MOD and the quarters Q1 to Q3. -/
structure Body where
  md : BitVec 15
  q1 : W64
  q2 : W64
  q3 : W64
  deriving DecidableEq, Repr

/-- A field of a quarter. -/
abbrev qf (q : W64) (lo n : Nat) : BitVec n := q.extractLsb' lo n

def hdrOf (q0 : W64) : Hdr :=
  { wsem := qf q0 47 5, wen := qf q0 46 1 == 1#1, rsem := qf q0 41 5, ren := qf q0 40 1 == 1#1, bound := qf q0 20 20,
    rnd := qf q0 18 2, ovf := qf q0 16 2, spec := qf q0 15 1 == 1#1 }

def bodyOf (q0 q1 q2 q3 : W64) : Body := { md := qf q0 0 15, q1 := q1, q2 := q2, q3 := q3 }

/-- One bit of MOD. -/
abbrev mbit (m : BitVec 15) (i : Nat) : Bool := m.extractLsb' i 1 == 1#1

def ldArgsOf (b : Body) : LdArgs :=
  { res := b.md.extractLsb' 0 2, rft := mbit b.md 2, rreg := b.md.extractLsb' 3 3, dcen := mbit b.md 6,
    span := b.md.extractLsb' 7 3, tr := mbit b.md 10, cs := b.md.extractLsb' 11 4, dst := qf b.q1 0 32,
    q1hi := qf b.q1 32 32, len0 := qf b.q2 0 16, cnt1 := qf b.q2 16 12, cnt2 := qf b.q2 28 12, dctr := qf b.q2 40 12,
    stype := qf b.q2 52 8, q2z := qf b.q2 60 4, q3 := b.q3 }

def stArgsOf (b : Body) : StArgs :=
  { res := b.md.extractLsb' 0 2, z52 := b.md.extractLsb' 2 4, dcen := mbit b.md 6, span := b.md.extractLsb' 7 3,
    z1110 := b.md.extractLsb' 10 2, gz := b.md.extractLsb' 12 3, dst := qf b.q1 0 32, src := qf b.q1 32 32,
    len0 := qf b.q2 0 16, cnt1 := qf b.q2 16 12, cnt2 := qf b.q2 28 12, dctr := qf b.q2 40 12, stype := qf b.q2 52 8,
    q2z := qf b.q2 60 4, q3 := b.q3 }

def mxArgsOf (b : Body) : MxArgs := { md := b.md, q1 := b.q1, q2 := b.q2, q3 := b.q3 }

/-- An operand specifier (R59). -/
def vopOf (w : BitVec 12) : VOp :=
  { reg := w.extractLsb' 6 6, sel := w.extractLsb' 4 2, swz := w.extractLsb' 1 3, neg := w.extractLsb' 0 1 == 1#1 }

def vxArgsOf (b : Body) : VxArgs :=
  { msk := b.md.extractLsb' 0 4, mz := mbit b.md 4, gz := b.md.extractLsb' 5 3, xm := b.md.extractLsb' 8 7,
    vd := qf b.q1 0 6, z76 := qf b.q1 6 2, etype := qf b.q1 8 8, va := vopOf (qf b.q1 16 12), vb := vopOf (qf b.q1 28 12),
    vc := vopOf (qf b.q1 40 12), kd := qf b.q1 52 4, ka := qf b.q1 56 4, kb := qf b.q1 60 4, imm := qf b.q2 0 32,
    etype2 := qf b.q2 32 8, q2z := qf b.q2 40 24, q3 := b.q3 }

def ctArgsOf (b : Body) : CtArgs :=
  { causal := mbit b.md 0, pre := mbit b.md 1, modz := b.md.extractLsb' 2 13, dst := qf b.q1 0 32, src := qf b.q1 32 32,
    len := qf b.q2 0 16, rows := qf b.q2 16 12, q2z := qf b.q2 28 4, aux := qf b.q2 32 32, spitch := qf b.q3 0 16,
    dpitch := qf b.q3 16 16, stype := qf b.q3 32 8, dtype := qf b.q3 40 8, row0 := qf b.q3 48 16 }

def tvArgsOf (b : Body) : TvArgs :=
  { fe := mbit b.md 0, fin := mbit b.md 1, modz := b.md.extractLsb' 2 13, sreg := qf b.q1 0 3, q1z := qf b.q1 3 13,
    idx := qf b.q1 16 13, q1zz := qf b.q1 29 3, stw := qf b.q1 32 32, src := qf b.q2 0 32, spitch := qf b.q2 32 16,
    ntok := qf b.q2 48 7, q2z := qf b.q2 55 9, q3 := b.q3 }

/-! ### Opcode maps (R58, R62 to R66) -/

def ldTable : List (Nat × (Hdr → LdArgs → Instr)) :=
  [(0x01, .ldTile), (0x02, .ldGather), (0x03, .ldMcast), (0x04, .ldBmv), (0x05, .ldBpn), (0x06, .ldCvt),
   (0x07, .ldPref), (0x08, .ldMove), (0x09, .ldFill)]

def stTable : List (Nat × (Hdr → StArgs → Instr)) :=
  [(0x01, .stTile), (0x02, .stScat), (0x03, .stBmv), (0x04, .stDtile), (0x05, .stDscat), (0x06, .stCvt),
   (0x07, .stWb), (0x08, .stFlush)]

def mxTable : List (Nat × (Hdr → MxArgs → Instr)) :=
  [(0x01, .mmaBf16), (0x02, .mmaFp8), (0x03, .mmaI8), (0x04, .mmaQ4), (0x05, .mvBf16), (0x06, .mvFp8), (0x07, .mvI8),
   (0x08, .mvQ4), (0x10, .accZero), (0x11, .accLd), (0x12, .accSt), (0x13, .accScale)]

def vxTable1 : List (Nat × (Hdr → VxArgs → Instr)) :=
  [(0x01, .vxVld), (0x02, .vxVst), (0x03, .vxVldk), (0x04, .vxVstk), (0x05, .vxMov), (0x06, .vxMovi),
   (0x07, .vxIota), (0x08, .vxPjLd), (0x10, .vxAdd), (0x11, .vxSub), (0x12, .vxAdds), (0x13, .vxSubs),
   (0x14, .vxMul), (0x15, .vxMulh), (0x16, .vxMin), (0x17, .vxMax), (0x18, .vxAbs), (0x19, .vxDot), (0x1A, .vxDots),
   (0x1B, .vxMadd), (0x20, .vxAnd), (0x21, .vxOr), (0x22, .vxXor), (0x23, .vxAndn)]

def vxTable2 : List (Nat × (Hdr → VxArgs → Instr)) :=
  [(0x24, .vxSll), (0x25, .vxSrl), (0x26, .vxSra), (0x27, .vxRol), (0x28, .vxPopc), (0x29, .vxClz), (0x30, .vxCmpEq),
   (0x31, .vxCmpNe), (0x32, .vxCmpLt), (0x33, .vxCmpLe), (0x34, .vxCmpLtu), (0x35, .vxCmpLeu), (0x36, .vxSel),
   (0x37, .vxCsel), (0x38, .vxKand), (0x39, .vxKor), (0x3A, .vxKxor), (0x3B, .vxKnot), (0x3C, .vxKmov),
   (0x3D, .vxKpop), (0x40, .vxPerm), (0x41, .vxBcast), (0x42, .vxSlideup), (0x43, .vxSlidedn)]

def vxTable3 : List (Nat × (Hdr → VxArgs → Instr)) :=
  [(0x44, .vxZip), (0x45, .vxUnzip), (0x46, .vxProj), (0x48, .vxRsum), (0x49, .vxRmax), (0x4A, .vxRmin),
   (0x4B, .vxRargmax), (0x4C, .vxRargmin), (0x4D, .vxRand), (0x4E, .vxRor), (0x50, .vxFadd), (0x51, .vxFsub),
   (0x52, .vxFmul), (0x53, .vxFfma), (0x54, .vxFmin), (0x55, .vxFmax), (0x56, .vxFdiv), (0x57, .vxFsqrt),
   (0x58, .vxFrsq), (0x59, .vxFcmpEq), (0x5A, .vxFcmpLt), (0x5B, .vxFcmpLe), (0x5C, .vxFcmpUn), (0x5D, .vxFabs)]

def vxTable4 : List (Nat × (Hdr → VxArgs → Instr)) :=
  [(0x60, .vxCvt), (0x61, .vxQzL8), (0x62, .vxDqL8), (0x63, .vxBps), (0x64, .vxBpm), (0x65, .vxScacc),
   (0x66, .vxFrsum)]

def vxTable : List (Nat × (Hdr → VxArgs → Instr)) := vxTable1 ++ vxTable2 ++ vxTable3 ++ vxTable4

def ctTable : List (Nat × (Hdr → CtArgs → Instr)) :=
  [(0x01, .ctMax), (0x02, .ctExpsum), (0x03, .ctScale), (0x04, .ctSoftmax), (0x05, .ctRmsnorm), (0x06, .ctLayernorm),
   (0x07, .ctSumsq)]

def tvTable : List (Nat × (Hdr → TvArgs → Instr)) :=
  [(0x01, .tvOpen), (0x02, .tvBlk), (0x03, .tvSeal), (0x04, .tvCancel), (0x05, .tvStat), (0x06, .tvAcq),
   (0x07, .tvDisc), (0x08, .tvFree)]

def byCode {α : Type} (t : List (Nat × α)) (k : Nat) : Option α := (t.find? fun r => r.1 == k).map (·.2)

/-- The commands of every engine: their words hold nothing but a buffer and a count (R58). -/
def commonOf (e : Eng) (opc : Nat) (h : Hdr) (b : Body) : Option Instr :=
  let a : CbArgs := { cb := qf b.q1 0 5, m := qf b.q1 16 9 }
  if b.md ≠ 0#15 ∨ b.q2 ≠ 0#64 ∨ b.q3 ≠ 0#64 then none
  else if opc = 0xF0 then when1 (b.q1 == 0#64) (.nop e h)
  else if qf b.q1 5 11 ≠ 0#11 ∨ qf b.q1 25 39 ≠ 0#39 then none
  else if opc = 0xF1 then some (.cbRelCommand e h a)
  else if opc = 0xF2 then some (.cbClaimCommand e h a)
  else if opc = 0xF3 then some (.cbPushCommand e h a)
  else if opc = 0xF4 then some (.cbTakeCommand e h a)
  else none

/-- A command word as a ring of engine `e` reads it; none where ENG is another engine's or reserved, or OPC is reserved. -/
def commandOf (e : Eng) (q0 q1 q2 q3 : W64) : Option Instr :=
  let h := hdrOf q0
  let b := bodyOf q0 q1 q2 q3
  let opc := (qf q0 56 8).toNat
  if (qf q0 52 4).toNat ≠ e.num then none
  else if 0xF0 ≤ opc then commonOf e opc h b
  else match e with
    | .ld => (byCode ldTable opc).map fun f => f h (ldArgsOf b)
    | .st => (byCode stTable opc).map fun f => f h (stArgsOf b)
    | .mx => (byCode mxTable opc).map fun f => f h (mxArgsOf b)
    | .vx => (byCode vxTable opc).map fun f => f h (vxArgsOf b)
    | .ct => (byCode ctTable opc).map fun f => f h (ctArgsOf b)
    | .tv =>
      let a := tvArgsOf b
      if opc = 0x04 ∧ a.fin then some (.tvCancelFin h a) else (byCode tvTable opc).map fun f => f h a

/-- A command word by the engine that its own ENG field names, legal as far as the word itself determines. -/
def decodeCommand (q0 q1 q2 q3 : W64) : Option Instr :=
  match Eng.ofNum (qf q0 52 4).toNat with
  | none => none
  | some e => match commandOf e q0 q1 q2 q3 with
    | some i => when1 i.legal i
    | none => none

/-! ### The whole decoder -/

/-- The words of an instruction: of the control stream, or a command word. -/
inductive Code where
  | word (w : W32)
  | cmd (q0 q1 q2 q3 : W64)
  deriving DecidableEq, Repr

def decode : Code → Option Instr
  | .word w => decode32 w
  | .cmd q0 q1 q2 q3 => decodeCommand q0 q1 q2 q3

/-- The instruction at the head of a list of bytes of the control stream, and its length (R1: little-endian). -/
def decodeBytes (l : List Byte) : Option (Instr × Nat) :=
  let lo : W16 := BitVec.ofNat 16 (leNat (l.take 2))
  if isLong lo then (decode32 (BitVec.ofNat 32 (leNat (l.take 4)))).map fun i => (i, 4)
  else (decode16 lo).map fun i => (i, 2)

/-- The `k`th quarter of a command word in memory (R55). -/
def quarter (l : List Byte) (k : Nat) : W64 := BitVec.ofNat 64 (leNat ((l.drop (8 * k)).take 8))

/-- A command word in its 32 bytes. -/
def decodeSlotBytes (l : List Byte) : Option Instr := decodeCommand (quarter l 0) (quarter l 1) (quarter l 2) (quarter l 3)

/-- The instruction whose bits are `w`, of which the table numbers `nbits`: a control instruction of 16 or 32 bits, or a
command word. -/
def decodeTableWord (nbits w : Nat) : Option Instr :=
  let l := leBytes 32 (w % 2 ^ nbits)
  if nbits ≤ 32 then (decodeBytes (l.take 4)).map (·.1) else decodeSlotBytes l

/-! ### The encoder -/

/-- Forms R and E of R50. -/
def encR (f7 : BitVec 7) (rs2 rs1 : Reg) (f3 : BitVec 3) (rd : Reg) (op : BitVec 7) : W32 := f7 ++ rs2 ++ rs1 ++ f3 ++ rd ++ op

def encI (imm : BitVec 12) (rs1 : Reg) (f3 : BitVec 3) (rd : Reg) (op : BitVec 7) : W32 := imm ++ rs1 ++ f3 ++ rd ++ op

def Eng.bits5 (e : Eng) : Reg := BitVec.ofNat 5 e.num

def bit1 (b : Bool) : BitVec 1 := if b then 1#1 else 0#1

/-- `ring.post`. -/
def encPost (e : Eng) (rs1 : Reg) (imm : BitVec 12) (fresh : Bool) : Code :=
  .word (encI imm rs1 0#3 (0#1 ++ bit1 fresh ++ BitVec.ofNat 3 e.num) 0x0B#7)

def enc0 (f3 : BitVec 3) (f7 : BitVec 7) (rd rs1 rs2 : Reg) : Code := .word (encR f7 rs2 rs1 f3 rd 0x0B#7)

def enc1 (op : BitVec 5) (isSc : Bool) (s : Scope) (rd rs1 rs2 : Reg) : Code :=
  .word (encR (op ++ bit1 isSc ++ 0#1) rs2 rs1 (BitVec.ofNat 3 s.num) rd 0x2B#7)

def enc2 (f7 : BitVec 7) (rd rs1 rs2 : Reg) : Code := .word (encR f7 rs2 rs1 0#3 rd 0x5B#7)

def BranchOp.f3 : BranchOp → BitVec 3
  | .beq => 0#3 | .bne => 1#3 | .blt => 4#3 | .bge => 5#3 | .bltu => 6#3 | .bgeu => 7#3

def MemKind.f3 : MemKind → BitVec 3
  | .b => 0#3 | .h => 1#3 | .w => 2#3 | .d => 3#3 | .bu => 4#3 | .hu => 5#3 | .wu => 6#3

def ImmOp.f3 : ImmOp → BitVec 3
  | .addi => 0#3 | .slti => 2#3 | .sltiu => 3#3 | .xori => 4#3 | .ori => 6#3 | .andi => 7#3

/-- funct7, funct3 and the opcode of a register-register operation. -/
def AluOp.fields : AluOp → BitVec 7 × BitVec 3 × BitVec 7
  | .add => (0x00#7, 0#3, 0x33#7) | .sub => (0x20#7, 0#3, 0x33#7) | .sll => (0x00#7, 1#3, 0x33#7)
  | .slt => (0x00#7, 2#3, 0x33#7) | .sltu => (0x00#7, 3#3, 0x33#7) | .xor => (0x00#7, 4#3, 0x33#7)
  | .srl => (0x00#7, 5#3, 0x33#7) | .sra => (0x20#7, 5#3, 0x33#7) | .or => (0x00#7, 6#3, 0x33#7)
  | .and => (0x00#7, 7#3, 0x33#7) | .mul => (0x01#7, 0#3, 0x33#7) | .mulh => (0x01#7, 1#3, 0x33#7)
  | .mulhsu => (0x01#7, 2#3, 0x33#7) | .mulhu => (0x01#7, 3#3, 0x33#7) | .div => (0x01#7, 4#3, 0x33#7)
  | .divu => (0x01#7, 5#3, 0x33#7) | .rem => (0x01#7, 6#3, 0x33#7) | .remu => (0x01#7, 7#3, 0x33#7)
  | .sh1add => (0x10#7, 2#3, 0x33#7) | .sh2add => (0x10#7, 4#3, 0x33#7) | .sh3add => (0x10#7, 6#3, 0x33#7)
  | .addUw => (0x04#7, 0#3, 0x3B#7) | .sh1addUw => (0x10#7, 2#3, 0x3B#7) | .sh2addUw => (0x10#7, 4#3, 0x3B#7)
  | .sh3addUw => (0x10#7, 6#3, 0x3B#7) | .andn => (0x20#7, 7#3, 0x33#7) | .orn => (0x20#7, 6#3, 0x33#7)
  | .xnor => (0x20#7, 4#3, 0x33#7) | .max => (0x05#7, 6#3, 0x33#7) | .maxu => (0x05#7, 7#3, 0x33#7)
  | .min => (0x05#7, 4#3, 0x33#7) | .minu => (0x05#7, 5#3, 0x33#7) | .rol => (0x30#7, 1#3, 0x33#7)
  | .ror => (0x30#7, 5#3, 0x33#7)

def AluWOp.fields : AluWOp → BitVec 7 × BitVec 3
  | .addw => (0x00#7, 0#3) | .subw => (0x20#7, 0#3) | .sllw => (0x00#7, 1#3) | .srlw => (0x00#7, 5#3)
  | .sraw => (0x20#7, 5#3) | .mulw => (0x01#7, 0#3) | .divw => (0x01#7, 4#3) | .divuw => (0x01#7, 5#3)
  | .remw => (0x01#7, 6#3) | .remuw => (0x01#7, 7#3) | .rolw => (0x30#7, 1#3) | .rorw => (0x30#7, 5#3)

/-- The immediate, funct3 and opcode of a one-operand operation. -/
def UnOp.fields : UnOp → BitVec 12 × BitVec 3 × BitVec 7
  | .clz => (0x600#12, 1#3, 0x13#7) | .ctz => (0x601#12, 1#3, 0x13#7) | .cpop => (0x602#12, 1#3, 0x13#7)
  | .clzw => (0x600#12, 1#3, 0x1B#7) | .ctzw => (0x601#12, 1#3, 0x1B#7) | .cpopw => (0x602#12, 1#3, 0x1B#7)
  | .sextB => (0x604#12, 1#3, 0x13#7) | .sextH => (0x605#12, 1#3, 0x13#7) | .zextH => (0x080#12, 4#3, 0x3B#7)
  | .rev8 => (0x6B8#12, 5#3, 0x13#7) | .orcB => (0x287#12, 5#3, 0x13#7)

def ShiftOp.fields : ShiftOp → BitVec 6 × BitVec 3 × BitVec 7
  | .slli => (0x00#6, 1#3, 0x13#7) | .srli => (0x00#6, 5#3, 0x13#7) | .srai => (0x10#6, 5#3, 0x13#7)
  | .rori => (0x18#6, 5#3, 0x13#7) | .slliUw => (0x02#6, 1#3, 0x1B#7)

def ShiftWOp.fields : ShiftWOp → BitVec 7 × BitVec 3
  | .slliw => (0x00#7, 1#3) | .srliw => (0x00#7, 5#3) | .sraiw => (0x20#7, 5#3) | .roriw => (0x30#7, 5#3)

def AtOp.f5 : AtOp → BitVec 5
  | .lr => 0x02#5 | .sc => 0x03#5 | .swap => 0x01#5 | .add => 0x00#5 | .xor => 0x04#5 | .and => 0x0C#5 | .or => 0x08#5
  | .min => 0x10#5 | .max => 0x14#5 | .minu => 0x18#5 | .maxu => 0x1C#5

def CsrOp.f2 : CsrOp → BitVec 2
  | .rw => 1#2 | .rs => 2#2 | .rc => 3#2

def SysOp.imm : SysOp → BitVec 12
  | .ecall => 0x000#12 | .ebreak => 0x001#12 | .sret => 0x102#12 | .mret => 0x302#12 | .wfi => 0x105#12

def Rv.encode : Rv → W32
  | .lui rd i => i ++ rd ++ 0x37#7
  | .auipc rd i => i ++ rd ++ 0x17#7
  | .jal rd o => o.extractLsb' 19 1 ++ o.extractLsb' 0 10 ++ o.extractLsb' 10 1 ++ o.extractLsb' 11 8 ++ rd ++ 0x6F#7
  | .jalr rd a i => encI i a 0#3 rd 0x67#7
  | .branch op a b o =>
    o.extractLsb' 11 1 ++ o.extractLsb' 4 6 ++ b ++ a ++ op.f3 ++ o.extractLsb' 0 4 ++ o.extractLsb' 10 1 ++ 0x63#7
  | .imm op rd a i => encI i a op.f3 rd 0x13#7
  | .addiw rd a i => encI i a 0#3 rd 0x1B#7
  | .shift op rd a sh => op.fields.1 ++ sh ++ a ++ op.fields.2.1 ++ rd ++ op.fields.2.2
  | .shiftw op rd a sh => encR op.fields.1 sh a op.fields.2 rd 0x1B#7
  | .un op rd a => encI op.fields.1 a op.fields.2.1 rd op.fields.2.2
  | .alu op rd a b => encR op.fields.1 b a op.fields.2.1 rd op.fields.2.2
  | .aluw op rd a b => encR op.fields.1 b a op.fields.2 rd 0x3B#7
  | .csr op rd a n => encI n a (0#1 ++ op.f2) rd 0x73#7
  | .csri op rd u n => encI n u (1#1 ++ op.f2) rd 0x73#7
  | .sys op => encI op.imm 0#5 0#3 0#5 0x73#7
  | .fencei => encI 0#12 0#5 1#3 0#5 0x0F#7

/-- Q0 without OPC, ENG and MOD. -/
def Hdr.pack (h : Hdr) : BitVec 37 :=
  h.wsem ++ bit1 h.wen ++ h.rsem ++ bit1 h.ren ++ h.bound ++ h.rnd ++ h.ovf ++ bit1 h.spec

def LdArgs.pack (a : LdArgs) : Body :=
  { md := a.cs ++ bit1 a.tr ++ a.span ++ bit1 a.dcen ++ a.rreg ++ bit1 a.rft ++ a.res
    q1 := a.q1hi ++ a.dst
    q2 := a.q2z ++ a.stype ++ a.dctr ++ a.cnt2 ++ a.cnt1 ++ a.len0
    q3 := a.q3 }

def StArgs.pack (a : StArgs) : Body :=
  { md := a.gz ++ a.z1110 ++ a.span ++ bit1 a.dcen ++ a.z52 ++ a.res
    q1 := a.src ++ a.dst
    q2 := a.q2z ++ a.stype ++ a.dctr ++ a.cnt2 ++ a.cnt1 ++ a.len0
    q3 := a.q3 }

def MxArgs.pack (a : MxArgs) : Body := { md := a.md, q1 := a.q1, q2 := a.q2, q3 := a.q3 }

def VOp.pack (o : VOp) : BitVec 12 := o.reg ++ o.sel ++ o.swz ++ bit1 o.neg

def VxArgs.pack (a : VxArgs) : Body :=
  { md := a.xm ++ a.gz ++ bit1 a.mz ++ a.msk
    q1 := a.kb ++ a.ka ++ a.kd ++ a.vc.pack ++ a.vb.pack ++ a.va.pack ++ a.etype ++ a.z76 ++ a.vd
    q2 := a.q2z ++ a.etype2 ++ a.imm
    q3 := a.q3 }

def CtArgs.pack (a : CtArgs) : Body :=
  { md := a.modz ++ bit1 a.pre ++ bit1 a.causal
    q1 := a.src ++ a.dst
    q2 := a.aux ++ a.q2z ++ a.rows ++ a.len
    q3 := a.row0 ++ a.dtype ++ a.stype ++ a.dpitch ++ a.spitch }

def TvArgs.pack (a : TvArgs) : Body :=
  { md := a.modz ++ bit1 a.fin ++ bit1 a.fe
    q1 := a.stw ++ a.q1zz ++ a.idx ++ a.q1z ++ a.sreg
    q2 := a.q2z ++ a.ntok ++ a.spitch ++ a.src
    q3 := a.q3 }

def CbArgs.pack (a : CbArgs) : Body :=
  { md := 0#15, q1 := 0#39 ++ a.m ++ 0#11 ++ a.cb, q2 := 0#64, q3 := 0#64 }

def cmdWords (e : Eng) (opc : BitVec 8) (h : Hdr) (b : Body) : Code :=
  .cmd (opc ++ BitVec.ofNat 4 e.num ++ h.pack ++ b.md) b.q1 b.q2 b.q3

/-- The words of an instruction; an event has none. -/
def encode : Instr → Option Code
  | .ringPost e i => some (encPost e 0#5 i false)
  | .ringPostReg e a i => some (encPost e a i false)
  | .ringPostFresh e i => some (encPost e 0#5 i true)
  | .ringPostFreshReg e a i => some (encPost e a i true)
  | .ringWait e a => some (enc0 1#3 0x00#7 0#5 a e.bits5)
  | .ringPtr d e => some (enc0 1#3 0x01#7 d 0#5 e.bits5)
  | .semRaise n => some (enc0 1#3 0x02#7 0#5 0#5 n)
  | .semWait n => some (enc0 1#3 0x03#7 0#5 0#5 n)
  | .semRead d n => some (enc0 1#3 0x04#7 d 0#5 n)
  | .semTry d n => some (enc0 1#3 0x05#7 d 0#5 n)
  | .cbCfg n a b => some (enc0 2#3 0x00#7 n a b)
  | .cbClaim n a => some (enc0 2#3 0x01#7 n a 0#5)
  | .cbPush n a => some (enc0 2#3 0x02#7 n a 0#5)
  | .cbTake n a => some (enc0 2#3 0x03#7 n a 0#5)
  | .cbRel n a => some (enc0 2#3 0x04#7 n a 0#5)
  | .cbStat d n => some (enc0 2#3 0x05#7 d 0#5 n)
  | .taskRetire => some (enc0 3#3 0x00#7 0#5 0#5 0#5)
  | .taskAbort => some (enc0 3#3 0x01#7 0#5 0#5 0#5)
  | .taskDirect => some (enc0 3#3 0x02#7 0#5 0#5 0#5)
  | .taskYield => some (enc0 3#3 0x03#7 0#5 0#5 0#5)
  | .condSet a b => some (enc0 4#3 0x00#7 0#5 a b)
  | .depDec a => some (enc0 4#3 0x01#7 0#5 a 0#5)
  | .graphLaunch a => some (enc0 4#3 0x02#7 0#5 a 0#5)
  | .datumRd d => some (enc0 5#3 0x00#7 d 0#5 0#5)
  | .datumWait a => some (enc0 5#3 0x01#7 0#5 a 0#5)
  | .snapTrig => some (enc0 5#3 0x02#7 0#5 0#5 0#5)
  | .snapRd d a => some (enc0 5#3 0x03#7 d a 0#5)
  | .ldAcq c s d a => some (enc1 0x00#5 c s d a 0#5)
  | .sdRel c s b a => some (enc1 0x01#5 c s 0#5 a b)
  | .amoAdd c s d b a => some (enc1 0x02#5 c s d a b)
  | .amoAnd c s d b a => some (enc1 0x03#5 c s d a b)
  | .amoOr c s d b a => some (enc1 0x04#5 c s d a b)
  | .amoXor c s d b a => some (enc1 0x05#5 c s d a b)
  | .amoMax c s d b a => some (enc1 0x06#5 c s d a b)
  | .amoMin c s d b a => some (enc1 0x07#5 c s d a b)
  | .amoSwap c s d b a => some (enc1 0x08#5 c s d a b)
  | .amoCas c s d b a => some (enc1 0x09#5 c s d a b)
  | .fenceScoped s => some (enc1 0x0A#5 false s 0#5 0#5 0#5)
  | .arrive s d a => some (enc1 0x0B#5 false s d a 0#5)
  | .wait s a b => some (enc1 0x0C#5 false s 0#5 a b)
  | .ctxSave a => some (enc2 0x00#7 0#5 a 0#5)
  | .ctxRest a => some (enc2 0x01#7 0#5 a 0#5)
  | .fqRd d a => some (enc2 0x02#7 d a 0#5)
  | .fqPop => some (enc2 0x03#7 0#5 0#5 0#5)
  | .ringCfg e a b => some (enc2 0x04#7 e.bits5 a b)
  | .ringOwn e a => some (enc2 0x05#7 e.bits5 a 0#5)
  | .semSet n a => some (enc2 0x06#7 0#5 a n)
  | .errInj a b => some (enc2 0x07#7 0#5 a b)
  | .standardFence fm p s a d => some (.word (fm ++ p ++ s ++ a ++ 0#3 ++ d ++ 0x0F#7))
  | .standardAtomic op dbl aq rl d a b =>
    some (.word (encR (op.f5 ++ bit1 aq ++ bit1 rl) b a (if dbl then 3#3 else 2#3) d 0x2F#7))
  | .sfenceVma a b => some (.word (encR 0x09#7 b a 0#3 0#5 0x73#7))
  | .controlCoreLoad k d a i => some (.word (encI i a k.f3 d 0x03#7))
  | .controlCoreStore k b a i => some (.word (i.extractLsb' 5 7 ++ b ++ a ++ k.f3 ++ i.extractLsb' 0 5 ++ 0x23#7))
  | .standardInstruction r => some (.word r.encode)
  | .nop e h => some (cmdWords e 0xF0#8 h { md := 0#15, q1 := 0#64, q2 := 0#64, q3 := 0#64 })
  | .cbRelCommand e h a => some (cmdWords e 0xF1#8 h a.pack)
  | .cbClaimCommand e h a => some (cmdWords e 0xF2#8 h a.pack)
  | .cbPushCommand e h a => some (cmdWords e 0xF3#8 h a.pack)
  | .cbTakeCommand e h a => some (cmdWords e 0xF4#8 h a.pack)
  | .ldTile h a => some (cmdWords .ld 0x01#8 h a.pack)
  | .ldGather h a => some (cmdWords .ld 0x02#8 h a.pack)
  | .ldMcast h a => some (cmdWords .ld 0x03#8 h a.pack)
  | .ldBmv h a => some (cmdWords .ld 0x04#8 h a.pack)
  | .ldBpn h a => some (cmdWords .ld 0x05#8 h a.pack)
  | .ldCvt h a => some (cmdWords .ld 0x06#8 h a.pack)
  | .ldPref h a => some (cmdWords .ld 0x07#8 h a.pack)
  | .ldMove h a => some (cmdWords .ld 0x08#8 h a.pack)
  | .ldFill h a => some (cmdWords .ld 0x09#8 h a.pack)
  | .stTile h a => some (cmdWords .st 0x01#8 h a.pack)
  | .stScat h a => some (cmdWords .st 0x02#8 h a.pack)
  | .stBmv h a => some (cmdWords .st 0x03#8 h a.pack)
  | .stDtile h a => some (cmdWords .st 0x04#8 h a.pack)
  | .stDscat h a => some (cmdWords .st 0x05#8 h a.pack)
  | .stCvt h a => some (cmdWords .st 0x06#8 h a.pack)
  | .stWb h a => some (cmdWords .st 0x07#8 h a.pack)
  | .stFlush h a => some (cmdWords .st 0x08#8 h a.pack)
  | .mmaBf16 h a => some (cmdWords .mx 0x01#8 h a.pack)
  | .mmaFp8 h a => some (cmdWords .mx 0x02#8 h a.pack)
  | .mmaI8 h a => some (cmdWords .mx 0x03#8 h a.pack)
  | .mmaQ4 h a => some (cmdWords .mx 0x04#8 h a.pack)
  | .mvBf16 h a => some (cmdWords .mx 0x05#8 h a.pack)
  | .mvFp8 h a => some (cmdWords .mx 0x06#8 h a.pack)
  | .mvI8 h a => some (cmdWords .mx 0x07#8 h a.pack)
  | .mvQ4 h a => some (cmdWords .mx 0x08#8 h a.pack)
  | .accZero h a => some (cmdWords .mx 0x10#8 h a.pack)
  | .accLd h a => some (cmdWords .mx 0x11#8 h a.pack)
  | .accSt h a => some (cmdWords .mx 0x12#8 h a.pack)
  | .accScale h a => some (cmdWords .mx 0x13#8 h a.pack)
  | .vxVld h a => some (cmdWords .vx 0x01#8 h a.pack)
  | .vxVst h a => some (cmdWords .vx 0x02#8 h a.pack)
  | .vxVldk h a => some (cmdWords .vx 0x03#8 h a.pack)
  | .vxVstk h a => some (cmdWords .vx 0x04#8 h a.pack)
  | .vxMov h a => some (cmdWords .vx 0x05#8 h a.pack)
  | .vxMovi h a => some (cmdWords .vx 0x06#8 h a.pack)
  | .vxIota h a => some (cmdWords .vx 0x07#8 h a.pack)
  | .vxPjLd h a => some (cmdWords .vx 0x08#8 h a.pack)
  | .vxAdd h a => some (cmdWords .vx 0x10#8 h a.pack)
  | .vxSub h a => some (cmdWords .vx 0x11#8 h a.pack)
  | .vxAdds h a => some (cmdWords .vx 0x12#8 h a.pack)
  | .vxSubs h a => some (cmdWords .vx 0x13#8 h a.pack)
  | .vxMul h a => some (cmdWords .vx 0x14#8 h a.pack)
  | .vxMulh h a => some (cmdWords .vx 0x15#8 h a.pack)
  | .vxMin h a => some (cmdWords .vx 0x16#8 h a.pack)
  | .vxMax h a => some (cmdWords .vx 0x17#8 h a.pack)
  | .vxAbs h a => some (cmdWords .vx 0x18#8 h a.pack)
  | .vxDot h a => some (cmdWords .vx 0x19#8 h a.pack)
  | .vxDots h a => some (cmdWords .vx 0x1A#8 h a.pack)
  | .vxMadd h a => some (cmdWords .vx 0x1B#8 h a.pack)
  | .vxAnd h a => some (cmdWords .vx 0x20#8 h a.pack)
  | .vxOr h a => some (cmdWords .vx 0x21#8 h a.pack)
  | .vxXor h a => some (cmdWords .vx 0x22#8 h a.pack)
  | .vxAndn h a => some (cmdWords .vx 0x23#8 h a.pack)
  | .vxSll h a => some (cmdWords .vx 0x24#8 h a.pack)
  | .vxSrl h a => some (cmdWords .vx 0x25#8 h a.pack)
  | .vxSra h a => some (cmdWords .vx 0x26#8 h a.pack)
  | .vxRol h a => some (cmdWords .vx 0x27#8 h a.pack)
  | .vxPopc h a => some (cmdWords .vx 0x28#8 h a.pack)
  | .vxClz h a => some (cmdWords .vx 0x29#8 h a.pack)
  | .vxCmpEq h a => some (cmdWords .vx 0x30#8 h a.pack)
  | .vxCmpNe h a => some (cmdWords .vx 0x31#8 h a.pack)
  | .vxCmpLt h a => some (cmdWords .vx 0x32#8 h a.pack)
  | .vxCmpLe h a => some (cmdWords .vx 0x33#8 h a.pack)
  | .vxCmpLtu h a => some (cmdWords .vx 0x34#8 h a.pack)
  | .vxCmpLeu h a => some (cmdWords .vx 0x35#8 h a.pack)
  | .vxSel h a => some (cmdWords .vx 0x36#8 h a.pack)
  | .vxCsel h a => some (cmdWords .vx 0x37#8 h a.pack)
  | .vxKand h a => some (cmdWords .vx 0x38#8 h a.pack)
  | .vxKor h a => some (cmdWords .vx 0x39#8 h a.pack)
  | .vxKxor h a => some (cmdWords .vx 0x3A#8 h a.pack)
  | .vxKnot h a => some (cmdWords .vx 0x3B#8 h a.pack)
  | .vxKmov h a => some (cmdWords .vx 0x3C#8 h a.pack)
  | .vxKpop h a => some (cmdWords .vx 0x3D#8 h a.pack)
  | .vxPerm h a => some (cmdWords .vx 0x40#8 h a.pack)
  | .vxBcast h a => some (cmdWords .vx 0x41#8 h a.pack)
  | .vxSlideup h a => some (cmdWords .vx 0x42#8 h a.pack)
  | .vxSlidedn h a => some (cmdWords .vx 0x43#8 h a.pack)
  | .vxZip h a => some (cmdWords .vx 0x44#8 h a.pack)
  | .vxUnzip h a => some (cmdWords .vx 0x45#8 h a.pack)
  | .vxProj h a => some (cmdWords .vx 0x46#8 h a.pack)
  | .vxRsum h a => some (cmdWords .vx 0x48#8 h a.pack)
  | .vxRmax h a => some (cmdWords .vx 0x49#8 h a.pack)
  | .vxRmin h a => some (cmdWords .vx 0x4A#8 h a.pack)
  | .vxRargmax h a => some (cmdWords .vx 0x4B#8 h a.pack)
  | .vxRargmin h a => some (cmdWords .vx 0x4C#8 h a.pack)
  | .vxRand h a => some (cmdWords .vx 0x4D#8 h a.pack)
  | .vxRor h a => some (cmdWords .vx 0x4E#8 h a.pack)
  | .vxFadd h a => some (cmdWords .vx 0x50#8 h a.pack)
  | .vxFsub h a => some (cmdWords .vx 0x51#8 h a.pack)
  | .vxFmul h a => some (cmdWords .vx 0x52#8 h a.pack)
  | .vxFfma h a => some (cmdWords .vx 0x53#8 h a.pack)
  | .vxFmin h a => some (cmdWords .vx 0x54#8 h a.pack)
  | .vxFmax h a => some (cmdWords .vx 0x55#8 h a.pack)
  | .vxFdiv h a => some (cmdWords .vx 0x56#8 h a.pack)
  | .vxFsqrt h a => some (cmdWords .vx 0x57#8 h a.pack)
  | .vxFrsq h a => some (cmdWords .vx 0x58#8 h a.pack)
  | .vxFcmpEq h a => some (cmdWords .vx 0x59#8 h a.pack)
  | .vxFcmpLt h a => some (cmdWords .vx 0x5A#8 h a.pack)
  | .vxFcmpLe h a => some (cmdWords .vx 0x5B#8 h a.pack)
  | .vxFcmpUn h a => some (cmdWords .vx 0x5C#8 h a.pack)
  | .vxFabs h a => some (cmdWords .vx 0x5D#8 h a.pack)
  | .vxCvt h a => some (cmdWords .vx 0x60#8 h a.pack)
  | .vxQzL8 h a => some (cmdWords .vx 0x61#8 h a.pack)
  | .vxDqL8 h a => some (cmdWords .vx 0x62#8 h a.pack)
  | .vxBps h a => some (cmdWords .vx 0x63#8 h a.pack)
  | .vxBpm h a => some (cmdWords .vx 0x64#8 h a.pack)
  | .vxScacc h a => some (cmdWords .vx 0x65#8 h a.pack)
  | .vxFrsum h a => some (cmdWords .vx 0x66#8 h a.pack)
  | .ctMax h a => some (cmdWords .ct 0x01#8 h a.pack)
  | .ctExpsum h a => some (cmdWords .ct 0x02#8 h a.pack)
  | .ctScale h a => some (cmdWords .ct 0x03#8 h a.pack)
  | .ctSoftmax h a => some (cmdWords .ct 0x04#8 h a.pack)
  | .ctRmsnorm h a => some (cmdWords .ct 0x05#8 h a.pack)
  | .ctLayernorm h a => some (cmdWords .ct 0x06#8 h a.pack)
  | .ctSumsq h a => some (cmdWords .ct 0x07#8 h a.pack)
  | .tvOpen h a => some (cmdWords .tv 0x01#8 h a.pack)
  | .tvBlk h a => some (cmdWords .tv 0x02#8 h a.pack)
  | .tvSeal h a => some (cmdWords .tv 0x03#8 h a.pack)
  | .tvCancel h a => some (cmdWords .tv 0x04#8 h a.pack)
  | .tvCancelFin h a => some (cmdWords .tv 0x04#8 h a.pack)
  | .tvStat h a => some (cmdWords .tv 0x05#8 h a.pack)
  | .tvAcq h a => some (cmdWords .tv 0x06#8 h a.pack)
  | .tvDisc h a => some (cmdWords .tv 0x07#8 h a.pack)
  | .tvFree h a => some (cmdWords .tv 0x08#8 h a.pack)
  | _ => none

end Sys2Proof
end

