-- ==== Sys2Proof/Machine/Control.lean ====
section
/-! DEFINITION. The custom-0 and custom-1 instructions of the control core (R51, R52, R288 to R303). -/
namespace Sys2Proof.Machine

/-- Trap of class 26, synchronisation (R347). -/
def syncTrap {α : Type} (cause tval : Nat) : M α := trapM 26 tval cause 0

def State.x (s : State) (a : Agent) (r : Reg) : W64 := (s.hart a).get r

/-! ### Waits (R288) -/

/-- Rings of a core that are halted, as a mask (R347, cause 22). -/
def Core.haltMask (c : Core) : Nat := Eng.all.foldl (fun m e => m + (b2n (c.ring e).halted <<< e.num)) 0

def Core.ringsEmpty (c : Core) : Bool := Eng.all.all fun e => (c.ring e).write == (c.ring e).retire

/-- Publish what core `n` has staged, apply the deferred decrements and submit the launches (R36, R38). -/
def publishAll (n : Nat) : M Unit := do
  let s ← get
  let g := (s.core n).staging
  M.asPublish (publishLines n)
  modify fun s => s.discardStaging n
  modify fun s => g.decs.foldl (fun u d => (List.range d.2).foldl (fun u _ => u.decrementCtr (dieOf n) d.1 false) u) s
  g.launches.forM fun l => launchPacket l.1 l.2

/-- The end of `task.retire` once every ring is empty (R36, R111, R300): publish, apply the deferred decrements, submit the
launches, report the node retired; the core becomes idle. -/
def retireNow (n : Nat) : M Unit := do
  let s ← get
  match (s.core n).task with
  | none => illegal
  | some t =>
    publishAll n
    modify fun s =>
      let s := s.modCore n Core.toIdle
      let s := s.decLive t.stream
      (s.completeNode t.inst t.node).mapDie (dieOf n)

/-- Try to complete a waiting instruction: where its condition holds, all its effects; where not, it waits. -/
def tryWait (a : Agent) (k : WaitKind) : M Unit := do
  let s ← get
  match a, k with
  | _, .datum t => if s.datumOf a < t then throw (.wait k)
  | .core n, .ring e x =>
    let r := (s.core n).ring e
    if x < (r.write - r.retire).toNat then throw (.wait k)
  | .core n, .sem i =>
    let c := s.core n
    if (c.sem i).toNat ≤ (c.awaiters i).length then throw (.wait k)
    modify fun s => s.setCore n (c.setSem i (c.sem i - 1))
  | .core n, .cbClaim i m =>
    let c := s.core n
    let b := c.cb i
    if b.free < m + c.claimers i b.free false then throw (.wait k)
    let b' := { b with free := b.free - m, inflight := b.inflight + m, prod := (b.prod + m) % b.count, ccClm := b.ccClm + m }
    modify fun s => s.setCore n (c.setCb i b')
  | .core n, .cbTake i m =>
    let c := s.core n
    let b := c.cb i
    if b.filled < m + c.claimers i b.filled true then throw (.wait k)
    let b' := { b with filled := b.filled - m, held := b.held + m, cons := (b.cons + m) % b.count }
    modify fun s => s.setCore n (c.setCb i b')
  | .core n, .barrier sc va ph =>
    let w ← M.asAccess .load va do
      let p ← translateHart a .load va
      let s ← get
      match s.loc p.pa with
      | .mmio _ => trapM 7 va
      | _ => do
        let sc := s.effScope p.pa sc
        if s.heldBack n p.pa sc then throw (.wait k)
        loadOrder (.core n) p 8
        let l ← readRun (reqOf (.cc n) p.home 0) p.pa 8
        if (bits (leNat l) 32 32 == 1) ≠ ph then modify fun s => s.acquireAt n sc p.pa
        pure l
    if (bits (leNat w) 32 32 == 1) = ph then throw (.wait k)
  | .core n, .retire =>
    let c := s.core n
    if c.haltMask ≠ 0 then trapM 27 c.haltMask 22 0
    if c.ringsEmpty = false then throw (.wait k)
    retireNow n
  | .core n, .yield_ =>
    if s.abortsInstead n = false ∧ (s.core n).quiet = false then throw (.wait k)
  | _, _ => illegal

/-- A waiting instruction. -/
def waiting (a : Agent) (k : WaitKind) : M (Option W64) := do
  tryWait a k
  pure none

/-- `task.retire` never returns: its core stays where it is, idle or taken by its next task. -/
def retiring (n : Nat) : M (Option W64) := do
  let s ← get
  let pc := (s.core n).hart.pc
  tryWait (.core n) .retire
  pure (some pc)

/-- What stval names on a wait overrun (R347): a semaphore, buffer or ring; for the other waits the spec names nothing, and
the value is free (log 2). -/
def overrunVal : WaitKind → M Nat
  | .ring e _ => pure e.num
  | .sem n => pure n
  | .cbClaim n _ => pure n
  | .cbTake n _ => pure n
  | _ => do pure (← freshWord).toNat

/-- The wait limit of a hart (R288, R310). -/
def Hart.waitLimit (h : Hart) : Nat := bits (h.csrRaw 0x801).toNat 39 0

/-- Is the wait at its limit? `datum.wait` has none, and `task.yield` is no waiting instruction. -/
def Hart.overrun (h : Hart) (now : Nat) : Bool :=
  match h.wait with
  | some w => (match w.kind with
      | .datum _ => false
      | .yield_ => false
      | _ => true) && h.waitLimit != 0 && decide (w.since + h.waitLimit ≤ now)
  | none => false

/-- Does the wait of an agent end at its limit: it has reached it, and a `task.retire` is still in its step 1, its rings not yet
empty (R288)? -/
def State.waitOver (s : State) (a : Agent) : Bool :=
  (s.hart a).overrun s.now && !(match a, (s.hart a).wait with
    | .core n, some w => w.kind == .retire && (s.core n).ringsEmpty
    | _, _ => false)

/-- The wait reaches its limit: the trap "wait overrun", and nothing performed (R288). -/
def waitOverrunOp (a : Agent) : M (Option W64) := do
  let s ← get
  match (s.hart a).wait with
  | none => throw .stall
  | some w =>
    if s.waitOver a = false then throw .stall
    let v ← overrunVal w.kind
    syncTrap 21 v

/-! ### Rings (R26, R289, R290) -/

/-- A FRESH post asks for the drop of MX's descriptor copies, before any slot that it releases starts: `first` names the first, where
there is one (R224). -/
def Core.dropCopies (c : Core) (first : List (Nat × W32)) : Core :=
  ({ c with dropDue := true, dropFor := c.dropFor ++ first } : Core).dropIfDue

/-- `ring.post` (R26, R289). -/
def postOp (e : Eng) (rs1 : Reg) (imm : BitVec 12) (fresh : Bool) (n : Nat) : M (Option W64) := do
  let s ← get
  let c := s.core n
  let h := c.hart
  let k := (h.get rs1 + imm.signExtend 64).toNat
  let r := c.ring e
  if h.priv = .u ∧ r.owner then illegal
  let drop := fun (s : State) => if fresh then s.modCore n fun c => c.dropCopies (if k = 0 then [] else [(e.num, r.write)]) else s
  if k = 0 then
    modify drop
    pure none
  else
    let used := fun (e : Eng) => ((c.ring e).write - (c.ring e).retire).toNat
    if r.size - used e < k then syncTrap 25 e.num
    if (e = .ld ∨ e = .st) ∧ 1024 < used .ld + used .st + k then syncTrap 25 e.num
    drainAll n
    let o : Origin := { pc := h.pc, a := h.args, satp := h.csrRaw 0x180, ctx := (s.recCtx n).1 }
    modify fun s => drop (s.modCore n fun c =>
      let r := c.ring e
      let org := (List.range k).foldl (fun t i => Table.put Origin.empty t (r.write + BitVec.ofNat 32 i).toNat o) r.org
      c.setRing e { r with write := r.write + BitVec.ofNat 32 k, org := org })
    pure none

/-! ### Semaphores (R30, R291) -/

/-- `sem.raise`: a release at core scope. -/
def semRaiseOp (i n : Nat) : M (Option W64) := do
  let s ← get
  if (s.core n).sem i = 0xFFFF#16 then syncTrap 18 i
  drainAll n
  modify fun s => s.modCore n fun c => c.setSem i (c.sem i + 1)
  pure none

/-- `sem.try`. -/
def semTryOp (rd : Reg) (i n : Nat) : M (Option W64) := do
  let s ← get
  let c := s.core n
  if c.sem i = 0 then finReg (.core n) rd 0
  else
    modify fun s => s.setCore n (c.setSem i (c.sem i - 1))
    finReg (.core n) rd 1

/-! ### Circular buffers (R31, R292, R293) -/

/-- `cb.cfg` (R54, R292). -/
def cbCfgOp (i : Nat) (rs1 rs2 : Reg) (n : Nat) : M (Option W64) := do
  let s ← get
  let c := s.core n
  let x1 := (c.hart.get rs1).toNat
  let x2 := (c.hart.get rs2).toNat
  let b := c.cb i
  if bits x1 63 23 ≠ 0 ∨ 10 < bits x2 3 0 ∨ bits x2 15 8 + 1 < 2 ∨ b.held ≠ 0 ∨ b.inflight ≠ 0 then illegal
  let k := bits x2 15 8 + 1
  let b' : Cb := { configured := true, base := bits x1 22 0, sizeCode := bits x2 3 0, count := k, free := k, filled := 0,
                   held := 0, inflight := 0, prod := 0, cons := 0, ccClm := 0, clm := [] }
  modify fun s => s.setCore n (c.setCb i b')
  pure none

/-- The checks of the buffer instructions: a configured buffer, and for a claim or take no more than the slot count. -/
def cbCheck (i n m : Nat) (limit : Bool) : M Cb := do
  let s ← get
  let b := (s.core n).cb i
  if b.configured = false then illegal
  if limit ∧ b.count < m then illegal
  pure b

def cbWaitOp (i : Nat) (rs1 : Reg) (take : Bool) (n : Nat) : M (Option W64) := do
  let s ← get
  let m := ((s.core n).hart.get rs1).toNat
  let _ ← cbCheck i n m true
  if m = 0 then pure none
  else waiting (.core n) (if take then .cbTake i m else .cbClaim i m)

/-- `cb.push`: producer completion, a release at core scope. -/
def cbPushOp (i : Nat) (rs1 : Reg) (n : Nat) : M (Option W64) := do
  let s ← get
  let m := ((s.core n).hart.get rs1).toNat
  let b ← cbCheck i n m false
  if b.ccClm < m then illegal
  if m = 0 then pure none
  else
    drainAll n
    let b' := { b with inflight := b.inflight - m, filled := b.filled + m, ccClm := b.ccClm - m }
    modify fun s => s.modCore n fun c => c.setCb i b'
    pure none

/-- `cb.rel`: a release at core scope. -/
def cbRelOp (i : Nat) (rs1 : Reg) (n : Nat) : M (Option W64) := do
  let s ← get
  let m := ((s.core n).hart.get rs1).toNat
  let b ← cbCheck i n m false
  if b.held < m then illegal
  if m = 0 then pure none
  else
    drainAll n
    modify fun s => s.modCore n fun c => c.setCb i { b with held := b.held - m, free := b.free + m }
    pure none

/-- What `cb.stat` reads (R51): an unconfigured buffer reads 0. -/
def Cb.stat (b : Cb) : W64 :=
  BitVec.ofNat 64 (b.free + b.filled * 2 ^ 16 + b.held * 2 ^ 32 + b.inflight * 2 ^ 48)

/-! ### Tasks (R300) -/

/-- The task a core holds and runs. -/
def heldTask (n : Nat) : M TaskSt := do
  let s ← get
  let c := s.core n
  match c.task with
  | some t => if c.suspended then illegal else pure t
  | none => illegal

/-- `task.retire` (R36, R300). -/
def taskRetireOp (n : Nat) : M (Option W64) := do
  let _ ← heldTask n
  retiring n

/-- `task.abort` (R37, R300). -/
def taskAbortOp (n : Nat) : M (Option W64) := do
  let t ← heldTask n
  if t.pinned then illegal
  let s ← get
  let pc := (s.core n).hart.pc
  modify fun s => (s.abortTask n).mapDie (dieOf n)
  pure (some pc)

/-- `task.direct` (R38): the staged output is published, and the task is pinned. -/
def taskDirectOp (n : Nat) : M (Option W64) := do
  let t ← heldTask n
  if t.pinned then pure none
  else
    if t.susp = false then illegal
    publishAll n
    modify fun s => s.modCore n fun c =>
      { c with task := c.task.map fun t => { t with pinned := true } }
    pure none

/-- `task.yield` (R300, R345): with a pre-emption pending the task is pre-empted here, its resume PC after this
instruction; a suspension waits until the engines are quiet (R304), and no ring starts a command meanwhile. -/
def taskYieldOp (n : Nat) : M (Option W64) := do
  let t ← heldTask n
  if t.pend = none then pure none
  else
    let s ← get
    let c := s.core n
    let pc := c.hart.pc + BitVec.ofNat 64 s.ilen
    if s.abortsInstead n = false ∧ c.quiet = false then throw (.wait .yield_)
    drainAll n
    let s ← get
    let s' := s.preempt n pc
    set s'
    pure (some (s'.core n).hart.pc)

/-- The wait of the agent completes (R288). -/
def waitCompleteOp (a : Agent) : M (Option W64) := do
  let s ← get
  match (s.hart a).wait with
  | none => throw .stall
  | some w =>
    match a, w.kind with
    | .core n, .retire => retiring n
    | .core n, .yield_ => taskYieldOp n
    | _, k => waiting a k

/-! ### Graphs (R301) -/

/-- A release store at `pa`, made when the queue held `k` stores, carries what its release at a scope covers (R316, R317). -/
def markRelease (n pa k : Nat) (sc : Scope) : M Unit := do
  let s ← get
  let ls := s.coveredLines n
  if ls ≠ [] then
    if k < (s.core n).sq.length then
      modify fun s => s.modCore n fun c => { c with sq := c.sq.modify (c.sq.length - 1) fun e => { e with cov := ls, covScope := sc } }
    else modify fun s => s.noteRelease n sc (s.norm pa) ls

/-- A release store of 64 bits at a scope (R296, R301): what the release covers is performed first; a store that is staged takes
its release at publication. A `.sc` store at die scope and above is performed there, past PHOLD and the swap engine, before it
completes (R319). -/
def releaseStore (isSc : Bool) (sc : Scope) (va : Nat) (v : W64) (n : Nat) : M Unit := do
  if va % 8 ≠ 0 then trapM 6 va
  if isSc then needDirect (.core n)
  let ph ← M.asAccess .store va (translateHart (.core n) .store va)
  let s ← get
  if s.storesNow n ph = false then storeM (.core n) va (leBytes 8 v.toNat)
  else
    let sc := s.effScope ph.pa sc
    releaseAt n sc
    if isSc then M.asAccess .store va (scStep n ph.pa true)
    let k ← get
    if isSc ∧ s.swapTakes ph.pa then throw .stall
    storeM (.core n) va (leBytes 8 v.toNat) (isSc && decide (2 ≤ sc.num))
    if 1 ≤ sc.num then markRelease n ph.pa (k.core n).sq.length sc
    if isSc then drainAll n

/-- `cond.set`: a store of the condition word, a release at pkg scope when performed. -/
def condSetOp (rs1 rs2 : Reg) (n : Nat) : M (Option W64) := do
  let s ← get
  releaseStore false .pkg ((s.core n).hart.get rs1).toNat ((s.core n).hart.get rs2) n
  pure none

/-- `dep.dec` (R33, R39, R301). -/
def depDecOp (rs1 : Reg) (n : Nat) : M (Option W64) := do
  let s ← get
  let c := bits ((s.core n).hart.get rs1).toNat 11 0
  if (s.core n).stages then M.asAccess .store 0 (stageDec n c)
  else modify fun s => s.decrementCtr (dieOf n) c false
  pure none

/-- `graph.launch` (R301): the packet is read now; submitting it is staged, or done at once when pinned. -/
def graphLaunchOp (rs1 : Reg) (n : Nat) : M (Option W64) := do
  let s ← get
  let va := ((s.core n).hart.get rs1).toNat
  if va % 64 ≠ 0 then trapM 4 va
  let p ← loadM (.core n) va 64
  let s ← get
  let ctx := (s.recCtx n).1
  if (s.core n).stages then
    M.asAccess .store 0 (needRoom n [.launch])
    modify fun s => s.modCore n fun c =>
      { c with staging := { c.staging with launches := c.staging.launches ++ [(ctx, p)] } }
  else
    releaseAt n .pkg
    launchPacket ctx p
  pure none

/-! ### Scoped accesses (R52, R294 to R299) -/

/-- `ld.acq` (R296): an acquire load of 64 bits. -/
def ldAcqOp (isSc : Bool) (sc : Scope) (rd rs1 : Reg) (n : Nat) : M (Option W64) := do
  let s ← get
  let va := ((s.core n).hart.get rs1).toNat
  if va % 8 ≠ 0 then trapM 4 va
  if isSc then needDirect (.core n)
  let ph ← M.asAccess .load va (translateHart (.core n) .load va)
  let s ← get
  let sc := s.effScope ph.pa sc
  if s.heldBack n ph.pa sc then throw .stall
  if isSc then
    M.asAccess .load va do
      scStep n ph.pa false
      coherent (.core n) ph.pa sc false
  let d ← loadM (.core n) va 8
  modify fun s => s.acquireAt n sc ph.pa
  finReg (.core n) rd (BitVec.ofNat 64 (leNat d))

/-- `sd.rel` (R296): a release store of 64 bits. -/
def sdRelOp (isSc : Bool) (sc : Scope) (rs2 rs1 : Reg) (n : Nat) : M (Option W64) := do
  let s ← get
  releaseStore isSc sc ((s.core n).hart.get rs1).toNat ((s.core n).hart.get rs2) n
  pure none

/-- A scoped atomic (R295); its `.sc` form is an acquire and a release as well (R315). -/
def amoOp (op : AmoOp) (isSc : Bool) (sc : Scope) (rd rs2 rs1 : Reg) (n : Nat) : M (Option W64) := do
  let s ← get
  let h := (s.core n).hart
  let va := (h.get rs1).toNat
  if va % 8 ≠ 0 then trapM 6 va
  let old ← atomicM (.core n) sc va isSc isSc isSc (.scoped op (h.get rs2) (h.get rd))
  finReg (.core n) rd (BitVec.ofNat 64 old)

/-- `fence.s` (R296, R315): a release, then an acquire. -/
def fenceOp (sc : Scope) (n : Nat) : M (Option W64) := do
  releaseAt n sc
  pure none

/-- `arrive` (R298): with rd the phase arrived in; without, posted behind the core's earlier writes. -/
def arriveOp (sc : Scope) (rd rs1 : Reg) (n : Nat) : M (Option W64) := do
  let s ← get
  let va := ((s.core n).hart.get rs1).toNat
  if rd = 0#5 then
    if va % 8 ≠ 0 then trapM 6 va
    needDirect (.core n)
    M.asAccess .store va do
      let ph ← translateHart (.core n) .store va
      let s ← get
      match s.loc ph.pa with
      | .mmio _ => trapM 7 va
      | _ => homeCheck (reqOf (.cc n) ph.home 0) ph.pa
      let sc := s.effScope ph.pa sc
      releaseAt n sc
      modify fun s => { s with posted := s.posted ++
        [{ core := n, pa := s.norm ph.pa, va := va, scope := sc, cov := if sc = .core then [] else s.coveredLines n }] }
    pure none
  else
    if va % 8 ≠ 0 then trapM 6 va
    let old ← atomicM (.core n) sc va false false true .arrive
    match arriveWord old with
    | some r => finReg (.core n) rd (BitVec.ofNat 64 r.2)
    | none => syncTrap 23 va

/-- `wait.s` (R299). -/
def waitOp (sc : Scope) (rs1 rs2 : Reg) (n : Nat) : M (Option W64) := do
  let s ← get
  let va := ((s.core n).hart.get rs1).toNat
  if va % 8 ≠ 0 then trapM 6 va
  needDirect (.core n)
  waiting (.core n) (.barrier sc va (((s.core n).hart.get rs2).getLsbD 0))

end Sys2Proof.Machine
end

