-- ==== Sys2Proof/Machine/Turns.lean ====
section
/-! DEFINITION. What a turn of an agent or an engine comes to: which instruction a hart executes at its boundary (R288,
R349, R350, the fetch), how the next slot of a ring becomes the engine's program counter (R24, R28, R29, R67), which step of
its life a command takes next, and resumption and kill (R355, R356). -/
namespace Sys2Proof.Machine

/-- What a turn comes to: an instruction to execute, or a state without one. -/
inductive Chosen where
  | run (i : Instr) (s : State)
  | over_ (s : State)
  deriving DecidableEq, Repr

/-! ### Harts -/

/-- What the management core and the lane service cores may execute (R388, R395): RV64IMAC with the CSR instructions, and
four custom ones. -/
def agentMay (a : Agent) (i : Instr) : Bool :=
  a.isCore || (match i with
    | .datumRd _ | .datumWait _ | .snapTrig | .snapRd _ _ => true
    | .standardFence _ _ _ _ _ | .standardAtomic _ _ _ _ _ _ _ => true
    | .controlCoreLoad _ _ _ _ | .controlCoreStore _ _ _ _ => true
    | .standardInstruction r =>
      match r with
      | .sys .sret | .fencei => false
      | .un _ _ _ => false
      | .shift op _ _ _ => op != .rori && op != .slliUw
      | .shiftw op _ _ _ => op != .roriw
      | .aluw op _ _ _ => op != .rolw && op != .rorw
      | .alu op _ _ _ =>
        !([AluOp.sh1add, .sh2add, .sh3add, .addUw, .sh1addUw, .sh2addUw, .sh3addUw, .andn, .orn, .xnor, .max, .maxu,
           .min, .minu, .rol, .ror].contains op)
      | _ => true
    | _ => false)

/-- Is the exception "engine fault" due at the hart's boundary (R349)? -/
def State.faultDue (s : State) (a : Agent) : Bool :=
  match a with
  | .core n =>
    let c := s.core n
    c.fq != [] && (c.hart.priv == .u || (c.hart.priv == .s && c.hart.csrBit mstatusN 1))
  | _ => false

/-- The order in which pending interrupts are taken: the local ones by number (R349), then the standard ones in the
standard's order (external, software, timer). -/
def interruptOrder : List Nat := [16, 17, 18, 11, 3, 7, 9, 1, 5]

/-- The interrupt due at the hart's boundary. A pre-emption request waits for the engines of its core to be quiet (R304); a
resume request is taken by an idle core whatever it enables (R345). -/
def State.intrDue (s : State) (a : Agent) : Option Nat :=
  let h := s.hart a
  let m := s.mip a
  match a with
  | .core n =>
    if (s.core n).resuming.isSome && bit m 17 then some 17
    else interruptOrder.find? fun k => bit m k && h.intrEnabled k &&
      (k != 16 || s.abortsInstead n || (s.core n).quiet)
  | _ => interruptOrder.find? fun k => bit m k && h.csrBit 0x304 k && (h.priv != .m || h.csrBit mstatusN 3)

/-- The condition of the wait in progress holds: completing it now would not wait. -/
def State.waitReady (s : State) (a : Agent) : Bool :=
  match (s.hart a).wait with
  | none => false
  | some w =>
    match ((tryWait a w.kind).run s).1 with
    | .error (.wait _) => false
    | .error .stall => false
    | _ => true

/-- The die whose clock an agent's instructions run on, for throttling (R397). -/
def State.agentGated (s : State) : Agent → Bool
  | .core n => s.gated (dieOf n)
  | _ => false

/-- Read the instruction at the pc of a hart: its bits are fetched two bytes, then two more where it is a long one. -/
def fetchInstr (a : Agent) : M (List Byte) := do
  let s ← get
  let pc := (s.hart a).pc
  let lo ← fetchBytes a pc.toNat 2
  if isLong (BitVec.ofNat 16 (leNat lo)) then
    let hi ← fetchBytes a (pc + 2).toNat 2
    pure (lo ++ hi)
  else pure lo

/-- The turn of a hart (R349): an engine fault, an interrupt, the wait in progress, or the next instruction. -/
def hartTurn (a : Agent) (s : State) : Chosen :=
  let h := s.hart a
  let s := { s with focus := .hart a }
  if h.run ≠ .run ∨ s.agentGated a = true then .over_ s
  else if s.faultDue a then .run .engineFaultException s
  else if (s.intrDue a).isSome then .run .localInterrupt s
  else if h.wait.isSome then
    if s.waitReady a then .run .waitComplete { s with ilen := 4 }
    else if s.waitOver a then .run .waitOverrun s
    else .over_ s
  else
    match (fetchInstr a).run s with
    | (.error (.trap t), s') => .over_ (s'.takeTrap a t)
    | (.error _, _) => .over_ s
    | (.ok bs, s') =>
      match decodeBytes bs with
      | some (i, len) =>
        if agentMay a i then .run i { s' with ilen := len } else .over_ (s'.takeTrap a { code := 2 })
      | none => .over_ (s'.takeTrap a { code := 2 })

/-! ### The next slot of a ring (R24, R28, R29, R67) -/

/-- How many commands of a ring are in flight at most: 64 of LD and of ST (R146, R250), 16 of TV (R279); for the others the
spec gives no number (log 60). -/
def Eng.depth (e : Eng) : Nat := if e = .tv then 16 else 64

/-- May the next released slot of a ring start? -/
def State.mayStart (s : State) (n : Nat) (e : Eng) : Bool :=
  let c := s.core n
  let r := c.ring e
  c.mayBegin e && r.read != r.write && decide (r.flight.length < Eng.depth e) && r.flight.all Flight.begun && !s.gated (dieOf n) &&
    !(c.dropDue && (c.ring .mx).flight.any Flight.unlatched &&
      c.dropFor.any fun d => d.1 == e.num && decide ((r.read - d.2).toNat < 2 ^ 31))

/-- The four quarters of the command word at a slot. -/
def readSlot (n : Nat) (e : Eng) (r : Ring) (slot : W32) : M (W64 × W64 × W64 × W64) := do
  let l ← readRun { who := .eng n e, cached := false } (spBase n + r.base + 32 * (slot.toNat % r.size)) 32
  pure (quarter l 0, quarter l 1, quarter l 2, quarter l 3)

/-- A command that fails decoding performs nothing and awaits nothing: it ends with the record of its defect (R67). -/
def Flight.refused (f : Flight) (e : Eng) (cause : Nat) : Flight :=
  { f with phase := .failed { ({ f with phase := .done } : Flight).record e { cause := cause } with halt := true } }

/-- Decode the words of a flight: it awaits, is ready, or has failed (R67, R30). -/
def State.admitFlight (s : State) (n : Nat) (e : Eng) (f : Flight) : Flight :=
  let cx : Cx := { n := n, e := e, owner := (s.ring n e).owner, f := f }
  match cx.defect s (commandOf e f.q0 f.q1 f.q2 f.q3) with
  | 0 => { f with phase := if f.wen && !f.taken && !f.claimed then .await else .ready }
  | k => f.refused e k

/-- The next released slot becomes the engine's program counter. -/
def startTurn (n : Nat) (e : Eng) (s : State) : State :=
  let s := { s with focus := .hub }
  if s.mayStart n e = false then s else
  let s := s.modCore n Core.dropIfDue
  let r := s.ring n e
  let f0 : Flight :=
    { slot := r.read, q0 := 0, q1 := 0, q2 := 0, q3 := 0, org := Table.get Origin.empty r.org r.read.toNat,
      since := s.now, phase := .await, taken := false, claimed := false, prog := Prog.start, latch := none,
      stuck := [], recs := [] }
  let put := fun (s : State) (f : Flight) => s.setRing n e { r with read := r.read + 1, flight := r.flight ++ [f] }
  match (readSlot n e r r.read).run s with
  | (.ok q, s') => put s' (s'.admitFlight n e { f0 with q0 := q.1, q1 := q.2.1, q2 := q.2.2.1, q3 := q.2.2.2 })
  | (.error (.flt t), s') => put s' { f0 with phase := .failed { ({ f0 with phase := .done } : Flight).record e t with halt := true } }
  | (.error _, _) => s

/-! ### A command in flight -/

/-! What a copy reads and writes, as physical runs: two commands of a copy ring may go on side by side where what one writes shares
no 64-byte line with the other (R28, R146, R250; log 17). -/

/-- The physical runs of a virtual range, page by page, as far as it translates; none of a range too long to follow. -/
def Cx.spans (c : Cx) (s : State) (k : AccKind) (r : Nat × Nat) : Option (List (Nat × Nat)) :=
  if 2 ^ 24 < r.2 then none
  else some ((List.range (r.2 / 4096 + 2)).filterMap fun i =>
    let lo := max r.1 ((r.1 / 4096 + i) * 4096)
    let hi := min (r.1 + r.2) ((r.1 / 4096 + i + 1) * 4096)
    if hi ≤ lo then none
    else ((c.xlate k (lo % 2 ^ 64)).result s).map fun ph => (s.norm ph.pa, hi - lo))

/-- The range that rows of `len` bytes at a base and two strides lie in. -/
def rowsRange (base n1 n2 : Nat) (s1 s2 : Int) (len : Nat) : Nat × Nat :=
  let e1 := (n1 - 1 : Nat) * s1
  let e2 := (n2 - 1 : Nat) * s2
  (wrap 64 ((base : Int) + min 0 e1 + min 0 e2), e1.natAbs + e2.natAbs + len)

/-- The ranges a copy command reads and writes; none of a command that is not followed. -/
def Cx.ranges (c : Cx) (i : Instr) : Option (List (Nat × Nat) × List (Nat × Nat)) :=
  let dst := fun (a : LdArgs) (len : Nat) => rowsRange (c.addr a.dst) (a.cnt1.toNat * a.cnt2.toNat) 1 (a.dp1 * 64 : Nat) 0 len
  let src := fun (a : LdArgs) (len : Nat) => rowsRange (c.addr a.q1hi) a.cnt1.toNat a.cnt2.toNat a.sstr1 (a.sstr2 * 64) len
  match i with
  | .ldTile _ a => some ([src a a.len], [dst a a.len])
  | .ldMove _ a => some ([src a a.len], [dst a a.len])
  | .ldFill _ a => some ([], [dst a a.len])
  | .ldCvt h a =>
    if h.ovm = .gaz then none
    else some ([src a ((tyOf a.stype.toNat).bytes a.len)], [dst a ((tyOf a.dtype).bytes a.len)])
  | .ldPref _ _ => some ([], [])
  | .stTile _ a | .stDtile _ a =>
    some ([rowsRange (c.addr a.src) (a.cnt1.toNat * a.cnt2.toNat) 1 (a.sp1 * 64 : Nat) 0 a.len],
          [rowsRange (c.addr a.dst) a.cnt1.toNat a.cnt2.toNat a.dstr1 (a.dstr2 * 64) a.len])
  | _ => none

/-- What the landings of a multicast that has been sent have still to write (R161). -/
def State.landingRuns (s : State) (n : Nat) (f : Flight) : List (Nat × Nat) :=
  (s.landings.filter fun l => l.sender == n && l.slot == f.slot).flatMap fun l =>
    let base := spBase l.receiver + bits ((s.core l.receiver).hart.csrRaw (0x840 + l.lbuf)).toNat 22 6 * 64
    l.data.map fun p => (base + p.1, p.2.length)

/-- What a command in flight of a copy ring reads and writes, a multicast by its landings. -/
def State.touches (s : State) (n : Nat) (e : Eng) (f : Flight) : Option (List (Nat × Nat) × List (Nat × Nat)) :=
  if e = .ld ∧ f.opc = 0x03 then (if f.prog.row = 1 then some ([], s.landingRuns n f) else none) else do
  let c : Cx := { n := n, e := e, owner := (s.ring n e).owner, f := f }
  let i ← commandOf e f.q0 f.q1 f.q2 f.q3
  let r ← c.ranges i
  let rd ← r.1.mapM (c.spans s .load)
  let wr ← r.2.mapM (c.spans s .store)
  pure (rd.flatten, wr.flatten)

/-- May a command go on beside an earlier one of its ring that is not done? Copies apart from each other may; the blocks and seals
of a TV ring follow each other on their channel (R279). -/
def State.apart (s : State) (n : Nat) (e : Eng) (g f : Flight) : Bool :=
  match e with
  | .ld | .st =>
    match s.touches n e g, s.touches n e f with
    | some a, some b => linesApart a.2 b.1 && linesApart a.2 b.2 && linesApart a.1 b.2
    | _, _ => false
  | .tv => (g.opc == 0x02 || g.opc == 0x03) && g.prog.row == 1 && (f.opc == 0x02 || f.opc == 0x03)
  | _ => false

/-- Does a command only claim, take, or nothing: it needs no more than that the earlier ones have started (R28)? -/
def Flight.onlyStarts (f : Flight) : Bool := f.opc == 0xF0 || f.opc == 0xF2 || f.opc == 0xF4

/-- May the `i`th command in flight of a ring do its work (R28)? -/
def State.mayRun (s : State) (n : Nat) (e : Eng) (i : Nat) (f : Flight) : Bool :=
  ((s.ring n e).flight.take i).all fun g =>
    g.phase == .done || (g.begun && (f.onlyStarts || s.apart n e g f))

/-- The next step of the life of the `i`th command in flight of a ring. -/
def advanceTurn (n : Nat) (e : Eng) (i : Nat) (s : State) : Chosen :=
  let c := s.core n
  let r := c.ring e
  let s := { s with focus := .flight n e i }
  if c.frozen || s.gated (dieOf n) then .over_ s else
  match r.flight[i]? with
  | none => .over_ s
  | some f =>
    if f.overdue e s.now then .run .boundOverrun s
    else match f.phase with
      | .await => if (r.turnOf i).isSome && c.mayBegin e then .run .engineAwaitTaken s else .over_ s
      | .ready =>
        if s.mayRun n e i f = false || (f.begun = false && c.mayBegin e = false) then .over_ s
        else match commandOf e f.q0 f.q1 f.q2 f.q3 with
          | some x => .run x s
          | none => .over_ s
      | .done => if i = 0 then .run .commandRetire s else .over_ s
      | .failed _ => if i = 0 then .run .commandRetire s else .over_ s
      | .stalled => .over_ s
      | .halted => .over_ s

/-- Events that come about by themselves: what the hub, the walkers, the engines' channels, the sensors, the host and the
fabric do. Every other event of the table is part of an access or of an instruction that an agent makes, and happens
there. -/
def spontaneous : Instr → Bool
  | .multicastLanding _ | .blockArrival _ _ _ | .sealArrival _ _ | .fenceLifted _ | .discardAck _ | .cancelComplete _ => true
  | .peerLost _ | .waypointAdmit | .waypointCancel | .waypointRelease => true
  | .packetTake _ _ | .instanceCreate _ | .instanceStart _ | .taskDispatch _ | .conditionalNode _ _ | .whileNode _ _ => true
  | .joinNode _ _ | .timedStartNode _ _ | .transformJob _ _ | .quantumEnd _ _ | .preemptionGraceExpiry _ => true
  | .tlbInvalidationDone | .regionTableDrainDone | .hubFlushDone | .swapJob | .swapRemapCommit => true
  | .layerThermalTrip _ | .layerDrainDeadline _ | .scratchpadArbitration _ _ | .reconstructedRead _ _ _ _ => true
  | .rebuildComplete _ | .heldWriteRelease | .scRebase | .packageReset | .coreResetRelease _ => true
  | .hostRead _ _ | .hostWrite _ _ | .functionLevelReset _ | .flitReceive _ _ _ _ | .linkDown _ | .linkOpen _ _ => true
  | .frameTransmit _ | .frameReceive _ _ | .monitorConversion _ _ _ | .temperatureConversion _ _ => true
  | .postedArrival _ | .storeQueueDrain _ | .invalidationTaken _ | .timingPortLock _ => true
  | .cxlLinkDown | .cxlLinkUp | .memoryControllerDown _ | .memoryControllerUp _ => true
  | _ => false

/-- The D side of a stream, where it is one of this package's dies (R286). -/
def State.ddieHere (s : State) (i : Nat) : Option Nat :=
  if (s.stream i).dpkg = s.pkgId then some (s.stream i).ddie else none

/-- The die that performs an event of a graph walker, of the D side of Traverse, or of a copy engine that takes a landing: under a
gate it does not advance (R397). -/
def State.eventDie (s : State) : Instr → Option Nat
  | .packetTake d _ | .taskDispatch d => some d
  | .instanceCreate g | .instanceStart g | .conditionalNode g _ | .whileNode g _ | .joinNode g _ | .timedStartNode g _ =>
    (s.inst? g).map (·.die)
  | .blockArrival i _ _ | .sealArrival i _ => (s.tvChan[i]?).bind fun m => s.ddieHere m.stream
  | .discardAck i => s.ddieHere (streamNo i)
  | .multicastLanding i => (s.landings[i]?).map fun l => dieOf l.receiver
  | _ => none

/-- May an event of its own come about now? -/
def State.mayHappen (s : State) (i : Instr) : Bool := spontaneous i && !((s.eventDie i).any s.gated)

/-- What a turn comes to. -/
def chooseTurn (t : Turn) (s : State) : Chosen :=
  match t with
  | .hart a => hartTurn a s
  | .start n e => .over_ (startTurn n e s)
  | .advance n e i k slow => advanceTurn n e i { s with left := k, slow := slow }
  | .event i slow => if s.mayHappen i then .run i { s with focus := .hub, slow := slow } else .over_ { s with focus := .hub }
  | .time k => .over_ (s.tick k)

/-! ### Resumption (R355) -/

/-- What of a command's progress its record holds (R352, R355): no copy offset on MX. -/
def Prog.recorded (p : Prog) (e : Eng) : Prog := if e = .mx then { p with off := 0 } else p

/-- A ring is halted as long as a command of it is. -/
def Ring.unhalt (r : Ring) : Ring := { r with halted := r.flight.any fun f => f.phase == .halted }

/-- The halted command is decoded again from its slot; VX and TV start from the beginning, the others go on from their
progress; its bound is fresh (R355). A latched configuration stays as long as the command does (R224, log 96). -/
def resumeHalted (n : Nat) (e : Eng) (f : Flight) : M Unit := do
  let s ← get
  let r := s.ring n e
  let q ← readSlot n e r f.slot
  modify fun s =>
    let same := f.q0 == q.1 && f.q1 == q.2.1 && f.q2 == q.2.2.1 && f.q3 == q.2.2.2
    let f := { f with latch := if same then f.latch else none, q0 := q.1, q1 := q.2.1, q2 := q.2.2.1, q3 := q.2.2.2, since := s.now,
                      prog := if e = .vx ∨ e = .tv then Prog.start else f.prog.recorded e, list := none }
    let f' := s.admitFlight n e f
    let s := s.modFlight n e f.slot fun _ => f'
    s.setRing n e (s.ring n e).unhalt

/-- RESUME of engine `e`: a stalled command retries; a halted ring decodes its slot again; else no effect. -/
def resumeEngine (n : Nat) (e : Eng) : M Unit := do
  let s ← get
  let r := s.ring n e
  if r.halted then
    match r.flight.find? fun f => f.phase == .halted with
    | some f =>
      tryCatch (resumeHalted n e f) fun x => match x with
        | .flt t => modify fun s =>
            let s := s.engineFault n e f.slot t
            s.setRing n e (s.ring n e).unhalt
        | x => throw x
    | none => modify fun s => s.setRing n e { s.ring n e with halted := false }
  if r.isStalled then
    modify fun s => let r := s.ring n e; s.setRing n e { r with flight := r.flight.map fun f =>
      if f.phase = .stalled then { f with phase := .ready, since := s.now - f.since } else f }

/-- Every engine of a mask, after the stores of the core are performed (a release at core scope, R355). -/
def resumeOp (mask n : Nat) : M Unit := do
  drainAll n
  Eng.all.forM fun e => if bit mask e.num then resumeEngine n e else pure ()

/-- KILL waits for the commands under way that run to their end (R304, R356); of a restored task none is under way before `sret`
(R307). -/
def Core.killWaits (c : Core) : Bool := !c.frozen && c.mustEnd

/-- The held task ends; without one there is no effect (R356). -/
def killNow (n : Nat) : M Unit :=
  modify fun s => match (s.core n).task with
    | none => s
    | some _ => (s.endTask n 4).mapDie (dieOf n)

/-- KILL (R356). -/
def killOp (n : Nat) : M Unit := do
  let s ← get
  if (s.core n).killWaits then throw .stall
  killNow n

end Sys2Proof.Machine
end

