-- ==== Sys2Proof/Machine/Standard.lean ====
section
/-! DEFINITION. The standard instructions (R48, R49): the arithmetic of RV64I, M, Zba and Zbb, branches and jumps, loads and
stores, atomics, fences, CSR instructions with the effects of `engctl` (R348), and the system instructions. The RISC-V
standard gives their meaning (log 20). -/
namespace Sys2Proof.Machine

/-! ### Arithmetic -/

/-- The low word of a register, sign-extended. -/
def sxw (v : W32) : W64 := v.signExtend 64

def lowW (v : W64) : W32 := v.setWidth 32

/-- The high half of a product of two 64-bit factors already extended to 128 bits. -/
def highHalf (a b : BitVec 128) : W64 := (a * b).extractLsb' 64 64

def leadZeros (w v : Nat) : Nat := ((List.range w).reverse.takeWhile fun i => !bit v i).length

def trailZeros (w v : Nat) : Nat := ((List.range w).takeWhile fun i => !bit v i).length

def bitCount (w v : Nat) : Nat := ((List.range w).filter fun i => bit v i).length

/-- Signed division: by 0 gives all ones. -/
def divS {w : Nat} (a b : BitVec w) : BitVec w := if b = 0 then BitVec.allOnes w else a.sdiv b

def divU {w : Nat} (a b : BitVec w) : BitVec w := if b = 0 then BitVec.allOnes w else a / b

/-- Remainders: by 0 gives the dividend. -/
def remS {w : Nat} (a b : BitVec w) : BitVec w := if b = 0 then a else a.srem b

def remU {w : Nat} (a b : BitVec w) : BitVec w := if b = 0 then a else a % b

def boolWord (b : Bool) : W64 := if b then 1 else 0

/-- Zero-extended low word (Zba). -/
def zxw (v : W64) : W64 := (lowW v).setWidth 64

def aluValue (op : AluOp) (a b : W64) : W64 :=
  let sh := b.toNat % 64
  match op with
  | .add => a + b
  | .sub => a - b
  | .sll => a <<< sh
  | .slt => boolWord (a.slt b)
  | .sltu => boolWord (a.ult b)
  | .xor => a ^^^ b
  | .srl => a >>> sh
  | .sra => a.sshiftRight sh
  | .or => a ||| b
  | .and => a &&& b
  | .mul => a * b
  | .mulh => highHalf (a.signExtend 128) (b.signExtend 128)
  | .mulhsu => highHalf (a.signExtend 128) (b.setWidth 128)
  | .mulhu => highHalf (a.setWidth 128) (b.setWidth 128)
  | .div => divS a b
  | .divu => divU a b
  | .rem => remS a b
  | .remu => remU a b
  | .sh1add => b + (a <<< 1)
  | .sh2add => b + (a <<< 2)
  | .sh3add => b + (a <<< 3)
  | .addUw => b + zxw a
  | .sh1addUw => b + (zxw a <<< 1)
  | .sh2addUw => b + (zxw a <<< 2)
  | .sh3addUw => b + (zxw a <<< 3)
  | .andn => a &&& ~~~b
  | .orn => a ||| ~~~b
  | .xnor => ~~~(a ^^^ b)
  | .max => if a.slt b then b else a
  | .maxu => if a.ult b then b else a
  | .min => if b.slt a then b else a
  | .minu => if b.ult a then b else a
  | .rol => a.rotateLeft sh
  | .ror => a.rotateRight sh

def aluwValue (op : AluWOp) (a b : W64) : W64 :=
  let x := lowW a
  let y := lowW b
  let sh := b.toNat % 32
  match op with
  | .addw => sxw (x + y)
  | .subw => sxw (x - y)
  | .sllw => sxw (x <<< sh)
  | .srlw => sxw (x >>> sh)
  | .sraw => sxw (x.sshiftRight sh)
  | .mulw => sxw (x * y)
  | .divw => sxw (divS x y)
  | .divuw => sxw (divU x y)
  | .remw => sxw (remS x y)
  | .remuw => sxw (remU x y)
  | .rolw => sxw (x.rotateLeft sh)
  | .rorw => sxw (x.rotateRight sh)

def immValue (op : ImmOp) (a i : W64) : W64 :=
  match op with
  | .addi => a + i
  | .slti => boolWord (a.slt i)
  | .sltiu => boolWord (a.ult i)
  | .xori => a ^^^ i
  | .ori => a ||| i
  | .andi => a &&& i

def shiftValue (op : ShiftOp) (a : W64) (sh : Nat) : W64 :=
  match op with
  | .slli => a <<< sh
  | .srli => a >>> sh
  | .srai => a.sshiftRight sh
  | .rori => a.rotateRight sh
  | .slliUw => zxw a <<< sh

def shiftwValue (op : ShiftWOp) (a : W64) (sh : Nat) : W64 :=
  match op with
  | .slliw => sxw (lowW a <<< sh)
  | .srliw => sxw (lowW a >>> sh)
  | .sraiw => sxw ((lowW a).sshiftRight sh)
  | .roriw => sxw ((lowW a).rotateRight sh)

def unValue (op : UnOp) (a : W64) : W64 :=
  let bytes := leBytes 8 a.toNat
  match op with
  | .clz => BitVec.ofNat 64 (leadZeros 64 a.toNat)
  | .ctz => BitVec.ofNat 64 (trailZeros 64 a.toNat)
  | .cpop => BitVec.ofNat 64 (bitCount 64 a.toNat)
  | .clzw => BitVec.ofNat 64 (leadZeros 32 (lowW a).toNat)
  | .ctzw => BitVec.ofNat 64 (trailZeros 32 (lowW a).toNat)
  | .cpopw => BitVec.ofNat 64 (bitCount 32 (lowW a).toNat)
  | .sextB => (a.setWidth 8).signExtend 64
  | .sextH => (a.setWidth 16).signExtend 64
  | .zextH => (a.setWidth 16).setWidth 64
  | .rev8 => BitVec.ofNat 64 (leNat bytes.reverse)
  | .orcB => BitVec.ofNat 64 (leNat (bytes.map fun b => if b = 0 then 0 else 0xFF))

def branchTaken (op : BranchOp) (a b : W64) : Bool :=
  match op with
  | .beq => a == b
  | .bne => a != b
  | .blt => a.slt b
  | .bge => !a.slt b
  | .bltu => a.ult b
  | .bgeu => !a.ult b

/-! ### CSR instructions -/

/-- A write of `engctl` (R348, R355, R356): the stores of the core, then RESUME, then KILL. What RESUME lets go in the write
that kills ends where it stands. A killed task leaves its core at once. -/
def engctlWrite (n : Nat) (v : W64) : M Unit := do
  let s ← get
  if bit v.toNat 8 ∧ (s.core n).killWaits then throw .stall
  resumeOp (bits v.toNat 5 0) n
  if bit v.toNat 8 then killNow n

/-- Write a CSR (R3, R310, R348): `engctl` acts, the others store. A write of `minstret` takes the place of the count of
its own instruction. -/
def csrWriteOp (a : Agent) (num : Nat) (v : W64) : M Unit :=
  match a, num == 0x5C3 with
  | .core n, true => engctlWrite n v
  | _, _ =>
    modify fun s =>
      let h := s.hart a
      let v := if num = 0xB02 ∧ h.csrBit 0x320 2 = false then v - 1 else v
      s.setHart a (h.csrStore a.isCore num v)

/-- A CSR instruction: `src` is the source, `wr` whether it writes. -/
def csrOp (a : Agent) (op : CsrOp) (rd : Reg) (num : Nat) (src : W64) (wr : Bool) : M (Option W64) := do
  csrCheck a num wr
  let s ← get
  let old := s.csrValue a num
  let new := match op with
    | .rw => src
    | .rs => old ||| src
    | .rc => old &&& ~~~src
  if wr then csrWriteOp a num new
  let s' ← get
  -- KILL ends the task: its core stays where it is, idle or taken by its next task
  let ended := match a with
    | .core n => num == 0x5C3 && bit new.toNat 8 && (s.core n).task.isSome
    | _ => false
  if ended then pure (some (s'.hart a).pc)
  else finReg a rd old

/-! ### System instructions -/

/-- `sret` at the end of a restore lets the engines go on (R307). -/
def sretOp (a : Agent) : M (Option W64) := do
  let s ← get
  let h := s.hart a
  match a with
  | .core n =>
    if h.priv = .u ∨ (h.priv = .s ∧ h.csrBit mstatusN 22) then illegal
    modify fun s => s.modCore n fun c =>
      { c with hart := c.hart.sret, frozen := if c.suspended then c.frozen else false }
    pure (some (h.csrRaw 0x141))
  | _ => illegal

def mretOp (a : Agent) : M (Option W64) := do
  let s ← get
  let h := s.hart a
  if h.priv ≠ .m then illegal
  modify fun s => s.setHart a (h.mret a.isCore)
  pure (some (h.csrRaw 0x341))

/-- `wfi` ends at once; with TW below M-mode it is an illegal instruction (log 21). -/
def wfiOp (a : Agent) : M (Option W64) := do
  let s ← get
  let h := s.hart a
  if h.priv ≠ .m ∧ h.csrBit mstatusN 21 then illegal
  fin

def sysOp (a : Agent) (op : SysOp) : M (Option W64) := do
  let s ← get
  match op with
  | .ecall => trapM (8 + (s.hart a).priv.num)
  | .ebreak => trapM 3
  | .mret => mretOp a
  | .sret => sretOp a
  | .wfi => wfiOp a

/-- A branch or jump offset, bit 0 zero. -/
def offsetOf {w : Nat} (o : BitVec w) : W64 := (o ++ 0#1).signExtend 64

/-- A standard instruction that is no load, store, atomic or fence. -/
def standardOp (i : Rv) (a : Agent) : M (Option W64) := do
  let s ← get
  let h := s.hart a
  let x := h.get
  let next := h.pc + BitVec.ofNat 64 s.ilen
  match i with
  | .lui rd imm => finReg a rd ((imm ++ 0#12).signExtend 64)
  | .auipc rd imm => finReg a rd (h.pc + (imm ++ 0#12).signExtend 64)
  | .jal rd off => do
    let _ ← finReg a rd next
    pure (some (h.pc + offsetOf off))
  | .jalr rd rs1 imm => do
    let t := (x rs1 + imm.signExtend 64) &&& ~~~1#64
    let _ ← finReg a rd next
    pure (some t)
  | .branch op rs1 rs2 off => pure (some (if branchTaken op (x rs1) (x rs2) then h.pc + offsetOf off else next))
  | .imm op rd rs1 imm => finReg a rd (immValue op (x rs1) (imm.signExtend 64))
  | .addiw rd rs1 imm => finReg a rd (sxw (lowW (x rs1 + imm.signExtend 64)))
  | .shift op rd rs1 sh => finReg a rd (shiftValue op (x rs1) sh.toNat)
  | .shiftw op rd rs1 sh => finReg a rd (shiftwValue op (x rs1) sh.toNat)
  | .un op rd rs1 => finReg a rd (unValue op (x rs1))
  | .alu op rd rs1 rs2 => finReg a rd (aluValue op (x rs1) (x rs2))
  | .aluw op rd rs1 rs2 => finReg a rd (aluwValue op (x rs1) (x rs2))
  | .csr op rd rs1 num => csrOp a op rd num.toNat (x rs1) (op == .rw || rs1 != 0#5)
  | .csri op rd u num => csrOp a op rd num.toNat (u.setWidth 64) (op == .rw || u != 0#5)
  | .sys op => sysOp a op
  | .fencei => fin

/-! ### Loads, stores, atomics, fences (R49) -/

/-- Extend a loaded value. -/
def memExtend (k : MemKind) (v : Nat) : W64 :=
  match k with
  | .b => (BitVec.ofNat 8 v).signExtend 64
  | .h => (BitVec.ofNat 16 v).signExtend 64
  | .w => (BitVec.ofNat 32 v).signExtend 64
  | .d => BitVec.ofNat 64 v
  | .bu => (BitVec.ofNat 8 v).setWidth 64
  | .hu => (BitVec.ofNat 16 v).setWidth 64
  | .wu => (BitVec.ofNat 32 v).setWidth 64

/-- The address of a load or store. -/
def effAddr (h : Hart) (rs1 : Reg) (imm : BitVec 12) : Nat := (h.get rs1 + imm.signExtend 64).toNat

def loadOp (k : MemKind) (rd rs1 : Reg) (imm : BitVec 12) (a : Agent) : M (Option W64) := do
  let s ← get
  let l ← loadM a (effAddr (s.hart a) rs1 imm) k.bytes
  finReg a rd (memExtend k (leNat l))

def storeOp (k : MemKind) (rs2 rs1 : Reg) (imm : BitVec 12) (a : Agent) : M (Option W64) := do
  let s ← get
  let h := s.hart a
  storeM a (effAddr h rs1 imm) (leBytes k.bytes (h.get rs2).toNat)
  fin

/-- A value of 4 or 8 bytes as a register holds it. -/
def atExtend (dbl : Bool) (v : Nat) : W64 := if dbl then BitVec.ofNat 64 v else sxw (BitVec.ofNat 32 v)

/-- Release before and acquire after an atomic of a control core, at pkg scope (R49, R315). -/
def atRelease (a : Agent) (rl : Bool) : M Unit :=
  match a, rl with
  | .core n, true => releaseAt n .pkg
  | _, _ => pure ()

def atAcquire (a : Agent) (aq : Bool) (pa : Nat) : M Unit :=
  match a, aq with
  | .core n, true => modify fun s => s.acquireAt n .pkg pa
  | _, _ => pure ()

/-- LR: a load that leaves the reservation of its 64-byte granule. -/
def lrOp (a : Agent) (dbl aq rl : Bool) (rd rs1 : Reg) : M (Option W64) := do
  let s ← get
  let len := if dbl then 8 else 4
  let va := ((s.hart a).get rs1).toNat
  let d ← M.asAccess .load va do
    atomicAligned a .load va len
    needDirect a
    let ph ← translateHart a .load va
    let s ← get
    match s.loc ph.pa with
    | .mmio _ => trapM 5 va
    | _ => pure ()
    atRelease a rl
    coherent a ph.pa .pkg false
    let l ← readRun (reqOf (whoOf a) ph.home 0) ph.pa len
    modify fun s => s.setHart a { s.hart a with resv := some (s.norm ph.pa / 64) }
    atAcquire a aq ph.pa
    pure l
  finReg a rd (atExtend dbl (leNat d))

/-- SC: with the reservation of its granule it stores and answers 0, without it answers 1; the reservation ends. -/
def scOp (a : Agent) (dbl aq rl : Bool) (rd rs1 rs2 : Reg) : M (Option W64) := do
  let s ← get
  let h := s.hart a
  let len := if dbl then 8 else 4
  let va := (h.get rs1).toNat
  let ok ← M.asAccess .store va do
    atomicAligned a .store va len
    needDirect a
    let ph ← translateHart a .store va
    let s ← get
    match s.loc ph.pa with
    | .mmio _ => trapM 7 va
    | _ => slotGuard a ph.pa len va
    if h.resv = some (s.norm ph.pa / 64) then
      atRelease a rl
      coherent a ph.pa .pkg true
      let s ← get
      writeRun { reqOf (whoOf a) ph.home 0 with wide := true } ph.pa (leBytes len (h.get rs2).toNat)
      -- the chain of a release goes on through the pair (R317)
      modify fun t => t.chain (whoOf a).coreNo ph.pa (s.releasesRead (whoOf a).coreNo ph.pa)
      match a, rl with
      | .core n, true => modify fun t => t.noteRelease n .pkg (t.norm ph.pa) (t.coveredLines n)
      | _, _ => pure ()
      atAcquire a aq ph.pa
      pure true
    else pure false
  modify fun s => s.setHart a { s.hart a with resv := none }
  finReg a rd (if ok then 0 else 1)

def amoStdOp (a : Agent) (op : AtOp) (dbl aq rl : Bool) (rd rs1 rs2 : Reg) : M (Option W64) := do
  let s ← get
  let h := s.hart a
  let r : Rmw := .std op dbl (h.get rs2)
  let va := (h.get rs1).toNat
  let old ← M.asAccess .store va do
    atomicAligned a .store va r.len
    atomicM a .pkg va false aq rl r
  finReg a rd (atExtend dbl old)

def standardAtomicOp (op : AtOp) (dbl aq rl : Bool) (rd rs1 rs2 : Reg) (a : Agent) : M (Option W64) :=
  match op with
  | .lr => lrOp a dbl aq rl rd rs1
  | .sc => scOp a dbl aq rl rd rs1 rs2
  | op => amoStdOp a op dbl aq rl rd rs1 rs2

/-- `fence` and `fence.tso` act as `fence.sys`; the accesses of the other cores are performed one by one anyway. -/
def standardFenceOp (a : Agent) : M (Option W64) :=
  match a with
  | .core n => fenceOp .sys n
  | _ => fin

/-- `sfence.vma` (R359): the entries of the core's two TLBs that the standard's operands pick. -/
def sfenceOp (rs1 rs2 : Reg) (n : Nat) : M (Option W64) := do
  let s ← get
  let h := (s.core n).hart
  if h.priv = .u ∨ (h.priv = .s ∧ h.csrBit mstatusN 20) then illegal
  let va := (h.get rs1).toNat % 2 ^ 48
  let asid := (h.get rs2).toNat % 65536
  let p := fun (e : TlbEntry) =>
    (rs1 == 0#5 || decide (e.vbase ≤ va ∧ va < e.vbase + e.size)) && (rs2 == 0#5 || (!e.global && e.asid == asid))
  modify fun s => (s.dropFrom (.cc n) p).dropFrom (.eng n) p
  fin

/-! ### The meanings -/

def execStandardFence (_ _ _ : BitVec 4) (_ _ : Reg) (s : State) : Host.Outcome State Fault Refusal :=
  runHart standardFenceOp s

def execStandardAtomic (op : AtOp) (dbl aq rl : Bool) (rd rs1 rs2 : Reg) (s : State) : Host.Outcome State Fault Refusal :=
  runHart (standardAtomicOp op dbl aq rl rd rs1 rs2) s

def execSfenceVma (rs1 rs2 : Reg) (s : State) : Host.Outcome State Fault Refusal := runCore (sfenceOp rs1 rs2) s

def execControlCoreLoad (k : MemKind) (rd rs1 : Reg) (imm : BitVec 12) (s : State) : Host.Outcome State Fault Refusal :=
  runHart (loadOp k rd rs1 imm) s

def execControlCoreStore (k : MemKind) (rs2 rs1 : Reg) (imm : BitVec 12) (s : State) : Host.Outcome State Fault Refusal :=
  runHart (storeOp k rs2 rs1 imm) s

def execStandardInstruction (i : Rv) (s : State) : Host.Outcome State Fault Refusal := runHart (standardOp i) s

end Sys2Proof.Machine
end

