-- ==== Sys2Proof/Machine/Custom.lean ====
section
/-! DEFINITION. The meanings of the custom-0, custom-1 and custom-2 instructions (R51 to R54) over their operations. -/
namespace Sys2Proof.Machine

/-! ### custom-0 -/

def execRingPost (e : Eng) (imm : BitVec 12) (s : State) : Host.Outcome State Fault Refusal :=
  runCore (postOp e 0#5 imm false) s

def execRingPostReg (e : Eng) (rs1 : Reg) (imm : BitVec 12) (s : State) : Host.Outcome State Fault Refusal :=
  runCore (postOp e rs1 imm false) s

def execRingPostFresh (e : Eng) (imm : BitVec 12) (s : State) : Host.Outcome State Fault Refusal :=
  runCore (postOp e 0#5 imm true) s

def execRingPostFreshReg (e : Eng) (rs1 : Reg) (imm : BitVec 12) (s : State) : Host.Outcome State Fault Refusal :=
  runCore (postOp e rs1 imm true) s

/-- `ring.wait` (R290). -/
def ringWaitOp (e : Eng) (rs1 : Reg) (n : Nat) : M (Option W64) := do
  let s ← get
  waiting (.core n) (.ring e ((s.core n).hart.get rs1).toNat)

def execRingWait (e : Eng) (rs1 : Reg) (s : State) : Host.Outcome State Fault Refusal := runCore (ringWaitOp e rs1) s

/-- `ring.ptr` (R290). -/
def ringPtrOp (rd : Reg) (e : Eng) (n : Nat) : M (Option W64) := do
  let s ← get
  finReg (.core n) rd (s.ring n e).ptrs

def execRingPtr (rd : Reg) (e : Eng) (s : State) : Host.Outcome State Fault Refusal := runCore (ringPtrOp rd e) s

def execSemRaise (i : BitVec 5) (s : State) : Host.Outcome State Fault Refusal := runCore (semRaiseOp i.toNat) s

def execSemWait (i : BitVec 5) (s : State) : Host.Outcome State Fault Refusal :=
  runCore (fun n => waiting (.core n) (.sem i.toNat)) s

/-- `sem.read` (R291). -/
def semReadOp (rd : Reg) (i n : Nat) : M (Option W64) := do
  let s ← get
  finReg (.core n) rd (((s.core n).sem i).setWidth 64)

def execSemRead (rd : Reg) (i : BitVec 5) (s : State) : Host.Outcome State Fault Refusal := runCore (semReadOp rd i.toNat) s

def execSemTry (rd : Reg) (i : BitVec 5) (s : State) : Host.Outcome State Fault Refusal := runCore (semTryOp rd i.toNat) s

def execCbCfg (i : BitVec 5) (rs1 rs2 : Reg) (s : State) : Host.Outcome State Fault Refusal :=
  runCore (cbCfgOp i.toNat rs1 rs2) s

def execCbClaim (i : BitVec 5) (rs1 : Reg) (s : State) : Host.Outcome State Fault Refusal :=
  runCore (cbWaitOp i.toNat rs1 false) s

def execCbPush (i : BitVec 5) (rs1 : Reg) (s : State) : Host.Outcome State Fault Refusal := runCore (cbPushOp i.toNat rs1) s

def execCbTake (i : BitVec 5) (rs1 : Reg) (s : State) : Host.Outcome State Fault Refusal :=
  runCore (cbWaitOp i.toNat rs1 true) s

def execCbRel (i : BitVec 5) (rs1 : Reg) (s : State) : Host.Outcome State Fault Refusal := runCore (cbRelOp i.toNat rs1) s

/-- `cb.stat` (R293). -/
def cbStatOp (rd : Reg) (i n : Nat) : M (Option W64) := do
  let s ← get
  finReg (.core n) rd ((s.core n).cb i).stat

def execCbStat (rd : Reg) (i : BitVec 5) (s : State) : Host.Outcome State Fault Refusal := runCore (cbStatOp rd i.toNat) s

def execTaskRetire (s : State) : Host.Outcome State Fault Refusal := runCore taskRetireOp s

def execTaskAbort (s : State) : Host.Outcome State Fault Refusal := runCore taskAbortOp s

def execTaskDirect (s : State) : Host.Outcome State Fault Refusal := runCore taskDirectOp s

def execTaskYield (s : State) : Host.Outcome State Fault Refusal := runCore taskYieldOp s

def execCondSet (rs1 rs2 : Reg) (s : State) : Host.Outcome State Fault Refusal := runCore (condSetOp rs1 rs2) s

def execDepDec (rs1 : Reg) (s : State) : Host.Outcome State Fault Refusal := runCore (depDecOp rs1) s

def execGraphLaunch (rs1 : Reg) (s : State) : Host.Outcome State Fault Refusal := runCore (graphLaunchOp rs1) s

/-- `datum.rd` (R302). -/
def datumRdOp (rd : Reg) (a : Agent) : M (Option W64) := do
  let s ← get
  finReg a rd (BitVec.ofNat 64 (s.datumOf a))

def execDatumRd (rd : Reg) (s : State) : Host.Outcome State Fault Refusal := runHart (datumRdOp rd) s

/-- `datum.wait` (R302). -/
def datumWaitOp (rs1 : Reg) (a : Agent) : M (Option W64) := do
  let s ← get
  waiting a (.datum ((s.hart a).get rs1).toNat)

def execDatumWait (rs1 : Reg) (s : State) : Host.Outcome State Fault Refusal := runHart (datumWaitOp rs1) s

/-- `snap.trig` (R303): the CORE source of Survey. -/
def snapTrigOp : M (Option W64) := do
  modify fun s => s.surveyFire 4
  fin

def execSnapTrig (s : State) : Host.Outcome State Fault Refusal := runHart (fun _ => snapTrigOp) s

/-- `snap.rd` (R303, R400): only control cores have a bank of their own; any other agent reads 0. -/
def snapRdOp (rd rs1 : Reg) (a : Agent) : M (Option W64) := do
  let s ← get
  let i := bits ((s.hart a).get rs1).toNat 5 0
  finReg a rd (match a with
    | .core n => if i ≤ 10 then Table.get 0 (s.core n).snap i else 0
    | _ => 0)

def execSnapRd (rd rs1 : Reg) (s : State) : Host.Outcome State Fault Refusal := runHart (snapRdOp rd rs1) s

/-! ### custom-1 -/

def execLdAcq (c : Bool) (sc : Scope) (rd rs1 : Reg) (s : State) : Host.Outcome State Fault Refusal :=
  runCore (ldAcqOp c sc rd rs1) s

def execSdRel (c : Bool) (sc : Scope) (rs2 rs1 : Reg) (s : State) : Host.Outcome State Fault Refusal :=
  runCore (sdRelOp c sc rs2 rs1) s

def execAmoAdd (c : Bool) (sc : Scope) (rd rs2 rs1 : Reg) (s : State) : Host.Outcome State Fault Refusal :=
  runCore (amoOp .add c sc rd rs2 rs1) s

def execAmoAnd (c : Bool) (sc : Scope) (rd rs2 rs1 : Reg) (s : State) : Host.Outcome State Fault Refusal :=
  runCore (amoOp .and c sc rd rs2 rs1) s

def execAmoOr (c : Bool) (sc : Scope) (rd rs2 rs1 : Reg) (s : State) : Host.Outcome State Fault Refusal :=
  runCore (amoOp .or c sc rd rs2 rs1) s

def execAmoXor (c : Bool) (sc : Scope) (rd rs2 rs1 : Reg) (s : State) : Host.Outcome State Fault Refusal :=
  runCore (amoOp .xor c sc rd rs2 rs1) s

def execAmoMax (c : Bool) (sc : Scope) (rd rs2 rs1 : Reg) (s : State) : Host.Outcome State Fault Refusal :=
  runCore (amoOp .max c sc rd rs2 rs1) s

def execAmoMin (c : Bool) (sc : Scope) (rd rs2 rs1 : Reg) (s : State) : Host.Outcome State Fault Refusal :=
  runCore (amoOp .min c sc rd rs2 rs1) s

def execAmoSwap (c : Bool) (sc : Scope) (rd rs2 rs1 : Reg) (s : State) : Host.Outcome State Fault Refusal :=
  runCore (amoOp .swap c sc rd rs2 rs1) s

def execAmoCas (c : Bool) (sc : Scope) (rd rs2 rs1 : Reg) (s : State) : Host.Outcome State Fault Refusal :=
  runCore (amoOp .cas c sc rd rs2 rs1) s

def execFenceScoped (sc : Scope) (s : State) : Host.Outcome State Fault Refusal := runCore (fenceOp sc) s

def execArrive (sc : Scope) (rd rs1 : Reg) (s : State) : Host.Outcome State Fault Refusal := runCore (arriveOp sc rd rs1) s

def execWait (sc : Scope) (rs1 rs2 : Reg) (s : State) : Host.Outcome State Fault Refusal := runCore (waitOp sc rs1 rs2) s

/-! ### custom-2 -/

def execCtxSave (rs1 : Reg) (s : State) : Host.Outcome State Fault Refusal := runCore (ctxSaveOp rs1) s

def execCtxRest (rs1 : Reg) (s : State) : Host.Outcome State Fault Refusal := runCore (ctxRestOp rs1) s

def execFqRd (rd rs1 : Reg) (s : State) : Host.Outcome State Fault Refusal := runCore (fqRdOp rd rs1) s

def execFqPop (s : State) : Host.Outcome State Fault Refusal := runCore fqPopOp s

def execRingCfg (e : Eng) (rs1 rs2 : Reg) (s : State) : Host.Outcome State Fault Refusal := runCore (ringCfgOp e rs1 rs2) s

def execRingOwn (e : Eng) (rs1 : Reg) (s : State) : Host.Outcome State Fault Refusal := runCore (ringOwnOp e rs1) s

def execSemSet (i : BitVec 5) (rs1 : Reg) (s : State) : Host.Outcome State Fault Refusal := runCore (semSetOp i.toNat rs1) s

def execErrInj (rs1 rs2 : Reg) (s : State) : Host.Outcome State Fault Refusal := runCore (errInjOp rs1 rs2) s

/-! ### Waits (R288) -/

def execWaitComplete (s : State) : Host.Outcome State Fault Refusal := runHart waitCompleteOp s

def execWaitOverrun (s : State) : Host.Outcome State Fault Refusal := runHart waitOverrunOp s

end Sys2Proof.Machine
end

