-- ==== Sys2Proof/Machine/Events.lean ====
section
/-! DEFINITION. The meanings of the events of the table: of the control core's boundaries, of what every command passes
through, of Waypoint and Traverse, of scheduling, of translation, of the hub, the scratchpads and the package's edge. -/
namespace Sys2Proof.Machine

/-! ### Events at a hart's boundary -/

/-- Code 24 (R347, R349): stval and `shcause` name the oldest record. The instruction at `sepc` has not executed. -/
def engineFaultOp (n : Nat) (s : State) : State :=
  match (s.core n).fq with
  | r :: _ => s.takeTrap (.core n) { code := 24, tval := r.cause, cause := r.cause, detail := r.detail }
  | [] => s

def execEngineFaultException (s : State) : Host.Outcome State Fault Refusal :=
  match s.focus with
  | .hart (.core n) => .next (engineFaultOp n s)
  | .hart _ => .next s
  | _ => .fault .notAHart

/-- A local interrupt of a control core (R350, R345): its pending bit is taken back and `shinfo` is written, as the
interrupt is taken. -/
def coreInterrupt (n k : Nat) (s : State) : State :=
  let clear := fun (s : State) => s.modCore n fun c => { c with hart := c.hart.setCsrBits 0x344 k k 0 }
  if k = 16 then
    let s := (drainAll n).exec s
    s.preempt n (s.core n).hart.pc
  else if k = 17 ∧ (s.core n).resuming.isSome then
    (clear s).modCore n fun c => { c with hart := c.hart.enterS 17 }
  else if k = 18 then
    let ev := s.reg (0x030001601000 + 8 * (s.recCtx n).1)
    (clear s).modCore n fun c => { c with hart := (c.hart.setCsrRaw 0x5C4 ev).takeTrap true 18 0 }
  else s.modCore n fun c => { c with hart := c.hart.takeTrap true k 0 }

def execLocalInterrupt (s : State) : Host.Outcome State Fault Refusal :=
  match s.focus with
  | .hart a =>
    match s.intrDue a with
    | none => .next s
    | some k =>
      match a with
      | .core n => .next (coreInterrupt n k s)
      | _ => .next (s.setHart a ((s.hart a).takeTrap true k 0))
  | _ => .fault .notAHart

/-! ### Writes of registers and records -/

/-- The core of the step, if it has one. -/
def State.focusCore (s : State) : Option Nat :=
  match s.focus with
  | .hart (.core n) => some n
  | .flight n _ _ => some n
  | _ => none

/-- An event that belongs to the core of the step; elsewhere there is none. -/
def runAtCore (m : Nat → M Unit) (s : State) : Host.Outcome State Fault Refusal :=
  runEvent (match s.focusCore with
    | some n => m n
    | none => throw .stall) s

/-- A write of a CSR (below 0x1000) or of an MMIO register by the agent of the step (R3, R4, R404). -/
def registerWriteOp (addr : Nat) (v : W64) : M Unit := do
  let s ← get
  match s.focus with
  | .hart a =>
    if addr < 0x1000 then
      csrCheck a addr true
      csrWriteOp a addr v
    else
      match s.loc addr with
      | .mmio pa => do
        mmioGuard a pa 8 addr .store
        mmioWrite (whoOf a) pa v
      | _ => throw .stall
  | .flight n e _ =>
    match s.loc addr with
    | .mmio pa => if pa % 8 ≠ 0 then throw .stall else mmioWrite (.eng n e) pa v
    | _ => throw .stall
  | .hub => throw .stall

def execRegisterWrite (addr : BitVec 52) (v : W64) (s : State) : Host.Outcome State Fault Refusal :=
  runEvent (registerWriteOp addr.toNat v) s

def execFaultRecordWrite (r : FaultRec) (s : State) : Host.Outcome State Fault Refusal :=
  runAtCore (fun n => modify fun s => s.writeRec n (s.stampRec n r)) s

/-! ### The life of a command -/

def execEngineAwaitTaken (s : State) : Host.Outcome State Fault Refusal := runFlight awaitTakenOp s

def execCommandRetire (s : State) : Host.Outcome State Fault Refusal := runFlight commandRetireOp s

def execBoundOverrun (s : State) : Host.Outcome State Fault Refusal := runFlight boundOverrunOp s

def execMulticastLanding (i : Nat) (s : State) : Host.Outcome State Fault Refusal := runEvent (landingOp i) s

/-! ### Waypoint and Traverse -/

def execWaypointAdmit (s : State) : Host.Outcome State Fault Refusal := runEvent waypointAdmitOp s

def execWaypointCancel (s : State) : Host.Outcome State Fault Refusal := runEvent waypointCancelOp s

def execWaypointRelease (s : State) : Host.Outcome State Fault Refusal := runEvent waypointReleaseOp s

def execBlockArrival (i : Nat) (bad written : List Nat) (s : State) : Host.Outcome State Fault Refusal :=
  runEvent (blockArrivalOp i bad written) s

def execSealArrival (i : Nat) (bad : Bool) (s : State) : Host.Outcome State Fault Refusal := runEvent (sealArrivalOp i bad) s

def execFenceLifted (i : Nat) (s : State) : Host.Outcome State Fault Refusal := runEvent (fenceLiftedOp (streamNo i)) s

def execDiscardAck (i : Nat) (s : State) : Host.Outcome State Fault Refusal := runEvent (discardAckOp (streamNo i)) s

def execCancelComplete (i : Nat) (s : State) : Host.Outcome State Fault Refusal := runEvent (cancelCompleteOp (i % 65536)) s

def execPeerLost (pkg : Nat) (s : State) : Host.Outcome State Fault Refusal := runEvent (peerLostOp pkg) s

def execStreamAbandon (i : Nat) (s : State) : Host.Outcome State Fault Refusal := runEvent (streamAbandonOp (i % 65536)) s

/-! ### Scheduling -/

def execDoorbell (q : BitVec 12) (s : State) : Host.Outcome State Fault Refusal := .next (s.ringDoorbell q.toNat)

def execVfDoorbell (f : Nat) (q : BitVec 12) (s : State) : Host.Outcome State Fault Refusal := .next (s.vfDoorbell f q.toNat)

def execPacketTake (d i : Nat) (s : State) : Host.Outcome State Fault Refusal := runEvent (packetTakeOp d i) s

def execInstanceCreate (g : Nat) (s : State) : Host.Outcome State Fault Refusal := runEvent (instanceCreateOp g) s

def execInstanceStart (g : Nat) (s : State) : Host.Outcome State Fault Refusal := runEvent (instanceStartOp g) s

def execCounterDecrement (d : Nat) (c : BitVec 12) (skip : Bool) (s : State) : Host.Outcome State Fault Refusal :=
  .next (s.decrementCtr d c.toNat skip)

def execTaskDispatch (d : Nat) (s : State) : Host.Outcome State Fault Refusal := runEvent (taskDispatchOp d) s

def execConditionalNode (g n : Nat) (s : State) : Host.Outcome State Fault Refusal := runEvent (conditionalOp g n) s

def execWhileNode (g n : Nat) (s : State) : Host.Outcome State Fault Refusal := runEvent (whileOp g n) s

def execJoinNode (g n : Nat) (s : State) : Host.Outcome State Fault Refusal := runEvent (joinOp g n) s

def execTimedStartNode (g n : Nat) (s : State) : Host.Outcome State Fault Refusal := runEvent (timedStartOp g n) s

def execTransformJob (g n : Nat) (s : State) : Host.Outcome State Fault Refusal := runEvent (transformJobOp g n) s

def execQuantumEnd (d i : Nat) (s : State) : Host.Outcome State Fault Refusal := runEvent (quantumEndOp d i) s

def execPreemptionGraceExpiry (c : Nat) (s : State) : Host.Outcome State Fault Refusal := runEvent (graceExpiryOp c) s

/-! ### Faults and translation -/

def execEngineResume (mask : BitVec 6) (s : State) : Host.Outcome State Fault Refusal := runAtCore (resumeOp mask.toNat) s

def execEngineKill (s : State) : Host.Outcome State Fault Refusal := runAtCore killOp s

/-- A walk for the hart or the command of the step (R358): it makes its fill, or the hart takes its precise trap, or the
command ends or stalls. -/
def pageWalkOp (va : W64) (write : Bool) (s : State) : State :=
  let k : AccKind := if write then .store else .load
  let walk := fun (t : TlbAt) (ctx : Nat) (satp : W64) (p : Perm) => (do
    if bits satp.toNat 63 60 ≠ 9 then throw .stall
    if canonical va.toNat = false then flt 3 1
    let e ← walkFill t ctx satp va.toNat k
    if e.allows p k then pure () else flt 3 1 : M Unit)
  match s.focus with
  | .hart (.core n) =>
    let h := (s.core n).hart
    let mst := (h.csrRaw mstatusN).toNat
    match (walk (.cc n) (s.recCtx n).1 (h.csrRaw 0x180)
        { user := h.priv == .u, sum := bit mst 18, mxr := bit mst 19 }).run s with
    | (.ok _, s') => s'
    | (.error (.flt f), s') => (s'.reportFlt f).takeTrap (.core n) (f.toTrap k va.toNat)
    | (.error _, _) => s
  | .flight n e i =>
    match (s.ring n e).flight[i]? with
    | none => s
    | some f =>
      match (walk (.eng n) f.org.ctx f.org.satp { user := true, anyPage := (s.ring n e).owner }).run s with
      | (.ok _, s') => s'
      | (.error (.flt t), s') =>
        s'.engineFault n e f.slot { t with va := t.va.or (some va.toNat), aux := if t.cause = 3 then b2n write else t.aux }
      | (.error _, _) => s
  | _ => s

def execPageWalk (va : W64) (write : Bool) (s : State) : Host.Outcome State Fault Refusal := .next (pageWalkOp va write s)

def execTlbInvalPage (vpn : BitVec 36) (asid : BitVec 16) (ctx : Byte) (s : State) : Host.Outcome State Fault Refusal :=
  runEvent (tlbInvalOp { mode := 0, vpn := vpn.toNat, asid := asid.toNat, ctx := ctx.toNat }) s

def execTlbInvalAsid (asid : BitVec 16) (ctx : Byte) (s : State) : Host.Outcome State Fault Refusal :=
  runEvent (tlbInvalOp { mode := 1, vpn := 0, asid := asid.toNat, ctx := ctx.toNat }) s

def execTlbInvalCtx (ctx : Byte) (s : State) : Host.Outcome State Fault Refusal :=
  runEvent (tlbInvalOp { mode := 2, vpn := 0, asid := 0, ctx := ctx.toNat }) s

def execTlbInvalAll (s : State) : Host.Outcome State Fault Refusal :=
  runEvent (tlbInvalOp { mode := 3, vpn := 0, asid := 0, ctx := 0 }) s

def execTlbInvalidationDone (s : State) : Host.Outcome State Fault Refusal := runEvent tlbInvalDoneOp s

/-! ### Region table, hub array, swap engine, layers -/

def execRegionTableCommit (s : State) : Host.Outcome State Fault Refusal := runEvent regionTableCommitOp s

def execRegionTableDrainDone (s : State) : Host.Outcome State Fault Refusal := runEvent regionTableDrainOp s

def execHubSplitWrite (c : Byte) (v : W64) (s : State) : Host.Outcome State Fault Refusal := .next (s.hubSplit c.toNat v)

def execHubFlushRange (base : BitVec 52) (len : BitVec 48) (s : State) : Host.Outcome State Fault Refusal :=
  runEvent (hubFlushRangeOp base.toNat len.toNat) s

def execHubFlushWays (first last : BitVec 4) (s : State) : Host.Outcome State Fault Refusal :=
  runEvent (hubFlushWaysOp first.toNat last.toNat) s

def execHubFlushContext (c : Byte) (s : State) : Host.Outcome State Fault Refusal := runEvent (hubFlushContextOp c.toNat) s

def execHubFlushDone (s : State) : Host.Outcome State Fault Refusal := runEvent hubFlushDoneOp s

def execHubThaw (s : State) : Host.Outcome State Fault Refusal := runEvent hubThawOp s

/-- CLR of the predictor (R121). -/
def execPredictorClear (s : State) : Host.Outcome State Fault Refusal := .next { s with dbp := [] }

def execSwapJob (s : State) : Host.Outcome State Fault Refusal := runEvent swapJobOp s

def execSwapRemapCommit (s : State) : Host.Outcome State Fault Refusal := runEvent swapRemapOp s

def execLayerThermalTrip (l : BitVec 2) (s : State) : Host.Outcome State Fault Refusal := runEvent (layerTripOp l.toNat) s

def execLayerDrainDeadline (l : BitVec 2) (s : State) : Host.Outcome State Fault Refusal :=
  runEvent (layerDeadlineOp l.toNat) s

def execLayerRestart (mask : BitVec 4) (s : State) : Host.Outcome State Fault Refusal := .next (s.layerStart mask.toNat)

/-! ### Scratchpads and the memory model -/

def execScratchpadArbitration (n g : Nat) (s : State) : Host.Outcome State Fault Refusal := runEvent (arbitrationOp n g) s

def execReconstructedRead (n g b r : Nat) (s : State) : Host.Outcome State Fault Refusal :=
  runEvent (reconstructedReadOp n g b r) s

def execBankRetire (n : Nat) (b : BitVec 4) (g : BitVec 2) (s : State) : Host.Outcome State Fault Refusal :=
  runEvent (bankRetireOp n b.toNat g.toNat) s

def execRebuildComplete (n : Nat) (s : State) : Host.Outcome State Fault Refusal := runEvent (rebuildCompleteOp n) s

def execPholdWrite (v : W64) (s : State) : Host.Outcome State Fault Refusal := .next (s.pholdSet v)

def execHeldWriteRelease (s : State) : Host.Outcome State Fault Refusal := runEvent heldReleaseOp s

def execScRebase (s : State) : Host.Outcome State Fault Refusal := runEvent scRebaseOp s

def execPostedArrival (i : Nat) (s : State) : Host.Outcome State Fault Refusal := runEvent (postedArrivalOp i) s

/-- Entry `i / 288` of the store queue of core `i % 288` leaves it (R313). -/
def execStoreQueueDrain (i : Nat) (s : State) : Host.Outcome State Fault Refusal := runEvent (drainEntry (i % 288) (i / 288)) s

/-- A die takes one of the invalidations sent to it (R318). -/
def execInvalidationTaken (i : Nat) (s : State) : Host.Outcome State Fault Refusal :=
  match s.stale[i]? with
  | some c => .next (s.takeInval fun o => o.die == c.die && o.line == c.line)
  | none => .next s

/-! ### Mailbox, host, fabric -/

def execMailboxRequest (v : W64) (s : State) : Host.Outcome State Fault Refusal :=
  runAtCore (fun n => modify fun s => s.mailRequest n v) s

def execMailboxResponse (n : Nat) (v : W64) (s : State) : Host.Outcome State Fault Refusal := .next (s.mailAnswer n v)

def execHostRead (off len : Nat) (s : State) : Host.Outcome State Fault Refusal := runEvent (hostReadOp off len) s

def execHostWrite (off : Nat) (data : List Byte) (s : State) : Host.Outcome State Fault Refusal :=
  runEvent (hostWriteOp off data) s

def execFirmwareGo (s : State) : Host.Outcome State Fault Refusal := runEvent firmwareGoOp s

def execPackageReset (s : State) : Host.Outcome State Fault Refusal := .next s.packageReset

def execCoreResetRelease (d : Nat) (s : State) : Host.Outcome State Fault Refusal := runEvent (coreResetReleaseOp d) s

def execMemoryControllerDown (d : Nat) (s : State) : Host.Outcome State Fault Refusal := .next (s.setCtrl (d % 8) true)

def execMemoryControllerUp (d : Nat) (s : State) : Host.Outcome State Fault Refusal := .next (s.setCtrl (d % 8) false)

def execCxlLinkDown (s : State) : Host.Outcome State Fault Refusal := .next { s with cxlDown := true }

def execCxlLinkUp (s : State) : Host.Outcome State Fault Refusal := .next { s with cxlDown := false }

def execFunctionLevelReset (f : Nat) (s : State) : Host.Outcome State Fault Refusal := runEvent (flrOp f) s

/-- A flit of 256 bytes: bytes 0 to 247 and their check. -/
def execFlitReceive (l : Nat) (body : List Byte) (crc : W64) (msgs : List FabMsg) (s : State) : Host.Outcome State Fault Refusal :=
  runEvent (flitReceiveOp l (body ++ leBytes 8 crc.toNat) msgs) s

def execLinkDown (l : Nat) (s : State) : Host.Outcome State Fault Refusal := runEvent (linkDownOp l) s

def execLinkOpen (l pkg : Nat) (s : State) : Host.Outcome State Fault Refusal := runEvent (linkOpenOp l pkg) s

def execCollectiveAbandon (pkg : Nat) (s : State) : Host.Outcome State Fault Refusal := .next (s.abandonFrom pkg)

def execFrameTransmit (p : Nat) (s : State) : Host.Outcome State Fault Refusal := runEvent (frameTransmitOp p) s

def execFrameReceive (p : Nat) (data : List Byte) (s : State) : Host.Outcome State Fault Refusal :=
  runEvent (frameReceiveOp p data) s

def execTimingPortLock (ns : Nat) (s : State) : Host.Outcome State Fault Refusal := runEvent (timingLockOp ns) s

/-! ### O-dies and management -/

/-- An event of O-die `o` where that O-die and its ring exist. -/
def onDie (o n : Nat) (f : State → State) (s : State) : State := if o < 4 ∧ n < 640 then f s else s

def execLaneMapWrite (o f : Nat) (v : W64) (s : State) : Host.Outcome State Fault Refusal :=
  .next (if f < 128 then onDie o 0 (fun s => s.laneMap o f v) s else s)

def execReplayControlWrite (o : Nat) (v : W64) (s : State) : Host.Outcome State Fault Refusal :=
  .next (onDie o 0 (fun s => s.replayControl o v) s)

/-- A load of a monitor by the hart of the step while its O-die replays (R392). -/
def monitorReadOp (o : Nat) (rd : Reg) (a : Agent) : M (Option W64) := do
  let s ← get
  if 4 ≤ o ∨ s.replaying o = false then throw .stall
  let v ← M.asAccess .load 0 (monitorReplay o)
  finReg a rd v

def execMonitorReplayRead (o : Nat) (rd : Reg) (s : State) : Host.Outcome State Fault Refusal := runHart (monitorReadOp o rd) s

def execHeaterWrite (o n : Nat) (v : W64) (s : State) : Host.Outcome State Fault Refusal :=
  .next (onDie o n (fun s => s.heater o n v) s)

def execMonitorConversion (o n : Nat) (sample : BitVec 12) (s : State) : Host.Outcome State Fault Refusal :=
  runEvent (monitorConversionOp o n sample.toNat) s

def execLaneServiceRun (o : Nat) (v : W64) (s : State) : Host.Outcome State Fault Refusal :=
  .next (onDie o 0 (fun s => s.laneRun o v) s)

def execTemperatureConversion (d : Nat) (temp : BitVec 12) (s : State) : Host.Outcome State Fault Refusal :=
  runEvent (temperatureOp d temp.toNat) s

def execThrottleGateApply (d : Nat) (s : State) : Host.Outcome State Fault Refusal := runEvent (gateApplyOp d) s

def execLogPush (s : State) : Host.Outcome State Fault Refusal := .next s.pushLog

def execSurveyMgmtTrigger (s : State) : Host.Outcome State Fault Refusal := .next (s.surveyFire 1)

def execSurveyRearm (s : State) : Host.Outcome State Fault Refusal := .next s.surveyRearm

def execSurveyTimeTrigger (s : State) : Host.Outcome State Fault Refusal := runEvent surveyTimeOp s

end Sys2Proof.Machine
end

