-- ==== Sys2Proof/Machine/Dispatch.lean ====
section
/-! DEFINITION. The dispatch: one arm for each constructor of `Instr`, each one call of its meaning. -/
namespace Sys2Proof.Machine

def exec (i : Instr) (s : State) : Host.Outcome State Fault Refusal :=
  match i with
  -- custom-0 (R51)
  | .ringPost e imm => Sys2Proof.Machine.execRingPost e imm s
  | .ringPostReg e rs1 imm => Sys2Proof.Machine.execRingPostReg e rs1 imm s
  | .ringPostFresh e imm => Sys2Proof.Machine.execRingPostFresh e imm s
  | .ringPostFreshReg e rs1 imm => Sys2Proof.Machine.execRingPostFreshReg e rs1 imm s
  | .ringWait e rs1 => Sys2Proof.Machine.execRingWait e rs1 s
  | .ringPtr rd e => Sys2Proof.Machine.execRingPtr rd e s
  | .semRaise n => Sys2Proof.Machine.execSemRaise n s
  | .semWait n => Sys2Proof.Machine.execSemWait n s
  | .semRead rd n => Sys2Proof.Machine.execSemRead rd n s
  | .semTry rd n => Sys2Proof.Machine.execSemTry rd n s
  | .cbCfg n rs1 rs2 => Sys2Proof.Machine.execCbCfg n rs1 rs2 s
  | .cbClaim n rs1 => Sys2Proof.Machine.execCbClaim n rs1 s
  | .cbPush n rs1 => Sys2Proof.Machine.execCbPush n rs1 s
  | .cbTake n rs1 => Sys2Proof.Machine.execCbTake n rs1 s
  | .cbRel n rs1 => Sys2Proof.Machine.execCbRel n rs1 s
  | .cbStat rd n => Sys2Proof.Machine.execCbStat rd n s
  | .condSet rs1 rs2 => Sys2Proof.Machine.execCondSet rs1 rs2 s
  | .depDec rs1 => Sys2Proof.Machine.execDepDec rs1 s
  | .graphLaunch rs1 => Sys2Proof.Machine.execGraphLaunch rs1 s
  | .datumRd rd => Sys2Proof.Machine.execDatumRd rd s
  | .datumWait rs1 => Sys2Proof.Machine.execDatumWait rs1 s
  | .snapRd rd rs1 => Sys2Proof.Machine.execSnapRd rd rs1 s
  -- custom-1 (R52)
  | .ldAcq c k rd rs1 => Sys2Proof.Machine.execLdAcq c k rd rs1 s
  | .sdRel c k rs2 rs1 => Sys2Proof.Machine.execSdRel c k rs2 rs1 s
  | .amoAdd c k rd rs2 rs1 => Sys2Proof.Machine.execAmoAdd c k rd rs2 rs1 s
  | .amoAnd c k rd rs2 rs1 => Sys2Proof.Machine.execAmoAnd c k rd rs2 rs1 s
  | .amoOr c k rd rs2 rs1 => Sys2Proof.Machine.execAmoOr c k rd rs2 rs1 s
  | .amoXor c k rd rs2 rs1 => Sys2Proof.Machine.execAmoXor c k rd rs2 rs1 s
  | .amoMax c k rd rs2 rs1 => Sys2Proof.Machine.execAmoMax c k rd rs2 rs1 s
  | .amoMin c k rd rs2 rs1 => Sys2Proof.Machine.execAmoMin c k rd rs2 rs1 s
  | .amoSwap c k rd rs2 rs1 => Sys2Proof.Machine.execAmoSwap c k rd rs2 rs1 s
  | .amoCas c k rd rs2 rs1 => Sys2Proof.Machine.execAmoCas c k rd rs2 rs1 s
  | .fenceScoped k => Sys2Proof.Machine.execFenceScoped k s
  | .arrive k rd rs1 => Sys2Proof.Machine.execArrive k rd rs1 s
  | .wait k rs1 rs2 => Sys2Proof.Machine.execWait k rs1 rs2 s
  -- custom-2 (R53)
  | .ctxSave rs1 => Sys2Proof.Machine.execCtxSave rs1 s
  | .ctxRest rs1 => Sys2Proof.Machine.execCtxRest rs1 s
  | .fqRd rd rs1 => Sys2Proof.Machine.execFqRd rd rs1 s
  | .ringCfg e rs1 rs2 => Sys2Proof.Machine.execRingCfg e rs1 rs2 s
  | .ringOwn e rs1 => Sys2Proof.Machine.execRingOwn e rs1 s
  | .semSet n rs1 => Sys2Proof.Machine.execSemSet n rs1 s
  | .errInj rs1 rs2 => Sys2Proof.Machine.execErrInj rs1 rs2 s
  -- standard accesses and the control core's own events
  | .standardFence fm pred succ rs1 rd => Sys2Proof.Machine.execStandardFence fm pred succ rs1 rd s
  | .standardAtomic op dbl aq rl rd rs1 rs2 => Sys2Proof.Machine.execStandardAtomic op dbl aq rl rd rs1 rs2 s
  | .sfenceVma rs1 rs2 => Sys2Proof.Machine.execSfenceVma rs1 rs2 s
  | .controlCoreLoad k rd rs1 imm => Sys2Proof.Machine.execControlCoreLoad k rd rs1 imm s
  | .controlCoreStore k rs2 rs1 imm => Sys2Proof.Machine.execControlCoreStore k rs2 rs1 imm s
  | .registerWrite addr v => Sys2Proof.Machine.execRegisterWrite addr v s
  -- what every engine command passes through
  | .faultRecordWrite r => Sys2Proof.Machine.execFaultRecordWrite r s
  -- commands of every engine (R58)
  | .nop e h => Sys2Proof.Machine.execNop e h s
  | .cbRelCommand e h a => Sys2Proof.Machine.execCbRelCommand e h a s
  | .cbClaimCommand e h a => Sys2Proof.Machine.execCbClaimCommand e h a s
  | .cbPushCommand e h a => Sys2Proof.Machine.execCbPushCommand e h a s
  | .cbTakeCommand e h a => Sys2Proof.Machine.execCbTakeCommand e h a s
  -- LD ring (R62)
  | .ldTile h a => Sys2Proof.Machine.execLdTile h a s
  | .ldGather h a => Sys2Proof.Machine.execLdGather h a s
  | .ldMcast h a => Sys2Proof.Machine.execLdMcast h a s
  | .ldBmv h a => Sys2Proof.Machine.execLdBmv h a s
  | .ldBpn h a => Sys2Proof.Machine.execLdBpn h a s
  | .ldCvt h a => Sys2Proof.Machine.execLdCvt h a s
  | .ldPref h a => Sys2Proof.Machine.execLdPref h a s
  | .ldMove h a => Sys2Proof.Machine.execLdMove h a s
  | .ldFill h a => Sys2Proof.Machine.execLdFill h a s
  | .multicastLanding j => Sys2Proof.Machine.execMulticastLanding j s
  -- ST ring (R62)
  | .stTile h a => Sys2Proof.Machine.execStTile h a s
  | .stScat h a => Sys2Proof.Machine.execStScat h a s
  | .stBmv h a => Sys2Proof.Machine.execStBmv h a s
  | .stDtile h a => Sys2Proof.Machine.execStDtile h a s
  | .stDscat h a => Sys2Proof.Machine.execStDscat h a s
  | .stCvt h a => Sys2Proof.Machine.execStCvt h a s
  | .stWb h a => Sys2Proof.Machine.execStWb h a s
  | .stFlush h a => Sys2Proof.Machine.execStFlush h a s
  -- MX ring (R63)
  | .mmaBf16 h a => Sys2Proof.Machine.execMmaBf16 h a s
  | .mmaFp8 h a => Sys2Proof.Machine.execMmaFp8 h a s
  | .mmaI8 h a => Sys2Proof.Machine.execMmaI8 h a s
  | .mmaQ4 h a => Sys2Proof.Machine.execMmaQ4 h a s
  | .mvBf16 h a => Sys2Proof.Machine.execMvBf16 h a s
  | .mvFp8 h a => Sys2Proof.Machine.execMvFp8 h a s
  | .mvI8 h a => Sys2Proof.Machine.execMvI8 h a s
  | .mvQ4 h a => Sys2Proof.Machine.execMvQ4 h a s
  | .accZero h a => Sys2Proof.Machine.execAccZero h a s
  | .accLd h a => Sys2Proof.Machine.execAccLd h a s
  | .accSt h a => Sys2Proof.Machine.execAccSt h a s
  | .accScale h a => Sys2Proof.Machine.execAccScale h a s
  -- VX ring (R64)
  | .vxVld h a => Sys2Proof.Machine.execVxVld h a s
  | .vxVst h a => Sys2Proof.Machine.execVxVst h a s
  | .vxVldk h a => Sys2Proof.Machine.execVxVldk h a s
  | .vxVstk h a => Sys2Proof.Machine.execVxVstk h a s
  | .vxMov h a => Sys2Proof.Machine.execVxMov h a s
  | .vxMovi h a => Sys2Proof.Machine.execVxMovi h a s
  | .vxIota h a => Sys2Proof.Machine.execVxIota h a s
  | .vxPjLd h a => Sys2Proof.Machine.execVxPjLd h a s
  | .vxAdd h a => Sys2Proof.Machine.execVxAdd h a s
  | .vxSub h a => Sys2Proof.Machine.execVxSub h a s
  | .vxAdds h a => Sys2Proof.Machine.execVxAdds h a s
  | .vxSubs h a => Sys2Proof.Machine.execVxSubs h a s
  | .vxMul h a => Sys2Proof.Machine.execVxMul h a s
  | .vxMulh h a => Sys2Proof.Machine.execVxMulh h a s
  | .vxMin h a => Sys2Proof.Machine.execVxMin h a s
  | .vxMax h a => Sys2Proof.Machine.execVxMax h a s
  | .vxAbs h a => Sys2Proof.Machine.execVxAbs h a s
  | .vxMadd h a => Sys2Proof.Machine.execVxMadd h a s
  | .vxDot h a => Sys2Proof.Machine.execVxDot h a s
  | .vxDots h a => Sys2Proof.Machine.execVxDots h a s
  | .vxAnd h a => Sys2Proof.Machine.execVxAnd h a s
  | .vxOr h a => Sys2Proof.Machine.execVxOr h a s
  | .vxXor h a => Sys2Proof.Machine.execVxXor h a s
  | .vxAndn h a => Sys2Proof.Machine.execVxAndn h a s
  | .vxSll h a => Sys2Proof.Machine.execVxSll h a s
  | .vxSrl h a => Sys2Proof.Machine.execVxSrl h a s
  | .vxSra h a => Sys2Proof.Machine.execVxSra h a s
  | .vxRol h a => Sys2Proof.Machine.execVxRol h a s
  | .vxPopc h a => Sys2Proof.Machine.execVxPopc h a s
  | .vxClz h a => Sys2Proof.Machine.execVxClz h a s
  | .vxCmpEq h a => Sys2Proof.Machine.execVxCmpEq h a s
  | .vxCmpNe h a => Sys2Proof.Machine.execVxCmpNe h a s
  | .vxCmpLt h a => Sys2Proof.Machine.execVxCmpLt h a s
  | .vxCmpLe h a => Sys2Proof.Machine.execVxCmpLe h a s
  | .vxCmpLtu h a => Sys2Proof.Machine.execVxCmpLtu h a s
  | .vxCmpLeu h a => Sys2Proof.Machine.execVxCmpLeu h a s
  | .vxSel h a => Sys2Proof.Machine.execVxSel h a s
  | .vxCsel h a => Sys2Proof.Machine.execVxCsel h a s
  | .vxKand h a => Sys2Proof.Machine.execVxKand h a s
  | .vxKor h a => Sys2Proof.Machine.execVxKor h a s
  | .vxKxor h a => Sys2Proof.Machine.execVxKxor h a s
  | .vxKnot h a => Sys2Proof.Machine.execVxKnot h a s
  | .vxKmov h a => Sys2Proof.Machine.execVxKmov h a s
  | .vxKpop h a => Sys2Proof.Machine.execVxKpop h a s
  | .vxPerm h a => Sys2Proof.Machine.execVxPerm h a s
  | .vxBcast h a => Sys2Proof.Machine.execVxBcast h a s
  | .vxSlideup h a => Sys2Proof.Machine.execVxSlideup h a s
  | .vxSlidedn h a => Sys2Proof.Machine.execVxSlidedn h a s
  | .vxZip h a => Sys2Proof.Machine.execVxZip h a s
  | .vxUnzip h a => Sys2Proof.Machine.execVxUnzip h a s
  | .vxProj h a => Sys2Proof.Machine.execVxProj h a s
  | .vxRsum h a => Sys2Proof.Machine.execVxRsum h a s
  | .vxRand h a => Sys2Proof.Machine.execVxRand h a s
  | .vxRor h a => Sys2Proof.Machine.execVxRor h a s
  | .vxRmax h a => Sys2Proof.Machine.execVxRmax h a s
  | .vxRmin h a => Sys2Proof.Machine.execVxRmin h a s
  | .vxRargmax h a => Sys2Proof.Machine.execVxRargmax h a s
  | .vxRargmin h a => Sys2Proof.Machine.execVxRargmin h a s
  | .vxFadd h a => Sys2Proof.Machine.execVxFadd h a s
  | .vxFsub h a => Sys2Proof.Machine.execVxFsub h a s
  | .vxFmul h a => Sys2Proof.Machine.execVxFmul h a s
  | .vxFfma h a => Sys2Proof.Machine.execVxFfma h a s
  | .vxFdiv h a => Sys2Proof.Machine.execVxFdiv h a s
  | .vxFsqrt h a => Sys2Proof.Machine.execVxFsqrt h a s
  | .vxFrsq h a => Sys2Proof.Machine.execVxFrsq h a s
  | .vxFmin h a => Sys2Proof.Machine.execVxFmin h a s
  | .vxFmax h a => Sys2Proof.Machine.execVxFmax h a s
  | .vxFabs h a => Sys2Proof.Machine.execVxFabs h a s
  | .vxFcmpEq h a => Sys2Proof.Machine.execVxFcmpEq h a s
  | .vxFcmpLt h a => Sys2Proof.Machine.execVxFcmpLt h a s
  | .vxFcmpLe h a => Sys2Proof.Machine.execVxFcmpLe h a s
  | .vxFcmpUn h a => Sys2Proof.Machine.execVxFcmpUn h a s
  | .vxFrsum h a => Sys2Proof.Machine.execVxFrsum h a s
  | .vxCvt h a => Sys2Proof.Machine.execVxCvt h a s
  | .vxQzL8 h a => Sys2Proof.Machine.execVxQzL8 h a s
  | .vxDqL8 h a => Sys2Proof.Machine.execVxDqL8 h a s
  | .vxBps h a => Sys2Proof.Machine.execVxBps h a s
  | .vxBpm h a => Sys2Proof.Machine.execVxBpm h a s
  | .vxScacc h a => Sys2Proof.Machine.execVxScacc h a s
  -- CT ring (R65)
  | .ctMax h a => Sys2Proof.Machine.execCtMax h a s
  | .ctExpsum h a => Sys2Proof.Machine.execCtExpsum h a s
  | .ctScale h a => Sys2Proof.Machine.execCtScale h a s
  | .ctSoftmax h a => Sys2Proof.Machine.execCtSoftmax h a s
  | .ctRmsnorm h a => Sys2Proof.Machine.execCtRmsnorm h a s
  | .ctLayernorm h a => Sys2Proof.Machine.execCtLayernorm h a s
  | .ctSumsq h a => Sys2Proof.Machine.execCtSumsq h a s
  -- TV ring (R66)
  | .tvOpen h a => Sys2Proof.Machine.execTvOpen h a s
  | .tvBlk h a => Sys2Proof.Machine.execTvBlk h a s
  | .tvSeal h a => Sys2Proof.Machine.execTvSeal h a s
  | .tvCancel h a => Sys2Proof.Machine.execTvCancel h a s
  | .tvCancelFin h a => Sys2Proof.Machine.execTvCancelFin h a s
  | .tvStat h a => Sys2Proof.Machine.execTvStat h a s
  | .tvAcq h a => Sys2Proof.Machine.execTvAcq h a s
  | .tvDisc h a => Sys2Proof.Machine.execTvDisc h a s
  | .tvFree h a => Sys2Proof.Machine.execTvFree h a s
  -- Traverse and Waypoint events (R270 to R287); `i` is a place in the channel
  | .blockArrival j bad written => Sys2Proof.Machine.execBlockArrival j bad written s
  | .sealArrival j bad => Sys2Proof.Machine.execSealArrival j bad s
  | .fenceLifted k => Sys2Proof.Machine.execFenceLifted k s
  | .discardAck k => Sys2Proof.Machine.execDiscardAck k s
  | .cancelComplete k => Sys2Proof.Machine.execCancelComplete k s
  | .peerLost pkg => Sys2Proof.Machine.execPeerLost pkg s
  | .streamAbandon k => Sys2Proof.Machine.execStreamAbandon k s
  -- scheduling (R333 to R345)
  | .doorbell q => Sys2Proof.Machine.execDoorbell q s
  | .vfDoorbell f q => Sys2Proof.Machine.execVfDoorbell f q s
  | .packetTake d j => Sys2Proof.Machine.execPacketTake d j s
  | .instanceCreate g => Sys2Proof.Machine.execInstanceCreate g s
  | .instanceStart g => Sys2Proof.Machine.execInstanceStart g s
  | .counterDecrement d c skip => Sys2Proof.Machine.execCounterDecrement d c skip s
  | .taskDispatch d => Sys2Proof.Machine.execTaskDispatch d s
  | .conditionalNode g n => Sys2Proof.Machine.execConditionalNode g n s
  | .whileNode g n => Sys2Proof.Machine.execWhileNode g n s
  | .joinNode g n => Sys2Proof.Machine.execJoinNode g n s
  | .timedStartNode g n => Sys2Proof.Machine.execTimedStartNode g n s
  | .transformJob g n => Sys2Proof.Machine.execTransformJob g n s
  | .quantumEnd d j => Sys2Proof.Machine.execQuantumEnd d j s
  | .preemptionGraceExpiry c => Sys2Proof.Machine.execPreemptionGraceExpiry c s
  -- faults and translation (R355 to R359)
  | .engineResume mask => Sys2Proof.Machine.execEngineResume mask s
  | .pageWalk va write => Sys2Proof.Machine.execPageWalk va write s
  | .tlbInvalPage vpn asid ctx => Sys2Proof.Machine.execTlbInvalPage vpn asid ctx s
  | .tlbInvalAsid asid ctx => Sys2Proof.Machine.execTlbInvalAsid asid ctx s
  | .tlbInvalCtx ctx => Sys2Proof.Machine.execTlbInvalCtx ctx s
  -- region table, hub array, swap engine (R97 to R127)
  | .hubSplitWrite c v => Sys2Proof.Machine.execHubSplitWrite c v s
  | .hubFlushRange base len => Sys2Proof.Machine.execHubFlushRange base len s
  | .hubFlushWays first last => Sys2Proof.Machine.execHubFlushWays first last s
  | .hubFlushContext c => Sys2Proof.Machine.execHubFlushContext c s
  | .layerThermalTrip l => Sys2Proof.Machine.execLayerThermalTrip l s
  | .layerDrainDeadline l => Sys2Proof.Machine.execLayerDrainDeadline l s
  | .layerRestart mask => Sys2Proof.Machine.execLayerRestart mask s
  -- scratchpads (R131 to R143); `n` is a core, `g` a bank group
  | .scratchpadArbitration n g => Sys2Proof.Machine.execScratchpadArbitration n g s
  | .reconstructedRead n g b r => Sys2Proof.Machine.execReconstructedRead n g b r s
  | .bankRetire n b g => Sys2Proof.Machine.execBankRetire n b g s
  | .rebuildComplete n => Sys2Proof.Machine.execRebuildComplete n s
  -- mailbox, propagation hold, host, fabric, O-dies, management
  | .mailboxRequest v => Sys2Proof.Machine.execMailboxRequest v s
  | .mailboxResponse n v => Sys2Proof.Machine.execMailboxResponse n v s
  | .pholdWrite v => Sys2Proof.Machine.execPholdWrite v s
  | .hostRead off len => Sys2Proof.Machine.execHostRead off len s
  | .hostWrite off data => Sys2Proof.Machine.execHostWrite off data s
  | .functionLevelReset f => Sys2Proof.Machine.execFunctionLevelReset f s
  | .flitReceive l body crc msgs => Sys2Proof.Machine.execFlitReceive l body crc msgs s
  | .linkDown l => Sys2Proof.Machine.execLinkDown l s
  | .collectiveAbandon pkg => Sys2Proof.Machine.execCollectiveAbandon pkg s
  | .frameTransmit port => Sys2Proof.Machine.execFrameTransmit port s
  | .frameReceive port data => Sys2Proof.Machine.execFrameReceive port data s
  | .laneMapWrite o f v => Sys2Proof.Machine.execLaneMapWrite o f v s
  | .replayControlWrite o v => Sys2Proof.Machine.execReplayControlWrite o v s
  | .monitorReplayRead o rd => Sys2Proof.Machine.execMonitorReplayRead o rd s
  | .heaterWrite o n v => Sys2Proof.Machine.execHeaterWrite o n v s
  | .monitorConversion o n sample => Sys2Proof.Machine.execMonitorConversion o n sample s
  | .laneServiceRun o v => Sys2Proof.Machine.execLaneServiceRun o v s
  | .temperatureConversion d temp => Sys2Proof.Machine.execTemperatureConversion d temp s
  | .throttleGateApply d => Sys2Proof.Machine.execThrottleGateApply d s
  | .standardInstruction j => Sys2Proof.Machine.execStandardInstruction j s
  | .postedArrival j => Sys2Proof.Machine.execPostedArrival j s
  | .storeQueueDrain j => Sys2Proof.Machine.execStoreQueueDrain j s
  | .invalidationTaken j => Sys2Proof.Machine.execInvalidationTaken j s
  | .timingPortLock ns => Sys2Proof.Machine.execTimingPortLock ns s
  | .linkOpen l pkg => Sys2Proof.Machine.execLinkOpen l pkg s
  | .memoryControllerDown d => Sys2Proof.Machine.execMemoryControllerDown d s
  | .memoryControllerUp d => Sys2Proof.Machine.execMemoryControllerUp d s
  | .coreResetRelease die => Sys2Proof.Machine.execCoreResetRelease die s
  -- the steps that carry no operand, of every group above
  | .taskRetire => Sys2Proof.Machine.execTaskRetire s
  | .taskAbort => Sys2Proof.Machine.execTaskAbort s
  | .taskDirect => Sys2Proof.Machine.execTaskDirect s
  | .taskYield => Sys2Proof.Machine.execTaskYield s
  | .snapTrig => Sys2Proof.Machine.execSnapTrig s
  | .fqPop => Sys2Proof.Machine.execFqPop s
  | .waitComplete => Sys2Proof.Machine.execWaitComplete s
  | .waitOverrun => Sys2Proof.Machine.execWaitOverrun s
  | .engineFaultException => Sys2Proof.Machine.execEngineFaultException s
  | .engineAwaitTaken => Sys2Proof.Machine.execEngineAwaitTaken s
  | .commandRetire => Sys2Proof.Machine.execCommandRetire s
  | .boundOverrun => Sys2Proof.Machine.execBoundOverrun s
  | .waypointAdmit => Sys2Proof.Machine.execWaypointAdmit s
  | .waypointCancel => Sys2Proof.Machine.execWaypointCancel s
  | .waypointRelease => Sys2Proof.Machine.execWaypointRelease s
  | .engineKill => Sys2Proof.Machine.execEngineKill s
  | .tlbInvalAll => Sys2Proof.Machine.execTlbInvalAll s
  | .regionTableCommit => Sys2Proof.Machine.execRegionTableCommit s
  | .regionTableDrainDone => Sys2Proof.Machine.execRegionTableDrainDone s
  | .hubThaw => Sys2Proof.Machine.execHubThaw s
  | .predictorClear => Sys2Proof.Machine.execPredictorClear s
  | .swapJob => Sys2Proof.Machine.execSwapJob s
  | .heldWriteRelease => Sys2Proof.Machine.execHeldWriteRelease s
  | .scRebase => Sys2Proof.Machine.execScRebase s
  | .firmwareGo => Sys2Proof.Machine.execFirmwareGo s
  | .packageReset => Sys2Proof.Machine.execPackageReset s
  | .logPush => Sys2Proof.Machine.execLogPush s
  | .surveyMgmtTrigger => Sys2Proof.Machine.execSurveyMgmtTrigger s
  | .surveyRearm => Sys2Proof.Machine.execSurveyRearm s
  | .surveyTimeTrigger => Sys2Proof.Machine.execSurveyTimeTrigger s
  | .localInterrupt => Sys2Proof.Machine.execLocalInterrupt s
  | .cxlLinkDown => Sys2Proof.Machine.execCxlLinkDown s
  | .cxlLinkUp => Sys2Proof.Machine.execCxlLinkUp s
  | .hubFlushDone => Sys2Proof.Machine.execHubFlushDone s
  | .tlbInvalidationDone => Sys2Proof.Machine.execTlbInvalidationDone s
  | .swapRemapCommit => Sys2Proof.Machine.execSwapRemapCommit s

end Sys2Proof.Machine
end

