-- ==== Sys2Proof/Machine/Step.lean ====
section
/-! DEFINITION. One step: the next turn, and the instruction it comes to (log 1). How an instruction is placed where the
next step fetches it (log 22). -/
namespace Sys2Proof.Machine

/-- The turn of this step: the first of the agenda, or, where it is empty, a free one (log 1). -/
def State.nextTurn (s : State) : Turn × State :=
  match s.agenda with
  | t :: rest => (t, { s with agenda := rest })
  | [] => (Config.freeTurn s.freeNo, { s with freeNo := s.freeNo + 1 })

def step (s : State) : Host.Outcome State Fault Refusal :=
  match chooseTurn s.nextTurn.1 s.nextTurn.2 with
  | .run i s' => exec i s'
  | .over_ s' => .next s'

/-- The state with the instruction whose bits are `w` at the pc of core 0, the next turn core 0's, in M-mode, running, with
no wait, interrupt or resume request before it, and with no older write or fault between the fetch and these bytes. -/
def State.withFetchWord (s : State) (nbits w : Nat) : State :=
  let c := s.core 0
  let h := { c.hart.setCsrRaw 0x344 0 with run := .run, priv := .m, wait := none }
  let line := h.pc.toNat / 64
  let key := s.key h.pc.toNat
  let s := s.setCore 0 { c with hart := h, resuming := none, sq := [] }
  { s with agenda := [.hart (.core 0)], gate := Table.put 0 s.gate 0 0, rtDrain := false,
           stale := s.stale.filter fun x => x.line != line, heldW := s.heldW.filter fun x => x.pa / 64 != line,
           lines := Table.put LineMeta.good s.lines (key / 64) LineMeta.good,
           mem := Memory.writeList s.mem key (leBytes 32 (w % 2 ^ nbits)) }

end Sys2Proof.Machine
end

