-- ==== Sys2Proof/Safety.lean ====
section
/-! DEFINITION. The terms in which claims about the machine are made: when an operation runs to its end, what an
instruction answers, when a command is the one that its engine works on, and the invariants of the state. -/
namespace Sys2Proof.Machine

/-- The operation runs to its end from `s`, answering `x` and leaving `t`. -/
def Ok {α : Type} (m : M α) (s : State) (x : α) (t : State) : Prop := m.run s = (.ok x, t)

/-- The step acts for agent `a`. -/
def State.byHart (s : State) (a : Agent) : Prop := s.focus = .hart a

/-- The step acts for control core `n`. -/
def State.byCore (s : State) (n : Nat) : Prop := s.focus = .hart (.core n)

/-- The engine of the step is `e` of core `n`, and `f`, at place `i` of its ring, is the command it works on: every
command before it is done, and it stands ready. -/
structure Working (s : State) (n : Nat) (e : Eng) (i : Nat) (f : Flight) : Prop where
  focus : s.focus = .flight n e i
  turn : (s.ring n e).turnOf i = some f
  ready : f.phase = .ready

/-- The command that a step of an engine is about. -/
def State.cx (s : State) (n : Nat) (e : Eng) (f : Flight) : Cx := { n := n, e := e, owner := (s.ring n e).owner, f := f }

/-- The state in which the command has come to its end and waits for its retirement. -/
def State.doneFlight (s : State) (n : Nat) (e : Eng) (f : Flight) : State := s.modFlight n e f.slot fun f => f.finish e

/-- The state in which the command has stopped at a boundary, at offset `o` of its work where it names one. -/
def State.pausedFlight (s : State) (n : Nat) (e : Eng) (f : Flight) (o : Option Nat) : State :=
  s.modFlight n e f.slot fun f => { f with prog := { f.prog with off := o.getD f.prog.off } }

/-- The instruction completes and the pc moves on (R50): what every control instruction that does not jump does last. -/
def State.fallThrough (s : State) (a : Agent) : State := s.finishInstr a none

/-- Integer register `rd` of an agent takes a value; a write of x0 is discarded. -/
def State.setX (s : State) (a : Agent) (rd : Reg) (v : W64) : State := s.setHart a ((s.hart a).set rd v)

/-- `t` is `s` but for core `n`, which is `c`: every other core and every other part of the package stands as before. -/
structure State.OnlyCore (s t : State) (n : Nat) (c : Core) : Prop where
  rest : t = { s with cores := t.cores }
  here : t.core n = c
  others : ∀ m, m ≠ n → t.core m = s.core m

/-- The exception "illegal instruction" is taken, and nothing else happens (R54, R347). -/
def State.illegalAt (s : State) (a : Agent) : State := s.takeTrap a { code := 2 }

/-- Slots of a ring that have been released and not retired (R24). -/
def Core.outstanding (c : Core) (e : Eng) : Nat := ((c.ring e).write - (c.ring e).retire).toNat

/-- Memory stands in its canonical form. -/
def State.MemOk (s : State) : Prop := Memory.wf s.mem = true

/-- No core's fault queue holds more than the 16 records it has room for (R351). -/
def State.FqOk (s : State) : Prop := ∀ n, (s.core n).fq.length ≤ 16

end Sys2Proof.Machine
end

