-- ==== Sys2Proof/WellFormed.lean ====
section
/-! DEFINITION. Well-formed instructions: those that some words encode. A command is well formed when its word passes every
check that the word itself determines (R56, R67); a control instruction when its operands are those of its own form. -/
namespace Sys2Proof

/-- The operands of a control instruction: the register form of `ring.post` names a register, a store has a store's width,
and LR has no second source. -/
def Instr.formOk : Instr → Bool
  | .ringPostReg _ rs1 _ | .ringPostFreshReg _ rs1 _ => rs1 != 0#5
  | .controlCoreStore k _ _ _ =>
    match k with
    | .b | .h | .w | .d => true
    | .bu | .hu | .wu => false
  | .standardAtomic op _ _ _ _ _ rs2 => op != .lr || rs2 == 0#5
  | _ => true

/-- A well-formed instruction. -/
def Instr.wf (i : Instr) : Bool := i.legal && i.formOk

end Sys2Proof
end

