-- ==== Sys2Proof/Certificates/Slice0/Obligations.lean ====
section
/-! DEFINITION. The statements about the machine that are to be proved, each under the name `Obligations.<Name>`; what a
statement formalises is said before it. -/
open Sys2Proof Sys2Proof.Machine

/-! ### The step, decoding, reset -/

/-- When the bytes at the pc of a hart decode to an instruction that the hart may execute, and nothing comes before it at
the boundary (R349), the step is that instruction: `exec` of it, in the state that the fetch leaves, with its length noted.
Which turn comes next is plain data or a free value (the model's, log 1). -/
def Obligations.StepRunsDecoded : Prop :=
  ∀ (s s1 s2 : State) (a : Agent) (bs : List Byte) (i : Instr) (len : Nat),
    s.nextTurn = (.hart a, s1) →
    (s1.hart a).run = .run → s1.agentGated a = false → s1.faultDue a = false → s1.intrDue a = none →
    (s1.hart a).wait = none →
    Ok (fetchInstr a) { s1 with focus := .hart a } bs s2 → decodeBytes bs = some (i, len) → agentMay a i = true →
    step s = exec i { s2 with ilen := len }

/-- The next released slot of a ring becomes the engine's program counter: its command joins those in flight with the words
that stand in the slot, and READ moves on by one (R24, R28), descriptor copies that are due to be dropped going first (R224); and
the command whose turn it is, once ready, is executed by the next step for its engine, as far as the boundaries left to the
turn (log 17). -/
def Obligations.StepRunsCommand : Prop :=
  (∀ (s s1 s2 : State) (n : Nat) (e : Eng) (q : W64 × W64 × W64 × W64),
    s.nextTurn = (.start n e, s1) → ({ s1 with focus := .hub } : State).mayStart n e = true →
    let u : State := { s1 with focus := .hub }
    let v := u.modCore n Core.dropIfDue
    Ok (readSlot n e (s1.ring n e) (s1.ring n e).read) v q s2 →
    ∃ t f, step s = .next t ∧ (t.ring n e).flight = (s1.ring n e).flight ++ [f] ∧ (t.ring n e).read = (s1.ring n e).read + 1 ∧
      f.slot = (s1.ring n e).read ∧ f.q0 = q.1 ∧ f.q1 = q.2.1 ∧ f.q2 = q.2.2.1 ∧ f.q3 = q.2.2.2 ∧
      f.org = Table.get Origin.empty (s1.ring n e).org (s1.ring n e).read.toNat ∧ t.mem = s2.mem ∧
      (t.core n).descs = (s2.core n).descs) ∧
  (∀ (s s1 : State) (n : Nat) (e : Eng) (i : Nat) (k : Option Nat) (slow : Bool) (f : Flight) (x : Instr),
    s.nextTurn = (.advance n e i k slow, s1) → (s1.core n).frozen = false → s1.gated (dieOf n) = false →
    (s1.ring n e).flight[i]? = some f → ((s1.ring n e).flight.take i).all (fun g => g.phase == .done) = true →
    f.phase = .ready → f.begun = true ∨ (s1.core n).mayBegin e = true → f.overdue e s1.now = false →
    commandOf e f.q0 f.q1 f.q2 f.q3 = some x → step s = exec x { s1 with left := k, slow := slow, focus := .flight n e i })

/-- Words written out from the encodings of the spec, one or more for each family, are the instructions they stand for: the
worked lines of R54 and R290, control words of R51 to R53, and command words of R55 with the opcodes of R58 and R62 to R66. -/
def Obligations.WordsDecode : Prop :=
  decode (.word 0x0020000B#32) = some (.ringPost .ld 2#12) ∧
  decode (.word 0x0010010B#32) = some (.ringPost .mx 1#12) ∧
  decode (.word 0x0005850B#32) = some (.ringPostFreshReg .mx 11#5 0#12) ∧
  decode (.word 0x0630100B#32) = some (.semWait 3#5) ∧
  decode (.word 0x10B6252B#32) = some (.amoAdd false .die 10#5 11#5 12#5) ∧
  decode (.word 0x0200300B#32) = some .taskAbort ∧
  decode (.word 0x0005005B#32) = some (.ctxSave 10#5) ∧
  decode (.word 0x00B50533#32) = some (.standardInstruction (.alu .add 10#5 10#5 11#5)) ∧
  decode (.cmd 0xF000000000000000#64 0#64 0#64 0#64) = some (.nop .ld ⟨0#5, false, 0#5, false, 0#20, 0#2, 0#2, false⟩) ∧
  decode (.cmd 0xF010000000000000#64 0#64 0#64 0#64) = some (.nop .st ⟨0#5, false, 0#5, false, 0#20, 0#2, 0#2, false⟩) ∧
  decode (.cmd 0xF131470004000000#64 0x40005#64 0#64 0#64) =
    some (.cbRelCommand .vx ⟨2#5, true, 3#5, true, 64#20, 0#2, 0#2, false⟩ { cb := 5, m := 4 }) ∧
  decode (.cmd 0x0100000400000000#64 0x2000000060000000#64 0x0000000010080020#64 0x0008000000000020#64) =
    some (.ldTile ⟨0#5, false, 0#5, false, 0x4000#20, 0#2, 0#2, false⟩
      { res := 0, rft := false, rreg := 0, dcen := false, span := 0, tr := false, cs := 0, dst := 0x60000000, q1hi := 0x20000000,
        len0 := 32, cnt1 := 8, cnt2 := 1, dctr := 0, stype := 0, q2z := 0, q3 := 0x0008000000000020 }) ∧
  decode (.cmd 0x012007010000000D#64 0x00000000A0000180#64 0#64 0#64) =
    some (.mmaBf16 ⟨0#5, false, 3#5, true, 4096#20, 0#2, 0#2, false⟩ { md := 0xD, q1 := 0xA0000180, q2 := 0, q3 := 0 }) ∧
  decode (.cmd 0x12300B0000210001#64 0x0000000C10800304#64 0#64 0#64) =
    some (.vxAdds ⟨0#5, false, 5#5, true, 2#20, 0#2, 1#2, false⟩
      { msk := 1, mz := false, gz := 0, xm := 0, vd := 4, z76 := 0, etype := 3, va := ⟨2, 0, 0, false⟩, vb := ⟨3, 0, 0, true⟩,
        vc := ⟨0, 0, 0, false⟩, kd := 0, ka := 0, kb := 0, imm := 0, etype2 := 0, q2z := 0, q3 := 0 }) ∧
  decode (.cmd 0x0251400400000000#64 0x6007100800000006#64 0x0008020060020000#64 0#64) =
    some (.tvBlk ⟨2#5, true, 0#5, false, 0x4000#20, 0#2, 0#2, false⟩
      { fe := false, fin := false, modz := 0, sreg := 6, q1z := 0, idx := 0, q1zz := 0, stw := 0x60071008, src := 0x60020000,
        spitch := 512, ntok := 8, q2z := 0, q3 := 0 }) ∧
  decode (.cmd 0x0441C90004000003#64 0x6006000060080000#64 0x6007000000080008#64 0x00000A0C00080001#64) =
    some (.ctSoftmax ⟨3#5, true, 4#5, true, 64#20, 0#2, 0#2, false⟩
      { causal := true, pre := true, modz := 0, dst := 0x60080000, src := 0x60060000, len := 8, rows := 8, q2z := 0,
        aux := 0x60070000, spitch := 1, dpitch := 8, stype := 0x0C, dtype := 0x0A, row0 := 0 })

/-- Decoding undoes encoding, for every well-formed instruction that has words: no bit of an encoding is dropped. -/
def Obligations.DecodeEncode : Prop :=
  ∀ (i : Instr) (c : Code), i.wf = true → encode i = some c → decode c = some i

/-- Every step keeps memory in its canonical form and every fault queue within the 16 records it has room for (R351). -/
def Obligations.StepKeepsInvariant : Prop :=
  ∀ s t : State, s.MemOk → s.FqOk → step s = .next t → t.MemOk ∧ t.FqOk

/-- After package reset memory lists nothing, in canonical form, and no fault queue holds a record.
That memory lists nothing and that the queues are empty are the model's choices (log 5, log 9). -/
def Obligations.ResetMeetsInvariant : Prop :=
  State.reset.MemOk ∧ State.reset.FqOk ∧ (∀ pa, Memory.read State.reset.mem pa = Memory.absent) ∧ ∀ n, (State.reset.core n).fq = []

/-- What package reset leaves: every core and every lane service core is held in reset, every semaphore is 0, no buffer is configured, no link is up,
every dependence counter is 0, and the registers whose reset value the spec gives hold it: `cwlim` (R310), region table entry 0 of
both copies (R97), DBPCTL.THR (R121), STGBASE (R122), HLSTAT.UP (R127), SCHQUANT.TAU (R335), MBRSP.DONE (R378) and a lane map of the identity (R389).
The semaphores, buffers and counters are the model's reset values (log 9, log 25). -/
def Obligations.ResetValues : Prop :=
  (∀ n, (State.reset.core n).hart.run = .reset ∧ State.reset.lane n = Hart.reset ∧ (∀ i, (State.reset.core n).sem i = 0) ∧
    (∀ i, ((State.reset.core n).cb i).configured = false) ∧ (State.reset.core n).hart.csrRaw 0x801 = 0x1000000#64) ∧
  (∀ d, State.reset.inReset d = true) ∧ (∀ p, State.reset.reaches p = false) ∧
  (∀ k, Table.get (0 : W16) State.reset.depCnt k = 0) ∧
  State.reset.rtActive 0 = { valid := true, rplen := false, rplidx := 0, gran := 0, smask := 0xFF, base := 0, size := 512, stkoff := 0 } ∧
  State.reset.rtStaged 0 = State.reset.rtActive 0 ∧ (State.reset.rtActive 1).valid = false ∧
  State.reset.reg 0x030000211000 = 8#64 ∧ State.reset.fld 0x030000202000 38 22 = 0x1FEE0 ∧ State.reset.reg 0x030000240000 = 0xF#64 ∧
  State.reset.reg 0x030001500010 = 225000#64 ∧ State.reset.reg 0x030001700008 = 1#64 ∧ State.reset.reg 0x030002000400 = 0x3210#64

/-! ### Standard instructions (R48) -/

namespace Sys2Proof.Machine

/-- The low 32 bits of a number as a 64-bit register holds them, sign-extended. -/
def sx32 (v : Nat) : Nat := if 2 ^ 31 ≤ v % 2 ^ 32 then v % 2 ^ 32 + (2 ^ 64 - 2 ^ 32) else v % 2 ^ 32

/-- The low 32 bits of a number read as a signed number. -/
def sgn32 (v : Nat) : Int := if 2 ^ 31 ≤ v % 2 ^ 32 then (v % 2 ^ 32 : Int) - 2 ^ 32 else (v % 2 ^ 32 : Int)

/-- The result of a register-register operation as a number below 2^64, by the arithmetic of its operands. -/
def aluRule (op : AluOp) (x y : W64) : Nat :=
  let k := y.toNat % 64
  let m := 2 ^ 64 - 1
  match op with
  | .add => (x.toNat + y.toNat) % 2 ^ 64
  | .sub => (2 ^ 64 + x.toNat - y.toNat) % 2 ^ 64
  | .sll => x.toNat * 2 ^ k % 2 ^ 64
  | .slt => if x.toInt < y.toInt then 1 else 0
  | .sltu => if x.toNat < y.toNat then 1 else 0
  | .xor => x.toNat ^^^ y.toNat
  | .srl => x.toNat / 2 ^ k
  | .sra => wrap 64 (x.toInt / (2 ^ k : Nat))
  | .or => x.toNat ||| y.toNat
  | .and => x.toNat &&& y.toNat
  | .mul => x.toNat * y.toNat % 2 ^ 64
  | .mulh => wrap 64 (x.toInt * y.toInt / (2 ^ 64 : Nat))
  | .mulhsu => wrap 64 (x.toInt * y.toNat / (2 ^ 64 : Nat))
  | .mulhu => x.toNat * y.toNat / 2 ^ 64
  | .div => if y = 0 then m else wrap 64 (x.toInt.tdiv y.toInt)
  | .divu => if y = 0 then m else x.toNat / y.toNat
  | .rem => if y = 0 then x.toNat else wrap 64 (x.toInt.tmod y.toInt)
  | .remu => if y = 0 then x.toNat else x.toNat % y.toNat
  | .sh1add => (y.toNat + 2 * x.toNat) % 2 ^ 64
  | .sh2add => (y.toNat + 4 * x.toNat) % 2 ^ 64
  | .sh3add => (y.toNat + 8 * x.toNat) % 2 ^ 64
  | .addUw => (y.toNat + x.toNat % 2 ^ 32) % 2 ^ 64
  | .sh1addUw => (y.toNat + 2 * (x.toNat % 2 ^ 32)) % 2 ^ 64
  | .sh2addUw => (y.toNat + 4 * (x.toNat % 2 ^ 32)) % 2 ^ 64
  | .sh3addUw => (y.toNat + 8 * (x.toNat % 2 ^ 32)) % 2 ^ 64
  | .andn => x.toNat &&& (m - y.toNat)
  | .orn => x.toNat ||| (m - y.toNat)
  | .xnor => m - (x.toNat ^^^ y.toNat)
  | .max => wrap 64 (max x.toInt y.toInt)
  | .maxu => max x.toNat y.toNat
  | .min => wrap 64 (min x.toInt y.toInt)
  | .minu => min x.toNat y.toNat
  | .rol => (x.toNat * 2 ^ k + x.toNat / 2 ^ (64 - k)) % 2 ^ 64
  | .ror => (x.toNat / 2 ^ k + x.toNat * 2 ^ (64 - k)) % 2 ^ 64

/-- The same for the operations on words. -/
def aluwRule (op : AluWOp) (x y : W64) : Nat :=
  let a := x.toNat % 2 ^ 32
  let b := y.toNat % 2 ^ 32
  let k := y.toNat % 32
  match op with
  | .addw => sx32 (a + b)
  | .subw => sx32 (2 ^ 32 + a - b)
  | .sllw => sx32 (a * 2 ^ k)
  | .srlw => sx32 (a / 2 ^ k)
  | .sraw => sx32 (wrap 32 (sgn32 a / (2 ^ k : Nat)))
  | .mulw => sx32 (a * b)
  | .divw => if b = 0 then 2 ^ 64 - 1 else sx32 (wrap 32 ((sgn32 a).tdiv (sgn32 b)))
  | .divuw => if b = 0 then 2 ^ 64 - 1 else sx32 (a / b)
  | .remw => if b = 0 then sx32 a else sx32 (wrap 32 ((sgn32 a).tmod (sgn32 b)))
  | .remuw => if b = 0 then sx32 a else sx32 (a % b)
  | .rolw => sx32 (a * 2 ^ k + a / 2 ^ (32 - k))
  | .rorw => sx32 (a / 2 ^ k + a * 2 ^ (32 - k))

/-- The same for the operations with an immediate, which counts sign-extended. -/
def immRule (op : ImmOp) (x i : W64) : Nat :=
  match op with
  | .addi => (x.toNat + i.toNat) % 2 ^ 64
  | .slti => if x.toInt < i.toInt then 1 else 0
  | .sltiu => if x.toNat < i.toNat then 1 else 0
  | .xori => x.toNat ^^^ i.toNat
  | .ori => x.toNat ||| i.toNat
  | .andi => x.toNat &&& i.toNat

/-- The same for shifts by `k` places. -/
def shiftRule (op : ShiftOp) (x : W64) (k : Nat) : Nat :=
  match op with
  | .slli => x.toNat * 2 ^ k % 2 ^ 64
  | .srli => x.toNat / 2 ^ k
  | .srai => wrap 64 (x.toInt / (2 ^ k : Nat))
  | .rori => (x.toNat / 2 ^ k + x.toNat * 2 ^ (64 - k)) % 2 ^ 64
  | .slliUw => x.toNat % 2 ^ 32 * 2 ^ k % 2 ^ 64

def shiftwRule (op : ShiftWOp) (x : W64) (k : Nat) : Nat :=
  let a := x.toNat % 2 ^ 32
  match op with
  | .slliw => sx32 (a * 2 ^ k)
  | .srliw => sx32 (a / 2 ^ k)
  | .sraiw => sx32 (wrap 32 (sgn32 a / (2 ^ k : Nat)))
  | .roriw => sx32 (a / 2 ^ k + a * 2 ^ (32 - k))

/-- What makes `r` the count of leading zeros of the low `w` bits of `x`. -/
def IsClz (w x r : Nat) : Prop := r ≤ w ∧ x % 2 ^ w < 2 ^ (w - r) ∧ (r < w → 2 ^ (w - r - 1) ≤ x % 2 ^ w)

/-- What makes `r` the count of trailing zeros of the low `w` bits of `x`. -/
def IsCtz (w x r : Nat) : Prop := r ≤ w ∧ x % 2 ^ r = 0 ∧ (r < w → x / 2 ^ r % 2 = 1)

/-- What makes `r` the result of an operation with one operand `x`. -/
def unRule (op : UnOp) (x r : Nat) : Prop :=
  match op with
  | .clz => IsClz 64 x r
  | .ctz => IsCtz 64 x r
  | .cpop => r = ((List.range 64).map fun i => x / 2 ^ i % 2).sum
  | .clzw => IsClz 32 x r
  | .ctzw => IsCtz 32 x r
  | .cpopw => r = ((List.range 32).map fun i => x / 2 ^ i % 2).sum
  | .sextB => r = if 2 ^ 7 ≤ x % 2 ^ 8 then x % 2 ^ 8 + (2 ^ 64 - 2 ^ 8) else x % 2 ^ 8
  | .sextH => r = if 2 ^ 15 ≤ x % 2 ^ 16 then x % 2 ^ 16 + (2 ^ 64 - 2 ^ 16) else x % 2 ^ 16
  | .zextH => r = x % 2 ^ 16
  | .rev8 => ∀ i < 8, r / 256 ^ i % 256 = x / 256 ^ (7 - i) % 256
  | .orcB => ∀ i < 8, r / 256 ^ i % 256 = if x / 256 ^ i % 256 = 0 then 0 else 255

/-- What a load of a kind leaves in its register, of the number its bytes make. -/
def memRule (k : MemKind) (v : Nat) : Nat :=
  match k with
  | .b => if 2 ^ 7 ≤ v then v + (2 ^ 64 - 2 ^ 8) else v
  | .h => if 2 ^ 15 ≤ v then v + (2 ^ 64 - 2 ^ 16) else v
  | .w => sx32 v
  | _ => v

end Sys2Proof.Machine

/-- The operations on integer registers (RV64I, M, Zba, Zbb, Zifencei; R48) write their result into rd, on every hart that has them and in
whatever mode, and change nothing else: memory, the other registers and every other hart stand as before, and the pc moves on. A control core
has all of them; the management core and the lane service cores lack Zba, Zbb and Zifencei (R388, R395, log 57). What the standard's
instructions do is PRESUMED from the standard that R48 names (log 20). -/
def Obligations.IntegerResults : Prop :=
  ∀ (s : State) (a : Agent), s.byHart a →
    let x := fun r => (s.hart a).get r
    let gives := fun (i : Rv) (rd : Reg) (v : Nat) =>
      agentMay a (.standardInstruction i) = true → exec (.standardInstruction i) s = .next ((s.setX a rd (BitVec.ofNat 64 v)).fallThrough a)
    (∀ op rd r1 r2, gives (.alu op rd r1 r2) rd (aluRule op (x r1) (x r2))) ∧
    (∀ op rd r1 r2, gives (.aluw op rd r1 r2) rd (aluwRule op (x r1) (x r2))) ∧
    (∀ op rd r1 imm, gives (.imm op rd r1 imm) rd (immRule op (x r1) (imm.signExtend 64))) ∧
    (∀ rd r1 imm, gives (.addiw rd r1 imm) rd (sx32 ((x r1).toNat + (imm.signExtend 64).toNat))) ∧
    (∀ op rd r1 k, gives (.shift op rd r1 k) rd (shiftRule op (x r1) k.toNat)) ∧
    (∀ op rd r1 k, gives (.shiftw op rd r1 k) rd (shiftwRule op (x r1) k.toNat)) ∧
    (∀ op rd r1, ∃ v < 2 ^ 64, unRule op (x r1).toNat v ∧ gives (.un op rd r1) rd v) ∧
    (∀ rd (imm : BitVec 20), gives (.lui rd imm) rd (sx32 (imm.toNat * 4096))) ∧
    (∀ rd (imm : BitVec 20), gives (.auipc rd imm) rd ((s.hart a).pc.toNat + sx32 (imm.toNat * 4096))) ∧
    (agentMay a (.standardInstruction .fencei) = true → exec (.standardInstruction .fencei) s = .next (s.fallThrough a))

/-- Jumps and branches (RISC-V standard, log 20): a jump leaves in rd the address after it and goes to its target, which for
`jalr` is computed from rs1 before rd is written and has bit 0 clear; a branch goes to its target exactly where its
comparison holds. -/
def Obligations.JumpsAndBranches : Prop :=
  ∀ (s : State) (a : Agent), s.byHart a →
    let h := s.hart a
    let after := h.pc + BitVec.ofNat 64 s.ilen
    (∀ (rd : Reg) (off : BitVec 20), exec (.standardInstruction (.jal rd off)) s =
      .next ((s.setX a rd after).finishInstr a (some (h.pc + (off ++ 0#1 : BitVec 21).signExtend 64)))) ∧
    (∀ (rd r1 : Reg) (imm : BitVec 12), ∃ p : W64, p.getLsbD 0 = false ∧ (h.get r1 + imm.signExtend 64 - p).toNat ≤ 1 ∧
      exec (.standardInstruction (.jalr rd r1 imm)) s = .next ((s.setX a rd after).finishInstr a (some p))) ∧
    (∀ (op : BranchOp) (r1 r2 : Reg) (off : BitVec 12),
      let x := h.get r1
      let y := h.get r2
      let holds : Prop := match op with
        | .beq => x.toNat = y.toNat
        | .bne => x.toNat ≠ y.toNat
        | .blt => x.toInt < y.toInt
        | .bge => y.toInt ≤ x.toInt
        | .bltu => x.toNat < y.toNat
        | .bgeu => y.toNat ≤ x.toNat
      (holds → exec (.standardInstruction (.branch op r1 r2 off)) s =
        .next (s.finishInstr a (some (h.pc + (off ++ 0#1 : BitVec 13).signExtend 64)))) ∧
      (¬holds → exec (.standardInstruction (.branch op r1 r2 off)) s = .next (s.finishInstr a (some after))))

/-- A completed instruction puts the pc behind itself or where it says, ends any wait, and counts in `minstret` unless counting
is inhibited; no other register of the hart, no other hart, and no byte of memory changes.
Writing an integer register gives it the value, and discards a write of x0 (RISC-V standard, log 20); nothing else of the machine changes. -/
def Obligations.RegisterAndPcFrame : Prop :=
  (∀ (s : State) (a : Agent) (p : Option W64),
    let t := s.finishInstr a p
    (t.hart a).pc = p.getD ((s.hart a).pc + BitVec.ofNat 64 s.ilen) ∧ (t.hart a).wait = none ∧
    (∀ r, (t.hart a).get r = (s.hart a).get r) ∧ (t.hart a).priv = (s.hart a).priv ∧
    (∀ k, k ≠ 0xB02 → (t.hart a).csrRaw k = (s.hart a).csrRaw k) ∧
    (((s.hart a).csrRaw 0x320).getLsbD 2 = false → (t.hart a).csrRaw 0xB02 = (s.hart a).csrRaw 0xB02 + 1) ∧
    (((s.hart a).csrRaw 0x320).getLsbD 2 = true → (t.hart a).csrRaw 0xB02 = (s.hart a).csrRaw 0xB02) ∧
    (∀ b, b ≠ a → t.hart b = s.hart b) ∧ (∀ k, Memory.read t.mem k = Memory.read s.mem k) ∧ t.mmio = s.mmio) ∧
  (∀ (s : State) (a : Agent) (rd : Reg) (v : W64),
    let t := s.setX a rd v
    (∀ r, (t.hart a).get r = if r = rd ∧ rd ≠ 0#5 then v else (s.hart a).get r) ∧ (s.hart a).get 0#5 = 0 ∧
    (t.hart a).pc = (s.hart a).pc ∧ (t.hart a).priv = (s.hart a).priv ∧ (t.hart a).csr = (s.hart a).csr ∧ (t.hart a).wait = (s.hart a).wait ∧
    (∀ b, b ≠ a → t.hart b = s.hart b) ∧ t.mem = s.mem ∧ t.mmio = s.mmio ∧
    (∀ n, (t.core n).sems = (s.core n).sems ∧ (t.core n).rings = (s.core n).rings ∧ (t.core n).cbs = (s.core n).cbs ∧
      (t.core n).v = (s.core n).v ∧ (t.core n).acc = (s.core n).acc ∧ (t.core n).fq = (s.core n).fq))

/-- Taking a trap (R347, as the RISC-V privileged architecture has it): delegated to S-mode it saves the pc, the cause and stval, the
mode in SPP and SIE in SPIE, and clears SIE; otherwise the same of M-mode. The pc goes to the vector's base, for a vectored
interrupt four bytes further for each code. No integer register changes.
The fields are the RISC-V standard's (log 20). -/
def Obligations.TrapEntry : Prop :=
  ∀ (h : Hart) (intr : Bool) (code tval : Nat), code < 64 →
    let t := h.takeTrap intr code tval
    let cause : W64 := BitVec.ofNat 64 (code + if intr then 2 ^ 63 else 0)
    let base := fun (v : W64) => (v &&& ~~~3#64) + if intr ∧ v &&& 3#64 = 1#64 then BitVec.ofNat 64 (4 * code) else 0
    (h.delegated intr code = true →
      t.priv = .s ∧ t.pc = base (h.csrRaw 0x105) ∧ t.csrRaw 0x141 = h.pc ∧ t.csrRaw 0x142 = cause ∧
      t.csrRaw 0x143 = BitVec.ofNat 64 tval ∧ t.csrBit 0x300 8 = (h.priv == .s) ∧ t.csrBit 0x300 5 = h.csrBit 0x300 1 ∧
      t.csrBit 0x300 1 = false ∧ (∀ i, i ≠ 8 → i ≠ 5 → i ≠ 1 → t.csrBit 0x300 i = h.csrBit 0x300 i) ∧
      (∀ k, k ≠ 0x141 → k ≠ 0x142 → k ≠ 0x143 → k ≠ 0x300 → t.csrRaw k = h.csrRaw k)) ∧
    (h.delegated intr code = false →
      t.priv = .m ∧ t.pc = base (h.csrRaw 0x305) ∧ t.csrRaw 0x341 = h.pc ∧ t.csrRaw 0x342 = cause ∧
      t.csrRaw 0x343 = BitVec.ofNat 64 tval ∧ bits (t.csrRaw 0x300).toNat 12 11 = h.priv.num ∧
      t.csrBit 0x300 7 = h.csrBit 0x300 3 ∧ t.csrBit 0x300 3 = false ∧
      (∀ i, i ≠ 12 → i ≠ 11 → i ≠ 7 → i ≠ 3 → t.csrBit 0x300 i = h.csrBit 0x300 i) ∧
      (∀ k, k ≠ 0x341 → k ≠ 0x342 → k ≠ 0x343 → k ≠ 0x300 → t.csrRaw k = h.csrRaw k)) ∧
    t.x = h.x ∧ t.wait = none ∧ t.run = h.run

/-- `ecall` takes the exception of its mode and `ebreak` the breakpoint (standard codes, R347); `mret` and `sret` go back to
the saved pc and mode and move the saved interrupt enable back; below their mode, and `sret` on a hart without S-mode, they are illegal
instructions, as is `wfi` where TW says so, and `wfi` otherwise ends at once (the model's choice, log 21). The management core and the
lane service cores have M-mode only (R388, R395): there `mret` stays in M-mode and leaves MPP at 3.
The value that `stval` takes at a breakpoint is free (log 2). -/
def Obligations.SystemInstructions : Prop :=
  ∀ (s : State) (a : Agent), s.byHart a →
    let h := s.hart a
    let frame := fun (t : State) => (t.hart a).x = h.x ∧ t.mem = s.mem ∧ (∀ b, b ≠ a → t.hart b = s.hart b) ∧
      ∀ k, k ≠ 0x300 → k ≠ 0xB02 → (t.hart a).csrRaw k = h.csrRaw k
    exec (.standardInstruction (.sys .ecall)) s = .next (s.takeTrap a { code := if h.priv = .u then 8 else if h.priv = .s then 9 else 11 }) ∧
    exec (.standardInstruction (.sys .ebreak)) s = .next (s.takeTrap a { code := 3 }) ∧
    (h.priv ≠ .m → exec (.standardInstruction (.sys .mret)) s = .next (s.illegalAt a)) ∧
    (h.priv = .m → ∃ t, exec (.standardInstruction (.sys .mret)) s = .next t ∧ (t.hart a).pc = h.csrRaw 0x341 ∧
      (a.isCore = true → (t.hart a).priv = (match bits (h.csrRaw 0x300).toNat 12 11 with | 0 => .u | 1 => .s | _ => .m) ∧
        bits ((t.hart a).csrRaw 0x300).toNat 12 11 = 0) ∧
      (a.isCore = false → (t.hart a).priv = .m ∧ bits ((t.hart a).csrRaw 0x300).toNat 12 11 = 3) ∧
      (t.hart a).csrBit 0x300 3 = h.csrBit 0x300 7 ∧ (t.hart a).csrBit 0x300 7 = true ∧ frame t) ∧
    (a.isCore = false ∨ h.priv = .u ∨ (h.priv = .s ∧ h.csrBit 0x300 22 = true) →
      exec (.standardInstruction (.sys .sret)) s = .next (s.illegalAt a)) ∧
    (a.isCore = true → (h.priv = .m ∨ (h.priv = .s ∧ h.csrBit 0x300 22 = false)) →
      ∃ t, exec (.standardInstruction (.sys .sret)) s = .next t ∧ (t.hart a).pc = h.csrRaw 0x141 ∧
      (t.hart a).priv = (if h.csrBit 0x300 8 then .s else .u) ∧
      (t.hart a).csrBit 0x300 1 = h.csrBit 0x300 5 ∧ (t.hart a).csrBit 0x300 5 = true ∧ (t.hart a).csrBit 0x300 8 = false ∧ frame t) ∧
    ((h.priv = .m ∨ h.csrBit 0x300 21 = false) → exec (.standardInstruction (.sys .wfi)) s = .next (s.fallThrough a)) ∧
    (h.priv ≠ .m → h.csrBit 0x300 21 = true → exec (.standardInstruction (.sys .wfi)) s = .next (s.illegalAt a))

/-- The CSR instructions (standard, log 20; R310): an access that the register, the mode, the counter gates or a read-only number
forbids is an illegal instruction with no effect; any other reads the old value into rd and, unless it is a set or clear of nothing, writes
the register, whose stored value is what its fields keep. `minstret` (0xB02) keeps the value written to it, the instruction's own count included. `engctl` (0x5C3) has a statement of its own.
Which fields of standard registers can be written is the standard's (log 20); that the management core and the lane service cores have the
registers of a machine with M-mode only, and that the lane service cores have the CSR instructions, is the model's (log 57). -/
def Obligations.CsrInstructions : Prop :=
  ∀ (s : State) (a : Agent) (op : CsrOp) (rd : Reg) (num : BitVec 12) (i : Rv) (src : W64) (wr : Bool), s.byHart a →
    ((∃ r1, i = .csr op rd r1 num ∧ src = (s.hart a).get r1 ∧ wr = (op == .rw || r1 != 0#5)) ∨
     (∃ u : BitVec 5, i = .csri op rd u num ∧ src = BitVec.ofNat 64 u.toNat ∧ wr = (op == .rw || u != 0#5))) →
    let h := s.hart a
    let k := num.toNat
    let old := s.csrValue a k
    let new := match op with
      | .rw => src
      | .rs => old ||| src
      | .rc => old &&& ~~~src
    let barred := csrExists a k = false ∨ h.csrAllowed k = false ∨ h.csrGate k = false ∨ (wr = true ∧ bits k 11 10 = 3)
    (barred → exec (.standardInstruction i) s = .next (s.illegalAt a)) ∧
    (¬barred → wr = false → exec (.standardInstruction i) s = .next ((s.setX a rd old).fallThrough a)) ∧
    (¬barred → wr = true → k ≠ 0x5C3 → k ≠ 0xB02 →
      exec (.standardInstruction i) s = .next (((s.setHart a (h.csrStore a.isCore k new)).setX a rd old).fallThrough a)) ∧
    (¬barred → wr = true → k = 0xB02 → ∃ t : State, exec (.standardInstruction i) s = .next t ∧ (t.hart a).csrRaw 0xB02 = new ∧
      (∀ r, (t.hart a).get r = if r = rd ∧ rd ≠ 0#5 then old else h.get r) ∧ (t.hart a).pc = h.pc + BitVec.ofNat 64 s.ilen ∧
      (∀ j, j ≠ 0xB02 → (t.hart a).csrRaw j = h.csrRaw j) ∧ t.mem = s.mem ∧ ∀ b, b ≠ a → t.hart b = s.hart b)

/-- `numst` (R72): of a write bits 5 to 0 clear the flags they are 1 at, bits 17 and 16 are stored, and every other bit reads
zero afterwards; the flags a command raises are OR-ed in; after reset the register is 0. -/
def Obligations.NumericStatus : Prop :=
  (∀ (h : Hart) (v : W64) (i : Nat), i < 64 →
    ((h.csrStore true 0x800 v).csrRaw 0x800).getLsbD i =
      (if i < 6 then (h.csrRaw 0x800).getLsbD i && !v.getLsbD i else if i = 16 ∨ i = 17 then v.getLsbD i else false)) ∧
  (∀ (s : State) (n : Nat) (f : Flags), ((s.orFlags n f).core n).hart.csrRaw 0x800 =
    (s.core n).hart.csrRaw 0x800 ||| BitVec.ofNat 64 (b2n f.nv + 2 * b2n f.of + 4 * b2n f.uf + 8 * b2n f.nx + 16 * b2n f.l8d + 32 * b2n f.gzl)) ∧
  Hart.reset.csrRaw 0x800 = 0


/-! ### Events at a boundary, waits -/

/-- At an instruction boundary of a running control core, and inside a wait (R349), the engine fault comes first where the fault queue holds a record and the core is in U-mode or in S-mode with SIE, then the interrupts, of those of R350 the lowest number (16, which awaits quiet engines, may stand back), then the wait in progress or the next
instruction, with the exceptions of its fetch. The instruction at sepc has not executed, and `sret` from the handler goes back to it with its mode and its enable.
That 16 may stand back is R304 as the model reads it (log 28), and that the local interrupts go before the standard ones is the model's (log 27). -/
def Obligations.BoundaryOrder : Prop :=
  (∀ (s s1 : State) (n : Nat), s.nextTurn = (.hart (.core n), s1) →
    (s1.core n).hart.run = .run → s1.gated (dieOf n) = false →
    let h := (s1.core n).hart
    let u : State := { s1 with focus := .hart (.core n) }
    let due := (s1.core n).fq ≠ [] ∧ (h.priv = .u ∨ (h.priv = .s ∧ h.csrBit 0x300 1 = true))
    (due → step s = exec .engineFaultException u) ∧
    (¬due → ∀ k, s1.intrDue (.core n) = some k → step s = exec .localInterrupt u ∧
      ((s1.core n).resuming = none → ∀ j, 16 ≤ j → j < 19 → (j < k ∨ k < 16) → bit (s1.mip (.core n)) j = true → h.intrEnabled j = true → j = 16 ∧ (s1.core n).quiet = false)) ∧
    (¬due → s1.intrDue (.core n) = none → h.wait.isSome = true →
      (s1.waitReady (.core n) = true → step s = exec .waitComplete { u with ilen := 4 }) ∧
      (s1.waitReady (.core n) = false → s1.waitOver (.core n) = true → step s = exec .waitOverrun u) ∧
      (s1.waitReady (.core n) = false → s1.waitOver (.core n) = false → step s = .next u)) ∧
    (¬due → s1.intrDue (.core n) = none → h.wait = none →
      (∀ bs s2 i len, Ok (fetchInstr (.core n)) u bs s2 → decodeBytes bs = some (i, len) → step s = exec i { s2 with ilen := len }) ∧
      (∀ bs s2, Ok (fetchInstr (.core n)) u bs s2 → decodeBytes bs = none → step s = .next (s2.illegalAt (.core n))) ∧
      (∀ t s2, (fetchInstr (.core n)).run u = (.error (.trap t), s2) → step s = .next (s2.takeTrap (.core n) t)))) ∧
  ∀ (s : State) (n : Nat), s.byCore n → (s.core n).fq ≠ [] → let h := (s.core n).hart
    h.delegated false 24 = true → (h.priv = .u ∨ (h.priv = .s ∧ h.csrBit 0x300 1 = true)) → h.csrBit 0x300 22 = false →
    ∃ t u : State, exec .engineFaultException s = .next t ∧ (t.core n).hart.csrRaw 0x141 = h.pc ∧ (t.core n).hart.priv = .s ∧ (t.core n).hart.x = h.x ∧ t.mem = s.mem ∧
      exec (.standardInstruction (.sys .sret)) t = .next u ∧ (u.core n).hart.pc = h.pc ∧ (u.core n).hart.priv = h.priv ∧ (u.core n).hart.x = h.x ∧ (u.core n).hart.csrBit 0x300 1 = h.csrBit 0x300 1

/-- The exception "engine fault": code 24, with the cause of the oldest record in stval, and in `shcause` with its detail (R347,
R348); the queue stands as it was, and no engine's ring changes. -/
def Obligations.EngineFaultTaken : Prop :=
  ∀ (s : State) (n : Nat) (r : FaultRec) (rest : List FaultRec), s.byCore n → (s.core n).fq = r :: rest →
    ∃ t : State, exec .engineFaultException s = .next t ∧
      t = s.takeTrap (.core n) { code := 24, tval := r.cause, cause := r.cause, detail := r.detail } ∧
      (t.core n).hart.csrRaw 0x5C2 = BitVec.ofNat 64 (r.cause % 256 + r.detail % 256 * 256) ∧
      ((s.core n).hart.delegated false 24 = true → (t.core n).hart.csrRaw 0x143 = BitVec.ofNat 64 r.cause ∧
        (t.core n).hart.csrRaw 0x142 = 24#64 ∧ (t.core n).hart.csrRaw 0x141 = (s.core n).hart.pc ∧ (t.core n).hart.priv = .s) ∧
      (t.core n).fq = (s.core n).fq ∧ (t.core n).rings = (s.core n).rings ∧ t.mem = s.mem

/-- The waiting instructions (R288): where the condition holds they complete with all their effects, at once; where it does not, the hart
waits from now on with nothing performed, or goes on waiting. `ring.wait` (R290) waits for write − retire ≤ x[rs1], `sem.wait`
(R291) for a count beyond those the awaiting engines take, which it lowers by one, `datum.wait` (R302) for its time.
A wait ends in one of two ways (R288): its condition holds, and the instruction completes as it would have without the wait,
or it has lasted CWLIM cycles, and the trap "wait overrun" is taken, code 26 with the number of what was waited for, and nothing performed.
Where R347 names nothing for `stval`, it is free (log 35). -/
def Obligations.Waiting : Prop :=
  ((∀ (s : State) (a : Agent) (r : Reg), s.byHart a →
    let x := ((s.hart a).get r).toNat
    (x ≤ s.datumOf a → exec (.datumWait r) s = .next (s.fallThrough a)) ∧
    (s.datumOf a < x → exec (.datumWait r) s = .next (s.enterWait a (.datum x)))) ∧
  ∀ (s : State) (n : Nat), s.byCore n →
    let c := s.core n
    (∀ e r, (c.outstanding e ≤ (c.hart.get r).toNat → exec (.ringWait e r) s = .next (s.fallThrough (.core n))) ∧
      ((c.hart.get r).toNat < c.outstanding e →
        exec (.ringWait e r) s = .next (s.enterWait (.core n) (.ring e (c.hart.get r).toNat)))) ∧
    (∀ i : BitVec 5,
      ((c.awaiters i.toNat).length < (c.sem i.toNat).toNat →
        ∃ t : State, exec (.semWait i) s = .next (t.fallThrough (.core n)) ∧ s.OnlyCore t n (c.setSem i.toNat (c.sem i.toNat - 1))) ∧
      ((c.sem i.toNat).toNat ≤ (c.awaiters i.toNat).length →
        exec (.semWait i) s = .next (s.enterWait (.core n) (.sem i.toNat)))) ∧
    (∀ a k, (s.hart a).wait = none → ∃ t, s.enterWait a k = t ∧ (t.hart a).wait = some { since := s.now, kind := k } ∧
      (t.hart a).pc = (s.hart a).pc ∧ (t.hart a).x = (s.hart a).x ∧ t.mem = s.mem ∧ (∀ b, b ≠ a → t.hart b = s.hart b) ∧
      ∀ m, (t.core m).sems = (s.core m).sems ∧ (t.core m).rings = (s.core m).rings ∧ (t.core m).cbs = (s.core m).cbs) ∧
    (∀ a k w, (s.hart a).wait = some w → s.enterWait a k = s)) ∧
  (∀ (s : State) (n : Nat) (w : WaitSt), s.byCore n → (s.core n).hart.wait = some w →
    let c := s.core n
    (∀ e x, w.kind = .ring e x → c.outstanding e ≤ x → exec .waitComplete s = .next (s.fallThrough (.core n))) ∧
    (∀ i, w.kind = .sem i → (c.awaiters i).length < (c.sem i).toNat →
      ∃ t : State, exec .waitComplete s = .next (t.fallThrough (.core n)) ∧ s.OnlyCore t n (c.setSem i (c.sem i - 1))) ∧
    (∀ x, w.kind = .datum x → x ≤ s.datum (dieOf n) → exec .waitComplete s = .next (s.fallThrough (.core n))) ∧
    (∀ v, (w.kind = .sem v ∨ (∃ m, w.kind = .cbClaim v m ∨ w.kind = .cbTake v m) ∨ ∃ e x, w.kind = .ring e x ∧ v = e.num) →
      bits (c.hart.csrRaw 0x801).toNat 39 0 ≠ 0 → w.since + bits (c.hart.csrRaw 0x801).toNat 39 0 ≤ s.now →
      exec .waitOverrun s = .next (s.takeTrap (.core n) { code := 26, tval := v, cause := 21 })))

namespace Sys2Proof

/-- The instructions of custom-2 (R53). -/
def Instr.custom2 : Instr → Bool
  | .ctxSave _ | .ctxRest _ | .fqRd _ _ | .fqPop | .ringCfg _ _ _ | .ringOwn _ _ | .semSet _ _ | .errInj _ _ => true
  | _ => false

/-- The instructions that a control core has and the other cores do not (R388, R395), beside the extensions they lack. -/
def Instr.controlCoreOnly : Instr → Bool
  | .ringPost _ _ | .ringPostReg _ _ _ | .ringPostFresh _ _ | .ringPostFreshReg _ _ _ | .ringWait _ _ | .ringPtr _ _ => true
  | .semRaise _ | .semWait _ | .semRead _ _ | .semTry _ _ => true
  | .cbCfg _ _ _ | .cbClaim _ _ | .cbPush _ _ | .cbTake _ _ | .cbRel _ _ | .cbStat _ _ => true
  | .taskRetire | .taskAbort | .taskDirect | .taskYield | .condSet _ _ | .depDec _ | .graphLaunch _ => true
  | .ldAcq _ _ _ _ | .sdRel _ _ _ _ | .amoAdd _ _ _ _ _ | .amoAnd _ _ _ _ _ | .amoOr _ _ _ _ _ | .amoXor _ _ _ _ _ => true
  | .amoMax _ _ _ _ _ | .amoMin _ _ _ _ _ | .amoSwap _ _ _ _ _ | .amoCas _ _ _ _ _ => true
  | .fenceScoped _ | .arrive _ _ _ | .wait _ _ _ | .sfenceVma _ _ => true
  | i => i.custom2

end Sys2Proof

/-- On the management core and a lane service core every instruction that only a control core has is an illegal instruction
(R388, R395); in U-mode every custom-2 instruction is one on a control core too, and nothing else happens (R53). -/
def Obligations.IllegalByAgent : Prop :=
  (∀ (s : State) (a : Agent) (i : Instr), s.byHart a → a.isCore = false → i.controlCoreOnly = true →
    exec i s = .next (s.illegalAt a)) ∧
  (∀ (s : State) (n : Nat) (i : Instr), s.byCore n → (s.core n).hart.priv = .u → i.custom2 = true →
    exec i s = .next (s.illegalAt (.core n)))

/-! ### Rings, semaphores, buffers -/

namespace Sys2Proof.Machine

/-- The engine, the registers and the FRESH bit of a `ring.post` in each of its four forms. -/
def postOf : Instr → Option (Eng × Reg × BitVec 12 × Bool)
  | .ringPost e imm => some (e, 0#5, imm, false)
  | .ringPostReg e r imm => some (e, r, imm, false)
  | .ringPostFresh e imm => some (e, 0#5, imm, true)
  | .ringPostFreshReg e r imm => some (e, r, imm, true)
  | _ => none

end Sys2Proof.Machine

/-- `ring.post` in its four forms (R26, R289): of n slots beyond the free ones, or beyond the limit of 1,024 of LD and ST together,
the ring-overpost trap; else, once the core's earlier stores are performed, the write pointer moves on by n, each released slot records
the pc, a0 to a7 and the address space, and FRESH, with n = 0 as well, drops the descriptor copies, before any slot of the post starts; a command of MX that has started and not
latched puts the drop off (R224). In U-mode a ring of S is not posted to. -/
def Obligations.RingPost : Prop :=
  ∀ (s s1 : State) (n : Nat) (i : Instr) (e : Eng) (r1 : Reg) (imm : BitVec 12) (fresh : Bool),
    postOf i = some (e, r1, imm, fresh) → s.byCore n →
    let c := s.core n
    let k := (c.hart.get r1 + imm.signExtend 64).toNat
    let r := c.ring e
    let many := r.size < c.outstanding e + k ∨ ((e = .ld ∨ e = .st) ∧ 1024 < c.outstanding .ld + c.outstanding .st + k)
    let owned := c.hart.priv = .u ∧ r.owner = true
    (owned → exec i s = .next (s.illegalAt (.core n))) ∧
    (¬owned → k = 0 → exec i s = .next ((if fresh then s.modCore n (·.dropCopies []) else s).fallThrough (.core n))) ∧
    (¬owned → k ≠ 0 → many → exec i s = .next (s.takeTrap (.core n) { code := 26, tval := e.num, cause := 25 })) ∧
    (¬owned → k ≠ 0 → ¬many → Ok (drainAll n) s () s1 →
      ∃ (t : State) (org : Table Origin), exec i s = .next (t.fallThrough (.core n)) ∧
        (let d := (s1.core n).setRing e { s1.ring n e with write := (s1.ring n e).write + BitVec.ofNat 32 k, org := org }
         s1.OnlyCore t n (if fresh then d.dropCopies [(e.num, r.write)] else d)) ∧
        (fresh = true → if (s1.ring n .mx).flight.any Flight.unlatched then (t.core n).descs = (s1.core n).descs ∧ (t.core n).dropDue = true ∧
            (e.num, r.write) ∈ (t.core n).dropFor
          else (t.core n).descs = [] ∧ (t.core n).dropDue = false) ∧
        ∀ j < k, Table.get Origin.empty org ((s1.ring n e).write + BitVec.ofNat 32 j).toNat =
          { pc := c.hart.pc, a := (List.range 8).map fun i => c.hart.get (BitVec.ofNat 5 (10 + i)), satp := c.hart.csrRaw 0x180, ctx := (s.recCtx n).1 })

/-- The semaphores (R291): a raise adds one once the core's earlier stores are performed, and at 0xFFFF traps with the value unchanged;
`sem.try` takes one and answers 1, or answers 0; `sem.read` reads; `sem.set`, above U-mode, stores the low 16 bits. -/
def Obligations.Semaphores : Prop :=
  ∀ (s s1 : State) (n : Nat) (i : BitVec 5), s.byCore n →
    let c := s.core n
    let v := c.sem i.toNat
    (v = 0xFFFF#16 → exec (.semRaise i) s = .next (s.takeTrap (.core n) { code := 26, tval := i.toNat, cause := 18 })) ∧
    (v ≠ 0xFFFF#16 → Ok (drainAll n) s () s1 →
      ∃ t : State, exec (.semRaise i) s = .next (t.fallThrough (.core n)) ∧
        s1.OnlyCore t n ((s1.core n).setSem i.toNat ((s1.core n).sem i.toNat + 1))) ∧
    (∀ rd, v = 0 → exec (.semTry rd i) s = .next ((s.setX (.core n) rd 0).fallThrough (.core n))) ∧
    (∀ rd, v ≠ 0 → ∃ t : State, exec (.semTry rd i) s = .next ((t.setX (.core n) rd 1).fallThrough (.core n)) ∧
      s.OnlyCore t n (c.setSem i.toNat (v - 1))) ∧
    (∀ rd, exec (.semRead rd i) s = .next ((s.setX (.core n) rd (BitVec.ofNat 64 v.toNat)).fallThrough (.core n))) ∧
    (∀ r1, c.hart.priv ≠ .u → ∃ t : State, exec (.semSet i r1) s = .next (t.fallThrough (.core n)) ∧
      s.OnlyCore t n (c.setSem i.toNat (BitVec.ofNat 16 (c.hart.get r1).toNat)))

/-- `cb.cfg` (R292, R54): a base of more than 23 bits, a slot size code above 10, fewer than two slots, or slots held or in flight make it an
illegal instruction; else the buffer starts afresh with every slot free.
The buffer instructions (R31, R293) on a configured buffer, m = x[rs1]: m = 0 does nothing; more than the slot count cannot be
claimed or taken, nor more pushed than the control core has in flight, nor more released than is held: illegal instructions; else the counts and indices move as R31
says, a push and a release once the core's earlier stores are performed. With engines waiting for the same buffer the control core takes what they leave. -/
def Obligations.Buffers : Prop :=
  (∀ (s : State) (n : Nat) (i : BitVec 5) (r1 r2 : Reg), s.byCore n →
    let c := s.core n
    let base := (c.hart.get r1).toNat
    let x := (c.hart.get r2).toNat
    let count := x / 256 % 256 + 1
    let bad := 2 ^ 23 ≤ base ∨ 10 < x % 16 ∨ count < 2 ∨ (c.cb i.toNat).held ≠ 0 ∨ (c.cb i.toNat).inflight ≠ 0
    (bad → exec (.cbCfg i r1 r2) s = .next (s.illegalAt (.core n))) ∧
    (¬bad → ∃ t : State, exec (.cbCfg i r1 r2) s = .next (t.fallThrough (.core n)) ∧
      s.OnlyCore t n (c.setCb i.toNat { Cb.reset with configured := true, base := base, sizeCode := x % 16, count := count, free := count }))) ∧
  (∀ (s s1 : State) (n : Nat) (i : BitVec 5) (r1 : Reg), s.byCore n →
    let c := s.core n
    let b := c.cb i.toNat
    let m := (c.hart.get r1).toNat
    (b.configured = false → ∀ x ∈ [Instr.cbClaim i r1, .cbTake i r1, .cbPush i r1, .cbRel i r1], exec x s = .next (s.illegalAt (.core n))) ∧
    (b.configured = true → m = 0 → ∀ x ∈ [Instr.cbClaim i r1, .cbTake i r1, .cbPush i r1, .cbRel i r1], exec x s = .next (s.fallThrough (.core n))) ∧
    (b.configured = true → b.count < m → exec (.cbClaim i r1) s = .next (s.illegalAt (.core n)) ∧ exec (.cbTake i r1) s = .next (s.illegalAt (.core n))) ∧
    (b.configured = true → b.ccClm < m → exec (.cbPush i r1) s = .next (s.illegalAt (.core n))) ∧
    (b.configured = true → b.held < m → exec (.cbRel i r1) s = .next (s.illegalAt (.core n))) ∧
    (b.configured = true → m ≠ 0 → m ≤ b.count →
      (m + c.claimers i.toNat b.free false ≤ b.free → ∃ t : State, exec (.cbClaim i r1) s = .next (t.fallThrough (.core n)) ∧
        s.OnlyCore t n (c.setCb i.toNat { b with free := b.free - m, inflight := b.inflight + m, prod := (b.prod + m) % b.count, ccClm := b.ccClm + m })) ∧
      (b.free < m + c.claimers i.toNat b.free false → exec (.cbClaim i r1) s = .next (s.enterWait (.core n) (.cbClaim i.toNat m))) ∧
      (m + c.claimers i.toNat b.filled true ≤ b.filled → ∃ t : State, exec (.cbTake i r1) s = .next (t.fallThrough (.core n)) ∧
        s.OnlyCore t n (c.setCb i.toNat { b with filled := b.filled - m, held := b.held + m, cons := (b.cons + m) % b.count })) ∧
      (b.filled < m + c.claimers i.toNat b.filled true → exec (.cbTake i r1) s = .next (s.enterWait (.core n) (.cbTake i.toNat m)))) ∧
    (b.configured = true → m ≠ 0 → m ≤ b.ccClm → Ok (drainAll n) s () s1 → ∃ t : State, exec (.cbPush i r1) s = .next (t.fallThrough (.core n)) ∧
      s1.OnlyCore t n ((s1.core n).setCb i.toNat { b with inflight := b.inflight - m, filled := b.filled + m, ccClm := b.ccClm - m })) ∧
    (b.configured = true → m ≠ 0 → m ≤ b.held → Ok (drainAll n) s () s1 → ∃ t : State, exec (.cbRel i r1) s = .next (t.fallThrough (.core n)) ∧
      s1.OnlyCore t n ((s1.core n).setCb i.toNat { b with held := b.held - m, free := b.free + m })))

/-- The snapshot instructions (R303), in every mode: `snap.trig` is the CORE source of Survey and completes at once, with no other effect where that source is not armed; `snap.rd` reads the register of the core's bank that the low six bits of x[rs1] name, 0 for one that the
bank does not implement and on a core that has no bank, and changes nothing else. Nor do the other instructions that read a register of the core: `ring.ptr` (of R290), `cb.stat` (of R51 and R293) and `datum.rd`, whose value is that of the `time` CSR (of R302). -/
def Obligations.RegisterReads : Prop :=
  (∀ (s : State) (a : Agent), s.byHart a → exec .snapTrig s = .next ((s.surveyFire 4).fallThrough a) ∧
    (bit (s.reg 0x030001720700).toNat 4 = false → exec .snapTrig s = .next (s.fallThrough a))) ∧
  (∀ (s : State) (a : Agent) (rd r1 : Reg), s.byHart a →
    exec (.datumRd rd) s = .next ((s.setX a rd (BitVec.ofNat 64 (s.datumOf a))).fallThrough a) ∧
    (s.csrValue a 0xC01) = BitVec.ofNat 64 (s.datumOf a) ∧
    (a.isCore = false → exec (.snapRd rd r1) s = .next ((s.setX a rd 0).fallThrough a))) ∧
  ∀ (s : State) (n : Nat) (rd : Reg), s.byCore n →
    let c := s.core n
    let gives := fun (i : Instr) (v : Nat) => exec i s = .next ((s.setX (.core n) rd (BitVec.ofNat 64 v)).fallThrough (.core n))
    (∀ e, gives (.ringPtr rd e) (2 ^ 32 * ((c.ring e).write.toNat % 2 ^ 16) + 2 ^ 16 * ((c.ring e).read.toNat % 2 ^ 16) + (c.ring e).retire.toNat % 2 ^ 16)) ∧
    (∀ i : BitVec 5, let b := c.cb i.toNat; gives (.cbStat rd i) (2 ^ 48 * b.inflight + 2 ^ 32 * b.held + 2 ^ 16 * b.filled + b.free)) ∧
    ∀ r1, let i := (c.hart.get r1).toNat % 64; gives (.snapRd rd r1) (if i ≤ 10 then (Table.get (0 : W64) c.snap i).toNat else 0)

/-- The fault queue (R308), above U-mode (R53): `fq.rd` reads the word of the oldest record that the low three bits of x[rs1] name, and 0 from an empty queue, and changes nothing else; `fq.pop` removes the oldest record, the held ones moving up in order. A record that arrives (R351), with its context, node and time, joins the tail of the queue where it has room and no record is held, and else is held behind those that are; no other record moves. -/
def Obligations.FaultQueue : Prop :=
  ∀ (s : State) (n : Nat), s.byCore n →
    let c := s.core n
    (c.hart.priv ≠ .u → ∀ rd r1, let gives := fun (v : W64) => exec (.fqRd rd r1) s = .next ((s.setX (.core n) rd v).fallThrough (.core n))
      (c.fq = [] → gives 0) ∧ ∀ x rest, c.fq = x :: rest → gives (x.word ((c.hart.get r1).toNat % 8))) ∧
    (c.hart.priv ≠ .u → ∃ t fq held, exec .fqPop s = .next (t.fallThrough (.core n)) ∧ s.OnlyCore t n { c with fq := fq, fqHeld := held } ∧
      fq ++ held = c.fq.tail ++ c.fqHeld ∧ c.fq.tail.length ≤ fq.length ∧ (fq.length < 16 → held = [])) ∧
    ∀ r, ∃ t, exec (.faultRecordWrite r) s = .next t ∧ (t.core n).hart = c.hart ∧ (t.core n).rings = c.rings ∧
      if c.fq.length < 16 ∧ c.fqHeld = [] then (t.core n).fq = c.fq ++ [s.stampRec n r] ∧ (t.core n).fqHeld = []
      else (t.core n).fq = c.fq ∧ (t.core n).fqHeld = c.fqHeld ++ [s.stampRec n r]

/-- Above U-mode: `ring.cfg` (R309, R54) gives an empty ring its base and size with all pointers 0, or is an illegal instruction; `ring.own`
sets the owner; `err.inj` (R143), in S-mode only, arms what its operands name,
or is an illegal instruction. -/
def Obligations.SupervisorInstructions : Prop :=
  ∀ (s : State) (n : Nat), s.byCore n →
    let c := s.core n
    (c.hart.priv ≠ .u →
      (∀ e r1 r2, let base := (c.hart.get r1).toNat
        let k := (c.hart.get r2).toNat % 16
        let bad := k < 4 ∨ 12 < k ∨ (c.ring e).write ≠ (c.ring e).retire ∨ base % 32 ≠ 0 ∨ (if n < 32 then 2 ^ 23 else 2 ^ 21) < base + 32 * 2 ^ k
        (bad → exec (.ringCfg e r1 r2) s = .next (s.illegalAt (.core n))) ∧
        (¬bad → ∃ t : State, exec (.ringCfg e r1 r2) s = .next (t.fallThrough (.core n)) ∧
          s.OnlyCore t n (c.setRing e { base := base, size := 2 ^ k, owner := (c.ring e).owner, write := 0, read := 0, retire := 0, org := [], flight := [], halted := (c.ring e).halted }))) ∧
      (∀ e r1, ∃ t : State, exec (.ringOwn e r1) s = .next (t.fallThrough (.core n)) ∧
        s.OnlyCore t n (c.setRing e { c.ring e with owner := (c.hart.get r1).getLsbD 0 })) ∧
      (∀ r1 r2, (c.hart.priv ≠ .s ∨ injectLegal n (c.hart.get r1).toNat (c.hart.get r2).toNat = false → exec (.errInj r1 r2) s = .next (s.illegalAt (.core n))) ∧
        (c.hart.priv = .s → injectLegal n (c.hart.get r1).toNat (c.hart.get r2).toNat = true → ∃ t : State, exec (.errInj r1 r2) s = .next (t.fallThrough (.core n)) ∧
          s.OnlyCore t n (c.inject n (c.hart.get r1).toNat (c.hart.get r2).toNat))))
/-! ### Tasks and graphs -/

namespace Sys2Proof.Machine

/-- The core holds no task and runs nothing: idle, every ring empty and not halted (R300, R22). -/
def Core.isIdle (c : Core) : Prop :=
  c.task = none ∧ c.hart.run = .idle ∧ c.hart.wait = none ∧ c.suspended = false ∧
  ∀ e, (c.ring e).read = (c.ring e).write ∧ (c.ring e).retire = (c.ring e).write ∧ (c.ring e).flight = [] ∧ (c.ring e).halted = false

/-- The instance of a node is one that may go on: live, and neither faulted nor revoked. -/
def State.sound (s : State) (id node : Nat) : Prop :=
  ∀ g, s.inst? id = some g → g.born = true ∧ g.fault = none ∧ g.revoked = false ∧ node < g.nodes.length

/-- The staged decrements of a core, performed one by one (R36 step 3). -/
def State.applyDecs (s : State) (n : Nat) (decs : Table Nat) : State :=
  decs.foldl (fun u d => (List.range d.2).foldl (fun u _ => u.decrementCtr (dieOf n) d.1 false) u) s

end Sys2Proof.Machine

/-- `task.retire` (R36, R300): with a ring halted it publishes nothing and traps with the mask of halted rings; with a slot not retired it waits; else it
publishes the staged lines, performs the staged decrements and launches, and the core becomes idle; the end of its last node ends an instance (here one that asks for no completion word). -/
def Obligations.TaskRetire : Prop :=
  ∀ (s : State) (n : Nat) (t : TaskSt), s.byCore n → (s.core n).task = some t → (s.core n).suspended = false →
    let c := s.core n
    let mask := (Eng.all.map fun e => if (c.ring e).halted then 2 ^ e.num else 0).sum
    (mask ≠ 0 → exec .taskRetire s = .next (s.takeTrap (.core n) { code := 27, tval := mask, cause := 22 })) ∧
    (mask = 0 → (∃ e, (c.ring e).write ≠ (c.ring e).retire) → exec .taskRetire s = .next (s.enterWait (.core n) .retire)) ∧
    (mask = 0 → (∀ e, (c.ring e).write = (c.ring e).retire) → ∀ s1 s2, Ok (publishLines n) s () s1 →
      Ok (c.staging.launches.forM fun l => launchPacket l.1 l.2) ((s1.discardStaging n).applyDecs n c.staging.decs) () s2 →
      (∀ g, s2.inst? t.inst = some g → g.done = 0) →
      ∃ u : State, exec .taskRetire s = .next u ∧ (u.core n).isIdle ∧ u.mem = s2.mem ∧
        (∀ m, m ≠ n → (u.core m).hart = (s2.core m).hart ∧ (u.core m).v = (s2.core m).v ∧ (u.core m).acc = (s2.core m).acc) ∧
        (∀ g x, s2.inst? t.inst = some g → g.nodes = [x] → t.node = 0 → x.nsuc = [] → g.born = true → g.fault = none →
          g.revoked = false → u.inst? t.inst = none))

/-- Without a task that the core holds and runs the four task instructions are illegal instructions (R300), as is `task.abort` of a pinned task (R38).
`task.abort` of another, in an instance that may go on, discards the staged output and the rings (R37), the core becomes idle, and the node is ready again. `task.direct` (R38) publishes the staged lines,
decrements and launches and pins the task; of a pinned task, like `task.yield` with no pre-emption pending, it does nothing.
A pre-emption point (R300, R304, R345): `task.yield` with a pre-emption pending aborts a task that cannot be suspended; else it waits for quiet engines, and then copies x1 to
x31 and the address after the instruction into the suspension bank, freezes the engines and enters the S-mode handler with `shinfo` holding SAVE.
That a yield awaits quiet engines is R304 as the model reads it (log 28). -/
def Obligations.TaskPoints : Prop :=
  (∀ (s : State) (n : Nat), s.byCore n →
    let c := s.core n
    (c.task = none ∨ c.suspended = true →
      ∀ x ∈ [Instr.taskRetire, .taskAbort, .taskDirect, .taskYield], exec x s = .next (s.illegalAt (.core n))) ∧
    (∀ t, c.task = some t → c.suspended = false →
      (t.pinned = true → exec .taskAbort s = .next (s.illegalAt (.core n)) ∧ exec .taskDirect s = .next (s.fallThrough (.core n))) ∧
      (t.pinned = false → s.sound t.inst t.node → ∃ u : State, exec .taskAbort s = .next u ∧ (u.core n).isIdle ∧ (u.core n).staging = Staging.empty ∧
        (u.core n).fq = c.fq ∧ (u.core n).hart.pc = c.hart.pc ∧ (u.core n).hart.x = c.hart.x ∧ (∀ m, m ≠ n → u.core m = s.core m) ∧ u.mem = s.mem ∧
        ∀ g x, s.inst? t.inst = some g → g.nodes[t.node]? = some x →
          ∃ g' x', u.inst? t.inst = some g' ∧ g'.nodes[t.node]? = some x' ∧ x'.phase = .ready ∧ x'.readyAt = x.readyAt) ∧
      (t.pinned = false → t.susp = true → ∀ s1 s2, Ok (publishLines n) s () s1 →
        Ok (c.staging.launches.forM fun l => launchPacket l.1 l.2) ((s1.discardStaging n).applyDecs n c.staging.decs) () s2 →
        ∃ u : State, exec .taskDirect s = .next (u.fallThrough (.core n)) ∧
          s2.OnlyCore u n { s2.core n with task := (s2.core n).task.map fun t => { t with pinned := true } }) ∧
      (t.pend = none → exec .taskYield s = .next (s.fallThrough (.core n))) ∧
      (t.pinned = false → t.susp = false → exec .taskDirect s = .next (s.illegalAt (.core n))))) ∧
  (∀ (s : State) (n : Nat) (t : TaskSt), s.byCore n → (s.core n).task = some t → (s.core n).suspended = false → t.pend ≠ none →
    s.abortsInstead n = false → (s.core n).quiet = false → exec .taskYield s = .next (s.enterWait (.core n) .yield_)) ∧
  (∀ (s s1 : State) (n : Nat) (t : TaskSt), s.byCore n → (s.core n).task = some t → (s.core n).suspended = false → t.pend ≠ none →
    Ok (drainAll n) s () s1 → (s1.core n).task = some t → (s1.core n).hart = (s.core n).hart →
    (s.abortsInstead n = true → s1.abortsInstead n = true → s1.sound t.inst t.node → ∃ u : State, exec .taskYield s = .next u ∧ (u.core n).isIdle ∧ (u.core n).staging = Staging.empty) ∧
    (s.abortsInstead n = false → s1.abortsInstead n = false → (s.core n).quiet = true →
      ∃ u : State, exec .taskYield s = .next u ∧ (u.core n).suspended = true ∧ (u.core n).frozen = true ∧ (u.core n).task = some t ∧
        (u.core n).suspRegs = (s.core n).hart.x ∧ (u.core n).suspPc = (s.core n).hart.pc + BitVec.ofNat 64 s.ilen ∧
        (u.core n).hart.priv = .s ∧ (u.core n).hart.csrRaw 0x5C4 = BitVec.ofNat 64 t.save ∧
        (u.core n).hart.csrRaw 0x142 = BitVec.ofNat 64 (2 ^ 63 + 16) ∧
        (u.core n).hart.csrRaw 0x141 = (s.core n).hart.pc + BitVec.ofNat 64 s.ilen ∧
        (u.core n).sems = (s1.core n).sems ∧ (u.core n).v = (s1.core n).v ∧ (u.core n).acc = (s1.core n).acc ∧ u.mem = s1.mem ∧
        ∀ m, m ≠ n → u.core m = s1.core m))

/-- `cond.set`, `dep.dec` and `graph.launch` (R33, R301): an address that is not aligned is the misaligned exception, code 6 and 4; in an unpinned task the store, the decrement and
the packet are staged, which may overflow the staging area beside what commands in flight have reserved, each line and each counter counted once; else they are performed at once, the store and the launch as releases at pkg scope,
of host memory at sys scope (R294).
A decrement of a dependence counter (R39, R342): of a count above 1 it takes one and touches no other counter; to 0 it makes the node ready, where a plain release has
reached it; of a counter that no live instance holds it is reported. -/
def Obligations.GraphEffects : Prop :=
  (∀ (s : State) (n : Nat) (r1 r2 : Reg), s.byCore n →
    let c := s.core n
    let x := (c.hart.get r1).toNat
    let y := (c.hart.get r2).toNat
    (x % 8 ≠ 0 → exec (.condSet r1 r2) s = .next (s.takeTrap (.core n) { code := 6, tval := x })) ∧
    (x % 8 = 0 → ∀ ph s0, Ok (translateHart (.core n) .store x) s ph s0 → let sc := s0.effScope ph.pa .pkg
      (s0.storesNow n ph = false → ∀ t, Ok (storeM (.core n) x (leBytes 8 y)) s0 () t →
        exec (.condSet r1 r2) s = .next (t.fallThrough (.core n))) ∧
      (s0.storesNow n ph = true → ∀ s1 s2 t, Ok (releaseAt n sc) s0 () s1 → Ok (storeM (.core n) x (leBytes 8 y)) s1 () s2 →
        Ok (markRelease n ph.pa (s1.core n).sq.length sc) s2 () t → exec (.condSet r1 r2) s = .next (t.fallThrough (.core n)))) ∧
    (c.stages = false → exec (.depDec r1) s = .next ((s.decrementCtr (dieOf n) (x % 4096) false).fallThrough (.core n))) ∧
    (c.stages = true → let g := c.staging
      let k := Table.get 0 g.decs (x % 4096)
      let need := c.roomWith [.counter (x % 4096)]
      (k ≠ 0 ∨ need ≤ 65536 → ∃ t : State, exec (.depDec r1) s = .next (t.fallThrough (.core n)) ∧
        s.OnlyCore t n { c with staging := { g with decs := Table.put 0 g.decs (x % 4096) (k + 1) } }) ∧
      (k = 0 → 65536 < need → exec (.depDec r1) s = .next (s.takeTrap (.core n) { code := 27, tval := 0, cause := 14 }))) ∧
    (x % 64 ≠ 0 → exec (.graphLaunch r1) s = .next (s.takeTrap (.core n) { code := 4, tval := x })) ∧
    (x % 64 = 0 → ∀ p s1, Ok (loadM (.core n) x 64) s p s1 →
      ((s1.core n).stages = true → (s1.core n).roomWith [.launch] ≤ 65536 → ∃ t : State, exec (.graphLaunch r1) s = .next (t.fallThrough (.core n)) ∧
        s1.OnlyCore t n { s1.core n with staging := { (s1.core n).staging with launches := (s1.core n).staging.launches ++ [((s1.recCtx n).1, p)] } }) ∧
      ((s1.core n).stages = false → ∀ s2 t, Ok (releaseAt n .pkg) s1 () s2 → Ok (launchPacket (s1.recCtx n).1 p) s2 () t →
        exec (.graphLaunch r1) s = .next (t.fallThrough (.core n))))) ∧
  (∀ (s : State) (d : Nat) (k : BitVec 12) (skip : Bool),
    (s.counterNode d k.toNat = none → exec (.counterDecrement d k skip) s = .next (s.log 0x08 d 0 [1, k.toNat])) ∧
    (∀ g i x, s.counterNode d k.toNat = some (g.id, i) → s.inst? g.id = some g → g.nodes[i]? = some x → g.die = d → g.ctrOf i = ctrKey d k.toNat →
      g.born = true → g.fault = none → g.revoked = false → x.phase = .waiting →
      let v := s.ctr (ctrKey d k.toNat)
      (1 < v → ∃ t : State, exec (.counterDecrement d k skip) s = .next t ∧ t.ctr (ctrKey d k.toNat) = v - 1 ∧
        (∀ j, j ≠ ctrKey d k.toNat → t.ctr j = s.ctr j) ∧ t.mem = s.mem ∧ t.cores = s.cores) ∧
      (v = 1 → (x.plain = true ∨ skip = false) → ∃ t g' x', exec (.counterDecrement d k skip) s = .next t ∧ t.ctr (ctrKey d k.toNat) = 0 ∧
        (∀ j, j ≠ ctrKey d k.toNat → t.ctr j = s.ctr j) ∧ t.inst? g.id = some g' ∧ g'.nodes[i]? = some x' ∧ x'.phase = .ready ∧
        x'.readyAt = s.datum d ∧ t.mem = s.mem)))
/-! ### Memory as the control cores and the other cores reach it -/

namespace Sys2Proof.Machine

/-- `len` bytes at `pa`, which lie in one line of DRAM, are plain memory to a requester of a context: no write to the package's memory is held or being moved, no old copy is
about, no line of the package and no copy of one has a bad check, and the home answers with a good line. -/
structure State.PlainHome (s : State) (ctx pa len : Nat) : Prop where
  fits : 0 < len ∧ pa % 64 + len ≤ 64 ∧ pa < 2 ^ 39
  place : s.isDram pa = true ∧ ∀ i < len, s.key (pa + i) = s.key pa + i
  alone : ∀ e, s.rtFind pa = some e → e.rplen = false
  home : s.rtDrain = false ∧ s.down ctx pa = none ∧ s.lineMeta pa = LineMeta.good
  quiet : s.heldW = [] ∧ s.swap = none ∧ s.stale = [] ∧ s.fld 0x030001710000 31 0 = 0
  sound : (∀ e ∈ s.lines, e.2.diff = 0) ∧ ∀ e ∈ s.hubTags ++ s.ccTags, ∀ t : CTag, e.2 = some t → t.diff0 = 0 ∧ t.diff1 = 0

/-- An agent reaches `len` bytes at `pa` as plain memory: it is in M-mode without MPRV, runs no task that stages and has nothing queued or staged. -/
structure State.Plain (s : State) (a : Agent) (pa len : Nat) : Prop where
  core : ∀ n, a = .core n → (s.core n).hart.priv = .m ∧ (s.core n).hart.csrBit 0x300 17 = false ∧ (s.core n).stages = false ∧
    (s.core n).sq = [] ∧ (s.core n).staging.bytes = []
  home : s.PlainHome (s.ctxOf (whoOf a)) pa len

/-- The number that `len` bytes of memory make at an address. -/
def State.num (s : State) (pa len : Nat) : Nat := leNat (Memory.readList s.mem (s.key pa) len)

/-- Memory, MMIO, the registers of every hart (but for load reservations, which a write breaks) and the engines' registers stand as before. -/
def State.SameBut (s t : State) : Prop :=
  t.mmio = s.mmio ∧
  (∀ a, (t.hart a).x = (s.hart a).x ∧ (t.hart a).csr = (s.hart a).csr ∧ (t.hart a).pc = (s.hart a).pc ∧ (t.hart a).priv = (s.hart a).priv) ∧
  ∀ n, (t.core n).rings = (s.core n).rings ∧ (t.core n).sems = (s.core n).sems ∧ (t.core n).cbs = (s.core n).cbs ∧
    (t.core n).v = (s.core n).v ∧ (t.core n).acc = (s.core n).acc ∧ (t.core n).fq = (s.core n).fq

/-- The place of a `.sc` access in the order of R319 still fits its 47 bits. -/
def State.scFits (s : State) (n pa : Nat) : Prop :=
  (s.core n).clk < 2 ^ 47 ∧ (s.scTimes pa).wts < 2 ^ 47 ∧ (s.scTimes pa).rts < 2 ^ 47

/-- The operation, the `.sc` mark, the scope and rd, rs2, rs1 of a scoped atomic. -/
def amoOf : Instr → Option (AmoOp × Bool × Scope × Reg × Reg × Reg)
  | .amoAdd c sc rd r2 r1 => some (.add, c, sc, rd, r2, r1)
  | .amoAnd c sc rd r2 r1 => some (.and, c, sc, rd, r2, r1)
  | .amoOr c sc rd r2 r1 => some (.or, c, sc, rd, r2, r1)
  | .amoXor c sc rd r2 r1 => some (.xor, c, sc, rd, r2, r1)
  | .amoMax c sc rd r2 r1 => some (.max, c, sc, rd, r2, r1)
  | .amoMin c sc rd r2 r1 => some (.min, c, sc, rd, r2, r1)
  | .amoSwap c sc rd r2 r1 => some (.swap, c, sc, rd, r2, r1)
  | .amoCas c sc rd r2 r1 => some (.cas, c, sc, rd, r2, r1)
  | _ => none

/-- What a scoped atomic stores (R295), of the old value, x[rs2] and x[rd]. -/
def amoRule (op : AmoOp) (old x d : W64) : Nat :=
  match op with
  | .add => (old.toNat + x.toNat) % 2 ^ 64
  | .and => old.toNat &&& x.toNat
  | .or => old.toNat ||| x.toNat
  | .xor => old.toNat ^^^ x.toNat
  | .max => wrap 64 (max old.toInt x.toInt)
  | .min => wrap 64 (min old.toInt x.toInt)
  | .swap => x.toNat
  | .cas => if old = d then x.toNat else old.toNat

/-- What a standard AMO on `w` bits stores, of the old value and the register's. -/
def atRule (op : AtOp) (w old x : Nat) : Nat :=
  let sg := fun (v : Nat) => if 2 ^ (w - 1) ≤ v then (v : Int) - 2 ^ w else (v : Int)
  match op with
  | .add => (old + x) % 2 ^ w
  | .and => old &&& x
  | .or => old ||| x
  | .xor => old ^^^ x
  | .max => if sg old < sg x then x else old
  | .min => if sg x < sg old then x else old
  | .maxu => max old x
  | .minu => min old x
  | _ => x

/-- What an access that crosses a 64-byte line, or a standard atomic that is not aligned, comes to (R49, R404): outside MMIO the misaligned exception, which also goes before a fault of its translation; in MMIO, where no access
is split or joined, the access fault of its kind, and in an unpinned task the trap of R35 (which of the two goes first is the model's choice, log 80). -/
def State.CrossTrap (s : State) (a : Agent) (k : AccKind) (va : Nat) (o : Host.Outcome State Fault Refusal) : Prop :=
  (∀ ph s1, Ok (translateHart a k va) s ph s1 →
    ((∀ p, s1.loc ph.pa ≠ .mmio p) → o = .next (s1.takeTrap a { code := k.alignCode, tval := va })) ∧
    (∀ p, s1.loc ph.pa = .mmio p →
      o = .next (s1.takeTrap a (if s1.agentStages a then { code := 27, cause := 20 } else { code := k.accessCode, tval := va })))) ∧
  (∀ f s1, (translateHart a k va).run s = (.error (.flt f), s1) → o = .next (s1.takeTrap a { code := k.alignCode, tval := va }))

/-- What an arrival makes of a barrier word (R298): the phase arrived in and the new word; none of a malformed word. -/
def arriveRule (w : Nat) : Option (Nat × Nat) :=
  let expect := w % 2 ^ 16
  let pending := w / 2 ^ 16 % 2 ^ 16
  let phase := w / 2 ^ 32 % 2
  if expect = 0 ∨ pending = 0 ∨ expect < pending ∨ 2 ^ 33 ≤ w then none
  else if pending = 1 then some (phase, expect + expect * 2 ^ 16 + (1 - phase) * 2 ^ 32)
  else some (phase, w - 2 ^ 16)

end Sys2Proof.Machine

/-- Loads (R48, R49, R296, R404, log 20): an ordinary load of any kind within a line, aligned or not, `ld.acq` and LR read the bytes of plain memory at their address, lowest byte first, and change no memory; LR leaves
the reservation of its 64-byte granule. Whatever it reads, a load whose access comes to its end, of MMIO as well, puts into rd what its kind makes of the bytes and completes. A load that crosses a line outside MMIO, an LR that is not aligned there, and an `ld.acq` that is not aligned, is the
misaligned exception, code 4, with nothing performed. The codes of LR are the standard's (log 59); that a misaligned `ld.acq` to MMIO takes code 4 is the model's (log 80). -/
def Obligations.Loads : Prop :=
  ∀ (s : State) (a : Agent), s.byHart a →
    let x := fun r => ((s.hart a).get r).toNat
    (∀ k rd r1 (imm : BitVec 12), let va := ((s.hart a).get r1 + imm.signExtend 64).toNat
      (64 < va % 64 + k.bytes → s.CrossTrap a .load va (exec (.controlCoreLoad k rd r1 imm) s)) ∧
      (∀ d t, Ok (loadM a va k.bytes) s d t →
        exec (.controlCoreLoad k rd r1 imm) s = .next ((t.setX a rd (BitVec.ofNat 64 (memRule k (leNat d)))).fallThrough a)) ∧
      (s.Plain a va k.bytes → ∃ t : State, exec (.controlCoreLoad k rd r1 imm) s = .next ((t.setX a rd (BitVec.ofNat 64 (memRule k (s.num va k.bytes)))).fallThrough a) ∧
        t.mem = s.mem ∧ s.SameBut t)) ∧
    (∀ n c sc rd r1, a = .core n →
      (x r1 % 8 ≠ 0 → exec (.ldAcq c sc rd r1) s = .next (s.takeTrap a { code := 4, tval := x r1 })) ∧
      (x r1 % 8 = 0 → s.Plain a (x r1) 8 → (c = true → s.scFits n (x r1)) →
        ∃ t : State, exec (.ldAcq c sc rd r1) s = .next ((t.setX a rd (BitVec.ofNat 64 (s.num (x r1) 8))).fallThrough a) ∧ t.mem = s.mem ∧ s.SameBut t)) ∧
    (∀ (dbl aq rl : Bool) rd r1 r2, let len := if dbl then 8 else 4
      (x r1 % len ≠ 0 → s.CrossTrap a .load (x r1) (exec (.standardAtomic .lr dbl aq rl rd r1 r2) s)) ∧
      (x r1 % len = 0 → s.Plain a (x r1) len →
        ∃ t : State, exec (.standardAtomic .lr dbl aq rl rd r1 r2) s = .next ((t.setX a rd (BitVec.ofNat 64 (if dbl then s.num (x r1) 8 else sx32 (s.num (x r1) 4)))).fallThrough a) ∧
          (t.hart a).resv = some (x r1 / 64) ∧ t.mem = s.mem ∧ s.SameBut t))

/-- Stores (R49, R296, R313, R388, R404): to plain memory a control core's store and its `sd.rel` enter its store queue, youngest last, with the low bytes of x[rs2], and memory stands as before until the entry leaves the queue; the `.sc` form, and any store of another core, is performed
at once, and only its own bytes change. Wherever it goes, staged or to MMIO as well, a store whose access comes to its end completes. A store that crosses a line outside MMIO, and an `sd.rel` that is not aligned, is the misaligned exception, code 6.
An entry leaves a store queue (R313) when no older entry lies in its line: its bytes are written, all others stand, and the queue loses exactly it; held behind an older one nothing happens.
A run of bytes written to memory reads back, every other address as before, and memory keeps its canonical form. -/
def Obligations.StoresAndQueue : Prop :=
  (∀ (s : State) (a : Agent), s.byHart a →
    let x := fun r => ((s.hart a).get r).toNat
    (∀ k r2 r1 (imm : BitVec 12), let va := ((s.hart a).get r1 + imm.signExtend 64).toNat
      let data := leBytes k.bytes (x r2)
      (64 < va % 64 + k.bytes → s.CrossTrap a .store va (exec (.controlCoreStore k r2 r1 imm) s)) ∧
      (∀ t, Ok (storeM a va data) s () t → exec (.controlCoreStore k r2 r1 imm) s = .next (t.fallThrough a)) ∧
      (∀ n, a = .core n → s.Plain a va k.bytes → ∃ t : State, exec (.controlCoreStore k r2 r1 imm) s = .next (t.fallThrough a) ∧
        s.OnlyCore t n { s.core n with sq := [{ pa := va, data := data, uncached := false }] }) ∧
      (a.isCore = false → s.Plain a va k.bytes → ∃ t : State, exec (.controlCoreStore k r2 r1 imm) s = .next (t.fallThrough a) ∧
        t.mem = Memory.writeList s.mem (s.key va) data ∧ s.SameBut t)) ∧
    (∀ n c sc r2 r1, a = .core n → let data := leBytes 8 (x r2)
      (x r1 % 8 ≠ 0 → exec (.sdRel c sc r2 r1) s = .next (s.takeTrap a { code := 6, tval := x r1 })) ∧
      (x r1 % 8 = 0 → s.Plain a (x r1) 8 → c = false → ∃ t : State, exec (.sdRel c sc r2 r1) s = .next (t.fallThrough a) ∧
        s.OnlyCore t n { s.core n with sq := [{ pa := x r1, data := data, uncached := false }] }) ∧
      (x r1 % 8 = 0 → s.Plain a (x r1) 8 → c = true → s.scFits n (x r1) → ∃ t : State, exec (.sdRel c sc r2 r1) s = .next (t.fallThrough a) ∧
        t.mem = Memory.writeList s.mem (s.key (x r1)) data ∧ (t.core n).sq = [] ∧ s.SameBut t))) ∧
  ((∀ (s : State) (n i : Nat) (e : SqEntry), n < 288 → (s.core n).sq[i]? = some e →
    ((s.core n).sqReady i = false → exec (.storeQueueDrain (i * 288 + n)) s = .next s) ∧
    ((s.core n).sqReady i = true → s.PlainHome (s.recCtx n).1 e.pa e.data.length →
      ∃ t : State, exec (.storeQueueDrain (i * 288 + n)) s = .next t ∧ t.mem = Memory.writeList s.mem (s.key e.pa) e.data ∧
        (t.core n).sq = (s.core n).sq.eraseIdx i ∧ s.SameBut t)) ∧
  (∀ (m : List Host.Cell) (k j : Nat) (l : List Byte), Memory.wf m = true →
    Memory.wf (Memory.writeList m k l) = true ∧ Memory.readList (Memory.writeList m k l) k l.length = l ∧
    (j < k ∨ k + l.length ≤ j → Memory.read (Memory.writeList m k l) j = Memory.read m j)))

/-- The scoped atomics (R52, R295): misaligned they take code 6, in an unpinned task the trap "direct effect not declared" (R35); else, in one step, rd takes the old value and the eight bytes what
R295 says, x[rs1], x[rs2] and x[rd] read before, and every other byte stands.
The standard atomics (R49, log 20): an AMO of 4 or 8 bytes leaves the old value in rd, sign-extended, and stores what its operation makes of it; SC with the reservation of its granule stores and answers 0, without it stores nothing and answers 1, and in either case
the reservation ends. Misaligned they take code 6 (LR 4), in MMIO the access fault (R404), and in an unpinned task, aligned, all take the trap of R35.
The codes of the standard atomics are the standard's (log 59); that the misaligned codes go before the trap of R35 is the model's (log 80). -/
def Obligations.Atomics : Prop :=
  (∀ (s : State) (n : Nat) (i : Instr) (op : AmoOp) (c : Bool) (sc : Scope) (rd r2 r1 : Reg),
    amoOf i = some (op, c, sc, rd, r2, r1) → s.byCore n →
    let h := (s.core n).hart
    let va := (h.get r1).toNat
    let old : W64 := BitVec.ofNat 64 (s.num va 8)
    (va % 8 ≠ 0 → exec i s = .next (s.takeTrap (.core n) { code := 6, tval := va })) ∧
    (va % 8 = 0 → (s.core n).stages = true → exec i s = .next (s.takeTrap (.core n) { code := 27, cause := 20 })) ∧
    (va % 8 = 0 → s.Plain (.core n) va 8 → (c = true → s.scFits n va) →
      ∃ t : State, exec i s = .next ((t.setX (.core n) rd old).fallThrough (.core n)) ∧
        t.mem = Memory.writeList s.mem (s.key va) (leBytes 8 (amoRule op old (h.get r2) (h.get rd))) ∧ s.SameBut t)) ∧
  (∀ (s : State) (a : Agent) (dbl aq rl : Bool) (rd r1 r2 : Reg), s.byHart a →
    let h := s.hart a
    let len := if dbl then 8 else 4
    let va := (h.get r1).toNat
    let y := (h.get r2).toNat % 2 ^ (8 * len)
    let old := s.num va len
    let reg := fun (v : Nat) => (BitVec.ofNat 64 (if dbl then v else sx32 v) : W64)
    (∀ op, op ≠ .lr → va % len ≠ 0 → s.CrossTrap a .store va (exec (.standardAtomic op dbl aq rl rd r1 r2) s)) ∧
    (∀ op n, a = .core n → va % len = 0 → (s.core n).stages = true → exec (.standardAtomic op dbl aq rl rd r1 r2) s = .next (s.takeTrap a { code := 27, cause := 20 })) ∧
    (∀ op, op ≠ .lr → op ≠ .sc → va % len = 0 → s.Plain a va len →
      ∃ t : State, exec (.standardAtomic op dbl aq rl rd r1 r2) s = .next ((t.setX a rd (reg old)).fallThrough a) ∧
        t.mem = Memory.writeList s.mem (s.key va) (leBytes len (atRule op (8 * len) old y)) ∧ s.SameBut t) ∧
    (va % len = 0 → s.Plain a va len →
      ∃ t : State, exec (.standardAtomic .sc dbl aq rl rd r1 r2) s = .next ((t.setX a rd (if h.resv = some (va / 64) then 0 else 1)).fallThrough a) ∧
        t.mem = (if h.resv = some (va / 64) then Memory.writeList s.mem (s.key va) (leBytes len y) else s.mem) ∧ (t.hart a).resv = none ∧ s.SameBut t))

/-- Split barriers (R297 to R299): an arrival at a well-formed word leaves the phase arrived in in rd and the word with one arrival fewer missing, or the next phase begun; a malformed word is left alone and traps with its address; with rd = x0 the arrival is posted. `wait` completes
when the word's phase differs from bit 0 of x[rs2], and else waits. Misaligned they take code 6, in an unpinned task the trap of R35. -/
def Obligations.Barriers : Prop :=
  ∀ (s : State) (n : Nat) (sc : Scope) (rd r1 r2 : Reg), s.byCore n →
    let h := (s.core n).hart
    let va := (h.get r1).toNat
    let w := s.num va 8
    (va % 8 ≠ 0 → exec (.arrive sc rd r1) s = .next (s.takeTrap (.core n) { code := 6, tval := va }) ∧
      exec (.wait sc r1 r2) s = .next (s.takeTrap (.core n) { code := 6, tval := va })) ∧
    (va % 8 = 0 → (s.core n).stages = true → exec (.arrive sc rd r1) s = .next (s.takeTrap (.core n) { code := 27, cause := 20 }) ∧
      exec (.wait sc r1 r2) s = .next (s.takeTrap (.core n) { code := 27, cause := 20 })) ∧
    (va % 8 = 0 → s.Plain (.core n) va 8 →
      (∀ p v, rd ≠ 0#5 → arriveRule w = some (p, v) → ∃ t : State, exec (.arrive sc rd r1) s = .next ((t.setX (.core n) rd (BitVec.ofNat 64 p)).fallThrough (.core n)) ∧
        t.mem = Memory.writeList s.mem (s.key va) (leBytes 8 v) ∧ s.SameBut t) ∧
      (rd ≠ 0#5 → arriveRule w = none → ∃ t : State, exec (.arrive sc rd r1) s = .next (t.takeTrap (.core n) { code := 26, tval := va, cause := 23 }) ∧ t.mem = s.mem ∧ s.SameBut t) ∧
      (rd = 0#5 → ∃ t : State, exec (.arrive sc rd r1) s = .next (t.fallThrough (.core n)) ∧
        t.posted = s.posted ++ [{ core := n, pa := va, va := va, scope := sc }] ∧ t.mem = s.mem ∧ s.SameBut t) ∧
      (w / 2 ^ 32 % 2 ≠ (h.get r2).toNat % 2 → ∃ t : State, exec (.wait sc r1 r2) s = .next (t.fallThrough (.core n)) ∧ t.mem = s.mem ∧ s.SameBut t) ∧
      (w / 2 ^ 32 % 2 = (h.get r2).toNat % 2 → exec (.wait sc r1 r2) s = .next (s.enterWait (.core n) (.barrier sc va ((h.get r2).getLsbD 0)))))

/-- Fences (R49, R296, R316 to R318): a fence is a release, for which the core's stores leave its queue and no covered write may be held, followed by an acquire; for pkg and sys every die takes the invalidations of the writes it covers. `fence` is `fence.sys`, and on the cores whose accesses are performed one by one it only
moves the pc. `sfence.vma` (R359), illegal in U-mode and in S-mode with TVM, drops exactly the entries of the core's two TLBs that its operands pick.
That a line counts as a whole is the model's choice (log 13). -/
def Obligations.Fences : Prop :=
  ∀ (s : State) (n : Nat), s.byCore n →
    let c := s.core n
    (∀ sc s1, Ok (drainAll n) s () s1 → s1.coveredHeld n = false → s1.swap = none → ∃ t : State, exec (.fenceScoped sc) s = .next (t.fallThrough (.core n)) ∧
      t.mem = s1.mem ∧ s1.SameBut t ∧ t.stale = (if sc = .pkg ∨ sc = .sys then s1.stale.filter fun k => !(k.writers.contains n || (s1.core n).observed.contains k.line) else s1.stale) ∧
      (sc = .sys → ∀ fm p q r1 rd, exec (.standardFence fm p q r1 rd) s = exec (.fenceScoped sc) s)) ∧
    (∀ r1 r2, (c.hart.priv = .u ∨ (c.hart.priv = .s ∧ c.hart.csrBit 0x300 20 = true)) → exec (.sfenceVma r1 r2) s = .next (s.illegalAt (.core n))) ∧
    (∀ r1 r2, c.hart.priv = .m ∨ (c.hart.priv = .s ∧ c.hart.csrBit 0x300 20 = false) →
      let va := (c.hart.get r1).toNat % 2 ^ 48
      let asid := (c.hart.get r2).toNat % 2 ^ 16
      let goes := fun (e : TlbEntry) => (r1 == 0#5 || (decide (e.vbase ≤ va) && decide (va < e.vbase + e.size))) && (r2 == 0#5 || (!e.global && e.asid == asid))
      ∃ t : State, exec (.sfenceVma r1 r2) s = .next (t.fallThrough (.core n)) ∧
        (t.core n).hart.tlb = c.hart.tlb.filter (fun e => !goes e) ∧ (t.core n).etlb = c.etlb.filter (fun e => !goes e) ∧
        t.mem = s.mem ∧ s.SameBut t ∧ (∀ m, m ≠ n → t.core m = s.core m)) ∧
    (∀ u : State, ∀ a, u.byHart a → a.isCore = false → ∀ fm p q r1 rd, exec (.standardFence fm p q r1 rd) u = .next (u.fallThrough a))
/-! ### Contexts, interrupts, faults -/

/-- `ctx.save` (R305): it is an illegal instruction but in S-mode, with a suspended context, an area aligned to 4 KiB and (R351) an empty fault queue; while the swap engine holds a write of the task it waits (R125, R321); with the area written (R306), the core holds no task, every engine register is in the
dispatch state and no local interrupt of the task is pending; in an instance that may go on the node is suspended, and the staged output of the task is held under its SAVE address (R345).
The bytes of a live line beyond the scratchpad are free (log 2). -/
def Obligations.ContextSave : Prop :=
  ∀ (s : State) (n : Nat) (r1 : Reg), s.byCore n →
    let c := s.core n
    let va := (c.hart.get r1).toNat
    (c.task = none ∨ c.hart.priv ≠ .s ∨ c.suspended = false ∨ va % 4096 ≠ 0 ∨ c.fq ≠ [] → exec (.ctxSave r1) s = .next (s.illegalAt (.core n))) ∧
    (∀ t s1 s2, c.task = some t → c.hart.priv = .s → c.suspended = true → va % 4096 = 0 → c.fq = [] →
      Ok (drainAll n) s () s1 → (s1.swapHolds n = true → exec (.ctxSave r1) s = .next s) ∧ (s1.swapHolds n = false → Ok (saveArea n va c t) s1 () s2 →
      ∃ u : State, exec (.ctxSave r1) s = .next (u.fallThrough (.core n)) ∧
        (u.core n).task = none ∧ (u.core n).suspended = false ∧ (u.core n).frozen = false ∧ (u.core n).staging = Staging.empty ∧
        (∀ i, (u.core n).sem i = 0) ∧ (∀ i, (u.core n).cb i = Cb.reset) ∧ (u.core n).v = [] ∧ (u.core n).k = [] ∧ (u.core n).pj = [] ∧ (u.core n).acc = [] ∧
        (∀ e, (u.ring n e).read = (u.ring n e).write ∧ (u.ring n e).retire = (u.ring n e).write ∧ (u.ring n e).flight = [] ∧ (u.ring n e).halted = false ∧
          (u.ring n e).owner = false ∧ (u.ring n e).base = (s2.ring n e).base ∧ (u.ring n e).size = (s2.ring n e).size) ∧
        (∀ j, (u.core n).hart.csrBit 0x344 j = ((s2.core n).hart.csrBit 0x344 j && !(j == 16 || j == 17 || j == 18))) ∧
        (s2.sound t.inst t.node → u.mem = s2.mem ∧ (u.core n).hart.x = (s2.core n).hart.x ∧ (u.core n).hart.pc = (s2.core n).hart.pc ∧
          (u.core n).hart.priv = (s2.core n).hart.priv ∧ (∀ m, m ≠ n → u.core m = s2.core m) ∧
          ((s2.core n).staging ≠ Staging.empty → Table.get none u.savedSets t.save = some (s2.core n).staging) ∧
          ∀ g x, s2.inst? t.inst = some g → g.nodes[t.node]? = some x → ∃ g' x', u.inst? t.inst = some g' ∧ g'.nodes[t.node]? = some x' ∧ x'.phase = .suspended)))

/-- The layout of a context area (R306): what `ctx.save` writes up to the accumulators has 0x10000 bytes, with the magic number, the version, the profile, x1 to x31 and the resume pc at their places; and what `ctx.rest` loads of
an area is what was saved: the semaphores, V registers, masks, patterns, accumulators and, in the bits that they have, CSRs of the 0x800 range. -/
def Obligations.ContextRoundTrip : Prop :=
  ∀ (c c0 : Core) (n : Nat) (t : TaskSt), n < 288 → (∀ f rest l, (c.ring .mx).flight = f :: rest → f.latch = some l → l.length = 128) →
    let l := c.headArea n t
    let d := c0.loadArea n l (c.accArea n)
    l.length = 0x10000 ∧ leNat (l.take 4) = 0x53484358 ∧ leNat ((l.drop 4).take 4) = 1 ∧ leNat ((l.drop 8).take 1) = (if n < 32 then 0 else 1) ∧
    (∀ i, 1 ≤ i → i < 32 → leNat ((l.drop (0x40 + 8 * (i - 1))).take 8) = (Table.get (0 : W64) c.suspRegs i).toNat) ∧
    leNat ((l.drop 0x138).take 8) = c.suspPc.toNat ∧
    (∀ i, i < 32 → d.sem i = c.sem i) ∧ (∀ i, i < 8192 → Table.get (0 : W32) d.v i = Table.get (0 : W32) c.v i) ∧
    (∀ i, i < 64 → Table.get (0 : W64) d.pj i = Table.get (0 : W64) c.pj i) ∧ (∀ i, i < 16 → d.mask i = c.mask i) ∧
    (∀ i, i < accCount n * accDim n * accDim n → Table.get (0 : W64) d.acc i = Table.get (0 : W64) c.acc i) ∧
    (∀ k ∈ csrs800, d.hart.csrRaw k = c.hart.csrRaw k &&& BitVec.ofNat 64 (csr800Mask k))

/-- `ctx.rest` (R307): it is an illegal instruction but in S-mode, on a core that holds no task, of an area aligned to 4 KiB; an area whose header is not one of the core's profile with sizes that agree is a bad context area, and traps with nothing loaded; with
the sections read, the core holds the task of the area's node, its registers are the area's, `sepc` is the resume pc, SPP is U, and the engines stay frozen until `sret`.
How the node is found, the alignment of the area, and that commands read their slots again are the model's readings (log 34, log 49). -/
def Obligations.ContextRestore : Prop :=
  ∀ (s : State) (n : Nat) (r1 : Reg), s.byCore n →
    let c := s.core n
    let va := (c.hart.get r1).toNat
    (c.hart.priv ≠ .s ∨ c.task ≠ none ∨ va % 4096 ≠ 0 → exec (.ctxRest r1) s = .next (s.illegalAt (.core n))) ∧
    (c.hart.priv = .s → c.task = none → va % 4096 = 0 → ∀ s1 s2 l, Ok (drainAll n) s () s1 → Ok (areaRead n va 0x10000) s1 l s2 →
      let orgNo := ((ringsOf l).map fun r => r.slots.length).sum
      let sizes := areaSizes n orgNo (regionsOf l)
      (headerOk n l sizes = false → exec (.ctxRest r1) s = .next (s2.takeTrap (.core n) { code := 28, tval := va, cause := 24 })) ∧
      (∀ g i x accs orgs tags s3 s4 s5 s6, headerOk n l sizes = true → s2.nodeAt (leNat ((l.drop 40).take 8)) = some (g, i, x) →
        Ok (areaRead n (va + 0x10000) (accBytes n)) s2 accs s3 → Ok (areaRead n (va + orgOff n) (72 * orgNo)) s3 orgs s4 →
        Ok (restLive n va sizes.1 (regionsOf l)) s4 () s5 →
        Ok (areaRead n (va + sizes.1 + 64 * (liveLines (regionsOf l)).length) (liveBlocks (regionsOf l)).length) s5 tags s6 → s6.heldW = [] → s6.stale = [] →
        ∃ u : State, exec (.ctxRest r1) s = .next (u.fallThrough (.core n)) ∧ u.mem = s6.mem ∧ (∀ m, m ≠ n → u.core m = s6.core m) ∧
          (∃ k, (u.core n).task = some k ∧ k.inst = g.id ∧ k.node = i ∧ k.ctx = g.ctx ∧ k.pinned = (leNat ((l.drop 9).take 1) != 0)) ∧
          (u.core n).frozen = true ∧ (u.core n).suspended = false ∧ (u.core n).descs = [] ∧
          (∀ r : Reg, r ≠ 0#5 → (u.core n).hart.get r = BitVec.ofNat 64 (leNat ((l.drop (0x40 + 8 * (r.toNat - 1))).take 8))) ∧
          (u.core n).hart.csrRaw 0x141 = BitVec.ofNat 64 (leNat ((l.drop 0x138).take 8)) ∧ (u.core n).hart.csrBit 0x300 8 = false ∧
          (u.core n).hart.csrRaw 0x180 = s6.reg (0x030001602000 + 8 * g.ctx) ∧
          (∀ j, j < 32 → (u.core n).sem j = BitVec.ofNat 16 (leNat ((l.drop (0x3C0 + 2 * j)).take 2))) ∧
          (∀ e : Eng, (u.ring n e).base = leNat ((l.drop (0x800 + 32 * e.num)).take 4) ∧
            (u.ring n e).write = BitVec.ofNat 32 (leNat ((l.drop (0x808 + 32 * e.num)).take 4)) ∧
            (u.ring n e).read = BitVec.ofNat 32 (leNat ((l.drop (0x80C + 32 * e.num)).take 4)) ∧
            (u.ring n e).retire = BitVec.ofNat 32 (leNat ((l.drop (0x810 + 32 * e.num)).take 4)))))

/-- The interrupt that a boundary comes to is taken (R350): any but the Shefel interrupts as the standard has it (log 20); 18 leaves CTXEV of the held task's context in `shinfo` and is no longer pending; 17, on a core with a resume request under way, enters S-mode whatever is
delegated; 16 suspends the task, whose registers and pc go into the suspension bank, and enters S-mode with `shinfo` holding SAVE (R304, R345).
When a pending bit clears, that 16 awaits quiet engines and that 17 comes whatever is enabled are the model's readings (log 27, log 28). -/
def Obligations.LocalInterrupts : Prop :=
  (∀ (s : State) (a : Agent) (k : Nat), s.byHart a → s.intrDue a = some k → (a.isCore = false ∨ (k ≠ 16 ∧ k ≠ 17 ∧ k ≠ 18)) →
    exec .localInterrupt s = .next (s.setHart a ((s.hart a).takeTrap true k 0))) ∧
  ∀ (s : State) (n : Nat) (k : TaskSt), s.byCore n →
    let c := s.core n
    (c.task = some k → s.intrDue (.core n) = some 18 → c.hart.delegated true 18 = true →
      ∃ t : State, exec .localInterrupt s = .next t ∧ (t.core n).hart.priv = .s ∧ (t.core n).hart.csrRaw 0x141 = c.hart.pc ∧
        (t.core n).hart.csrRaw 0x142 = BitVec.ofNat 64 (2 ^ 63 + 18) ∧ (t.core n).hart.csrRaw 0x5C4 = s.reg (0x030001601000 + 8 * k.ctx) ∧
        (t.core n).hart.csrBit 0x344 18 = false ∧ (t.core n).hart.x = c.hart.x ∧ (t.core n).task = some k ∧ t.mem = s.mem ∧ ∀ m, m ≠ n → t.core m = s.core m) ∧
    (s.intrDue (.core n) = some 17 → c.resuming.isSome = true →
      ∃ t : State, exec .localInterrupt s = .next t ∧ (t.core n).hart.priv = .s ∧ (t.core n).hart.csrRaw 0x141 = c.hart.pc ∧
        (t.core n).hart.csrRaw 0x142 = BitVec.ofNat 64 (2 ^ 63 + 17) ∧ (t.core n).hart.csrRaw 0x5C4 = c.hart.csrRaw 0x5C4 ∧
        (t.core n).hart.csrBit 0x344 17 = false ∧ (t.core n).hart.x = c.hart.x ∧ t.mem = s.mem ∧ ∀ m, m ≠ n → t.core m = s.core m) ∧
    (∀ s1, s.intrDue (.core n) = some 16 → Ok (drainAll n) s () s1 → (s1.core n).task = some k → s1.abortsInstead n = false →
      ∃ t : State, exec .localInterrupt s = .next t ∧ (t.core n).suspended = true ∧ (t.core n).frozen = true ∧ (t.core n).task = some k ∧
        (t.core n).suspRegs = (s1.core n).hart.x ∧ (t.core n).suspPc = (s1.core n).hart.pc ∧ (t.core n).hart.priv = .s ∧
        (t.core n).hart.csrRaw 0x141 = (s1.core n).hart.pc ∧ (t.core n).hart.csrRaw 0x142 = BitVec.ofNat 64 (2 ^ 63 + 16) ∧
        (t.core n).hart.csrRaw 0x5C4 = BitVec.ofNat 64 k.save ∧ (t.core n).hart.csrBit 0x344 16 = false ∧
        (t.core n).sems = (s1.core n).sems ∧ (t.core n).cbs = (s1.core n).cbs ∧ (t.core n).v = (s1.core n).v ∧ (t.core n).acc = (s1.core n).acc ∧
        t.mem = s1.mem ∧ ∀ m, m ≠ n → t.core m = s1.core m)

/-- A write of `engctl` (R348, R355): RESUME of a ring that neither is halted nor has a stalled command changes nothing; of a
ring with a stalled command the command is ready again, its earlier cycles counted in its bound. The store queue is empty here.
RESUME of a halted ring (R355) decodes the halted command's slot again: its words are those that stand there now, it has its semaphores and slots as before, its bound is fresh, an illegal one fails again, and the others go on from their progress, but VX and TV from the beginning;
the ring is halted no longer, or only as long as another command of it is.
KILL and the writing of records. KILL waits while a started command of VX or TV, or a direct one of ST, runs to its end, but not between `ctx.rest` and `sret`; of a core without a task it does nothing; of a task in an instance that asks for no completion word it empties the rings and the staging area, idles the core, and the instance
is faulted or gone (R356). A fault record enters the queue of 16 behind the others with its context, node and time, or is held where the queue is full (R351, R352). RESUME is as in `engctl`. -/
def Obligations.EngineControlAndKill : Prop :=
  (∀ (s : State) (n : Nat) (rd r1 : Reg), s.byCore n → (s.core n).hart.priv ≠ .u → (s.core n).sq = [] → (s.core n).hart.csrGate 0x5C3 = true →
    bit ((s.core n).hart.get r1).toNat 8 = false → (∀ e, (s.ring n e).halted = false) →
    ∃ t : State, exec (.standardInstruction (.csr .rw rd r1 0x5C3#12)) s = .next (((t.setX (.core n) rd (s.core n).engctl)).fallThrough (.core n)) ∧
      (∀ e, t.ring n e =
        if bit ((s.core n).hart.get r1).toNat e.num = true then
          { s.ring n e with flight := (s.ring n e).flight.map fun f =>
              if f.phase = .stalled then { f with phase := .ready, since := s.now - f.since } else f }
        else s.ring n e) ∧
      t.mem = s.mem ∧ (t.core n).hart = (s.core n).hart ∧ ∀ m, m ≠ n → t.core m = s.core m) ∧
  (∀ (s : State) (n : Nat), s.byCore n →
    let c := s.core n
    (c.task = none → exec .engineKill s = .next s) ∧
    (c.mustEnd = true → c.frozen = false → exec .engineKill s = .next s) ∧
    (∀ t, c.task = some t → c.mustEnd = false ∨ c.frozen = true → (∀ g, s.inst? t.inst = some g → g.done = 0 ∧ g.born = true) →
      ∃ u : State, exec .engineKill s = .next u ∧ (u.core n).isIdle ∧ (u.core n).staging = Staging.empty ∧ (u.core n).fq = c.fq ∧ u.mem = s.mem ∧
        (∀ m, m ≠ n → u.core m = s.core m) ∧ ∀ g, u.inst? t.inst = some g → g.fault ≠ none) ∧
    (∀ r : FaultRec, let x := { r with ctx := (s.recCtx n).1, node := (s.recCtx n).2, time := s.datum (dieOf n) }
      r.logged = false → s.fld 0x030001720700 15 8 ≠ r.cause →
      ∃ u : State, exec (.faultRecordWrite r) s = .next u ∧
        s.OnlyCore u n (if c.fq.length < 16 ∧ c.fqHeld = [] then { c with fq := c.fq ++ [x] } else { c with fqHeld := c.fqHeld ++ [x] })) ∧
    (∀ mask : BitVec 6, c.sq = [] → (∀ e, (c.ring e).halted = false) → ∃ u : State, exec (.engineResume mask) s = .next u ∧ u.mem = s.mem ∧
      (u.core n).hart = c.hart ∧ (∀ m, m ≠ n → u.core m = s.core m) ∧ ∀ e, u.ring n e =
        if mask.getLsbD e.num = true then { c.ring e with flight := (c.ring e).flight.map fun f => if f.phase = .stalled then { f with phase := .ready, since := s.now - f.since } else f }
        else c.ring e) ∧
    (∀ (e : Eng) (f : Flight) (q : W64 × W64 × W64 × W64) (s1 : State), c.sq = [] → (c.ring e).halted = true → (c.ring e).isStalled = false →
      (c.ring e).flight.find? (fun x => x.phase == .halted) = some f → Ok (readSlot n e (c.ring e) f.slot) s q s1 →
      ∃ (u : State) (g : Flight), exec (.engineResume (BitVec.ofNat 6 (2 ^ e.num))) s = .next u ∧
        (u.ring n e).flight = (s1.ring n e).flight.map (fun x => if x.slot = f.slot then g else x) ∧
        (u.ring n e).halted = (u.ring n e).flight.any (fun x => x.phase == .halted) ∧
        g.slot = f.slot ∧ g.q0 = q.1 ∧ g.q1 = q.2.1 ∧ g.q2 = q.2.2.1 ∧ g.q3 = q.2.2.2 ∧ g.since = s1.now ∧ g.taken = f.taken ∧ g.claimed = f.claimed ∧
        (e = .vx ∨ e = .tv → g.prog = Prog.start) ∧ (e = .ld ∨ e = .st ∨ e = .ct → g.prog = f.prog) ∧ (e = .mx → g.prog.n = f.prog.n ∧ g.prog.z = f.prog.z) ∧
        (let bad := (s1.cx n e { g with phase := f.phase }).defect s1 (commandOf e q.1 q.2.1 q.2.2.1 q.2.2.2)
         (bad = 0 → g.phase = if g.wen && !g.taken && !g.claimed then .await else .ready) ∧ (bad ≠ 0 → ∃ r, g.phase = .failed r ∧ r.cause = bad ∧ r.halt = true)) ∧
        u.mem = s1.mem ∧ (u.core n).hart = (s1.core n).hart ∧ ∀ m, m ≠ n → u.core m = s1.core m))

/-- The events of translation: a walk (R358) for a hart or a command leaves its entry first in the die TLB and in the TLB of the access; where the walk or its permission fails, the hart takes the precise trap of the access, and the command stalls on a page fault and else ends with its fault, while
the other commands of its ring and the other rings stand as they were. An invalidation (R359) leaves in no TLB of the package (of a control core, of engines, of a compute die) an entry
it names, reports BUSY, and while one is in progress is refused with RES 1; it ends, and BUSY clears, once no write and no posted arrival made through a removed entry is outstanding, and no TLB holds such an entry then.
The place of an entry in its TLB is the model's choice (log 11), and a walk whose home is illegal for its address makes no fill (log 89). -/
def Obligations.TranslationEvents : Prop :=
  (∀ (s s1 : State) (n : Nat) (va : W64) (write : Bool) (e : TlbEntry), s.byCore n →
    let h := (s.core n).hart
    let p : Perm := { user := h.priv == .u, sum := h.csrBit 0x300 18, mxr := h.csrBit 0x300 19 }
    let k : AccKind := if write then .store else .load
    let page : Trap := { code := if write then 15 else 13, tval := va.toNat }
    bits (h.csrRaw 0x180).toNat 63 60 = 9 →
    (canonical va.toNat = false → exec (.pageWalk va write) s = .next (s.takeTrap (.core n) page)) ∧
    (canonical va.toNat = true → Ok (walkFill (.cc n) (s.recCtx n).1 (h.csrRaw 0x180) va.toNat k) s e s1 →
      (∃ rest, (s1.core n).hart.tlb = e :: rest) ∧ (∃ rest, Table.get [] s1.dieTlb (dieOf n) = e :: rest) ∧
      (e.allows p k = true → exec (.pageWalk va write) s = .next s1) ∧
      (e.allows p k = false → exec (.pageWalk va write) s = .next (s1.takeTrap (.core n) page))) ∧
    (∀ x : Flt, canonical va.toNat = true → (walkFill (.cc n) (s.recCtx n).1 (h.csrRaw 0x180) va.toNat k).run s = (.error (.flt x), s1) → 3 ≤ x.cause → x.cause ≤ 8 →
      exec (.pageWalk va write) s = .next ((s1.reportFlt x).takeTrap (.core n)
        (if x.cause = 3 then (if x.detail = 1 then page else { code := if write then 7 else 5, tval := va.toNat })
         else { code := 25, tval := va.toNat, cause := x.cause, detail := x.detail })))) ∧
  (∀ (s s1 : State) (n : Nat) (en : Eng) (i : Nat) (f : Flight) (va : W64) (write : Bool) (e : TlbEntry), s.focus = .flight n en i →
    (s.ring n en).flight[i]? = some f → bits f.org.satp.toNat 63 60 = 9 →
    let k : AccKind := if write then .store else .load
    let walk := walkFill (.eng n) f.org.ctx f.org.satp va.toNat k
    let ends := fun (u : State) (cause detail : Nat) => ∃ t : State, exec (.pageWalk va write) s = .next t ∧
      (∀ g ∈ (t.ring n en).flight, g.slot = f.slot → if cause = 3 ∧ detail = 1 then g.phase = .stalled else ∃ r : FaultRec, g.phase = .failed r ∧ r.cause = cause ∧ r.detail = detail ∧ r.halt = true) ∧
      (t.ring n en).flight.filter (fun g => g.slot != f.slot) = (u.ring n en).flight.filter (fun g => g.slot != f.slot) ∧ ∀ j, j ≠ en → t.ring n j = u.ring n j
    (canonical va.toNat = false → ends s 3 1) ∧
    (canonical va.toNat = true → Ok walk s e s1 → (∃ rest, (s1.core n).etlb = e :: rest) ∧
      (e.allows { user := true, anyPage := (s.ring n en).owner } k = true → exec (.pageWalk va write) s = .next s1) ∧
      (e.allows { user := true, anyPage := (s.ring n en).owner } k = false → (s1.ring n en).flight.any (fun g => g.slot == f.slot) = true → ends s1 3 1)) ∧
    (∀ x : Flt, canonical va.toNat = true → walk.run s = (.error (.flt x), s1) → (s1.ring n en).flight.any (fun g => g.slot == f.slot) = true → ends s1 x.cause x.detail)) ∧
  (∀ (s : State) (i : Instr) (v : TlbInv),
    ((∃ vpn asid ctx, i = .tlbInvalPage vpn asid ctx ∧ v = { mode := 0, vpn := vpn.toNat, asid := asid.toNat, ctx := ctx.toNat }) ∨
     (∃ asid ctx, i = .tlbInvalAsid asid ctx ∧ v = { mode := 1, vpn := 0, asid := asid.toNat, ctx := ctx.toNat }) ∨
     (∃ ctx, i = .tlbInvalCtx ctx ∧ v = { mode := 2, vpn := 0, asid := 0, ctx := ctx.toNat }) ∨ (i = .tlbInvalAll ∧ v = { mode := 3, vpn := 0, asid := 0, ctx := 0 })) →
    (s.tlbInv = none → ∃ (t : State) (gone : List (Nat × Nat)), exec i s = .next t ∧ t.tlbInv = some { v with gone := gone } ∧
      (∀ n d e, e ∈ (s.core n).hart.tlb ∨ e ∈ (s.core n).etlb ∨ e ∈ Table.get [] s.dieTlb d → v.matches e = true → (e.pbase, e.size) ∈ gone) ∧ t.reg 0x030001600010 = 1#64 ∧ t.mem = s.mem ∧
      (∀ n e, (e ∈ (t.core n).hart.tlb → e ∈ (s.core n).hart.tlb ∧ v.matches e = false) ∧ (e ∈ (t.core n).etlb → e ∈ (s.core n).etlb ∧ v.matches e = false)) ∧
      ∀ d < 12, ∀ e, e ∈ Table.get [] t.dieTlb d → e ∈ Table.get [] s.dieTlb d ∧ v.matches e = false) ∧
    (∀ w, s.tlbInv = some w → ∃ t : State, exec i s = .next t ∧ t.tlbInv = some w ∧ t.fld 0x030001600010 2 1 = 1 ∧ t.cores = s.cores ∧ t.mem = s.mem)) ∧
  (∀ (s : State) (v : TlbInv), s.tlbInv = some v → s.invalWaits v = true → exec .tlbInvalidationDone s = .next s) ∧
  (∀ (s : State) (v : TlbInv), s.tlbInv = some v → s.invalWaits v = false → ∃ t : State, exec .tlbInvalidationDone s = .next t ∧ t.tlbInv = none ∧ t.reg 0x030001600010 = 0#64 ∧ t.mem = s.mem ∧
    (∀ n e, (e ∈ (t.core n).hart.tlb ∨ e ∈ (t.core n).etlb) → v.matches e = false) ∧ ∀ d < 12, ∀ e, e ∈ Table.get [] t.dieTlb d → v.matches e = false) ∧
  ∀ s : State, s.tlbInv = none → exec .tlbInvalidationDone s = .next s

/-- A register write of the step's hart: of a CSR it may write, what the CSR instructions store (R3, R4, R310); of an MMIO register, from a hart that may act directly, what the register's own rule does with the value (R404). One register for each access code of R3: a hub limit register (RW) keeps its field's bits and no others, CTXEV (W1C, R350) clears the bits at which the value is 1, TLBST (RO, R359) does not change, and GO of TLBCTL (WO, R359) reads 0 afterwards while its RW fields are kept. -/
def Obligations.RegisterWrites : Prop :=
  ∀ (s : State) (a : Agent) (addr : BitVec 52) (v : W64), s.byHart a →
    let k := addr.toNat
    (k < 0x1000 → k ≠ 0x5C3 → k ≠ 0xB02 → csrExists a k = true → (s.hart a).csrAllowed k = true → (s.hart a).csrGate k = true → bits k 11 10 ≠ 3 →
      exec (.registerWrite addr v) s = .next (s.setHart a ((s.hart a).csrStore a.isCore k v))) ∧
    (0x030000000000 ≤ k → k < 0x030100000000 → k % 8 = 0 → s.agentStages a = false → ∀ t, Ok (mmioWrite (whoOf a) k v) s () t →
      exec (.registerWrite addr v) s = .next t) ∧
    (∀ c < 256, k = 0x030000220000 + 8 * c → s.agentStages a = false →
      ∃ t : State, exec (.registerWrite addr v) s = .next t ∧ t = { s with mmio := t.mmio } ∧ t.reg k = v &&& 0xFFFFFF#64 ∧ ∀ j, j ≠ k → t.reg j = s.reg j) ∧
    (∀ c < 256, k = 0x030001601000 + 8 * c → s.agentStages a = false →
      ∃ t : State, exec (.registerWrite addr v) s = .next t ∧ t = { s with mmio := t.mmio } ∧ t.reg k = s.reg k &&& ~~~(v &&& 0xF#64) ∧ ∀ j, j ≠ k → t.reg j = s.reg j) ∧
    (k = 0x030001600010 → s.agentStages a = false → exec (.registerWrite addr v) s = .next s) ∧
    (k = 0x030001600008 → s.agentStages a = false → ∃ t : State, exec (.registerWrite addr v) s = .next t ∧ t.reg k = v &&& 0xFFFFFF0006#64)
/-! ### Engine commands -/

namespace Sys2Proof.Machine

/-- The command has come to its end with a fault of a cause, its record to be written at its retirement (R67, R352); but for that nothing has happened. -/
structure State.FailsWith (s t : State) (n : Nat) (e : Eng) (f : Flight) (cause : Nat) : Prop where
  rest : s.OnlyCore t n { s.core n with rings := (t.core n).rings }
  rings : ∀ k, k ≠ e → t.ring n k = s.ring n k
  failed : ∀ g ∈ (t.ring n e).flight, g.slot = f.slot → ∃ r : FaultRec, g.phase = .failed r ∧ r.cause = cause ∧ r.eng = e.num ∧ r.slot = f.slot.toNat ∧ r.halt = true

/-- What a Traverse command that ends has sent on its channel is its own no more (R278). -/
def State.unsent (s : State) (n : Nat) (e : Eng) (f : Flight) : State := if e = .tv then s.forgetSlot n f.slot else s

/-- The command is done, and the core of the step is otherwise `c`. -/
def State.DoneWith (s t : State) (n : Nat) (e : Eng) (f : Flight) (c : Core) : Prop :=
  s.OnlyCore t n (c.setRing e ((c.ring e).modFlight f.slot fun f => f.finish e))

end Sys2Proof.Machine

/-- The life of a command. Awaiting (R30): it takes its semaphore and is ready once the value exceeds the number of awaiting engines of lower ENG, and waits till then. Retirement (R28, R67, R73): the oldest
command, when done, leaves its ring with its origin record cleared and RETIRE moved on, raises its semaphore (at 0xFFFF a record of cause 18 instead) and decrements its counter; when failed, its record is written and its ring halts; any other does not
retire. Its bound (R29, R41): a command that has been awaiting or at work for the cycles of BOUND ends with the record of cause 11, written at once, and its ring halts; not before.
The commands that every engine has (R31, R58): NOP is done at once; CB.CLAIM and CB.TAKE wait for their slots and then move the counts and indices as R31 says; CB.PUSH of more slots than the ring has claimed and not pushed, and CB.REL of more than are
held, are illegal commands (cause 1). -/
def Obligations.CommandLives : Prop :=
  (∀ (s : State) (n : Nat) (e : Eng) (i : Nat) (f : Flight), s.focus = .flight n e i →
    let c := s.core n
    let r := c.ring e
    (r.turnOf i = some f → f.phase = .await →
      let before := ((c.awaiters f.wsem).filter fun k => k.num < e.num).length
      let latches := fun (c : Core) => if e = .mx then c.dropIfDue else c
      (f.wen = true → (c.sem f.wsem).toNat ≤ before → exec .engineAwaitTaken s = .next s) ∧
      (f.wen = true → before < (c.sem f.wsem).toNat → ∃ t : State, exec .engineAwaitTaken s = .next t ∧
        s.OnlyCore t n ((latches (c.setSem f.wsem (c.sem f.wsem - 1))).setRing e (r.modFlight f.slot fun f => { f with phase := .ready, taken := true }))) ∧
      (f.wen = false → ∃ t : State, exec .engineAwaitTaken s = .next t ∧
        s.OnlyCore t n ((latches c).setRing e (r.modFlight f.slot fun f => { f with phase := .ready, taken := false })))) ∧
    (∀ rest, i = 0 → r.flight = f :: rest →
      (f.phase = .done → e = .st → s.unacked n = true → exec .commandRetire s = .next s) ∧
      (f.phase = .done → f.recs = [] → (e = .st → s.unacked n = false) →
        let r' : Ring := { r with retire := r.retire + 1, org := Table.put Origin.empty r.org r.retire.toNat Origin.empty, flight := rest }
        (f.ren = false ∨ c.sem f.rsem ≠ 0xFFFF#16 → ∃ t : State, s.OnlyCore t n ((if f.ren then c.setSem f.rsem (c.sem f.rsem + 1) else c).setRing e r') ∧
          (f.dctr e = none → exec .commandRetire s = .next t) ∧
          (∀ k, f.dctr e = some k → c.stages = false → exec .commandRetire s = .next (t.decrementCtr (dieOf n) k false)) ∧
          (∀ k, f.dctr e = some k → c.stages = true → let g := c.staging
            Table.get 0 g.decs k ≠ 0 ∨ (t.core n).roomWith [.counter k] ≤ 65536 → ∃ u : State, exec .commandRetire s = .next u ∧
              t.OnlyCore u n { t.core n with staging := { g with decs := Table.put 0 g.decs k (Table.get 0 g.decs k + 1) } })) ∧
        (f.ren = true → c.sem f.rsem = 0xFFFF#16 → f.dctr e = none → s.fld 0x030001720700 15 8 ≠ 18 → c.fq.length < 16 → c.fqHeld = [] →
          ∃ (t : State) (x : FaultRec), exec .commandRetire s = .next t ∧ x.cause = 18 ∧ x.detail = f.rsem ∧ x.slot = f.slot.toNat ∧ x.eng = e.num ∧ x.cont = true ∧
            s.OnlyCore t n (({ c with fq := c.fq ++ [x] } : Core).setRing e r'))) ∧
      (∀ x, f.phase = .failed x → f.recs = [] → x.logged = false → s.fld 0x030001720700 15 8 ≠ x.cause → c.fq.length < 16 → c.fqHeld = [] →
        ∃ t : State, exec .commandRetire s = .next t ∧
          (s.unsent n e f).OnlyCore t n (({ c with fq := c.fq ++ [{ x with ctx := (s.recCtx n).1, node := (s.recCtx n).2, time := s.datum (dieOf n) }] } : Core).setRing e
            (({ r with halted := true } : Ring).modFlight f.slot fun f => { f with phase := .halted, recs := [] }))) ∧
      (f.phase ≠ .done → (∀ x, f.phase ≠ .failed x) → exec .commandRetire s = .next s)) ∧
    (r.flight[i]? = some f →
      let due := (f.phase = .await ∨ f.phase = .ready) ∧ f.bound ≠ 0 ∧ f.since + (if e.fast then 32 else 64) * f.bound ≤ s.now
      (¬due → exec .boundOverrun s = .next s) ∧
      (due → f.recs = [] → s.fld 0x030001720700 15 8 ≠ 11 → c.fq.length < 16 → c.fqHeld = [] → ∃ (t : State) (x : FaultRec), exec .boundOverrun s = .next t ∧
        x.cause = 11 ∧ x.eng = e.num ∧ x.slot = f.slot.toNat ∧ x.opc = f.org.pc.toNat ∧ x.halt = true ∧ x.wval = true ∧
        (s.unsent n e f).OnlyCore t n (({ c with fq := c.fq ++ [x] } : Core).setRing e
          (({ r with halted := true } : Ring).modFlight f.slot fun f => { f with phase := .halted, recs := [], resv := none, list := none, halves := [] }))))) ∧
  (∀ (s : State) (n : Nat) (e : Eng) (i : Nat) (f : Flight) (h : Hdr) (a : CbArgs), Working s n e i f →
    let c := s.core n
    let j := a.cb.toNat
    let m := a.m.toNat
    let b := c.cb j
    let mine := Table.get 0 b.clm e.num
    let claimed := fun (c : Core) => c.setRing e ((c.ring e).modFlight f.slot fun f => { f with claimed := true })
    exec (.nop e h) s = .next (s.doneFlight n e f) ∧
    (b.free < m → exec (.cbClaimCommand e h a) s = .next s) ∧
    (m ≤ b.free → ∃ t : State, exec (.cbClaimCommand e h a) s = .next t ∧ s.DoneWith t n e f (claimed (c.setCb j
      { b with free := b.free - m, inflight := b.inflight + m, prod := (b.prod + m) % b.count, clm := Table.put 0 b.clm e.num (mine + m) }))) ∧
    (b.filled < m → exec (.cbTakeCommand e h a) s = .next s) ∧
    (m ≤ b.filled → ∃ t : State, exec (.cbTakeCommand e h a) s = .next t ∧ s.DoneWith t n e f (claimed (c.setCb j
      { b with filled := b.filled - m, held := b.held + m, cons := (b.cons + m) % b.count }))) ∧
    (mine < m → ∃ t : State, exec (.cbPushCommand e h a) s = .next t ∧ s.FailsWith t n e f 1) ∧
    (m ≤ mine → ∃ t : State, exec (.cbPushCommand e h a) s = .next t ∧ s.DoneWith t n e f (c.setCb j
      { b with inflight := b.inflight - m, filled := b.filled + m, clm := Table.put 0 b.clm e.num (mine - m) })) ∧
    (b.held < m → ∃ t : State, exec (.cbRelCommand e h a) s = .next t ∧ s.FailsWith t n e f 1) ∧
    (m ≤ b.held → ∃ t : State, exec (.cbRelCommand e h a) s = .next t ∧ s.DoneWith t n e f (c.setCb j
      { b with held := b.held - m, free := b.free + m })))

/-! ### Scratchpads and copies -/

namespace Sys2Proof.Machine

/-- A run of core `n`'s scratchpad within one 64-byte line, in a group that is HEALTHY with no stale row, with no bad word, no poison and a good check, on a die that is out of reset, no write of the package held or
staged by the core, and no access of an engine under way. -/
structure State.CalmPad (s : State) (n off len : Nat) : Prop where
  fits : 0 < len ∧ off % 64 + len ≤ 64 ∧ off < spSize n ∧ n < 288
  up : s.inReset (dieOf n) = false
  group : (s.core n).group (spGroup n off) = Group.reset
  clean : (s.core n).flips = [] ∧ (s.core n).stuck = [] ∧ (s.core n).linePois = []
  line : Table.get LineMeta.good s.lines ((spBase n + off) / 64) = LineMeta.good
  alone : s.stale = [] ∧ s.heldW = [] ∧ s.swap = none ∧ (s.core n).staging.bytes = [] ∧ s.burst = none

/-- The addresses of the command are physical ones: the address space of its slot is Bare. -/
def Cx.bare (c : Cx) : Prop := bits c.f.org.satp.toNat 63 60 ≠ 9

/-- A copy command reserves its staging lines and copies its rows from the copy offset on. -/
def Cx.Copied (c : Cx) (gz : List (Nat × Nat)) (sink : Sink) (rows : List CopyRow) (s t : State) : Prop :=
  ∃ s1, Ok (c.reserve false gz (c.f.dctr c.e)) s () s1 ∧ Ok (copyRows c.f.prog.off sink rows) s1 () t

/-- What the rows of a copy write: their places and lengths. -/
def rowRuns (rows : List CopyRow) : List (Nat × Nat) := rows.map fun r => (r.va, r.len)

/-- The command keeps what it has read, or nothing. -/
def Cx.keeps (c : Cx) (l : Option (List Byte)) (s : State) : State := s.modFlight c.n c.e c.f.slot fun f => { f with list := l }

/-- The rows of an LD.MOVE from number `j` on, each read whole, in one access, before it is written; of a row it has begun to write it keeps what it has read. -/
def Cx.Moved (c : Cx) (a : LdArgs) (sink : Sink) : Nat → List (Nat × CopyRow) → State → State → Prop
  | _, [], s, t => t = c.keeps none s
  | j, (va, r) :: rest, s, t =>
    (r.from c.f.prog.off = none ∧ c.Moved a sink (j + 1) rest s t) ∨
    (∃ o d s1 s2, r.from c.f.prog.off = some o ∧
      (((o = 0 ∨ (c.asNow s).list = none) ∧ Ok (inBurst (c.readWindow va a.len0.toNat)) s d s1) ∨ (o ≠ 0 ∧ (c.asNow s).list = some d ∧ s1 = s)) ∧
      Ok (copyRow c.f.prog.off sink j { r with src := fun o k => plainBits (pure ((d.drop o).take k)) }) (c.keeps (some d) s1) () s2 ∧
      c.Moved a sink (j + 1) rest s2 t)

end Sys2Proof.Machine

/-- An engine's access to its own scratchpad (R128 to R133, R147), within a line of a calm pad: a read gives the bytes and changes nothing, a write leaves its own bytes and no others. Beside them, the events of a scratchpad: a free cycle of a group catches up its
oldest stale row (R131, R134); a direct read of an uncorrectable line in a group that is HEALTHY with its row's other lines clean changes no byte (R136); a retirement is refused while a rebuild runs, of a bank or group that does not exist or a group that is not HEALTHY, and else
starts the rebuild or, of the parity bank, degrades the group at once (R140); its completion leaves the group DEGRADED without that bank (R141). What is reported goes into the error log (R398). -/
def Obligations.Scratchpads : Prop :=
  (∀ (s : State) (c : Cx) (off len : Nat), c.bare → s.CalmPad c.n off len →
    Ok (c.readLocal (spBase c.n + off) len) s (Memory.readList s.mem (spBase c.n + off) len) s ∧
    ∀ d : List Byte, d.length = len → ∃ t : State, Ok (c.writeLocal (spBase c.n + off) d) s () t ∧ t.mem = Memory.writeList s.mem (spBase c.n + off) d ∧ s.SameBut t) ∧
  ∀ (s : State) (n g : Nat),
    let c := s.core n
    let x := c.group g
    (∀ r rest, x.mode = 0 → x.stale = r :: rest → c.stuck = [] → c.flips = [] →
      ∃ t : State, exec (.scratchpadArbitration n g) s = .next t ∧ s.OnlyCore t n (c.setGroup g { x with stale := rest.filter (· != r) })) ∧
    (x.mode ≠ 0 ∨ x.stale = [] → exec (.scratchpadArbitration n g) s = .next s) ∧
    (∀ b r, g < groupsOf n → b < 8 → r < rowsOf n → x = Group.reset → c.stuck = Table.put false [] (9 * g + b) true → c.flips = [] →
      ∃ t : State, exec (.reconstructedRead n g b r) s = .next t ∧ t.mem = s.mem ∧ s.SameBut { t with mmio := s.mmio } ∧
        Table.get 0 (t.core n).ue (9 * g + b) = min (Table.get 0 c.ue (9 * g + b) + 1) 0xFFFF) ∧
    (∀ (b : BitVec 4) (k : BitVec 2), let y := c.group k.toNat
      (c.rebuild ≠ none → ∃ t : State, exec (.bankRetire n b k) s = .next t ∧ s.OnlyCore t n { c with spRes := 3 }) ∧
      (c.rebuild = none → 8 < b.toNat ∨ groupsOf n ≤ k.toNat → ∃ t : State, exec (.bankRetire n b k) s = .next t ∧ s.OnlyCore t n { c with spRes := 1 }) ∧
      (c.rebuild = none → b.toNat ≤ 8 → k.toNat < groupsOf n → y.mode ≠ 0 → ∃ t : State, exec (.bankRetire n b k) s = .next t ∧ s.OnlyCore t n { c with spRes := 2 }) ∧
      (c.rebuild = none → b.toNat < 8 → k.toNat < groupsOf n → y.mode = 0 → ∃ t : State, exec (.bankRetire n b k) s = .next t ∧
        s.OnlyCore t n { c.setGroup k.toNat { y with mode := 1 } with spRes := 0, rebuild := some (b.toNat, k.toNat) }) ∧
      (c.rebuild = none → b.toNat = 8 → k.toNat < groupsOf n → y.mode = 0 → ∃ t : State, exec (.bankRetire n b k) s = .next t ∧ t.mem = s.mem ∧ t.cores = (s.setCore n
        { c.setGroup k.toNat { y with mode := 2, fbank := 8, stale := [] } with spRes := 0, stuck := Table.put false c.stuck (9 * k.toNat + 8) false }).cores)) ∧
    (∀ b, c.rebuild = some (b, g) → s.owed = [] → ∃ t : State, exec (.rebuildComplete n) s = .next t ∧ (t.core n).rebuild = none ∧ ((t.core n).group g).mode = 2 ∧
      ((t.core n).group g).fbank = b ∧ ((t.core n).group g).stale = [] ∧ Table.get false (t.core n).stuck (9 * g + b) = false ∧ t.mem = s.mem ∧ s.SameBut { t with mmio := s.mmio } ∧
      ∀ m, m ≠ n → t.core m = s.core m)

/-- The LD commands (R151 to R158): the rows that each copies into the issuing core's scratchpad, where row ρ begins DP1 · 64 · ρ after DST and is swizzled by 16 · (ρ mod 2^SPAN), and where its bytes come from; a command whose rows are copied is done. Of one row
in one line: LD.FILL leaves the pattern, LD.TILE the bytes of its source, and nothing else changes in memory. A malformed BMV stream ends LD.BMV with cause 19. LD.PREF changes no byte.
LD.MCAST (R160 to R162): with its rows read it sends a landing to every receiver of its mask and goes on; when every receiver has answered it is done. A landing is performed at or after its landing time at a receiver whose buffer is configured, big enough and not in use: its bytes are
written and the in-use bit is set; else it writes nothing, and the receiver's queue gets a record of cause 9 with the reason, unless the receiver is in reset.
AUX2 of a malformed stream and what a landing does at a bad row are the model's readings (log 44, log 41). -/
def Obligations.CopiesInAndMulticast : Prop :=
  (∀ (s : State) (n i : Nat) (f : Flight) (h : Hdr) (a : LdArgs), Working s n .ld i f →
    let c := s.cx n .ld f
    let done := fun (x : Instr) (t : State) => exec x s = .next (t.doneFlight n .ld f)
    let len := a.len0.toNat
    let src := c.addr a.q1hi
    let at2 := fun (ρ : Nat) => addVa src ((ρ % a.cnt1.toNat : Nat) * sext 24 (bits a.q3.toNat 23 0) + (ρ / a.cnt1.toNat : Nat) * sext 24 (bits a.q3.toNat 47 24) * 64)
    let only := a.cnt1.toNat * a.cnt2.toNat ≤ 1
    let row := fun (pitch len ρ : Nat) (get1 : Nat → Nat → M Bits) =>
      ({ base := ρ * pitch, pitch := if only then 0 else pitch, va := c.addr a.dst + ρ * pitch, len := len, swz := 16 * (ρ % 2 ^ a.span.toNat), src := get1 } : CopyRow)
    let p2 := bits a.q3.toNat 55 48 * 64
    let all := List.range (a.cnt1.toNat * a.cnt2.toNat)
    let copied := fun (rows : List CopyRow) (t : State) => c.Copied [] (c.ldSink (rowRuns rows) 0) rows s t
    let pat := fun (o k : Nat) => (List.range k).map fun j => (a.q1hi >>> (8 * ((o + j) % 4))).setWidth 8
    (∀ t, copied (all.map fun ρ => { row p2 len ρ (fun o k => plainBits (c.source a (at2 ρ, len) o k)) with reads := fun o k => [(addVa (at2 ρ) o, k)] }) t → done (.ldTile h a) t) ∧
    (∀ t, copied (all.map fun ρ => row p2 len ρ fun o k => plainBits (pure (pat o k))) t → done (.ldFill h a) t) ∧
    (∀ s1 t, let rows := all.map fun ρ => (at2 ρ, row p2 len ρ fun _ _ => plainBits (pure []))
      Ok (c.reserve false [] (f.dctr .ld)) s () s1 → c.Moved a (c.ldSink (rowRuns (rows.map (·.2))) 0) 0 rows s1 t → done (.ldMove h a) t) ∧
    (∀ st dt s1 s2 t, ETy.ofCode a.stype.toNat = some st → ETy.ofCode (bits a.q3.toNat 63 56) = some dt →
      let gz := a.cs.toNat / 2
      let rd := fun (ρ o k : Nat) => c.source a (at2 ρ, st.bytes len) o k
      let rows := all.map fun ρ => { row p2 (dt.bytes len) ρ (c.cvtSrc h st dt (len * ρ) len (rd ρ)) with
        reads := cvtReads st dt len (at2 ρ), each := some (dt.width, c.cvtElem h st dt (len * ρ) (rd ρ)), stream := some (at2 ρ) }
      Ok (c.reserve false (if h.ovm = .gaz then (s.core n).gazRuns gz (len * a.cnt1.toNat * a.cnt2.toNat) else []) (f.dctr .ld)) s () s1 →
      Ok (copyRows f.prog.off (c.ldSink (rowRuns rows) gz) rows) s1 () s2 →
      Ok (if h.ovm = .gaz then M.at none (some (a.cnt1.toNat * a.cnt2.toNat * max p2 (dt.bytes len))) (c.gazCount gz) else pure ()) s2 () t → done (.ldCvt h a) t) ∧
    (∀ idx s1 t, Ok (c.once (c.readLocal (c.addr (a.q3.extractLsb' 32 32)) (4 * a.cnt1.toNat))) s idx s1 →
      let rows := (List.range a.cnt1.toNat).map fun j =>
        let x := leNat ((idx.drop (4 * j)).take 4)
        let va := addVa src (x * sext 24 (bits a.q3.toNat 23 0))
        { row (bits a.q3.toNat 31 24 * 64) len j (fun o k => plainBits (if x = 0xFFFFFFFF then pure (List.replicate k 0) else c.source a (va, len) o k)) with
          reads := fun o k => if x = 0xFFFFFFFF then [] else [(addVa va o, k)] }
      c.Copied [] (c.ldSink (rowRuns rows) 0) rows s1 t → done (.ldGather h a) t) ∧
    (∀ s1 t1 t2 t, let (ty, w) := if a.stype.toNat = 0x21 then (0x0A, 2) else (0x08, 1)
      let copiedAt := fun (rows : List CopyRow) (t : State) => c.Copied [] (c.ldSink (rowRuns rows) 0) rows s1 t
      let rd := fun (o k : Nat) => c.source a (src, 2 ^ 32) o k
      let blocks := 256 * ((len + 255) / 256)
      let wide := a.cs.getLsbD 0
      let tooBig := fun count size => if wide then decide (len < count) else decide (len < size)
      (∀ top, Ok (c.once (bmvTop rd ty)) s top s1 → let head := bmvHead (fun o k => pure ((top.drop o).take k)) ty w tooBig
       (∀ d, Ok head s1 (.error d) s1 → ∃ t, exec (.ldBmv h a) s = .next t ∧ ∀ g ∈ (t.ring n .ld).flight, g.slot = f.slot → ∃ r, g.phase = .failed r ∧ r.cause = 19 ∧ r.detail = d ∧ r.aux2 = src) ∧
       (∀ m : Bmv, Ok head s1 (.ok m) s1 →
        (wide = true → copiedAt [{ row 0 (len * w) 0 (fun o k => plainBits (bmvBytes rd m w o k)) with stream := some src }] t1 → done (.ldBmv h a) t1) ∧
        (wide = false → copiedAt [row 0 (16 + 64 * ((m.count + 511) / 512) + m.nnz * w) 0 fun o k => plainBits (rd o k)] t2 → done (.ldBmv h a) t2))) ∧
      let k1 := a.stype.toNat - 0x10
      (wide = false → ∀ get1 : Nat → Nat → M (List Byte), (∀ o k, get1 o k = (do
          let parts ← (pieces (k + 1) (32 * k1) o (List.replicate k 0)).mapM fun p => c.source a (src, blocks) (256 * (p.1 / (32 * k1)) + p.1 % (32 * k1)) p.2.length
          pure parts.flatten)) →
        copied [row 0 (32 * k1 * ((len + 255) / 256)) 0 fun o k => plainBits (get1 o k)] t → done (.ldBpn h a) t) ∧
      (wide = true → ∀ get1 : Nat → Nat → M (List Byte), (∀ o k, get1 o k = (do
          let parts ← (pieces (k + 1) 256 o (List.replicate k 0)).mapM fun p => do
            let blk ← c.source a (src, blocks) (256 * (p.1 / 256)) (32 * k1)
            pure ((span (p.1 % 256) p.2.length).map fun j => BitVec.ofInt 8 (bpnValue k1 (a.cs.getLsbD 1) (bpnBits k1 (fun b => (blk.getD b 0).toNat) j)))
          pure parts.flatten)) →
        copied [{ row 0 len 0 (fun o k => plainBits (get1 o k)) with stream := some src }] t → done (.ldBpn h a) t)) ∧
    (c.bare → s.left = none → (s.core n).stages = false → s.rtDrain = false → ∃ t : State, done (.ldPref h a) t ∧ t.mem = s.mem ∧ t.cores = s.cores) ∧
    (∀ off, c.bare → s.left = none → (s.core n).stages = false → f.prog.off = 0 → a.cnt1 = 1#12 → a.cnt2 = 1#12 → c.addr a.dst = spBase n + off → s.CalmPad n off len →
      (∃ t : State, done (.ldFill h a) t ∧ t.mem = Memory.writeList s.mem (spBase n + off) (pat 0 len) ∧ s.SameBut t) ∧
      (bits a.q3.toNat 47 0 = 0 → s.PlainHome (s.recCtx n).1 src len → ∃ t : State, done (.ldTile h a) t ∧
        t.mem = Memory.writeList s.mem (spBase n + off) (Memory.readList s.mem (s.key src) len) ∧ s.SameBut t))) ∧
  ((∀ (s : State) (n i : Nat) (f : Flight) (h : Hdr) (a : LdArgs), Working s n .ld i f →
    let c := s.cx n .ld f
    let rcv := (coresOf (dieOf n)).zipIdx.filterMap fun p => if a.dst.getLsbD p.2 then some p.1 else none
    (∀ s1 s2 rows, f.prog.row = 0 → Ok (c.reserve false [] (f.dctr .ld)) s () s1 → Ok (c.mcastRows a) s1 rows s2 →
      ∃ (t : State) (l : List Landing), exec (.ldMcast h a) s = .next t ∧ t = { s2 with landings := s2.landings ++ l, landDone := t.landDone, cores := t.cores } ∧
        t.core n = (s2.core n).setRing .ld (((s2.core n).ring .ld).modFlight f.slot fun f => { f with prog := { f.prog with row := 1 } }) ∧ (∀ m, m ≠ n → t.core m = s2.core m) ∧
        l.map (·.receiver) = rcv ∧ (∀ x ∈ l, x.sender = n ∧ x.slot = f.slot ∧ x.lbuf = a.stype.toNat % 32 ∧ x.land = bits a.q3.toNat 63 32 ∧ x.data = rows) ∧
        ∀ d ∈ t.landDone, ¬(d.sender = n ∧ d.slot = f.slot)) ∧
    (f.prog.row ≠ 0 →
      let mine := s.landDone.filter fun d => d.sender == n && d.slot == f.slot
      ((∃ r ∈ rcv, ∀ d ∈ mine, d.receiver ≠ r) → exec (.ldMcast h a) s = .next s) ∧
      ((∀ r ∈ rcv, ∃ d ∈ mine, d.receiver = r) → (∀ d ∈ mine, d.reason = 0) →
        exec (.ldMcast h a) s = .next (({ s with landDone := s.landDone.filter fun d => !(d.sender == n && d.slot == f.slot) } : State).doneFlight n .ld f)))) ∧
  ∀ (s : State) (j : Nat) (l : Landing), s.landings[j]? = some l → l.lbuf < 32 →
    let k := s.core l.receiver
    let w := (k.hart.csrRaw (0x840 + l.lbuf)).toNat
    let early := 2 ^ 31 ≤ (s.now + 2 ^ 32 - l.land) % 2 ^ 32
    let size := 64 * bits w 48 32
    let base := 64 * bits w 22 6
    let why := if s.inReset (dieOf l.receiver) then 4 else if k.hart.csrBit 0x830 l.lbuf then 1 else if size = 0 then 2 else if size < l.extent then 3 else 0
    let ended := fun (t : State) => t.landings = s.landings.eraseIdx j ∧ t.landDone = s.landDone ++ [{ sender := l.sender, slot := l.slot, receiver := l.receiver, reason := why }]
    (early → exec (.multicastLanding j) s = .next s) ∧
    (¬early → why = 4 → ∃ t : State, exec (.multicastLanding j) s = .next t ∧ ended t ∧ t.mem = s.mem ∧ t.cores = s.cores) ∧
    (¬early → why ≠ 0 → why ≠ 4 → s.fld 0x030001720700 15 8 ≠ 9 → k.fq.length < 16 → k.fqHeld = [] → ∃ (t : State) (x : FaultRec), exec (.multicastLanding j) s = .next t ∧ ended t ∧ t.mem = s.mem ∧
      t.core l.receiver = { k with fq := k.fq ++ [x] } ∧ x.cause = 9 ∧ x.detail = why ∧ ∀ m, m ≠ l.receiver → t.core m = s.core m) ∧
    (¬early → why = 0 → ∀ d, l.data = [(0, d)] → s.CalmPad l.receiver base d.length → ∃ t : State, exec (.multicastLanding j) s = .next t ∧ ended t ∧
      t.mem = Memory.writeList s.mem (spBase l.receiver + base) d ∧ (t.core l.receiver).hart.csrBit 0x830 l.lbuf = true ∧ (t.core l.receiver).hart.x = k.hart.x))

namespace Sys2Proof.Machine

/-- The bytes of a BMV stream (R157, R259) of `len` elements of `w` bytes each: the header of 16 bytes with magic, type, element count, nonzero count and its check, the mask of a bit for each element, and the elements with a nonzero byte. -/
def bmvOf (ty w len : Nat) (row : List Byte) : List Byte :=
  let el := (List.range len).map fun e => (row.drop (e * w)).take w
  let nz := el.filter fun x => decide (∃ b ∈ x, b ≠ 0#8)
  let hd := [0xB7#8, BitVec.ofNat 8 ty] ++ leBytes 2 len ++ leBytes 2 nz.length ++ List.replicate 6 0#8
  let marks := (List.range (8 * bmvMaskLen len)).map fun e => match el[e]? with
    | some x => decide (∃ b ∈ x, b ≠ 0#8)
    | none => false
  hd ++ leBytes 4 (crc32c hd) ++ ((List.range (bmvMaskLen len)).map fun i =>
    BitVec.ofNat 8 ((List.range 8).map fun k => if marks.getD (8 * i + k) false then 2 ^ k else 0).sum) ++ nz.flatten

end Sys2Proof.Machine

/-- The ST commands (R253 to R261): the rows that each stores, where row ρ is read at SP1 · 64 · ρ after SRC under the swizzle of its number; a command whose rows are stored is done. ST.DTILE and ST.DSCAT do the same as ST.TILE and ST.SCAT, and in a task that stages end with
cause 20. ST.BMV writes the stream of its row, or ends with cause 13 where the stream is longer than RSVB. ST.WB and ST.FLUSH change no byte; ST.FLUSH leaves no cached copy of a line it covers. Of one row in one line of calm scratchpad, ST.TILE leaves in plain memory the source's bytes and nothing else. -/
def Obligations.CopiesOut : Prop :=
  ∀ (s : State) (n i : Nat) (f : Flight) (h : Hdr) (a : StArgs), Working s n .st i f →
    let c := s.cx n .st f
    let done := fun (x : Instr) (t : State) => exec x s = .next (t.doneFlight n .st f)
    let len := a.len0.toNat
    let dst := c.addr a.dst
    let src := c.addr a.src
    let d1 := sext 24 (bits a.q3.toNat 23 0)
    let at2 := fun (ρ : Nat) => addVa dst ((ρ % a.cnt1.toNat : Nat) * d1 + (ρ / a.cnt1.toNat : Nat) * sext 24 (bits a.q3.toNat 47 24) * 64)
    let row := fun (ρ len va : Nat) (get1 : Nat → Nat → M Bits) => ({ base := ρ * len, pitch := len, va := va, len := len, swz := 0, src := get1 } : CopyRow)
    let runs := fun (pitch ρ : Nat) => unswizzledRuns (src + ρ * pitch) (16 * (ρ % 2 ^ a.span.toNat))
    let p2 := bits a.q3.toNat 55 48 * 64
    let all := List.range (a.cnt1.toNat * a.cnt2.toNat)
    let copied := fun (rows : List CopyRow) (s t : State) => c.Copied (rowRuns rows) (c.stSink a (rowRuns rows) 0) rows s t
    let from_ := fun (pitch ρ len va : Nat) => { row ρ len va (fun o k => plainBits (c.readPieces (runs pitch ρ o k))) with reads := runs pitch ρ }
    (∀ t, copied (all.map fun ρ => from_ p2 ρ len (at2 ρ)) s t → done (.stTile h a) t ∧ ((s.core n).stages = false → done (.stDtile h a) t)) ∧
    (∀ idx s1 t, Ok (c.once (c.readLocal (c.addr (a.q3.extractLsb' 32 32)) (4 * a.cnt1.toNat))) s idx s1 →
      copied ((List.range a.cnt1.toNat).filterMap fun j => let x := leNat ((idx.drop (4 * j)).take 4)
        if x = 0xFFFFFFFF then none else some (from_ (bits a.q3.toNat 31 24 * 64) j len (addVa dst (x * d1)))) s1 t →
      done (.stScat h a) t ∧ ((s.core n).stages = false → done (.stDscat h a) t)) ∧
    ((s.core n).stages = true → (∃ t : State, exec (.stDtile h a) s = .next t ∧ s.FailsWith t n .st f 20) ∧ ∃ t : State, exec (.stDscat h a) s = .next t ∧ s.FailsWith t n .st f 20) ∧
    (∀ st dt s1 s2 t, ETy.ofCode a.stype.toNat = some st → ETy.ofCode (bits a.q3.toNat 63 56) = some dt →
      let gz := a.gz.toNat
      let rd := fun (ρ o k : Nat) => c.readPieces (runs p2 ρ o k)
      let rows := all.map fun ρ => { row ρ (dt.bytes len) (at2 ρ) (c.cvtSrc h st dt (len * ρ) len (rd ρ)) with
        reads := fun o k => (cvtReads st dt len 0 o k).flatMap fun q => runs p2 ρ q.1 q.2, each := some (dt.width, c.cvtElem h st dt (len * ρ) (rd ρ)), stream := some (src + ρ * p2) }
      Ok (c.reserve false (rowRuns rows ++ if h.ovm = .gaz then (s.core n).gazRuns gz (len * a.cnt1.toNat * a.cnt2.toNat) else []) (f.dctr .st)) s () s1 →
      Ok (copyRows f.prog.off (c.stSink a (rowRuns rows) gz) rows) s1 () s2 → (h.ovm = .gaz → s2.unacked n = false) →
      Ok (if h.ovm = .gaz then M.at none (some (a.cnt1.toNat * a.cnt2.toNat * dt.bytes len)) (c.gazCount gz) else pure ()) s2 () t → done (.stCvt h a) t) ∧
    (∀ l s1, let w := if a.stype.toNat = 0x0A then 2 else 1
      Ok (c.once (c.readLocal src (len * w))) s l s1 →
      let b := bmvOf a.stype.toNat w len l
      let rows := [row 0 b.length dst fun o k => plainBits (pure ((b.drop o).take k))]
      (bits a.q3.toNat 23 0 < b.length → ∃ t : State, exec (.stBmv h a) s = .next t ∧ s1.FailsWith t n .st f 13) ∧
      (b.length ≤ bits a.q3.toNat 23 0 → ∀ t, copied rows s1 t → done (.stBmv h a) t)) ∧
    (s.left = none → ∀ s1 t, let lines := fun (inval : Bool) => all.forM fun ρ => (cutLines (at2 ρ) len).forM fun p =>
        if ρ * len + p.1 < f.prog.off then pure () else M.at none (some (ρ * len + p.1)) (c.wbLine inval (addVa (at2 ρ) p.1))
      Ok (c.reserve false [] (f.dctr .st)) s () s1 →
        (Ok (lines false) s1 () t → done (.stWb h a) t ∧ t.mem = s1.mem) ∧
        (Ok (lines true) s1 () t → done (.stFlush h a) t ∧ t.mem = s1.mem)) ∧
    (∀ va s1, Ok (c.wbLine true va) s () s1 → ∀ ph s0, Ok (c.xlate .store va) s ph s0 → ph.home = homeCached → s0.cores.any (fun k => k.2.staging.has (s0.norm ph.pa / 64)) = false →
      (∀ k g, (k, some g) ∈ s0.savedSets → Staging.has g (s0.norm ph.pa / 64) = false) →
      ∀ k t, ((k, some t) ∈ s1.hubTags ∨ (k, some t) ∈ s1.ccTags) → t.staged = none → t.addr ≠ s0.norm ph.pa / 128) ∧
    (∀ off, c.bare → s.left = none → (s.core n).stages = false → f.prog.off = 0 → a.cnt1 = 1#12 → a.cnt2 = 1#12 → bits a.q3.toNat 47 0 = 0 → src = spBase n + off → s.CalmPad n off len →
      s.PlainHome (s.recCtx n).1 dst len → ∃ t : State, done (.stTile h a) t ∧ t.mem = Memory.writeList s.mem (s.key dst) (Memory.readList s.mem (spBase n + off) len) ∧ s.SameBut t)

/-! ### Products -/

namespace Sys2Proof.Machine

/-- The form and the operands of a product command (R225): forms 0 BF16, 1 FP8, 2 I8, 3 Q4. -/
def productOf : Instr → Option (Nat × Hdr × MxArgs)
  | .mmaBf16 h a | .mvBf16 h a => some (0, h, a)
  | .mmaFp8 h a | .mvFp8 h a => some (1, h, a)
  | .mmaI8 h a | .mvI8 h a => some (2, h, a)
  | .mmaQ4 h a | .mvQ4 h a => some (3, h, a)
  | _ => none

/-- The element that group after group of `g` products makes of `x` (R90): every group is summed exactly and added with one rounding to FP32. -/
def groupSums (mode : Rnd) (g : Nat) : Nat → List XVal → Nat → Nat
  | 0, _, x => x
  | k + 1, l, x =>
    let y := (FFmt.fp32.value x).add (match l.take g with
      | [] => .fin false 0 1
      | p :: r => r.foldl XVal.add p)
    groupSums mode g k (l.drop g) (FFmt.fp32.round .ieee mode y).code

end Sys2Proof.Machine

/-- The matrix commands, in a turn with no boundary to stop at. A product command of one step (R220 to R226, R229, R230, R90, R91), its nest of single counts, A and B plain tiles: with its descriptor latched and free of defects, its region of the accumulator (cleared first where Z asks it) takes, of the INT kind while no sum passes 48 bits, the exact sum with the
products, of the FP kind the groups' sums one rounding each; every other element stands. A defect ends it with cause 1. ACC.LD, ACC.ST and ACC.SCALE move and scale what R235 and R236 say; one on an accumulator of the wrong mode ends with cause 1.
The entries of an ACC.ST after its lines are the model's reading (log 50). -/
def Obligations.MatrixCommands : Prop :=
  ∀ (s : State) (n i : Nat) (f : Flight), Working s n .mx i f →
    let c := s.cx n .mx f
    (∀ x form h a, productOf x = some (form, h, a) →
      (∀ d s1 w, f.latch = none → Ok (c.latch a) s d s1 → d.defect (s1.core n) n a form = some w → ∃ t : State, exec x s = .next t ∧ s1.FailsWith t n .mx f 1) ∧
      (∀ (d : Nest) ta tb s1 s2 s3, f.latch = none → f.prog.n = [] → f.prog.z = false → Ok (c.latch a) s d s1 → s1.left = none → d.defect (s1.core n) n a form = none →
        (∀ l < 6, d.count l = 1) → a.che = false → a.spa = 0 →
        let sA := (s1.modFlight n .mx f.slot fun f => { f with latch := some d.d }).modCore n Core.dropIfDue
        let sB := if a.z then (sA.modCore n (Core.accClear n a.acc (!d.isFp a form))).modFlight n .mx f.slot fun f => { f with prog := { f.prog with z := true } } else sA
        let sC := sB.modFlight n .mx f.slot fun f => { f with prog := { f.prog with n := [0, 0, 0, 0, 0, 0] } }
        (∀ g ∈ (sC.ring n .mx).flight, g.slot = f.slot → g.stuck = []) →
        Ok (c.tile (d.u 8 4) (c.addr (BitVec.ofNat 32 (d.u 0 4))) d.tm d.kc) sC ta s2 → Ok (c.tile (d.u 12 4) (c.addr (BitVec.ofNat 32 (d.u 4 4))) d.kc d.tn) s2 tb s3 →
        let k := sC.core n
        let key := fun (r q : Nat) => a.acc * (accDim n * accDim n) + (d.u 24 2 + r) * accDim n + (d.u 26 2 + q)
        ∃ t : State, exec x s = .next (t.doneFlight n .mx f) ∧ t.mem = s3.mem ∧ (∀ m, m ≠ n → t.core m = s3.core m) ∧ (t.core n).v = (s3.core n).v ∧
          (∀ j, (∀ r < d.tm, ∀ q < d.tn, j ≠ key r q) → (t.core n).accGet j = (s3.core n).accGet j) ∧
          (d.isFp a form = true → ∀ r < d.tm, ∀ q < d.tn, (t.core n).accGet (key r q) = BitVec.ofNat 64
            (groupSums h.mode (formG form) ((d.kc + formG form - 1) / formG form) ((List.range d.kc).map fun j =>
              (mxVal ta.ty a.ctr (ta.at r j).1 (ta.at r j).2).1.mul (mxVal tb.ty a.ctr (tb.at j q).1 (tb.at j q).2).1) (k.accFp (key r q)))) ∧
          (d.isFp a form = false → ∀ r < d.tm, ∀ q < d.tn,
            let term := fun (j : Nat) => (mxInt ta.ty a.ctr (ta.at r j).1 (ta.at r j).2).1 * (mxInt tb.ty a.ctr (tb.at j q).1 (tb.at j q).2).1
            let sum := fun (m : Nat) => k.accI (key r q) + ((List.range m).map term).sum
            (∀ m ≤ d.kc, -(2 ^ 47 : Int) ≤ sum m ∧ sum m < 2 ^ 47) → (t.core n).accGet (key r q) = BitVec.ofInt 64 (sum d.kc)))) ∧
    (∀ (h : Hdr) (a : MxArgs),
      let acc := a.acc
      let k := s.core n
      let sz := accDim n * accDim n
      let key := fun (r q : Nat) => accKey n acc (a.row0 + r) (a.col0 + q)
      let t := tyOf (layTy a.lay)
      let base := c.addr a.addr
      let shape := if layTr a.lay then (a.nc, a.nr) else (a.nr, a.nc)
      let place := fun (ρ q : Nat) => if layTr a.lay then key q ρ else key ρ q
      (a.z = false → k.accMode acc ≠ t.isInt → ∃ u : State, exec (.accLd h a) s = .next u ∧ s.FailsWith u n .mx f 1) ∧
      (∀ rows s1, Ok ((List.range shape.1).mapM fun ρ => c.unswizzled (base + ρ * layPitch a.lay) (16 * (ρ % 2 ^ laySpan a.lay)) 0 (t.bytes shape.2)) s rows s1 → (a.z = true ∨ k.accMode acc = t.isInt) →
        ∃ u : State, exec (.accLd h a) s = .next (u.doneFlight n .mx f) ∧ u.mem = s1.mem ∧ (a.z = true → (u.core n).accMode acc = t.isInt) ∧
          (a.row0 + a.nr ≤ accDim n → a.col0 + a.nc ≤ accDim n → ∀ ρ < shape.1, ∀ q < shape.2, let code := t.inRow (rows.getD ρ []) q
            (u.core n).accGet (place ρ q) = if t.isInt then BitVec.ofInt 64 (t.intVal code) else BitVec.ofNat 64 (if t = .bf16 then code * 65536 else code))) ∧
      ((k.accMode acc = true ∧ t.isInt = false ∧ (t ≠ .fp32 ∨ h.ovm ≠ .ieee)) ∨ (k.accMode acc = false ∧ t.isInt = true) → ∃ u : State, exec (.accSt h a) s = .next u ∧ s.FailsWith u n .mx f 1) ∧
      (∀ off, t = .fp32 → k.accMode acc = false → h.ovm ≠ .gaz → f.prog.off = 0 → a.nr = 1 → layTr a.lay = false → c.bare → s.left = none → base = spBase n + off → s.CalmPad n off (4 * a.nc) →
        (∀ q < a.nc, (FFmt.fp32.round h.ovm h.mode (FFmt.fp32.value (k.accFp (key 0 q)))).code = k.accFp (key 0 q)) →
        ∃ u : State, exec (.accSt h a) s = .next (u.doneFlight n .mx f) ∧ u.mem = Memory.writeList s.mem (spBase n + off) ((List.range a.nc).flatMap fun q => leBytes 4 (k.accFp (key 0 q)))) ∧
      (k.accMode acc = true → ∃ u : State, exec (.accScale h a) s = .next u ∧ s.FailsWith u n .mx f 1) ∧
      (∀ sc s1, k.accMode acc = false → Ok (c.readLocal base (4 * accDim n)) s sc s1 →
        ∃ u : State, exec (.accScale h a) s = .next (u.doneFlight n .mx f) ∧ u.mem = s1.mem ∧ (∀ j, (j < acc * sz ∨ (acc + 1) * sz ≤ j) → (u.core n).accGet j = (s1.core n).accGet j) ∧
          ∀ r < accDim n, ∀ q < accDim n,
            let y := FFmt.fp32.value (leNat ((sc.drop (4 * ((if a.b11 then r else q) / 2 ^ a.gsh))).take 4))
            let x := FFmt.fp32.value (k.accFp (accKey n acc r q))
            let v := if a.asrc = acc then x.mul y else x.add ((k.accVal a.asrc (accKey n a.asrc r q)).1.mul y)
            (u.core n).accGet (accKey n acc r q) = BitVec.ofNat 64 (FFmt.fp32.round h.ovm h.mode v).code))

/-- ACC.ZERO (R234): every element of the accumulator is 0, the mode FP with MODE 0 and INT with MODE 1, and nothing else of the core changes; its opcode is 0x10, its Q1 to Q3, RND and OVF are zero in every legal command, and a command with those zero is legal. -/
def Obligations.AccumulatorZero : Prop :=
  (∀ (s : State) (n i : Nat) (f : Flight) (h : Hdr) (a : MxArgs), Working s n .mx i f →
    let k := s.core n
    let sz := accDim n * accDim n
    ∃ u : State, exec (.accZero h a) s = .next (u.doneFlight n .mx f) ∧ s.OnlyCore u n { k with acc := (u.core n).acc, accInt := (u.core n).accInt } ∧
      (∀ j, (u.core n).accGet j = if a.acc * sz ≤ j ∧ j < (a.acc + 1) * sz then 0 else k.accGet j) ∧
      ∀ m, (u.core n).accMode m = if m = a.acc then a.md.getLsbD 11 else k.accMode m) ∧
  ∀ (h : Hdr) (a : MxArgs),
    (∃ q0 q1 q2 q3, encode (.accZero h a) = some (.cmd q0 q1 q2 q3) ∧ q0.toNat / 2 ^ 56 = 0x10 ∧ q0.toNat / 2 ^ 52 % 16 = 2 ∧ q1 = a.q1 ∧ q2 = a.q2 ∧ q3 = a.q3) ∧
    ((Instr.accZero h a).wf = true → a.q1 = 0 ∧ a.q2 = 0 ∧ a.q3 = 0 ∧ h.rnd = 0 ∧ h.ovf = 0) ∧
    (a.q1 = 0 → a.q2 = 0 → a.q3 = 0 → h.rnd = 0 → h.ovf = 0 → h.spec = false → (h.wen = false → h.wsem = 0) → (h.ren = false → h.rsem = 0) → (∀ i, i < 15 → i ≠ 0 → i ≠ 1 → i ≠ 11 → a.md.getLsbD i = false) → (Instr.accZero h a).wf = true)

/-! ### Vectors -/

namespace Sys2Proof.Machine

/-- What a vector command makes of a core's registers (R167 to R212): the operands, the type of the result's elements, the registers it writes, whether the mask gates its lanes, the number of an element for the Gazetteer, and for the `d`th register, lane `i` and
position `p` the element's code, the flags it sets and the value of its Gazetteer entry. -/
structure VRule where
  h : Hdr
  a : VxArgs
  t : ETy
  dests : List Nat
  masked : Bool := true
  idx : Nat → Nat → Nat → Nat
  f : Nat → Nat → Nat → ERes

/-- An exact integer in a type of width w: its low bits; through RoundTo; or exact, where it is in range. -/
def lowBits (t : ETy) (x : Int) : Nat := (x % (2 ^ t.width : Nat)).toNat

/-- A result through RoundTo under the command's RND and OVF (R94): code, flags, and what the Gazetteer gets. -/
def rounded (t : ETy) (h : Hdr) (x : XVal) (fl : Flags) : ERes :=
  let r := t.round h.ovm h.mode x
  (r.code, fl.or r.flags, if r.gazed then some (FFmt.fp32.round .ieee h.mode x).code else none)

/-- An exact integer result; one out of range, which the spec does not state, is a free value. -/
def exactly (t : ETy) (x : Int) (fl : Flags) : ERes := (if t.intRange.1 ≤ x ∧ x ≤ t.intRange.2 then lowBits t x else Config.unstatedElem t.code x, fl, none)

/-- The greatest (`up`) or least of a list of candidates with its index, the first of equal ones; NaNs are passed over. -/
def bestOf (up : Bool) : List (Nat × XVal) → Option (Nat × XVal)
  | [] => none
  | (e, v) :: r =>
    if v.isNaN then bestOf up r
    else match bestOf up r with
      | none => some (e, v)
      | some b => if (if up then XVal.cmp v b.2 else XVal.cmp b.2 v) < 0 then some b else some (e, v)

/-- The rule of a vector command that writes vector registers, but for loads, compares and QZ.L8. -/
def vRule (k : Core) (x : Instr) : Option VRule :=
  let el := fun (h : Hdr) (a : VxArgs) (t : ETy) (f : Nat → Nat → ERes) =>
    some ({ h := h, a := a, t := t, dests := [a.vd.toNat], idx := fun _ i p => i * t.perLane + p, f := fun _ i p => f i p } : VRule)
  -- integers of one, two or three operands
  let int1 := fun (h : Hdr) (a : VxArgs) (g : Int → Flags → ERes) => el h a a.t fun i p => let x := k.int a.t a.va i p; g x.1 x.2
  let int2 := fun (h : Hdr) (a : VxArgs) (g : Int → Int → Flags → ERes) => el h a a.t fun i p =>
    let x := k.int a.t a.va i p
    let y := k.int a.t a.vb i p
    g x.1 y.1 (x.2.or y.2)
  -- bits of elements
  let bit2 := fun (h : Hdr) (a : VxArgs) (g : Nat → Nat → Nat) => el h a a.t fun i p => (g (k.code a.t a.va i p) (k.code a.t a.vb i p), {}, none)
  let shift := fun (h : Hdr) (a : VxArgs) (g : Nat → Nat → Nat) => el h a a.t fun i p =>
    (g (k.code a.t a.va i p) (if a.xm.getLsbD 0 then a.imm.toNat % 32 else k.code a.t a.vb i p % a.t.width), {}, none)
  -- floating point
  let fp1 := fun (h : Hdr) (a : VxArgs) (g : XVal → XVal) => el h a a.t fun i p => let x := k.fval a.t a.va i p; rounded a.t h (g x.1) x.2
  let fp2 := fun (h : Hdr) (a : VxArgs) (g : XVal → XVal → XVal) => el h a a.t fun i p =>
    let x := k.fval a.t a.va i p
    let y := k.fval a.t a.vb i p
    rounded a.t h (g x.1 y.1) (x.2.or y.2)
  let least := fun (h : Hdr) (a : VxArgs) (up : Bool) => el h a a.t fun i p =>
    let t := a.t.fmt
    let x := k.fcode a.t a.va i p
    let y := k.fcode a.t a.vb i p
    let less := XVal.cmp (t.value x) (t.value y) < 0 ∨ (XVal.cmp (t.value x) (t.value y) = 0 ∧ bit x (t.eb + t.mb) = true)
    (if t.isNaN x ∧ t.isNaN y then t.canonNaN else if t.isNaN x then y else if t.isNaN y then x else if less then (if up then y else x) else if up then x else y,
      { nv := (t.isNaN x && t.isNaN y) || t.isSNaN x || t.isSNaN y }, none)
  -- elements from anywhere in the operands: the operand and its flat element, or 0
  let cross := fun (h : Hdr) (a : VxArgs) (two : Bool) (pick : Nat → Nat → Option (VOp × Nat)) =>
    let n := a.t.perLane
    some ({ h := h, a := a, t := a.t, dests := if two then [a.vd.toNat, a.vd.toNat + 1] else [a.vd.toNat], idx := fun d i p => (128 * d + i) * n + p, f := fun d i p => match pick d (i * n + p) with
      | some (o, e) => k.moved h a.t o (e / n) (e % n)
      | none => (0, {}, none) } : VRule)
  -- reductions: the words of the first lanes
  let on := (List.range 128).filter fun i => match x with
    | .vxRsum _ a | .vxRand _ a | .vxRor _ a | .vxRmax _ a | .vxRmin _ a | .vxRargmax _ a | .vxRargmin _ a | .vxFrsum _ a => k.on a i
    | _ => false
  let elems := fun (a : VxArgs) => on.flatMap fun i => (List.range a.t.perLane).map fun p => (i, p)
  let red := fun (h : Hdr) (a : VxArgs) (l : List (Nat × Flags)) =>
    some ({ h := h, a := a, t := .i32, dests := [a.vd.toNat], masked := false, idx := fun _ i _ => i, f := fun _ i _ => let w := l.getD i (0, {}); (w.1, w.2, none) } : VRule)
  let best := fun (h : Hdr) (a : VxArgs) (up arg : Bool) =>
    let c := (elems a).map fun e => (e.1 * a.t.perLane + e.2, if a.t.isFloat then (k.fval a.t a.va e.1 e.2).1 else .ofInt (k.int a.t a.va e.1 e.2).1)
    let bad := (elems a).any fun e => if a.t.isFloat then (k.fval a.t a.va e.1 e.2).1.isNaN else a.t.reserved (k.code a.t a.va e.1 e.2)
    let none1 := if a.t.isFloat then a.t.fmt.canonNaN else lowBits a.t (if up then a.t.intRange.1 else a.t.intRange.2)
    let r : Nat × ERes := match bestOf up c with
      | some b => (b.1, k.moved h a.t a.va (b.1 / a.t.perLane) (b.1 % a.t.perLane))
      | none => (0xFFFFFFFF, (none1, {}, none))
    let v := (r.2.1, (Flags.or { nv := bad } r.2.2.1))
    red h a (if arg then [(r.1, {}), v] else [v])
  match x with
  | .vxMov h a => el h a a.t fun i p => k.moved h a.t a.va i p
  | .vxMovi h a => some { h := h, a := a, t := .i32, dests := [a.vd.toNat], idx := fun _ i _ => i, f := fun _ _ _ => (a.imm.toNat, {}, none) }
  | .vxIota h a => el h a a.t fun i p => (lowBits a.t (a.imm.toInt + (i * a.t.perLane + p : Nat)), {}, none)
  | .vxAdd h a => int2 h a fun x y fl => (lowBits a.t (x + y), fl, none)
  | .vxSub h a => int2 h a fun x y fl => (lowBits a.t (x - y), fl, none)
  | .vxAdds h a => int2 h a fun x y fl => rounded a.t h (.ofInt (x + y)) fl
  | .vxSubs h a => int2 h a fun x y fl => rounded a.t h (.ofInt (x - y)) fl
  | .vxMul h a =>
    if a.xm.getLsbD 0 then
      let w := (match a.t with
        | .i4 | .si4 => .i8
        | .u4 => .u8
        | .i8 | .si8 => .i16
        | _ => .i32 : ETy)
      some { h := h, a := a, t := w, dests := [a.vd.toNat, a.vd.toNat + 1], idx := fun _ i p => i * w.perLane + p, f := fun d i p =>
        let x := k.int a.t a.va i (2 * p + d)
        let y := k.int a.t a.vb i (2 * p + d)
        (lowBits w (x.1 * y.1), x.2.or y.2, none) }
    else int2 h a fun x y fl => (lowBits a.t (x * y), fl, none)
  | .vxMulh h a => int2 h a fun x y fl => exactly a.t (x * y / (2 ^ a.t.width : Nat)) fl
  | .vxMin h a => int2 h a fun x y fl => exactly a.t (min x y) fl
  | .vxMax h a => int2 h a fun x y fl => exactly a.t (max x y) fl
  | .vxAbs h a => int1 h a fun x fl => rounded a.t h (.ofInt (if x < 0 then -x else x)) fl
  | .vxMadd h a => el h a a.t fun i p =>
    let x := k.int a.t a.va i p
    let y := k.int a.t a.vb i p
    let z := k.int a.t a.vc i p
    rounded a.t h (.ofInt (x.1 * y.1 + z.1)) ((x.2.or y.2).or z.2)
  | .vxDot h a | .vxDots h a =>
    let sum := fun (i : Nat) => (k.int .i32 a.vc i 0).1 + ((List.range a.t.perLane).map fun p => (k.int a.t a.va i p).1 * (k.int a.t2 a.vb i p).1).sum
    let fl := fun (i : Nat) => ({ nv := (List.range a.t.perLane).any fun p => (k.int a.t a.va i p).2.nv || (k.int a.t2 a.vb i p).2.nv } : Flags)
    match x with
    | .vxDot _ _ => el h a .i32 fun i _ => (lowBits .i32 (sum i), fl i, none)
    | _ => el h a .i32 fun i _ => rounded .i32 h (.ofInt (sum i)) (fl i)
  | .vxAnd h a => bit2 h a fun x y => x &&& y
  | .vxOr h a => bit2 h a fun x y => x ||| y
  | .vxXor h a => bit2 h a fun x y => x ^^^ y
  | .vxAndn h a => bit2 h a fun x y => x &&& (2 ^ a.t.width - 1 - y)
  | .vxSll h a => shift h a fun x m => x * 2 ^ m % 2 ^ a.t.width
  | .vxSrl h a => shift h a fun x m => x / 2 ^ m
  | .vxSra h a => shift h a fun x m => lowBits a.t ((if x < 2 ^ (a.t.width - 1) then (x : Int) else x - (2 ^ a.t.width : Nat)) / (2 ^ m : Nat))
  | .vxRol h a => shift h a fun x m => x * 2 ^ m % 2 ^ a.t.width + x / 2 ^ (a.t.width - m)
  | .vxPopc h a => el h a a.t fun i p => let w := lowBits a.t (k.int a.t a.va i p).1; (((List.range a.t.width).map fun b => w / 2 ^ b % 2).sum, {}, none)
  | .vxClz h a => el h a a.t fun i p => let w := lowBits a.t (k.int a.t a.va i p).1; (((List.range a.t.width).takeWhile fun b => w / 2 ^ (a.t.width - 1 - b) == 0).length, {}, none)
  | .vxSel h a => el h a a.t fun i p => k.moved h a.t (if k.fcode a.t a.vc i p = 0 then a.vb else a.va) i p
  | .vxCsel h a => el h a a.t fun i p => k.moved h a.t (if (k.mask a.ka.toNat).getLsbD i then a.va else a.vb) i p
  | .vxKpop h a => some { h := h, a := a, t := .i32, dests := [a.vd.toNat], masked := false, idx := fun _ i _ => i, f := fun _ _ _ => (((List.range 128).filter fun i => (k.mask a.ka.toNat).getLsbD i).length, {}, none) }
  | .vxPerm h a => cross h a false fun _ e => let j := k.code a.t a.vb (e / a.t.perLane) (e % a.t.perLane); if j < 128 * a.t.perLane then some (a.va, j) else none
  | .vxBcast h a => cross h a false fun _ _ => some (a.va, a.imm.toNat % 1024)
  | .vxSlideup h a => cross h a false fun _ e => if a.imm.toNat % 2048 ≤ e then some (a.va, e - a.imm.toNat % 2048) else none
  | .vxSlidedn h a => cross h a false fun _ e => if e + a.imm.toNat % 2048 < 128 * a.t.perLane then some (a.va, e + a.imm.toNat % 2048) else none
  | .vxZip h a => cross h a true fun d e => let r := d * (128 * a.t.perLane) + e; some (if r % 2 = 0 then a.va else a.vb, r / 2)
  | .vxUnzip h a => cross h a true fun d e => let r := 2 * e + d; some (if r < 128 * a.t.perLane then a.va else a.vb, r % (128 * a.t.perLane))
  | .vxProj h a => some { h := h, a := a, t := .i32, dests := [a.vd.toNat, a.vd.toNat + 1], idx := fun _ i _ => i, f := fun d i _ =>
      let s := k.lane (a.va.reg.toNat + 1) i * 2 ^ 32 + k.lane a.va.reg.toNat i
      (((List.range 32).map fun j => let e := k.pjEntry (a.xm.toNat % 8) (32 * d + j); 2 ^ j * (if e / 64 % 2 = 1 then e % 2 else s / 2 ^ (e % 64) % 2)).sum, {}, none) }
  | .vxRsum h a =>
    let s := ((elems a).map fun e => (k.int a.t a.va e.1 e.2).1).sum
    let v := max (-(2 ^ 31 : Int)) (min (2 ^ 31 - 1) s)
    red h a [(lowBits .i32 v, { of := v != s, nv := (elems a).any fun e => (k.int a.t a.va e.1 e.2).2.nv })]
  | .vxRand h a => red h a [((on.map fun i => k.lane a.va.reg.toNat i).foldl (· &&& ·) 0xFFFFFFFF, {})]
  | .vxRor h a => red h a [((on.map fun i => k.lane a.va.reg.toNat i).foldl (· ||| ·) 0, {})]
  | .vxRmax h a => best h a true false
  | .vxRmin h a => best h a false false
  | .vxRargmax h a => best h a true true
  | .vxRargmin h a => best h a false true
  | .vxFadd h a => fp2 h a fun x y => x.add y
  | .vxFsub h a => fp2 h a fun x y => x.add y.neg
  | .vxFmul h a => fp2 h a fun x y => x.mul y
  | .vxFfma h a => el h a a.t fun i p =>
    let x := k.fval a.t a.va i p
    let y := k.fval a.t a.vb i p
    let z := k.fval a.t a.vc i p
    rounded a.t h ((x.1.mul y.1).add z.1) ((x.2.or y.2).or z.2)
  | .vxFdiv h a => fp2 h a fun x y => x.div y
  | .vxFsqrt h a => fp1 h a fun x => x.sqrt
  | .vxFrsq h a => fp1 h a fun x => x.rsqrt
  | .vxFmin h a => least h a false
  | .vxFmax h a => least h a true
  | .vxFabs h a => el h a a.t fun i p => (k.fcode a.t a.va i p % 2 ^ (a.t.width - 1), {}, none)
  | .vxFrsum h a => red h a [frsum h.mode ((elems a).map fun e => k.fval a.t a.va e.1 e.2)]
  | .vxCvt h a =>
    let st := tyOf (a.imm.toNat % 256)
    let dt := a.t
    let conv := fun (o : VOp) (i p : Nat) => let v := k.val st o i p; rounded dt h v.1 v.2
    if dt.perLane < st.perLane then
      let m := st.perLane / dt.perLane
      some { h := h, a := a, t := dt, dests := (List.range m).map (a.vd.toNat + ·), idx := fun d i p => i * st.perLane + p * m + d, f := fun d i p => conv a.va i (p * m + d) }
    else
      let m := dt.perLane / st.perLane
      el h a dt fun i p => conv { a.va with reg := a.va.reg + BitVec.ofNat 6 (p % m) } i (p / m)
  | .vxDqL8 h a => el h a .fp32 fun e _ => (if e < a.imm.toNat % 256 then quarterFp32 ((l8Quarters (k.l8Code a.va.reg.toNat (16 * (a.xm.toNat % 16) + e / 8))).getD (e % 8) 0) else 0, {}, none)
  | .vxBps h a => el h a .i8 fun i p =>
    let y := 4 * i + p
    (((List.range 8).map fun t => 2 ^ t * (k.byteOf a.va.reg.toNat (256 * (y / 256) + 8 * (y % 32) + t) / 2 ^ (7 - y % 256 / 32) % 2)).sum, {}, none)
  | .vxBpm h a => el h a .i8 fun i p =>
    let n := a.xm.toNat % 8 + 1
    let y := 4 * i + p
    (lowBits .i8 (bpnValue n (a.xm.getLsbD 3) (bpnBits n (fun o => k.byteOf a.va.reg.toNat (256 * (y / 256) + o)) (y % 256))), {}, none)
  | .vxScacc h a => el h a .fp32 fun e _ =>
    let x := k.val a.t a.va e 0
    let y := k.fval .fp32 a.vb (e / 2 ^ (a.xm.toNat % 8)) 0
    let z := ETy.fp32.value (k.lane a.vd.toNat e)
    rounded .fp32 h (z.1.add (x.1.mul y.1)) ((x.2.or y.2).or z.2)
  | _ => none

/-- Does the rule write lane `i`? -/
def VRule.writes (r : VRule) (k : Core) (i : Nat) : Bool := !r.masked || k.on r.a i

/-- The places of the elements a rule writes: register, lane, position, in ascending order. -/
def VRule.places (r : VRule) (k : Core) : List (Nat × Nat × Nat) :=
  (List.range r.dests.length).flatMap fun d => ((List.range 128).filter (r.writes k)).flatMap fun i => (List.range r.t.perLane).map fun p => (d, i, p)

/-- `numst` with the flags of a command (R73). -/
def Core.withFlags (k : Core) (fl : Flags) : Core := { k with hart := k.hart.setCsrRaw 0x800 (k.hart.csrRaw 0x800 ||| BitVec.ofNat 64 fl.toNat) }

end Sys2Proof.Machine

/-- The vector commands that write vector registers (R166 to R212), but loads, compares and QZ.L8, with no lane of the core poisoned: every enabled lane of a destination takes the elements of the rule, a disabled one is 0 where MZ asks it and else unchanged, as is every other register; entries that OVF = GAZ asks for are
appended, by ascending index, before a lane is written; the flags of all elements are ORed into `numst`, and the command is done.
An element the spec calls exact that is out of its type, and the word of a lane that SPEC poisons, are free (log 18, log 19); a negated move, the extremes' bits and a count of a negated value are the model's readings (log 45, log 46, log 81). -/
def Obligations.VectorResults : Prop :=
  ∀ (s s1 : State) (n i : Nat) (f : Flight) (x : Instr) (r : VRule), Working s n .vx i f → x.wf = true → vRule (s.core n) x = some r → (s.core n).vpois = [] →
    let k := s.core n
    let entries := (r.places k).filterMap fun q => (r.f q.1 q.2.1 q.2.2).2.2.map fun v => (r.idx q.1 q.2.1 q.2.2, v)
    Ok (if r.h.ovm = .gaz then (s.cx n .vx f).gazAll r.a.gz.toNat entries else pure ()) s () s1 →
    ∃ t : State, exec x s = .next (t.doneFlight n .vx f) ∧ s1.OnlyCore t n ((({ s1.core n with v := (t.core n).v, vpois := (t.core n).vpois } : Core)).withFlags
        ((r.places k).foldl (fun fl q => fl.or (r.f q.1 q.2.1 q.2.2).2.1) {})) ∧
      (∀ d < r.dests.length, ∀ l < 128, let reg := r.dests.getD d 0
        (r.writes k l = true → (t.core n).lane reg l = r.t.pack ((List.range r.t.perLane).map fun p => (r.f d l p).1) ∧ (t.core n).poisoned reg l = false) ∧
        (r.writes k l = false → (t.core n).lane reg l = if r.a.mz = true ∧ r.a.msk ≠ 0#4 then 0 else (s1.core n).lane reg l)) ∧
      ∀ reg, reg ∉ r.dests → ∀ l < 128, (t.core n).lane reg l = (s1.core n).lane reg l ∧ (t.core n).poisoned reg l = (s1.core n).poisoned reg l


namespace Sys2Proof.Machine

/-- The compares (R184, R199): whether one holds of two elements, and the flags it sets. -/
def cmpRule (k : Core) (x : Instr) : Option (Hdr × VxArgs × (Nat → Nat → Bool × Flags)) :=
  let int := fun (h : Hdr) (a : VxArgs) (g : Int → Int → Bool) => some (h, a, fun (i p : Nat) =>
    let x := k.int a.t a.va i p
    let y := k.int a.t a.vb i p
    (g x.1 y.1, x.2.or y.2))
  let bitw := fun (h : Hdr) (a : VxArgs) (g : Nat → Nat → Bool) => some (h, a, fun (i p : Nat) =>
    (g (lowBits a.t (k.int a.t a.va i p).1) (lowBits a.t (k.int a.t a.vb i p).1), ({} : Flags)))
  let fp := fun (h : Hdr) (a : VxArgs) (quiet : Bool) (g : XVal → XVal → Bool → Bool) => some (h, a, fun (i p : Nat) =>
    let x := k.fval a.t a.va i p
    let y := k.fval a.t a.vb i p
    let un := x.1.isNaN || y.1.isNaN
    (g x.1 y.1 un, if quiet then x.2.or y.2 else { nv := un }))
  match x with
  | .vxCmpEq h a => int h a fun x y => decide (x = y)
  | .vxCmpNe h a => int h a fun x y => decide (x ≠ y)
  | .vxCmpLt h a => int h a fun x y => decide (x < y)
  | .vxCmpLe h a => int h a fun x y => decide (x ≤ y)
  | .vxCmpLtu h a => bitw h a fun x y => decide (x < y)
  | .vxCmpLeu h a => bitw h a fun x y => decide (x ≤ y)
  | .vxFcmpEq h a => fp h a true fun x y un => !un && decide (XVal.cmp x y = 0)
  | .vxFcmpLt h a => fp h a false fun x y un => !un && decide (XVal.cmp x y < 0)
  | .vxFcmpLe h a => fp h a false fun x y un => !un && decide (XVal.cmp x y ≤ 0)
  | .vxFcmpUn h a => fp h a true fun _ _ un => un
  | _ => none

/-- The mask commands (R186): the operands and what KD takes. -/
def maskRule (k : Core) (x : Instr) : Option (VxArgs × (Nat → Bool)) :=
  let m := fun (r : BitVec 4) (i : Nat) => r = 0#4 || (Table.get 0 k.k r.toNat).getLsbD i
  match x with
  | .vxKand _ a => some (a, fun i => m a.ka i && m a.kb i)
  | .vxKor _ a => some (a, fun i => m a.ka i || m a.kb i)
  | .vxKxor _ a => some (a, fun i => m a.ka i != m a.kb i)
  | .vxKnot _ a => some (a, fun i => !m a.ka i)
  | .vxKmov _ a => some (a, fun i => if a.xm.getLsbD 0 then decide (i < a.imm.toNat % 256) else m a.ka i)
  | _ => none

/-- Vector commands that consume poison (R193) with an operand va whose lanes they read one by one. -/
def consumesVa : Instr → Option (Hdr × VxArgs)
  | .vxAdd h a | .vxSub h a | .vxAdds h a | .vxSubs h a | .vxMul h a | .vxMulh h a | .vxMin h a | .vxMax h a | .vxAbs h a | .vxMadd h a | .vxDot h a | .vxDots h a => some (h, a)
  | .vxAnd h a | .vxOr h a | .vxXor h a | .vxAndn h a | .vxSll h a | .vxSrl h a | .vxSra h a | .vxRol h a | .vxPopc h a | .vxClz h a => some (h, a)
  | .vxFadd h a | .vxFsub h a | .vxFmul h a | .vxFfma h a | .vxFdiv h a | .vxFsqrt h a | .vxFrsq h a | .vxFmin h a | .vxFmax h a | .vxFabs h a | .vxScacc h a => some (h, a)
  | _ => none

/-- How poison passes through a command of one destination (R193): is it a carrier, its source registers in operand order, and the source lanes that contribute to a lane. -/
structure PoisonRule where
  h : Hdr
  a : VxArgs
  carrier : Bool
  order : List Nat
  src : Nat → List (Nat × Nat)

def poisonRule (k : Core) (x : Instr) : Option PoisonRule :=
  let own := fun (h : Hdr) (a : VxArgs) (carrier : Bool) (ops : List (BitVec 6)) =>
    some ({ h := h, a := a, carrier := carrier, order := ops.map (·.toNat), src := fun i => ops.map fun r => (r.toNat, i) } : PoisonRule)
  -- carriers that take element `pick e` of va for their element `e`
  let pick := fun (h : Hdr) (a : VxArgs) (pick : Nat → Option Nat) =>
    let n := a.t.perLane
    some ({ h := h, a := a, carrier := true, order := [a.va.reg.toNat], src := fun i => (List.range n).filterMap fun p => (pick (i * n + p)).map fun e => (a.va.reg.toNat, e / n) } : PoisonRule)
  match x with
  | .vxMov h a => own h a true [a.va.reg]
  | .vxCsel h a => some { h := h, a := a, carrier := true, order := [a.va.reg.toNat, a.vb.reg.toNat], src := fun i => [(if (k.mask a.ka.toNat).getLsbD i then a.va.reg.toNat else a.vb.reg.toNat, i)] }
  | .vxBcast h a => pick h a fun _ => some (a.imm.toNat % 1024)
  | .vxSlideup h a => pick h a fun e => if a.imm.toNat % 2048 ≤ e then some (e - a.imm.toNat % 2048) else none
  | .vxSlidedn h a => pick h a fun e => if e + a.imm.toNat % 2048 < 128 * a.t.perLane then some (e + a.imm.toNat % 2048) else none
  | .vxMul h a => if a.xm.getLsbD 0 then none else own h a false [a.va.reg, a.vb.reg]
  | .vxAdd h a | .vxSub h a | .vxAdds h a | .vxSubs h a | .vxMulh h a | .vxMin h a | .vxMax h a => own h a false [a.va.reg, a.vb.reg]
  | .vxAnd h a | .vxOr h a | .vxXor h a | .vxAndn h a => own h a false [a.va.reg, a.vb.reg]
  | .vxSll h a | .vxSrl h a | .vxSra h a | .vxRol h a => own h a false (if a.xm.getLsbD 0 then [a.va.reg] else [a.va.reg, a.vb.reg])
  | .vxAbs h a | .vxPopc h a | .vxClz h a | .vxFsqrt h a | .vxFrsq h a | .vxFabs h a => own h a false [a.va.reg]
  | .vxFadd h a | .vxFsub h a | .vxFmul h a | .vxFdiv h a | .vxFmin h a | .vxFmax h a => own h a false [a.va.reg, a.vb.reg]
  | .vxMadd h a | .vxDot h a | .vxDots h a | .vxFfma h a => own h a false [a.va.reg, a.vb.reg, a.vc.reg]
  | _ => none

end Sys2Proof.Machine

/-- The other vector commands. A compare (R184, R199) sets KD's bit of an enabled lane where it holds of any element, or of all, and writes all-ones or 0 to vd where it has one. The mask commands (R186) write KD. VLD, VST, VLDK, VSTK and PJ.LD (R175, R176, R211) move lines of the core's scratchpad: a load of a line gives
its enabled lanes the words of that line, a bad pattern ends PJ.LD with cause 1. QZ.L8 (R205) with every lane enabled, CNT 128 and no shell overflow writes the code of each group of 8 lanes and keeps the other codes. An enabled poisoned lane that a command without SPEC consumes ends it with cause 10 and nothing written (R194).
A carrier, and a consumer with SPEC, completes and poisons just the enabled lanes of its destination that a poisoned lane contributes to, with the origin of the first poisoned source (R192, R193). A VLD with SPEC writes 0 and poison of its own origin to the lanes of a line that faults;
a VST with SPEC sets the poison bit of each line that holds a poisoned lane (R192). -/
def Obligations.VectorMasksAndMoves : Prop :=
  ∀ (s : State) (n i : Nat) (f : Flight), Working s n .vx i f →
    let c := s.cx n .vx f
    let k := s.core n
    (∀ x h a holds, cmpRule k x = some (h, a, holds) → k.vpois = [] → h.ovm ≠ .gaz → a.kd ≠ 0#4 ∨ a.xm.getLsbD 0 = true →
      ∃ t : State, exec x s = .next (t.doneFlight n .vx f) ∧
        s.OnlyCore t n (({ k with v := (t.core n).v, k := (t.core n).k } : Core).withFlags
          ((((List.range 128).filter (k.on a)).flatMap fun l => (List.range a.t.perLane).map fun p => (holds l p).2).foldl Flags.or {})) ∧
        (a.kd ≠ 0#4 → ∀ l < 128, ((t.core n).mask a.kd.toNat).getLsbD l = (k.on a l && (let w := (List.range a.t.perLane).map fun p => (holds l p).1; if a.xm.getLsbD 1 then w.all id else w.any id))) ∧
        (∀ j < 16, j ≠ a.kd.toNat → (t.core n).mask j = k.mask j) ∧
        ∀ reg < 64, ∀ l < 128, (t.core n).lane reg l = if a.xm.getLsbD 0 = true ∧ reg = a.vd.toNat then
          (if k.on a l then a.t.pack ((List.range a.t.perLane).map fun p => if (holds l p).1 then 2 ^ a.t.width - 1 else 0) else if a.mz = true ∧ a.msk ≠ 0#4 then 0 else k.lane reg l) else k.lane reg l) ∧
    (∀ x a bitOf, maskRule k x = some (a, bitOf) → a.kd ≠ 0#4 → ∃ t : State, exec x s = .next (t.doneFlight n .vx f) ∧ s.OnlyCore t n { k with k := (t.core n).k } ∧
      (∀ l < 128, ((t.core n).mask a.kd.toNat).getLsbD l = bitOf l) ∧ ∀ j < 16, j ≠ a.kd.toNat → (t.core n).mask j = k.mask j) ∧
    (∀ (h : Hdr) (a : VxArgs),
      let base := c.addr a.imm
      (∀ lines s1, a.x10 = 0 → a.msk = 0#4 → Ok (inBurst ((List.range 8).mapM fun q => c.readLocal (base + 64 * q) 64)) s lines s1 → ∃ t : State, exec (.vxVld h a) s = .next (t.doneFlight n .vx f) ∧
        s1.OnlyCore t n { s1.core n with v := (t.core n).v, vpois := (t.core n).vpois } ∧
        ∀ reg < 64, ∀ l < 128, (t.core n).lane reg l = if reg = a.vd.toNat then leNat (((lines.getD (l / 16) []).drop (4 * (l % 16))).take 4) else (s1.core n).lane reg l) ∧
      (∀ off, c.bare → f.prog.off = 0 → k.vpois = [] → base = spBase n + off → off % 64 = 0 → a.x10 = 0 → a.msk = 0#4 → (∀ q < 8, s.CalmPad n (off + 64 * q) 64) → ∃ t : State, exec (.vxVst h a) s = .next (t.doneFlight n .vx f) ∧
        t.mem = Memory.writeList s.mem (spBase n + off) ((List.range 128).flatMap fun l => leBytes 4 (k.lane a.va.reg.toNat l)) ∧ s.SameBut t) ∧
      (∀ lines s1, h.spec = true → a.x10 = 0 → a.msk = 0#4 → Ok (inBurst ((List.range 8).mapM fun q => c.vldLine true (base + 64 * q))) s lines s1 → ∃ t : State, exec (.vxVld h a) s = .next (t.doneFlight n .vx f) ∧
        ∀ l < 128, match lines.getD (l / 16) none with
          | some b => (t.core n).lane a.vd.toNat l = leNat ((b.drop (4 * (l % 16))).take 4) ∧ (t.core n).poisoned a.vd.toNat l = false
          | none => (t.core n).lane a.vd.toNat l = 0 ∧ (t.core n).poisoned a.vd.toNat l = true ∧ Table.get (0, 0) (t.core n).vorg a.vd.toNat = (f.slot.toNat, f.org.pc.toNat)) ∧
      (∀ off, h.spec = true → c.bare → f.prog.off = 0 → base = spBase n + off → off % 64 = 0 → a.x10 = 0 → a.msk = 0#4 → (∀ q < 8, s.CalmPad n (off + 64 * q) 64) → ∃ t : State, exec (.vxVst h a) s = .next (t.doneFlight n .vx f) ∧
        t.mem = Memory.writeList s.mem (spBase n + off) ((List.range 128).flatMap fun l => leBytes 4 (k.lane a.va.reg.toNat l)) ∧
        ∀ l < 128, k.poisoned a.va.reg.toNat l = true → Table.get false (t.core n).linePois ((off + 4 * l) / 128) = true) ∧
      (∀ b s1, Ok (c.readLocal base 16) s b s1 → a.kd ≠ 0#4 → ∃ t : State, exec (.vxVldk h a) s = .next (t.doneFlight n .vx f) ∧ s1.OnlyCore t n ((s1.core n).setMask a.kd.toNat (BitVec.ofNat 128 (leNat b)))) ∧
      (∀ t, Ok (c.writeLocal base (leBytes 16 (k.mask a.ka.toNat).toNat)) s () t → exec (.vxVstk h a) s = .next (t.doneFlight n .vx f)) ∧
      (∀ b s1, Ok (c.readLocal base 64) s b s1 →
        ((∃ e ∈ b, e.getLsbD 7 = true ∨ (e.getLsbD 6 = true ∧ e.toNat / 2 % 32 ≠ 0)) → ∃ t : State, exec (.vxPjLd h a) s = .next t ∧ s1.FailsWith t n .vx f 1) ∧
        ((∀ e ∈ b, e.getLsbD 7 = false ∧ (e.getLsbD 6 = true → e.toNat / 2 % 32 = 0)) → b.length = 64 → ∃ t : State, exec (.vxPjLd h a) s = .next (t.doneFlight n .vx f) ∧
          s1.OnlyCore t n { s1.core n with pj := (t.core n).pj } ∧ (∀ j < 64, (t.core n).pjEntry a.x10 j = (b.getD j 0).toNat) ∧ ∀ m < 8, m ≠ a.x10 → ∀ j < 64, (t.core n).pjEntry m j = (s1.core n).pjEntry m j)) ∧
      (∀ code : Nat → Nat, k.vpois = [] → h.ovm ≠ .gaz → a.msk = 0#4 → a.imm.toNat % 256 = 128 → (∀ g < 16, code g < 65536 ∧ quantL8 ((List.range 8).map fun p => k.fcode .fp32 a.va (8 * g + p) 0) = (some (code g), false)) →
        ∃ t : State, exec (.vxQzL8 h a) s = .next (t.doneFlight n .vx f) ∧ t.mem = s.mem ∧ (∀ g < 16, (t.core n).l8Code a.vd.toNat (16 * (a.xm.toNat % 16) + g) = code g) ∧
          (∀ g < 256, (g < 16 * (a.xm.toNat % 16) ∨ 16 * (a.xm.toNat % 16) + 16 ≤ g) → (t.core n).l8Code a.vd.toNat g = k.l8Code a.vd.toNat g) ∧
          ∀ reg < 64, reg ≠ a.vd.toNat → ∀ l < 128, (t.core n).lane reg l = k.lane reg l)) ∧
    (∀ x h a l, consumesVa x = some (h, a) → h.spec = false → l < 128 → k.on a l = true → k.poisoned a.va.reg.toNat l = true → ∃ t : State, exec x s = .next t ∧ s.FailsWith t n .vx f 10) ∧
    (∀ x r, poisonRule k x = some r → r.carrier = true ∨ r.h.spec = true → r.h.ovm ≠ .gaz →
      let hit := fun (l : Nat) (reg : Nat → Bool) => (r.src l).any fun u => reg u.1 && k.poisoned u.1 u.2
      ∃ t : State, exec x s = .next (t.doneFlight n .vx f) ∧
        (∀ l < 128, k.on r.a l = true → (t.core n).poisoned r.a.vd.toNat l = hit l fun _ => true) ∧
        (∀ reg ≠ r.a.vd.toNat, ∀ l < 128, (t.core n).poisoned reg l = k.poisoned reg l) ∧
        ∀ org, r.order.find? (fun reg => (List.range 128).any fun l => k.on r.a l && hit l (· == reg)) = some org → Table.get (0, 0) (t.core n).vorg r.a.vd.toNat = Table.get (0, 0) k.vorg org)

/-! ### Contour and Traverse -/

namespace Sys2Proof.Machine

/-- The operation of a Contour command. -/
def contourOf : Instr → Option (CtOp × Hdr × CtArgs)
  | .ctMax h a => some (.max, h, a)
  | .ctExpsum h a => some (.expsum, h, a)
  | .ctScale h a => some (.scale, h, a)
  | .ctSoftmax h a => some (.softmax, h, a)
  | .ctRmsnorm h a => some (.rmsnorm, h, a)
  | .ctLayernorm h a => some (.layernorm, h, a)
  | .ctSumsq h a => some (.sumsq, h, a)
  | _ => none

/-- One rounding inside Contour (R243): to FP32 under RNE, an overflow going to infinity. -/
def to32 (x : XVal) : XVal := FFmt.fp32.value (FFmt.fp32.round .ieee .rne x).code

/-- A running FP32 sum of exact terms, the first rounded too (R245). -/
def sums32 : List XVal → XVal
  | [] => .fin false 0 1
  | x :: r => r.foldl (fun q y => to32 (q.add y)) (to32 x)

/-- What a row comes to (R244, R245) of its elements as they enter the arithmetic: the codes of the elements written, and the FP32 words of the statistics by their place in the parameter block. -/
def rowRule (op : CtOp) (h : Hdr) (a : CtArgs) (r : Nat) (s : List XVal) (p0 m sig : Nat) : List Nat × List (Nat × Nat) :=
  let word := fun (x : XVal) => (FFmt.fp32.round .ieee .rne x).code
  let hid := fun (i : Nat) => a.causal && decide (a.row0.toNat + r < i)
  let t := s.zipIdx.map fun x => (hid x.2, if a.pre then to32 ((FFmt.fp32.value p0).mul x.1) else x.1)
  let out := fun (x : XVal) => (a.dt.round h.ovm h.mode x).code
  let top := (t.filter fun x => !x.1 && !x.2.isNaN).foldl (fun b x => if XVal.cmp b x.2 < 0 then x.2 else b) (.inf true)
  let exps := fun (m : XVal) => t.map fun x => if x.1 then 0 else (contourExp h.ovm h.mode (word (to32 (x.2.add m.neg)))).code
  let esum := fun (l : List Nat) => match l with
    | [] => XVal.fin false 0 1
    | x :: r => r.foldl (fun q y => to32 (q.add (FFmt.bf16.value y))) (FFmt.bf16.value x)
  let scale := fun (l : List XVal) (q : XVal) => l.map fun x => if q.isZero then 0 else out (x.div q)
  let rho := fun (q : XVal) => to32 (to32 ((q.div (.ofInt s.length)).add (FFmt.fp32.value p0))).rsqrt
  match op with
  | .max => ([], [(64 + 8 * r, word top)])
  | .expsum => let e := exps (FFmt.fp32.value m); (e, [(68 + 8 * r, word (esum e))])
  | .scale => (scale s (FFmt.fp32.value sig), [])
  | .softmax => let e := exps top; (scale (e.map FFmt.bf16.value) (esum e), [])
  | .rmsnorm => let q := rho (sums32 (s.map fun x => x.mul x)); (s.map fun x => out (x.mul q), [])
  | .layernorm =>
    let total := match s with
      | [] => XVal.fin false 0 1
      | x :: l => l.foldl (fun q y => to32 (q.add y)) x
    let mu := to32 (total.div (.ofInt s.length))
    let q := rho (sums32 (s.map fun x => (x.add mu.neg).mul (x.add mu.neg)))
    (s.map fun x => out ((x.add mu.neg).mul q), [])
  | .sumsq => ([], [(68 + 8 * r, word (sums32 (s.map fun x => x.mul x)))])

end Sys2Proof.Machine

/-- The Contour commands (R238 to R249): what a row comes to, by the arithmetic of R243 to R245; and a command with one row left reads that row and the words of the parameter block that it takes, or goes on with what it has read of it before a pause (R246), writes the row and its statistics, and is done, where its turn does not stop at the boundary behind the row. One row of few bytes in calm scratchpad leaves just its bytes.
The exponential's precision and the tie of zeros are the model's readings (log 30, log 47). -/
def Obligations.Contour : Prop :=
  (∀ (op : CtOp) (h : Hdr) (a : CtArgs) (r : Nat) (s : List FV) (p0 m sig : Nat),
    let w := ctRow op h a r s p0 m sig
    let x := rowRule op h a r (s.map (·.1)) p0 m sig
    w.row = (if op = .expsum then ETy.bf16 else a.dt).rowBytes x.1 ∧ w.stats = x.2) ∧
  ∀ (s : State) (n i : Nat) (f : Flight) (x : Instr) (op : CtOp) (h : Hdr) (a : CtArgs), Working s n .ct i f → contourOf x = some (op, h, a) →
    let c := s.cx n .ct f
    let r := f.prog.row
    (a.rows.toNat ≤ r → exec x s = .next (s.doneFlight n .ct f)) ∧
    let kept := (c.asNow s).list.getD []
    (∀ raw s1 t, kept = [] → a.rows.toNat = r + 1 → Ok (c.ctRead op a s.mem r) s raw s1 → Ok (c.ctWrite a r (ctOf op h a r raw) []) s1 () t → exec x s = .next (t.doneFlight n .ct f)) ∧
    (∀ t, kept ≠ [] → kept.length = a.kept → op.phases ≠ 1 → a.rows.toNat = r + 1 → Ok (c.ctWrite a r (ctOf op h a r kept) []) s () t → exec x s = .next (t.doneFlight n .ct f)) ∧
    (∀ src dst, c.bare → s.left = none → kept = [] → op = .scale → a.pre = false → a.rows.toNat = r + 1 → r = 0 → c.addr a.src = spBase n + src → c.addr a.dst = spBase n + dst → s.CalmPad n src (a.st.bytes a.len.toNat) → s.CalmPad n dst (a.dt.bytes a.len.toNat) →
      ∀ sig, c.addr a.aux = spBase n + sig → s.CalmPad n (sig + 68) 4 →
        let row := Memory.readList s.mem (spBase n + src) (a.st.bytes a.len.toNat)
        ∃ t : State, exec x s = .next (t.doneFlight n .ct f) ∧ t.mem = Memory.writeList s.mem (spBase n + dst)
          (a.dt.rowBytes (rowRule op h a 0 ((List.range a.len.toNat).map fun j => (a.st.value (a.st.inRow row j)).1) 0 0 (leNat (Memory.readList s.mem (spBase n + (sig + 68)) 4))).1))

namespace Sys2Proof.Machine

/-- The operands of a Traverse command. -/
def traverseOf : Instr → Option (Hdr × TvArgs)
  | .tvOpen h a | .tvBlk h a | .tvSeal h a | .tvCancel h a | .tvCancelFin h a | .tvStat h a | .tvAcq h a | .tvDisc h a | .tvFree h a => some (h, a)
  | _ => none

/-- The code with which a command ends at once (R280): the first that applies of c1, c10, c2, c5 and c3; none where it is legal. `local_` says that the decode die is one of this package. -/
def refusedBy (x : Instr) (t : Stream) (ctx die : Nat) (local_ again : Bool) : Option Nat :=
  let issuer := match x with
    | .tvOpen _ _ | .tvBlk _ _ | .tvSeal _ _ | .tvDisc _ _ | .tvFree _ _ => decide (t.pdie = die)
    | .tvAcq _ _ => decide (t.ddie = die ∧ local_ = true)
    | .tvCancelFin _ _ => decide (1 ≤ t.state ∧ t.state ≤ 5 → t.owner = die ∧ (t.state = 5 → local_ = true))
    | _ => true
  let closed := match x with
    | .tvOpen _ _ | .tvBlk _ _ | .tvSeal _ _ | .tvDisc _ _ | .tvCancelFin _ _ => decide (t.state = 7 ∨ t.state = 8)
    | _ => false
  let legal := match x with
    | .tvOpen _ _ => decide (t.state = 2 ∨ t.state = 3)
    | .tvBlk _ _ | .tvSeal _ _ | .tvDisc _ _ => decide (t.state = 3)
    | .tvCancelFin _ _ => decide (t.state = 5)
    | .tvFree _ _ => decide (3 ≤ t.state)
    | _ => true
  match x with
  | .tvFree _ _ => if again ∧ t.state ≠ 0 then none else if t.state = 0 then some 1 else if ctx ≠ t.ctx then some 10 else if issuer = false then some 2 else if legal = false then some 3 else none
  | _ => if t.state = 0 then some 1 else if ctx ≠ t.ctx then some 10 else if issuer = false then some 2 else if closed then some 5 else if legal = false then some 3 else none

/-- A stream's record after a change of state (R268, R282): the owner of the new state, SEQ and TCHG. -/
def Stream.moved (t : Stream) (st now : Nat) : Stream :=
  { t with state := st, owner := if 1 ≤ st ∧ st ≤ 4 then t.pdie else if st = 5 then t.ddie else 0x0C, seq := (t.seq + 1) % 65536, tchg := now }

/-- The cancel event (R282, R284): the record after it and its code. -/
def Stream.cancelled (t : Stream) (now : Nat) : Stream × Nat :=
  let u := t.moved 7 now
  if t.state = 0 then (t, 1)
  else if t.state ≤ 2 then ({ u with notice := some (t.notice.getD false) }, 0)
  else if t.state = 3 then ({ u with discarding := !t.lost, toPrefill := false }, 0)
  else if t.state = 4 then ({ t with deferred := true }, 0)
  else if t.state = 5 then (u, 0)
  else if t.state = 6 then (t, 3)
  else if t.state = 7 then (t, 0)
  else (t, 5)

/-- No core holds a task of the stream, and no node of an instance counts on it. -/
def State.taskless (s : State) (i : Nat) : Prop := (∀ n k, (s.core n).task = some k → k.stream ≠ some i) ∧ ∀ g ∈ s.insts, ∀ x ∈ g.nodes, s.streamOf x ≠ some i

/-- A Traverse command ends with a code about a stream (R277): its status word holds the code, the state and the block, LASTERR takes a code that is not 0, and nothing else of the stream changes; `t` is the state before the command is done. -/
structure State.EndsWith (s t : State) (c : Cx) (a : TvArgs) (stw code st idx : Nat) : Prop where
  word : Memory.readList t.mem (spBase c.n + stw) 8 = leBytes 8 (code + st * 2 ^ 8 + idx * 2 ^ 16)
  frame : ∀ j, (j < spBase c.n + stw ∨ spBase c.n + stw + 8 ≤ j) → Memory.read t.mem j = Memory.read s.mem j
  others : ∀ j, j ≠ c.stream a → t.stream j = s.stream j

end Sys2Proof.Machine

/-- The Traverse commands (R275 to R280, R282), their status word in calm scratchpad. The wrong stream, context, die or state ends a command with its code and no event; so do tasks that still count on the stream of a TV.OPEN (c4), a decode die whose bitmaps are all taken (c8), a block or seal out of range (c7), and a lost peer (c11).
TV.OPEN opens a stream in PREFILL and changes nothing of one in HANDOFF, TV.CANCEL is the cancel event in every state, TV.CANCEL with FIN finishes one in DECODE; these and TV.SEAL are releases, which wait for held writes (R321). TV.STAT copies the record, TV.ACQ ends with the grant or waits for it; TV.BLK and TV.SEAL send their message on the channel, TV.DISC orders a discard, TV.FREE waits for the notice: each then ends with the outcome that has come, and waits for it till then.
IDX where no block is concerned is 0 (log 52), and TV.FREE on a stream gone IDLE ends with c1 (log 54): the model's readings. -/
def Obligations.TraverseCommands : Prop :=
  ∀ (s : State) (n i : Nat) (f : Flight) (x : Instr) (h : Hdr) (a : TvArgs), Working s n .tv i f → traverseOf x = some (h, a) →
    let c := s.cx n .tv f
    let k := c.stream a
    let t := s.stream k
    let done := fun (u : State) => exec x s = .next (u.doneFlight n .tv f)
    let first := f.prog.row = 0
    -- no write that the release of a stream event covers is held at the swap engine or by PHOLD
    let free := s.swapHolds n = false ∧ s.coveredHeld n = false
    let own := match (s.core n).task with
      | some w => if w.stream = some k then 1 else 0
      | none => 0
    let taken := (s.streams.filter fun e => (e.2.state == 3 || e.2.state == 4) && e.2.ddie == t.ddie && e.2.dpkg == t.dpkg).length
    let err := fun (code idx : Nat) => { t with lasterr := code, erridx := idx }
    let local_ := decide (t.dpkg = s.pkgId)
    ∀ stw, c.bare → c.addr a.stw = spBase n + stw →
    (n < 288 → stw < spSize n → refusedBy x t (s.recCtx n).1 (dieOf n) local_ (!decide first) = none → first → ¬free →
      ((∃ h a, x = .tvOpen h a) ∧ t.state = 2 ∧ t.live ≤ own ∧ taken < 64) ∨ (∃ h a, x = .tvCancel h a ∨ x = .tvCancelFin h a) ∨ ((∃ h a, x = .tvSeal h a) ∧ a.idx.toNat ≤ t.nbmax ∧ t.lost = false) →
      exec x s = .next s) ∧
    (s.CalmPad n stw 8 →
    let ends := fun (code st idx : Nat) (u : State) => done u ∧ s.EndsWith u c a stw code st idx
    (∀ code, refusedBy x t (s.recCtx n).1 (dieOf n) local_ (!decide first) = some code → (first ∨ ∃ h a, x = .tvFree h a) →
      ∃ u, ends code (if code = 1 ∨ code = 10 then 0 else t.state) 0 u ∧ u.stream k = { t with lasterr := code, erridx := 0 } ∧ u.tvChan = s.tvChan) ∧
    (refusedBy x t (s.recCtx n).1 (dieOf n) local_ (!decide first) = none → first →
      ((∃ h a, x = .tvOpen h a) →
        (t.state = 3 → ∃ u, ends 0 3 0 u ∧ u.stream k = t) ∧
        (t.state = 2 → own < t.live → ∃ u, ends 4 2 0 u ∧ u.stream k = err 4 0) ∧
        (t.state = 2 → t.live ≤ own → 64 ≤ taken → ∃ u, ends 8 2 0 u ∧ u.stream k = err 8 0) ∧
        (t.state = 2 → t.live ≤ own → taken < 64 → ∃ u, ends 0 3 0 u ∧ u.stream k = t.moved 3 s.hubDatum)) ∧
      ((∃ h a, x = .tvCancel h a) → s.taskless k → let r := t.cancelled s.hubDatum
        ∃ u, ends r.2 r.1.state 0 u ∧ u.stream k = if r.2 = 0 then r.1 else err r.2 0) ∧
      ((∃ h a, x = .tvCancelFin h a) → ∃ u, ends 0 6 0 u ∧ u.stream k = t.moved 6 s.hubDatum) ∧
      ((∃ h a, x = .tvBlk h a) → (t.nbmax ≤ a.idx.toNat ∨ 8 * 2 ^ t.tc < a.ntok.toNat ∨ a.spitch.toNat < 32 * (t.dhc + 1)) → ∃ u, ends 7 3 a.idx.toNat u ∧ u.stream k = err 7 a.idx.toNat ∧ u.tvChan = s.tvChan) ∧
      ((∃ h a, x = .tvSeal h a) → t.nbmax < a.idx.toNat → ∃ u, ends 7 3 0 u ∧ u.stream k = err 7 0 ∧ u.tvChan = s.tvChan) ∧
      (t.lost = true → ((∃ h a, x = .tvBlk h a) ∧ a.idx.toNat < t.nbmax ∧ a.ntok.toNat ≤ 8 * 2 ^ t.tc ∧ 32 * (t.dhc + 1) ≤ a.spitch.toNat) ∨ ((∃ h a, x = .tvSeal h a) ∧ a.idx.toNat ≤ t.nbmax) ∨ (∃ h a, x = .tvDisc h a) →
        ∃ u, ends 11 3 0 u ∧ u.stream k = err 11 0 ∧ u.tvChan = s.tvChan) ∧
      ((∃ h a, x = .tvAcq h a) → (t.state = 5 → ∃ u, ends 0 5 0 u ∧ u.stream k = t) ∧ (t.state < 5 → exec x s = .next s) ∧ (6 ≤ t.state → ∃ u, ends 5 t.state 0 u)) ∧
      ((∃ h a, x = .tvStat h a) → ∀ out, c.addr a.src = spBase n + out → s.CalmPad n out 64 → (out + 64 ≤ stw ∨ stw + 8 ≤ out) →
        ∃ u : State, done u ∧ Memory.readList u.mem (spBase n + out) 64 = (List.range 8).flatMap fun w => leBytes 8 (t.word w)) ∧
      ((∃ h a, x = .tvBlk h a) → t.nbmax > a.idx.toNat → a.ntok.toNat ≤ 8 * 2 ^ t.tc → 32 * (t.dhc + 1) ≤ a.spitch.toNat → t.lost = false →
        ∀ rows s1, Ok ((List.range a.ntok.toNat).mapM fun r => c.readLocal (c.addr a.src + r * a.spitch.toNat) (32 * (t.dhc + 1))) s rows s1 →
          ∃ (u : State) (m : TvMsg), exec x s = .next u ∧ u.tvChan = s1.tvChan ++ [m] ∧ m.isSeal = false ∧ m.stream = k ∧ m.idx = a.idx.toNat ∧ m.core = n ∧ m.slot = f.slot ∧ m.pdie = dieOf n ∧ u.mem = s1.mem ∧
            m.data.length = (8 * 2 ^ t.tc) * (16 * (t.dhc + 1)) ∧ ∀ tok < a.ntok.toNat, ∀ dim < 16 * (t.dhc + 1),
              (m.data.getD (tok / 8 * (8 * (16 * (t.dhc + 1))) + 8 * dim + tok % 8) 0).toNat = (ETy.fp8e4.round h.ovm .rne (FFmt.bf16.value (leNat (((rows.getD tok []).drop (2 * dim)).take 2)))).code % 256) ∧
      ((∃ h a, x = .tvSeal h a) → a.idx.toNat ≤ t.nbmax → t.lost = false →
        ∃ (u : State) (m : TvMsg), exec x s = .next u ∧ u.tvChan = s.tvChan ++ [m] ∧ m.isSeal = true ∧ m.stream = k ∧ m.idx = a.idx.toNat ∧ m.core = n ∧ m.slot = f.slot ∧ u.mem = s.mem) ∧
      ((∃ h a, x = .tvDisc h a) → t.lost = false → ∃ u : State, exec x s = .next u ∧ u.stream k = { t with discarding := true, toPrefill := true } ∧ u.mem = s.mem) ∧
      ((∃ h a, x = .tvFree h a) → (t.notice = none → ∃ u : State, exec x s = .next u ∧ u.stream k = t ∧ u.mem = s.mem) ∧ (∀ g, t.notice = some g → ∃ u, ends (if g then 0 else 5) t.state 0 u))) ∧
    (f.prog.row = 1 →
      ((∃ h a, x = .tvBlk h a ∨ x = .tvSeal h a ∨ x = .tvDisc h a) →
        (∀ r, s.tvReply = [r] → r.core = n → r.slot = f.slot → r.code < 100 → r.gzl = false → ∃ u, ends r.code r.st r.idx u ∧ u.tvReply = []) ∧
        ((∀ r ∈ s.tvReply, ¬(r.core = n ∧ r.slot = f.slot ∧ r.code < 100)) → exec x s = .next s)) ∧
      ((∃ h a, x = .tvFree h a) → t.state ≠ 0 → (t.notice = none → exec x s = .next s) ∧ ∀ g, t.notice = some g → ∃ u, ends (if g then 0 else 5) t.state 0 u)))

/-! ### Streams -/

namespace Sys2Proof.Machine

/-- A Traverse outcome goes to the command that waits for it (R277), of another package's stream to its home (R286). -/
def State.Tells (u v : State) (m : TvMsg) (code idx : Nat) : Prop :=
  v.tvChan.length = u.tvChan.length ∧
    if 65536 ≤ m.stream then v.tvReply = u.tvReply ∧ v.fabOut = u.fabOut ++ [(m.stream / 65536 - 1, .streamReply (m.stream % 65536) idx code)]
    else if 288 ≤ m.core then v.tvReply = u.tvReply
    else v.tvReply = u.tvReply ++ [{ core := m.core, slot := m.slot, code := code, idx := idx, st := (v.stream m.stream).state, gzl := false }]

end Sys2Proof.Machine

/-- The events of streams (R270 to R286). A block that arrives intact for a stream in HANDOFF, at the head of its channel and not accepted before, is written and accepted; one accepted before, discarded; a failing one is reported with c6, and with it every later message of the channel; in CANCELLING it gets c5, in another state c3.
A seal is refused with c9 and the lowest missing block, or moves the stream to SEALED, from where the lift of the fence makes it DECODE, owned by DDIE, with the free notice, and applies a deferred cancel. A discard is acknowledged when every message of the channel has arrived and the blocks that received lines are zeroed; it empties the block index, and returns the stream to PREFILL where TV.DISC ordered it. A cancel that is complete makes it CANCELLED. The loss of a peer marks its streams; an abandon message and a request
cancel, the message with LASTERR 11 where it cancels; a request of Waypoint admits a stream with its fence, once no write to its regions is held (R385) and no region table is due (R101), or is refused by the first reason of R273, and releases one in DONE or CANCELLED.
An outcome of another package's stream goes to its home. The IDX of a seal lost on the link, a seal that meets a discard, c3 for a message in a state that R282 says cannot occur, and the context 0 under which Waypoint reads its request are the model's readings (log 36, log 75, log 98, log 85). -/
def Obligations.StreamEvents : Prop :=
  (∀ (s : State) (j : Nat) (bad written : List Nat) (b : Bool), s.chanHead j = none → exec (.blockArrival j bad written) s = .next s ∧ exec (.sealArrival j b) s = .next s) ∧
  (∀ (s : State) (j : Nat) (m : TvMsg), s.chanHead j = some m →
    let i := m.stream
    let t := s.stream i
    let s0 : State := { s with tvChan := s.tvChan.eraseIdx j }
    let tells := fun (u v : State) (code idx : Nat) => u.Tells v m code idx
    let err := fun (t : Stream) (code idx : Nat) => { t with lasterr := code, erridx := idx }
    (m.isSeal = false → ∀ bad written,
      (t.state ≠ 3 → t.state ≠ 7 → ∃ u : State, exec (.blockArrival j bad written) s = .next u ∧ tells s0 u 3 0 ∧ u.stream i = err t 3 0 ∧ u.mem = s.mem) ∧
      (t.state = 7 → bad = [] → ∃ u : State, exec (.blockArrival j bad written) s = .next u ∧ tells s0 u 5 0 ∧ u.stream i = err t 5 0 ∧ u.mem = s.mem) ∧
      (t.state = 3 → bad = [] → m.doomed = none → m.idx ∈ t.accepted → ∃ u : State, exec (.blockArrival j bad written) s = .next u ∧ tells s0 u 0 0 ∧ u.stream i = t ∧ u.mem = s.mem) ∧
      (t.state = 3 → bad = [] → m.doomed = none → m.idx ∉ t.accepted → m.outliers = [] → ∀ s1,
        Ok (writeRun { who := .hub t.ctx, cached := false, traverse := true } ((if t.dpkg = s.pkgId then 0 else 2 ^ 51 + t.dpkg * 2 ^ 39) + t.dbase + m.idx * t.blockBytes) m.data) s0 () s1 →
        ∃ u : State, exec (.blockArrival j bad written) s = .next u ∧ tells s1 u 0 0 ∧ u.mem = s1.mem ∧ let v := s1.stream i
          u.stream i = { v with accepted := m.idx :: v.accepted, nacc := v.nacc + 1, received := m.idx :: v.received.filter (· ≠ m.idx) }) ∧
      (∀ k, t.state = 3 → bad = [] → m.doomed = some k → ∃ u : State, exec (.blockArrival j bad written) s = .next u ∧ tells s0 u 6 k ∧ u.stream i = err t 6 k ∧ u.mem = s.mem) ∧
      (t.state = 3 → bad ≠ [] → written = [] → m.doomed = none → ∃ u : State, exec (.blockArrival j bad written) s = .next u ∧ tells s0 u 6 m.idx ∧ u.mem = s.mem ∧
        (u.stream i).accepted = t.accepted ∧ m.idx ∈ (u.stream i).received ∧ ∀ o ∈ u.tvChan, o.pdie = m.pdie → o.stream = i → o.doomed ≠ none)) ∧
    (m.isSeal = true → ∀ bad,
      (t.state = 7 → ∃ u : State, exec (.sealArrival j bad) s = .next u ∧ tells s0 u 5 0 ∧ u.mem = s.mem) ∧
      (t.state ≠ 3 → t.state ≠ 7 → ∃ u : State, exec (.sealArrival j bad) s = .next u ∧ tells s0 u 3 0 ∧ u.mem = s.mem) ∧
      (t.state = 3 → t.discarding = true → m.doomed = none → bad = false → 0 < m.idx → ∃ u : State, exec (.sealArrival j bad) s = .next u ∧ tells s0 u 9 0 ∧ u.stream i = err t 9 0 ∧ u.mem = s.mem) ∧
      (∀ k, t.state = 3 → t.discarding = false → m.doomed = some k → ∃ u : State, exec (.sealArrival j bad) s = .next u ∧ tells s0 u 6 k ∧ u.mem = s.mem) ∧
      (∀ k, t.state = 3 → t.discarding = false → m.doomed = none → bad = false → k < m.idx → k ∉ t.accepted → (∀ b < k, b ∈ t.accepted) → ∃ u : State, exec (.sealArrival j bad) s = .next u ∧ tells s0 u 9 k ∧ u.stream i = err t 9 k ∧ u.mem = s.mem) ∧
      (t.state = 3 → t.discarding = false → m.doomed = none → bad = false → (∀ b < m.idx, b ∈ t.accepted) → ∃ u : State, exec (.sealArrival j bad) s = .next u ∧ u.mem = s.mem ∧
        (i < 65536 → u.stream i = { t.moved 4 s.hubDatum with nseal := m.idx }) ∧ (65536 ≤ i → u.stream i = { t with nseal := m.idx } ∧ u.fabOut = s.fabOut ++ [(i / 65536 - 1, .sealPassed (i % 65536) m.idx)])))) ∧
  (∀ (s : State) (i : Nat), i < 65536 →
    let t := s.stream i
    (t.state ≠ 4 → exec (.fenceLifted i) s = .next s) ∧
    (t.state = 4 → t.deferred = false → ∃ u : State, exec (.fenceLifted i) s = .next u ∧ u.mem = s.mem ∧ u.stream i = { t.moved 5 s.hubDatum with fenced := false, notice := some (t.notice.getD true) } ∧
      (∀ r ∈ u.tvReply, ¬(r.code = 100 ∧ r.idx = i)) ∧ ∀ k, k ≠ i → u.stream k = s.stream k) ∧
    (t.state = 4 → t.deferred = true → s.taskless i → ∃ u : State, exec (.fenceLifted i) s = .next u ∧ (u.stream i).state = 7 ∧ (u.stream i).owner = 0x0C ∧ (u.stream i).fenced = false) ∧
    (t.discarding = true → t.lost = false → (∀ m ∈ s.tvChan, m.stream ≠ i) → ∀ s1 : State,
      Ok (t.received.forM fun b => do
        let w ← get
        writeRun { who := .hub t.ctx, cached := false, traverse := true } ((if t.dpkg = w.pkgId then 0 else 2 ^ 51 + t.dpkg * 2 ^ 39) + t.dbase + b * t.blockBytes) (List.replicate t.blockBytes 0)) s () s1 →
      let v := s1.stream i
      ∃ u : State, exec (.discardAck i) s = .next u ∧ u.mem = s1.mem ∧
        (v.state = 3 → v.toPrefill = true → u.stream i = { v.moved 2 s1.hubDatum with accepted := [], received := [], nacc := 0, discarding := false, toPrefill := false }) ∧
        (v.state = 7 → (u.stream i).state = 7 ∧ (u.stream i).accepted = [] ∧ (u.stream i).received = [] ∧ (u.stream i).nacc = 0 ∧ (u.stream i).discarding = false ∧ (u.stream i).notice = some (v.notice.getD false))) ∧
    (t.discarding = false ∨ t.lost = true ∨ (∃ m ∈ s.tvChan, m.stream = i) → exec (.discardAck i) s = .next s) ∧
    (t.state ≠ 7 ∨ t.live ≠ 0 → exec (.cancelComplete i) s = .next s) ∧
    (t.state = 7 → t.live = 0 → t.discarding = false → ∃ u : State, exec (.cancelComplete i) s = .next u ∧ u.mem = s.mem ∧
      u.stream i = { t.moved 8 s.hubDatum with fenced := false, notice := some (t.notice.getD false), lasterr := if t.lost then 11 else t.lasterr }) ∧
    (t.dpkg = s.pkgId ∨ t.state = 0 → exec (.streamAbandon i) s = .next s) ∧
    (t.dpkg ≠ s.pkgId → t.state ≠ 0 → s.taskless i → ∃ u : State, exec (.streamAbandon i) s = .next u ∧ u.mem = s.mem ∧ u.stream i = if t.state ≤ 5 then { (t.cancelled s.hubDatum).1 with lasterr := 11, erridx := 0 } else t)) ∧
  (∀ (s : State) (pkg : Nat), (pkg = s.pkgId ∨ s.reaches pkg = true → exec (.peerLost pkg) s = .next s) ∧
    (pkg ≠ s.pkgId → s.reaches pkg = false → ∃ u : State, exec (.peerLost pkg) s = .next u ∧ u.mem = s.mem ∧ ∀ e ∈ s.streams, e.2.dpkg = pkg → e.2.state ≠ 0 → (u.stream e.1).lost = true)) ∧
  ∀ (s : State), s.fld 0x030001400010 0 0 = 1 → ∀ l s1, Ok (hubRead 0 (s.fld 0x030001400000 51 6 * 64) 64) s (some l) s1 →
    let w := fun (i : Nat) => leNat ((l.drop (8 * i)).take 8)
    let op := w 0 % 8
    let i := w 0 / 2 ^ 16 % 2 ^ 16
    let t := s1.stream i
    let res := fun (u : State) (r : Nat) => u.reg 0x030001400010 = BitVec.ofNat 64 (2 * r)
    let bad := fun (opening : Bool) => wpZeroBad l opening = true
    let new := admitRecord l t.seq
    let range := 3 < new.pdie ∨ new.ddie < 4 ∨ 0x0B < new.ddie ∨ new.nbmax = 0 ∨ 4096 < new.nbmax ∨ new.dbase % 128 ≠ 0 ∨ new.gzbase % 8 ≠ 0 ∨ 2 ^ 39 < new.dbase + new.nbmax * new.blockBytes ∨ 2 ^ 39 < new.gzbase + 8 * new.gzcap
    (op = 1 → ¬bad true →
      (t.state ≠ 0 → ∃ u : State, exec .waypointAdmit s = .next u ∧ res u 2 ∧ u.streams = s1.streams) ∧
      (t.state = 0 → range → ∃ u : State, exec .waypointAdmit s = .next u ∧ res u 3 ∧ u.streams = s1.streams) ∧
      (t.state = 0 → ¬range → (∃ e ∈ s1.streams, e.1 ≠ i ∧ e.2.state ≠ 0 ∧ e.2.clash new = true) → ∃ u : State, exec .waypointAdmit s = .next u ∧ res u 4 ∧ u.streams = s1.streams) ∧
      (t.state = 0 → ¬range → (∀ e ∈ s1.streams, e.1 ≠ i → e.2.state ≠ 0 → e.2.clash new = false) → (s1.rtDrain = true ∨ ∃ h ∈ s1.heldW, s1.inStream new h.pa = true) → exec .waypointAdmit s = .next s) ∧
      (t.state = 0 → ¬range → (∀ e ∈ s1.streams, e.1 ≠ i → e.2.state ≠ 0 → e.2.clash new = false) → s1.rtDrain = false → (∀ h ∈ s1.heldW, s1.inStream new h.pa = false) → ∃ u : State, exec .waypointAdmit s = .next u ∧ res u 0 ∧ u.mem = s1.mem ∧
        u.stream i = new.moved 1 s1.hubDatum ∧ new.fenced = true ∧ ∀ k, k ≠ i → u.stream k = s1.stream k)) ∧
    (op = 1 → bad true → ∃ u : State, exec .waypointAdmit s = .next u ∧ res u 1 ∧ u.streams = s1.streams) ∧
    (op = 2 → ¬bad false → s1.taskless i → ∃ u : State, exec .waypointCancel s = .next u ∧ res u (if (t.cancelled s1.hubDatum).2 = 0 then 0 else 2) ∧ u.stream i = (t.cancelled s1.hubDatum).1 ∧ u.mem = s1.mem) ∧
    (op = 3 → ¬bad false → (t.state ≠ 6 ∧ t.state ≠ 8 → ∃ u : State, exec .waypointRelease s = .next u ∧ res u 2 ∧ u.streams = s1.streams) ∧
      (t.state = 6 ∨ t.state = 8 → ∃ u : State, exec .waypointRelease s = .next u ∧ res u 0 ∧ u.stream i = { Stream.reset with seq := (t.seq + 1) % 65536, tchg := s1.hubDatum } ∧
        ∀ k, k ≠ i → u.stream k = s1.stream k))

/-! ### Scheduling -/

namespace Sys2Proof.Machine

/-- Node `i` of instance `g` has retired and given the releases `rel` (R342): the counters have lost them, plain ones are noted, and nothing else of the package moved. -/
structure State.Released (s t : State) (g : GInst) (i : Nat) (rel : List (Nat × Bool)) : Prop where
  node : ∃ g', t.inst? g.id = some g' ∧ (∃ y, g'.nodes[i]? = some y ∧ y.phase = .retired) ∧
    ∀ j y, g.nodes[j]? = some y → ∃ y', g'.nodes[j]? = some y' ∧ y'.plain = (y.plain || rel.contains (j, false))
  counts : ∀ k, t.ctr k = s.ctr k - (rel.map fun r => g.ctrOf r.1).count k
  rest : t.mem = s.mem ∧ t.cores = s.cores

/-- None of the releases is a node's last. -/
def State.NoneLast (s : State) (g : GInst) (rel : List (Nat × Bool)) : Prop :=
  rel ≠ [] ∧ ∀ r ∈ rel, (∃ y, g.nodes[r.1]? = some y ∧ y.phase = .waiting) ∧ (rel.map fun r => g.ctrOf r.1).count (g.ctrOf r.1) < s.ctr (g.ctrOf r.1)

/-- Node `i` of kind `k` is ready in the live instance `g`. -/
def State.ReadyNode (s : State) (g : GInst) (i k : Nat) (x : NodeSt) : Prop :=
  s.inst? g.id = some g ∧ g.live = true ∧ g.nodes[i]? = some x ∧ x.phase = .ready ∧ x.kind = k

/-- Node `i` is dropped with a graph fault (R343): no core and no memory is touched while another node of the instance still runs. -/
def State.Dropped (s t : State) (g : GInst) (i cause : Nat) : Prop :=
  (∃ j y, j ≠ i ∧ g.nodes[j]? = some y ∧ y.phase = .running ∧ (y.kind = 1 ∨ y.kind = 2)) →
    t.inst? g.id = some { g with nodes := g.nodes.modify i fun y => { y with phase := .dropped }, fault := some (cause, i) } ∧ t.cores = s.cores ∧ t.mem = s.mem

end Sys2Proof.Machine

/-- Queues, packets and instances (R335 to R341, R367). A doorbell makes the mapper take over WIDX, one of a virtual function only for a queue of its own outside a reset; a doorbell during the drain of a region table is owed (log 63); a queue that names a reserved die gets no slot, and a queue entry that cannot be read is reported (log 3); a bound queue's packet becomes an instance, at most 8 of a queue at a time, or gets STATUS 3 and is reported malformed, also where it was launched for another context;
an instance takes consecutive free counters, set to the initial counts of its graph, and starts when Datum time has come to START, its nodes of count zero then ready. At a quantum's end the slot goes to the best waiting queue of at least its priority, the tasks of the old one pending pre-emption; with none, a new quantum begins.
The mapper and the walker reach queue entries and packets under context 0 (log 85). -/
def Obligations.QueuesAndInstances : Prop :=
  (∀ (s : State) (q : BitVec 12),
    (s.rtDrain = true → exec (.doorbell q) s = .next { s with owed := s.owed ++ [.bell q.toNat] }) ∧
    (s.rtDrain = false → queueEnt q.toNat s = none → exec (.doorbell q) s = .next (s.log 8 0x0C 0 [3, q.toNat])) ∧
    (∀ e, s.rtDrain = false → queueEnt q.toNat s = some e → 12 ≤ e.qdie → ∃ t : State, exec (.doorbell q) s = .next t ∧ t.qslots = s.qslots ∧ t.insts = s.insts ∧ Table.get 0 t.widx q.toNat = e.widx ∧ ∀ p, p ≠ q.toNat → Table.get 0 t.widx p = Table.get 0 s.widx p) ∧
    (∀ e, s.rtDrain = false → queueEnt q.toNat s = some e → e.qdie < 12 → ∃ t : State, exec (.doorbell q) s = .next t ∧ Table.get 0 t.widx q.toNat = e.widx ∧
      (∀ p, p ≠ q.toNat → Table.get 0 t.widx p = Table.get 0 s.widx p) ∧ t.mem = s.mem ∧ t.cores = s.cores ∧ t.insts = s.insts ∧ t.mmio = s.mmio) ∧
    (∀ f, s.fld (0x030001820000 + 8 * q.toNat) 6 0 = f → f ≠ 0 → s.fld (0x030001830000 + 8 * f) 0 0 = 0 → exec (.vfDoorbell f q) s = exec (.doorbell q) s) ∧
    (∀ f, s.fld (0x030001820000 + 8 * q.toNat) 6 0 ≠ f ∨ f = 0 ∨ s.fld (0x030001830000 + 8 * f) 0 0 = 1 → exec (.vfDoorbell f q) s = .next s)) ∧
  (∀ (s : State) (d i : Nat), 64 ≤ i → exec (.packetTake d i) s = .next s ∧ exec (.quantumEnd d i) s = .next s) ∧
  (∀ (s : State) (d i : Nat), i < 64 → (Table.get none s.qslots (d * 64 + i) = none → exec (.packetTake d i) s = .next s ∧ exec (.quantumEnd d i) s = .next s) ∧
    ∀ b e, Table.get none s.qslots (d * 64 + i) = some b → queueEnt b.queue s = some e →
      let pa := e.rbase + 64 * (e.ridx % 2 ^ e.rlog)
      (Table.get 0 s.widx b.queue = e.ridx ∨ 8 ≤ (s.insts.filter fun g => g.queue == b.queue).length → exec (.packetTake d i) s = .next s) ∧
      (∀ p s1 s2, Table.get 0 s.widx b.queue ≠ e.ridx → (s.insts.filter fun g => g.queue == b.queue).length < 8 → Ok (hubRead 0 pa 64) s (some p) s1 →
        Ok (writeRun (hubReq 0) (s.qEntry b.queue + 20) (leBytes 4 (e.ridx + 1))) s1 () s2 →
        (s2.packetBad e p = false → (b.queue, e.ridx) ∉ s.foreign → ∃ t : State, exec (.packetTake d i) s = .next t ∧ t.mem = s2.mem ∧ t.cores = s2.cores ∧ t.instNo = s2.instNo + 1 ∧
          t.insts = s2.insts ++ [{ id := s2.instNo, die := d, queue := b.queue, ctx := fieldOf p 8 1, prio := fieldOf p 9 1 % 8, gbase := fieldOf p 0 8 % 2 ^ 52, start := fieldOf p 16 8, done := fieldOf p 24 8, born := false, started := false, cbase := 0, nodes := [], fault := none, revoked := false }]) ∧
        (s2.packetBad e p = true ∨ (b.queue, e.ridx) ∈ s.foreign →
          let u : State := { s2 with foreign := s2.foreign.filter (· != (b.queue, e.ridx)) }
          let done := fieldOf p 24 8
          (done = 0 → exec (.packetTake d i) s = .next ((u.log 0x08 d 0 [3, b.queue]).mapDie d)) ∧
          ∀ s3, done ≠ 0 → u.owed = [] → Ok (write64 (hubReq (fieldOf p 8 1)) done 3) (u.takeWrites (.hub (fieldOf p 8 1))) () s3 →
            exec (.packetTake d i) s = .next (((s3.takeWrites (.hub (fieldOf p 8 1))).log 0x08 d 0 [3, b.queue]).mapDie d))) ∧
      (s.now < b.since + s.tau → exec (.quantumEnd d i) s = .next s) ∧
      (b.since + s.tau ≤ s.now → s.bestQueue d = none ∨ (∃ q p, s.bestQueue d = some (q, p) ∧ p < e.qprio) →
        exec (.quantumEnd d i) s = .next { s with qslots := Table.put none s.qslots (d * 64 + i) (some { b with since := s.now }) }) ∧
      (∀ q p, b.since + s.tau ≤ s.now → s.bestQueue d = some (q, p) → e.qprio ≤ p → q ≠ b.queue → ∃ t : State, exec (.quantumEnd d i) s = .next t ∧
        Table.get none t.qslots (d * 64 + i) = some { queue := q, since := s.now, after := some (b.queue, s.now) } ∧ Table.get none t.qwait q = none ∧
        (s.hasWork b.queue e = true → Table.get none t.qwait b.queue = some s.now) ∧ t.mem = s.mem ∧ t.insts = s.insts ∧
        ∀ n k, n ∈ coresOf d → (s.core n).task = some k → (t.core n).task = some (if (s.inst? k.inst).any (fun g => g.queue == b.queue) then { k with pend := some (k.pend.getD s.now) } else k))) ∧
  (∀ (s : State) (id : Nat), (s.inst? id = none → exec (.instanceCreate id) s = .next s ∧ exec (.instanceStart id) s = .next s) ∧
    ∀ g, s.inst? id = some g →
      (g.born = true → exec (.instanceCreate id) s = .next s) ∧
      (∀ nodes s1, g.born = false → Ok (readGraph g.ctx g.gbase) s (.ok nodes) s1 → s1.inst? id = some g → nodes.length ≤ 4096 → (∀ x ∈ nodes, x.init < 65536) →
        (s.freeBases g.die nodes.length = [] → exec (.instanceCreate id) s = .next s) ∧
        (s.freeBases g.die nodes.length ≠ [] → ∃ (t : State) (c : Nat), exec (.instanceCreate id) s = .next t ∧ c ∈ s.freeBases g.die nodes.length ∧
          t.inst? id = some { g with born := true, cbase := c, nodes := nodes } ∧ t.mem = s1.mem ∧ t.cores = s1.cores ∧
          ∀ i x, nodes[i]? = some x → t.ctr (ctrKey g.die (c + i)) = x.init ∧ Table.get false t.depUsed (ctrKey g.die (c + i)) = true)) ∧
      (∀ n s1, g.born = false → g.done = 0 → Ok (readGraph g.ctx g.gbase) s (.error (n, false)) s1 →
        ∃ t : State, exec (.instanceCreate id) s = .next t ∧ t.mem = s1.mem ∧ t.insts = s1.insts.filter fun x => x.id != g.id) ∧
      (g.born = false ∨ g.started = true ∨ s.datum g.die < g.start → exec (.instanceStart id) s = .next s) ∧
      (g.born = true → g.started = false → g.start ≤ s.datum g.die → ∃ t : State, exec (.instanceStart id) s = .next t ∧ t.mem = s.mem ∧
        t.inst? id = some { g with started := true, nodes := g.nodes.map fun x => if x.init = 0 then { x with plain := true, phase := .ready, readyAt := s.datum g.die } else x }))

/-- Nodes (R40, R265, R342, R345). A conditional node releases one of its two lists and skips the other by its condition word; a while node with a nonzero word begins a pass of its body, its counters reset and its roots released, with zero it completes, as do a join node, a timed-start node whose time has come and a transform node whose job ends well;
a job that is malformed drops its node with a fault. A pending pre-emption whose grace has passed is raised as interrupt 16, or aborts a task that cannot be suspended.
How a job that cannot write its output ends is the model's reading (log 51). -/
def Obligations.GraphNodes : Prop :=
  (∀ (s : State) (id i : Nat), s.inst? id = none → ∀ x ∈ [Instr.conditionalNode id i, .whileNode id i, .joinNode id i, .timedStartNode id i, .transformJob id i], exec x s = .next s) ∧
  (∀ (s s1 : State) (g : GInst) (i : Nat) (x : NodeSt) (l : List Byte), s.ReadyNode g i 3 x → Ok (hubTryVa g.ctx x.p0 8) s (some l) s1 → s1.inst? g.id = some g →
    let z := leNat l == 0
    let rel := (x.nsuc.map fun j => (j, z)) ++ (x.nelse.map fun j => (j, !z))
    s1.NoneLast g rel → ∃ t : State, exec (.conditionalNode g.id i) s = .next t ∧ s1.Released t g i rel) ∧
  (∀ (s s1 : State) (g : GInst) (i : Nat) (x : NodeSt), s.ReadyNode g i 3 x → Ok (hubTryVa g.ctx x.p0 8) s none s1 → s1.inst? g.id = some g →
    ∃ t : State, exec (.conditionalNode g.id i) s = .next t ∧ s1.Dropped t g i 6) ∧
  (∀ (s s1 : State) (g : GInst) (i : Nat) (x : NodeSt) (l : List Byte), s.ReadyNode g i 4 x → Ok (hubTryVa g.ctx x.p0 8) s (some l) s1 → s1.inst? g.id = some g →
    (leNat l = 0 → s1.NoneLast g (x.nsuc.map fun j => (j, false)) → ∃ t : State, exec (.whileNode g.id i) s = .next t ∧ s1.Released t g i (x.nsuc.map fun j => (j, false))) ∧
    (leNat l ≠ 0 → let lo := x.p1 % 65536
      let hi := x.p1 / 65536 % 65536
      let root := fun (j : Nat) => innermost g.nodes j == some i && !(g.nodes.any fun y => (y.nsuc ++ y.nelse).contains j)
      i < lo → lo ≤ hi → hi < g.nodes.length → g.nodes.length ≤ 4096 → (∀ (j : Nat) (y : NodeSt), g.nodes[j]? = some y → y.init < 65536 ∧ (root j = true → 0 < y.init)) →
      ∃ (t : State) (g' : GInst), exec (.whileNode g.id i) s = .next t ∧ t.inst? g.id = some g' ∧ t.mem = s1.mem ∧ (∃ y, g'.nodes[i]? = some y ∧ y.phase = .running) ∧
        ∀ (j : Nat) (y : NodeSt), lo ≤ j → j ≤ hi → g.nodes[j]? = some y → let v := if root j then y.init - 1 else y.init
          t.ctr (g.ctrOf j) = v ∧ ∃ y', g'.nodes[j]? = some y' ∧ y'.plain = root j ∧ y'.phase = if root j ∧ v = 0 then .ready else .waiting)) ∧
  (∀ (s : State) (g : GInst) (i : Nat) (x : NodeSt), let rel := x.nsuc.map fun j => (j, false)
    (s.ReadyNode g i 5 x → s.NoneLast g rel → ∃ t : State, exec (.joinNode g.id i) s = .next t ∧ s.Released t g i rel) ∧
    (s.ReadyNode g i 6 x → s.datum g.die < x.p0 → exec (.timedStartNode g.id i) s = .next s) ∧
    (s.ReadyNode g i 6 x → x.p0 ≤ s.datum g.die → s.NoneLast g rel → ∃ t : State, exec (.timedStartNode g.id i) s = .next t ∧ s.Released t g i rel)) ∧
  (∀ (s s1 s2 s3 s4 : State) (g : GInst) (i : Nat) (x : NodeSt) (ph : Phys) (raw : List Byte) (r : Nat × Nat × Nat), let rel := x.nsuc.map fun j => (j, false)
    let job := Job.of raw
    s.ReadyNode g i 2 x → Ok (hubXlate g.ctx .load x.p0) s ph s1 → (s1.isDram ph.pa = true ∨ (0x010000000000 ≤ ph.pa ∧ ph.pa < 0x010040000000)) → ph.pa % 64 = 0 → Ok (hubRead g.ctx ph.pa 64) s1 (some raw) s2 →
    Ok (job.run g.ctx raw) s2 r s3 → Ok (writeRun (hubReq g.ctx) (ph.pa + 56) (leBytes 1 r.1 ++ leBytes 1 r.2.1 ++ leBytes 2 0 ++ leBytes 4 r.2.2)) s3 () s4 → s4.inst? g.id = some g →
    (r.1 = 0 → s4.NoneLast g rel → ∃ t : State, exec (.transformJob g.id i) s = .next t ∧ s4.Released t g i rel) ∧
    (r.1 ≠ 0 → ∃ t : State, exec (.transformJob g.id i) s = .next t ∧ s4.Dropped t g i 3) ∧
    (job.bad raw = true → r = (1, 0, 0) ∧ s3 = s2)) ∧
  (∀ (s s1 : State) (j : Job) (ctx r : Nat) (row : List Byte), let w := (tyOf j.stype).width / 8
    let src := addVa j.src (r * j.sstr)
    (j.op = 3 → Ok (j.read ctx src (j.len * w)) s row s1 → Ok (j.row ctx r) s (if bit j.flags 5 then (List.range j.len).map fun (e : Nat) => (addVa j.dst (e * j.dstr + (r * w : Nat)), (row.drop (e * w)).take w)
      else [(addVa j.dst (r * j.dstr), row)]) s1) ∧
    (j.op = 4 → Ok (j.read ctx src ((tyOf j.stype).bytes j.len)) s row s1 →
      Ok (j.row ctx r) s [(addVa j.dst (r * j.dstr), (tyOf j.dtype).rowBytes ((List.range j.len).map fun e => ((tyOf j.dtype).round j.ovf j.rnd ((tyOf j.stype).value ((tyOf j.stype).inRow row e)).1).code))] s1)) ∧
  ∀ (s : State) (n : Nat), n < 288 → let c := s.core n
    (c.task = none → exec (.preemptionGraceExpiry n) s = .next s) ∧
    ∀ k, c.task = some k →
      (k.pend = none → exec (.preemptionGraceExpiry n) s = .next s) ∧
      ∀ t0, k.pend = some t0 →
        (s.now < t0 + s.grace ∨ c.suspended = true → exec (.preemptionGraceExpiry n) s = .next s) ∧
        (t0 + s.grace ≤ s.now → c.suspended = false →
          (s.abortsInstead n = true → s.sound k.inst k.node → ∃ t : State, exec (.preemptionGraceExpiry n) s = .next t ∧ (t.core n).isIdle ∧ (t.core n).staging = Staging.empty) ∧
          (s.abortsInstead n = false → ∃ t : State, exec (.preemptionGraceExpiry n) s = .next t ∧ s.OnlyCore t n { c with hart := c.hart.setCsrBits 0x344 16 16 1 }))

/-- Dispatch (R22, R343, R345, R271). With no task ready, or no idle core of its die, nothing happens. The chosen node starts afresh on the lowest idle core in the state of R22: U-mode at its entry, a0 the scratchpad window and a1 the core number, every other register zero, the 64-byte argument block in the scratchpad, engines in their dispatch state with the images of the node in the rings (here none),
nothing staged, and its stream counts it; a suspended node raises interrupt 17 on the core with `shinfo` holding SAVE and its copies of descriptors empty; one whose stream lets it run no more is dropped; about a stream of another package the walker asks its Waypoint (R286), and the node waits for the answer. A node whose argument block or image table cannot be read is a dispatch failure.
The last, and that a0 is the window's physical address, are the model's readings (log 32, log 33). -/
def Obligations.TaskDispatch : Prop :=
  ∀ (s : State) (d : Nat), (s.nextCand d = none → exec (.taskDispatch d) s = .next s) ∧
    ∀ c, s.nextCand d = some c →
      (s.says d c.x = .drop → c.x.phase = .ready → s.inst? c.g.id = some c.g → c.g.fault = none → c.g.revoked = false → c.g.born = true → ∃ t : State, exec (.taskDispatch d) s = .next t ∧ s.Dropped t c.g c.i 2) ∧
      (s.says d c.x ≠ .drop → (coresOf d).find? s.idleCore = none → exec (.taskDispatch d) s = .next s) ∧
      ∀ n, s.says d c.x ≠ .drop → (coresOf d).find? s.idleCore = some n →
        (∀ key, s.says d c.x = .ask → s.streamOf c.x = some key → s.inst? c.g.id = some c.g → 65536 ≤ key → ∃ t : State, exec (.taskDispatch d) s = .next t ∧ t.mem = s.mem ∧ t.cores = s.cores ∧
          t.fabOut = s.fabOut ++ [(key / 65536 - 1, .dispatchAsk (key % 65536) d (c.x.phase == .ready))] ∧
          t.inst? c.g.id = some { c.g with nodes := c.g.nodes.modify c.i fun x => { x with asked := some (key, .waiting) } }) ∧
        (c.x.phase = .suspended → s.says d c.x ≠ .ask → ∃ t : State, exec (.taskDispatch d) s = .next t ∧ t.mem = s.mem ∧ (∀ m, m ≠ n → t.core m = s.core m) ∧
          (t.core n).hart.csrRaw 0x5C4 = BitVec.ofNat 64 c.x.save ∧ (t.core n).hart.csrBit 0x344 17 = true ∧ (t.core n).hart.run = .run ∧ (t.core n).resuming = some (c.g.id, c.i) ∧ (t.core n).descs = [] ∧ (t.core n).task = none) ∧
        (c.x.phase ≠ .suspended → s.says d c.x ≠ .ask →
          (∀ s1, Ok (hubTryVa c.g.ctx c.x.p1 64) s none s1 → s1.inst? c.g.id = some c.g → c.g.fault = none → c.g.revoked = false → c.g.born = true →
            ∃ t : State, exec (.taskDispatch d) s = .next t ∧ s1.Dropped t c.g c.i 5) ∧
          (∀ args img s1 s2 s3, Ok (hubTryVa c.g.ctx c.x.p1 64) s (some args) s1 → Ok (hubRead c.g.ctx (c.g.gbase + c.x.imgoff) 96) s1 (some img) s2 → Ok (spWrite (.hub c.g.ctx) n 0 args) s2 () s3 →
            (∀ e : Eng, fieldOf img (16 * e.num + 8) 4 = 0) → ∃ t : State, exec (.taskDispatch d) s = .next t ∧ t.mem = s3.mem ∧ (∀ m, m ≠ n → (t.core m).hart = (s3.core m).hart ∧ (t.core m).task = (s3.core m).task) ∧
              let k := t.core n
              (∃ w, k.task = some w ∧ w.inst = c.g.id ∧ w.node = c.i ∧ w.ctx = c.g.ctx ∧ w.prio = c.g.prio ∧ w.susp = bit c.x.flags 0 ∧ w.pinned = false ∧ w.pend = none ∧ w.since = s3.now ∧
                w.stream = s3.streamOf c.x) ∧
              k.hart.run = .run ∧ k.hart.priv = .u ∧ k.hart.pc = BitVec.ofNat 64 c.x.p0 ∧ k.hart.wait = none ∧ k.hart.resv = none ∧
              (∀ r : Reg, k.hart.get r = if r = 10#5 then BitVec.ofNat 64 (0x020000000000 + n * 0x1000000) else if r = 11#5 then BitVec.ofNat 64 n else 0) ∧
              k.hart.csrRaw 0x180 = s3.reg (0x030001602000 + 8 * c.g.ctx) ∧ k.hart.csrRaw 0x800 = 0 ∧ k.hart.csrRaw 0x801 = 0x1000000#64 ∧
              (∀ i, k.sem i = 0) ∧ (∀ i, k.cb i = Cb.reset) ∧ k.v = [] ∧ k.k = [] ∧ k.pj = [] ∧ k.acc = [] ∧ k.staging = Staging.empty ∧ k.suspended = false ∧ k.frozen = false ∧ k.fq = (s3.core n).fq ∧
              (∀ e, (k.ring e).read = (k.ring e).write ∧ (k.ring e).retire = (k.ring e).write ∧ (k.ring e).flight = [] ∧ (k.ring e).halted = false ∧ (k.ring e).owner = false ∧ (k.ring e).base = ((s3.core n).ring e).base) ∧
              ∀ i, s3.streamOf c.x = some i → i < 65536 → (t.stream i).live = (s3.stream i).live + 1 ∧ (t.stream i).state = if (s3.stream i).state = 1 then 2 else (s3.stream i).state))

/-! ### The hub -/

namespace Sys2Proof.Machine

/-- A line's tag that a flush takes: not staged, and picked by its test. -/
def flushed (p : CTag → Bool) (e : Nat × Option CTag) : Bool := match e.2 with
  | some t => t.staged.isNone && p t
  | none => false

/-- A flush of the tags a test picks, where every home answers (R116, R117): they all go, memory stands, and the command is in progress with nothing left dirty. -/
structure State.Flushes (s t : State) (mode : Nat) (p : CTag → Bool) : Prop where
  hub : t.hubTags = s.hubTags.filter fun e => !flushed p e
  caches : t.ccTags = s.ccTags.filter fun e => !flushed p e
  mem : t.mem = s.mem
  going : ∃ k, t.flush = some { mode := mode, a := 0, b := 0, res := 0, count := k } ∧ t.reg 0x030000201018 = 1#64

/-- Every line in a cache has a home that answers. -/
def State.homesUp (s : State) : Prop := ∀ e ∈ s.hubTags ++ s.ccTags, ∀ t, e.2 = some t → s.downWrite 0 (t.addr * 128) = none

/-- A flush of the tags a test picks has to wait (R101, R385): for a new region table, or for the release of a held write to a line that one of them holds. -/
def State.FlushHeld (s : State) (p : CTag → Bool) : Prop :=
  s.rtDrain = true ∨ ∃ h ∈ s.heldW, ∃ e ∈ s.hubTags ++ s.ccTags, ∃ t, e.2 = some t ∧ t.staged = none ∧ t.addr = h.pa / 128 ∧ p t = true

/-- The result of a write of HUBSPLIT for context `c` by the order of R115: the code and the way that code 3 names. -/
def State.SplitResult (s : State) (c v : Nat) (r : Nat × Nat) : Prop :=
  let spw := v % 16
  let wb := v / 256 % 16
  let old := (s.reg (0x030000200000 + 8 * c)).toNat
  let held := fun (b n w : Nat) => b ≤ w ∧ w < b + n
  let moved := fun (w : Nat) => ¬(held (old / 256 % 16) (old % 16) w ↔ held wb spw w) ∧ ∃ l, l < 4 ∧ Table.get false s.dirtyWays (wayPart w l) = true
  let range := 12 < spw ∨ 12 < wb + spw ∨ (spw = 0 ∧ wb ≠ 0)
  let overlap := ∃ d w, d < 256 ∧ d ≠ c ∧ held wb spw w ∧ s.holdsWay d w = true
  (range → r = (1, 0)) ∧ (¬range → overlap → r = (2, 0)) ∧
  (¬range → ¬overlap → ∀ w, w < 16 → moved w → (∀ u, u < w → ¬moved u) → r = (3, w)) ∧
  (¬range → ¬overlap → (∀ w, w < 16 → ¬moved w) → r = (if s.ctxBusy c then 4 else 0, 0))

end Sys2Proof.Machine

/-- The region table and the hub array (R100, R101, R115 to R117, R121). A COMMIT validates the staged table and reports; accepted it starts a drain, at whose end, and only then, the staged table is the active one under the next version, a dirty line a cache holds standing where the new table puts it; a COMMIT during a drain is refused with 5. A write of HUBSPLIT is checked in the order of R115 and
in any case thaws every frozen way. A flush of a range, of ways or of a context takes every line it names out of the hub and the cluster caches, a way flush also zeroing what the ways hold as scratchpad; a second command while one runs is refused with 3, bad parameters with 2; one that reaches the line of a held write waits for its release (R385), and any for the drain of a region table (R101); when it is done its ways are CLEAN, where no line whose home cannot answer is left in them.
Which line a full set gives up is no part of this (log 38); what a cache holds under a new table (log 72), that entries of the staged table that are not valid are passed over in its validation (log 71), and what becomes of a line whose home cannot answer (log 73) are the model's readings. -/
def Obligations.HubArray : Prop :=
  ∀ (s : State),
    (s.rtDrain = true → exec .regionTableCommit s = .next (s.setFld 0x030000101008 18 16 5)) ∧
    (s.rtDrain = false → ∃ t : State, exec .regionTableCommit s = .next t ∧ t.fld 0x030000101008 18 16 = s.rtCheck.1 ∧ t.fld 0x030000101008 29 24 = s.rtCheck.2 ∧ t.fld 0x030000101008 15 8 = s.fld 0x030000101008 15 8 ∧
      t.rtDrain = (s.rtCheck.1 == 0) ∧ t.mem = s.mem ∧ ∀ n, n < 64 → t.rtActive n = s.rtActive n ∧ t.rtStaged n = s.rtStaged n) ∧
    (∀ n, n < 64 → (∀ m, m < n → (s.rtStaged m).valid = false) → (s.rtStaged n).rangeBad = true → s.rtCheck = (1, n)) ∧
    (s.rtDrain = false → exec .regionTableDrainDone s = .next s) ∧
    (s.rtDrain = true → s.owed = [] → ∃ t : State, exec .regionTableDrainDone s = .next t ∧ t.rtDrain = false ∧ t.fld 0x030000101008 15 8 = (s.fld 0x030000101008 15 8 + 1) % 256 ∧
      ((∀ e ∈ s.hubTags ++ s.ccTags, ∀ g, e.2 = some g → g.dirty = false) → t.mem = s.mem) ∧
      (∀ k g h, (∀ n, n < 64 → (s.rtStaged n).rplen = false ∧ (s.rtActive n).rplen = false) → s.hubTags = [(k, some g)] → s.ccTags = [] → g.dirty = true → g.staged = none → h < 2 → let pa := g.addr * 128 + 64 * h
        t.isDram pa = true → Memory.readList t.mem (t.key pa) 64 = Memory.readList s.mem (s.key pa) 64) ∧
      ∀ n, n < 64 → t.rtActive n = s.rtStaged n ∧ t.rtStaged n = s.rtStaged n) ∧
    (∀ (c : Byte) (v : W64), s.SplitResult c.toNat v.toNat (s.splitCheck c.toNat v.toNat) ∧ ∃ t : State, exec (.hubSplitWrite c v) s = .next t ∧ t.frozenWays = [] ∧ t.mem = s.mem ∧
      t.reg 0x030000200800 = BitVec.ofNat 64 ((s.splitCheck c.toNat v.toNat).1 + c.toNat * 256 + (s.splitCheck c.toNat v.toNat).2 * 65536) ∧
      t.reg (0x030000200000 + 8 * c.toNat) = (if (s.splitCheck c.toNat v.toNat).1 = 0 then v &&& 0xF0F#64 else s.reg (0x030000200000 + 8 * c.toNat)) ∧
      ∀ d, d < 256 → d ≠ c.toNat → t.reg (0x030000200000 + 8 * d) = s.reg (0x030000200000 + 8 * d)) ∧
    (s.flush ≠ none → ∀ base len first last ctx, ∀ x ∈ [Instr.hubFlushRange base len, .hubFlushWays first last, .hubFlushContext ctx, .hubThaw], exec x s = .next (s.setFld 0x030000201018 3 1 3)) ∧
    (s.flush = none →
      exec .hubThaw s = .next { s.setReg 0x030000201018 0 with frozenWays := [] } ∧
      (∀ base len, s.rangeBad base.toNat len.toNat = true → exec (.hubFlushRange base len) s = .next (s.setReg 0x030000201018 4#64)) ∧
      (∀ (base : BitVec 52) (len : BitVec 48), (base.toNat % 128 ≠ 0 ∨ len.toNat = 0 ∨ len.toNat % 128 ≠ 0) → s.rangeBad base.toNat len.toNat = true) ∧
      (∀ (base : BitVec 52) (len : BitVec 48) pa, base.toNat ≤ pa → pa < base.toNat + len.toNat → (s.loc pa = .bad ∨ s.isMmio pa = true ∨ ∃ o, s.loc pa = .hub o) → s.rangeBad base.toNat len.toNat = true) ∧
      (∀ base len, s.rangeBad base.toNat len.toNat = false → let inside := fun (pa : Nat) => decide (base.toNat ≤ pa ∧ pa < base.toNat + len.toNat) ||
          (decide (pa < 2 ^ 39) && decide (base.toNat ≤ 2 ^ 51 + s.pkgId * 2 ^ 39 + pa ∧ 2 ^ 51 + s.pkgId * 2 ^ 39 + pa < base.toNat + len.toNat))
        (s.rtDrain = true ∨ (∃ h ∈ s.heldW, inside (h.pa / 128 * 128) = true) → exec (.hubFlushRange base len) s = .next s) ∧
        (s.rtDrain = false → (∀ h ∈ s.heldW, inside (h.pa / 128 * 128) = false) → s.homesUp → ∃ t : State, exec (.hubFlushRange base len) s = .next t ∧ s.Flushes t 0 (fun c => inside (c.addr * 128)) ∧
          t.stale = s.stale.filter fun c => t.present c.die (c.line / 2))) ∧
      (∀ ctx, s.FlushHeld (fun c => c.ctx == ctx.toNat) → exec (.hubFlushContext ctx) s = .next s) ∧
      (∀ ctx, ¬s.FlushHeld (fun c => c.ctx == ctx.toNat) → s.homesUp → ∃ t : State, exec (.hubFlushContext ctx) s = .next t ∧ s.Flushes t 2 (fun c => c.ctx == ctx.toNat)) ∧
      (∀ first last, last < first → exec (.hubFlushWays first last) s = .next (s.setReg 0x030000201018 4#64)) ∧
      (∀ first last, first ≤ last → (s.rtDrain = true ∨ ∃ h ∈ s.heldW, ∃ e ∈ s.hubTags, ∃ t, e.2 = some t ∧ t.staged = none ∧ t.addr = h.pa / 128 ∧ first.toNat ≤ e.1 / 8192 % 16 ∧ e.1 / 8192 % 16 ≤ last.toNat) →
        exec (.hubFlushWays first last) s = .next s) ∧
      (∀ first last, first ≤ last → s.rtDrain = false → (∀ h ∈ s.heldW, ∀ e ∈ s.hubTags, ∀ t, e.2 = some t → t.addr = h.pa / 128 → e.1 / 8192 % 16 < first.toNat ∨ last.toNat < e.1 / 8192 % 16) → s.homesUp → Memory.wf s.mem = true → (∀ e ∈ s.hubTags, ∀ t, e.2 = some t → t.staged = none) → ∃ t : State, exec (.hubFlushWays first last) s = .next t ∧
        (∃ k, t.flush = some { mode := 1, a := first.toNat, b := last.toNat, res := 0, count := k }) ∧ t.reg 0x030000201018 = 1#64 ∧
        let ways := fun (w : Nat) => first.toNat ≤ w ∧ w ≤ last.toNat
        (∀ w, ways w → Table.get false t.frozenWays w = true) ∧ (∀ e ∈ t.hubTags, ¬ways (e.1 / 8192 % 16)) ∧ (∀ e ∈ s.hubTags, ¬ways (e.1 / 8192 % 16) → e ∈ t.hubTags) ∧
        (∀ pa, 0x010000000000 ≤ pa → pa < 0x010040000000 → ways ((pa - 0x010000000000) / 2 ^ 26 % 16) → Memory.read t.mem pa = 0#8) ∧
        ∀ pa, ¬(0x010000000000 ≤ pa ∧ pa < 0x010040000000 ∧ ways ((pa - 0x010000000000) / 2 ^ 26 % 16)) → Memory.read t.mem pa = Memory.read s.mem pa)) ∧
    (s.flush = none → exec .hubFlushDone s = .next s) ∧
    (∀ f, s.flush = some f → f.res < 4 → ∃ t : State, exec .hubFlushDone s = .next t ∧ t.flush = none ∧ t.reg 0x030000201018 = BitVec.ofNat 64 (2 * f.res + f.count % 2 ^ 32 * 2 ^ 32) ∧ t.mem = s.mem ∧
      (∀ w, f.mode = 1 → f.a ≤ w → w ≤ f.b → (∀ e ∈ s.hubTags, e.2 ≠ none → e.1 / 8192 % 16 ≠ w) → t.clean w = true) ∧ ∀ w, f.mode ≠ 1 → t.clean w = s.clean w) ∧
    exec .predictorClear s = .next { s with dbp := [] }

/-- The swap engine, layers and the memory model's events (R125 to R127, R298, R313, R318, R320, R384, R385). A job whose PTEs or descriptor are bad ends with 1; a good one holds the page's 64 KiB, or ends with the number of lines it read before one failed, from where its commit puts them at DST with the PTEs remapped and no translation of the source page left, once no write through one is queued or held (R359). A layer trips once: its scratchpad contents are gone and contexts with ways are told;
50 µs later it is off and its lines are gone; it comes up again only with its TRIP bit clear and below its trip temperature, which is left open. A write of PHOLD releases every held write first; a held write is released when its time has come, oldest first. A rebase begins a new epoch, every clock and every stored time 0. A posted arrival is performed once no earlier one of its core waits, nor the swap engine, and the releases that it reads go on through it (R317).
Which lines have drained at a layer's deadline is free (log 2); what an ill-formed descriptor comes to is the model's choice (log 70). -/
def Obligations.HubEvents : Prop :=
  ∀ (s : State),
    (s.fld 0x030000230010 0 0 = 0 ∨ s.swap ≠ none → exec .swapJob s = .next s) ∧
    (s.fld 0x030000230010 0 0 = 1 → s.swap = none → let desc := s.fld 0x030000230000 51 5 * 32
      (∀ d ptes s1 s2, Ok (hubRead 0 desc 32) s (some d) s1 → let w := fun i => fieldOf d (8 * i) 8
        let ctx := w 2 / 256 % 256
        let home := w 2 % 4
        let pte := fun i => fieldOf ptes (8 * i) 8
        let good := w 0 < 2 ^ 52 ∧ w 1 < 2 ^ 52 ∧ w 1 % 65536 = 0 ∧ w 2 = home + ctx * 256 ∧ w 0 % 128 = 0 ∧ ∀ i, i < 16 → pteNapot (pte i) = true ∧ pte i / 1024 % 2 ^ 44 = pte 0 / 1024 % 2 ^ 44
        Ok (hubRead ctx (w 0 % 2 ^ 52) 128) s1 (some ptes) s2 →
        (¬good → ∀ s3, Ok (write64 (hubReq ctx) (desc + 24) 1) s2 () s3 → ∃ t : State, exec .swapJob s = .next t ∧ t.mem = s3.mem ∧ t.swap = none ∧ t.reg 0x030000230010 = 2#64) ∧
        (good → s2.homeLegal home (w 1) = true → s2.loc (w 1) ≠ .bad → ¬(home = 1 ∧ s2.down ctx (w 1) = some 3) → (∀ r ∈ s2.homes, r.overlaps (w 1) 65536 = false) →
          let src := pte 0 / 2 ^ 14 % 2 ^ 40 * 65536
          ∀ k bad s3, Ok (swapLines (fun i => do let _ ← readRun (hubReq ctx) (src + 128 * i) 128) 512 0) s2 (k, bad) s3 →
            (bad = none → ∃ t : State, exec .swapJob s = .next t ∧ t.mem = s3.mem ∧ t.cores = s3.cores ∧
              t.swap = some { desc := desc, src := src, dst := w 1, home := home, ctx := ctx, ptepa := w 0, res := 0, lines := 512, data := (List.range 65536).map fun o => s3.homeByte (src + o), held := [] }) ∧
            (∀ c s4, bad = some c → let res := if c = 7 then 5 else 4
              Ok (write64 (hubReq ctx) (desc + 24) (res + k * 2 ^ 32)) s3 () s4 → ∃ t : State, exec .swapJob s = .next t ∧ t.mem = s4.mem ∧ t.swap = none ∧ t.reg 0x030000230010 = BitVec.ofNat 64 (2 * res))))) ∧
    (s.swap = none → exec .swapRemapCommit s = .next s) ∧
    (∀ j, s.swap = some j → ((∃ e ∈ s.cores, ∃ q ∈ e.2.sq, q.pa / 65536 = j.src / 65536) ∨ ∃ h ∈ s.heldW, h.pa / 65536 = j.src / 65536) → exec .swapRemapCommit s = .next s) ∧
    (∀ j s1 s2 s3 s4 ptes, s.swap = some j → (∀ e ∈ s.cores, ∀ q ∈ e.2.sq, q.pa / 65536 ≠ j.src / 65536) → (∀ h ∈ s.heldW, h.pa / 65536 ≠ j.src / 65536) → Ok (swapLines (fun i => writeRun (hubReq j.ctx) (j.dst + 128 * i) ((j.data.drop (128 * i)).take 128)) 512 0) s (512, none) s1 → Ok (readRun (hubReq j.ctx) j.ptepa 128) s1 ptes s2 → j.held = [] →
      Ok (writeRun (hubReq j.ctx) j.ptepa ((List.range 16).flatMap fun i => leBytes 8 (setBits (setBits (fieldOf ptes (8 * i) 8) 53 10 (j.dst / 4096 + 8)) 9 8 j.home))) s2 () s3 →
      let u := ({ s3 with swap := none } : State).dropEverywhere fun e => decide (e.pbase < j.src + 65536 ∧ j.src < e.pbase + e.size)
      (∀ n, ∀ e ∈ (u.core n).hart.tlb ++ (u.core n).etlb, ¬(e.pbase < j.src + 65536 ∧ j.src < e.pbase + e.size)) ∧
      (Ok (write64 (hubReq j.ctx) (j.desc + 24) (j.lines * 2 ^ 32)) ((u.movePage j.src j.dst).takeWrites (.hub j.ctx)) () s4 →
      ∃ t : State, exec .swapRemapCommit s = .next t ∧ t.mem = s4.mem ∧ t.cores = s4.cores ∧ t.swap = none ∧ t.reg 0x030000230010 = 0)) ∧
    (∀ (l : BitVec 2), (s.layerDown l.toNat = true → exec (.layerThermalTrip l) s = .next s) ∧
      (s.layerDown l.toNat = false → (∀ e ∈ s.hubTags, ∀ t, e.2 = some t → t.staged ≠ none → tagLayer e.1 ≠ l.toNat) → Memory.wf s.mem = true → ∃ t : State, exec (.layerThermalTrip l) s = .next t ∧
        Table.get none t.layerTrip l.toNat = some s.datum9 ∧ t.layerDown l.toNat = true ∧ (t.reg 0x030000240000).getLsbD l.toNat = false ∧ (t.reg 0x030000240000).getLsbD (4 + l.toNat) = true ∧
        (∀ c, c < 256 → (s.reg (0x030000200000 + 8 * c)).toNat % 16 ≠ 0 → (t.reg (0x030001601000 + 8 * c)).getLsbD l.toNat = true) ∧
        let lost := fun (pa : Nat) => 0x010000000000 ≤ pa ∧ pa < 0x010040000000 ∧ pa / 128 % 64 / 16 = l.toNat
        ∀ pa, Memory.read t.mem pa = if lost pa then 0#8 else Memory.read s.mem pa) ∧
      (Table.get none s.layerTrip l.toNat = none → exec (.layerDrainDeadline l) s = .next s) ∧
      (∀ t0, Table.get none s.layerTrip l.toNat = some t0 →
        (s.datum9 < t0 + 450000 → exec (.layerDrainDeadline l) s = .next s) ∧
        (t0 + 450000 ≤ s.datum9 → ∃ t : State, exec (.layerDrainDeadline l) s = .next t ∧ Table.get none t.layerTrip l.toNat = none ∧ Table.get false t.layerOff l.toNat = true ∧
          t.hubTags = s.hubTags.filter (fun e => tagLayer e.1 != l.toNat) ∧ t.mem = s.mem ∧ t.cores = s.cores ∧
          ((∀ e ∈ s.hubTags, tagLayer e.1 = l.toNat → e.2 = none) → t.lines = s.lines ∧ t.mmio = s.mmio)))) ∧
    (∀ (m : BitVec 4), ∃ t : State, exec (.layerRestart m) s = .next t ∧ t.mem = s.mem ∧ t.cores = s.cores ∧ ∀ l, l < 4 →
      let may := m.getLsbD l && Table.get false s.layerOff l && !(s.reg 0x030000240000).getLsbD (4 + l)
      ∃ cool : Bool, Table.get false t.layerOff l = (Table.get false s.layerOff l && !(may && cool)) ∧ (t.reg 0x030000240000).getLsbD l = ((s.reg 0x030000240000).getLsbD l || (may && cool))) ∧
    (∀ v : W64, (71 < v.toNat / 2 ^ 32 % 128 → exec (.pholdWrite v) s = .next s) ∧
      (v.toNat / 2 ^ 32 % 128 ≤ 71 → s.owed = [] → ∃ t : State, exec (.pholdWrite v) s = .next t ∧ t.heldW = [] ∧ t.reg 0x030001710000 = v &&& 0xF7FFFFFFFFF#64 ∧ (s.heldW = [] → t.mem = s.mem ∧ t.cores = s.cores))) ∧
    (s.heldW = [] → exec .heldWriteRelease s = .next s) ∧
    (∀ h rest, s.heldW = h :: rest → let due := h.chosen = false ∨ (s.fld 0x030001710000 31 0 ≠ 0xFFFFFFFF ∧ h.at_ + s.fld 0x030001710000 31 0 ≤ s.now)
      (¬due → exec .heldWriteRelease s = .next s) ∧
      (∀ j, due → s.owed = [] → s.swap = some j → s.norm h.pa / 65536 = j.src / 65536 → ∃ (t : State) (g : SwapSt), exec .heldWriteRelease s = .next t ∧ t.heldW = rest ∧ t.mem = s.mem ∧ t.swap = some g ∧
        g.held.map (fun w => (w.pa, w.data)) = j.held.map (fun w => (w.pa, w.data)) ++ [(s.norm h.pa, h.data)]) ∧
      (due → s.owed = [] → s.swap = none → s.norm h.pa = h.pa → (∀ e, s.rtFind h.pa = some e → e.rplen = false) → (∀ e ∈ s.lines, e.2.diff = 0) → (∀ e ∈ s.hubTags ++ s.ccTags, ∀ g : CTag, e.2 = some g → g.diff0 = 0 ∧ g.diff1 = 0) → ∃ t : State, exec .heldWriteRelease s = .next t ∧ t.heldW = rest ∧ t.mem = Memory.writeList s.mem (s.key h.pa) h.data ∧ t.mmio = s.mmio)) ∧
    ((∀ e ∈ s.cores, e.2.clk < 2 ^ 47) → (∀ e ∈ s.scLines, e.2.wts < 2 ^ 47 ∧ e.2.rts < 2 ^ 47) → exec .scRebase s = .next s) ∧
    ((∃ e ∈ s.cores, 2 ^ 47 ≤ e.2.clk) → (∀ e ∈ s.scLines, e.2.epoch ≠ (s.epoch + 1) % 2 ^ 32) → ∃ t : State, exec .scRebase s = .next t ∧ t.epoch = (s.epoch + 1) % 2 ^ 32 ∧ t.mem = s.mem ∧
      (∀ n, (t.core n).clk = 0 ∧ (t.core n).hart = (s.core n).hart) ∧ ∀ pa, (t.scTimes pa).wts = 0 ∧ (t.scTimes pa).rts = 0) ∧
    (∀ i, s.posted[i]? = none → exec (.postedArrival i) s = .next s) ∧
    (∀ i p, s.posted[i]? = some p → ((∃ o ∈ s.posted.take i, o.core = p.core) ∨ (∃ j, s.swap = some j ∧ s.norm p.pa / 65536 = j.src / 65536) → exec (.postedArrival i) s = .next s) ∧
      ((∀ o ∈ s.posted.take i, o.core ≠ p.core) → p.pa % 8 = 0 → s.PlainHome (s.recCtx p.core).1 p.pa 8 → ∃ t : State, exec (.postedArrival i) s = .next t ∧ t.posted = s.posted.eraseIdx i ∧
        (∀ r, arriveRule (s.num p.pa 8) = some r → t.mem = Memory.writeList s.mem (s.key p.pa) (leBytes 8 r.2) ∧ s.SameBut t ∧
          ∀ c ∈ s.relCov, s.readsRelease none p.pa c = true → ∃ c' ∈ t.relCov, c'.core = c.core ∧ c'.scope = c.scope ∧ c'.lines = c.lines ∧ c'.past = false) ∧
        (arriveRule (s.num p.pa 8) = none → t.mem = s.mem ∧ ((s.core p.core).fq.length < 16 → (s.core p.core).fqHeld = [] → ∃ r, (t.core p.core).fq = (s.core p.core).fq ++ [r] ∧ r.cause = 23 ∧ r.eng = 15 ∧ r.va = p.va ∧ r.aux = s.num p.pa 8)))) ∧
    ∀ i, (s.stale[i]? = none → exec (.invalidationTaken i) s = .next s) ∧
      ∀ k, s.stale[i]? = some k → ∃ t : State, exec (.invalidationTaken i) s = .next t ∧ t.mem = s.mem ∧ t.mmio = s.mmio ∧ t.hubTags = s.hubTags ∧
        t.stale = s.stale.filter (fun o => !(o.die == k.die && o.line == k.line)) ∧ ((∀ o ∈ t.stale, ¬(o.die = k.die ∧ o.line / 2 = k.line / 2)) → t.present k.die (k.line / 2) = false) ∧
        ∀ d a, ¬(d = k.die ∧ a = k.line / 2) → t.sharers d a = s.sharers d a

/-! ### The edge of the package -/

/-- Resets and homes that come and go (R110, R360, R365, R367). GO of the firmware control checks the length and then the CRC of the image, which it reads with verification, and starts the management core at DRAM-space 0 in M-mode; package reset leaves memory alone and everything else at its reset value; a die's cores are released to idle only under running firmware. While a memory controller or the CXL link is down its home answers no access;
a function level reset of a function counts in its register, ends with BUSY 0 and leaves no core with a task of the function.
That package reset keeps memory and the check state of lines and banks, and that an image that cannot be read, which is reported, fails the check, are the model's choices (log 15, log 78). -/
def Obligations.ResetsAndHomes : Prop :=
  ∀ (s : State), let ctl := 0x030001800018
    let len := s.fld 0x030001800008 26 0
    let bad := len = 0 ∨ 2 ^ 26 < len ∨ len % 64 ≠ 0
    let image := readRun { who := .hub 0, cached := false } 0 len
    (s.fld ctl 10 8 = 1 → exec .firmwareGo s = .next s) ∧
    (s.fld ctl 10 8 ≠ 1 → bad → exec .firmwareGo s = .next (s.setFld ctl 10 8 3)) ∧
    (s.fld ctl 10 8 ≠ 1 → ¬bad → ∀ x s1, Ok image s x s1 →
      (crc32c x ≠ s.fld 0x030001800010 31 0 → exec .firmwareGo s = .next (s1.setFld ctl 10 8 2)) ∧
      (crc32c x = s.fld 0x030001800010 31 0 → exec .firmwareGo s = .next { s1.setFld ctl 10 8 1 with mgmt := { s1.mgmt with run := .run, priv := .m, pc := 0 } })) ∧
    (s.fld ctl 10 8 ≠ 1 → ¬bad → ∀ f s1, image.run s = (.error (.flt f), s1) → exec .firmwareGo s = .next ((s1.log 0x03 0x0C (if 5 ≤ f.cause ∧ f.cause ≤ 7 then f.aux2 else 0) [f.cause, f.detail, f.aux]).setFld ctl 10 8 2)) ∧
    (∃ t : State, exec .packageReset s = .next t ∧ t = { State.reset with agenda := s.agenda, freeNo := s.freeNo, focus := s.focus, ilen := s.ilen, mem := s.mem, lines := s.lines, cores := t.cores } ∧
      ((s.cores.map (·.1)).Nodup → ∀ n, t.core n = { Core.reset with flips := (s.core n).flips, linePois := (s.core n).linePois, stuck := (s.core n).stuck })) ∧
    (∀ d, s.fld ctl 10 8 ≠ 1 ∨ 12 ≤ d ∨ s.inReset d = false → exec (.coreResetRelease d) s = .next s) ∧
    (∀ d, s.fld ctl 10 8 = 1 → d < 12 → s.inReset d = true → ∃ t : State, exec (.coreResetRelease d) s = .next t ∧ t.mem = s.mem ∧ t.mmio = s.mmio ∧ (∀ e, t.inReset e = (s.inReset e && e != d)) ∧
      (∀ n ∈ coresOf d, t.core n = { s.core n with hart := { (s.core n).hart with run := .idle } }) ∧ ∀ n, n ∉ coresOf d → t.core n = s.core n) ∧
    (∀ d, d < 8 → ∃ t u : State, exec (.memoryControllerDown d) s = .next t ∧ exec (.memoryControllerUp d) s = .next u ∧ t.mem = s.mem ∧ u.mem = s.mem ∧ t.cores = s.cores ∧ u.cores = s.cores ∧
      ∀ ctx pa st o, s.loc pa = .dram st o → s.fencedAt (s.norm pa) = false → t.down ctx pa = (if st = d then some 1 else s.down ctx pa) ∧ u.down ctx pa = if st = d then none else s.down ctx pa) ∧
    (∃ t u : State, exec .cxlLinkDown s = .next t ∧ exec .cxlLinkUp s = .next u ∧ t.mem = s.mem ∧ u.mem = s.mem ∧ t.cores = s.cores ∧ u.cores = s.cores ∧
      ∀ ctx pa, s.loc pa = .host → t.down ctx pa = some 4 ∧ u.down ctx pa = none) ∧
    (∀ f, f = 0 ∨ 64 < f → exec (.functionLevelReset f) s = .next s) ∧
    (∀ f, 0 < f → f ≤ 64 → s.rtDrain = false → f ∉ s.flr → f ∉ s.flrLast → (∀ o ∈ s.owed, ∀ c a v, o ≠ .word c a v) → (∀ j, s.swap = some j → ∀ h ∈ j.held, h.core ≠ none) →
      (∀ n, n < 64 → s.fld (0x030001840000 + 32 * n) 7 7 = 1 → s.fld (0x030001840000 + 32 * n) 6 0 ≠ f) → s.insts = [] → s.qslots = [] → s.qwait = [] → s.widx = [] → (∀ e ∈ s.streams, s.ctxFn e.2.ctx ≠ f) → (∀ e ∈ s.cores, e.2.mustEnd = false ∧ e.2.sq = []) →
      ∃ t : State, exec (.functionLevelReset f) s = .next t ∧ t.fld (0x030001830000 + 8 * f) 0 0 = 0 ∧ t.fld (0x030001830000 + 8 * f) 31 16 = (s.fld (0x030001830000 + 8 * f) 31 16 + 1) % 65536 ∧ t.mem = s.mem ∧
        (∀ n k, (t.core n).task = some k → s.ctxFn k.ctx ≠ f) ∧ ∀ n, (∀ k, (s.core n).task = some k → s.ctxFn k.ctx ≠ f) → t.core n = s.core n)

/-- Host accesses (R361 to R364, R404). An access of the CXL.mem window is served where the window is open, a failing read by a poisoned completion that is logged with its fault and line; a register access of another width or alignment is unsupported; the firmware load window is memory until the firmware runs, read with verification; a function's page takes doorbells.
That the load window serves any width and alignment (log 79), and that a read outside the open CXL.mem window gets an unsupported request with all ones and a write there is dropped (log 97), are the model's choices. -/
def Obligations.HostAccesses : Prop :=
  ∀ (s : State) (off : Nat),
    let answered := fun (u t : State) (p q : Bool) (l : List Byte) => t = { u with hostOut := u.hostOut ++ [{ poisoned := p, unsupported := q, data := l }] }
    let ones := fun (len : Nat) => List.replicate len (0xFF#8)
    let reported := fun (u : State) (f : Flt) (pa len : Nat) => u.log 0x07 0x0C (if 5 ≤ f.cause ∧ f.cause ≤ 7 then f.aux2 else pa) [len, f.cause, f.detail, f.aux]
    let served := fun (len : Nat) => s.fld 0x030001800000 0 0 = 1 ∧ off + len ≤ s.fld 0x030001800000 41 32 * 2 ^ 30
    let pa := s.fld 0x030001800000 16 8 * 2 ^ 30 + off
    (∀ len, len = 0 ∨ 4096 < len → exec (.hostRead off len) s = .next s) ∧
    (∀ len, 0 < len → len ≤ 4096 →
      (off < 2 ^ 40 → ¬served len → ∃ t : State, exec (.hostRead off len) s = .next t ∧ answered s t false true (ones len)) ∧
      (off < 2 ^ 40 → served len → ∀ l s1, Ok (readRun { who := .host, cls := 3 } pa len) s l s1 → ∃ t : State, exec (.hostRead off len) s = .next t ∧ answered s1 t false false l) ∧
      (off < 2 ^ 40 → served len → ∀ f s1, (readRun { who := .host, cls := 3 } pa len).run s = (.error (.flt f), s1) → ∃ t : State, exec (.hostRead off len) s = .next t ∧ answered (reported s1 f pa len) t true false (ones len)) ∧
      (2 ^ 40 ≤ off → off < 2 ^ 41 → let o := off - 2 ^ 40
        (o % 8 ≠ 0 ∨ len ≠ 8 ∨ 2 ^ 32 ≤ o → ∃ t : State, exec (.hostRead off len) s = .next t ∧ answered s t false true (ones len)) ∧
        (∀ v s1, o % 8 = 0 → len = 8 → o < 2 ^ 32 → Ok (mmioRead .host (0x030000000000 + o)) s v s1 → ∃ t : State, exec (.hostRead off len) s = .next t ∧ answered s1 t false false (leBytes 8 v.toNat))) ∧
      (2 ^ 41 ≤ off → off < 2 ^ 42 → let o := off - 2 ^ 41
        (s.fld 0x030001800018 10 8 = 1 ∨ 2 ^ 26 < o + len → ∃ t : State, exec (.hostRead off len) s = .next t ∧ answered s t false false (ones len)) ∧
        (s.fld 0x030001800018 10 8 ≠ 1 → o + len ≤ 2 ^ 26 → let look := readRun { who := .host, cached := false, cls := 3 } o len
          (∀ l s1, Ok look s l s1 → ∃ t : State, exec (.hostRead off len) s = .next t ∧ answered s1 t false false l) ∧
          ∀ f s1, look.run s = (.error (.flt f), s1) → ∃ t : State, exec (.hostRead off len) s = .next t ∧ answered (reported s1 f o len) t true false (ones len))) ∧
      (2 ^ 42 ≤ off → let o := off - 2 ^ 42
        let f := o / 4096
        ((f = 0 ∨ 64 < f ∨ o % 8 ≠ 0 ∨ len ≠ 8) → ∃ t : State, exec (.hostRead off len) s = .next t ∧ answered s t false true (ones len)) ∧
        (0 < f → f ≤ 64 → o % 8 = 0 → len = 8 → ∃ t : State, exec (.hostRead off len) s = .next t ∧
          answered s t false false (if s.fld (0x030001830000 + 8 * f) 0 0 = 1 then ones 8 else leBytes 8 (if o % 4096 = 8 then s.fld (0x030001830000 + 8 * f) 31 16 * 65536 else 0))))) ∧
    (∀ (d : List Byte), let len := d.length
      (len = 0 ∨ 4096 < len → exec (.hostWrite off d) s = .next s) ∧
      (0 < len → len ≤ 4096 →
        (off < 2 ^ 40 → ¬served len → exec (.hostWrite off d) s = .next s) ∧
        (off < 2 ^ 40 → served len → s.PlainHome 0 pa len → ∃ t : State, exec (.hostWrite off d) s = .next t ∧ t.mem = Memory.writeList s.mem (s.key pa) d ∧ t.stale = [] ∧ s.SameBut t) ∧
        (2 ^ 40 ≤ off → off < 2 ^ 41 → let o := off - 2 ^ 40
          (o % 8 ≠ 0 ∨ len ≠ 8 ∨ 2 ^ 32 ≤ o → ∃ t : State, exec (.hostWrite off d) s = .next t ∧ answered s t false true []) ∧
          (∀ s1, o % 8 = 0 → len = 8 → o < 2 ^ 32 → Ok (mmioWrite .host (0x030000000000 + o) (BitVec.ofNat 64 (leNat d))) s () s1 → exec (.hostWrite off d) s = .next s1)) ∧
        (2 ^ 41 ≤ off → off < 2 ^ 42 → let o := off - 2 ^ 41
          ((s.fld 0x030001800018 10 8 = 1 ∨ 2 ^ 26 < o + len) → exec (.hostWrite off d) s = .next s) ∧
          (s.fld 0x030001800018 10 8 ≠ 1 → o + len ≤ 2 ^ 26 → s.PlainHome 0 o len → ∃ t : State, exec (.hostWrite off d) s = .next t ∧ t.mem = Memory.writeList s.mem (s.key o) d ∧ s.SameBut t)) ∧
        (2 ^ 42 ≤ off → let o := off - 2 ^ 42
          let f := o / 4096
          ((f = 0 ∨ 64 < f ∨ o % 8 ≠ 0 ∨ len ≠ 8) → ∃ t : State, exec (.hostWrite off d) s = .next t ∧ answered s t false true []) ∧
          (0 < f → f ≤ 64 → len = 8 → o % 4096 = 0 → exec (.hostWrite off d) s = exec (.vfDoorbell f (BitVec.ofNat 12 (leNat d))) s) ∧
          (0 < f → f ≤ 64 → len = 8 → o % 8 = 0 → o % 4096 ≠ 0 → exec (.hostWrite off d) s = .next s))))

/-- The fabric, Ethernet and the timing port (R333, R368 to R373). A flit on an open link that fails its CRC is counted, a replay only clears the count, and of one in sequence that is for this package the messages of its class are performed in order: a write, an arrival at a barrier word, a read or an atomic, each of them answered, an abandon, a Traverse block; one with more messages than its slots hold does not occur. Its credits and acknowledged number are taken over. After 8 failures the link goes down and is opened again by the firmware alone.
A check that fails as a line leaves has detection code 9 (R107, log 88).
An abandon writes status 2 and the package into a collective's status word and, once that is performed at package scope, flips its barrier. A frame leaves or arrives by a descriptor that the device owns, which it then gives back, an arriving one after its bytes are performed at package scope; either keeps its Datum time (R373). The timing port disciplines the hub's time; a step back is slewed.
The rings of a port are fields without an address (log 26); the messages' own coding, the slots that a message takes and the CRC's variant are the model's (log 82, log 83), as are the context 0 of frames, flits and collectives (log 85) and a frame of no or of more than 9,216 bytes that is not sent (log 93). -/
def Obligations.FabricAndPorts : Prop :=
  ∀ (s : State),
    (∀ (l : Nat) (body : List Byte) (crc : W64) (msgs : List FabMsg), let k := s.link l
      let flit := body ++ leBytes 8 crc.toNat
      let ends := fun (t : State) => exec (.flitReceive l body crc msgs) s = .next t
      let whole := flit.length = 256 ∧ crc64 (flit.take 248) = leNat (flit.drop 248)
      let hdr := leNat (flit.take 8)
      let src := hdr / 2 ^ 16 % 2 ^ 12
      let fit := (msgs.filter fun m => m.bytes != []).length ≤ 3 ∧ (msgs.filter fun m => m.bytes == []).length ≤ 2
      (k.up = false ∨ 8 ≤ k.fails ∨ ¬fit → ends s) ∧
      (k.up = true → k.fails < 8 → fit → ¬whole → ends (s.setLink l { k with fails := k.fails + 1 })) ∧
      (k.up = true → k.fails < 8 → fit → whole → hdr / 2 ^ 40 ≠ k.seq → ends (s.setLink l { k with fails := 0 })) ∧
      (k.up = true → k.fails < 8 → fit → whole → hdr / 2 ^ 40 = k.seq →
        let u := s.setLink l { k with fails := 0, seq := (k.seq + 1) % 2 ^ 24, credits := leNat ((flit.drop 8).take 8), acked := leNat ((flit.drop 240).take 8) }
        (hdr % 2 ^ 12 ≠ s.pkgId → ends u) ∧
        (hdr % 2 ^ 12 = s.pkgId → ∀ mine, mine = msgs.filter (fun m => m.cls == hdr / 2 ^ 32 % 4) →
          (mine = [] → ends u) ∧
          (∀ off d, mine = [.write off d] → off + d.length ≤ 2 ^ 39 → s.PlainHome 0 off d.length → ∃ t : State, ends t ∧ t.mem = Memory.writeList s.mem (s.key off) d ∧ t.links = u.links ∧ s.SameBut t) ∧
          (∀ off r, mine = [.arrive off] → s.owed = [] → off % 8 = 0 → s.PlainHome 0 off 8 → arriveRule (s.num off 8) = some r → ∃ t : State, ends t ∧ t.mem = Memory.writeList s.mem (s.key off) (leBytes 8 r.2) ∧ t.links = u.links ∧ s.SameBut t) ∧
          (∀ tag off len, mine = [.read tag off len] → let look := readRun { hubReq 0 with point := some 9 } off len
            (2 ^ 39 < off + len → ends { u with fabOut := u.fabOut ++ [(src, .failed tag 3)] }) ∧
            (∀ x u1, off + len ≤ 2 ^ 39 → Ok look u x u1 → ends { u1 with fabOut := u1.fabOut ++ [(src, .data tag x)] }) ∧
            ∀ f u1, off + len ≤ 2 ^ 39 → look.run u = (.error (.flt f), u1) →
              ∃ t : State, ends t ∧ t.fabOut = u1.fabOut ++ [(src, .failed tag f.cause)] ∧ t.mem = u1.mem ∧ t.mmio = (u1.log 0x03 0x0C (if 5 ≤ f.cause ∧ f.cause ≤ 7 then f.aux2 else 0) [f.cause, f.detail, f.aux]).mmio) ∧
          (∀ tag off r v, mine = [.rmw tag off r] → off % r.len = 0 → s.PlainHome 0 off r.len → rmwNew r (s.num off r.len) = some v →
            ∃ t : State, ends t ∧ t.mem = Memory.writeList s.mem (s.key off) (leBytes r.len v) ∧ t.fabOut = s.fabOut ++ [(src, .data tag (leBytes r.len (s.num off r.len)))] ∧ t.links = u.links ∧ s.SameBut t) ∧
          (mine = [.abandon] → s.rtDrain = true → ends s) ∧
          (mine = [.abandon] → s.rtDrain = false → exec (.flitReceive l body crc msgs) s = exec (.collectiveAbandon src) u) ∧
          (∀ i, mine = [.streamAbandon i] → i < 65536 → ((u.stream i).dpkg = src → exec (.flitReceive l body crc msgs) s = exec (.streamAbandon i) u) ∧ ((u.stream i).dpkg ≠ src → ends u)) ∧
          (∀ i idx x out, mine = [.streamBlock i idx x out] → i < 65536 → ∃ (t : State) (m : TvMsg), ends t ∧ t = { u with tvChan := u.tvChan ++ [m] } ∧ m.stream = 65536 * (src + 1) + i ∧ m.isSeal = false ∧ m.idx = idx ∧ m.data = x ∧ m.outliers = out))) ) ∧
    (∀ l, let k := s.link l
      (k.up = false ∨ k.fails < 8 → exec (.linkDown l) s = .next s) ∧
      (k.up = true → 8 ≤ k.fails → ∃ t : State, exec (.linkDown l) s = .next t ∧ t.link l = { k with up := false, fails := 0 } ∧ (∀ j, j ≠ l → t.link j = s.link j) ∧ t.mem = s.mem ∧ t.cores = s.cores) ∧
      ∀ p, (s.fld 0x030001800018 10 8 ≠ 1 ∨ k.up = true → exec (.linkOpen l p) s = .next s) ∧
        (s.fld 0x030001800018 10 8 = 1 → k.up = false → exec (.linkOpen l p) s = .next (s.setLink l { up := true, fails := 0, pkg := p % 4096, seq := 0 }))) ∧
    (∀ p, let a := fun (n : Nat) => 0x030001840000 + 32 * n
      ((∀ n, n < 64 → s.fld (a n) 7 7 = 0) → exec (.collectiveAbandon p) s = .next s) ∧
      (∀ n s1 s2 s3 w l s', n < 64 → s.fld (a n) 7 7 = 1 → (∀ m, m < 64 → m ≠ n → s.fld (a m) 7 7 = 0) → let stw := s.fld (a n + 16) 51 0
        let bar := s.fld (a n + 8) 51 0
        Ok (hubRead 0 (s.fld (a n + 24) 51 0) (2 * s.fld (a n) 27 16)) s (some l) s' → p ∈ u16s (s.fld (a n) 27 16) l → s'.owed = [] → s'.swap = none →
        Ok (write64 (hubReq 0) stw (2 + p % 4096 * 65536)) (s'.takeWrites (.hub 0)) () s1 → Ok (read64 (hubReq 0) bar) s1 w s2 →
        Ok (write64 (hubReq 0) bar (setBits (setBits w 31 16 (w % 65536)) 32 32 (1 - w / 2 ^ 32 % 2))) s2 () s3 → s3.mmio = s.mmio → exec (.collectiveAbandon p) s = .next (s3.takeWrites (.hub 0)))) ∧
    (∀ p d, 8 ≤ p → exec (.frameTransmit p) s = .next s ∧ exec (.frameReceive p d) s = .next s) ∧
    (∀ p, p < 8 → let e := s.port p
      (e.txSize = 0 → exec (.frameTransmit p) s = .next s) ∧
      (e.rxSize = 0 → ∀ d, exec (.frameReceive p d) s = .next s) ∧
      (∀ d s1, 0 < e.txSize → Ok (readRun (hubReq 0) (e.txBase + 16 * (e.txNext % e.txSize)) 16) s d s1 → let a := e.txBase + 16 * (e.txNext % e.txSize)
        (fieldOf d 10 1 % 2 = 0 ∨ fieldOf d 8 2 = 0 ∨ 9216 < fieldOf d 8 2 → exec (.frameTransmit p) s = .next s) ∧
        (∀ x s2 s3, fieldOf d 10 1 % 2 = 1 → 0 < fieldOf d 8 2 → fieldOf d 8 2 ≤ 9216 → Ok (readRun (hubReq 0) (fieldOf d 0 8) (fieldOf d 8 2)) s1 x s2 → Ok (writeRun (hubReq 0) (a + 10) [BitVec.ofNat 8 (fieldOf d 10 1 - 1)]) s2 () s3 → s3.eth = s.eth →
          exec (.frameTransmit p) s = .next (s3.setPort p { e with txNext := e.txNext + 1, sent := e.sent ++ [x], stamps := e.stamps ++ [s3.hubDatum] }))) ∧
      (∀ d x s1, 0 < e.rxSize → Ok (readRun (hubReq 0) (e.rxBase + 16 * (e.rxNext % e.rxSize)) 16) s d s1 → let a := e.rxBase + 16 * (e.rxNext % e.rxSize)
        (9216 < x.length ∨ x = [] ∨ fieldOf d 10 1 % 2 = 0 → exec (.frameReceive p x) s = .next s) ∧
        (∀ s2 s3, x ≠ [] → x.length ≤ 9216 → fieldOf d 10 1 % 2 = 1 → Ok (writeRun (hubReq 0) (fieldOf d 0 8) x) s1 () s2 → Ok (writeRun (hubReq 0) (a + 8) (leBytes 2 x.length ++ [BitVec.ofNat 8 (fieldOf d 10 1 - 1)])) (s2.takeWrites (.hub 0)) () s3 → s3.eth = s.eth →
          exec (.frameReceive p x) s = .next (s3.setPort p { e with rxNext := e.rxNext + 1, stamps := e.stamps ++ [s3.hubDatum] })))) ∧
    ∀ ns,
      (s.datum9 ≤ 9 * ns → exec (.timingPortLock ns) s = .next { s with locked := true, datum9 := 9 * ns, slew9 := 0 }) ∧
      (9 * ns < s.datum9 → exec (.timingPortLock ns) s = .next { s with locked := true, slew9 := s.datum9 - 9 * ns })

/-! ### O-dies and management -/

/-- O-dies (R389 to R392). A write of a lane map with a ring above 4 or two equal rings is refused and sets ERR, another takes effect; a heater register drives its DAC at once unless the die replays; leaving replay drives every DAC from its register, entering it sets IDX to 0. In replay a monitor answers the next sample of the log, valid, and counts IDX, or past the log's end
0 with EXH set; out of replay its conversions stand in its register. LSRUN starts the lane service core at PC with a0 = ARG, or holds it in reset.
The replay table is read under context 0 (log 85). -/
def Obligations.OpticalDies : Prop :=
  ∀ (s : State) (o : Nat) (v : W64), let b := 0x030002000000 + 0x40000 * o
    let replay := s.fld b 0 0 = 1
    (4 ≤ o → ∀ f n (rd : Reg) x, (∀ i ∈ [Instr.laneMapWrite o f v, .replayControlWrite o v, .heaterWrite o n v, .monitorConversion o n x, .laneServiceRun o v], exec i s = .next s) ∧
      ∀ a, s.byHart a → exec (.monitorReplayRead o rd) s = .next s) ∧
    (o < 4 →
      (∀ f, f < 128 → let ring := fun (k : Nat) => v.toNat / 2 ^ (4 * k) % 8
        let refused := (∃ k, k < 4 ∧ 4 < ring k) ∨ ∃ j k, j < k ∧ k < 4 ∧ ring j = ring k
        (refused → exec (.laneMapWrite o f v) s = .next (s.setFld (b + 0x400 + 8 * f) 31 31 1)) ∧
        (¬refused → exec (.laneMapWrite o f v) s = .next (s.setReg (b + 0x400 + 8 * f) (v &&& 0x7777#64)))) ∧
      (∀ n, n < 640 → ∃ t : State, exec (.heaterWrite o n v) s = .next t ∧ t.reg (b + 0x1000 + 8 * n) = v &&& 0xFFF#64 ∧ t.mem = s.mem ∧
        Table.get 0 t.dac (o * 640 + n) = (if replay then Table.get 0 s.dac (o * 640 + n) else v.toNat % 4096) ∧ ∀ m, m ≠ o * 640 + n → Table.get 0 t.dac m = Table.get 0 s.dac m) ∧
      (∃ t : State, exec (.replayControlWrite o v) s = .next t ∧ t.mem = s.mem ∧ t.fld b 0 0 = v.toNat % 2 ∧ t.fld b 31 16 = v.toNat / 2 ^ 16 % 2 ^ 16 ∧
        (v.toNat % 2 = 1 → t.fld b 47 32 = 0 ∧ t.dac = s.dac) ∧
        (v.toNat % 2 = 0 → t.fld b 47 32 = s.fld b 47 32 ∧ ∀ n, n < 640 → Table.get 0 t.dac (o * 640 + n) = s.fld (b + 0x1000 + 8 * n) 11 0) ∧
        t.fld b 48 48 = if v.toNat / 2 ^ 48 % 2 = 1 then 0 else s.fld b 48 48) ∧
      (∀ a (rd : Reg), s.byHart a →
        (¬replay → exec (.monitorReplayRead o rd) s = .next s) ∧
        (replay → s.fld b 31 16 ≤ s.fld b 47 32 → exec (.monitorReplayRead o rd) s = .next (((s.setFld b 48 48 1).setX a rd 0).fallThrough a)) ∧
        (∀ l s1, replay → s.fld b 47 32 < s.fld b 31 16 → Ok (readRun (hubReq 0) (s.fld (b + 8) 51 1 * 2 + 2 * s.fld b 47 32) 2) s l s1 →
          exec (.monitorReplayRead o rd) s = .next (((s1.setFld b 47 32 (s.fld b 47 32 + 1)).setX a rd (BitVec.ofNat 64 (leNat l % 4096 + 4096))).fallThrough a)) ∧
        (∀ x s1, replay → s.fld b 47 32 < s.fld b 31 16 → (readRun (hubReq 0) (s.fld (b + 8) 51 1 * 2 + 2 * s.fld b 47 32) 2).run s = (.error (.flt x), s1) →
          exec (.monitorReplayRead o rd) s = .next ((s1.reportFlt x).takeTrap a (x.toTrap .load 0)))) ∧
      (∀ n (x : BitVec 12), (replay ∨ 640 ≤ n → exec (.monitorConversion o n x) s = .next s) ∧
        (¬replay → n < 640 → exec (.monitorConversion o n x) s = .next (s.setReg (b + 0x3000 + 8 * n) (BitVec.ofNat 64 (x.toNat + 4096))))) ∧
      (v.toNat % 2 = 1 → s.fld (b + 0x20) 0 0 = 1 → exec (.laneServiceRun o v) s = .next s) ∧
      (v.toNat % 2 = 1 → s.fld (b + 0x20) 0 0 = 0 → ∃ t : State, exec (.laneServiceRun o v) s = .next t ∧ t.mem = s.mem ∧ t.cores = s.cores ∧ (t.lane o).run = .run ∧
        (t.lane o).pc = s.reg (b + 0x10) &&& 0xFFFFFFFFFFFFE#64 ∧ (∀ r : Reg, (t.lane o).get r = if r = 10#5 then s.reg (b + 0x18) else 0) ∧ ∀ p, p ≠ o → t.lane p = s.lane p) ∧
      (v.toNat % 2 = 0 → ∃ t : State, exec (.laneServiceRun o v) s = .next t ∧ t.mem = s.mem ∧ t.cores = s.cores ∧ (t.lane o).run = .reset ∧ t.fld (b + 0x20) 0 0 = 0))

/-- Sensors, throttles, the error log, Survey and the mailbox (R378, R396 to R400). A conversion of a die that is not reserved takes the injected value first, else under HOLD the value that stood when HOLD was set, else the sensor's; a rise across HI with the alert enabled sets the die's bit. A gate takes effect at a multiple of 8 of the common count. A software entry of the log stands at the head with the time, or counts as lost when the log is full.
A Survey source latches every bank once, and while triggered only counts as missed, but for a lower-numbered source of the same cycle, which SRC then names; REARM allows the next. A mailbox request is taken only with no other of its core under way, and is answered once.
What TSENS holds after an injection ends is the model's reading (log 37). -/
def Obligations.Management : Prop :=
  ∀ (s : State), let m := 0x030001720000
    (∀ d (x : BitVec 12), 20 ≤ d ∨ (13 ≤ d ∧ d < 16) → exec (.temperatureConversion d x) s = .next s) ∧
    (∀ d (x : BitVec 12), d < 13 ∨ (16 ≤ d ∧ d < 20) → let test := m + 0x100 + 8 * d
      let new := if s.fld test 12 12 = 1 then s.fld test 11 0 else if s.fld test 13 13 = 1 then Table.get 0 s.sens d else x.toNat
      let hi := s.fld (m + 0x200 + 8 * d) 11 0
      ∃ t : State, exec (.temperatureConversion d x) s = .next t ∧ t.mem = s.mem ∧ t.cores = s.cores ∧ t.fld (m + 8 * d) 11 0 = new ∧ t.fld (m + 8 * d) 12 12 = 1 ∧
        ∀ e, e < 20 → (t.reg (m + 0x300)).getLsbD e = ((s.reg (m + 0x300)).getLsbD e || decide (e = d ∧ s.fld (m + 8 * d) 11 0 < hi ∧ hi ≤ new ∧ s.fld (m + 0x200 + 8 * d) 12 12 = 1))) ∧
    (∀ d, (s.now % 8 ≠ 0 ∨ 12 ≤ d → exec (.throttleGateApply d) s = .next s) ∧
      (s.now % 8 = 0 → d < 12 → ∃ t : State, exec (.throttleGateApply d) s = .next t ∧ t.mem = s.mem ∧ Table.get 0 t.gate d = s.fld (m + 0x400 + 8 * d) 2 0 ∧ ∀ e, e ≠ d → Table.get 0 t.gate e = Table.get 0 s.gate e)) ∧
    (let full := (s.logHead + 1) % 256 = s.fld (m + 0x608) 7 0
      let a := m + 0x1000 + 32 * s.logHead
      (full → ∃ t : State, exec .logPush s = .next t ∧ t.logHead = s.logHead ∧ t.fld (m + 0x610) 31 0 = min (s.fld (m + 0x610) 31 0 + 1) 0xFFFFFFFF) ∧
      (¬full → s.logHead < 256 → ∃ t : State, exec .logPush s = .next t ∧ t.logHead = (s.logHead + 1) % 256 ∧ t.reg a = s.reg (m + 0x620) ∧ t.reg (a + 8) = s.reg (m + 0x628) ∧ t.reg (a + 16) = s.reg (m + 0x630) ∧
        t.reg (a + 24) = BitVec.ofNat 64 s.hubDatum ∧ t.mem = s.mem)) ∧
    (∀ x src, (x, src) ∈ [(Instr.surveyMgmtTrigger, 1), (.surveyTimeTrigger, 3)] → (x = .surveyTimeTrigger → s.timeFired = false ∧ (s.reg (m + 0x708)).toNat ≤ s.hubDatum) →
      ((s.reg (m + 0x700)).getLsbD src = false → ∃ t : State, exec x s = .next t ∧ t.mmio = s.mmio ∧ t.cores = s.cores) ∧
      ((s.reg (m + 0x700)).getLsbD src = true → s.fld (m + 0x710) 0 0 = 1 → s.svAt = s.now → ∃ t : State, exec x s = .next t ∧ t.fld (m + 0x710) 4 1 = min (s.fld (m + 0x710) 4 1) (2 ^ (src - 1)) ∧ t.fld (m + 0x710) 31 16 = s.fld (m + 0x710) 31 16 ∧ t.cores = s.cores) ∧
      ((s.reg (m + 0x700)).getLsbD src = true → s.fld (m + 0x710) 0 0 = 1 → s.svAt ≠ s.now → ∃ t : State, exec x s = .next t ∧ t.fld (m + 0x710) 31 16 = min (s.fld (m + 0x710) 31 16 + 1) 0xFFFF ∧ t.cores = s.cores) ∧
      ((s.reg (m + 0x700)).getLsbD src = true → s.fld (m + 0x710) 0 0 = 0 → ∃ t : State, exec x s = .next t ∧ t.fld (m + 0x710) 0 0 = 1 ∧ t.fld (m + 0x710) 4 1 = 2 ^ (src - 1) ∧
        t.fld (m + 0x710) 47 32 = (s.fld (m + 0x710) 47 32 + 1) % 65536 ∧ t.mem = s.mem ∧ ∀ n, n < 288 → (t.core n).hart = (s.core n).hart ∧
        Table.get 0 (t.core n).snap 0 = BitVec.ofNat 64 (s.datum (dieOf n)) ∧ Table.get 0 (t.core n).snap 1 = BitVec.ofNat 64 s.now ∧ (∀ e : Eng, Table.get 0 (t.core n).snap (2 + e.num) = ((s.core n).ring e).ptrs) ∧
        Table.get 0 (t.core n).snap 8 = (s.core n).hart.csrRaw 0x800 ∧ Table.get 0 (t.core n).snap 9 = BitVec.ofNat 64 (s.core n).fq.length ∧ Table.get 0 (t.core n).snap 10 = (s.core n).engctl)) ∧
    (((s.reg (m + 0x700)).getLsbD 3 = false ∨ s.timeFired = true ∨ s.hubDatum < (s.reg (m + 0x708)).toNat) → exec .surveyTimeTrigger s = .next s) ∧
    (exec .surveyRearm s = .next (s.setFld (m + 0x710) 4 0 0)) ∧
    (∀ n (v : W64), n < 288 → s.byCore n →
      (s.fld (0x030001700008 + 16 * n) 0 0 = 0 → exec (.mailboxRequest v) s = .next s) ∧
      (s.fld (0x030001700008 + 16 * n) 0 0 = 1 → ∃ t : State, exec (.mailboxRequest v) s = .next t ∧ t.reg (0x030001700000 + 16 * n) = v &&& 0xFFFFFFFF01FF3FFF#64 ∧ t.fld (0x030001700008 + 16 * n) 0 0 = 0 ∧
        t.mbox = s.mbox ++ [n] ∧ t.mem = s.mem ∧ t.cores = s.cores)) ∧
    ∀ n (v : W64), n < 288 → ∃ t : State, exec (.mailboxResponse n v) s = .next t ∧ t.reg (0x030001700008 + 16 * n) = v &&& 0xFFFFFFFF0000000F#64 ∧ t.mem = s.mem ∧ t.cores = s.cores ∧
      (v.toNat % 2 = 1 → n ∉ t.mbox) ∧ (v.toNat % 2 = 0 → n ∈ t.mbox)
end

