-- ==== Sys2Proof/Laws/Run.lean ====
section
/-! SUPPORT. How operations run: the monad of the model taken apart once, and what the shared runners of a control
instruction, an event and a command answer. -/
namespace Sys2Proof.Machine

variable {α β : Type}

@[simp] theorem M.run_pure (a : α) (s : State) : (pure a : M α).run s = (.ok a, s) := rfl

@[simp] theorem M.run_get (s : State) : (get : M State).run s = (.ok s, s) := rfl

@[simp] theorem M.run_set (t s : State) : (set t : M PUnit).run s = (.ok ⟨⟩, t) := rfl

@[simp] theorem M.run_modify (g : State → State) (s : State) : (modify g : M PUnit).run s = (.ok ⟨⟩, g s) := rfl

@[simp] theorem M.run_throw (e : Stop) (s : State) : (throw e : M α).run s = (.error e, s) := rfl

/-- A sequence: the second part runs where the first came to its end. -/
theorem M.run_bind (m : M α) (f : α → M β) (s : State) :
    (m >>= f).run s = match m.run s with
      | (.ok a, t) => (f a).run t
      | (.error e, t) => (.error e, t) := by
  show (ExceptT.bind m f).run s = _
  simp only [ExceptT.bind, ExceptT.mk, ExceptT.run, bind, StateT.bind]
  rcases h : m s with ⟨r, t⟩
  cases r <;> simp [ExceptT.bindCont, pure, StateT.pure]

theorem M.run_tryCatch (m : M α) (g : Stop → M α) (s : State) :
    (tryCatch m g).run s = match m.run s with
      | (.ok a, t) => (.ok a, t)
      | (.error e, t) => (g e).run t := by
  show (ExceptT.tryCatch m g).run s = _
  simp only [ExceptT.tryCatch, ExceptT.mk, ExceptT.run, bind, StateT.bind]
  rcases h : m s with ⟨r, t⟩
  cases r <;> simp [pure, StateT.pure]

theorem M.run_map (f : α → β) (m : M α) (s : State) :
    (f <$> m).run s = match m.run s with
      | (.ok a, t) => (.ok (f a), t)
      | (.error e, t) => (.error e, t) := by
  show (ExceptT.map f m).run s = _
  simp only [ExceptT.map, ExceptT.mk, ExceptT.run, bind, StateT.bind]
  rcases h : m s with ⟨r, t⟩
  cases r <;> simp [pure, StateT.pure]

@[simp] theorem M.run_bind_get (f : State → M β) (s : State) : ((get : M State) >>= f).run s = (f s).run s := by
  rw [M.run_bind]; rfl

@[simp] theorem M.run_bind_pure (a : α) (f : α → M β) (s : State) : ((pure a : M α) >>= f).run s = (f a).run s := by
  rw [M.run_bind]; rfl

@[simp] theorem M.run_bind_modify (g : State → State) (f : PUnit → M β) (s : State) :
    ((modify g : M PUnit) >>= f).run s = (f ⟨⟩).run (g s) := by
  rw [M.run_bind]; rfl

@[simp] theorem M.run_bind_set (t : State) (f : PUnit → M β) (s : State) : ((set t : M PUnit) >>= f).run s = (f ⟨⟩).run t := by
  rw [M.run_bind]; rfl

@[simp] theorem M.run_bind_throw (e : Stop) (f : α → M β) (s : State) : ((throw e : M α) >>= f).run s = (.error e, s) := by
  rw [M.run_bind]; rfl

/-! ### Operations that run to their end -/

theorem Ok.run {m : M α} {s t : State} {a : α} (h : Ok m s a t) : m.run s = (.ok a, t) := h

/-- After a part that runs to its end the rest runs from where it left. -/
theorem Ok.bind_run {m : M α} {f : α → M β} {s t : State} {a : α} (h : Ok m s a t) : (m >>= f).run s = (f a).run t := by
  rw [M.run_bind, h.run]

theorem Ok.bind {m : M α} {f : α → M β} {s t u : State} {a : α} {b : β} (h : Ok m s a t) (k : Ok (f a) t b u) :
    Ok (m >>= f) s b u := by
  rw [Ok, h.bind_run]; exact k

theorem Ok.pure (a : α) (s : State) : Ok (pure a : M α) s a s := rfl

theorem Ok.tryCatch {m : M α} {g : Stop → M α} {s t : State} {a : α} (h : Ok m s a t) : Ok (tryCatch m g) s a t := by
  rw [Ok, M.run_tryCatch, h.run]

/-- Naming the address of a fault changes nothing where there is none. -/
theorem Ok.at {m : M α} {s t : State} {a : α} (va off : Option Nat) (h : Ok m s a t) : Ok (M.at va off m) s a t := h.tryCatch

theorem Ok.asAccess {m : M α} {s t : State} {a : α} (k : AccKind) (va : Nat) (h : Ok m s a t) : Ok (M.asAccess k va m) s a t :=
  h.tryCatch

theorem Ok.det {m : M α} {s t t' : State} {a a' : α} (h : Ok m s a t) (h' : Ok m s a' t') : a = a' ∧ t = t' := by
  have := h.run.symm.trans h'.run
  exact ⟨Except.ok.inj (congrArg Prod.fst this), congrArg Prod.snd this⟩

/-! ### Running a control instruction -/

theorem runFor_ok {a : Agent} {m : M (Option W64)} {s t : State} {pc : Option W64} (h : Ok m s pc t) :
    runFor a m s = t.finishInstr a pc := by
  simp only [runFor, h.run]

theorem runFor_trap {a : Agent} {m : M (Option W64)} {s t : State} {x : Trap} (h : m.run s = (.error (.trap x), t)) :
    runFor a m s = t.takeTrap a x := by
  simp only [runFor, h]

theorem runFor_wait {a : Agent} {m : M (Option W64)} {s t : State} {k : WaitKind} (h : m.run s = (.error (.wait k), t)) :
    runFor a m s = s.enterWait a k := by
  simp only [runFor, h]

theorem runFor_stall {a : Agent} {m : M (Option W64)} {s t : State} (h : m.run s = (.error .stall, t)) :
    runFor a m s = s := by
  simp only [runFor, h]

theorem runFor_pause {a : Agent} {m : M (Option W64)} {s t : State} {o : Option Nat} (h : m.run s = (.error (.pause o), t)) :
    runFor a m s = s := by
  simp only [runFor, h]

/-- Everything a control instruction can come to. -/
theorem runFor_cases (a : Agent) (m : M (Option W64)) (s : State) :
    (∃ pc t, Ok m s pc t ∧ runFor a m s = t.finishInstr a pc) ∨
    (∃ x t, m.run s = (.error (.trap x), t) ∧ runFor a m s = t.takeTrap a x) ∨
    (∃ f t, m.run s = (.error (.flt f), t) ∧ runFor a m s = t.takeTrap a (f.toTrap .load 0)) ∨
    (∃ k t, m.run s = (.error (.wait k), t) ∧ runFor a m s = s.enterWait a k) ∨
    runFor a m s = s := by
  rcases h : m.run s with ⟨r, t⟩
  cases r with
  | ok pc => exact .inl ⟨pc, t, h, runFor_ok h⟩
  | error e =>
    cases e with
    | trap x => exact .inr (.inl ⟨x, t, rfl, runFor_trap h⟩)
    | flt f => exact .inr (.inr (.inl ⟨f, t, rfl, by simp only [runFor, h]⟩))
    | wait k => exact .inr (.inr (.inr (.inl ⟨k, t, rfl, runFor_wait h⟩)))
    | stall => exact .inr (.inr (.inr (.inr (runFor_stall h))))
    | pause o => exact .inr (.inr (.inr (.inr (runFor_pause h))))

theorem runHart_at {a : Agent} {m : Agent → M (Option W64)} {s : State} (h : s.focus = .hart a) :
    runHart m s = .next (runFor a (m a) s) := by
  simp only [runHart, h]

theorem runCore_at {n : Nat} {m : Nat → M (Option W64)} {s : State} (h : s.focus = .hart (.core n)) :
    runCore m s = .next (runFor (.core n) (m n) s) := by
  simp only [runCore, runHart, h]

/-- A custom instruction on an agent that is no control core is an illegal instruction (R388, R395). -/
theorem runCore_elsewhere {a : Agent} {m : Nat → M (Option W64)} {s : State} (h : s.focus = .hart a) (ha : a.isCore = false) :
    runCore m s = .next (s.takeTrap a { code := 2 }) := by
  cases a with
  | core n => simp [Agent.isCore] at ha
  | mgmt => simp only [runCore, runHart, h]; rfl
  | lane o => simp only [runCore, runHart, h]; rfl

/-- A control instruction of a control core that runs to its end. -/
theorem runCore_ok {n : Nat} {m : Nat → M (Option W64)} {s t : State} {pc : Option W64} (h : s.focus = .hart (.core n))
    (hm : Ok (m n) s pc t) : runCore m s = .next (t.finishInstr (.core n) pc) := by
  rw [runCore_at h, runFor_ok hm]

theorem runHart_ok {a : Agent} {m : Agent → M (Option W64)} {s t : State} {pc : Option W64} (h : s.focus = .hart a)
    (hm : Ok (m a) s pc t) : runHart m s = .next (t.finishInstr a pc) := by
  rw [runHart_at h, runFor_ok hm]

/-! ### Events and commands -/

theorem runEvent_ok {m : M Unit} {s t : State} (h : Ok m s () t) : runEvent m s = .next t := by
  simp only [runEvent, h.run]

/-- An event answers a next state always: it changes nothing, it reports the fault it met, or it is performed. -/
theorem runEvent_next (m : M Unit) (s : State) :
    ∃ t, runEvent m s = .next t ∧ (t = s ∨ (∃ f u, m.run s = (.error (.flt f), u) ∧ t = s.hubReport f) ∨ Ok m s () t) := by
  rcases h : m.run s with ⟨r, t⟩
  cases r with
  | ok x => exact ⟨t, by simp only [runEvent, h], .inr (.inr h)⟩
  | error e =>
    cases e with
    | flt f => exact ⟨s.hubReport f, by simp only [runEvent, h], .inr (.inl ⟨f, t, rfl, rfl⟩)⟩
    | _ => exact ⟨s, by simp only [runEvent, h], .inl rfl⟩

/-- An event that meets a fault reports it, and changes nothing else. -/
theorem runEvent_flt {m : M Unit} {s t : State} {f : Flt} (h : m.run s = (.error (.flt f), t)) :
    runEvent m s = .next (s.hubReport f) := by
  simp only [runEvent, h]

/-- A command that its engine works on and that comes to its end. -/
theorem runEngine_done {es : Eng → Bool} {m : Cx → M Bool} {s t : State} {n i : Nat} {e : Eng} {f : Flight}
    (h : Working s n e i f) (he : es e = true) (hm : Ok (m (s.cx n e f)) s true t) :
    runEngine es m s = .next (t.doneFlight n e f) := by
  have hm' : (m { n := n, e := e, owner := (s.ring n e).owner, f := f }).run s = (.ok true, t) := hm
  simp only [runEngine, h.focus, h.turn, he, h.ready, and_self, if_true, hm', State.doneFlight]

/-- A command whose work goes on in a later step. -/
theorem runEngine_more {es : Eng → Bool} {m : Cx → M Bool} {s t : State} {n i : Nat} {e : Eng} {f : Flight}
    (h : Working s n e i f) (he : es e = true) (hm : Ok (m (s.cx n e f)) s false t) : runEngine es m s = .next t := by
  have hm' : (m { n := n, e := e, owner := (s.ring n e).owner, f := f }).run s = (.ok false, t) := hm
  simp only [runEngine, h.focus, h.turn, he, h.ready, and_self, if_true, hm']

/-- A command that meets a fault. -/
theorem runEngine_fault {es : Eng → Bool} {m : Cx → M Bool} {s t : State} {n i : Nat} {e : Eng} {f : Flight} {x : Flt}
    (h : Working s n e i f) (he : es e = true) (hm : (m (s.cx n e f)).run s = (.error (.flt x), t)) :
    runEngine es m s = .next (t.engineFault n e f.slot x) := by
  have hm' : (m { n := n, e := e, owner := (s.ring n e).owner, f := f }).run s = (.error (.flt x), t) := hm
  simp only [runEngine, h.focus, h.turn, he, h.ready, and_self, if_true, hm']

/-- A command that is held where it stands changes nothing. -/
theorem runEngine_held {es : Eng → Bool} {m : Cx → M Bool} {s t : State} {n i : Nat} {e : Eng} {f : Flight}
    (h : Working s n e i f) (he : es e = true) (hm : (m (s.cx n e f)).run s = (.error .stall, t)) :
    runEngine es m s = .next s := by
  have hm' : (m { n := n, e := e, owner := (s.ring n e).owner, f := f }).run s = (.error .stall, t) := hm
  simp only [runEngine, h.focus, h.turn, he, h.ready, and_self, if_true, hm']

/-- A command that stops at a boundary has done what came before, and keeps where it stands. -/
theorem runEngine_pause {es : Eng → Bool} {m : Cx → M Bool} {s t : State} {n i : Nat} {e : Eng} {f : Flight} {o : Option Nat}
    (h : Working s n e i f) (he : es e = true) (hm : (m (s.cx n e f)).run s = (.error (.pause o), t)) :
    runEngine es m s = .next (t.pausedFlight n e f o) := by
  have hm' : (m { n := n, e := e, owner := (s.ring n e).owner, f := f }).run s = (.error (.pause o), t) := hm
  simp only [runEngine, h.focus, h.turn, he, h.ready, and_self, if_true, hm', State.pausedFlight]

/-- Everything a command can come to. -/
theorem runEngine_cases (es : Eng → Bool) (m : Cx → M Bool) (s : State) :
    runEngine es m s = .fault .notInFlight ∨
    ∃ n e i f, Working s n e i f ∧ es e = true ∧
      ((∃ t, Ok (m (s.cx n e f)) s true t ∧ runEngine es m s = .next (t.doneFlight n e f)) ∨
       (∃ t, Ok (m (s.cx n e f)) s false t ∧ runEngine es m s = .next t) ∨
       (∃ x t, (m (s.cx n e f)).run s = (.error (.flt x), t) ∧ runEngine es m s = .next (t.engineFault n e f.slot x)) ∨
       (∃ o t, (m (s.cx n e f)).run s = (.error (.pause o), t) ∧ runEngine es m s = .next (t.pausedFlight n e f o)) ∨
       runEngine es m s = .next s) := by
  cases hf : s.focus with
  | hart a => exact .inl (by simp only [runEngine, hf])
  | hub => exact .inl (by simp only [runEngine, hf])
  | flight n e i =>
    cases ht : (s.ring n e).turnOf i with
    | none => exact .inl (by simp only [runEngine, hf, ht])
    | some f =>
      by_cases hc : es e = true ∧ f.phase = .ready
      · refine .inr ⟨n, e, i, f, ⟨hf, ht, hc.2⟩, hc.1, ?_⟩
        have hw : Working s n e i f := ⟨hf, ht, hc.2⟩
        rcases hr : (m (s.cx n e f)).run s with ⟨r, t⟩
        cases r with
        | ok b =>
          cases b with
          | true => exact .inl ⟨t, hr, runEngine_done hw hc.1 hr⟩
          | false => exact .inr (.inl ⟨t, hr, runEngine_more hw hc.1 hr⟩)
        | error x =>
          have hr' : (m { n := n, e := e, owner := (s.ring n e).owner, f := f }).run s = (.error x, t) := hr
          cases x with
          | flt y => exact .inr (.inr (.inl ⟨y, t, rfl, runEngine_fault hw hc.1 hr⟩))
          | pause o => exact .inr (.inr (.inr (.inl ⟨o, t, rfl, runEngine_pause hw hc.1 hr⟩)))
          | trap y =>
            refine .inr (.inr (.inr (.inr ?_)))
            simp only [runEngine, hf, ht, if_pos hc, hr']
          | wait y =>
            refine .inr (.inr (.inr (.inr ?_)))
            simp only [runEngine, hf, ht, if_pos hc, hr']
          | stall =>
            refine .inr (.inr (.inr (.inr ?_)))
            simp only [runEngine, hf, ht, if_pos hc, hr']
      · exact .inl (by simp only [runEngine, hf, ht, if_neg hc])

end Sys2Proof.Machine
end

