-- ==== Sys2Proof/Laws/Table.lean ====
section
/-! SUPPORT. Laws of sparse tables and of memory: a read after a write, the canonical form kept by every write, and what a
run of bytes written reads as. -/
namespace Sys2Proof

section
variable {α : Type} [DecidableEq α] {d : α}

omit [DecidableEq α] in
@[simp] theorem Table.get_nil (k : Nat) : Table.get d ([] : Table α) k = d := rfl

/-- A read after a write of the same key. -/
@[simp] theorem Table.get_put_same (t : Table α) (k : Nat) (v : α) : Table.get d (Table.put d t k v) k = v := by
  induction t with
  | nil => by_cases h : v = d <;> simp [Table.put, Table.get, h]
  | cons e r ih =>
    obtain ⟨k', v'⟩ := e
    simp only [Table.put]
    split_ifs with h1 h2 h3 h4
    · exact ih
    · simp [Table.get, h2, ih]
    · simp [Table.get]
    · simp [Table.get]
    · simp [Table.get, h4, ih]

/-- A write leaves every other key alone, whatever default it is read with. -/
theorem Table.get_put_ne_any {d' : α} (t : Table α) {k j : Nat} (v : α) (h : j ≠ k) :
    Table.get d' (Table.put d t k v) j = Table.get d' t j := by
  induction t with
  | nil => by_cases hv : v = d <;> simp [Table.put, Table.get, hv, h]
  | cons e r ih =>
    obtain ⟨k', v'⟩ := e
    simp only [Table.put]
    split_ifs with h1 h2 h3 h4
    · subst h2; simp [Table.get, h, ih]
    · simp [Table.get, ih]
    · simp [Table.get, h]
    · subst h4; simp [Table.get, h]
    · simp [Table.get, ih]

/-- A write leaves every other key alone. -/
@[simp] theorem Table.get_put_ne (t : Table α) {k j : Nat} (v : α) (h : j ≠ k) :
    Table.get d (Table.put d t k v) j = Table.get d t j := Table.get_put_ne_any t v h

theorem Table.get_put (t : Table α) (k j : Nat) (v : α) :
    Table.get d (Table.put d t k v) j = if j = k then v else Table.get d t j := by
  by_cases h : j = k
  · subst h; simp
  · simp [h]

theorem Table.okFrom_mono {t : Table α} {a b : Nat} (h : a ≤ b) (ht : Table.okFrom d b t = true) :
    Table.okFrom d a t = true := by
  cases t with
  | nil => rfl
  | cons e r =>
    obtain ⟨k, v⟩ := e
    simp only [Table.okFrom, Bool.and_eq_true, decide_eq_true_eq] at ht ⊢
    exact ⟨⟨by omega, ht.1.2⟩, ht.2⟩

/-- Deleting a key below the least one changes nothing. -/
theorem Table.put_below (t : Table α) {k b : Nat} (h : k < b) (ht : Table.okFrom d b t = true) : Table.put d t k d = t := by
  induction t generalizing b with
  | nil => simp [Table.put]
  | cons e r ih =>
    obtain ⟨q, w⟩ := e
    simp only [Table.okFrom, Bool.and_eq_true, decide_eq_true_eq] at ht
    have hq : k ≠ q := by omega
    simp only [Table.put, if_true, if_neg hq]
    rw [ih (show k < q + 1 by omega) ht.2]

theorem Table.put_okFrom (t : Table α) (lo k : Nat) (v : α) (hk : lo ≤ k) (ht : Table.okFrom d lo t = true) :
    Table.okFrom d lo (Table.put d t k v) = true := by
  induction t generalizing lo with
  | nil => by_cases h : v = d <;> simp [Table.put, Table.okFrom, h, hk]
  | cons e r ih =>
    obtain ⟨k', v'⟩ := e
    simp only [Table.okFrom, Bool.and_eq_true, decide_eq_true_eq] at ht
    obtain ⟨⟨h1, h2⟩, h3⟩ := ht
    simp only [Table.put]
    split_ifs with hv hkk hlt heq
    · exact ih lo hk (Table.okFrom_mono (by omega) h3)
    · simp only [Table.okFrom, Bool.and_eq_true, decide_eq_true_eq]
      refine ⟨⟨h1, h2⟩, ?_⟩
      rcases Nat.lt_or_gt_of_ne hkk with hlt | hgt
      · subst hv
        rw [Table.put_below r (show k < k' + 1 by omega) h3]
        exact h3
      · exact ih (k' + 1) (by omega) h3
    · simp only [Table.okFrom, Bool.and_eq_true, decide_eq_true_eq]
      exact ⟨⟨hk, hv⟩, ⟨by omega, h2⟩, h3⟩
    · subst heq
      simp only [Table.okFrom, Bool.and_eq_true, decide_eq_true_eq]
      exact ⟨⟨hk, hv⟩, h3⟩
    · simp only [Table.okFrom, Bool.and_eq_true, decide_eq_true_eq]
      exact ⟨⟨h1, h2⟩, ih (k' + 1) (by omega) h3⟩

/-- A write keeps the canonical form. -/
theorem Table.put_wf {t : Table α} (k : Nat) (v : α) (ht : Table.wf d t = true) : Table.wf d (Table.put d t k v) = true :=
  Table.put_okFrom t 0 k v (Nat.zero_le _) ht

theorem Table.dropWhere_okFrom (p : Nat → Bool) (t : Table α) (lo : Nat) (ht : Table.okFrom d lo t = true) :
    Table.okFrom d lo (Table.dropWhere p t) = true := by
  induction t generalizing lo with
  | nil => rfl
  | cons e r ih =>
    obtain ⟨k, v⟩ := e
    simp only [Table.okFrom, Bool.and_eq_true, decide_eq_true_eq] at ht
    obtain ⟨⟨h1, h2⟩, h3⟩ := ht
    by_cases hp : p k = true
    · have : Table.dropWhere p ((k, v) :: r) = Table.dropWhere p r := by simp [Table.dropWhere, hp]
      rw [this]
      exact ih lo (Table.okFrom_mono (by omega) h3)
    · have : Table.dropWhere p ((k, v) :: r) = (k, v) :: Table.dropWhere p r := by simp [Table.dropWhere, hp]
      rw [this]
      simp only [Table.okFrom, Bool.and_eq_true, decide_eq_true_eq]
      exact ⟨⟨h1, h2⟩, ih (k + 1) h3⟩

/-- Dropping entries keeps the canonical form. -/
theorem Table.dropWhere_wf (p : Nat → Bool) {t : Table α} (ht : Table.wf d t = true) :
    Table.wf d (Table.dropWhere p t) = true := Table.dropWhere_okFrom p t 0 ht

omit [DecidableEq α] in
/-- A dropped key reads as the default, any other as before. -/
theorem Table.get_dropWhere (p : Nat → Bool) (t : Table α) (k : Nat) :
    Table.get d (Table.dropWhere p t) k = if p k then d else Table.get d t k := by
  induction t with
  | nil => simp [Table.dropWhere]
  | cons e r ih =>
    obtain ⟨q, v⟩ := e
    by_cases hp : p q = true
    · have : Table.dropWhere p ((q, v) :: r) = Table.dropWhere p r := by simp [Table.dropWhere, hp]
      rw [this, ih]
      by_cases hk : k = q
      · subst hk; simp [hp]
      · simp [Table.get, hk]
    · have : Table.dropWhere p ((q, v) :: r) = (q, v) :: Table.dropWhere p r := by simp [Table.dropWhere, hp]
      rw [this]
      by_cases hk : k = q
      · subst hk; simp [Table.get, hp]
      · simp [Table.get, hk, ih]

/-- Below the least key of a canonical table every key reads as the default. -/
theorem Table.get_below {t : Table α} {lo k : Nat} (ht : Table.okFrom d lo t = true) (hk : k < lo) : Table.get d t k = d := by
  induction t generalizing lo with
  | nil => rfl
  | cons e r ih =>
    obtain ⟨q, v⟩ := e
    simp only [Table.okFrom, Bool.and_eq_true, decide_eq_true_eq] at ht
    have : k ≠ q := by omega
    simp [Table.get, this, ih ht.2 (by omega)]

/-- Canonical tables that read alike are equal. -/
theorem Table.ext_okFrom {t u : Table α} {lo : Nat} (ht : Table.okFrom d lo t = true) (hu : Table.okFrom d lo u = true)
    (h : ∀ k, Table.get d t k = Table.get d u k) : t = u := by
  induction t generalizing u lo with
  | nil =>
    cases u with
    | nil => rfl
    | cons e r =>
      obtain ⟨q, v⟩ := e
      simp only [Table.okFrom, Bool.and_eq_true, decide_eq_true_eq] at hu
      have := h q
      simp [Table.get] at this
      exact absurd this.symm hu.1.2
  | cons e r ih =>
    obtain ⟨q, v⟩ := e
    cases u with
    | nil =>
      simp only [Table.okFrom, Bool.and_eq_true, decide_eq_true_eq] at ht
      have := h q
      simp [Table.get] at this
      exact absurd this ht.1.2
    | cons e' r' =>
      obtain ⟨q', v'⟩ := e'
      simp only [Table.okFrom, Bool.and_eq_true, decide_eq_true_eq] at ht hu
      have hq : q = q' := by
        rcases Nat.lt_trichotomy q q' with hlt | heq | hgt
        · have h1 := h q
          rw [show Table.get d ((q', v') :: r') q = d by
            simp [Table.get, Nat.ne_of_lt hlt, Table.get_below hu.2 (show q < q' + 1 by omega)]] at h1
          simp [Table.get] at h1
          exact absurd h1 ht.1.2
        · exact heq
        · have h1 := h q'
          rw [show Table.get d ((q, v) :: r) q' = d by
            simp [Table.get, Nat.ne_of_lt hgt, Table.get_below ht.2 (show q' < q + 1 by omega)]] at h1
          simp [Table.get] at h1
          exact absurd h1.symm hu.1.2
      subst hq
      have hv : v = v' := by simpa [Table.get] using h q
      subst hv
      have : r = r' := by
        apply ih ht.2 hu.2
        intro k
        by_cases hk : k = q
        · subst hk
          rw [Table.get_below ht.2 (by omega), Table.get_below hu.2 (by omega)]
        · simpa [Table.get, hk] using h k
      rw [this]

theorem Table.ext {t u : Table α} (ht : Table.wf d t = true) (hu : Table.wf d u = true)
    (h : ∀ k, Table.get d t k = Table.get d u k) : t = u := Table.ext_okFrom ht hu h

end

namespace Machine

/-! ### Memory -/

theorem Memory.read_write (m : List Host.Cell) (k j : Nat) (b : Byte) :
    Memory.read (Memory.write m k b) j = if j = k then b else Memory.read m j := Table.get_put m k j b

theorem Memory.write_wf {m : List Host.Cell} (k : Nat) (b : Byte) (h : Memory.wf m = true) :
    Memory.wf (Memory.write m k b) = true := Table.put_wf k b h

/-- Writing a run keeps the canonical form. -/
theorem Memory.writeList_wf {m : List Host.Cell} (l : List Byte) (k : Nat) (h : Memory.wf m = true) :
    Memory.wf (Memory.writeList m k l) = true := by
  induction l generalizing m k with
  | nil => exact h
  | cons b r ih => exact ih (k + 1) (Memory.write_wf k b h)

/-- What a byte reads as after a run was written. -/
theorem Memory.read_writeList (m : List Host.Cell) (l : List Byte) (k j : Nat) :
    Memory.read (Memory.writeList m k l) j = if k ≤ j then (l[j - k]?).getD (Memory.read m j) else Memory.read m j := by
  induction l generalizing m k with
  | nil => simp [Memory.writeList]
  | cons b r ih =>
    rw [Memory.writeList, ih, Memory.read_write]
    by_cases h1 : k + 1 ≤ j
    · have h2 : k ≤ j := by omega
      have h3 : j ≠ k := by omega
      have h4 : j - k = (j - (k + 1)) + 1 := by omega
      simp [h1, h2, h3, h4]
    · by_cases h2 : j = k
      · subst h2; simp
      · have h3 : ¬ k ≤ j := by omega
        simp [h1, h2, h3]

/-- Bytes outside a run are left alone. -/
theorem Memory.read_writeList_out (m : List Host.Cell) (l : List Byte) (k j : Nat) (h : j < k ∨ k + l.length ≤ j) :
    Memory.read (Memory.writeList m k l) j = Memory.read m j := by
  rw [Memory.read_writeList]
  split
  · rw [List.getElem?_eq_none (by omega)]; rfl
  · rfl

theorem Memory.length_readList (m : List Host.Cell) (k n : Nat) : (Memory.readList m k n).length = n := by
  simp [Memory.readList, span]

/-- A run that was written reads back. -/
theorem Memory.readList_writeList (m : List Host.Cell) (l : List Byte) (k : Nat) :
    Memory.readList (Memory.writeList m k l) k l.length = l := by
  apply List.ext_getElem
  · exact Memory.length_readList _ _ _
  · intro i h1 h2
    simp only [Memory.readList, span, List.map_map, List.getElem_map, List.getElem_range, Function.comp_apply]
    rw [Memory.read_writeList]
    simp [List.getElem?_eq_getElem h2]

theorem Memory.wf_nil : Memory.wf [] = true := rfl

/-- After package reset memory has its canonical form. -/
theorem State.reset_memWf : Memory.wf State.reset.mem = true := rfl

end Machine
end Sys2Proof
end

