-- ==== Sys2Proof/Laws/State.lean ====
section
/-! SUPPORT. What each update of the state leaves alone, field by field, and what it writes: by these no proof unfolds a
record update. -/
namespace Sys2Proof.Machine

/-! ### A core is replaced -/

@[simp] theorem State.setCore_agenda (s : State) (n : Nat) (c : Core) : (s.setCore n c).agenda = s.agenda := rfl
@[simp] theorem State.setCore_freeNo (s : State) (n : Nat) (c : Core) : (s.setCore n c).freeNo = s.freeNo := rfl
@[simp] theorem State.setCore_focus (s : State) (n : Nat) (c : Core) : (s.setCore n c).focus = s.focus := rfl
@[simp] theorem State.setCore_ilen (s : State) (n : Nat) (c : Core) : (s.setCore n c).ilen = s.ilen := rfl
@[simp] theorem State.setCore_now (s : State) (n : Nat) (c : Core) : (s.setCore n c).now = s.now := rfl
@[simp] theorem State.setCore_datum9 (s : State) (n : Nat) (c : Core) : (s.setCore n c).datum9 = s.datum9 := rfl
@[simp] theorem State.setCore_slew9 (s : State) (n : Nat) (c : Core) : (s.setCore n c).slew9 = s.slew9 := rfl
@[simp] theorem State.setCore_left (s : State) (n : Nat) (c : Core) : (s.setCore n c).left = s.left := rfl
@[simp] theorem State.setCore_slow (s : State) (n : Nat) (c : Core) : (s.setCore n c).slow = s.slow := rfl
@[simp] theorem State.setCore_slewAcc (s : State) (n : Nat) (c : Core) : (s.setCore n c).slewAcc = s.slewAcc := rfl
@[simp] theorem State.setCore_locked (s : State) (n : Nat) (c : Core) : (s.setCore n c).locked = s.locked := rfl
@[simp] theorem State.setCore_mem (s : State) (n : Nat) (c : Core) : (s.setCore n c).mem = s.mem := rfl
@[simp] theorem State.setCore_lines (s : State) (n : Nat) (c : Core) : (s.setCore n c).lines = s.lines := rfl
@[simp] theorem State.setCore_mmio (s : State) (n : Nat) (c : Core) : (s.setCore n c).mmio = s.mmio := rfl
@[simp] theorem State.setCore_mgmt (s : State) (n : Nat) (c : Core) : (s.setCore n c).mgmt = s.mgmt := rfl
@[simp] theorem State.setCore_lanes (s : State) (n : Nat) (c : Core) : (s.setCore n c).lanes = s.lanes := rfl
@[simp] theorem State.setCore_dac (s : State) (n : Nat) (c : Core) : (s.setCore n c).dac = s.dac := rfl
@[simp] theorem State.setCore_coreReset (s : State) (n : Nat) (c : Core) : (s.setCore n c).coreReset = s.coreReset := rfl
@[simp] theorem State.setCore_ctrlDown (s : State) (n : Nat) (c : Core) : (s.setCore n c).ctrlDown = s.ctrlDown := rfl
@[simp] theorem State.setCore_cxlDown (s : State) (n : Nat) (c : Core) : (s.setCore n c).cxlDown = s.cxlDown := rfl
@[simp] theorem State.setCore_gate (s : State) (n : Nat) (c : Core) : (s.setCore n c).gate = s.gate := rfl
@[simp] theorem State.setCore_rtDrain (s : State) (n : Nat) (c : Core) : (s.setCore n c).rtDrain = s.rtDrain := rfl
@[simp] theorem State.setCore_homes (s : State) (n : Nat) (c : Core) : (s.setCore n c).homes = s.homes := rfl
@[simp] theorem State.setCore_dieTlb (s : State) (n : Nat) (c : Core) : (s.setCore n c).dieTlb = s.dieTlb := rfl
@[simp] theorem State.setCore_tlbInv (s : State) (n : Nat) (c : Core) : (s.setCore n c).tlbInv = s.tlbInv := rfl
@[simp] theorem State.setCore_hubTags (s : State) (n : Nat) (c : Core) : (s.setCore n c).hubTags = s.hubTags := rfl
@[simp] theorem State.setCore_ccTags (s : State) (n : Nat) (c : Core) : (s.setCore n c).ccTags = s.ccTags := rfl
@[simp] theorem State.setCore_stamp (s : State) (n : Nat) (c : Core) : (s.setCore n c).stamp = s.stamp := rfl
@[simp] theorem State.setCore_dbp (s : State) (n : Nat) (c : Core) : (s.setCore n c).dbp = s.dbp := rfl
@[simp] theorem State.setCore_dbpSample (s : State) (n : Nat) (c : Core) : (s.setCore n c).dbpSample = s.dbpSample := rfl
@[simp] theorem State.setCore_frozenWays (s : State) (n : Nat) (c : Core) : (s.setCore n c).frozenWays = s.frozenWays := rfl
@[simp] theorem State.setCore_dirtyWays (s : State) (n : Nat) (c : Core) : (s.setCore n c).dirtyWays = s.dirtyWays := rfl
@[simp] theorem State.setCore_layerOff (s : State) (n : Nat) (c : Core) : (s.setCore n c).layerOff = s.layerOff := rfl
@[simp] theorem State.setCore_layerTrip (s : State) (n : Nat) (c : Core) : (s.setCore n c).layerTrip = s.layerTrip := rfl
@[simp] theorem State.setCore_flush (s : State) (n : Nat) (c : Core) : (s.setCore n c).flush = s.flush := rfl
@[simp] theorem State.setCore_swap (s : State) (n : Nat) (c : Core) : (s.setCore n c).swap = s.swap := rfl
@[simp] theorem State.setCore_stale (s : State) (n : Nat) (c : Core) : (s.setCore n c).stale = s.stale := rfl
@[simp] theorem State.setCore_heldW (s : State) (n : Nat) (c : Core) : (s.setCore n c).heldW = s.heldW := rfl
@[simp] theorem State.setCore_burst (s : State) (n : Nat) (c : Core) : (s.setCore n c).burst = s.burst := rfl
@[simp] theorem State.setCore_svAt (s : State) (n : Nat) (c : Core) : (s.setCore n c).svAt = s.svAt := rfl
@[simp] theorem State.setCore_sens (s : State) (n : Nat) (c : Core) : (s.setCore n c).sens = s.sens := rfl
@[simp] theorem State.setCore_flrLast (s : State) (n : Nat) (c : Core) : (s.setCore n c).flrLast = s.flrLast := rfl
@[simp] theorem State.setCore_scLines (s : State) (n : Nat) (c : Core) : (s.setCore n c).scLines = s.scLines := rfl
@[simp] theorem State.setCore_epoch (s : State) (n : Nat) (c : Core) : (s.setCore n c).epoch = s.epoch := rfl
@[simp] theorem State.setCore_posted (s : State) (n : Nat) (c : Core) : (s.setCore n c).posted = s.posted := rfl
@[simp] theorem State.setCore_landings (s : State) (n : Nat) (c : Core) : (s.setCore n c).landings = s.landings := rfl
@[simp] theorem State.setCore_landDone (s : State) (n : Nat) (c : Core) : (s.setCore n c).landDone = s.landDone := rfl
@[simp] theorem State.setCore_savedSets (s : State) (n : Nat) (c : Core) : (s.setCore n c).savedSets = s.savedSets := rfl
@[simp] theorem State.setCore_depCnt (s : State) (n : Nat) (c : Core) : (s.setCore n c).depCnt = s.depCnt := rfl
@[simp] theorem State.setCore_depUsed (s : State) (n : Nat) (c : Core) : (s.setCore n c).depUsed = s.depUsed := rfl
@[simp] theorem State.setCore_insts (s : State) (n : Nat) (c : Core) : (s.setCore n c).insts = s.insts := rfl
@[simp] theorem State.setCore_instNo (s : State) (n : Nat) (c : Core) : (s.setCore n c).instNo = s.instNo := rfl
@[simp] theorem State.setCore_qslots (s : State) (n : Nat) (c : Core) : (s.setCore n c).qslots = s.qslots := rfl
@[simp] theorem State.setCore_qwait (s : State) (n : Nat) (c : Core) : (s.setCore n c).qwait = s.qwait := rfl
@[simp] theorem State.setCore_widx (s : State) (n : Nat) (c : Core) : (s.setCore n c).widx = s.widx := rfl
@[simp] theorem State.setCore_streams (s : State) (n : Nat) (c : Core) : (s.setCore n c).streams = s.streams := rfl
@[simp] theorem State.setCore_tvChan (s : State) (n : Nat) (c : Core) : (s.setCore n c).tvChan = s.tvChan := rfl
@[simp] theorem State.setCore_tvReply (s : State) (n : Nat) (c : Core) : (s.setCore n c).tvReply = s.tvReply := rfl
@[simp] theorem State.setCore_logHead (s : State) (n : Nat) (c : Core) : (s.setCore n c).logHead = s.logHead := rfl
@[simp] theorem State.setCore_mbox (s : State) (n : Nat) (c : Core) : (s.setCore n c).mbox = s.mbox := rfl
@[simp] theorem State.setCore_timeFired (s : State) (n : Nat) (c : Core) : (s.setCore n c).timeFired = s.timeFired := rfl
@[simp] theorem State.setCore_links (s : State) (n : Nat) (c : Core) : (s.setCore n c).links = s.links := rfl
@[simp] theorem State.setCore_eth (s : State) (n : Nat) (c : Core) : (s.setCore n c).eth = s.eth := rfl
@[simp] theorem State.setCore_hostOut (s : State) (n : Nat) (c : Core) : (s.setCore n c).hostOut = s.hostOut := rfl
@[simp] theorem State.setCore_fabOut (s : State) (n : Nat) (c : Core) : (s.setCore n c).fabOut = s.fabOut := rfl
@[simp] theorem State.setCore_flr (s : State) (n : Nat) (c : Core) : (s.setCore n c).flr = s.flr := rfl
@[simp] theorem State.setCore_owed (s : State) (n : Nat) (c : Core) : (s.setCore n c).owed = s.owed := rfl
@[simp] theorem State.setCore_relCov (s : State) (n : Nat) (c : Core) : (s.setCore n c).relCov = s.relCov := rfl
@[simp] theorem State.setCore_foreign (s : State) (n : Nat) (c : Core) : (s.setCore n c).foreign = s.foreign := rfl

@[simp] theorem State.core_setCore (s : State) (n : Nat) (c : Core) : (s.setCore n c).core n = c := Table.get_put_same _ _ _

@[simp] theorem State.core_setCore_ne (s : State) {n m : Nat} (c : Core) (h : m ≠ n) : (s.setCore n c).core m = s.core m :=
  Table.get_put_ne _ _ h

/-! ### A core is changed -/

@[simp] theorem State.modCore_agenda (s : State) (n : Nat) (g : Core → Core) : (s.modCore n g).agenda = s.agenda := rfl
@[simp] theorem State.modCore_freeNo (s : State) (n : Nat) (g : Core → Core) : (s.modCore n g).freeNo = s.freeNo := rfl
@[simp] theorem State.modCore_focus (s : State) (n : Nat) (g : Core → Core) : (s.modCore n g).focus = s.focus := rfl
@[simp] theorem State.modCore_ilen (s : State) (n : Nat) (g : Core → Core) : (s.modCore n g).ilen = s.ilen := rfl
@[simp] theorem State.modCore_now (s : State) (n : Nat) (g : Core → Core) : (s.modCore n g).now = s.now := rfl
@[simp] theorem State.modCore_datum9 (s : State) (n : Nat) (g : Core → Core) : (s.modCore n g).datum9 = s.datum9 := rfl
@[simp] theorem State.modCore_slew9 (s : State) (n : Nat) (g : Core → Core) : (s.modCore n g).slew9 = s.slew9 := rfl
@[simp] theorem State.modCore_left (s : State) (n : Nat) (g : Core → Core) : (s.modCore n g).left = s.left := rfl
@[simp] theorem State.modCore_slow (s : State) (n : Nat) (g : Core → Core) : (s.modCore n g).slow = s.slow := rfl
@[simp] theorem State.modCore_slewAcc (s : State) (n : Nat) (g : Core → Core) : (s.modCore n g).slewAcc = s.slewAcc := rfl
@[simp] theorem State.modCore_locked (s : State) (n : Nat) (g : Core → Core) : (s.modCore n g).locked = s.locked := rfl
@[simp] theorem State.modCore_mem (s : State) (n : Nat) (g : Core → Core) : (s.modCore n g).mem = s.mem := rfl
@[simp] theorem State.modCore_lines (s : State) (n : Nat) (g : Core → Core) : (s.modCore n g).lines = s.lines := rfl
@[simp] theorem State.modCore_mmio (s : State) (n : Nat) (g : Core → Core) : (s.modCore n g).mmio = s.mmio := rfl
@[simp] theorem State.modCore_mgmt (s : State) (n : Nat) (g : Core → Core) : (s.modCore n g).mgmt = s.mgmt := rfl
@[simp] theorem State.modCore_lanes (s : State) (n : Nat) (g : Core → Core) : (s.modCore n g).lanes = s.lanes := rfl
@[simp] theorem State.modCore_dac (s : State) (n : Nat) (g : Core → Core) : (s.modCore n g).dac = s.dac := rfl
@[simp] theorem State.modCore_coreReset (s : State) (n : Nat) (g : Core → Core) : (s.modCore n g).coreReset = s.coreReset := rfl
@[simp] theorem State.modCore_ctrlDown (s : State) (n : Nat) (g : Core → Core) : (s.modCore n g).ctrlDown = s.ctrlDown := rfl
@[simp] theorem State.modCore_cxlDown (s : State) (n : Nat) (g : Core → Core) : (s.modCore n g).cxlDown = s.cxlDown := rfl
@[simp] theorem State.modCore_gate (s : State) (n : Nat) (g : Core → Core) : (s.modCore n g).gate = s.gate := rfl
@[simp] theorem State.modCore_rtDrain (s : State) (n : Nat) (g : Core → Core) : (s.modCore n g).rtDrain = s.rtDrain := rfl
@[simp] theorem State.modCore_homes (s : State) (n : Nat) (g : Core → Core) : (s.modCore n g).homes = s.homes := rfl
@[simp] theorem State.modCore_dieTlb (s : State) (n : Nat) (g : Core → Core) : (s.modCore n g).dieTlb = s.dieTlb := rfl
@[simp] theorem State.modCore_tlbInv (s : State) (n : Nat) (g : Core → Core) : (s.modCore n g).tlbInv = s.tlbInv := rfl
@[simp] theorem State.modCore_hubTags (s : State) (n : Nat) (g : Core → Core) : (s.modCore n g).hubTags = s.hubTags := rfl
@[simp] theorem State.modCore_ccTags (s : State) (n : Nat) (g : Core → Core) : (s.modCore n g).ccTags = s.ccTags := rfl
@[simp] theorem State.modCore_stamp (s : State) (n : Nat) (g : Core → Core) : (s.modCore n g).stamp = s.stamp := rfl
@[simp] theorem State.modCore_dbp (s : State) (n : Nat) (g : Core → Core) : (s.modCore n g).dbp = s.dbp := rfl
@[simp] theorem State.modCore_dbpSample (s : State) (n : Nat) (g : Core → Core) : (s.modCore n g).dbpSample = s.dbpSample := rfl
@[simp] theorem State.modCore_frozenWays (s : State) (n : Nat) (g : Core → Core) : (s.modCore n g).frozenWays = s.frozenWays := rfl
@[simp] theorem State.modCore_dirtyWays (s : State) (n : Nat) (g : Core → Core) : (s.modCore n g).dirtyWays = s.dirtyWays := rfl
@[simp] theorem State.modCore_layerOff (s : State) (n : Nat) (g : Core → Core) : (s.modCore n g).layerOff = s.layerOff := rfl
@[simp] theorem State.modCore_layerTrip (s : State) (n : Nat) (g : Core → Core) : (s.modCore n g).layerTrip = s.layerTrip := rfl
@[simp] theorem State.modCore_flush (s : State) (n : Nat) (g : Core → Core) : (s.modCore n g).flush = s.flush := rfl
@[simp] theorem State.modCore_swap (s : State) (n : Nat) (g : Core → Core) : (s.modCore n g).swap = s.swap := rfl
@[simp] theorem State.modCore_stale (s : State) (n : Nat) (g : Core → Core) : (s.modCore n g).stale = s.stale := rfl
@[simp] theorem State.modCore_heldW (s : State) (n : Nat) (g : Core → Core) : (s.modCore n g).heldW = s.heldW := rfl
@[simp] theorem State.modCore_burst (s : State) (n : Nat) (g : Core → Core) : (s.modCore n g).burst = s.burst := rfl
@[simp] theorem State.modCore_svAt (s : State) (n : Nat) (g : Core → Core) : (s.modCore n g).svAt = s.svAt := rfl
@[simp] theorem State.modCore_sens (s : State) (n : Nat) (g : Core → Core) : (s.modCore n g).sens = s.sens := rfl
@[simp] theorem State.modCore_flrLast (s : State) (n : Nat) (g : Core → Core) : (s.modCore n g).flrLast = s.flrLast := rfl
@[simp] theorem State.modCore_scLines (s : State) (n : Nat) (g : Core → Core) : (s.modCore n g).scLines = s.scLines := rfl
@[simp] theorem State.modCore_epoch (s : State) (n : Nat) (g : Core → Core) : (s.modCore n g).epoch = s.epoch := rfl
@[simp] theorem State.modCore_posted (s : State) (n : Nat) (g : Core → Core) : (s.modCore n g).posted = s.posted := rfl
@[simp] theorem State.modCore_landings (s : State) (n : Nat) (g : Core → Core) : (s.modCore n g).landings = s.landings := rfl
@[simp] theorem State.modCore_landDone (s : State) (n : Nat) (g : Core → Core) : (s.modCore n g).landDone = s.landDone := rfl
@[simp] theorem State.modCore_savedSets (s : State) (n : Nat) (g : Core → Core) : (s.modCore n g).savedSets = s.savedSets := rfl
@[simp] theorem State.modCore_depCnt (s : State) (n : Nat) (g : Core → Core) : (s.modCore n g).depCnt = s.depCnt := rfl
@[simp] theorem State.modCore_depUsed (s : State) (n : Nat) (g : Core → Core) : (s.modCore n g).depUsed = s.depUsed := rfl
@[simp] theorem State.modCore_insts (s : State) (n : Nat) (g : Core → Core) : (s.modCore n g).insts = s.insts := rfl
@[simp] theorem State.modCore_instNo (s : State) (n : Nat) (g : Core → Core) : (s.modCore n g).instNo = s.instNo := rfl
@[simp] theorem State.modCore_qslots (s : State) (n : Nat) (g : Core → Core) : (s.modCore n g).qslots = s.qslots := rfl
@[simp] theorem State.modCore_qwait (s : State) (n : Nat) (g : Core → Core) : (s.modCore n g).qwait = s.qwait := rfl
@[simp] theorem State.modCore_widx (s : State) (n : Nat) (g : Core → Core) : (s.modCore n g).widx = s.widx := rfl
@[simp] theorem State.modCore_streams (s : State) (n : Nat) (g : Core → Core) : (s.modCore n g).streams = s.streams := rfl
@[simp] theorem State.modCore_tvChan (s : State) (n : Nat) (g : Core → Core) : (s.modCore n g).tvChan = s.tvChan := rfl
@[simp] theorem State.modCore_tvReply (s : State) (n : Nat) (g : Core → Core) : (s.modCore n g).tvReply = s.tvReply := rfl
@[simp] theorem State.modCore_logHead (s : State) (n : Nat) (g : Core → Core) : (s.modCore n g).logHead = s.logHead := rfl
@[simp] theorem State.modCore_mbox (s : State) (n : Nat) (g : Core → Core) : (s.modCore n g).mbox = s.mbox := rfl
@[simp] theorem State.modCore_timeFired (s : State) (n : Nat) (g : Core → Core) : (s.modCore n g).timeFired = s.timeFired := rfl
@[simp] theorem State.modCore_links (s : State) (n : Nat) (g : Core → Core) : (s.modCore n g).links = s.links := rfl
@[simp] theorem State.modCore_eth (s : State) (n : Nat) (g : Core → Core) : (s.modCore n g).eth = s.eth := rfl
@[simp] theorem State.modCore_hostOut (s : State) (n : Nat) (g : Core → Core) : (s.modCore n g).hostOut = s.hostOut := rfl
@[simp] theorem State.modCore_fabOut (s : State) (n : Nat) (g : Core → Core) : (s.modCore n g).fabOut = s.fabOut := rfl
@[simp] theorem State.modCore_flr (s : State) (n : Nat) (g : Core → Core) : (s.modCore n g).flr = s.flr := rfl
@[simp] theorem State.modCore_owed (s : State) (n : Nat) (g : Core → Core) : (s.modCore n g).owed = s.owed := rfl
@[simp] theorem State.modCore_relCov (s : State) (n : Nat) (g : Core → Core) : (s.modCore n g).relCov = s.relCov := rfl
@[simp] theorem State.modCore_foreign (s : State) (n : Nat) (g : Core → Core) : (s.modCore n g).foreign = s.foreign := rfl

@[simp] theorem State.core_modCore (s : State) (n : Nat) (g : Core → Core) : (s.modCore n g).core n = g (s.core n) :=
  State.core_setCore s n _

@[simp] theorem State.core_modCore_ne (s : State) {n m : Nat} (g : Core → Core) (h : m ≠ n) : (s.modCore n g).core m = s.core m :=
  State.core_setCore_ne s _ h

/-! ### An MMIO register is written -/

@[simp] theorem State.setReg_agenda (s : State) (a : Nat) (v : W64) : (s.setReg a v).agenda = s.agenda := rfl
@[simp] theorem State.setReg_freeNo (s : State) (a : Nat) (v : W64) : (s.setReg a v).freeNo = s.freeNo := rfl
@[simp] theorem State.setReg_focus (s : State) (a : Nat) (v : W64) : (s.setReg a v).focus = s.focus := rfl
@[simp] theorem State.setReg_ilen (s : State) (a : Nat) (v : W64) : (s.setReg a v).ilen = s.ilen := rfl
@[simp] theorem State.setReg_now (s : State) (a : Nat) (v : W64) : (s.setReg a v).now = s.now := rfl
@[simp] theorem State.setReg_datum9 (s : State) (a : Nat) (v : W64) : (s.setReg a v).datum9 = s.datum9 := rfl
@[simp] theorem State.setReg_slew9 (s : State) (a : Nat) (v : W64) : (s.setReg a v).slew9 = s.slew9 := rfl
@[simp] theorem State.setReg_left (s : State) (a : Nat) (v : W64) : (s.setReg a v).left = s.left := rfl
@[simp] theorem State.setReg_slow (s : State) (a : Nat) (v : W64) : (s.setReg a v).slow = s.slow := rfl
@[simp] theorem State.setReg_slewAcc (s : State) (a : Nat) (v : W64) : (s.setReg a v).slewAcc = s.slewAcc := rfl
@[simp] theorem State.setReg_locked (s : State) (a : Nat) (v : W64) : (s.setReg a v).locked = s.locked := rfl
@[simp] theorem State.setReg_mem (s : State) (a : Nat) (v : W64) : (s.setReg a v).mem = s.mem := rfl
@[simp] theorem State.setReg_lines (s : State) (a : Nat) (v : W64) : (s.setReg a v).lines = s.lines := rfl
@[simp] theorem State.setReg_cores (s : State) (a : Nat) (v : W64) : (s.setReg a v).cores = s.cores := rfl
@[simp] theorem State.setReg_mgmt (s : State) (a : Nat) (v : W64) : (s.setReg a v).mgmt = s.mgmt := rfl
@[simp] theorem State.setReg_lanes (s : State) (a : Nat) (v : W64) : (s.setReg a v).lanes = s.lanes := rfl
@[simp] theorem State.setReg_dac (s : State) (a : Nat) (v : W64) : (s.setReg a v).dac = s.dac := rfl
@[simp] theorem State.setReg_coreReset (s : State) (a : Nat) (v : W64) : (s.setReg a v).coreReset = s.coreReset := rfl
@[simp] theorem State.setReg_ctrlDown (s : State) (a : Nat) (v : W64) : (s.setReg a v).ctrlDown = s.ctrlDown := rfl
@[simp] theorem State.setReg_cxlDown (s : State) (a : Nat) (v : W64) : (s.setReg a v).cxlDown = s.cxlDown := rfl
@[simp] theorem State.setReg_gate (s : State) (a : Nat) (v : W64) : (s.setReg a v).gate = s.gate := rfl
@[simp] theorem State.setReg_rtDrain (s : State) (a : Nat) (v : W64) : (s.setReg a v).rtDrain = s.rtDrain := rfl
@[simp] theorem State.setReg_homes (s : State) (a : Nat) (v : W64) : (s.setReg a v).homes = s.homes := rfl
@[simp] theorem State.setReg_dieTlb (s : State) (a : Nat) (v : W64) : (s.setReg a v).dieTlb = s.dieTlb := rfl
@[simp] theorem State.setReg_tlbInv (s : State) (a : Nat) (v : W64) : (s.setReg a v).tlbInv = s.tlbInv := rfl
@[simp] theorem State.setReg_hubTags (s : State) (a : Nat) (v : W64) : (s.setReg a v).hubTags = s.hubTags := rfl
@[simp] theorem State.setReg_ccTags (s : State) (a : Nat) (v : W64) : (s.setReg a v).ccTags = s.ccTags := rfl
@[simp] theorem State.setReg_stamp (s : State) (a : Nat) (v : W64) : (s.setReg a v).stamp = s.stamp := rfl
@[simp] theorem State.setReg_dbp (s : State) (a : Nat) (v : W64) : (s.setReg a v).dbp = s.dbp := rfl
@[simp] theorem State.setReg_dbpSample (s : State) (a : Nat) (v : W64) : (s.setReg a v).dbpSample = s.dbpSample := rfl
@[simp] theorem State.setReg_frozenWays (s : State) (a : Nat) (v : W64) : (s.setReg a v).frozenWays = s.frozenWays := rfl
@[simp] theorem State.setReg_dirtyWays (s : State) (a : Nat) (v : W64) : (s.setReg a v).dirtyWays = s.dirtyWays := rfl
@[simp] theorem State.setReg_layerOff (s : State) (a : Nat) (v : W64) : (s.setReg a v).layerOff = s.layerOff := rfl
@[simp] theorem State.setReg_layerTrip (s : State) (a : Nat) (v : W64) : (s.setReg a v).layerTrip = s.layerTrip := rfl
@[simp] theorem State.setReg_flush (s : State) (a : Nat) (v : W64) : (s.setReg a v).flush = s.flush := rfl
@[simp] theorem State.setReg_swap (s : State) (a : Nat) (v : W64) : (s.setReg a v).swap = s.swap := rfl
@[simp] theorem State.setReg_stale (s : State) (a : Nat) (v : W64) : (s.setReg a v).stale = s.stale := rfl
@[simp] theorem State.setReg_heldW (s : State) (a : Nat) (v : W64) : (s.setReg a v).heldW = s.heldW := rfl
@[simp] theorem State.setReg_burst (s : State) (a : Nat) (v : W64) : (s.setReg a v).burst = s.burst := rfl
@[simp] theorem State.setReg_svAt (s : State) (a : Nat) (v : W64) : (s.setReg a v).svAt = s.svAt := rfl
@[simp] theorem State.setReg_sens (s : State) (a : Nat) (v : W64) : (s.setReg a v).sens = s.sens := rfl
@[simp] theorem State.setReg_flrLast (s : State) (a : Nat) (v : W64) : (s.setReg a v).flrLast = s.flrLast := rfl
@[simp] theorem State.setReg_scLines (s : State) (a : Nat) (v : W64) : (s.setReg a v).scLines = s.scLines := rfl
@[simp] theorem State.setReg_epoch (s : State) (a : Nat) (v : W64) : (s.setReg a v).epoch = s.epoch := rfl
@[simp] theorem State.setReg_posted (s : State) (a : Nat) (v : W64) : (s.setReg a v).posted = s.posted := rfl
@[simp] theorem State.setReg_landings (s : State) (a : Nat) (v : W64) : (s.setReg a v).landings = s.landings := rfl
@[simp] theorem State.setReg_landDone (s : State) (a : Nat) (v : W64) : (s.setReg a v).landDone = s.landDone := rfl
@[simp] theorem State.setReg_savedSets (s : State) (a : Nat) (v : W64) : (s.setReg a v).savedSets = s.savedSets := rfl
@[simp] theorem State.setReg_depCnt (s : State) (a : Nat) (v : W64) : (s.setReg a v).depCnt = s.depCnt := rfl
@[simp] theorem State.setReg_depUsed (s : State) (a : Nat) (v : W64) : (s.setReg a v).depUsed = s.depUsed := rfl
@[simp] theorem State.setReg_insts (s : State) (a : Nat) (v : W64) : (s.setReg a v).insts = s.insts := rfl
@[simp] theorem State.setReg_instNo (s : State) (a : Nat) (v : W64) : (s.setReg a v).instNo = s.instNo := rfl
@[simp] theorem State.setReg_qslots (s : State) (a : Nat) (v : W64) : (s.setReg a v).qslots = s.qslots := rfl
@[simp] theorem State.setReg_qwait (s : State) (a : Nat) (v : W64) : (s.setReg a v).qwait = s.qwait := rfl
@[simp] theorem State.setReg_widx (s : State) (a : Nat) (v : W64) : (s.setReg a v).widx = s.widx := rfl
@[simp] theorem State.setReg_streams (s : State) (a : Nat) (v : W64) : (s.setReg a v).streams = s.streams := rfl
@[simp] theorem State.setReg_tvChan (s : State) (a : Nat) (v : W64) : (s.setReg a v).tvChan = s.tvChan := rfl
@[simp] theorem State.setReg_tvReply (s : State) (a : Nat) (v : W64) : (s.setReg a v).tvReply = s.tvReply := rfl
@[simp] theorem State.setReg_logHead (s : State) (a : Nat) (v : W64) : (s.setReg a v).logHead = s.logHead := rfl
@[simp] theorem State.setReg_mbox (s : State) (a : Nat) (v : W64) : (s.setReg a v).mbox = s.mbox := rfl
@[simp] theorem State.setReg_timeFired (s : State) (a : Nat) (v : W64) : (s.setReg a v).timeFired = s.timeFired := rfl
@[simp] theorem State.setReg_links (s : State) (a : Nat) (v : W64) : (s.setReg a v).links = s.links := rfl
@[simp] theorem State.setReg_eth (s : State) (a : Nat) (v : W64) : (s.setReg a v).eth = s.eth := rfl
@[simp] theorem State.setReg_hostOut (s : State) (a : Nat) (v : W64) : (s.setReg a v).hostOut = s.hostOut := rfl
@[simp] theorem State.setReg_fabOut (s : State) (a : Nat) (v : W64) : (s.setReg a v).fabOut = s.fabOut := rfl
@[simp] theorem State.setReg_flr (s : State) (a : Nat) (v : W64) : (s.setReg a v).flr = s.flr := rfl
@[simp] theorem State.setReg_owed (s : State) (a : Nat) (v : W64) : (s.setReg a v).owed = s.owed := rfl
@[simp] theorem State.setReg_relCov (s : State) (a : Nat) (v : W64) : (s.setReg a v).relCov = s.relCov := rfl
@[simp] theorem State.setReg_foreign (s : State) (a : Nat) (v : W64) : (s.setReg a v).foreign = s.foreign := rfl

@[simp] theorem State.core_setReg (s : State) (a : Nat) (v : W64) (n : Nat) : (s.setReg a v).core n = s.core n := rfl

@[simp] theorem State.reg_setReg (s : State) (a : Nat) (v : W64) : (s.setReg a v).reg a = v := Table.get_put_same _ _ _

@[simp] theorem State.reg_setReg_ne (s : State) {a b : Nat} (v : W64) (h : b ≠ a) : (s.setReg a v).reg b = s.reg b := by
  exact Table.get_put_ne_any _ _ h


/-! ### `Core.setRing` -/

@[simp] theorem Core.setRing_hart (c : Core) (e : Eng) (r : Ring) : (c.setRing e r).hart = c.hart := rfl
@[simp] theorem Core.setRing_sems (c : Core) (e : Eng) (r : Ring) : (c.setRing e r).sems = c.sems := rfl
@[simp] theorem Core.setRing_cbs (c : Core) (e : Eng) (r : Ring) : (c.setRing e r).cbs = c.cbs := rfl
@[simp] theorem Core.setRing_v (c : Core) (e : Eng) (r : Ring) : (c.setRing e r).v = c.v := rfl
@[simp] theorem Core.setRing_vpois (c : Core) (e : Eng) (r : Ring) : (c.setRing e r).vpois = c.vpois := rfl
@[simp] theorem Core.setRing_vorg (c : Core) (e : Eng) (r : Ring) : (c.setRing e r).vorg = c.vorg := rfl
@[simp] theorem Core.setRing_k (c : Core) (e : Eng) (r : Ring) : (c.setRing e r).k = c.k := rfl
@[simp] theorem Core.setRing_pj (c : Core) (e : Eng) (r : Ring) : (c.setRing e r).pj = c.pj := rfl
@[simp] theorem Core.setRing_acc (c : Core) (e : Eng) (r : Ring) : (c.setRing e r).acc = c.acc := rfl
@[simp] theorem Core.setRing_accInt (c : Core) (e : Eng) (r : Ring) : (c.setRing e r).accInt = c.accInt := rfl
@[simp] theorem Core.setRing_descs (c : Core) (e : Eng) (r : Ring) : (c.setRing e r).descs = c.descs := rfl
@[simp] theorem Core.setRing_dropDue (c : Core) (e : Eng) (r : Ring) : (c.setRing e r).dropDue = c.dropDue := rfl
@[simp] theorem Core.setRing_tags (c : Core) (e : Eng) (r : Ring) : (c.setRing e r).tags = c.tags := rfl
@[simp] theorem Core.setRing_flips (c : Core) (e : Eng) (r : Ring) : (c.setRing e r).flips = c.flips := rfl
@[simp] theorem Core.setRing_linePois (c : Core) (e : Eng) (r : Ring) : (c.setRing e r).linePois = c.linePois := rfl
@[simp] theorem Core.setRing_stuck (c : Core) (e : Eng) (r : Ring) : (c.setRing e r).stuck = c.stuck := rfl
@[simp] theorem Core.setRing_ce (c : Core) (e : Eng) (r : Ring) : (c.setRing e r).ce = c.ce := rfl
@[simp] theorem Core.setRing_ue (c : Core) (e : Eng) (r : Ring) : (c.setRing e r).ue = c.ue := rfl
@[simp] theorem Core.setRing_groups (c : Core) (e : Eng) (r : Ring) : (c.setRing e r).groups = c.groups := rfl
@[simp] theorem Core.setRing_rebuild (c : Core) (e : Eng) (r : Ring) : (c.setRing e r).rebuild = c.rebuild := rfl
@[simp] theorem Core.setRing_spRes (c : Core) (e : Eng) (r : Ring) : (c.setRing e r).spRes = c.spRes := rfl
@[simp] theorem Core.setRing_fq (c : Core) (e : Eng) (r : Ring) : (c.setRing e r).fq = c.fq := rfl
@[simp] theorem Core.setRing_fqHeld (c : Core) (e : Eng) (r : Ring) : (c.setRing e r).fqHeld = c.fqHeld := rfl
@[simp] theorem Core.setRing_task (c : Core) (e : Eng) (r : Ring) : (c.setRing e r).task = c.task := rfl
@[simp] theorem Core.setRing_suspended (c : Core) (e : Eng) (r : Ring) : (c.setRing e r).suspended = c.suspended := rfl
@[simp] theorem Core.setRing_suspRegs (c : Core) (e : Eng) (r : Ring) : (c.setRing e r).suspRegs = c.suspRegs := rfl
@[simp] theorem Core.setRing_suspPc (c : Core) (e : Eng) (r : Ring) : (c.setRing e r).suspPc = c.suspPc := rfl
@[simp] theorem Core.setRing_frozen (c : Core) (e : Eng) (r : Ring) : (c.setRing e r).frozen = c.frozen := rfl
@[simp] theorem Core.setRing_resuming (c : Core) (e : Eng) (r : Ring) : (c.setRing e r).resuming = c.resuming := rfl
@[simp] theorem Core.setRing_staging (c : Core) (e : Eng) (r : Ring) : (c.setRing e r).staging = c.staging := rfl
@[simp] theorem Core.setRing_sq (c : Core) (e : Eng) (r : Ring) : (c.setRing e r).sq = c.sq := rfl
@[simp] theorem Core.setRing_observed (c : Core) (e : Eng) (r : Ring) : (c.setRing e r).observed = c.observed := rfl
@[simp] theorem Core.setRing_etlb (c : Core) (e : Eng) (r : Ring) : (c.setRing e r).etlb = c.etlb := rfl
@[simp] theorem Core.setRing_clk (c : Core) (e : Eng) (r : Ring) : (c.setRing e r).clk = c.clk := rfl
@[simp] theorem Core.setRing_snap (c : Core) (e : Eng) (r : Ring) : (c.setRing e r).snap = c.snap := rfl

/-! ### `Core.setSem` -/

@[simp] theorem Core.setSem_hart (c : Core) (i : Nat) (v : W16) : (c.setSem i v).hart = c.hart := rfl
@[simp] theorem Core.setSem_rings (c : Core) (i : Nat) (v : W16) : (c.setSem i v).rings = c.rings := rfl
@[simp] theorem Core.setSem_cbs (c : Core) (i : Nat) (v : W16) : (c.setSem i v).cbs = c.cbs := rfl
@[simp] theorem Core.setSem_v (c : Core) (i : Nat) (v : W16) : (c.setSem i v).v = c.v := rfl
@[simp] theorem Core.setSem_vpois (c : Core) (i : Nat) (v : W16) : (c.setSem i v).vpois = c.vpois := rfl
@[simp] theorem Core.setSem_vorg (c : Core) (i : Nat) (v : W16) : (c.setSem i v).vorg = c.vorg := rfl
@[simp] theorem Core.setSem_k (c : Core) (i : Nat) (v : W16) : (c.setSem i v).k = c.k := rfl
@[simp] theorem Core.setSem_pj (c : Core) (i : Nat) (v : W16) : (c.setSem i v).pj = c.pj := rfl
@[simp] theorem Core.setSem_acc (c : Core) (i : Nat) (v : W16) : (c.setSem i v).acc = c.acc := rfl
@[simp] theorem Core.setSem_accInt (c : Core) (i : Nat) (v : W16) : (c.setSem i v).accInt = c.accInt := rfl
@[simp] theorem Core.setSem_descs (c : Core) (i : Nat) (v : W16) : (c.setSem i v).descs = c.descs := rfl
@[simp] theorem Core.setSem_dropDue (c : Core) (i : Nat) (v : W16) : (c.setSem i v).dropDue = c.dropDue := rfl
@[simp] theorem Core.setSem_tags (c : Core) (i : Nat) (v : W16) : (c.setSem i v).tags = c.tags := rfl
@[simp] theorem Core.setSem_flips (c : Core) (i : Nat) (v : W16) : (c.setSem i v).flips = c.flips := rfl
@[simp] theorem Core.setSem_linePois (c : Core) (i : Nat) (v : W16) : (c.setSem i v).linePois = c.linePois := rfl
@[simp] theorem Core.setSem_stuck (c : Core) (i : Nat) (v : W16) : (c.setSem i v).stuck = c.stuck := rfl
@[simp] theorem Core.setSem_ce (c : Core) (i : Nat) (v : W16) : (c.setSem i v).ce = c.ce := rfl
@[simp] theorem Core.setSem_ue (c : Core) (i : Nat) (v : W16) : (c.setSem i v).ue = c.ue := rfl
@[simp] theorem Core.setSem_groups (c : Core) (i : Nat) (v : W16) : (c.setSem i v).groups = c.groups := rfl
@[simp] theorem Core.setSem_rebuild (c : Core) (i : Nat) (v : W16) : (c.setSem i v).rebuild = c.rebuild := rfl
@[simp] theorem Core.setSem_spRes (c : Core) (i : Nat) (v : W16) : (c.setSem i v).spRes = c.spRes := rfl
@[simp] theorem Core.setSem_fq (c : Core) (i : Nat) (v : W16) : (c.setSem i v).fq = c.fq := rfl
@[simp] theorem Core.setSem_fqHeld (c : Core) (i : Nat) (v : W16) : (c.setSem i v).fqHeld = c.fqHeld := rfl
@[simp] theorem Core.setSem_task (c : Core) (i : Nat) (v : W16) : (c.setSem i v).task = c.task := rfl
@[simp] theorem Core.setSem_suspended (c : Core) (i : Nat) (v : W16) : (c.setSem i v).suspended = c.suspended := rfl
@[simp] theorem Core.setSem_suspRegs (c : Core) (i : Nat) (v : W16) : (c.setSem i v).suspRegs = c.suspRegs := rfl
@[simp] theorem Core.setSem_suspPc (c : Core) (i : Nat) (v : W16) : (c.setSem i v).suspPc = c.suspPc := rfl
@[simp] theorem Core.setSem_frozen (c : Core) (i : Nat) (v : W16) : (c.setSem i v).frozen = c.frozen := rfl
@[simp] theorem Core.setSem_resuming (c : Core) (i : Nat) (v : W16) : (c.setSem i v).resuming = c.resuming := rfl
@[simp] theorem Core.setSem_staging (c : Core) (i : Nat) (v : W16) : (c.setSem i v).staging = c.staging := rfl
@[simp] theorem Core.setSem_sq (c : Core) (i : Nat) (v : W16) : (c.setSem i v).sq = c.sq := rfl
@[simp] theorem Core.setSem_observed (c : Core) (i : Nat) (v : W16) : (c.setSem i v).observed = c.observed := rfl
@[simp] theorem Core.setSem_etlb (c : Core) (i : Nat) (v : W16) : (c.setSem i v).etlb = c.etlb := rfl
@[simp] theorem Core.setSem_clk (c : Core) (i : Nat) (v : W16) : (c.setSem i v).clk = c.clk := rfl
@[simp] theorem Core.setSem_snap (c : Core) (i : Nat) (v : W16) : (c.setSem i v).snap = c.snap := rfl

/-! ### `Core.setCb` -/

@[simp] theorem Core.setCb_hart (c : Core) (i : Nat) (b : Cb) : (c.setCb i b).hart = c.hart := rfl
@[simp] theorem Core.setCb_rings (c : Core) (i : Nat) (b : Cb) : (c.setCb i b).rings = c.rings := rfl
@[simp] theorem Core.setCb_sems (c : Core) (i : Nat) (b : Cb) : (c.setCb i b).sems = c.sems := rfl
@[simp] theorem Core.setCb_v (c : Core) (i : Nat) (b : Cb) : (c.setCb i b).v = c.v := rfl
@[simp] theorem Core.setCb_vpois (c : Core) (i : Nat) (b : Cb) : (c.setCb i b).vpois = c.vpois := rfl
@[simp] theorem Core.setCb_vorg (c : Core) (i : Nat) (b : Cb) : (c.setCb i b).vorg = c.vorg := rfl
@[simp] theorem Core.setCb_k (c : Core) (i : Nat) (b : Cb) : (c.setCb i b).k = c.k := rfl
@[simp] theorem Core.setCb_pj (c : Core) (i : Nat) (b : Cb) : (c.setCb i b).pj = c.pj := rfl
@[simp] theorem Core.setCb_acc (c : Core) (i : Nat) (b : Cb) : (c.setCb i b).acc = c.acc := rfl
@[simp] theorem Core.setCb_accInt (c : Core) (i : Nat) (b : Cb) : (c.setCb i b).accInt = c.accInt := rfl
@[simp] theorem Core.setCb_descs (c : Core) (i : Nat) (b : Cb) : (c.setCb i b).descs = c.descs := rfl
@[simp] theorem Core.setCb_dropDue (c : Core) (i : Nat) (b : Cb) : (c.setCb i b).dropDue = c.dropDue := rfl
@[simp] theorem Core.setCb_tags (c : Core) (i : Nat) (b : Cb) : (c.setCb i b).tags = c.tags := rfl
@[simp] theorem Core.setCb_flips (c : Core) (i : Nat) (b : Cb) : (c.setCb i b).flips = c.flips := rfl
@[simp] theorem Core.setCb_linePois (c : Core) (i : Nat) (b : Cb) : (c.setCb i b).linePois = c.linePois := rfl
@[simp] theorem Core.setCb_stuck (c : Core) (i : Nat) (b : Cb) : (c.setCb i b).stuck = c.stuck := rfl
@[simp] theorem Core.setCb_ce (c : Core) (i : Nat) (b : Cb) : (c.setCb i b).ce = c.ce := rfl
@[simp] theorem Core.setCb_ue (c : Core) (i : Nat) (b : Cb) : (c.setCb i b).ue = c.ue := rfl
@[simp] theorem Core.setCb_groups (c : Core) (i : Nat) (b : Cb) : (c.setCb i b).groups = c.groups := rfl
@[simp] theorem Core.setCb_rebuild (c : Core) (i : Nat) (b : Cb) : (c.setCb i b).rebuild = c.rebuild := rfl
@[simp] theorem Core.setCb_spRes (c : Core) (i : Nat) (b : Cb) : (c.setCb i b).spRes = c.spRes := rfl
@[simp] theorem Core.setCb_fq (c : Core) (i : Nat) (b : Cb) : (c.setCb i b).fq = c.fq := rfl
@[simp] theorem Core.setCb_fqHeld (c : Core) (i : Nat) (b : Cb) : (c.setCb i b).fqHeld = c.fqHeld := rfl
@[simp] theorem Core.setCb_task (c : Core) (i : Nat) (b : Cb) : (c.setCb i b).task = c.task := rfl
@[simp] theorem Core.setCb_suspended (c : Core) (i : Nat) (b : Cb) : (c.setCb i b).suspended = c.suspended := rfl
@[simp] theorem Core.setCb_suspRegs (c : Core) (i : Nat) (b : Cb) : (c.setCb i b).suspRegs = c.suspRegs := rfl
@[simp] theorem Core.setCb_suspPc (c : Core) (i : Nat) (b : Cb) : (c.setCb i b).suspPc = c.suspPc := rfl
@[simp] theorem Core.setCb_frozen (c : Core) (i : Nat) (b : Cb) : (c.setCb i b).frozen = c.frozen := rfl
@[simp] theorem Core.setCb_resuming (c : Core) (i : Nat) (b : Cb) : (c.setCb i b).resuming = c.resuming := rfl
@[simp] theorem Core.setCb_staging (c : Core) (i : Nat) (b : Cb) : (c.setCb i b).staging = c.staging := rfl
@[simp] theorem Core.setCb_sq (c : Core) (i : Nat) (b : Cb) : (c.setCb i b).sq = c.sq := rfl
@[simp] theorem Core.setCb_observed (c : Core) (i : Nat) (b : Cb) : (c.setCb i b).observed = c.observed := rfl
@[simp] theorem Core.setCb_etlb (c : Core) (i : Nat) (b : Cb) : (c.setCb i b).etlb = c.etlb := rfl
@[simp] theorem Core.setCb_clk (c : Core) (i : Nat) (b : Cb) : (c.setCb i b).clk = c.clk := rfl
@[simp] theorem Core.setCb_snap (c : Core) (i : Nat) (b : Cb) : (c.setCb i b).snap = c.snap := rfl

/-! ### `Core.setGroup` -/

@[simp] theorem Core.setGroup_hart (c : Core) (g : Nat) (x : Group) : (c.setGroup g x).hart = c.hart := rfl
@[simp] theorem Core.setGroup_rings (c : Core) (g : Nat) (x : Group) : (c.setGroup g x).rings = c.rings := rfl
@[simp] theorem Core.setGroup_sems (c : Core) (g : Nat) (x : Group) : (c.setGroup g x).sems = c.sems := rfl
@[simp] theorem Core.setGroup_cbs (c : Core) (g : Nat) (x : Group) : (c.setGroup g x).cbs = c.cbs := rfl
@[simp] theorem Core.setGroup_v (c : Core) (g : Nat) (x : Group) : (c.setGroup g x).v = c.v := rfl
@[simp] theorem Core.setGroup_vpois (c : Core) (g : Nat) (x : Group) : (c.setGroup g x).vpois = c.vpois := rfl
@[simp] theorem Core.setGroup_vorg (c : Core) (g : Nat) (x : Group) : (c.setGroup g x).vorg = c.vorg := rfl
@[simp] theorem Core.setGroup_k (c : Core) (g : Nat) (x : Group) : (c.setGroup g x).k = c.k := rfl
@[simp] theorem Core.setGroup_pj (c : Core) (g : Nat) (x : Group) : (c.setGroup g x).pj = c.pj := rfl
@[simp] theorem Core.setGroup_acc (c : Core) (g : Nat) (x : Group) : (c.setGroup g x).acc = c.acc := rfl
@[simp] theorem Core.setGroup_accInt (c : Core) (g : Nat) (x : Group) : (c.setGroup g x).accInt = c.accInt := rfl
@[simp] theorem Core.setGroup_descs (c : Core) (g : Nat) (x : Group) : (c.setGroup g x).descs = c.descs := rfl
@[simp] theorem Core.setGroup_dropDue (c : Core) (g : Nat) (x : Group) : (c.setGroup g x).dropDue = c.dropDue := rfl
@[simp] theorem Core.setGroup_tags (c : Core) (g : Nat) (x : Group) : (c.setGroup g x).tags = c.tags := rfl
@[simp] theorem Core.setGroup_flips (c : Core) (g : Nat) (x : Group) : (c.setGroup g x).flips = c.flips := rfl
@[simp] theorem Core.setGroup_linePois (c : Core) (g : Nat) (x : Group) : (c.setGroup g x).linePois = c.linePois := rfl
@[simp] theorem Core.setGroup_stuck (c : Core) (g : Nat) (x : Group) : (c.setGroup g x).stuck = c.stuck := rfl
@[simp] theorem Core.setGroup_ce (c : Core) (g : Nat) (x : Group) : (c.setGroup g x).ce = c.ce := rfl
@[simp] theorem Core.setGroup_ue (c : Core) (g : Nat) (x : Group) : (c.setGroup g x).ue = c.ue := rfl
@[simp] theorem Core.setGroup_rebuild (c : Core) (g : Nat) (x : Group) : (c.setGroup g x).rebuild = c.rebuild := rfl
@[simp] theorem Core.setGroup_spRes (c : Core) (g : Nat) (x : Group) : (c.setGroup g x).spRes = c.spRes := rfl
@[simp] theorem Core.setGroup_fq (c : Core) (g : Nat) (x : Group) : (c.setGroup g x).fq = c.fq := rfl
@[simp] theorem Core.setGroup_fqHeld (c : Core) (g : Nat) (x : Group) : (c.setGroup g x).fqHeld = c.fqHeld := rfl
@[simp] theorem Core.setGroup_task (c : Core) (g : Nat) (x : Group) : (c.setGroup g x).task = c.task := rfl
@[simp] theorem Core.setGroup_suspended (c : Core) (g : Nat) (x : Group) : (c.setGroup g x).suspended = c.suspended := rfl
@[simp] theorem Core.setGroup_suspRegs (c : Core) (g : Nat) (x : Group) : (c.setGroup g x).suspRegs = c.suspRegs := rfl
@[simp] theorem Core.setGroup_suspPc (c : Core) (g : Nat) (x : Group) : (c.setGroup g x).suspPc = c.suspPc := rfl
@[simp] theorem Core.setGroup_frozen (c : Core) (g : Nat) (x : Group) : (c.setGroup g x).frozen = c.frozen := rfl
@[simp] theorem Core.setGroup_resuming (c : Core) (g : Nat) (x : Group) : (c.setGroup g x).resuming = c.resuming := rfl
@[simp] theorem Core.setGroup_staging (c : Core) (g : Nat) (x : Group) : (c.setGroup g x).staging = c.staging := rfl
@[simp] theorem Core.setGroup_sq (c : Core) (g : Nat) (x : Group) : (c.setGroup g x).sq = c.sq := rfl
@[simp] theorem Core.setGroup_observed (c : Core) (g : Nat) (x : Group) : (c.setGroup g x).observed = c.observed := rfl
@[simp] theorem Core.setGroup_etlb (c : Core) (g : Nat) (x : Group) : (c.setGroup g x).etlb = c.etlb := rfl
@[simp] theorem Core.setGroup_clk (c : Core) (g : Nat) (x : Group) : (c.setGroup g x).clk = c.clk := rfl
@[simp] theorem Core.setGroup_snap (c : Core) (g : Nat) (x : Group) : (c.setGroup g x).snap = c.snap := rfl

theorem Eng.num_inj {a b : Eng} (h : Eng.num a = Eng.num b) : a = b := by cases a <;> cases b <;> simp_all [Eng.num]

@[simp] theorem Core.ring_setRing (c : Core) (e : Eng) (r : Ring) : (c.setRing e r).ring e = r := Table.get_put_same _ _ _

@[simp] theorem Core.ring_setRing_ne (c : Core) {e e' : Eng} (r : Ring) (h : e' ≠ e) : (c.setRing e r).ring e' = c.ring e' :=
  Table.get_put_ne _ _ fun x => h (Eng.num_inj x)

@[simp] theorem Core.sem_setSem (c : Core) (i : Nat) (v : W16) : (c.setSem i v).sem i = v := Table.get_put_same _ _ _

@[simp] theorem Core.sem_setSem_ne (c : Core) {i j : Nat} (v : W16) (h : j ≠ i) : (c.setSem i v).sem j = c.sem j :=
  Table.get_put_ne _ _ h

@[simp] theorem Core.cb_setCb (c : Core) (i : Nat) (b : Cb) : (c.setCb i b).cb i = b := Table.get_put_same _ _ _

@[simp] theorem Core.cb_setCb_ne (c : Core) {i j : Nat} (b : Cb) (h : j ≠ i) : (c.setCb i b).cb j = c.cb j :=
  Table.get_put_ne _ _ h

@[simp] theorem Core.group_setGroup (c : Core) (g : Nat) (x : Group) : (c.setGroup g x).group g = x := Table.get_put_same _ _ _

@[simp] theorem Core.group_setGroup_ne (c : Core) {g j : Nat} (x : Group) (h : j ≠ g) : (c.setGroup g x).group j = c.group j :=
  Table.get_put_ne _ _ h

/-! ### Registers of a hart -/

@[simp] theorem Hart.setCsrRaw_run (h : Hart) (k : Nat) (v : W64) : (h.setCsrRaw k v).run = h.run := rfl
@[simp] theorem Hart.setCsrRaw_priv (h : Hart) (k : Nat) (v : W64) : (h.setCsrRaw k v).priv = h.priv := rfl
@[simp] theorem Hart.setCsrRaw_pc (h : Hart) (k : Nat) (v : W64) : (h.setCsrRaw k v).pc = h.pc := rfl
@[simp] theorem Hart.setCsrRaw_x (h : Hart) (k : Nat) (v : W64) : (h.setCsrRaw k v).x = h.x := rfl
@[simp] theorem Hart.setCsrRaw_tlb (h : Hart) (k : Nat) (v : W64) : (h.setCsrRaw k v).tlb = h.tlb := rfl
@[simp] theorem Hart.setCsrRaw_resv (h : Hart) (k : Nat) (v : W64) : (h.setCsrRaw k v).resv = h.resv := rfl
@[simp] theorem Hart.setCsrRaw_wait (h : Hart) (k : Nat) (v : W64) : (h.setCsrRaw k v).wait = h.wait := rfl
@[simp] theorem Hart.set_run (h : Hart) (r : Reg) (v : W64) : (h.set r v).run = h.run := by unfold Hart.set; split <;> rfl
@[simp] theorem Hart.set_priv (h : Hart) (r : Reg) (v : W64) : (h.set r v).priv = h.priv := by unfold Hart.set; split <;> rfl
@[simp] theorem Hart.set_pc (h : Hart) (r : Reg) (v : W64) : (h.set r v).pc = h.pc := by unfold Hart.set; split <;> rfl
@[simp] theorem Hart.set_csr (h : Hart) (r : Reg) (v : W64) : (h.set r v).csr = h.csr := by unfold Hart.set; split <;> rfl
@[simp] theorem Hart.set_tlb (h : Hart) (r : Reg) (v : W64) : (h.set r v).tlb = h.tlb := by unfold Hart.set; split <;> rfl
@[simp] theorem Hart.set_resv (h : Hart) (r : Reg) (v : W64) : (h.set r v).resv = h.resv := by unfold Hart.set; split <;> rfl
@[simp] theorem Hart.set_wait (h : Hart) (r : Reg) (v : W64) : (h.set r v).wait = h.wait := by unfold Hart.set; split <;> rfl

/-- x0 reads zero. -/
@[simp] theorem Hart.get_zero (h : Hart) : h.get 0#5 = 0 := by simp [Hart.get]

/-- A write of x0 is discarded. -/
@[simp] theorem Hart.set_zero (h : Hart) (v : W64) : h.set 0#5 v = h := by simp [Hart.set]

theorem Hart.get_set_same (h : Hart) {r : Reg} (v : W64) (hr : r ≠ 0#5) : (h.set r v).get r = v := by
  simp [Hart.get, Hart.set, hr]

theorem Hart.get_set_ne (h : Hart) {r q : Reg} (v : W64) (hq : q ≠ r) : (h.set r v).get q = h.get q := by
  unfold Hart.get Hart.set
  by_cases h0 : q = 0#5
  · simp [h0]
  · by_cases hr : r = 0#5
    · simp [hr, h0]
    · have : q.toNat ≠ r.toNat := fun x => hq (BitVec.eq_of_toNat_eq x)
      simp [hr, h0, Table.get_put_ne _ _ this]

@[simp] theorem Hart.csrRaw_setCsrRaw (h : Hart) (k : Nat) (v : W64) : (h.setCsrRaw k v).csrRaw k = v := Table.get_put_same _ _ _

@[simp] theorem Hart.csrRaw_setCsrRaw_ne (h : Hart) {k j : Nat} (v : W64) (hj : j ≠ k) :
    (h.setCsrRaw k v).csrRaw j = h.csrRaw j := by
  exact Table.get_put_ne_any _ _ hj

@[simp] theorem Hart.csrRaw_set (h : Hart) (r : Reg) (v : W64) (k : Nat) : (h.set r v).csrRaw k = h.csrRaw k := by
  simp [Hart.csrRaw]

/-! ### Harts of the package -/

@[simp] theorem State.hart_setHart (s : State) (a : Agent) (h : Hart) : (s.setHart a h).hart a = h := by
  cases a with
  | core n => simp [State.hart, State.setHart]
  | mgmt => rfl
  | lane o => simp [State.hart, State.setHart, State.lane]

@[simp] theorem State.hart_setHart_ne (s : State) {a b : Agent} (h : Hart) (hb : b ≠ a) : (s.setHart a h).hart b = s.hart b := by
  cases a with
  | core n =>
    cases b with
    | core m =>
      have : m ≠ n := fun e => hb (by rw [e])
      simp [State.hart, State.setHart, this]
    | mgmt => rfl
    | lane o => rfl
  | mgmt =>
    cases b with
    | mgmt => exact absurd rfl hb
    | core m => rfl
    | lane o => rfl
  | lane o =>
    cases b with
    | lane p =>
      have : p ≠ o := fun e => hb (by rw [e])
      simp [State.hart, State.setHart, State.lane, this]
    | mgmt => rfl
    | core m => rfl

/-- Two writes of one hart are the last of them. -/
theorem Core.setHart_setHart (c : Core) (h h' : Hart) : ({ ({ c with hart := h } : Core) with hart := h' } : Core) = { c with hart := h' } := rfl

@[simp] theorem State.setHart_agenda (s : State) (a : Agent) (h : Hart) : (s.setHart a h).agenda = s.agenda := by cases a <;> rfl
@[simp] theorem State.setHart_freeNo (s : State) (a : Agent) (h : Hart) : (s.setHart a h).freeNo = s.freeNo := by cases a <;> rfl
@[simp] theorem State.setHart_focus (s : State) (a : Agent) (h : Hart) : (s.setHart a h).focus = s.focus := by cases a <;> rfl
@[simp] theorem State.setHart_ilen (s : State) (a : Agent) (h : Hart) : (s.setHart a h).ilen = s.ilen := by cases a <;> rfl
@[simp] theorem State.setHart_now (s : State) (a : Agent) (h : Hart) : (s.setHart a h).now = s.now := by cases a <;> rfl
@[simp] theorem State.setHart_datum9 (s : State) (a : Agent) (h : Hart) : (s.setHart a h).datum9 = s.datum9 := by cases a <;> rfl
@[simp] theorem State.setHart_slew9 (s : State) (a : Agent) (h : Hart) : (s.setHart a h).slew9 = s.slew9 := by cases a <;> rfl
@[simp] theorem State.setHart_left (s : State) (a : Agent) (h : Hart) : (s.setHart a h).left = s.left := by cases a <;> rfl
@[simp] theorem State.setHart_slow (s : State) (a : Agent) (h : Hart) : (s.setHart a h).slow = s.slow := by cases a <;> rfl
@[simp] theorem State.setHart_slewAcc (s : State) (a : Agent) (h : Hart) : (s.setHart a h).slewAcc = s.slewAcc := by cases a <;> rfl
@[simp] theorem State.setHart_locked (s : State) (a : Agent) (h : Hart) : (s.setHart a h).locked = s.locked := by cases a <;> rfl
@[simp] theorem State.setHart_mem (s : State) (a : Agent) (h : Hart) : (s.setHart a h).mem = s.mem := by cases a <;> rfl
@[simp] theorem State.setHart_lines (s : State) (a : Agent) (h : Hart) : (s.setHart a h).lines = s.lines := by cases a <;> rfl
@[simp] theorem State.setHart_mmio (s : State) (a : Agent) (h : Hart) : (s.setHart a h).mmio = s.mmio := by cases a <;> rfl
@[simp] theorem State.setHart_dac (s : State) (a : Agent) (h : Hart) : (s.setHart a h).dac = s.dac := by cases a <;> rfl
@[simp] theorem State.setHart_coreReset (s : State) (a : Agent) (h : Hart) : (s.setHart a h).coreReset = s.coreReset := by cases a <;> rfl
@[simp] theorem State.setHart_ctrlDown (s : State) (a : Agent) (h : Hart) : (s.setHart a h).ctrlDown = s.ctrlDown := by cases a <;> rfl
@[simp] theorem State.setHart_cxlDown (s : State) (a : Agent) (h : Hart) : (s.setHart a h).cxlDown = s.cxlDown := by cases a <;> rfl
@[simp] theorem State.setHart_gate (s : State) (a : Agent) (h : Hart) : (s.setHart a h).gate = s.gate := by cases a <;> rfl
@[simp] theorem State.setHart_rtDrain (s : State) (a : Agent) (h : Hart) : (s.setHart a h).rtDrain = s.rtDrain := by cases a <;> rfl
@[simp] theorem State.setHart_homes (s : State) (a : Agent) (h : Hart) : (s.setHart a h).homes = s.homes := by cases a <;> rfl
@[simp] theorem State.setHart_dieTlb (s : State) (a : Agent) (h : Hart) : (s.setHart a h).dieTlb = s.dieTlb := by cases a <;> rfl
@[simp] theorem State.setHart_tlbInv (s : State) (a : Agent) (h : Hart) : (s.setHart a h).tlbInv = s.tlbInv := by cases a <;> rfl
@[simp] theorem State.setHart_hubTags (s : State) (a : Agent) (h : Hart) : (s.setHart a h).hubTags = s.hubTags := by cases a <;> rfl
@[simp] theorem State.setHart_ccTags (s : State) (a : Agent) (h : Hart) : (s.setHart a h).ccTags = s.ccTags := by cases a <;> rfl
@[simp] theorem State.setHart_stamp (s : State) (a : Agent) (h : Hart) : (s.setHart a h).stamp = s.stamp := by cases a <;> rfl
@[simp] theorem State.setHart_dbp (s : State) (a : Agent) (h : Hart) : (s.setHart a h).dbp = s.dbp := by cases a <;> rfl
@[simp] theorem State.setHart_dbpSample (s : State) (a : Agent) (h : Hart) : (s.setHart a h).dbpSample = s.dbpSample := by cases a <;> rfl
@[simp] theorem State.setHart_frozenWays (s : State) (a : Agent) (h : Hart) : (s.setHart a h).frozenWays = s.frozenWays := by cases a <;> rfl
@[simp] theorem State.setHart_dirtyWays (s : State) (a : Agent) (h : Hart) : (s.setHart a h).dirtyWays = s.dirtyWays := by cases a <;> rfl
@[simp] theorem State.setHart_layerOff (s : State) (a : Agent) (h : Hart) : (s.setHart a h).layerOff = s.layerOff := by cases a <;> rfl
@[simp] theorem State.setHart_layerTrip (s : State) (a : Agent) (h : Hart) : (s.setHart a h).layerTrip = s.layerTrip := by cases a <;> rfl
@[simp] theorem State.setHart_flush (s : State) (a : Agent) (h : Hart) : (s.setHart a h).flush = s.flush := by cases a <;> rfl
@[simp] theorem State.setHart_swap (s : State) (a : Agent) (h : Hart) : (s.setHart a h).swap = s.swap := by cases a <;> rfl
@[simp] theorem State.setHart_stale (s : State) (a : Agent) (h : Hart) : (s.setHart a h).stale = s.stale := by cases a <;> rfl
@[simp] theorem State.setHart_heldW (s : State) (a : Agent) (h : Hart) : (s.setHart a h).heldW = s.heldW := by cases a <;> rfl
@[simp] theorem State.setHart_burst (s : State) (a : Agent) (h : Hart) : (s.setHart a h).burst = s.burst := by cases a <;> rfl
@[simp] theorem State.setHart_svAt (s : State) (a : Agent) (h : Hart) : (s.setHart a h).svAt = s.svAt := by cases a <;> rfl
@[simp] theorem State.setHart_sens (s : State) (a : Agent) (h : Hart) : (s.setHart a h).sens = s.sens := by cases a <;> rfl
@[simp] theorem State.setHart_flrLast (s : State) (a : Agent) (h : Hart) : (s.setHart a h).flrLast = s.flrLast := by cases a <;> rfl
@[simp] theorem State.setHart_scLines (s : State) (a : Agent) (h : Hart) : (s.setHart a h).scLines = s.scLines := by cases a <;> rfl
@[simp] theorem State.setHart_epoch (s : State) (a : Agent) (h : Hart) : (s.setHart a h).epoch = s.epoch := by cases a <;> rfl
@[simp] theorem State.setHart_posted (s : State) (a : Agent) (h : Hart) : (s.setHart a h).posted = s.posted := by cases a <;> rfl
@[simp] theorem State.setHart_landings (s : State) (a : Agent) (h : Hart) : (s.setHart a h).landings = s.landings := by cases a <;> rfl
@[simp] theorem State.setHart_landDone (s : State) (a : Agent) (h : Hart) : (s.setHart a h).landDone = s.landDone := by cases a <;> rfl
@[simp] theorem State.setHart_savedSets (s : State) (a : Agent) (h : Hart) : (s.setHart a h).savedSets = s.savedSets := by cases a <;> rfl
@[simp] theorem State.setHart_depCnt (s : State) (a : Agent) (h : Hart) : (s.setHart a h).depCnt = s.depCnt := by cases a <;> rfl
@[simp] theorem State.setHart_depUsed (s : State) (a : Agent) (h : Hart) : (s.setHart a h).depUsed = s.depUsed := by cases a <;> rfl
@[simp] theorem State.setHart_insts (s : State) (a : Agent) (h : Hart) : (s.setHart a h).insts = s.insts := by cases a <;> rfl
@[simp] theorem State.setHart_instNo (s : State) (a : Agent) (h : Hart) : (s.setHart a h).instNo = s.instNo := by cases a <;> rfl
@[simp] theorem State.setHart_qslots (s : State) (a : Agent) (h : Hart) : (s.setHart a h).qslots = s.qslots := by cases a <;> rfl
@[simp] theorem State.setHart_qwait (s : State) (a : Agent) (h : Hart) : (s.setHart a h).qwait = s.qwait := by cases a <;> rfl
@[simp] theorem State.setHart_widx (s : State) (a : Agent) (h : Hart) : (s.setHart a h).widx = s.widx := by cases a <;> rfl
@[simp] theorem State.setHart_streams (s : State) (a : Agent) (h : Hart) : (s.setHart a h).streams = s.streams := by cases a <;> rfl
@[simp] theorem State.setHart_tvChan (s : State) (a : Agent) (h : Hart) : (s.setHart a h).tvChan = s.tvChan := by cases a <;> rfl
@[simp] theorem State.setHart_tvReply (s : State) (a : Agent) (h : Hart) : (s.setHart a h).tvReply = s.tvReply := by cases a <;> rfl
@[simp] theorem State.setHart_logHead (s : State) (a : Agent) (h : Hart) : (s.setHart a h).logHead = s.logHead := by cases a <;> rfl
@[simp] theorem State.setHart_mbox (s : State) (a : Agent) (h : Hart) : (s.setHart a h).mbox = s.mbox := by cases a <;> rfl
@[simp] theorem State.setHart_timeFired (s : State) (a : Agent) (h : Hart) : (s.setHart a h).timeFired = s.timeFired := by cases a <;> rfl
@[simp] theorem State.setHart_links (s : State) (a : Agent) (h : Hart) : (s.setHart a h).links = s.links := by cases a <;> rfl
@[simp] theorem State.setHart_eth (s : State) (a : Agent) (h : Hart) : (s.setHart a h).eth = s.eth := by cases a <;> rfl
@[simp] theorem State.setHart_hostOut (s : State) (a : Agent) (h : Hart) : (s.setHart a h).hostOut = s.hostOut := by cases a <;> rfl
@[simp] theorem State.setHart_fabOut (s : State) (a : Agent) (h : Hart) : (s.setHart a h).fabOut = s.fabOut := by cases a <;> rfl
@[simp] theorem State.setHart_flr (s : State) (a : Agent) (h : Hart) : (s.setHart a h).flr = s.flr := by cases a <;> rfl
@[simp] theorem State.setHart_owed (s : State) (a : Agent) (h : Hart) : (s.setHart a h).owed = s.owed := by cases a <;> rfl
@[simp] theorem State.setHart_relCov (s : State) (a : Agent) (h : Hart) : (s.setHart a h).relCov = s.relCov := by cases a <;> rfl
@[simp] theorem State.setHart_foreign (s : State) (a : Agent) (h : Hart) : (s.setHart a h).foreign = s.foreign := by cases a <;> rfl

theorem State.core_setHart (s : State) (n : Nat) (h : Hart) : (s.setHart (.core n) h).core n = { s.core n with hart := h } :=
  State.core_modCore s n _

theorem State.core_setHart_ne (s : State) {n m : Nat} (h : Hart) (hm : m ≠ n) : (s.setHart (.core n) h).core m = s.core m :=
  State.core_modCore_ne s _ hm

theorem State.hart_core (s : State) (n : Nat) : s.hart (.core n) = (s.core n).hart := rfl

end Sys2Proof.Machine
end

