-- ==== Sys2Proof/Laws/Keeps.lean ====
section
/-! SUPPORT. Operations that keep a property of the state whatever they come to: one rule for each way of putting
operations together, and the memory operations keep the canonical form. -/
namespace Sys2Proof.Machine

variable {α β : Type} {P : State → Prop}

/-- Whether or not it runs to its end, the operation leaves a state with the property where it found one. -/
def Keeps (P : State → Prop) (m : M α) : Prop := ∀ s, P s → P (m.run s).2

@[simp] theorem keeps_pure (a : α) : Keeps P (pure a : M α) := fun _ h => h

@[simp] theorem keeps_get : Keeps P (get : M State) := fun _ h => h

@[simp] theorem keeps_throw (e : Stop) : Keeps P (throw e : M α) := fun _ h => h

theorem keeps_modify {g : State → State} (h : ∀ s, P s → P (g s)) : Keeps P (modify g : M PUnit) := fun s hs => h s hs

theorem keeps_set {t : State} (h : P t) : Keeps P (set t : M PUnit) := fun _ _ => h

@[simp] theorem keeps_bind {m : M α} {f : α → M β} (hm : Keeps P m) (hf : ∀ a, Keeps P (f a)) : Keeps P (m >>= f) := by
  intro s hs
  rw [M.run_bind]
  have h := hm s hs
  rcases hr : m.run s with ⟨r, t⟩
  rw [hr] at h
  cases r with
  | ok a => exact hf a t h
  | error e => exact h

/-- The state that was read has the property, which the rest may need. -/
@[simp] theorem keeps_bind_get'  {f : State → M β} (hf : ∀ u, Keeps P (f u)) : Keeps P ((MonadState.get : M State) >>= f) :=
  keeps_bind keeps_get hf

theorem keeps_bind_get {f : State → M β} (hf : ∀ u, P u → Keeps P (f u)) : Keeps P ((MonadState.get : M State) >>= f) := by
  intro s hs
  rw [M.run_bind_get]
  exact hf s hs s hs

@[simp] theorem keeps_tryCatch {m : M α} {g : Stop → M α} (hm : Keeps P m) (hg : ∀ e, Keeps P (g e)) : Keeps P (tryCatch m g) := by
  intro s hs
  rw [M.run_tryCatch]
  have h := hm s hs
  rcases hr : m.run s with ⟨r, t⟩
  rw [hr] at h
  cases r with
  | ok a => exact h
  | error e => exact hg e t h

@[simp] theorem keeps_map {f : α → β} {m : M α} (hm : Keeps P m) : Keeps P (f <$> m) := by
  intro s hs
  rw [M.run_map]
  have h := hm s hs
  rcases hr : m.run s with ⟨r, t⟩
  rw [hr] at h
  cases r <;> exact h

@[simp] theorem keeps_ite_simp {c : Prop} [Decidable c] {m m' : M α} (h : Keeps P m) (h' : Keeps P m') :
    Keeps P (if c then m else m') := by
  split
  · exact h
  · exact h'

theorem keeps_ite {c : Prop} [Decidable c] {m m' : M α} (h : c → Keeps P m) (h' : ¬c → Keeps P m') :
    Keeps P (if c then m else m') := by
  split
  · exact h ‹_›
  · exact h' ‹_›

@[simp] theorem keeps_forM {l : List β} {f : β → M PUnit} (h : ∀ b, Keeps P (f b)) : Keeps P (l.forM f) := by
  induction l with
  | nil => exact keeps_pure _
  | cons b r ih => exact keeps_bind (h b) fun _ => ih

@[simp] theorem keeps_forM' {l : List β} {f : β → M PUnit} (h : ∀ b, Keeps P (f b)) : Keeps P (ForM.forM l f) := keeps_forM h

@[simp] theorem keeps_mapM {l : List β} {f : β → M α} (h : ∀ b, Keeps P (f b)) : Keeps P (l.mapM f) := by
  induction l with
  | nil => rw [List.mapM_nil]; exact keeps_pure _
  | cons b r ih =>
    rw [List.mapM_cons]
    exact keeps_bind (h b) fun _ => keeps_bind ih fun _ => keeps_pure _

@[simp] theorem keeps_at {m : M α} {va off : Option Nat} (h : Keeps P m) : Keeps P (M.at va off m) :=
  keeps_tryCatch h fun e => by cases e <;> exact keeps_throw _

/-- Taking a fault as a trap reports it, which the property has to survive. -/
theorem keeps_asAccess {m : M α} {k : AccKind} {va : Nat} (h : Keeps P m) (hr : ∀ s f, P s → P (s.reportFlt f)) :
    Keeps P (M.asAccess k va m) :=
  keeps_tryCatch h fun e => by
    cases e with
    | flt f => exact keeps_bind (keeps_modify fun s hs => hr s f hs) fun _ => keeps_bind keeps_get fun _ => keeps_throw _
    | trap t => exact keeps_throw _
    | wait k => exact keeps_throw _
    | stall => exact keeps_throw _
    | pause o => exact keeps_throw _

@[simp] theorem keeps_flt (c d a a2 : Nat) : Keeps P (flt c d a a2 : M α) := keeps_throw _

@[simp] theorem keeps_trapM (c t x d : Nat) : Keeps P (trapM c t x d : M α) := keeps_throw _

@[simp] theorem keeps_illegal : Keeps P (illegal : M α) := keeps_throw _

/-- What an event leaves has the property, where reporting a fault keeps it. -/
theorem keeps_event {m : M Unit} (h : Keeps P m) (hr : ∀ s f, P s → P (s.hubReport f)) {s t : State} (hs : P s)
    (ht : runEvent m s = .next t) : P t := by
  obtain ⟨u, hu, h1 | ⟨f, -, -, h1⟩ | h1⟩ := runEvent_next m s
  all_goals obtain rfl := Host.Outcome.next.inj (hu.symm.trans ht)
  · exact h1 ▸ hs
  · exact h1 ▸ hr _ _ hs
  · have := h s hs
    rwa [h1.run] at this

/-- What a control instruction leaves has the property, where ending, trapping and waiting keep it. -/
theorem keeps_runFor {a : Agent} {m : M (Option W64)} (h : Keeps P m) (hf : ∀ s pc, P s → P (s.finishInstr a pc))
    (ht : ∀ s x, P s → P (s.takeTrap a x)) (hw : ∀ s k, P s → P (s.enterWait a k)) {s : State} (hs : P s) :
    P (Machine.runFor a m s) := by
  have hk := h s hs
  rcases runFor_cases a m s with ⟨pc, t, h1, h2⟩ | ⟨x, t, h1, h2⟩ | ⟨f, t, h1, h2⟩ | ⟨k, t, h1, h2⟩ | h2 <;> rw [h2]
  · rw [h1.run] at hk; exact hf _ _ hk
  · rw [h1] at hk; exact ht _ _ hk
  · rw [h1] at hk; exact ht _ _ hk
  · exact hw _ _ hs
  · exact hs

/-! ### Ending, trapping and waiting touch the hart alone -/

theorem State.finishInstr_eq (s : State) (a : Agent) (pc : Option W64) : ∃ h, s.finishInstr a pc = s.setHart a h := ⟨_, rfl⟩

theorem State.takeTrap_eq (s : State) (a : Agent) (t : Trap) :
    ∃ (k : Nat) (h : Hart), s.takeTrap a t = ({ s with freeNo := s.freeNo + k } : State).setHart a h := by
  unfold State.takeTrap
  split
  · exact ⟨1, _, rfl⟩
  · exact ⟨0, _, rfl⟩

theorem State.enterWait_eq (s : State) (a : Agent) (k : WaitKind) : s.enterWait a k = s ∨ ∃ h, s.enterWait a k = s.setHart a h := by
  unfold State.enterWait
  dsimp only
  split
  · exact .inl rfl
  · exact .inr ⟨_, rfl⟩

@[simp] theorem State.finishInstr_mem (s : State) (a : Agent) (pc : Option W64) : (s.finishInstr a pc).mem = s.mem :=
  State.setHart_mem _ _ _

@[simp] theorem State.takeTrap_mem (s : State) (a : Agent) (t : Trap) : (s.takeTrap a t).mem = s.mem := by
  obtain ⟨k, h, e⟩ := s.takeTrap_eq a t
  rw [e, State.setHart_mem]

@[simp] theorem State.enterWait_mem (s : State) (a : Agent) (k : WaitKind) : (s.enterWait a k).mem = s.mem := by
  rcases s.enterWait_eq a k with h | ⟨h, e⟩
  · rw [h]
  · rw [e, State.setHart_mem]

/-! ### Memory operations keep the canonical form -/

theorem State.memOk_of {s t : State} (h : t.mem = s.mem) (hs : s.MemOk) : t.MemOk := by unfold State.MemOk; rw [h]; exact hs

@[simp] theorem State.freshLines_mem (s : State) (pa len : Nat) : (s.freshLines pa len).mem = s.mem := rfl

@[simp] theorem State.log_mem (s : State) (k d pa : Nat) (l : List Nat) : (s.log k d pa l).mem = s.mem := by
  unfold State.log State.logRaw
  dsimp only
  split <;> simp [State.setFld]

/-- A foldl of updates that leave memory alone leaves it alone. -/
theorem mem_foldl {β : Type} (l : List β) (g : State → β → State) (h : ∀ s b, (g s b).mem = s.mem) (s : State) :
    (l.foldl g s).mem = s.mem := by
  induction l generalizing s with
  | nil => rfl
  | cons b r ih => rw [List.foldl_cons, ih, h]

@[simp] theorem State.breakResv_mem (s : State) (line : Nat) (c : Option Nat) : (s.breakResv line c).mem = s.mem := by
  unfold State.breakResv
  dsimp only
  exact mem_foldl _ _ (fun t e => by split <;> simp) s

@[simp] theorem State.settleCover_mem (s : State) : s.settleCover.mem = s.mem := rfl

@[simp] theorem State.takeInval_mem (s : State) (p : StaleCopy → Bool) : (s.takeInval p).mem = s.mem := by
  unfold State.takeInval; split <;> rfl

/-- Where no die reads an old copy there is no invalidation to take. -/
theorem State.takeInval_none (s : State) (p : StaleCopy → Bool) (h : s.stale = []) : s.takeInval p = s := by
  unfold State.takeInval; rw [h]; rfl

@[simp] theorem State.lostCopy_mem (s : State) (d a : Nat) : (s.lostCopy d a).mem = s.mem := by
  unfold State.lostCopy; split <;> simp

@[simp] theorem State.trimStale_mem (s : State) : s.trimStale.mem = s.mem := by
  unfold State.trimStale; split <;> rfl

theorem State.trimStale_none (s : State) (h : s.stale = []) : s.trimStale = s := by
  unfold State.trimStale; rw [h]; rfl

@[simp] theorem State.dropTags_mem (s : State) (p : CTag → Bool) : (s.dropTags p).mem = s.mem := by
  unfold State.dropTags; simp

@[simp] theorem State.poisonAt_mem (s : State) (pa : Nat) : (s.poisonAt pa).mem = s.mem := by
  unfold State.poisonAt; dsimp only; split <;> rfl

@[simp] theorem State.writeBack_mem (s : State) (pa : Nat) (x : W32) : (s.writeBack pa x).mem = s.mem := by
  unfold State.writeBack; split
  · rfl
  · rw [State.log_mem, State.poisonAt_mem]

/-- A write-back of a line whose check is good changes nothing. -/
theorem State.writeBack_good (s : State) (pa : Nat) (h : (s.lineMeta pa).diff = 0) : s.writeBack pa 0 = s := by
  unfold State.writeBack; rw [if_pos ⟨h, rfl⟩]

@[simp] theorem State.writeBackLine_mem (s : State) (t : CTag) : (s.writeBackLine t).mem = s.mem := by
  unfold State.writeBackLine; simp

@[simp] theorem State.sendInval_mem (s : State) (line : Nat) (w : Who) (old : List Byte) :
    (s.sendInval line w old).mem = s.mem := by
  unfold State.sendInval
  dsimp only
  exact mem_foldl _ _ (fun t e => by split <;> rfl) _

/-- A line stored at its home. -/
theorem State.storeLine_memOk (s : State) (w : Who) (c : Bool) (pa : Nat) (d : List Byte) (h : s.MemOk) :
    (s.storeLine w c pa d).MemOk := by
  have key : ∀ t : State, t.MemOk → ∀ k, ({ t with mem := Memory.writeList t.mem k d, lines := Table.put LineMeta.good t.lines (k / 64) LineMeta.good } : State).MemOk :=
    fun t ht k => Memory.writeList_wf d k ht
  unfold State.storeLine
  dsimp only
  have h1 := key s h (s.key (s.norm pa))
  split
  all_goals (try split)
  all_goals (try split)
  all_goals first
    | (refine State.memOk_of (State.sendInval_mem ..) (State.memOk_of (State.breakResv_mem ..) ?_))
    | (refine State.memOk_of (State.breakResv_mem ..) ?_)
  all_goals first
    | exact h1
    | exact key _ h1 _

/-! Bank lines of a scratchpad. -/

@[simp] theorem keeps_logM {k d pa : Nat} {l : List Nat} : Keeps State.MemOk (logM k d pa l) :=
  keeps_modify fun s h => State.memOk_of (State.log_mem s k d pa l) h

@[simp] theorem keeps_modCore {n : Nat} {g : Core → Core} : Keeps State.MemOk (modify (fun s => s.modCore n g) : M PUnit) :=
  keeps_modify fun _ h => h

@[simp] theorem keeps_freshBool : Keeps State.MemOk freshBool := fun _ h => h

@[simp] theorem keeps_freshWord : Keeps State.MemOk freshWord := fun _ h => h

@[simp] theorem bankAccess_memOk (n g r b : Nat) : Keeps State.MemOk (bankAccess n g r b) := by
  unfold bankAccess
  simp (maxDischargeDepth := 40)

@[simp] theorem reconFault_memOk (a g r m k : Nat) : Keeps State.MemOk (reconFault a g r m k : M α) := keeps_throw _

@[simp] theorem reconstruct_memOk (n g r b k : Nat) : Keeps State.MemOk (reconstruct n g r b k) := by
  unfold reconstruct
  simp (maxDischargeDepth := 40)

@[simp] theorem catchUpRow_memOk (n g r : Nat) : Keeps State.MemOk (catchUpRow n g r) := by
  unfold catchUpRow
  simp (maxDischargeDepth := 40)

@[simp] theorem catchUp_memOk (n g : Nat) : Keeps State.MemOk (catchUp n g) := by
  unfold catchUp
  refine keeps_bind_get fun s _ => ?_
  split <;> simp (maxDischargeDepth := 40)

@[simp] theorem groupTurn_memOk (n g : Nat) : Keeps State.MemOk (groupTurn n g) := by
  unfold groupTurn
  simp (maxDischargeDepth := 40)

@[simp] theorem triangulated_memOk (n g r b : Nat) : Keeps State.MemOk (triangulated n g r b) := by
  unfold triangulated
  simp (maxDischargeDepth := 40)

@[simp] theorem readBankLine_memOk (n g r b k : Nat) : Keeps State.MemOk (readBankLine n g r b k) := by
  unfold readBankLine
  simp (maxDischargeDepth := 40)

/-- Writing bytes keeps the canonical form. -/
@[simp] theorem keeps_writeList (k : Nat) (l : List Byte) :
    Keeps State.MemOk (modify (fun s => { s with mem := Memory.writeList s.mem k l }) : M PUnit) :=
  keeps_modify fun _ h => Memory.writeList_wf l k h

/-- An update that leaves memory alone keeps the canonical form. -/
theorem keeps_sameMem {g : State → State} (h : ∀ s, (g s).mem = s.mem) : Keeps State.MemOk (modify g : M PUnit) :=
  keeps_modify fun s hs => State.memOk_of (h s) hs

@[simp] theorem keeps_freshLines (pa len : Nat) : Keeps State.MemOk (modify (fun s => s.freshLines pa len) : M PUnit) :=
  keeps_sameMem fun _ => rfl

@[simp] theorem storeBankLine_memOk (n off : Nat) (d : List Byte) : Keeps State.MemOk (storeBankLine n off d) := by
  unfold storeBankLine
  simp (maxDischargeDepth := 40)

@[simp] theorem writeBankLine_memOk (n off : Nat) (d : List Byte) : Keeps State.MemOk (writeBankLine n off d) := by
  unfold writeBankLine
  have merge : Keeps State.MemOk (if partHalf off d.length = true then do
      let _ ← bankAccess n (spGroup n off) (spRow n off) (spBank off)
      pure () else pure () : M Unit) := by
    split <;> simp
  simp (maxDischargeDepth := 60)

@[simp] theorem writeStripe_memOk (n off : Nat) (d : List Byte) : Keeps State.MemOk (writeStripe n off d) := by
  unfold writeStripe
  simp (maxDischargeDepth := 40)

@[simp] theorem keeps_breakAll (l : List Nat) (c : Option Nat) :
    Keeps State.MemOk (modify (fun s => l.foldl (fun t x => t.breakResv x c) s) : M PUnit) :=
  keeps_sameMem fun s => mem_foldl _ _ (fun t x => State.breakResv_mem t x c) s

@[simp] theorem keeps_burst (g : Option (List (Nat × List Nat)) → Option (List (Nat × List Nat))) :
    Keeps State.MemOk (modify (fun s => { s with burst := g s.burst }) : M PUnit) := keeps_modify fun _ h => h

@[simp] theorem fetchBankLine_memOk (w : Who) (n off : Nat) : Keeps State.MemOk (fetchBankLine w n off) := by
  unfold fetchBankLine
  refine keeps_bind_get fun s _ => ?_
  dsimp only
  have note : ∀ r : List Nat, Keeps State.MemOk
      (modify (fun t => { t with burst := t.burst.map ((n * 2 ^ 20 + off / 128, r) :: ·) }) : M PUnit) := fun r =>
    keeps_burst fun b => b.map _
  split
  · exact keeps_flt _ _ _ _
  · exact keeps_pure _
  · refine keeps_bind (keeps_tryCatch (readBankLine_memOk _ _ _ _ _) fun e => ?_) fun _ => note _
    split
    · exact keeps_bind (note _) fun _ => keeps_throw _
    · exact keeps_throw _

/-- A burst keeps what its reads keep. -/
theorem inBurst_memOk {m : M α} (h : Keeps State.MemOk m) : Keeps State.MemOk (inBurst m) := by
  unfold inBurst
  refine keeps_bind_get fun s _ => ?_
  dsimp only
  have close : Keeps State.MemOk (if s.burst.isSome then pure () else modify fun t => { t with burst := none } : M Unit) := by
    split
    · exact keeps_pure _
    · exact keeps_burst fun _ => none
  exact keeps_bind (keeps_burst fun b => some (b.getD [])) fun _ =>
    keeps_bind (keeps_tryCatch h fun e => keeps_bind close fun _ => keeps_throw e) fun _ =>
    keeps_bind close fun _ => keeps_pure _

/-- A write to a scratchpad keeps the canonical form. -/
@[simp] theorem spWrite_memOk (w : Who) (n off : Nat) (d : List Byte) : Keeps State.MemOk (spWrite w n off d) := by
  unfold spWrite
  simp (maxDischargeDepth := 60)

@[simp] theorem spTake_memOk (n off len : Nat) : Keeps State.MemOk (spTake n off len) := by
  unfold spTake
  simp (maxDischargeDepth := 40)

@[simp] theorem spRead_memOk (w : Who) (n off len : Nat) : Keeps State.MemOk (spRead w n off len) := by
  unfold spRead
  simp (maxDischargeDepth := 40)

@[simp] theorem homeCheck_memOk (q : Req) (pa : Nat) : Keeps State.MemOk (homeCheck q pa) := by
  unfold homeCheck
  refine keeps_bind_get fun s _ => ?_
  repeat' split
  all_goals simp (maxDischargeDepth := 40)

@[simp] theorem lineFit_memOk (pa code : Nat) : Keeps State.MemOk (lineFit pa code) := by
  unfold lineFit keyFit integrity
  simp (maxDischargeDepth := 40)

@[simp] theorem keyFit_memOk (key pa code : Nat) : Keeps State.MemOk (keyFit key pa code) := by
  unfold keyFit integrity
  simp (maxDischargeDepth := 40)

@[simp] theorem foundFit_memOk (q : Req) (pa code : Nat) : Keeps State.MemOk (foundFit q pa code) := by
  unfold foundFit integrity
  refine keeps_bind_get fun s _ => ?_
  split <;> simp (maxDischargeDepth := 40)

@[simp] theorem readFit_memOk (q : Req) (pa : Nat) : Keeps State.MemOk (readFit q pa) := by
  unfold readFit
  simp

@[simp] theorem mergeFit_memOk (q : Req) (pa : Nat) : Keeps State.MemOk (mergeFit q pa) := by
  unfold mergeFit
  refine keeps_bind (by simp) fun _ => keeps_bind_get fun s _ => ?_
  split <;> simp

@[simp] theorem spillFit_memOk (w : Who) (pa : Nat) : Keeps State.MemOk (spillFit w pa) := by
  unfold spillFit
  refine keeps_bind_get fun s _ => ?_
  dsimp only
  split
  · split <;> simp
  · simp

@[simp] theorem dbpBump_mem (s : State) (i : Nat) (u : Bool) : (dbpBump s i u).mem = s.mem := rfl

@[simp] theorem State.hubAlloc_mem (s : State) (pa way : Nat) (t : CTag) : (s.hubAlloc pa way t).mem = s.mem := by
  unfold State.hubAlloc
  dsimp only
  split
  · split <;> split <;> simp
  · rfl

@[simp] theorem State.hubHit_mem (s : State) (k : Nat) (t : CTag) (res : Nat) (w : Bool) : (s.hubHit k t res w).mem = s.mem := by
  unfold State.hubHit; dsimp only; split <;> rfl

@[simp] theorem State.hubPlace_mem (s : State) (pa c res cls : Nat) (w : Bool) : (s.hubPlace pa c res cls w).mem = s.mem := by
  unfold State.hubPlace; split <;> simp

@[simp] theorem State.hubFill_mem (s : State) (pa c res cls : Nat) (w : Bool) : (s.hubFill pa c res cls w).mem = s.mem := by
  unfold State.hubFill; dsimp only
  split
  · split
    · rfl
    · rw [State.hubPlace_mem]
  · simp

@[simp] theorem State.touchHub_mem (s : State) (pa c res cls : Nat) (w : Bool) : (s.touchHub pa c res cls w).mem = s.mem := by
  unfold State.touchHub; split
  · simp
  · split <;> simp

@[simp] theorem State.ccFill_mem (s : State) (cl pa c : Nat) (t : CTag) : (s.ccFill cl pa c t).mem = s.mem := by
  unfold State.ccFill; dsimp only; split
  · split
    · rw [State.lostCopy_mem]
      show (if _ then _ else s).mem = s.mem
      split <;> simp
    · rfl
  · rfl

@[simp] theorem State.hubDirty_mem (s : State) (pa : Nat) : (s.hubDirty pa).mem = s.mem := by
  unfold State.hubDirty; split <;> rfl

@[simp] theorem State.freshCopies_mem (s : State) (cl : Option Nat) (pa : Nat) : (s.freshCopies cl pa).mem = s.mem := by
  unfold State.freshCopies; dsimp only; split <;> rfl

@[simp] theorem State.touchCc_mem (s : State) (cl pa c res cls : Nat) (w : Bool) : (s.touchCc cl pa c res cls w).mem = s.mem := by
  unfold State.touchCc; split
  · rfl
  · split <;> simp

@[simp] theorem State.touchLine_mem (s : State) (w : Who) (pa res cls : Nat) (wr : Bool) : (s.touchLine w pa res cls wr).mem = s.mem := by
  have h : ∀ t : State, (if wr then t.freshCopies (w.coreNo.map clusterOf) (s.norm pa) else t).mem = t.mem := fun t => by
    split <;> simp
  have h' : ∀ t : State, (if wr then t.hubDirty (s.norm pa) else t).mem = t.mem := fun t => by split <;> simp
  unfold State.touchLine; dsimp only
  split
  · rw [State.touchHub_mem, h]
  · split
    · exact (h' _).trans (h _)
    · rw [State.touchCc_mem, State.touchHub_mem, h]

@[simp] theorem State.noteRead_mem (s : State) (q : Req) (pa : Nat) : (s.noteRead q pa).mem = s.mem := by
  unfold State.noteRead
  split <;> simp

@[simp] theorem State.noteObserved_mem (s : State) (w : Who) (pa : Nat) : (s.noteObserved w pa).mem = s.mem := by
  unfold State.noteObserved
  split
  · dsimp only; split <;> simp
  · rfl

@[simp] theorem keeps_touchLine (w : Who) (pa res cls : Nat) (wr : Bool) :
    Keeps State.MemOk (modify (fun s => s.touchLine w pa res cls wr) : M PUnit) := keeps_sameMem fun s => State.touchLine_mem s ..

@[simp] theorem keeps_note (q : Req) (w : Who) (pa : Nat) :
    Keeps State.MemOk (modify (fun s => (s.noteRead q pa).noteObserved w pa) : M PUnit) := keeps_sameMem fun s => by simp

/-- A read of a line keeps the canonical form. -/
@[simp] theorem readSeg_memOk (q : Req) (pa len : Nat) : Keeps State.MemOk (readSeg q pa len) := by
  unfold readSeg
  refine keeps_bind_get fun s _ => ?_
  split
  · simp (maxDischargeDepth := 40)
  · split <;> simp (maxDischargeDepth := 40)

@[simp] theorem keeps_storeLine (w : Who) (c : Bool) (pa : Nat) (d : List Byte) :
    Keeps State.MemOk (modify (fun s => s.storeLine w c pa d) : M PUnit) := keeps_modify fun s h => State.storeLine_memOk s w c pa d h

@[simp] theorem State.holdAtSwap_mem (s : State) (w : Who) (no pa : Nat) (d : List Byte) :
    (s.holdAtSwap w no pa d).mem = s.mem := State.breakResv_mem ..

@[simp] theorem State.tellWrite_mem (s : State) (q : Req) (pa : Nat) (d : List Byte) : (s.tellWrite q pa d).mem = s.mem := by
  unfold State.tellWrite
  split
  · split <;> rfl
  · rfl

theorem State.putLine_memOk (s : State) (w : Who) (c : Bool) (pa : Nat) (d : List Byte) (h : s.MemOk) :
    (s.putLine w c pa d).MemOk := by
  unfold State.putLine
  split
  · exact State.memOk_of (State.holdAtSwap_mem ..) h
  · exact State.storeLine_memOk s _ _ _ _ h

theorem State.performWrite_memOk (s : State) (q : Req) (pa : Nat) (d : List Byte) (h : s.MemOk) :
    (s.performWrite q pa d).MemOk := by
  have key : ∀ (t : State) (b : Bool), t.MemOk → (if b then t.touchLine q.who pa q.res q.cls true else t).MemOk := by
    intro t b ht
    split
    · exact State.memOk_of (State.touchLine_mem ..) ht
    · exact ht
  unfold State.performWrite
  dsimp only
  exact key _ _ (State.memOk_of (State.tellWrite_mem ..) (s.putLine_memOk _ _ _ _ h))

@[simp] theorem keeps_performWrite (q : Req) (pa : Nat) (d : List Byte) :
    Keeps State.MemOk (modify (fun s => s.performWrite q pa d) : M PUnit) := keeps_modify fun s h => s.performWrite_memOk q pa d h

@[simp] theorem State.holdWrite_mem (s : State) (q : Req) (pa : Nat) (d : List Byte) : (s.holdWrite q pa d).mem = s.mem := by
  unfold State.holdWrite; dsimp only; rw [State.touchCc_mem]
  show (if _ then s else s.breakResv _ _).mem = s.mem
  split <;> simp

@[simp] theorem keeps_holdWrite (q : Req) (pa : Nat) (d : List Byte) :
    Keeps State.MemOk (modify (fun s => s.holdWrite q pa d) : M PUnit) := keeps_sameMem fun s => s.holdWrite_mem q pa d

@[simp] theorem keeps_noteWay (pa : Nat) : Keeps State.MemOk (modify (fun s => s.noteWay pa) : M PUnit) :=
  keeps_sameMem fun s => by unfold State.noteWay; split <;> rfl

/-- A write of a line keeps the canonical form. -/
@[simp] theorem writeSeg_memOk (q : Req) (pa : Nat) (d : List Byte) : Keeps State.MemOk (writeSeg q pa d) := by
  unfold writeSeg
  refine keeps_bind_get fun s _ => keeps_bind (by simp) fun _ => ?_
  split
  · simp
  · refine keeps_ite (fun _ => keeps_bind (keeps_flt _ _ _ _) fun _ => ?_) fun _ => ?_
    all_goals simp (maxDischargeDepth := 40)

@[simp] theorem readRun_memOk (q : Req) (pa len : Nat) : Keeps State.MemOk (readRun q pa len) := by
  unfold readRun
  exact keeps_bind_get fun s _ => keeps_bind (keeps_mapM fun _ => readSeg_memOk q _ _) fun _ => keeps_pure _

@[simp] theorem writeRun_memOk (q : Req) (pa : Nat) (d : List Byte) : Keeps State.MemOk (writeRun q pa d) := by
  unfold writeRun
  refine keeps_bind_get fun s _ => ?_
  split <;> simp (maxDischargeDepth := 40)

end Sys2Proof.Machine
end

