-- ==== Sys2Proof/Tests/Slice0.lean ====
section
/-! SUPPORT. Tests: words of the spec and what they decode to, a term that each check of well-formedness refuses, single steps
whose results the spec's worked cases give, and for the statements with hypotheses states that meet them. -/
namespace Sys2Proof.Tests
open Sys2Proof.Machine
set_option Elab.async false

/-! ### Words the spec writes out -/

/-- Q0 without its MOD field, in the order of R55: WSEM when awaited, RSEM when raised, BOUND, RND, OVF, SPEC. -/
def hd (w r : Option (BitVec 5)) (bound : BitVec 20) (rnd ovf : BitVec 2) : Hdr :=
  { wsem := w.getD 0, wen := w.isSome, rsem := r.getD 0, ren := r.isSome, bound := bound, rnd := rnd, ovf := ovf, spec := false }

def cleanHd : Hdr := hd none none 1 0 0

def isCmd (q0 q1 q2 q3 : W64) (i : Instr) : Bool := decide (decode (.cmd q0 q1 q2 q3) = some i) && decide (encode i = some (.cmd q0 q1 q2 q3)) && i.wf

def isWord (w : W32) (i : Instr) : Bool := decide (decode (.word w) = some i) && decide (encode i = some (.word w)) && i.wf

-- R54 and R290's lines, and the worked words of the control core's chapter (R292, R295, R298, R305)
theorem test_decode_ringPost : isWord 0x0020000B#32 (.ringPost .ld 2#12) && isWord 0x0010010B#32 (.ringPost .mx 1#12) &&
    isWord 0x0005850B#32 (.ringPostFreshReg .mx 11#5 0#12) = true := by decide +kernel

theorem test_decode_semWait : isWord 0x0630100B#32 (.semWait 3#5) = true := by decide +kernel

theorem test_decode_cbTake : isWord 0x0606228B#32 (.cbTake 5#5 12#5) = true := by decide +kernel

theorem test_decode_amo : isWord 0x10B6252B#32 (.amoAdd false .die 10#5 11#5 12#5) && isWord 0x4CB6352B#32 (.amoCas true .pkg 10#5 11#5 12#5) = true := by
  decide +kernel

theorem test_decode_arrive : isWord 0x5806252B#32 (.arrive .die 10#5 12#5) = true := by decide +kernel

theorem test_decode_ctxSave : isWord 0x0005005B#32 (.ctxSave 10#5) = true := by decide +kernel

-- R51: funct7 0x01 and 0x00, funct3 011
theorem test_decode_tasks : isWord 0x0000300B#32 .taskRetire && isWord 0x0200300B#32 .taskAbort = true := by decide +kernel

-- RV64 (R48): srai a1, a1, 2; add a0, a0, a1; ld a0, 8(a1); sd a0, 8(a1); amoadd.d a0, a1, (a2); fence; mret
theorem test_decode_standard :
    isWord 0x4025D593#32 (.standardInstruction (.shift .srai 11#5 11#5 2#6)) && isWord 0x00B50533#32 (.standardInstruction (.alu .add 10#5 10#5 11#5)) &&
    isWord 0x0085B503#32 (.controlCoreLoad .d 10#5 11#5 8#12) && isWord 0x00A5B423#32 (.controlCoreStore .d 10#5 11#5 8#12) &&
    isWord 0x00B6352F#32 (.standardAtomic .add true false false 10#5 12#5 11#5) && isWord 0x0FF0000F#32 (.standardFence 0#4 15#4 15#4 0#5 0#5) &&
    isWord 0x30200073#32 (.standardInstruction (.sys .mret)) = true := by
  decide +kernel

-- 16-bit forms: c.li a0, 1 is addi a0, x0, 1; c.add a0, a1; c.jr ra
theorem test_decode_compressed :
    decode16 0x4505#16 = some (.standardInstruction (.imm .addi 10#5 0#5 1#12)) ∧ decode16 0x952E#16 = some (.standardInstruction (.alu .add 10#5 10#5 11#5)) ∧
    decode16 0x8082#16 = some (.standardInstruction (.jalr 0#5 1#5 0#12)) := by
  decide +kernel

-- R58's worked word: CB.REL on VX
theorem test_decode_cbRelCommand :
    isCmd 0xF131470004000000 0x0000000000040005 0 0 (.cbRelCommand .vx (hd (some 2) (some 3) 64 0 0) { cb := 5, m := 4 }) = true := by decide +kernel

-- R151: LD.TILE (a3), (a1), len=32, n1=8, ss1=32, dp=8
def ldTile0 : LdArgs :=
  { res := 0, rft := false, rreg := 0, dcen := false, span := 0, tr := false, cs := 0, dst := 0x60000000, q1hi := 0x20000000, len0 := 32, cnt1 := 8, cnt2 := 1,
    dctr := 0, stype := 0, q2z := 0, q3 := 0x0008000000000020 }
theorem test_decode_ldTile : isCmd 0x0100000400000000 0x2000000060000000 0x0000000010080020 0x0008000000000020 (.ldTile (hd none none 0x4000 0 0) ldTile0) = true := by
  decide +kernel

-- the chapter of matrices: MMA.BF16 into acc1, Z, chained from acc0 as BF16
theorem test_decode_mma : isCmd 0x012007010000000D 0x00000000A0000180 0 0 (.mmaBf16 (hd none (some 3) 4096 0 0) { md := 0xD, q1 := 0xA0000180, q2 := 0, q3 := 0 }) = true := by
  decide +kernel

def vx0 : VxArgs :=
  { msk := 0, mz := false, gz := 0, xm := 0, vd := 4, z76 := 0, etype := 3, va := ⟨2, 0, 0, false⟩, vb := ⟨3, 0, 0, false⟩, vc := ⟨0, 0, 0, false⟩, kd := 0, ka := 0, kb := 0,
    imm := 0, etype2 := 0, q2z := 0, q3 := 0 }

-- R171: ADDS.I8 v4, v2, -v3 under k1 with OVF = SAT; R202: CVT; R205: QZ.L8
theorem test_decode_vector :
    isCmd 0x12300B0000210001 0x0000000C10800304 0 0 (.vxAdds (hd none (some 5) 2 0 1) { vx0 with msk := 1, vb := ⟨3, 0, 0, true⟩ }) &&
    isCmd 0x6030000000100000 0x0000000002800A04 0xC 0 (.vxCvt cleanHd { vx0 with etype := 0x0A, va := ⟨10, 0, 0, false⟩, vb := ⟨0, 0, 0, false⟩, imm := 0xC }) &&
    isCmd 0x6130000000100001 0x0000000000802006 0x80 0 (.vxQzL8 cleanHd { vx0 with msk := 1, vd := 6, etype := 0x20, vb := ⟨0, 0, 0, false⟩, imm := 128 }) = true := by
  decide +kernel

-- R248's running example: SOFTMAX with mask and pre-scale, BF16 from FP32
theorem test_decode_softmax : isCmd 0x0441C90004000003 0x6006000060080000 0x6007000000080008 0x00000A0C00080001
    (.ctSoftmax (hd (some 3) (some 4) 64 0 0) { causal := true, pre := true, modz := 0, dst := 0x60080000, src := 0x60060000, len := 8, rows := 8, q2z := 0, aux := 0x60070000, spitch := 1, dpitch := 8, stype := 0x0C, dtype := 0x0A, row0 := 0 }) = true := by
  decide +kernel

-- R258: ST.CVT; R279: TV.BLK
theorem test_decode_stCvt : (match decode (.cmd 0x0614400040010000 0x6000100080000000 0x00C0000010100001 0x0801000000000008) with
    | some (.stCvt h a) => h == hd (some 8) none 1024 0 1 && a.dst == 0x80000000 && a.src == 0x60001000 && a.len0 == 1 && a.cnt1 == 16 && a.cnt2 == 1 && a.stype == 0x0C && a.dtype == 8 && stCvtLegal h a
    | _ => false) = true := by
  decide +kernel

theorem test_decode_tvBlk : isCmd 0x0251400400000000 0x6007100800000006 0x0008020060020000 0 (.tvBlk (hd (some 2) none 0x4000 0 0)
    { fe := false, fin := false, modz := 0, sreg := 6, q1z := 0, idx := 0, q1zz := 0, stw := 0x60071008, src := 0x60020000, spitch := 512, ntok := 8, q2z := 0, q3 := 0 }) = true := by
  decide +kernel

-- words that are no instruction: funct3 7 of custom-0, ENG 6 of ring.post, an unknown opcode of VX, ENG 6 of a command
theorem test_decode_refused :
    decode (.word 0x0000700B#32) = none ∧ decode (.word 0x0020030B#32) = none ∧ decode (.cmd 0xEE30000000100000 0 0 0) = none ∧ decode (.cmd 0xF060000000100000 0 0 0) = none ∧
    decode (.word 0#32) = none ∧ decode16 0#16 = none := by
  decide +kernel

/-! ### Well-formedness: for each check a term that it refuses, beside one that passes -/

def smoke (good bad : List Instr) : Bool := good.all Instr.wf && bad.all fun i => !i.wf

theorem test_wf_control : smoke [.ringPostReg .ld 1#5 0#12, .ringPostFreshReg .ld 31#5 0#12, .controlCoreStore .d 1#5 2#5 0#12, .standardAtomic .lr true false false 1#5 2#5 0#5]
    [.ringPostReg .ld 0#5 0#12, .ringPostFreshReg .ld 0#5 0#12, .controlCoreStore .bu 1#5 2#5 0#12, .controlCoreStore .hu 1#5 2#5 0#12, .controlCoreStore .wu 1#5 2#5 0#12,
      .standardAtomic .lr true false false 1#5 2#5 3#5] = true := by decide +kernel

-- R55, R56, R58: semaphores without their enable, reserved codes, RND, OVF and SPEC where they are not defined, m
theorem test_wf_header : smoke [.nop .ld cleanHd, .cbPushCommand .ct cleanHd { cb := 31, m := 1 }, .cbPushCommand .ct cleanHd { cb := 0, m := 256 }]
    [.nop .ld { cleanHd with wsem := 1 }, .nop .ld { cleanHd with rsem := 1 }, .nop .ld { cleanHd with rnd := 3 }, .nop .ld { cleanHd with ovf := 3 },
      .nop .ld { cleanHd with rnd := 1 }, .nop .ld { cleanHd with ovf := 1 }, .nop .ld { cleanHd with spec := true },
      .cbPushCommand .ct cleanHd { cb := 0, m := 0 }, .cbPushCommand .ct cleanHd { cb := 0, m := 257 }] = true := by decide +kernel

def ldOk : LdArgs := { ldTile0 with cnt1 := 1, cnt2 := 1, q3 := 0, len0 := 64 }

theorem test_wf_copyIn : smoke
    [.ldTile cleanHd ldTile0, .ldMove cleanHd ldOk, .ldFill cleanHd ldOk, .ldGather cleanHd ldOk, .ldMcast cleanHd ldOk, .ldCvt (hd none none 1 0 2) { ldOk with stype := 8, q3 := 0x0A00000000000000, cs := 2 },
      .ldPref cleanHd { ldOk with dst := 0 }, .ldBpn cleanHd { ldOk with stype := 0x14 }, .ldBmv cleanHd { ldOk with stype := 0x21 }]
    [.ldTile cleanHd { ldTile0 with len0 := 0 }, .ldTile cleanHd { ldTile0 with cnt1 := 0 }, .ldTile cleanHd { ldTile0 with cnt2 := 0 }, .ldTile cleanHd { ldTile0 with dctr := 1 },
      .ldTile cleanHd { ldTile0 with q2z := 1 }, .ldTile cleanHd { ldTile0 with rreg := 1 }, .ldTile cleanHd { ldTile0 with stype := 1 }, .ldTile cleanHd { ldTile0 with cs := 1 },
      .ldTile { cleanHd with rnd := 1 } ldTile0, .ldTile cleanHd { ldTile0 with q3 := 0x0008000001000020 }, .ldTile cleanHd { ldTile0 with q3 := 0x0108000000000020 },
      .ldTile cleanHd { ldTile0 with q3 := 0x20 }, .ldTile cleanHd { ldTile0 with len0 := 513 }, .ldTile cleanHd { ldTile0 with span := 2 }, .ldMove cleanHd { ldOk with rft := true },
      .ldMove cleanHd { ldOk with res := 1 }, .ldFill cleanHd { ldOk with q3 := 1 }, .ldGather cleanHd { ldOk with cnt2 := 2 }, .ldGather cleanHd { ldOk with stype := 1 },
      .ldMcast cleanHd { ldOk with stype := 32 }, .ldMcast cleanHd { ldOk with dst := 0 }, .ldCvt cleanHd { ldOk with stype := 0x0B, q3 := 0x0A00000000000000 },
      .ldCvt cleanHd { ldOk with stype := 8, q3 := 0x0B00000000000000 }, .ldCvt cleanHd { ldOk with stype := 8, q3 := 0x0A00000000000000, cs := 2 },
      .ldCvt (hd none none 1 0 2) { ldOk with stype := 8, q3 := 0x0A00000000000000, cs := 1 }, .ldCvt cleanHd { ldOk with stype := 0, len0 := 3, q3 := 0x0A00000000000000 },
      .ldCvt { cleanHd with spec := true } { ldOk with stype := 8, q3 := 0x0A00000000000000 },
      .ldPref cleanHd { ldOk with dst := 0, res := 2 }, .ldPref cleanHd { ldOk with dst := 0, res := 3 }, .ldPref cleanHd ldOk, .ldPref cleanHd { ldOk with dst := 0, tr := true },
      .ldPref cleanHd { ldOk with dst := 0, span := 1 }, .ldBpn cleanHd { ldOk with stype := 0x11 }, .ldBpn cleanHd { ldOk with stype := 0x19 }, .ldBpn cleanHd { ldOk with stype := 0x14, cs := 2 },
      .ldBpn cleanHd { ldOk with stype := 0x14, cs := 4 }, .ldBpn cleanHd { ldOk with stype := 0x14, cnt1 := 2 }, .ldBmv cleanHd { ldOk with stype := 0x20 }, .ldBmv cleanHd { ldOk with stype := 0x21, cs := 2 },
      .ldBmv cleanHd { ldOk with stype := 0x21, q3 := 1 }] = true := by decide +kernel

def stOk : StArgs :=
  { res := 0, z52 := 0, dcen := false, span := 0, z1110 := 0, gz := 0, dst := 0x20000000, src := 0x60000000, len0 := 64, cnt1 := 1, cnt2 := 1, dctr := 0, stype := 0, q2z := 0, q3 := 0 }

theorem test_wf_copyOut : smoke
    [.stTile cleanHd stOk, .stDtile cleanHd stOk, .stScat cleanHd stOk, .stDscat cleanHd stOk, .stCvt cleanHd { stOk with stype := 0x0C, q3 := 0x0A00000000000000 },
      .stBmv cleanHd { stOk with stype := 0x0A, q3 := 0x2100000000000040 }, .stWb cleanHd { stOk with src := 0 }, .stFlush cleanHd { stOk with src := 0 }]
    [.stTile cleanHd { stOk with z52 := 1 }, .stTile cleanHd { stOk with z1110 := 1 }, .stTile cleanHd { stOk with q2z := 1 }, .stTile cleanHd { stOk with dctr := 1 },
      .stTile cleanHd { stOk with len0 := 0 }, .stTile cleanHd { stOk with cnt1 := 0 }, .stTile cleanHd { stOk with cnt2 := 0 }, .stTile cleanHd { stOk with gz := 1 },
      .stTile cleanHd { stOk with stype := 1 }, .stTile cleanHd { stOk with q3 := 0x0000000001000000 }, .stTile cleanHd { stOk with cnt1 := 2 }, .stTile { cleanHd with ovf := 1 } stOk,
      .stScat cleanHd { stOk with cnt2 := 2 }, .stDscat cleanHd { stOk with gz := 1 }, .stCvt cleanHd { stOk with stype := 0x0C, q3 := 0x0A00000000000000, gz := 1 },
      .stCvt cleanHd { stOk with stype := 0x20, q3 := 0x0A00000000000000 }, .stCvt cleanHd { stOk with stype := 0, len0 := 1, q3 := 0x0A00000000000000 },
      .stBmv cleanHd { stOk with stype := 0x0A, q3 := 0x2200000000000040 }, .stBmv cleanHd { stOk with stype := 0x0A, q3 := 0x2100000000000000 },
      .stBmv cleanHd { stOk with stype := 0x0A, q3 := 0x2100000001000040 }, .stWb cleanHd stOk, .stWb cleanHd { stOk with src := 0, res := 1 },
      .stFlush cleanHd { stOk with src := 0, q3 := 0x0001000000000000 }] = true := by decide +kernel

def mx0 : MxArgs := { md := 0, q1 := 0, q2 := 0, q3 := 0 }

-- the layout word of ACC.LD and ACC.ST: NR and NC in Q2, the layout in Q1's high half
theorem test_wf_matrix : smoke
    [.mmaBf16 cleanHd mx0, .mmaBf16 (hd none none 1 0 1) { mx0 with md := 0x8 ||| 0x10 }, .mvI8 cleanHd mx0, .accZero cleanHd { mx0 with md := 0x803 }, .accScale cleanHd { mx0 with md := 0x7833 }]
    [.mmaBf16 { cleanHd with spec := true } mx0, .mmaBf16 (hd none none 1 0 2) mx0, .mmaBf16 (hd none none 1 0 1) mx0, .mmaBf16 cleanHd { mx0 with md := 0x800 },
      .mmaBf16 cleanHd { mx0 with q1 := 0x100000000 }, .mmaBf16 cleanHd { mx0 with q2 := 1 }, .mmaBf16 cleanHd { mx0 with q3 := 1 }, .mmaBf16 cleanHd { mx0 with md := 0x8 },
      .mmaBf16 cleanHd { mx0 with md := 0x10 }, .mmaBf16 cleanHd { mx0 with md := 0x40 }, .mmaBf16 cleanHd { mx0 with md := 0x8 ||| 0x10 ||| 0x40 }, .mmaI8 cleanHd { mx0 with md := 0x8 ||| 0x10 },
      .accZero cleanHd { mx0 with md := 4 }, .accZero cleanHd { mx0 with q1 := 1 }, .accZero cleanHd { mx0 with q2 := 1 }, .accZero cleanHd { mx0 with q3 := 1 }, .accZero { cleanHd with rnd := 1 } mx0,
      .accLd cleanHd mx0, .accSt cleanHd mx0, .accScale (hd none none 1 0 2) mx0, .accScale cleanHd { mx0 with md := 0x4 }, .accScale cleanHd { mx0 with q2 := 1 }] = true := by decide +kernel

def noOp : VOp := ⟨0, 0, 0, false⟩
def vxU : VxArgs := { vx0 with vb := noOp }
def vxN : VxArgs := { vxU with va := noOp }

-- R56, R169, R170: fields that a command does not use, types, operands, OVF
theorem test_wf_vectorFields : smoke
    [.vxAdd cleanHd vx0, .vxAdds (hd none none 1 0 2) { vx0 with gz := 7 }, .vxFadd (hd none none 1 2 1) { vx0 with etype := 0x0C }, .vxMov (hd none none 1 0 1) { vxU with va := ⟨2, 0, 0, true⟩ },
      .vxAdd { cleanHd with spec := true } vx0]
    [.vxAdd cleanHd { vx0 with z76 := 1 }, .vxAdd cleanHd { vx0 with vc := ⟨1, 0, 0, false⟩ }, .vxAdd cleanHd { vx0 with kd := 1 }, .vxAdd cleanHd { vx0 with ka := 1 }, .vxAdd cleanHd { vx0 with kb := 1 },
      .vxAdd cleanHd { vx0 with imm := 1 }, .vxAdd cleanHd { vx0 with etype2 := 1 }, .vxAdd cleanHd { vx0 with q2z := 1 }, .vxAdd cleanHd { vx0 with q3 := 1 }, .vxAdd cleanHd { vx0 with xm := 1 },
      .vxAdd cleanHd { vx0 with gz := 1 }, .vxAdd cleanHd { vx0 with etype := 2 }, .vxAdd (hd none none 1 0 1) vx0, .vxAdd (hd none none 1 1 0) vx0, .vxAdd { cleanHd with rsem := 3 } vx0,
      .vxAnd cleanHd { vx0 with va := ⟨2, 0, 0, true⟩ }, .vxPerm cleanHd { vx0 with etype := 7, vb := ⟨3, 0, 1, false⟩ }, .vxRand cleanHd { vxU with va := ⟨2, 1, 0, false⟩ }, .vxMov cleanHd { vx0 with vd := 4 },
      .vxMov (hd none none 1 0 1) vxU, .vxFadd cleanHd vx0, .vxAdd cleanHd { vx0 with etype := 4, va := ⟨2, 0, 0, true⟩ }] = true := by decide +kernel

theorem test_wf_vectorCommands : smoke
    [.vxVld cleanHd { vxN with etype := 0, imm := 64, xm := 7, vd := 56 }, .vxVst cleanHd { vxN with etype := 0, imm := 64, vd := 0, va := ⟨63, 0, 0, false⟩ }, .vxVldk cleanHd { vxN with etype := 0, kd := 1, vd := 0 },
      .vxMul cleanHd { vx0 with xm := 1 }, .vxDot cleanHd { vx0 with etype2 := 4 }, .vxSll cleanHd { vxU with xm := 1, imm := 7 }, .vxCmpEq cleanHd { vx0 with kd := 1, vd := 0 }, .vxCmpLt cleanHd { vx0 with xm := 3 },
      .vxKand cleanHd { vxN with etype := 0, vd := 0, kd := 1 }, .vxKmov cleanHd { vxN with etype := 0, vd := 0, kd := 1, xm := 1, imm := 128 }, .vxKpop cleanHd { vxN with etype := 7 },
      .vxBcast cleanHd { vxU with imm := 511 }, .vxSlideup cleanHd { vxU with imm := 1024 }, .vxZip cleanHd { vx0 with vd := 62 }, .vxProj cleanHd { vxU with etype := 0 },
      .vxCvt cleanHd { vxU with etype := 0x0C, imm := 8 }, .vxQzL8 cleanHd { vxU with etype := 0x20, imm := 1 }, .vxDqL8 cleanHd { vxU with etype := 0x0C, imm := 128 }, .vxBps cleanHd vxU, .vxBpm cleanHd { vxU with xm := 1 },
      .vxScacc cleanHd { vx0 with etype := 7, xm := 7 }]
    [.vxVld cleanHd { vxN with etype := 0, xm := 7, vd := 57 }, .vxVst cleanHd { vxN with etype := 0, vd := 0, xm := 1, va := ⟨63, 0, 0, false⟩ }, .vxVldk cleanHd { vxN with etype := 0, vd := 0 },
      .vxVldk cleanHd { vxN with etype := 0, vd := 0, kd := 1, msk := 1 }, .vxVstk { cleanHd with spec := true } { vxN with etype := 0, vd := 0 }, .vxPjLd cleanHd { vxN with etype := 0, vd := 0, mz := true },
      .vxMul cleanHd { vx0 with xm := 1, vd := 5 }, .vxMul cleanHd { vx0 with xm := 1, etype := 7 }, .vxDot cleanHd { vx0 with etype2 := 6 }, .vxDot cleanHd { vx0 with etype2 := 7 }, .vxDot cleanHd { vx0 with vc := ⟨1, 0, 1, false⟩ },
      .vxSll cleanHd { vxU with xm := 1, imm := 8 }, .vxSra cleanHd { vx0 with etype := 4 }, .vxCmpEq cleanHd { vx0 with vd := 0 }, .vxCmpEq cleanHd { vx0 with kd := 1 }, .vxCmpEq { cleanHd with spec := true } { vx0 with kd := 1, vd := 0 },
      .vxCmpLt cleanHd { vx0 with etype := 4, kd := 1, vd := 0 }, .vxKand cleanHd { vxN with etype := 0, vd := 0 }, .vxKmov cleanHd { vxN with etype := 0, vd := 0, kd := 1, xm := 1, imm := 129 },
      .vxKmov cleanHd { vxN with etype := 0, vd := 0, kd := 1, xm := 1, ka := 1 }, .vxKpop cleanHd { vxN with etype := 7, msk := 1 }, .vxBcast cleanHd { vxU with imm := 512 }, .vxSlidedn cleanHd { vxU with imm := 1025 },
      .vxUnzip cleanHd { vx0 with vd := 63 }, .vxProj cleanHd { vxU with etype := 0, vd := 5 }, .vxProj cleanHd { vxU with etype := 0, va := ⟨3, 0, 0, false⟩ },
      .vxCvt cleanHd { vxU with etype := 0x0C, imm := 0 }, .vxCvt cleanHd { vxU with etype := 0x0C, imm := 8, vd := 5 }, .vxCvt cleanHd { vxU with etype := 8, imm := 0x0C, va := ⟨2, 0, 0, false⟩ },
      .vxCvt cleanHd { vxU with etype := 0x20, imm := 8 }, .vxQzL8 cleanHd { vxU with etype := 0x20, imm := 0 }, .vxQzL8 cleanHd { vxU with etype := 0x20, imm := 129 }, .vxQzL8 cleanHd { vxU with etype := 0x20, imm := 1, mz := true },
      .vxDqL8 cleanHd { vxU with etype := 0x0C, imm := 0 }, .vxBps cleanHd { vxU with msk := 1 }, .vxBpm cleanHd vxU, .vxBpm cleanHd { vxU with etype := 6, xm := 1 }, .vxScacc cleanHd { vx0 with etype := 6 },
      .vxFdiv cleanHd { vx0 with etype := 8 }, .vxFrsum (hd none none 1 0 1) { vxU with etype := 0x0C }] = true := by decide +kernel

def ct0 : CtArgs :=
  { causal := false, pre := false, modz := 0, dst := 0x60080000, src := 0x60060000, len := 16, rows := 1, q2z := 0, aux := 0, spitch := 1, dpitch := 1, stype := 0x0C, dtype := 0x0C, row0 := 0 }

theorem test_wf_contour : smoke
    [.ctSoftmax cleanHd ct0, .ctSoftmax (hd none none 1 2 1) { ct0 with causal := true, pre := true, aux := 64, row0 := 5 }, .ctMax cleanHd { ct0 with dst := 0, dpitch := 0, dtype := 0, aux := 64 },
      .ctExpsum cleanHd { ct0 with dtype := 0x0A, aux := 64 }, .ctScale cleanHd { ct0 with aux := 64 }, .ctRmsnorm cleanHd { ct0 with aux := 64 }, .ctLayernorm cleanHd { ct0 with aux := 64 }, .ctSumsq cleanHd { ct0 with dst := 0, dpitch := 0, dtype := 0, aux := 64 }]
    [.ctSoftmax cleanHd { ct0 with modz := 1 }, .ctSoftmax cleanHd { ct0 with q2z := 1 }, .ctSoftmax cleanHd { ct0 with len := 0 }, .ctSoftmax cleanHd { ct0 with rows := 0 }, .ctSoftmax cleanHd { ct0 with stype := 8 },
      .ctSoftmax cleanHd { ct0 with dtype := 7 }, .ctSoftmax cleanHd { ct0 with aux := 64 }, .ctSoftmax cleanHd { ct0 with row0 := 1 }, .ctSoftmax cleanHd { ct0 with len := 17 }, .ctSoftmax cleanHd { ct0 with dpitch := 0 },
      .ctSoftmax (hd none none 1 0 2) ct0, .ctSoftmax { cleanHd with spec := true } ct0, .ctScale cleanHd { ct0 with causal := true }, .ctScale cleanHd { ct0 with pre := true }, .ctMax cleanHd { ct0 with dpitch := 0, dtype := 0 },
      .ctMax (hd none none 1 1 0) { ct0 with dst := 0, dpitch := 0, dtype := 0 }] = true := by decide +kernel

def tv0 : TvArgs := { fe := false, fin := false, modz := 0, sreg := 6, q1z := 0, idx := 0, q1zz := 0, stw := 0x60071008, src := 0, spitch := 0, ntok := 0, q2z := 0, q3 := 0 }

theorem test_wf_traverse : smoke
    [.tvOpen cleanHd tv0, .tvCancelFin cleanHd { tv0 with fin := true }, .tvSeal cleanHd { tv0 with idx := 4096 }, .tvStat cleanHd { tv0 with src := 0x60070000 }, .tvBlk (hd none none 1 0 2) { tv0 with idx := 4095, src := 0x60070000, spitch := 512, ntok := 127 }]
    [.tvOpen cleanHd { tv0 with modz := 1 }, .tvOpen cleanHd { tv0 with q1z := 1 }, .tvOpen cleanHd { tv0 with q1zz := 1 }, .tvOpen cleanHd { tv0 with q2z := 1 }, .tvOpen cleanHd { tv0 with q3 := 1 },
      .tvOpen cleanHd { tv0 with fin := true }, .tvOpen cleanHd { tv0 with idx := 1 }, .tvOpen cleanHd { tv0 with src := 1 }, .tvOpen cleanHd { tv0 with spitch := 1 }, .tvOpen cleanHd { tv0 with ntok := 1 },
      .tvOpen (hd none none 1 0 1) tv0, .tvOpen (hd none none 1 1 0) tv0, .tvCancelFin cleanHd tv0, .tvSeal cleanHd tv0, .tvSeal cleanHd { tv0 with idx := 4097 }, .tvStat cleanHd { tv0 with idx := 1 },
      .tvBlk cleanHd { tv0 with idx := 4096, ntok := 1 }, .tvBlk cleanHd { tv0 with spitch := 1, ntok := 1 }, .tvBlk cleanHd tv0] = true := by decide +kernel

/-! ### Small states -/

/-- Core 0, running in M-mode. -/
def core0 : Core := { Core.reset with hart := { Hart.reset with run := .run } }

/-- The package with die 0 out of reset and core 0 as given, a step of whose hart is under way. -/
def onCore (c : Core) : State := { State.reset with focus := .hart (.core 0), coreReset := [(0, false)], cores := [(0, c)] }

def withX (c : Core) (l : List (Nat × W64)) : Core := { c with hart := { c.hart with x := l } }
def inMode (c : Core) (p : Priv) : Core := { c with hart := { c.hart with priv := p } }
def withCsr (c : Core) (k : Nat) (v : W64) : Core := { c with hart := c.hart.setCsrRaw k v }
def taskOf (k : TaskSt) (c : Core) : Core := { c with task := some { k with inst := 7 } }
def waits (c : Core) (k : WaitKind) : Core := { c with hart := { c.hart with wait := some { since := 0, kind := k } } }
def fl0 : Flight :=
  { slot := 0, q0 := 0, q1 := 0, q2 := 0, q3 := 0, org := Origin.empty, since := 0, phase := .ready, taken := false, claimed := false, prog := Prog.start, latch := none, stuck := [], recs := [] }

/-- A core with one command in flight in a ring. -/
def works (c : Core) (e : Eng) (f : Flight) : Core := c.setRing e { Ring.reset with write := 1, read := 1, flight := [f] }

/-- The same package in a step of the engine that works on the first command in flight. -/
def onFlight (e : Eng) (c : Core) (f : Flight) : State := { onCore (works c e f) with focus := .flight 0 e 0 }

/-- The package in a step of the hub, a controller or an input. -/
def onHub : State := { State.reset with focus := .hub, coreReset := [(0, false)] }

def putMem (s : State) (pa : Nat) (l : List Byte) : State := { s with mem := Memory.writeList s.mem (s.key pa) l }

/-- The state after a step of an instruction that completes, and what a check says of it. -/
def after (i : Instr) (s : State) (p : State → Bool) : Bool := match exec i s with
  | .next t => p t
  | _ => false

/-- A command of VX on lane 0 of v2, v3 and v1 (as VC): the lanes of v4 and v5, and the flags. -/
def lanes (i : Instr) (a b c : Nat) : Nat × Nat × Nat :=
  let k := { core0 with v := Table.put 0 (Table.put 0 (Table.put 0 (Table.put 0 [] 512 (0#32)) 384 (BitVec.ofNat 32 b)) 256 (BitVec.ofNat 32 a)) 128 (BitVec.ofNat 32 c), k := [(1, 1#128)] }
  match exec i (onFlight .vx k fl0) with
  | .next t => ((t.core 0).lane 4 0, (t.core 0).lane 5 0, ((t.core 0).hart.csrRaw 0x800).toNat)
  | _ => (0, 0, 999)

def vx1 : VxArgs := { vx0 with msk := 1 }

/-! ### Worked cases of the spec -/

-- 01: core 77; 05: the reset table; 06: hub placing and the predictor index; 07: scratchpad placing; R368: remote addresses
theorem test_places :
    dieOf 77 = 5 ∧ clusterOf 77 = 19 ∧ State.reset.loc 0x40005123 = .dram 5 0x8000123 ∧ hubBank 0x40005123 = 0 ∧ hubSet 0x40005123 = 2 ∧ dbpIdx 0x40005123 3 1 = 0x40D ∧
    spBank 0x5180 = 3 ∧ spGroup 0 0x5180 = 0 ∧ spRow 0 0x5180 = 5 ∧ spRow 0 0x1180 = 1 := by decide +kernel

-- R70, R75: conversions to FP8E4
theorem test_round_fp8e4 :
    let r := fun m o n d => let x := FFmt.fp8e4.round o m (.fin (decide (n < 0)) n.natAbs d); (x.code, x.flags.toNat)
    r .rne .ieee 300 1 = (0x79, 8) ∧ r .rna .ieee 300 1 = (0x79, 8) ∧ r .rne .ieee 500 1 = (0x7F, 10) ∧ r .rtz .ieee 500 1 = (0x7E, 10) ∧ r .rne .sat 500 1 = (0x7E, 10) ∧
    r .rne .ieee (-1 : Int) 1000 = (0x81, 12) ∧ (FFmt.bf16.round .ieee .rne (.fin false 1 3)).code = 0x3EAB := by decide +kernel

-- R79: planes of -37, 0xDB
theorem test_planes : (bpnValue 2 false 3, bpnValue 2 true 3, bpnValue 3 false 6, bpnValue 3 true 6, bpnValue 4 false 13, bpnValue 4 true 13, bpnValue 8 false 0xDB) =
    (-64, -32, -64, -48, -48, -40, -37) := by decide +kernel

-- R80, R84, R85: the lattice code; quarters of 0x6A7A, and the worked quantisations
theorem test_lattice :
    l8Quarters 0x6A7A = [1, 1, 5, -3, 1, 1, 1, 1] ∧ l8Quarters 0xEAAA = [3, 3, 3, 3, 3, 3, 3, 3] ∧ l8Quarters 0x6AAA = [1, 1, 1, 1, 1, 1, 1, 1] ∧
    (quantL8 (List.replicate 8 0x3F000000)).1 = some 0x6AAA ∧ (quantL8 ([0x3F600000, 0x3F200000] ++ List.replicate 6 0x3E800000)).1 = some 0x6AAA ∧
    (quantL8 (List.replicate 8 0x40400000)).1 = none ∧ (quantL8 (List.replicate 8 0xBFE00000)).1 = none := by decide +kernel

-- R179: MUL.W of I8; R180: DOT and DOTS (an overflow of a finite sum sets OF and NX, R94)
theorem test_vx_mulWide : lanes (.vxMul cleanHd { vx1 with xm := 1 }) 0x04030201 0x9C64F60A 0 = (0x012C000A, 0xFE70FFEC, 0) := by decide +kernel

theorem test_vx_dot : lanes (.vxDot cleanHd { vx1 with etype2 := 3, vc := ⟨1, 0, 0, false⟩ }) 0x81817F7F 0x817F7F7F 0x7FFFF000 = (0x80006E02, 0, 0) := by decide +kernel

theorem test_vx_dots : lanes (.vxDots (hd none none 1 0 1) { vx1 with etype2 := 3, vc := ⟨1, 0, 0, false⟩ }) 0x81817F7F 0x817F7F7F 0x7FFFF000 = (0x7FFFFFFF, 0, 10) ∧
    lanes (.vxDots (hd none none 1 0 1) { vx1 with etype2 := 3, vc := ⟨1, 0, 0, false⟩ }) 0x81817F7F 0x7F7F7F7F 0x7FFFF000 = (0x7FFFF000, 0, 0) := by decide +kernel

-- R197: the special cases of FP32
def fpArgs : VxArgs := { vx1 with etype := 0x0C }
theorem test_vx_float :
    lanes (.vxFadd cleanHd fpArgs) 0x7F800000 0xFF800000 0 = (0x7FC00000, 0, 1) ∧ lanes (.vxFdiv cleanHd fpArgs) 0xBF800000 0 0 = (0xFF800000, 0, 0) ∧
    lanes (.vxFsqrt cleanHd { fpArgs with vb := noOp }) 0x80000000 0 0 = (0x80000000, 0, 0) ∧ lanes (.vxFmin cleanHd fpArgs) 0 0x80000000 0 = (0x80000000, 0, 0) ∧
    lanes (.vxFmax cleanHd fpArgs) 0x7FA00000 0x40000000 0 = (0x40000000, 0, 1) := by decide +kernel

theorem test_vx_fmul :
    lanes (.vxFmul cleanHd fpArgs) 0x0D800000 0x21800000 0 = (0, 0, 12) ∧ lanes (.vxFmul cleanHd fpArgs) 0x0D800000 0x2B800000 0 = (0x200, 0, 0) ∧
    lanes (.vxFmul (hd none none 1 0 1) fpArgs) 0x71800000 0x53800000 0 = (0x7F7FFFFF, 0, 10) := by decide +kernel

-- R212: the pattern j XOR 56 reverses the bytes of a pair
theorem test_vx_proj :
    let k := { core0 with v := [(256, 0x04030201#32), (384, 0x08070605#32)], k := [(1, 1#128)], pj := (List.range 8).map fun q => (q, BitVec.ofNat 64 (leNat ((List.range 8).map fun j => BitVec.ofNat 8 (Nat.xor (8 * q + j) 56)))) }
    after (.vxProj cleanHd { vxU with etype := 0, msk := 1 }) (onFlight .vx k fl0) (fun t => (t.core 0).lane 4 0 == 0x05060708 && (t.core 0).lane 5 0 == 0x01020304) = true := by
  decide +kernel

-- R352's worked record
theorem test_record : ({ cause := 3, detail := 1, eng := 0, vav := true, stall := true, ctx := 5, slot := 2 } : FaultRec).word 0 = 0x0000000205300103#64 := by decide +kernel

-- R244: e^0 is 0x3F80, and an element of three equal scores 1/3
theorem test_exp : (contourExp .ieee .rne 0).code = 0x3F80 ∧ (contourExp .ieee .rne 0xC2820000).code = 0 := by decide +kernel

-- RV64: an add that wraps, the division corners of the standard, a word result that is sign-extended, jalr with rd = rs1
def rv (i : Rv) (l : List (Nat × W64)) : W64 × W64 := match exec (.standardInstruction i) (onCore (withX core0 l)) with
  | .next t => ((t.hart (.core 0)).get 10#5, (t.hart (.core 0)).pc)
  | _ => (0, 1)
theorem test_rv_alu :
    rv (.alu .add 10#5 10#5 11#5) [(10, 0xFFFFFFFFFFFFFFFF#64), (11, 2#64)] = (1#64, 4#64) ∧ rv (.alu .div 10#5 10#5 11#5) [(10, 0x8000000000000000#64), (11, 0xFFFFFFFFFFFFFFFF#64)] = (0x8000000000000000#64, 4#64) ∧
    rv (.alu .divu 10#5 10#5 12#5) [(10, 5#64)] = (0xFFFFFFFFFFFFFFFF#64, 4#64) ∧ rv (.aluw .addw 10#5 10#5 11#5) [(10, 0x7FFFFFFF#64), (11, 1#64)] = (0xFFFFFFFF80000000#64, 4#64) ∧
    rv (.alu .rem 10#5 10#5 12#5) [(10, 5#64)] = (5#64, 4#64) := by decide +kernel

theorem test_rv_jumps :
    rv (.jalr 10#5 10#5 1#12) [(10, 0x100#64)] = (4#64, 0x100#64) ∧ rv (.branch .blt 10#5 11#5 4#12) [(10, 0xFFFFFFFFFFFFFFFF#64), (11, 1#64)] = (0xFFFFFFFFFFFFFFFF#64, 8#64) ∧
    rv (.branch .bltu 10#5 11#5 4#12) [(10, 0xFFFFFFFFFFFFFFFF#64), (11, 1#64)] = (0xFFFFFFFFFFFFFFFF#64, 4#64) := by decide +kernel

-- a trap from U-mode goes to mtvec with the pc and the cause saved (standard)
theorem test_ecall : after (.standardInstruction (.sys .ecall)) (onCore (withCsr (inMode core0 .u) 0x305 0x2000#64)) (fun t => let h := t.hart (.core 0)
    h.pc == 0x2000#64 && h.csrRaw 0x342 == 8#64 && h.priv == .m && h.csrRaw 0x341 == 0#64) = true := by decide +kernel

-- R295: the old value, and what is stored; R291: a raise; R31: a claim takes free slots
theorem test_amo : after (.amoMax false .die 10#5 11#5 12#5) (putMem (onCore (withX core0 [(11, 5#64), (12, 0x1000#64)])) 0x1000 (leBytes 8 (2 ^ 64 - 1))) (fun t =>
    (t.hart (.core 0)).get 10#5 == BitVec.ofNat 64 (2 ^ 64 - 1) && t.num 0x1000 8 == 5) = true := by decide +kernel

theorem test_sems : after (.semRaise 3#5) (onCore core0) (fun t => (t.core 0).sem 3 == 1) && after (.semWait 3#5) (onCore core0) (fun t => (t.hart (.core 0)).wait == some { since := 0, kind := .sem 3 }) = true := by
  decide +kernel

theorem test_cbClaim : after (.cbClaim 2#5 10#5) (onCore { (withX core0 [(10, 2#64)]) with cbs := [(2, { Cb.reset with configured := true, count := 4, free := 4 })] })
    (fun t => let b := (t.core 0).cb 2; b.free == 2 && b.inflight == 2 && b.prod == 2 && b.ccClm == 2) = true := by decide +kernel

-- R26: a post records pc and a0 to a7; R290: ring.ptr
theorem test_ringPost : after (.ringPost .ld 2#12) (onCore (withX core0 [(10, 7#64)])) (fun t => ((t.core 0).ring .ld).write == 2 &&
    (Table.get Origin.empty ((t.core 0).ring .ld).org 1).a == [7, 0, 0, 0, 0, 0, 0, 0] && (t.hart (.core 0)).pc == 4) = true := by decide +kernel

-- R35: an atomic of an unpinned task is the trap "direct effect not declared"
def task0 : TaskSt := { inst := 0, node := 0, ctx := 5, susp := true, pinned := false, stream := none, save := 0x8000, nodePa := 0, prio := 1, since := 0, pend := none }
theorem test_direct : after (.amoAdd false .die 10#5 11#5 12#5) (onCore { core0 with task := some task0 }) (fun t => let h := t.hart (.core 0); h.csrRaw 0x342 == 27#64 && h.csrRaw 0x5C2 == 20#64) = true := by
  decide +kernel

-- R259: the BMV stream of the worked row
theorem test_bmv : let row := (List.range 16).flatMap fun e => leBytes 2 (if e = 2 then 0x3F80 else if e = 5 then 0xC000 else if e = 13 then 0x4040 else 0)
    let b := bmvOf 0x0A 2 16 row
    b.length = 86 ∧ b.take 12 = [0xB7, 0x0A, 0x10, 0, 3, 0, 0, 0, 0, 0, 0, 0] ∧ (b.drop 16).take 3 = [0x24, 0x20, 0] ∧ b.drop 80 = [0x80, 0x3F, 0, 0xC0, 0x40, 0x40] := by decide +kernel

-- CRC-32C of "123456789" (its standard check value)
theorem test_crc : crc32c ((List.range 9).map fun i => BitVec.ofNat 8 (0x31 + i)) = 0xE3069283 := by decide +kernel

-- withFetchWord and step: the word stored is the instruction run
theorem test_fetch : (match step (State.reset.withFetchWord 32 0x0630100B) with
    | .next t => (t.hart (.core 0)).wait == some { since := 0, kind := .sem 3 }
    | _ => false) = true ∧ decodeTableWord 32 0x0630100B = some (.semWait 3#5) := by decide +kernel

/-! ### States that meet the hypotheses of the statements

A theorem `met_<Name>` names, for the statement `<Name>`, states and operands that meet its hypotheses, one case for each clause. -/

/-- The operation runs to its end, and what it answers and leaves passes a test. -/
def runsTo {α : Type} (m : M α) (s : State) (p : α → State → Bool) : Bool := match m.run s with
  | (.ok x, t) => p x t
  | _ => false

/-- The operation stops, for a reason that passes a test. -/
def stopsBy {α : Type} (m : M α) (s : State) (p : Stop → Bool) : Bool := match m.run s with
  | (.error e, _) => p e
  | _ => false

theorem runsTo_ok {α : Type} {m : M α} {s : State} {p : α → State → Bool} (h : runsTo m s p = true) : ∃ x t, Ok m s x t ∧ p x t = true := by
  unfold runsTo at h
  split at h
  · exact ⟨_, _, ‹_›, h⟩
  · cases h

/-- The test that a run of plain memory passes for a requester of a context. -/
def plainHomeB (s : State) (ctx pa len : Nat) : Bool :=
  decide (0 < len ∧ pa % 64 + len ≤ 64 ∧ pa < 2 ^ 39) && (s.isDram pa && (List.range len).all fun i => s.key (pa + i) == s.key pa + i) &&
    (match s.rtFind pa with
      | some e => !e.rplen
      | none => true) &&
    (!s.rtDrain && s.down ctx pa == none && s.lineMeta pa == LineMeta.good) && decide (s.heldW = [] ∧ s.swap = none ∧ s.stale = [] ∧ s.fld 0x030001710000 31 0 = 0) &&
    (decide (∀ e ∈ s.lines, e.2.diff = 0) && (s.hubTags ++ s.ccTags).all fun e => match e.2 with
      | some t => t.diff0 == 0 && t.diff1 == 0
      | none => true)

theorem plainHome_of {s : State} {ctx pa len : Nat} (h : plainHomeB s ctx pa len = true) : s.PlainHome ctx pa len := by
  simp only [plainHomeB, Bool.and_eq_true, decide_eq_true_eq, List.all_eq_true, List.mem_range, beq_iff_eq, Bool.not_eq_true'] at h
  obtain ⟨⟨⟨⟨⟨h1, h2⟩, h3⟩, h4⟩, h5⟩, h6⟩ := h
  refine ⟨h1, h2, fun e he => ?_, ⟨h4.1.1, h4.1.2, h4.2⟩, h5, h6.1, fun e he t ht => ?_⟩
  · rw [he] at h3
    simpa using h3
  · have := h6.2 e he
    rw [ht] at this
    simpa using this

def plainB (s : State) (a : Agent) (pa len : Nat) : Bool := plainHomeB s (s.ctxOf (whoOf a)) pa len && match a with
  | .core n => decide ((s.core n).hart.priv = .m ∧ (s.core n).hart.csrBit 0x300 17 = false ∧ (s.core n).stages = false ∧ (s.core n).sq = [] ∧ (s.core n).staging.bytes = [])
  | _ => true

theorem plain_of {s : State} {a : Agent} {pa len : Nat} (h : plainB s a pa len = true) : s.Plain a pa len := by
  simp only [plainB, Bool.and_eq_true] at h
  refine ⟨fun n ha => ?_, plainHome_of h.1⟩
  subst ha
  simpa using h.2

def calmB (s : State) (n off len : Nat) : Bool :=
  decide (0 < len ∧ off % 64 + len ≤ 64 ∧ off < spSize n ∧ n < 288) && s.inReset (dieOf n) == false && (s.core n).group (spGroup n off) == Group.reset &&
    decide ((s.core n).flips = [] ∧ (s.core n).stuck = [] ∧ (s.core n).linePois = []) && Table.get LineMeta.good s.lines ((spBase n + off) / 64) == LineMeta.good &&
    decide (s.stale = [] ∧ s.heldW = [] ∧ s.swap = none ∧ (s.core n).staging.bytes = [] ∧ s.burst = none)

theorem calm_of {s : State} {n off len : Nat} (h : calmB s n off len = true) : s.CalmPad n off len := by
  simp only [calmB, Bool.and_eq_true, decide_eq_true_eq, beq_iff_eq] at h
  obtain ⟨⟨⟨⟨⟨h1, h2⟩, h3⟩, h4⟩, h5⟩, h6⟩ := h
  exact ⟨h1, h2, h3, h4, h5, h6⟩

/-- A state with one core set that is as after reset but for it keeps every fault queue short. -/
theorem fqOk_setCore {s : State} {n : Nat} {c : Core} (h : s.FqOk) (hc : c.fq.length ≤ 16) : (s.setCore n c).FqOk := by
  intro m
  by_cases e : m = n
  · subst e; simpa using hc
  · simpa [State.core_setCore_ne s c e] using h m

theorem fqOk_reset : State.reset.FqOk := fun _ => Nat.zero_le _

/-- The next turn is the one given. -/
def due (t : Turn) (s : State) : State := { s with agenda := [t] }
def nop1 (e : Nat) : W64 := BitVec.ofNat 64 (0xF000000000000000 + e * 2 ^ 52 + 2 ^ 20)
def rec0 : FaultRec := { cause := 8, detail := 1 }

theorem met_StepRunsDecoded : let s := State.reset.withFetchWord 32 0x00B50533
    let s1 := s.nextTurn.2
    s.nextTurn.1 = .hart (.core 0) ∧ (s1.hart (.core 0)).run = .run ∧ s1.agentGated (.core 0) = false ∧ s1.faultDue (.core 0) = false ∧ s1.intrDue (.core 0) = none ∧ (s1.hart (.core 0)).wait = none ∧
    runsTo (fetchInstr (.core 0)) { s1 with focus := .hart (.core 0) } (fun bs _ => decodeBytes bs == some (.standardInstruction (.alu .add 10#5 10#5 11#5), 4)) ∧
    agentMay (.core 0) (.standardInstruction (.alu .add 10#5 10#5 11#5)) = true := by decide +kernel

theorem met_StepRunsCommand :
    (∀ drop : Bool, let s := due (.start 0 .mx) (onCore { core0.setRing .mx { Ring.reset with write := 1 } with dropDue := drop, descs := [] })
     let s1 := s.nextTurn.2
     s.nextTurn.1 = .start 0 .mx ∧ ({ s1 with focus := .hub } : State).mayStart 0 .mx = true ∧ (s1.core 0).dropDue = drop ∧
       runsTo (readSlot 0 .mx (s1.ring 0 .mx) 0) (({ s1 with focus := .hub } : State).modCore 0 Core.dropIfDue) fun _ _ => true) ∧
    (let s := due (.advance 0 .ld 0 none false) (onCore (works core0 .ld { fl0 with q0 := nop1 0 }))
     let s1 := s.nextTurn.2
     s.nextTurn.1 = .advance 0 .ld 0 none false ∧ (s1.core 0).frozen = false ∧ s1.gated 0 = false ∧ (s1.ring 0 .ld).flight[0]? = some { fl0 with q0 := nop1 0 } ∧
       ((s1.ring 0 .ld).flight.take 0).all (fun g => g.phase == .done) = true ∧ (s1.core 0).mayBegin .ld = true ∧ ({ fl0 with q0 := nop1 0 } : Flight).overdue .ld s1.now = false ∧
       commandOf .ld (nop1 0) 0 0 0 = some (.nop .ld { cleanHd with bound := 1 })) := by
  exact ⟨fun drop => by cases drop <;> decide +kernel, by decide +kernel⟩

theorem met_DecodeEncode : (Instr.semWait 3#5).wf = true ∧ encode (.semWait 3#5) = some (.word 0x0630100B#32) ∧ (Instr.nop .tv cleanHd).wf = true ∧
    encode (.nop .tv cleanHd) = some (.cmd (nop1 5) 0 0 0) := by decide +kernel

theorem met_StepKeepsInvariant : let s := State.reset.withFetchWord 32 0x00B50533
    s.MemOk ∧ s.FqOk ∧ (match step s with | .next _ => true | _ => false) = true :=
  ⟨by unfold State.MemOk; decide +kernel, fqOk_setCore (n := 0) fqOk_reset (by decide +kernel), by decide +kernel⟩

theorem met_IntegerResults : (onCore core0).byHart (.core 0) ∧ ({ State.reset with focus := .hart .mgmt } : State).byHart .mgmt ∧ agentMay (.core 0) (.standardInstruction (.alu .rol 1#5 2#5 3#5)) = true ∧
    agentMay .mgmt (.standardInstruction (.alu .mulhu 1#5 2#5 3#5)) = true ∧ agentMay .mgmt (.standardInstruction (.alu .rol 1#5 2#5 3#5)) = false ∧ agentMay (.core 0) (.standardInstruction .fencei) = true := ⟨rfl, rfl, by decide⟩

theorem met_JumpsAndBranches : (onCore core0).byHart (.core 0) ∧ let h := (onCore (withX core0 [(5, 0xFFFFFFFFFFFFFFFF#64)])).hart (.core 0)
    (h.get 5#5).toInt < (h.get 0#5).toInt ∧ ¬(h.get 5#5).toNat < (h.get 0#5).toNat ∧ (h.get 0#5).toNat = (h.get 0#5).toNat := by
  exact ⟨rfl, by decide +kernel⟩

theorem met_RegisterAndPcFrame : let h := (onCore core0).hart (.core 0)
    let h' := (onCore (withCsr core0 0x320 4#64)).hart (.core 0)
    (h.csrRaw 0x320).getLsbD 2 = false ∧ (h'.csrRaw 0x320).getLsbD 2 = true := by decide +kernel

theorem met_TrapEntry : (withCsr (inMode core0 .u) 0x302 (BitVec.ofNat 64 (2 ^ 63))).hart.delegated false 63 = true ∧ core0.hart.delegated false 0 = false ∧ 63 < 64 := by
  decide +kernel

theorem met_SystemInstructions_mgmt : let s : State := { State.reset with focus := .hart .mgmt }
    s.byHart .mgmt ∧ (s.hart .mgmt).priv = .m := ⟨rfl, rfl⟩

theorem met_SystemInstructions : (onCore core0).byHart (.core 0) ∧ core0.hart.priv = .m ∧ (inMode core0 .u).hart.priv ≠ .m ∧ (Agent.mgmt).isCore = false ∧ (Agent.core 0).isCore = true ∧
    (let h := (withCsr (inMode core0 .s) 0x300 (BitVec.ofNat 64 (2 ^ 22))).hart; h.priv = .s ∧ h.csrBit 0x300 22 = true) ∧ (let h := (inMode core0 .s).hart; h.priv = .s ∧ h.csrBit 0x300 22 = false) ∧
    core0.hart.csrBit 0x300 21 = false ∧ (let h := (withCsr (inMode core0 .u) 0x300 (BitVec.ofNat 64 (2 ^ 21))).hart; h.priv ≠ .m ∧ h.csrBit 0x300 21 = true) := ⟨rfl, by decide +kernel⟩

theorem met_CsrInstructions : let s := onCore core0
    let free := fun (k : Nat) => csrExists (.core 0) k && core0.hart.csrAllowed k && core0.hart.csrGate k && bits k 11 10 != 3
    s.byHart (.core 0) ∧ free 0x340 = true ∧ free 0x5C3 = true ∧ free 0xB02 = true ∧ csrExists (.core 0) 0x7C0 = false ∧ (inMode core0 .u).hart.csrAllowed 0x340 = false ∧
    (inMode core0 .u).hart.csrGate 0xC00 = false ∧ bits 0xC01 11 10 = 3 ∧ (CsrOp.rs == .rw || (0#5 : Reg) != 0#5) = false ∧ (CsrOp.rs == .rw || (31#5 : Reg) != 0#5) = true := ⟨rfl, by decide +kernel⟩

def inFault (p : Priv) (sie : Bool) (fq : List FaultRec) : Core := { withCsr (withCsr (inMode core0 p) 0x302 (BitVec.ofNat 64 (2 ^ 24))) 0x300 (if sie then 2#64 else 0#64) with fq := fq }

theorem met_BoundaryOrder :
    (let s := due (.hart (.core 0)) (putMem (onCore core0) 0 [0x33#8, 0x05#8, 0xB5#8, 0#8])
     let s1 := s.nextTurn.2
     s.nextTurn.1 = .hart (.core 0) ∧ (s1.core 0).hart.run = .run ∧ s1.gated (dieOf 0) = false ∧ s1.intrDue (.core 0) = none ∧
       runsTo (fetchInstr (.core 0)) { s1 with focus := .hart (.core 0) } (fun bs _ => (decodeBytes bs).isSome) ∧
       runsTo (fetchInstr (.core 0)) { s1 with focus := .hart (.core 0), mem := [] } (fun bs _ => (decodeBytes bs).isNone) ∧
       stopsBy (fetchInstr (.core 0)) { s1 with focus := .hart (.core 0), ctrlDown := [(0, true)] } fun | .trap _ => true | _ => false) ∧
    (let c := inFault .s true [rec0]; c.fq ≠ [] ∧ c.hart.priv = .s ∧ c.hart.csrBit 0x300 1 = true ∧ c.hart.delegated false 24 = true ∧ c.hart.csrBit 0x300 22 = false) ∧
    (let c := inFault .s false [rec0]; c.hart.priv = .s ∧ c.hart.csrBit 0x300 1 = false) ∧
    (let k := withCsr (withCsr (withCsr (inMode core0 .u) 0x303 (BitVec.ofNat 64 (2 ^ 18))) 0x304 (BitVec.ofNat 64 (2 ^ 18))) 0x344 (BitVec.ofNat 64 (2 ^ 18))
     (onCore k).intrDue (.core 0) = some 18 ∧ (onCore k).intrDue (.core 0) ≠ none) ∧
    (let k := waits { core0 with sems := [(3, 1#16)] } (.sem 3); (onCore k).waitReady (.core 0) = true) ∧
    (let k := waits core0 (.sem 3)
     (onCore k).waitReady (.core 0) = false ∧ ({ onCore k with now := 0x1000000 } : State).waitOver (.core 0) = true ∧ ({ onCore k with now := 0xFFFFFF } : State).waitOver (.core 0) = false) ∧
    (let both := BitVec.ofNat 64 (2 ^ 16 + 2 ^ 18)
     let k := withCsr (withCsr (withCsr (inMode (works (taskOf { task0 with pend := some 0 } core0) .vx { fl0 with phase := .done }) .u) 0x303 both) 0x304 both) 0x344 both
     (onCore k).intrDue (.core 0) = some 18 ∧ k.resuming = none ∧ bit ((onCore k).mip (.core 0)) 16 = true ∧ k.hart.intrEnabled 16 = true ∧ k.quiet = false) := by decide +kernel

theorem met_EngineFaultTaken : (onCore (inFault .u false [rec0, rec0])).byCore 0 ∧ ((onCore (inFault .u false [rec0, rec0])).core 0).fq = [rec0, rec0] ∧
    ((onCore (inFault .u false [rec0, rec0])).core 0).hart.delegated false 24 = true := ⟨rfl, by decide +kernel⟩

theorem met_Waiting : (onCore core0).byCore 0 ∧
    (let s : State := { State.reset with focus := .hart .mgmt, mgmt := (withX core0 [(1, 6#64), (2, 7#64)]).hart, datum9 := 6 * 9 }; ((s.hart .mgmt).get 1#5).toNat ≤ s.datumOf .mgmt ∧ s.datumOf .mgmt < ((s.hart .mgmt).get 2#5).toNat) ∧
    (let c := core0.setRing .mx { Ring.reset with write := 2 }; c.outstanding .mx = 2 ∧ c.outstanding .mx ≤ ((withX core0 [(1, 2#64)]).hart.get 1#5).toNat) ∧
    (let c : Core := works { core0 with sems := [(0, 1#16)] } .st { fl0 with q0 := BitVec.ofNat 64 (2 ^ 46), phase := .await }
     (c.awaiters 0).length ≤ 1 ∧ ({ core0 with sems := [(31, 1#16)] } : Core).awaiters 31 = [] ∧ (({ core0 with sems := [(31, 1#16)] } : Core).sem 31).toNat = 1 ∧ (core0.sem 31).toNat ≤ (core0.awaiters 31).length) ∧
    core0.hart.wait = none ∧ (waits core0 (.ring .tv 0)).hart.wait = some { since := 0, kind := .ring .tv 0 } ∧
    bits (core0.hart.csrRaw 0x801).toNat 39 0 = 0x1000000 ∧ 0 + 0x1000000 ≤ ({ onCore core0 with now := 0x1000000 } : State).now := ⟨rfl, by decide +kernel⟩

theorem met_IllegalByAgent : ({ State.reset with focus := .hart (.lane 3) } : State).byHart (.lane 3) ∧ (Agent.lane 3).isCore = false ∧ (Instr.fqPop).controlCoreOnly = true ∧ (Instr.fqPop).custom2 = true ∧
    (onCore (inMode core0 .u)).byCore 0 ∧ (inMode core0 .u).hart.priv = .u ∧ (Instr.taskAbort).custom2 = false := ⟨rfl, by decide, by decide, by decide, rfl, by decide, by decide⟩

theorem met_RingPost : let c := { inMode core0 .u with rings := [] }.setRing .vx { Ring.reset with owner := true, size := 16 }
    postOf (.ringPostFreshReg .vx 1#5 16#12) = some (.vx, 1#5, 16#12, true) ∧ (onCore c).byCore 0 ∧ (c.hart.priv = .u ∧ (c.ring .vx).owner = true) ∧
    (core0.ring .vx).owner = false ∧ (core0.ring .vx).size = 16 ∧ core0.outstanding .vx + 17 > 16 ∧ core0.outstanding .vx + 16 ≤ 16 ∧
    (core0.hart.get 0#5 + (16#12 : BitVec 12).signExtend 64).toNat = 16 ∧ (core0.hart.get 0#5 + (0#12 : BitVec 12).signExtend 64).toNat = 0 ∧
    (let c := (core0.setRing .ld { Ring.reset with size := 1024, write := 1000 }).setRing .st { Ring.reset with size := 1024, write := 20 }; c.outstanding .ld + c.outstanding .st + 4 = 1024) ∧
    (core0.ring .mx).flight.any Flight.unlatched = false ∧ ((works core0 .mx { fl0 with q0 := 0x0110000000100000#64 }).ring .mx).flight.any Flight.unlatched = true ∧
    runsTo (drainAll 0) (onCore core0) fun _ _ => true := ⟨rfl, rfl, by decide +kernel⟩

theorem met_Semaphores : let c : Core := { core0 with sems := [(3, 0xFFFF#16), (4, 0xFFFE#16)] }
    (onCore c).byCore 0 ∧ c.sem 3 = 0xFFFF#16 ∧ c.sem 4 ≠ 0xFFFF#16 ∧ c.sem 4 ≠ 0 ∧ c.sem 0 = 0 ∧ c.hart.priv ≠ .u ∧ runsTo (drainAll 0) (onCore c) fun _ _ => true := ⟨rfl, by decide +kernel⟩

def cb4 (free filled held inflight clm : Nat) : Cb := { Cb.reset with configured := true, count := 4, free := free, filled := filled, held := held, inflight := inflight, ccClm := clm }

theorem met_Buffers : (onCore core0).byCore 0 ∧
    (let bad := fun (base x : Nat) (b : Cb) => decide (2 ^ 23 ≤ base ∨ 10 < x % 16 ∨ x / 256 % 256 + 1 < 2 ∨ b.held ≠ 0 ∨ b.inflight ≠ 0)
     bad (2 ^ 23) 0x100 Cb.reset && bad 0 0x10B Cb.reset && bad 0 0 Cb.reset && bad 0 0x100 (cb4 0 0 1 3 0) && !bad (2 ^ 23 - 1) 0x10A Cb.reset && !bad 0 0xFF00 (cb4 4 0 0 0 0)) = true ∧
    Cb.reset.configured = false ∧ (let b := cb4 1 1 1 1 1; b.configured = true ∧ 1 ≤ b.count ∧ b.count < 5 ∧ b.ccClm < 2 ∧ b.held < 2 ∧ 1 ≤ b.ccClm ∧ 1 ≤ b.held ∧
      1 + core0.claimers 0 b.free false ≤ b.free ∧ b.free < 2 + core0.claimers 0 b.free false ∧ 1 + core0.claimers 0 b.filled true ≤ b.filled ∧ b.filled < 2 + core0.claimers 0 b.filled true) ∧
    runsTo (drainAll 0) (onCore { core0 with cbs := [(0, cb4 1 1 1 1 1)] }) fun _ _ => true := ⟨rfl, by decide +kernel⟩

theorem met_RegisterReads : (onCore core0).byHart (.core 0) ∧ bit ((onCore core0).reg 0x030001720700).toNat 4 = false ∧ ({ State.reset with focus := .hart .mgmt } : State).byHart .mgmt ∧ (Agent.mgmt).isCore = false ∧ (onCore core0).byCore 0 ∧
    (core0.hart.get 0#5).toNat % 64 ≤ 10 ∧ ¬((withX core0 [(1, 11#64)]).hart.get 1#5).toNat % 64 ≤ 10 := ⟨rfl, by decide +kernel, rfl, by decide, rfl, by decide +kernel⟩

theorem met_FaultQueue : (onCore core0).byCore 0 ∧ core0.hart.priv ≠ .u ∧ core0.fq = [] ∧ (inFault .m false [rec0, rec0]).fq = rec0 :: [rec0] ∧ (inFault .m false []).fq.length < 16 ∧ ¬(inFault .m false (List.replicate 16 rec0)).fq.length < 16 ∧ ({ core0 with fqHeld := [rec0] } : Core).fqHeld ≠ [] := ⟨rfl, by decide +kernel⟩

theorem met_SupervisorInstructions : (onCore core0).byCore 0 ∧ core0.hart.priv ≠ .u ∧
    (let bad := fun (base k n : Nat) (r : Ring) => decide (k < 4 ∨ 12 < k ∨ r.write ≠ r.retire ∨ base % 32 ≠ 0 ∨ (if n < 32 then 2 ^ 23 else 2 ^ 21) < base + 32 * 2 ^ k)
     bad 0 3 0 Ring.reset && bad 0 13 0 Ring.reset && bad 0 4 0 { Ring.reset with write := 1 } && bad 16 4 0 Ring.reset && bad (2 ^ 23) 4 0 Ring.reset && !bad (2 ^ 23 - 512) 4 0 Ring.reset && bad (2 ^ 21) 4 32 Ring.reset) = true ∧
    (inMode core0 .s).hart.priv = .s ∧ core0.hart.priv ≠ .s ∧ injectLegal 0 0 0 = true ∧ injectLegal 0 (2 ^ 63) 0 = false := ⟨rfl, by decide +kernel⟩

/-- One node, and an instance of die 0 that holds just it. -/
def node0 : NodeSt := { kind := 1, flags := 0, nsuc := [], nelse := [], p0 := 0x2000, p1 := 0x3000, imgoff := 0, stream := 0, save := 0x8000, init := 0, plain := true, phase := .running, readyAt := 0 }
def inst0 (l : List NodeSt) : GInst :=
  { id := 7, die := 0, queue := 0, ctx := 5, prio := 1, gbase := 0x4000, start := 0, done := 0, born := true, started := true, cbase := 8, nodes := l, fault := none, revoked := false }
def withInst (s : State) (l : List NodeSt) : State := { s with insts := [inst0 l] }
def staged0 : Staging := { Staging.empty with bytes := [(0x1000, some 1#8)], lines := [(0x40, some { whole := false, sticky := false })], decs := [(12, 1)] }

theorem met_TaskRetire : let s := withInst (onCore { taskOf task0 core0 with staging := staged0 }) [node0]
    s.byCore 0 ∧ (s.core 0).task = some { task0 with inst := 7 } ∧ (s.core 0).suspended = false ∧
    (Eng.all.map fun e => if (s.core 0 |>.ring e).halted then 2 ^ e.num else 0).sum = 0 ∧ Eng.all.all (fun e => (s.core 0 |>.ring e).write == (s.core 0 |>.ring e).retire) = true ∧
    ((s.core 0).setRing .tv { Ring.reset with halted := true }).ring .tv = { Ring.reset with halted := true } ∧ ({ Ring.reset with write := 1 } : Ring).write ≠ ({ Ring.reset with write := 1 } : Ring).retire ∧
    (runsTo (publishLines 0) s fun _ s1 => runsTo ((s.core 0).staging.launches.forM fun l => launchPacket l.1 l.2) ((s1.discardStaging 0).applyDecs 0 (s.core 0).staging.decs) fun _ s2 =>
      s2.inst? 7 == some (inst0 [node0])) = true := ⟨rfl, by decide +kernel⟩

theorem sound_of {s : State} {id node : Nat} (h : (match s.inst? id with
    | some g => decide (g.born = true ∧ g.fault = none ∧ g.revoked = false ∧ node < g.nodes.length)
    | none => true) = true) : s.sound id node := by
  intro g hg
  rw [hg] at h
  simpa using h

theorem met_TaskPoints : let s := withInst (onCore (taskOf task0 core0)) [node0]
    s.byCore 0 ∧ core0.task = none ∧ s.sound 7 0 ∧ (s.core 0).task = some { task0 with inst := 7 } ∧ task0.pinned = false ∧ task0.susp = true ∧ task0.pend = none ∧
    (let p := withInst (onCore (taskOf { task0 with pend := some 0 } core0)) [node0]
     p.byCore 0 ∧ p.abortsInstead 0 = false ∧ (p.core 0).quiet = true ∧ runsTo (drainAll 0) p (fun _ s1 => (s1.core 0).task == some { task0 with inst := 7, pend := some 0 } && (s1.core 0).hart == (p.core 0).hart && !s1.abortsInstead 0)) ∧
    (let c := works (taskOf { task0 with pend := some 0 } core0) .vx { fl0 with phase := .done }; c.quiet = false ∧ (withInst (onCore c) [node0]).abortsInstead 0 = false) ∧
    (runsTo (publishLines 0) s fun _ s1 => runsTo (([] : List (Nat × List Byte)).forM fun l => launchPacket l.1 l.2) (s1.discardStaging 0) fun _ _ => true) ∧
    (let p := withInst (onCore (taskOf { task0 with pend := some 0, susp := false } core0)) [node0]; p.sound 7 0 ∧ p.abortsInstead 0 = true ∧ runsTo (drainAll 0) p (fun _ s1 => s1 == p)) :=
  ⟨rfl, rfl, sound_of (by decide +kernel), by decide +kernel, rfl, rfl, rfl, ⟨rfl, by decide +kernel⟩, by decide +kernel, by decide +kernel, sound_of (by decide +kernel), by decide +kernel, by decide +kernel⟩

theorem met_GraphEffects : let d := onCore (withX core0 [(1, 0x1000#64), (2, 7#64)])
    let g := onCore (taskOf task0 (withX core0 [(1, 0x1000#64), (2, 7#64)]))
    d.byCore 0 ∧ ((withX core0 [(1, 7#64)]).hart.get 1#5).toNat % 8 ≠ 0 ∧ ((d.core 0).hart.get 1#5).toNat % 64 = 0 ∧ (d.core 0).stages = false ∧ (g.core 0).stages = true ∧
    (runsTo (translateHart (.core 0) .store 0x1000) g fun ph s0 => !s0.storesNow 0 ph && runsTo (storeM (.core 0) 0x1000 (leBytes 8 7)) s0 fun _ _ => true) ∧
    (runsTo (translateHart (.core 0) .store 0x1000) d fun ph s0 => s0.storesNow 0 ph && s0.effScope ph.pa .pkg == .pkg && runsTo (releaseAt 0 .pkg) s0 fun _ s1 => runsTo (storeM (.core 0) 0x1000 (leBytes 8 7)) s1 fun _ s2 =>
      runsTo (markRelease 0 ph.pa (s1.core 0).sq.length .pkg) s2 fun _ _ => true) ∧
    ({ core0 with staging := staged0 } : Core).roomWith [.counter 13] ≤ 65536 ∧ Table.get 0 staged0.decs 12 ≠ 0 ∧ Table.get 0 staged0.decs 13 = 0 ∧
    (runsTo (loadM (.core 0) 0x1000 64) d fun p s1 => runsTo (releaseAt 0 .pkg) s1 fun _ s2 => runsTo (launchPacket (s1.recCtx 0).1 p) s2 fun _ _ => true) ∧
    runsTo (loadM (.core 0) 0x1000 64) g (fun _ s1 => (s1.core 0).stages && decide ((s1.core 0).roomWith [.launch] ≤ 65536)) ∧
    (let s := { withInst (onCore core0) [{ node0 with phase := .waiting, plain := false }] with depCnt := [(8, 2#16)] }
     s.counterNode 0 8 = some (7, 0) ∧ s.counterNode 0 9 = none ∧ (inst0 []).ctrOf 0 = ctrKey 0 8 ∧ s.ctr (ctrKey 0 8) = 2 ∧ ({ s with depCnt := [(8, 1#16)] } : State).ctr (ctrKey 0 8) = 1) := ⟨rfl, by decide +kernel⟩

/-- A staging area with `k` entries. -/
def filledTo (k : Nat) : Staging := { Staging.empty with lines := List.replicate k (0, none) }
theorem filledTo_used (k : Nat) : (filledTo k).used = k := by simp [Staging.used, Staging.empty, filledTo]
theorem met_GraphEffects_overflow : Table.get 0 (filledTo 65536).decs 5 = 0 ∧ 65536 < ({ core0 with staging := filledTo 65536 } : Core).roomWith [.counter 5] :=
  ⟨rfl, by unfold Core.roomWith; rw [filledTo_used]; exact Nat.lt_add_of_pos_right (by decide +kernel)⟩

def at1000 (l : List Byte) : State := putMem (onCore (withX core0 [(1, 0x1000#64), (2, 7#64), (3, 0x1001#64)])) 0x1000 l

theorem met_Loads : let s := at1000 (leBytes 8 0x8877665544332211)
    s.Plain (.core 0) 0x1000 8 ∧ s.Plain (.core 0) 0x1038 8 ∧ ({ State.reset with focus := .hart .mgmt } : State).Plain .mgmt 0x1000 4 ∧ s.scFits 0 0x1000 ∧ s.byHart (.core 0) ∧ ((s.core 0).hart.get 3#5).toNat % 4 ≠ 0 ∧ ((s.core 0).hart.get 1#5).toNat % 8 = 0 ∧
    runsTo (loadM (.core 0) 0x1000 8) s (fun d _ => d.length == 8) ∧ 64 < 0x1039 % 64 + MemKind.d.bytes ∧ runsTo (translateHart (.core 0) .load 0x1039) s (fun ph s1 => !s1.isMmio ph.pa) ∧
    runsTo (translateHart (.core 0) .load 0x03000022003C) s (fun ph s1 => s1.loc ph.pa == .mmio 0x03000022003C && !s1.agentStages (.core 0)) ∧
    runsTo (translateHart (.core 0) .load 0x03000022003C) (onCore (taskOf task0 core0)) (fun ph s1 => s1.loc ph.pa == .mmio 0x03000022003C && s1.agentStages (.core 0)) ∧
    stopsBy (translateHart (.core 0) .load 0x1039) (onCore (withCsr (inMode core0 .s) 0x180 (BitVec.ofNat 64 (9 * 2 ^ 60 + 0x10)))) (fun | .flt _ => true | _ => false) :=
  ⟨plain_of (by decide +kernel), plain_of (by decide +kernel), plain_of (by decide +kernel), by unfold State.scFits; decide +kernel, rfl, by decide +kernel⟩

theorem met_StoresAndQueue : let e : SqEntry := { pa := 0x1000, data := leBytes 8 7, uncached := false }
    let s := onCore { core0 with sq := [e, e] }
    (onCore core0).Plain (.core 0) 0x1000 8 ∧ ({ State.reset with focus := .hart .mgmt } : State).Plain .mgmt 0x1000 8 ∧ (onCore core0).scFits 0 0x1000 ∧ s.PlainHome (s.recCtx 0).1 0x1000 8 ∧ (Agent.mgmt).isCore = false ∧
    64 < 0x1039 % 64 + MemKind.d.bytes ∧ runsTo (translateHart (.core 0) .store 0x1039) s (fun ph s1 => !s1.isMmio ph.pa) ∧ runsTo (translateHart (.core 0) .store 0x03000022003C) s (fun ph s1 => s1.loc ph.pa == .mmio 0x03000022003C) ∧
    stopsBy (translateHart (.core 0) .store 0x1039) (onCore (withCsr (inMode core0 .s) 0x180 (BitVec.ofNat 64 (9 * 2 ^ 60 + 0x10)))) (fun | .flt _ => true | _ => false) ∧ runsTo (storeM (.core 0) 0x1000 (leBytes 8 7)) (onCore core0) (fun _ _ => true) ∧
    (s.core 0).sq[1]? = some e ∧ (s.core 0).sqReady 1 = false ∧ (s.core 0).sqReady 0 = true ∧ Memory.wf [] = true :=
  ⟨plain_of (by decide +kernel), plain_of (by decide +kernel), by unfold State.scFits; decide +kernel, plainHome_of (by decide +kernel), by decide, by decide, by decide +kernel⟩

theorem met_Atomics : let s := at1000 (leBytes 8 5)
    amoOf (.amoCas true .sys 4#5 2#5 1#5) = some (.cas, true, .sys, 4#5, 2#5, 1#5) ∧ s.byCore 0 ∧ s.Plain (.core 0) 0x1000 8 ∧ s.scFits 0 0x1000 ∧ ((s.core 0).hart.get 3#5).toNat % 8 ≠ 0 ∧
    (taskOf task0 core0).stages = true ∧ ({ core0.hart with resv := some 0x40 } : Hart).resv = some (0x1000 / 64) ∧ core0.hart.resv ≠ some (0x1000 / 64) ∧ (AtOp.minu ≠ .lr ∧ AtOp.minu ≠ .sc) :=
  ⟨rfl, rfl, plain_of (by decide +kernel), by unfold State.scFits; decide +kernel, by decide +kernel⟩

theorem met_Barriers : let s := at1000 (leBytes 8 0x20002)
    s.byCore 0 ∧ s.Plain (.core 0) 0x1000 8 ∧ arriveRule (s.num 0x1000 8) = some (0, 0x10002) ∧ arriveRule 0x10002 = some (0, 0x100020002) ∧ arriveRule 0x100010002 = some (1, 0x20002) ∧ arriveRule 2 = none ∧
    arriveRule 0x30002 = none ∧ arriveRule (2 ^ 33) = none ∧ ((s.core 0).hart.get 3#5).toNat % 8 ≠ 0 ∧ (taskOf task0 core0).stages = true ∧
    s.num 0x1000 8 / 2 ^ 32 % 2 ≠ ((s.core 0).hart.get 2#5).toNat % 2 ∧ s.num 0x1000 8 / 2 ^ 32 % 2 = ((s.core 0).hart.get 0#5).toNat % 2 := by
  exact ⟨rfl, plain_of (by decide +kernel), by decide +kernel⟩

theorem met_Fences : let s := onCore { core0 with sq := [{ pa := 0x1000, data := leBytes 8 7, uncached := false }] }
    s.byCore 0 ∧ runsTo (drainAll 0) s (fun _ s1 => !s1.coveredHeld 0 && s1.swap == none) ∧ (inMode core0 .u).hart.priv = .u ∧
    (let h := (withCsr (inMode core0 .s) 0x300 (BitVec.ofNat 64 (2 ^ 20))).hart; h.priv = .s ∧ h.csrBit 0x300 20 = true) ∧ (inMode core0 .s).hart.csrBit 0x300 20 = false ∧ (Agent.mgmt).isCore = false :=
  ⟨rfl, by decide +kernel⟩

/-- A core whose task is suspended, in the handler. -/
def inHandler (sus : Bool) : Core := { taskOf task0 (inMode core0 .s) with suspended := sus }

/-- The long runs of `ctx.save` and `ctx.rest` go line by line: here each begins, and goes over one line. -/
theorem met_ContextSave : let s := onCore (inHandler true)
    s.byCore 0 ∧ s.swapHolds 0 = false ∧ (inHandler true).task = some { task0 with inst := 7 } ∧ (inHandler true).hart.priv = .s ∧ (inHandler true).suspended = true ∧ ((inHandler true).hart.get 1#5).toNat % 4096 = 0 ∧ (inHandler true).fq = [] ∧ core0.task = none ∧
    (inHandler false).suspended = false ∧ core0.hart.priv ≠ .s ∧ ((withX core0 [(1, 64#64)]).hart.get 1#5).toNat % 4096 ≠ 0 ∧ (inFault .s false [rec0]).fq ≠ [] ∧ (runsTo (drainAll 0) s fun _ s1 => runsTo (areaWrite 0 0 (List.replicate 64 7)) s1 fun _ _ => true) :=
  ⟨rfl, by decide +kernel⟩

theorem met_ContextRestore : let s := onCore (inMode core0 .s)
    s.byCore 0 ∧ core0.hart.priv ≠ .s ∧ (inMode core0 .s).hart.priv = .s ∧ core0.task = none ∧ (inHandler true).task ≠ none ∧ ((withX core0 [(1, 64#64)]).hart.get 1#5).toNat % 4096 ≠ 0 ∧
    (runsTo (drainAll 0) s fun _ s1 => runsTo (areaRead 0 0 64) s1 fun _ s2 => s2.heldW.isEmpty && s2.stale.isEmpty) ∧ headerOk 0 (List.replicate 64 0) (areaSizes 0 0 []) = false ∧
    headerOk 0 ((core0.headArea 0 task0).take 64) (areaSizes 0 0 []) = true ∧ liveLines [] = [] ∧ liveBlocks [] = [] :=
  ⟨rfl, by decide +kernel⟩

theorem met_ContextRoundTrip : let c := works core0 .mx { fl0 with latch := some (List.replicate 128 1#8) }
    0 < 288 ∧ (c.ring .mx).flight = [{ fl0 with latch := some (List.replicate 128 1#8) }] ∧ (List.replicate 128 1#8).length = 128 := by decide +kernel

def inS (l : List Nat) (c : Core) : Core :=
  withCsr (withCsr (inMode c .u) 0x303 (BitVec.ofNat 64 (l.map (2 ^ ·)).sum)) 0x304 (BitVec.ofNat 64 (l.map (2 ^ ·)).sum)

theorem met_LocalInterrupts :
    (let s : State := { State.reset with focus := .hart .mgmt, mbox := [3], mgmt := { (withCsr (inMode core0 .m) 0x304 (BitVec.ofNat 64 (2 ^ 17))).hart with csr := [(0x300, 8#64), (0x304, BitVec.ofNat 64 (2 ^ 17))] } }
     s.byHart .mgmt ∧ s.intrDue .mgmt = some 17) ∧
    (let c := withCsr (inS [5, 16, 17, 18] (taskOf task0 core0)) 0x344 (BitVec.ofNat 64 (2 ^ 18)); (onCore c).byCore 0 ∧ (onCore c).intrDue (.core 0) = some 18 ∧ c.task = some { task0 with inst := 7 } ∧ c.hart.delegated true 18 = true) ∧
    (let c := { withCsr (inS [17] core0) 0x344 (BitVec.ofNat 64 (2 ^ 17)) with resuming := some (7, 0) }; (onCore c).intrDue (.core 0) = some 17) ∧
    (let c := withCsr (inS [16] (taskOf { task0 with pend := some 0 } core0)) 0x344 (BitVec.ofNat 64 (2 ^ 16)); (onCore c).intrDue (.core 0) = some 16 ∧
      runsTo (drainAll 0) (onCore c) (fun _ s1 => s1 == onCore c) ∧ (onCore c).abortsInstead 0 = false) ∧
    (let c := withCsr (inS [5] core0) 0x344 (BitVec.ofNat 64 (2 ^ 5)); (onCore c).intrDue (.core 0) = some 5) :=
  ⟨⟨rfl, by decide +kernel⟩, ⟨rfl, by decide +kernel⟩, by decide +kernel, by decide +kernel, by decide +kernel⟩

theorem met_EngineControlAndKill : (onCore core0).byCore 0 ∧ core0.hart.priv ≠ .u ∧ core0.sq = [] ∧ core0.hart.csrGate 0x5C3 = true ∧ bit ((withX core0 [(1, 63#64)]).hart.get 1#5).toNat 8 = false ∧
    Eng.all.all (fun e => !(core0.ring e).halted) = true ∧ core0.task = none ∧
    (let s := withInst (onCore (taskOf task0 core0)) [node0]; (s.core 0).mustEnd = false ∧ s.inst? 7 = some (inst0 [node0]) ∧ (inst0 [node0]).done = 0 ∧ (inst0 [node0]).born = true) ∧
    (works (taskOf { task0 with pinned := true } core0) .st fl0).mustEnd = true ∧ (works (taskOf task0 core0) .vx fl0).mustEnd = true ∧ core0.fq.length < 16 ∧ core0.fqHeld = [] ∧ ({ cause := 1 } : FaultRec).logged = false ∧ (onCore core0).fld 0x030001720700 15 8 ≠ 1 := ⟨rfl, by decide +kernel⟩

/-- RESUME of a ring whose command is halted, its slot holding a NOP; and a KILL between `ctx.rest` and `sret`. -/
theorem met_EngineControlAndKill_halted : let f : Flight := { fl0 with phase := .halted }
    let k := core0.setRing .vx { Ring.reset with size := 16, write := 1, read := 1, flight := [f], halted := true }
    let s : State := { onCore k with mem := Memory.writeList [] (spBase 0) (leBytes 8 (nop1 3).toNat) }
    s.byCore 0 ∧ k.sq = [] ∧ (k.ring .vx).halted = true ∧ (k.ring .vx).isStalled = false ∧ (k.ring .vx).flight.find? (fun x => x.phase == .halted) = some f ∧
    runsTo (readSlot 0 .vx (k.ring .vx) f.slot) s (fun q _ => q.1 == nop1 3) ∧ (taskOf task0 { core0 with frozen := true }).frozen = true ∧ (taskOf task0 core0).task = some { task0 with inst := 7 } := ⟨rfl, by decide +kernel⟩

def sv48 : W64 := BitVec.ofNat 64 (9 * 2 ^ 60 + 0x10)
def allDown : Table Bool := (List.range 8).map fun d => (d, true)
def rootLeaf (s : State) (v : Nat) : State := putMem s 0x10000 (leBytes 8 v)

theorem met_TranslationEvents :
    (let s := rootLeaf (onCore (withCsr (inMode core0 .s) 0x180 sv48)) 0xCF
     s.byCore 0 ∧ bits ((s.core 0).hart.csrRaw 0x180).toNat 63 60 = 9 ∧ canonical 0x1000 = true ∧ (s.recCtx 0).1 = 0 ∧
       runsTo (walkFill (.cc 0) 0 sv48 0x1000 .store) s (fun e _ => e.allows { user := false, sum := false, mxr := false } .store)) ∧
    (let s := rootLeaf (onCore (withCsr (inMode core0 .s) 0x180 sv48)) 0xC3; runsTo (walkFill (.cc 0) 0 sv48 0x1000 .store) s (fun e _ => !e.allows { user := false, sum := false, mxr := false } .store)) ∧
    (let f : Flight := { fl0 with org := { Origin.empty with satp := sv48 } }
     let s := rootLeaf (onFlight .ld core0 f) 0xDF
     s.focus = .flight 0 .ld 0 ∧ (s.ring 0 .ld).flight[0]? = some f ∧ runsTo (walkFill (.eng 0) 0 sv48 0x1000 .load) s (fun e _ => e.allows { user := true, anyPage := (s.ring 0 .ld).owner } .load)) ∧
    -- walks that fail: no leaf, a table that cannot be read, and an entry without U
    (let s := rootLeaf (onCore (withCsr (inMode core0 .s) 0x180 sv48)) 0
     stopsBy (walkFill (.cc 0) 0 sv48 0x1000 .store) s (fun | .flt x => x.cause == 3 && x.detail == 1 | _ => false) ∧
       stopsBy (walkFill (.cc 0) 0 sv48 0x1000 .store) { s with ctrlDown := allDown } (fun | .flt x => decide (3 < x.cause) && decide (x.cause ≤ 8) | _ => false)) ∧
    canonical 0x1000000000000 = false ∧
    (let f : Flight := { fl0 with org := { Origin.empty with satp := sv48 } }
     let s := rootLeaf (onFlight .ld core0 f) 0xCF
     runsTo (walkFill (.eng 0) 0 sv48 0x1000 .load) s (fun e s1 => !e.allows { user := true, anyPage := false } .load && (s1.ring 0 .ld).flight.any fun g => g.slot == f.slot) ∧
       (match (walkFill (.eng 0) 0 sv48 0x1000 .load).run { s with ctrlDown := allDown } with
        | (.error (.flt _), s1) => (s1.ring 0 .ld).flight.any fun g => g.slot == f.slot
        | _ => false) = true) ∧
    onHub.tlbInv = none ∧ (let v : TlbInv := { mode := 3, vpn := 0, asid := 0, ctx := 0, gone := [(0x1000, 4096)] }
     let e : SqEntry := { pa := 0x1008, data := leBytes 8 7, uncached := false }
     ({ onHub with tlbInv := some v } : State).tlbInv = some v ∧ onHub.invalWaits v = false ∧ (onCore { core0 with sq := [e] }).invalWaits v = true) :=
  ⟨⟨rfl, by decide +kernel⟩, by decide +kernel, by decide +kernel, by decide +kernel, by decide +kernel, by decide +kernel, rfl, rfl, by decide +kernel⟩

theorem met_RegisterWrites : (onCore core0).byHart (.core 0) ∧ csrExists (.core 0) 0x340 = true ∧ core0.hart.csrAllowed 0x340 = true ∧ core0.hart.csrGate 0x340 = true ∧ bits 0x340 11 10 ≠ 3 ∧
    (onCore core0).agentStages (.core 0) = false ∧ runsTo (mmioWrite (whoOf (.core 0)) 0x030000220000 5) (onCore core0) (fun _ _ => true) ∧
    (0x030000220000#52 : BitVec 52).toNat = 0x030000220000 + 8 * 0 ∧ (0x0300002207F8#52 : BitVec 52).toNat = 0x030000220000 + 8 * 255 ∧ (0x030001601000#52 : BitVec 52).toNat = 0x030001601000 + 8 * 0 ∧
    (0x0300016017F8#52 : BitVec 52).toNat = 0x030001601000 + 8 * 255 ∧ (0x030001600010#52 : BitVec 52).toNat = 0x030001600010 ∧ (0x030001600008#52 : BitVec 52).toNat = 0x030001600008 := ⟨rfl, by decide +kernel⟩

theorem met_CommandLives :
    (let f : Flight := { fl0 with q0 := BitVec.ofNat 64 (2 ^ 46 + 2 ^ 40 + 2 ^ 20), phase := .await }
     let s := onFlight .st { core0 with sems := [(0, 1#16)] } f
     s.focus = .flight 0 .st 0 ∧ (s.ring 0 .st).turnOf 0 = some f ∧ f.wen = true ∧ ((((s.core 0).awaiters f.wsem).filter fun k => k.num < Eng.st.num).length < ((s.core 0).sem f.wsem).toNat) ∧
       (core0.sem f.wsem).toNat ≤ 0 ∧ fl0.wen = false ∧ f.ren = true ∧ f.bound = 1 ∧ f.since + 64 * f.bound = 64) ∧
    (let f : Flight := { fl0 with phase := .done }; (onFlight .mx core0 f).ring 0 .mx = { Ring.reset with write := 1, read := 1, flight := [f] } ∧ f.recs = [] ∧ f.ren = false ∧ f.dctr .mx = none ∧ (onCore core0).unacked 0 = false ∧
      ({ onCore core0 with heldW := [{ cluster := 0, core := 0, pa := 0x40, data := [1#8], at_ := 0, chosen := true, cls := 3 }] } : State).unacked 0 = true ∧
      ({ core0 with sems := [(0, 0xFFFF#16)] } : Core).sem 0 = 0xFFFF#16 ∧ ({ fl0 with q0 := 0x0100000000000040#64, q2 := BitVec.ofNat 64 (5 * 2 ^ 40) } : Flight).dctr .ld = some 5) ∧
    (onFlight .mx core0 fl0).fld 0x030001720700 15 8 ≠ 18 ∧ core0.fq.length < 16 ∧ core0.fqHeld = [] ∧ ({ cause := 1 } : FaultRec).logged = false ∧ (taskOf task0 core0).stages = true ∧ ({ core0 with staging := staged0 } : Core).roomWith [.counter 5] ≤ 65536 ∧ fl0.recs = [] ∧ ({ fl0 with phase := .failed rec0 } : Flight).recs = [] ∧
    (∀ e : Eng, e ∈ Eng.all → 0 + (if e.fast then 32 else 64) * 1 ≤ 64) ∧
    (let b : Cb := { cb4 2 1 1 1 0 with clm := [(0, 1)] }; b.free < 3 ∧ 2 ≤ b.free ∧ b.filled < 2 ∧ 1 ≤ b.filled ∧ Table.get 0 b.clm 0 < 2 ∧ 1 ≤ Table.get 0 b.clm 0 ∧ b.held < 2 ∧ 1 ≤ b.held) := by decide +kernel

theorem working_of {e : Eng} {c : Core} {f : Flight} (h : ((onFlight e c f).ring 0 e).turnOf 0 = some f ∧ f.phase = .ready) : Working (onFlight e c f) 0 e 0 f := ⟨rfl, h.1, h.2⟩

theorem met_CommandLives_working : Working (onFlight .ld core0 fl0) 0 .ld 0 fl0 := working_of (by decide +kernel)

/-- A command in flight with a0 the window of core 0's scratchpad, a1 an address of DRAM, a2 the number of a stream. -/
def flS : Flight := { fl0 with org := { Origin.empty with a := [0x020000000000#64, 0x1000#64, 6#64, 0#64, 0#64, 0#64, 0#64, 0#64] } }
def ldRow : LdArgs := { ldTile0 with dst := 0x40, q1hi := 0x20000000, len0 := 64, cnt1 := 1, q3 := 0x0001000000000000 }

/-- A core whose bank groups run without a parity bank. -/
def coreD : Core := { core0 with groups := (List.range 8).map fun g => (g, { Group.reset with mode := 2, fbank := 8 }) }

theorem met_Scratchpads : let s := onFlight .ld core0 flS
    (s.cx 0 .ld flS).bare ∧ s.CalmPad 0 0x40 64 ∧ s.CalmPad 0 0x7FFFFF 1 ∧
    (let x : Group := { Group.reset with stale := [3, 5] }; x.mode = 0 ∧ x.stale = 3 :: [5]) ∧ core0.stuck = [] ∧ core0.flips = [] ∧ Group.reset.stale = [] ∧ ({ Group.reset with mode := 1 } : Group).mode ≠ 0 ∧
    (let c : Core := { core0 with stuck := Table.put false [] (9 * 1 + 7) true }; c.stuck = Table.put false [] (9 * 1 + 7) true ∧ c.group 1 = Group.reset ∧ 1 < groupsOf 0 ∧ rowsOf 0 - 1 < rowsOf 0) ∧
    core0.rebuild = none ∧ (8 < (9#4 : BitVec 4).toNat ∧ (8#4 : BitVec 4).toNat ≤ 8 ∧ groupsOf 32 ≤ (3#2 : BitVec 2).toNat) ∧ ({ core0 with rebuild := some (7, 0) } : Core).rebuild = some (7, 0) ∧ onHub.owed = [] :=
  ⟨by unfold Cx.bare; decide +kernel, calm_of (by decide +kernel), calm_of (by decide +kernel), by decide +kernel⟩

/-- A command at its second part. -/
def flT : Flight := { flS with prog := { Prog.start with row := 1 } }

theorem copied_of {c : Cx} {gz : List (Nat × Nat)} {sink : Sink} {rows : List CopyRow} {s : State}
    (h : runsTo (c.reserve false gz (c.f.dctr c.e)) s (fun _ s1 => runsTo (copyRows c.f.prog.off sink rows) s1 fun _ _ => true) = true) : ∃ t, c.Copied gz sink rows s t := by
  obtain ⟨_, s1, h1, h⟩ := runsTo_ok h
  obtain ⟨_, t, h2, -⟩ := runsTo_ok h
  exact ⟨t, s1, h1, h2⟩

/-- The rows of LD.TILE's witness: one row of 64 bytes from DRAM. -/
def tileRows (s : State) : List CopyRow := let c := s.cx 0 .ld flS
  (List.range 1).map fun ρ =>
    ({ base := 0, pitch := 0, va := c.addr ldRow.dst + ρ * 64, len := 64, swz := 16 * (ρ % 2 ^ ldRow.span.toNat), src := fun o k => plainBits (c.source ldRow (c.addr ldRow.q1hi, 64) o k), reads := fun o k => [(addVa (c.addr ldRow.q1hi) o, k)] } : CopyRow)

theorem met_CopiesInAndMulticast : let s := onFlight .ld core0 flS
    let c := s.cx 0 .ld flS
    let sD := onFlight .ld coreD flS
    let cD := sD.cx 0 .ld flS
    Working s 0 .ld 0 flS ∧ (Working sD 0 .ld 0 flS ∧ ∃ t, cD.Copied [] (cD.ldSink (rowRuns (tileRows sD)) 0) (tileRows sD) sD t) ∧ c.bare ∧ s.CalmPad 0 0x40 64 ∧ s.PlainHome (s.recCtx 0).1 0x1000 64 ∧ s.left = none ∧ (s.core 0).stages = false ∧
    flS.prog.off = 0 ∧ ldRow.cnt1 = 1#12 ∧ ldRow.cnt2 = 1#12 ∧ c.addr ldRow.dst = spBase 0 + 0x40 ∧ bits ldRow.q3.toNat 47 0 = 0 ∧ ETy.ofCode 0x0A = some .bf16 ∧ ETy.ofCode 0x0C = some .fp32 ∧
    runsTo (c.once (c.readLocal (c.addr 0x80) 4)) s (fun l _ => l == [0, 0, 0, 0]) ∧
    (runsTo (cD.reserve false [] none) sD fun _ s1 => (cD.asNow s1).list == none && runsTo (inBurst (cD.readWindow (spBase 0 + 0x40) 64)) s1 fun d s2 => runsTo (copyRow 0 (cD.ldSink [(spBase 0 + 0x80, 64)] 0) 0
      { base := 0, pitch := 0, va := spBase 0 + 0x80, len := 64, swz := 0, src := fun o k => plainBits (pure ((d.drop o).take k)) }) (cD.keeps (some d) s2) fun _ _ => true) ∧
    (runsTo (c.once (bmvTop (fun o k => c.source ldRow (0x1000, 2 ^ 32) o k) 0x0A)) s fun top s1 => runsTo (bmvHead (fun o k => pure ((top.drop o).take k)) 0x0A 2 (fun _ _ => false)) s1 fun x s2 => s2 == s1 && match x with | .error _ => true | .ok _ => false) ∧
    (let z : List Byte := [183, 10, 1, 0, 1, 0, 0, 0, 0, 0, 0, 0, 93, 203, 90, 90, 1] ++ List.replicate 63 0 ++ [0x80, 0x3F]
     runsTo (bmvHead (fun o k => pure ((z.drop o).take k)) 0x0A 2 (fun _ _ => false)) s (fun x _ => match x with | .error _ => false | .ok m => m.count == 1 && m.nnz == 1)) ∧
    runsTo (c.mcastRows ldRow) s (fun l _ => l.length == 1) ∧ flS.prog.row = 0 ∧ flT.prog.row ≠ 0 ∧ s.landDone = [] :=
  ⟨working_of (by decide +kernel), ⟨working_of (by decide +kernel), copied_of (by decide +kernel)⟩, by unfold Cx.bare; decide +kernel, calm_of (by decide +kernel), plainHome_of (by decide +kernel), by decide +kernel⟩

def land0 : Landing := { sender := 1, slot := 0, receiver := 0, lbuf := 3, land := 0, data := [(0, [7#8])], extent := 1, tag := 0 }
def landBuf (v : Nat) (inUse : Bool) : State := { onHub with cores := [(0, withCsr (withCsr core0 0x843 (BitVec.ofNat 64 v)) 0x830 (if inUse then 8#64 else 0#64))], landings := [land0] }

theorem met_CopiesInAndMulticast_landing : let s := landBuf (2 ^ 32) false
    s.CalmPad 0 0 1 ∧ s.landings[0]? = some land0 ∧ land0.lbuf < 32 ∧ land0.data = [(0, [7#8])] ∧ ¬(2 ^ 31 ≤ (s.now + 2 ^ 32 - land0.land) % 2 ^ 32) ∧ 2 ^ 31 ≤ (s.now + 2 ^ 32 - 1) % 2 ^ 32 ∧ s.inReset (dieOf 0) = false ∧
    State.reset.inReset (dieOf 0) = true ∧ (s.core 0).hart.csrBit 0x830 3 = false ∧ ((landBuf (2 ^ 32) true).core 0).hart.csrBit 0x830 3 = true ∧ 64 * bits ((s.core 0).hart.csrRaw 0x843).toNat 48 32 = 64 ∧
    64 * bits (((landBuf 0 false).core 0).hart.csrRaw 0x843).toNat 48 32 = 0 ∧ ({ land0 with extent := 65 } : Landing).extent = 65 ∧ s.fld 0x030001720700 15 8 ≠ 9 ∧ (s.core 0).fq.length < 16 ∧ (s.core 0).fqHeld = [] :=
  ⟨calm_of (by decide +kernel), by decide +kernel⟩

def stRow : StArgs :=
  { res := 0, z52 := 0, dcen := false, span := 0, z1110 := 0, gz := 0, dst := 0x20000000, src := 0x40, len0 := 64, cnt1 := 1, cnt2 := 1, dctr := 0, stype := 0x0A, q2z := 0, q3 := 0x0001000000000000 }

theorem met_CopiesOut : let s := onFlight .st core0 flS
    let c := s.cx 0 .st flS
    let runs := unswizzledRuns (c.addr 0x40) 0
    let rows : List CopyRow := [{ base := 0, pitch := 64, va := 0x1000, len := 64, swz := 0, src := fun o k => plainBits (c.readPieces (runs o k)), reads := runs }]
    Working s 0 .st 0 flS ∧ (∃ t, c.Copied (rowRuns rows) (c.stSink stRow (rowRuns rows) 0) rows s t) ∧ c.bare ∧ s.CalmPad 0 0x40 64 ∧ s.PlainHome (s.recCtx 0).1 (c.addr stRow.dst) 64 ∧ s.left = none ∧ (s.core 0).stages = false ∧
    (taskOf task0 core0).stages = true ∧ runsTo (c.once (c.readLocal (c.addr 0x40) 4)) s (fun _ _ => true) ∧ 23 < (bmvOf 0x0A 2 1 [0#8, 0#8]).length ∧ (bmvOf 0x0A 2 1 [0x80#8, 0x3F#8]).length ≤ 98 ∧
    (runsTo (c.reserve false [] none) s fun _ s1 => runsTo (M.at none (some 0) (c.wbLine false 0x1000)) s1 fun _ _ => runsTo (c.wbLine true 0x1000) s1 fun _ _ => true) ∧
    runsTo (c.xlate .store 0x1000) s (fun ph s0 => ph.home == homeCached && s0.savedSets.isEmpty && !s0.cores.any (fun k => k.2.staging.has (s0.norm ph.pa / 64))) ∧
    ETy.ofCode 0x0A = some .bf16 ∧ (hd none none 1 0 2).ovm = .gaz ∧ s.unacked 0 = false ∧ runsTo (M.at none (some 64) (c.gazCount 7)) s (fun _ _ => true) ∧
    flS.prog.off = 0 ∧ bits stRow.q3.toNat 47 0 = 0 ∧ c.addr stRow.src = spBase 0 + 0x40 ∧ stRow.cnt1 = 1#12 ∧ stRow.cnt2 = 1#12 :=
  ⟨working_of (by decide +kernel), copied_of (by decide +kernel), by unfold Cx.bare; decide +kernel, calm_of (by decide +kernel), plainHome_of (by decide +kernel), by decide +kernel⟩

/-- A nest of single counts, A and B one element each of a type. -/
def nest1 (ty : Nat) : List Byte :=
  let lay := leBytes 4 (ty * 2 ^ 8 + 2 ^ 16)
  leBytes 4 0x100 ++ leBytes 4 0x140 ++ lay ++ lay ++ leBytes 2 1 ++ leBytes 2 1 ++ leBytes 2 1 ++ leBytes 10 0 ++ ((List.range 6).map fun _ => leBytes 2 1 ++ leBytes 14 0).flatten
def padOf (e : Eng) (off : Nat) (l : List Byte) : State := { onFlight e core0 flS with mem := Memory.writeList [] (spBase 0 + off) l }
def mxZ : MxArgs := { md := 4, q1 := 0x80, q2 := 0, q3 := 0 }

theorem met_MatrixCommands : ((onFlight .mx core0 flS).cx 0 .mx flS).bare ∧ (onFlight .mx core0 flS).CalmPad 0 0x80 4 ∧
    (let s := padOf .mx 0x80 (nest1 0x0A)
     let c := s.cx 0 .mx flS
     Working s 0 .mx 0 flS ∧ productOf (.mmaBf16 cleanHd mxZ) = some (0, cleanHd, mxZ) ∧ flS.latch = none ∧ flS.prog.n = [] ∧ flS.prog.z = false ∧ mxZ.che = false ∧ mxZ.spa = 0 ∧
     runsTo (c.latch mxZ) s (fun d s1 => d.defect (s1.core 0) 0 mxZ 0 == none && s1.left == none && (s1.ring 0 .mx).flight.all (fun g => g.stuck == []) && (List.range 6).all (fun l => d.count l == 1) && d.isFp mxZ 0 && d.tm == 1 && runsTo (c.tile (d.u 8 4) (c.addr (BitVec.ofNat 32 (d.u 0 4))) d.tm d.kc) s1 fun _ s2 =>
       runsTo (c.tile (d.u 12 4) (c.addr (BitVec.ofNat 32 (d.u 4 4))) d.kc d.tn) s2 fun _ _ => true)) ∧
    (let s := padOf .mx 0x80 (nest1 0x03)
     let c := s.cx 0 .mx flS
     runsTo (c.latch mxZ) s (fun d s1 => d.defect (s1.core 0) 0 mxZ 2 == none && !d.isFp mxZ 2) && runsTo (c.latch mxZ) s (fun d s1 => (d.defect (s1.core 0) 0 mxZ 0).isSome)) ∧
    core0.accMode 0 = false ∧ ({ core0 with accInt := [(0, true)] } : Core).accMode 0 = true ∧ (tyOf 0x0C).isInt = false ∧ (tyOf 0x03).isInt = true ∧
    (let s := onFlight .mx core0 flS
     let c := s.cx 0 .mx flS
     runsTo ((List.range 1).mapM fun ρ => c.unswizzled (c.addr 0x80 + ρ * 64) 0 0 4) s (fun _ _ => true) && runsTo (c.readLocal (c.addr 0x80) (4 * accDim 0)) s (fun _ _ => true)) ∧
    (FFmt.fp32.round .ieee .rne (FFmt.fp32.value (core0.accFp 5))).code = core0.accFp 5 ∧ (onFlight .mx core0 flS).left = none :=
  ⟨by unfold Cx.bare; decide +kernel, calm_of (by decide +kernel), ⟨⟨rfl, by decide +kernel, rfl⟩, by decide +kernel⟩, by decide +kernel⟩

theorem met_AccumulatorZero : Working (onFlight .mx core0 flS) 0 .mx 0 flS ∧ (Instr.accZero cleanHd { md := 3, q1 := 0, q2 := 0, q3 := 0 }).wf = true ∧ cleanHd.rnd = 0 ∧ cleanHd.ovf = 0 ∧ cleanHd.spec = false ∧
    (List.range 15).all (fun i => i == 0 || i == 1 || i == 11 || !(3#15).getLsbD i) = true := ⟨working_of (by decide +kernel), by decide +kernel⟩

theorem met_VectorResults : let s := onFlight .vx core0 flS
    Working s 0 .vx 0 flS ∧ (Instr.vxAdds (hd none none 1 0 1) vx1).wf = true ∧ (vRule (s.core 0) (.vxAdds (hd none none 1 0 1) vx1)).isSome = true ∧ (s.core 0).vpois = [] ∧
    ((vRule (s.core 0) (.vxAdds (hd none none 1 0 1) vx1)).any fun r => r.h.ovm != .gaz) = true ∧ (hd none none 1 0 2).ovm = .gaz ∧ runsTo ((s.cx 0 .vx flS).gazAll 0 [(0, 5)]) s (fun _ _ => true) :=
  ⟨working_of (by decide +kernel), by decide +kernel⟩

theorem met_VectorMasksAndMoves : let s := onFlight .vx core0 flS
    let c := s.cx 0 .vx flS
    Working s 0 .vx 0 flS ∧ (∀ q < 8, s.CalmPad 0 (0 + 64 * q) 64) ∧ c.bare ∧ (cmpRule core0 (.vxCmpEq cleanHd { vx1 with kd := 2 })).isSome = true ∧ core0.vpois = [] ∧ cleanHd.ovm ≠ .gaz ∧ ({ vx1 with kd := 2 } : VxArgs).kd ≠ 0#4 ∧
    ({ vx1 with xm := 1 } : VxArgs).xm.getLsbD 0 = true ∧ (maskRule core0 (.vxKnot cleanHd { vx1 with kd := 15 })).isSome = true ∧ vx0.x10 = 0 ∧ vx0.msk = 0#4 ∧ runsTo ((List.range 8).mapM fun q => c.readLocal (c.addr vx0.imm + 64 * q) 64) s (fun _ _ => true) ∧
    runsTo (c.readLocal (c.addr 0) 16) s (fun _ _ => true) ∧ runsTo (c.writeLocal (c.addr 0) (leBytes 16 0)) (onFlight .vx coreD flS) (fun _ _ => true) ∧ runsTo (c.readLocal (c.addr 0) 64) s (fun b _ => b.length == 64 && b.all fun e => e == 0#8) ∧
    (0x80#8 : Byte).getLsbD 7 = true ∧ ((0x42#8 : Byte).getLsbD 6 = true ∧ (0x42#8 : Byte).toNat / 2 % 32 ≠ 0) ∧ flS.prog.off = 0 ∧ c.addr vx0.imm = spBase 0 + 0 ∧ (128#32 : W32).toNat % 256 = 128 ∧
    quantL8 ((List.range 8).map fun p => core0.fcode .fp32 ⟨2, 0, 0, false⟩ (8 * 0 + p) 0) = (some 0x6AAA, false) ∧
    consumesVa (.vxAdd cleanHd vx1) = some (cleanHd, vx1) ∧ cleanHd.spec = false ∧ (let k : Core := { core0 with k := [(1, 1#128)], vpois := [(256, true)] }; k.on vx1 0 = true ∧ k.poisoned vx1.va.reg.toNat 0 = true) := by
  refine ⟨working_of (by decide +kernel), fun q hq => ?_, by unfold Cx.bare; decide +kernel, by decide +kernel⟩
  have : q = 0 ∨ q = 1 ∨ q = 2 ∨ q = 3 ∨ q = 4 ∨ q = 5 ∨ q = 6 ∨ q = 7 := by omega
  rcases this with rfl | rfl | rfl | rfl | rfl | rfl | rfl | rfl <;> exact calm_of (by decide +kernel)

/-- SPEC loads with a line of an unmapped page and with good ones; SPEC stores of a poisoned register; a carrier and a SPEC consumer of poison. -/
theorem met_VectorMasksAndMoves_spec : let s := onFlight .vx core0 flS
    let c := s.cx 0 .vx flS
    runsTo (inBurst ((List.range 8).mapM fun q => c.vldLine true (c.addr 0 + 64 * q))) s (fun l _ => l.length == 8 && l.all Option.isSome) ∧
    runsTo (inBurst ((List.range 8).mapM fun q => c.vldLine true (0x1000000000 + 64 * q))) s (fun l _ => l.all Option.isNone) ∧
    (let k : Core := { core0 with vpois := [(256, true)], vorg := [(2, (7, 8))] }
     k.poisoned 2 0 = true ∧ (poisonRule k (.vxMov cleanHd { vxU with va := ⟨2, 0, 0, false⟩ })).any (fun r => r.carrier && r.h.ovm != .gaz && k.on r.a 0 && r.order.head? == some 2 && (r.src 0).any fun u => k.poisoned u.1 u.2) = true ∧
       (poisonRule k (.vxAdd { cleanHd with spec := true } vx0)).any (fun r => !r.carrier && r.h.spec && r.h.ovm != .gaz) = true ∧
       (let s' := onFlight .vx k flS; (s'.core 0).poisoned 2 0 = true)) := by decide +kernel

theorem met_VectorMasksAndMoves_specStore : ∀ q < 8, (onFlight .vx { core0 with vpois := [(256, true)] } flS).CalmPad 0 (0 + 64 * q) 64 := by
  intro q hq
  have : q = 0 ∨ q = 1 ∨ q = 2 ∨ q = 3 ∨ q = 4 ∨ q = 5 ∨ q = 6 ∨ q = 7 := by omega
  rcases this with rfl | rfl | rfl | rfl | rfl | rfl | rfl | rfl <;> exact calm_of (by decide +kernel)

def ctS : CtArgs :=
  { causal := false, pre := false, modz := 0, dst := 0x80, src := 0x40, len := 8, rows := 1, q2z := 0, aux := 0x100, spitch := 1, dpitch := 1, stype := 0x0A, dtype := 0x0A, row0 := 0 }

theorem met_Contour : let s := onFlight .ct core0 flS
    let c := s.cx 0 .ct flS
    Working s 0 .ct 0 flS ∧ c.bare ∧ s.CalmPad 0 0x40 (ctS.st.bytes ctS.len.toNat) ∧ s.CalmPad 0 0x80 (ctS.dt.bytes ctS.len.toNat) ∧ s.CalmPad 0 (0x100 + 68) 4 ∧ s.left = none ∧ contourOf (.ctScale cleanHd ctS) = some (.scale, cleanHd, ctS) ∧
    flS.prog.row = 0 ∧ ctS.rows.toNat = 0 + 1 ∧ ctS.pre = false ∧ ({ ctS with rows := 0 } : CtArgs).rows.toNat ≤ 0 ∧
    (runsTo (c.ctRead .scale ctS s.mem 0) (onFlight .ct coreD flS) fun raw s1 => runsTo (c.ctWrite ctS 0 (ctOf .scale cleanHd ctS 0 raw) []) s1 fun _ _ => true) ∧
    c.addr ctS.src = spBase 0 + 0x40 ∧ c.addr ctS.dst = spBase 0 + 0x80 ∧ c.addr ctS.aux = spBase 0 + 0x100 :=
  ⟨working_of (by decide +kernel), by unfold Cx.bare; decide +kernel, calm_of (by decide +kernel), calm_of (by decide +kernel), calm_of (by decide +kernel), by decide +kernel⟩

/-- A Contour command of two phases that goes on with the row it had read before a pause. -/
theorem met_Contour_kept : let f : Flight := { flS with list := some (List.replicate ctS.kept 0) }
    let s := onFlight .ct coreD f
    let c := s.cx 0 .ct f
    Working s 0 .ct 0 f ∧ (c.asNow s).list = some (List.replicate ctS.kept 0) ∧ (List.replicate ctS.kept (0 : Byte)).length = ctS.kept ∧ CtOp.softmax.phases ≠ 1 ∧ contourOf (.ctSoftmax cleanHd ctS) = some (.softmax, cleanHd, ctS) ∧
    runsTo (c.ctWrite ctS 0 (ctOf .softmax cleanHd ctS 0 (List.replicate ctS.kept 0)) []) s (fun _ _ => true) :=
  ⟨⟨rfl, by decide +kernel, rfl⟩, by decide +kernel⟩

/-- Stream 6 between P-die 0 and D-die 4, in a state. -/
def str0 (st : Nat) : Stream := { Stream.reset with state := st, owner := 0, ctx := 0, pdie := 0, ddie := 4, dbase := 0x8000, nbmax := 2, gzbase := 0x9000, gzcap := 4 }
def withStr (s : State) (t : Stream) : State := { s with streams := [(6, t)] }
def tvS : TvArgs := { fe := false, fin := false, modz := 0, sreg := 2, q1z := 0, idx := 0, q1zz := 0, stw := 0x40, src := 0x80, spitch := 32, ntok := 1, q2z := 0, q3 := 0 }

theorem met_TraverseCommands : let s := onFlight .tv core0 flS
    let c := s.cx 0 .tv flS
    Working s 0 .tv 0 flS ∧ c.bare ∧ s.CalmPad 0 0x40 8 ∧ s.CalmPad 0 0x80 64 ∧ traverseOf (.tvBlk cleanHd tvS) = some (cleanHd, tvS) ∧ c.addr tvS.stw = spBase 0 + 0x40 ∧ c.stream tvS = 6 ∧ (s.recCtx 0).1 = 0 ∧ flS.prog.row = 0 ∧ flT.prog.row = 1 ∧
    refusedBy (.tvBlk cleanHd tvS) Stream.reset 0 0 true false = some 1 ∧ refusedBy (.tvBlk cleanHd tvS) (str0 3) 9 0 true false = some 10 ∧ refusedBy (.tvAcq cleanHd tvS) (str0 3) 0 0 true false = some 2 ∧ refusedBy (.tvSeal cleanHd tvS) (str0 7) 0 0 true false = some 5 ∧
    refusedBy (.tvBlk cleanHd tvS) (str0 2) 0 0 true false = some 3 ∧ refusedBy (.tvFree cleanHd tvS) (str0 2) 0 0 true false = some 3 ∧ refusedBy (.tvOpen cleanHd tvS) (str0 2) 0 0 true false = none ∧ refusedBy (.tvCancel cleanHd tvS) (str0 4) 0 0 true false = none ∧
    refusedBy (.tvCancelFin cleanHd tvS) { str0 5 with owner := 4 } 0 4 true false = none ∧ (∀ st ∈ [1, 5, 6, 8], refusedBy (.tvAcq cleanHd tvS) (str0 st) 0 4 true false = none) ∧ refusedBy (.tvStat cleanHd tvS) (str0 8) 0 9 true false = none ∧
    refusedBy (.tvBlk cleanHd tvS) (str0 3) 0 0 true false = none ∧ refusedBy (.tvSeal cleanHd tvS) (str0 3) 0 0 true false = none ∧ refusedBy (.tvDisc cleanHd tvS) (str0 3) 0 0 true false = none ∧ refusedBy (.tvFree cleanHd tvS) (str0 3) 0 0 true false = none ∧
    refusedBy (.tvFree cleanHd tvS) (str0 3) 9 9 true true = none ∧ (s.streams.filter fun e => (e.2.state == 3 || e.2.state == 4) && e.2.ddie == 4 && e.2.dpkg == 0).length < 64 ∧ c.addr tvS.src = spBase 0 + 0x80 ∧
    ((str0 3).nbmax > tvS.idx.toNat ∧ tvS.ntok.toNat ≤ 8 * 2 ^ (str0 3).tc ∧ 32 * ((str0 3).dhc + 1) ≤ tvS.spitch.toNat ∧ (str0 3).lost = false ∧ tvS.idx.toNat ≤ (str0 3).nbmax) ∧
    runsTo ((List.range tvS.ntok.toNat).mapM fun r => c.readLocal (c.addr tvS.src + r * tvS.spitch.toNat) (32 * ((str0 3).dhc + 1))) s (fun _ _ => true) ∧
    (let r : TvReply := { core := 0, slot := 0, code := 5, idx := 0, st := 7, gzl := false }; r.core = 0 ∧ r.slot = flT.slot ∧ r.code < 100 ∧ r.gzl = false) ∧ s.tvReply = [] ∧ (str0 3).notice = none ∧ ({ str0 3 with notice := some true } : Stream).notice = some true :=
  ⟨working_of (by decide +kernel), by unfold Cx.bare; decide +kernel, calm_of (by decide +kernel), calm_of (by decide +kernel), by decide +kernel⟩

theorem taskless_one {s : State} {c : Core} (i : Nat) (h : s.cores = [(0, c)]) (hc : c.task = none) (hi : s.insts = []) : s.taskless i := by
  refine ⟨fun n k hk => ?_, fun g hg => ?_⟩
  · have : (s.core n).task = none := by
      unfold State.core
      rw [h]
      unfold Table.get
      split
      · exact hc
      · rfl
    rw [this] at hk
    cases hk
  · rw [hi] at hg
    cases hg

def wHeld (n : Option Nat) : WaitingWrite := { core := n, pa := 0x10040, data := [1#8] }
def hHeld (pa : Nat) : HeldWrite := { cluster := 0, core := 0, pa := pa, data := [1#8], at_ := 0, chosen := true }
def sw0 (l : List WaitingWrite) : SwapSt := { desc := 0, src := 0x10000, dst := 0x20000, home := 0, ctx := 0, ptepa := 0x80, res := 0, lines := 512, data := [7#8], held := l }

/-- Releases that wait; the codes 4, 7, 8 and 11; every state of a cancel. -/
theorem met_TraverseCommands_codes : let s := onFlight .tv core0 flS
    let c := s.cx 0 .tv flS
    Working s 0 .tv 0 flS ∧ c.bare ∧ c.addr tvS.stw = spBase 0 + 0x40 ∧ s.taskless 6 ∧ 0x40 < spSize 0 ∧
    ({ s with swap := some (sw0 [wHeld (some 0)]) } : State).swapHolds 0 = true ∧ ({ s with heldW := [hHeld 0x40] } : State).coveredHeld 0 = true ∧ s.swapHolds 0 = false ∧ s.coveredHeld 0 = false ∧
    (∀ st ∈ [1, 2, 3, 4, 5, 6, 7, 8], refusedBy (.tvCancel cleanHd tvS) (str0 st) 0 0 true false = none) ∧ 0 < ({ str0 2 with live := 1 } : Stream).live ∧ (str0 2).live ≤ 0 ∧
    (let u : State := { s with streams := (6, str0 2) :: (List.range 64).map fun i => (100 + i, str0 3) }; 64 ≤ (u.streams.filter fun e => (e.2.state == 3 || e.2.state == 4) && e.2.ddie == 4 && e.2.dpkg == 0).length) ∧
    (str0 3).nbmax ≤ (2#12 : BitVec 12).toNat ∧ 8 * 2 ^ (str0 3).tc < (9#7 : BitVec 7).toNat ∧ (31#16 : BitVec 16).toNat < 32 * ((str0 3).dhc + 1) ∧ (str0 3).nbmax < (3#13 : BitVec 13).toNat ∧ ({ str0 3 with lost := true } : Stream).lost = true :=
  ⟨working_of (by decide +kernel), by unfold Cx.bare; decide +kernel, by decide +kernel, taskless_one 6 rfl rfl rfl, by decide +kernel⟩

def msg0 (seal1 : Bool) (idx : Nat) : TvMsg := { pdie := 0, stream := 6, core := 0, slot := 0, idx := idx, isSeal := seal1, data := leBytes 8 7, outliers := [], doomed := none }
def chan (st : Nat) (m : TvMsg) : State := { withStr onHub (str0 st) with tvChan := [m] }
def wpReq (w0 : Nat) : List Byte := leBytes 8 w0 ++ leBytes 8 (4 * 2 ^ 29) ++ leBytes 8 0x8000 ++ leBytes 8 2 ++ leBytes 8 0x9000 ++ leBytes 8 4 ++ leBytes 16 0
def wpReq1 (w0 : Nat) : List Byte := leBytes 8 w0 ++ leBytes 56 0
def asked (l : List Byte) : State := (putMem onHub 0 l).setReg 0x030001400010 1#64
def asks (l : List Byte) (p : List Byte → State → Bool) : Bool :=
  (asked l).fld 0x030001400010 0 0 == 1 && runsTo (hubRead 0 ((asked l).fld 0x030001400000 51 6 * 64) 64) (asked l) fun x s1 => x == some l && p l s1

theorem taskless_of {s : State} (i : Nat) (h : s.cores = []) (hi : s.insts = []) : s.taskless i := by
  refine ⟨fun n k hk => ?_, fun g hg => ?_⟩
  · have : s.core n = Core.reset := by unfold State.core; rw [h]; rfl
    rw [this] at hk
    cases hk
  · rw [hi] at hg
    cases hg

theorem met_StreamEvents : onHub.chanHead 0 = none ∧
    (∀ st ∈ [2, 3, 7], (chan st (msg0 false 0)).chanHead 0 = some (msg0 false 0) ∧ ((chan st (msg0 false 0)).stream 6).state = st) ∧ (msg0 false 0).isSeal = false ∧ (msg0 true 1).isSeal = true ∧ (msg0 true 1).doomed = none ∧ (msg0 false 0).outliers = [] ∧
    ({ msg0 true 1 with doomed := some 0 } : TvMsg).doomed = some 0 ∧ (str0 3).accepted = [] ∧ 0 ∈ ({ str0 3 with accepted := [0] } : Stream).accepted ∧ 0 < (msg0 true 1).idx ∧
    runsTo (writeRun { who := .hub 0, cached := false, traverse := true } ((str0 3).dbase + 0 * (str0 3).blockBytes) (msg0 false 0).data) { chan 3 (msg0 false 0) with tvChan := [] } (fun _ _ => true) ∧
    (str0 3).discarding = false ∧ (str0 3).lost = false ∧ (withStr onHub (str0 3)).tvChan = [] ∧ (let m := { msg0 true 0 with stream := 65536 * 6 + 6 }; ({ chan 3 m with streams := [(65536 * 6 + 6, str0 3)] } : State).chanHead 0 = some m ∧ 65536 ≤ m.stream) ∧
    (str0 4).deferred = false ∧ ({ str0 4 with deferred := true } : Stream).deferred = true ∧ (withStr onHub (str0 4)).taskless 6 ∧ ({ str0 3 with discarding := true, toPrefill := true } : Stream).received = [] ∧ (str0 7).live = 0 ∧
    ({ str0 3 with dpkg := 5 } : Stream).dpkg ≠ onHub.pkgId ∧ (str0 3).dpkg = onHub.pkgId ∧ onHub.reaches 5 = false ∧ onHub.pkgId = 0 ∧
    asks (wpReq (1 + 6 * 2 ^ 16)) (fun l s1 => !wpZeroBad l true && (s1.stream 6).state == 0 && !(admitRecord l (s1.stream 6).seq).rangeBad && s1.streams == []) ∧ asks (wpReq (1 + 6 * 2 ^ 16 + 8)) (fun l _ => wpZeroBad l true) ∧
    asks (wpReq (1 + 6 * 2 ^ 16)) (fun l _ => (admitRecord l 0).clash (str0 3)) ∧ (∀ op ∈ [2, 3], asks (wpReq1 (op + 6 * 2 ^ 16)) (fun l s1 => !wpZeroBad l false && s1.cores == [])) ∧
    asks ((wpReq (1 + 6 * 2 ^ 16)).set 8 1#8 |>.set 11 4#8) (fun l _ => (admitRecord l 0).rangeBad) = true :=
  ⟨by decide +kernel, by decide +kernel, rfl, rfl, rfl, rfl, rfl, rfl, by decide +kernel, by decide +kernel, by decide +kernel, rfl, rfl, rfl, by decide +kernel, rfl, rfl, taskless_of 6 rfl rfl, by decide +kernel⟩

/-- Discards that are acknowledged in HANDOFF and in CANCELLING with a block that received lines; ones that wait; and admissions that wait. -/
theorem met_StreamEvents_discard :
    (∀ st ∈ [3, 7], let t := { str0 st with discarding := true, toPrefill := true, received := [0], accepted := [0] }
     let s := withStr onHub t
     t.lost = false ∧ s.tvChan = [] ∧ runsTo (t.received.forM fun b => do
       let w ← get
       writeRun { who := .hub t.ctx, cached := false, traverse := true } ((if t.dpkg = w.pkgId then 0 else 2 ^ 51 + t.dpkg * 2 ^ 39) + t.dbase + b * t.blockBytes) (List.replicate t.blockBytes 0)) s
       (fun _ s1 => (s1.stream 6).state == st && (s1.stream 6).toPrefill)) ∧
    (∃ m ∈ (chan 7 (msg0 true 1)).tvChan, m.stream = 6) ∧ (str0 3).discarding = false ∧ ({ str0 3 with discarding := true, lost := true } : Stream).lost = true ∧
    (msg0 true 1).doomed = none ∧ 0 < (msg0 true 1).idx ∧
    (let new := admitRecord (wpReq (1 + 6 * 2 ^ 16)) 0; ({ onHub with rtDrain := true } : State).rtDrain = true ∧ ∃ h ∈ ({ onHub with heldW := [hHeld new.dbase] } : State).heldW, onHub.inStream new h.pa = true) ∧
    onHub.rtDrain = false ∧ onHub.heldW = [] ∧ ({ onHub with rtDrain := true, mem := Memory.writeList [] (onHub.key 0) (wpReq (1 + 6 * 2 ^ 16)) } : State).rtDrain = true :=
  ⟨by decide +kernel, ⟨_, List.mem_singleton.2 rfl, rfl⟩, rfl, rfl, rfl, by decide, ⟨rfl, _, List.mem_singleton.2 rfl, by decide +kernel⟩, rfl, rfl, rfl⟩

/-- The queue entry 5 of the queue table, which lies at 0: ring at 0x2000 of 16 packets, die 0, enabled, one packet released. -/
def qEnt : List Byte := leBytes 8 0x2000 ++ [4#8, 0#8, 0#8, 1#8] ++ leBytes 4 0 ++ leBytes 4 1 ++ leBytes 4 0 ++ leBytes 8 0
def packet0 : List Byte := leBytes 8 0x4000 ++ leBytes 24 0 ++ leBytes 32 0
def withQ (s : State) : State := putMem (putMem s 160 qEnt) 0x2000 packet0
def bound0 (s : State) : State := { withQ s with qslots := [(0, some { queue := 5, since := 0 })], widx := [(5, 1)] }

theorem met_QueuesAndInstances : queueEnt 5 (withQ onHub) = some { rbase := 0x2000, rlog := 4, qprio := 0, qdie := 0, en := true, widx := 1, ridx := 0 } ∧ queueEnt 5 { onHub with ctrlDown := [(0, true)] } = none ∧ onHub.rtDrain = false ∧ 64 ≤ 64 ∧ (0 : Nat) * 64 + 63 < 64 ∧ (queueEnt 5 (putMem (withQ onHub) 170 [12])).map (·.qdie) = some 12 ∧
    (let s := (onHub.setReg (0x030001820000 + 8 * 5) 64#64); s.fld (0x030001820000 + 8 * 5) 6 0 = 64 ∧ s.fld (0x030001830000 + 8 * 64) 0 0 = 0 ∧ (s.setReg (0x030001830000 + 8 * 64) 1#64).fld (0x030001830000 + 8 * 64) 0 0 = 1) ∧
    (let s := bound0 onHub
     Table.get none s.qslots 0 = some { queue := 5, since := 0 } ∧ Table.get none s.qslots 1 = none ∧ Table.get 0 s.widx 5 ≠ 0 ∧ (s.insts.filter fun g => g.queue == 5).length < 8 ∧
     (runsTo (hubRead 0 0x2000 64) s fun p s1 => p == some packet0 && runsTo (writeRun (hubReq 0) (s.qEntry 5 + 20) (leBytes 4 1)) s1 fun _ s2 =>
       !s2.packetBad { rbase := 0x2000, rlog := 4, qprio := 0, qdie := 0, en := true, widx := 1, ridx := 0 } packet0 && s2.packetBad { rbase := 0x2000, rlog := 4, qprio := 0, qdie := 1, en := true, widx := 1, ridx := 0 } packet0) ∧
     s.now < 0 + s.tau ∧ 0 + s.tau ≤ ({ s with now := 225000 } : State).now ∧ s.bestQueue 0 = none ∧ (5, 0) ∉ s.foreign ∧ (5, 0) ∈ ({ s with foreign := [(5, 0)] } : State).foreign ∧
     s.hasWork 5 { rbase := 0x2000, rlog := 4, qprio := 0, qdie := 0, en := true, widx := 1, ridx := 0 } = true) ∧
    (let s := { putMem (putMem (bound0 onHub) 192 qEnt) 169 [1] with qwait := [(6, some 0)], widx := [(5, 1), (6, 1)] }; s.bestQueue 0 = some (6, 0) ∧ (queueEnt 5 s).map (·.qprio) = some 1) ∧
    (let s := { putMem (bound0 onHub) 192 qEnt with qwait := [(6, some 0)], widx := [(5, 1), (6, 1)] }; s.bestQueue 0 = some (6, 0)) := by decide +kernel

/-- A graph of one node at 0x4000: its header and the node. -/
def graph1 : List Byte := leBytes 4 0x48505247 ++ leBytes 2 1 ++ leBytes 58 0 ++ [5#8] ++ leBytes 63 0

theorem met_QueuesAndInstances_instance : onHub.inst? 7 = none ∧ (inst0 []).born = true ∧
    (let g := { inst0 [] with born := false, started := false, cbase := 0 }
     let s := putMem { onHub with insts := [g] } 0x4000 graph1
     s.inst? 7 = some g ∧ (runsTo (readGraph 5 0x4000) s fun r s1 => s1.inst? 7 == some g && match r with | .ok l => l.length == 1 && l.all fun x => decide (x.init < 65536) | .error _ => false) ∧
       (s.freeBases 0 1).length = 4096 ∧ g.done = 0 ∧
       runsTo (readGraph 5 0x4000) { onHub with insts := [g] } (fun r _ => match r with | .ok _ => false | .error x => !x.2)) ∧
    (let g := { inst0 [node0] with started := false }; g.born = true ∧ g.started = false ∧ g.start = 0) := by decide +kernel

theorem met_freeBases_none : ({ onHub with depUsed := [] } : State).freeBases 0 0 ≠ [] := by decide +kernel

def rdy (k : Nat) : NodeSt := { node0 with kind := k, phase := .ready, nsuc := [1], p0 := 0x6000, p1 := 1 + 1 * 65536 }
def wtg : NodeSt := { node0 with phase := .waiting, init := 2 }
def inGraph (k v : Nat) (l : List NodeSt) : State := { putMem (withInst onHub (rdy k :: l)) 0x6000 (leBytes 8 v) with depCnt := [(9, 2#16)] }
def readyB (s : State) (k : Nat) : Bool := match s.inst? 7 with
  | some g => g.live && g.nodes[0]? == some (rdy k) && (rdy k).phase == .ready && (rdy k).kind == k
  | none => false

/-- A ZERO transform job, or what of it is needed: a job of an operation the spec does not name. -/
def jobBad : List Byte := [9#8] ++ leBytes 63 0

theorem met_GraphNodes : onHub.inst? 7 = none ∧ (inGraph 5 0 [wtg]).inst? 7 = some (inst0 [rdy 5, wtg]) ∧ (∀ k ∈ [3, 4, 5, 6], readyB (inGraph k 0 [wtg]) k = true) ∧
    (∀ v ∈ [0, 1], runsTo (hubTryVa 5 0x6000 8) (inGraph 3 v [wtg]) (fun l s1 => l == some (leBytes 8 v) && s1.inst? 7 == some (inst0 [rdy 3, wtg]))) ∧
    runsTo (hubTryVa 5 0x6000 8) { inGraph 3 0 [wtg] with ctrlDown := allDown } (fun l s1 => l == none && s1.inst? 7 == some (inst0 [rdy 3, wtg])) ∧
    (let g := inst0 [rdy 3, wtg]; g.nodes[1]? = some wtg ∧ wtg.phase = .waiting ∧ [g.ctrOf 1].count (g.ctrOf 1) < (inGraph 3 0 [wtg]).ctr (g.ctrOf 1)) ∧
    (0 < (rdy 4).p1 % 65536 ∧ (rdy 4).p1 % 65536 ≤ (rdy 4).p1 / 65536 % 65536 ∧ (rdy 4).p1 / 65536 % 65536 < [rdy 4, wtg].length ∧ wtg.init < 65536 ∧ 0 < wtg.init) ∧
    (let s := putMem (withInst onHub [rdy 2]) 0x6000 jobBad
     runsTo (hubXlate 5 .load 0x6000) s (fun ph s1 => s1.isDram ph.pa && ph.pa % 64 == 0 && runsTo (hubRead 5 ph.pa 64) s1 fun raw s2 => raw == some jobBad && (Job.of jobBad).bad jobBad && runsTo ((Job.of jobBad).run 5 jobBad) s2 fun r s3 =>
       r.1 == 1 && runsTo (writeRun (hubReq 5) (ph.pa + 56) (leBytes 1 r.1 ++ leBytes 1 r.2.1 ++ leBytes 2 0 ++ leBytes 4 r.2.2)) s3 fun _ s4 => s4.inst? 7 == some (inst0 [rdy 2]))) ∧
    (let j := { Job.of jobBad with op := 3, len := 4, stype := 0x0A, src := 0x6000, dst := 0x7000 }; j.op = 3 ∧ runsTo (j.read 5 0x6000 8) onHub (fun _ _ => true)) ∧ 0 < 288 ∧ core0.task = none ∧
    (let s := (onCore (taskOf { task0 with pend := some 0 } core0)).setReg 0x030001500010 (BitVec.ofNat 64 (2 ^ 32)); s.now < 0 + s.grace ∧ 0 + s.grace ≤ ({ s with now := 2 ^ 24 } : State).now ∧ (s.core 0).suspended = false ∧ s.abortsInstead 0 = false) ∧
    (onCore (taskOf { task0 with pend := some 0, susp := false } core0)).abortsInstead 0 = true := by decide +kernel

def taskN (ph : NodePhase) : NodeSt := { node0 with phase := ph, flags := 1, p1 := 0x3000, imgoff := 0x100 }
def dispatchable (x : NodeSt) : State := { bound0 onHub with cores := [(0, { coreD with hart := { core0.hart with run := .idle } })], insts := [{ inst0 [x] with queue := 5 }] }

theorem met_TaskDispatch : onHub.nextCand 0 = none ∧
    (let s := dispatchable (taskN .ready)
     s.nextCand 0 = some { g := { inst0 [taskN .ready] with queue := 5 }, i := 0, x := taskN .ready } ∧ s.says 0 (taskN .ready) = .go ∧ (coresOf 0).find? s.idleCore = some 0 ∧
     (runsTo (hubTryVa 5 0x3000 64) s fun a s1 => a.isSome && runsTo (hubRead 5 (0x4000 + 0x100) 96) s1 fun img s2 => img.any (fun l => Eng.all.all fun e => fieldOf l (16 * e.num + 8) 4 == 0) && runsTo (spWrite (.hub 5) 0 0 (a.getD [])) s2 fun _ _ => true) ∧
     runsTo (hubTryVa 5 0x3000 64) { s with ctrlDown := allDown } (fun a s1 => a == none && (s1.inst? 7).any fun g => g.nodes.length == 1)) ∧
    (dispatchable (taskN .suspended)).nextCand 0 = some { g := { inst0 [taskN .suspended] with queue := 5 }, i := 0, x := taskN .suspended } ∧
    (let x := { taskN .ready with flags := 3, stream := 6 }; (withStr (dispatchable x) (str0 8)).says 0 x = .drop ∧ (withStr (dispatchable x) (str0 3)).says 0 x = .go ∧ ((withStr (dispatchable x) (str0 8)).nextCand 0).isSome = true) ∧
    (coresOf 0).find? ({ dispatchable (taskN .ready) with coreReset := [] } : State).idleCore = none := by decide +kernel

/-- A task of stream 6 of package 5, whose Waypoint is asked. -/
theorem met_TaskDispatch_ask : let x := { taskN .ready with flags := 3, stream := 6, asked := some (65536 * 6 + 6, .ask) }
    let s := dispatchable x
    s.nextCand 0 = some { g := { inst0 [x] with queue := 5 }, i := 0, x := x } ∧ s.says 0 x = .ask ∧ s.streamOf x = some (65536 * 6 + 6) ∧ s.inst? 7 = some { inst0 [x] with queue := 5 } ∧ 65536 ≤ 65536 * 6 + 6 ∧ (coresOf 0).find? s.idleCore = some 0 := by
  decide +kernel

def tag0 (a : Nat) (st : Option Nat) : CTag := { addr := a, ctx := 0, sticky := false, staged := st, pidx := 0, reused := false, lru := 0, dirty := true, dirtyAt := 0 }

theorem homesUp_of {s : State} (h : s.hubTags = [] ∧ s.ccTags = []) : s.homesUp := by
  intro e he
  simp [h.1, h.2] at he

theorem met_HubArray : onHub.rtDrain = false ∧ ({ onHub with rtDrain := true } : State).rtDrain = true ∧ onHub.owed = [] ∧ (0 < 64 ∧ ({ onHub.rtStaged 0 with size := 0 } : RtEnt).rangeBad = true) ∧ onHub.flush = none ∧
    (let f : FlushSt := { mode := 1, a := 0, b := 15, res := 3, count := 0 }; ({ onHub with flush := some f } : State).flush = some f ∧ f.res < 4 ∧ f.mode = 1 ∧ ({ f with res := 0 } : FlushSt).res = 0) ∧
    onHub.rangeBad 0 128 = false ∧ onHub.rangeBad 64 128 = true ∧ onHub.rangeBad 0 0 = true ∧ (0 ≤ 2 ^ 39 ∧ 2 ^ 39 < 0 + (2 ^ 39 + 128) ∧ onHub.loc (2 ^ 39) = .bad) ∧ onHub.heldW = [] ∧
    (let h : HeldWrite := { cluster := 0, core := 0, pa := 0x40, data := [1#8], at_ := 0, chosen := true }; ∃ w ∈ ({ onHub with heldW := [h] } : State).heldW, decide (0 ≤ w.pa ∧ w.pa < 0 + 128) = true) ∧
    onHub.homesUp ∧ ((0#4 : BitVec 4) < 15#4) ∧ Memory.wf onHub.mem = true ∧
    -- a drain with one dirty line in the hub, one with a clean line, and a way flush with a line left in way 0 and none in way 1
    (let s := fun (g : CTag) => ({ onHub with rtDrain := true, hubTags := [(0, some g)] } : State)
     let f : FlushSt := { mode := 1, a := 0, b := 1, res := 0, count := 0 }
     (tag0 32 none).dirty = true ∧ (tag0 32 none).staged = none ∧ (s (tag0 32 none)).isDram (32 * 128) = true ∧ (s (tag0 32 none)).isDram (32 * 128 + 64 * 1) = true ∧ ({ tag0 32 none with dirty := false } : CTag).dirty = false ∧
       (s (tag0 32 none)).owed = [] ∧ f.mode = 1 ∧ f.a ≤ 1 ∧ 1 ≤ f.b ∧ 0 / 8192 % 16 ≠ 1) ∧
    -- HUBSPLIT of context 0: more than 12 ways; ways that overlap those of context 1; a dirty way; a legal write
    (let s := onHub.setReg (0x030000200000 + 8) 0x302#64
     (onHub.splitCheck 0 13).1 = 1 ∧ s.splitCheck 0 0x401 = (2, 0) ∧ ({ onHub with dirtyWays := [(wayPart 5 2, true)] } : State).splitCheck 0 0x502 = (3, 5) ∧ onHub.splitCheck 0 0x502 = (0, 0)) :=
  ⟨rfl, rfl, rfl, by decide +kernel, rfl, by decide +kernel, by decide +kernel, by decide +kernel, by decide +kernel, by decide +kernel, rfl, ⟨_, List.mem_singleton.2 rfl, by decide⟩, homesUp_of ⟨rfl, rfl⟩, by decide, rfl, by decide +kernel, by decide +kernel⟩

/-- Flushes that wait: for a new region table, and for a held write whose line a cache holds. -/
theorem met_HubArray_held : let s : State := { onHub with heldW := [hHeld 0x1000], hubTags := [(5 * 8192, some (tag0 32 none))] }
    s.FlushHeld (fun c => c.ctx == 0) ∧ ({ onHub with rtDrain := true } : State).FlushHeld (fun _ => false) ∧ ¬onHub.FlushHeld (fun _ => true) ∧ (tag0 32 none).staged = none ∧ (hHeld 0x1000).pa / 128 = 32 ∧ 5 * 8192 / 8192 % 16 = 5 ∧
    (∀ n, n < 64 → (onHub.rtStaged n).rplen = false ∧ (onHub.rtActive n).rplen = false) :=
  ⟨.inr ⟨_, List.mem_singleton.2 rfl, _, List.mem_append_left _ (List.mem_singleton.2 rfl), _, rfl, rfl, rfl, rfl⟩, .inl rfl, fun h => h.elim (fun e => by cases e) (fun ⟨_, e, _⟩ => by cases e), rfl, rfl, rfl, by decide +kernel⟩

def swapAt (mem : List Byte) : State := { (onHub.setReg 0x030000230010 1#64) with mem := Memory.writeList [] (onHub.key 0) mem }
/-- A job at 0 that moves the page of the PTEs at 0x80 to 0x20000, CACHED. -/
def job0 : List Byte := leBytes 8 0x80 ++ leBytes 8 0x20000 ++ leBytes 16 0 ++ leBytes 96 0
def ptes0 : List Byte := (List.range 16).flatMap fun _ => leBytes 8 (2 ^ 63 + (0x10 + 8) * 2 ^ 10 + 0xCF)
def sj0 : SwapSt := { desc := 0, src := 0x10000, dst := 0x20000, home := 0, ctx := 0, ptepa := 0x80, res := 0, lines := 512, data := [7#8], held := [] }
def sc1 (t : Nat) : Table ScTimes := [(3, { wts := t, rts := 0, epoch := 0 })]

def held0 : HeldWrite := { cluster := 0, core := 0, pa := 0x40, data := [1#8], at_ := 0, chosen := true }
def post0 : Posted := { core := 0, pa := 0x1000, va := 0x1000, scope := .die }
def posted2 : State := { putMem onHub 0x1000 (leBytes 8 0x10001) with posted := [post0, post0] }

theorem met_HubEvents : posted2.PlainHome (posted2.recCtx 0).1 0x1000 8 ∧ (∃ o ∈ posted2.posted.take 1, o.core = post0.core) ∧ onHub.fld 0x030000230010 0 0 = 0 ∧ (swapAt job0).swap = none ∧ (swapAt job0).fld 0x030000230010 0 0 = 1 ∧
    -- a job whose PTEs are no leaves of one page; a good one, of whose 512 reads the last four are done here; one with a line that cannot be read, under a full log
    (runsTo (hubRead 0 0 32) (swapAt job0) fun d s1 => d == some (job0.take 32) && runsTo (hubRead 0 0x80 128) s1 fun p s2 => p.any (fun l => (List.range 16).all fun i => !pteNapot (fieldOf l (8 * i) 8)) &&
       runsTo (write64 (hubReq 0) 24 1) s2 fun _ _ => true) ∧
    (runsTo (hubRead 0 0 32) (swapAt (job0 ++ ptes0)) fun d s1 => d.any (fun l => fieldOf l 0 8 == 0x80 && fieldOf l 8 8 == 0x20000 && fieldOf l 16 8 == 0) && runsTo (hubRead 0 0x80 128) s1 fun p s2 =>
       p.any (fun l => (List.range 16).all fun i => pteNapot (fieldOf l (8 * i) 8) && fieldOf l (8 * i) 8 / 1024 % 2 ^ 44 == fieldOf l 0 8 / 1024 % 2 ^ 44 && fieldOf l 0 8 / 2 ^ 14 % 2 ^ 40 * 65536 == 0x10000) && s2.homeLegal 0 0x20000 &&
       s2.loc 0x20000 != .bad && s2.homes == [] && runsTo (swapLines (fun i => do let _ ← readRun (hubReq 0) (0x10000 + 128 * i) 128) 4 508) s2 fun r _ => r == (512, none)) ∧
    (let s : State := { (swapAt (job0 ++ ptes0)).setReg 0x030001720608 1#64 with lines := [(onHub.key 0x10080 / 64, { LineMeta.good with poison := true })] }
     runsTo (swapLines (fun i => do let _ ← readRun (hubReq 0) (0x10000 + 128 * i) 128) 512 0) s fun r s3 => r == (1, some 6) && runsTo (write64 (hubReq 0) 24 (4 + 1 * 2 ^ 32)) s3 fun _ _ => true) ∧
    (let s : State := { swapAt (job0 ++ ptes0) with swap := some sj0 }
     s.swap = some sj0 ∧ sj0.held = [] ∧ (runsTo (swapLines (fun i => writeRun (hubReq 0) (sj0.dst + 128 * i) ((sj0.data.drop (128 * i)).take 128)) 512 0) s fun r s1 => r == (512, none) && runsTo (readRun (hubReq 0) sj0.ptepa 128) s1 fun ptes s2 =>
       runsTo (writeRun (hubReq 0) sj0.ptepa ((List.range 16).flatMap fun i => leBytes 8 (setBits (setBits (fieldOf ptes (8 * i) 8) 53 10 (sj0.dst / 4096 + 8)) 9 8 sj0.home))) s2 fun _ s3 =>
         runsTo (write64 (hubReq 0) (sj0.desc + 24) (sj0.lines * 2 ^ 32)) (((({ s3 with swap := none } : State).dropEverywhere fun e => decide (e.pbase < sj0.src + 65536 ∧ sj0.src < e.pbase + e.size)).movePage sj0.src sj0.dst).takeWrites (.hub sj0.ctx)) fun _ _ => true) ∧
       s.cores = [] ∧ s.heldW = []) ∧
    -- what the commit waits for, a held write to a page that is being moved, and a posted arrival there
    (let e : SqEntry := { pa := 0x1FFF8, data := leBytes 8 7, uncached := false }
     (e.pa / 65536 = sj0.src / 65536 ∧ ({ core0 with sq := [e] } : Core).sq = [e]) ∧ ({ held0 with pa := 0x10040 } : HeldWrite).pa / 65536 = sj0.src / 65536 ∧ ({ onHub with swap := some sj0 } : State).norm 0x10040 / 65536 = sj0.src / 65536) ∧
    onHub.layerDown 3 = false ∧ ({ onHub with layerOff := [(3, true)] } : State).layerDown 3 = true ∧ onHub.hubTags = [] ∧ onHub.ccTags = [] ∧ Memory.wf onHub.mem = true ∧ Table.get none onHub.layerTrip 3 = none ∧
    (let s : State := { onHub with layerTrip := [(3, some 1)] }; Table.get none s.layerTrip 3 = some 1 ∧ s.datum9 < 1 + 450000 ∧ 1 + 450000 ≤ ({ s with datum9 := 450001 } : State).datum9) ∧
    (71 < (72 * 2 ^ 32) / 2 ^ 32 % 128 ∧ (71 * 2 ^ 32) / 2 ^ 32 % 128 ≤ 71) ∧ onHub.owed = [] ∧ onHub.heldW = [] ∧
    (let s := ({ onHub with heldW := [held0] } : State).setReg 0x030001710000 100#64
     s.heldW = [held0] ∧ s.fld 0x030001710000 31 0 = 100 ∧ s.now < held0.at_ + 100 ∧ held0.at_ + 100 ≤ ({ s with now := 100 } : State).now ∧ s.norm held0.pa = held0.pa ∧ (s.rtFind held0.pa).all (fun e => !e.rplen) = true ∧ s.lines = [] ∧
       (onHub.fld 0x030001710000 31 0 ≠ 0xFFFFFFFF)) ∧
    (∀ e ∈ sc1 (2 ^ 47 - 1), e.2.wts < 2 ^ 47 ∧ e.2.rts < 2 ^ 47) ∧ (2 ^ 47 ≤ ({ core0 with clk := 2 ^ 47 } : Core).clk ∧ core0.clk < 2 ^ 47) ∧ (∀ e ∈ sc1 5, e.2.epoch ≠ (onHub.epoch + 1) % 2 ^ 32) ∧ onHub.posted[0]? = none ∧
    posted2.posted[1]? = some post0 ∧ posted2.posted[0]? = some post0 ∧ posted2.posted.take 0 = [] ∧ post0.pa % 8 = 0 ∧ arriveRule (posted2.num 0x1000 8) = some (0, 0x100010001) ∧ arriveRule 0 = none ∧ core0.fq.length < 16 ∧ core0.fqHeld = [] ∧
    ({ onHub with stale := [{ die := 3, line := 5, data := [] }] } : State).stale[0]? = some { die := 3, line := 5, data := [] } :=
  ⟨plainHome_of (by decide +kernel), ⟨_, List.mem_singleton.2 rfl, rfl⟩, by decide +kernel⟩

/-- A held write to a page that moves, its time come; and the release that a posted arrival reads. -/
theorem met_HubEvents_held : let s : State := { onHub with heldW := [{ hHeld 0x10040 with chosen := false }], swap := some (sw0 []) }
    s.heldW = [{ hHeld 0x10040 with chosen := false }] ∧ s.owed = [] ∧ s.swap = some (sw0 []) ∧ s.norm 0x10040 / 65536 = (sw0 []).src / 65536 ∧
    (let c : RelCover := { core := 0, scope := .die, word := 0x200, lines := [3] }; ({ posted2 with relCov := [c] } : State).readsRelease none 0x1000 c = true) := by decide +kernel

def fwAt (len crc : Nat) : State := (onHub.setReg 0x030001800008 (BitVec.ofNat 64 len)).setReg 0x030001800010 (BitVec.ofNat 64 crc)

theorem met_ResetsAndHomes : let ctl := 0x030001800018
    let image := readRun { who := .hub 0, cached := false } 0 64
    let sum := crc32c (List.replicate 64 0)
    (onHub.setFld ctl 10 8 1).fld ctl 10 8 = 1 ∧ onHub.fld ctl 10 8 ≠ 1 ∧ (fwAt 0 0).fld 0x030001800008 26 0 = 0 ∧ (fwAt 32 0).fld 0x030001800008 26 0 % 64 ≠ 0 ∧ (fwAt (2 ^ 26 + 64) 0).fld 0x030001800008 26 0 > 2 ^ 26 ∧ (fwAt (2 ^ 26) 0).fld 0x030001800008 26 0 = 2 ^ 26 ∧
    runsTo image (fwAt 64 0) (fun x _ => crc32c x != (fwAt 64 0).fld 0x030001800010 31 0) ∧ runsTo image (fwAt 64 sum) (fun x _ => crc32c x == (fwAt 64 sum).fld 0x030001800010 31 0) ∧
    stopsBy image { fwAt 64 0 with ctrlDown := allDown } (fun e => match e with | .flt _ => true | _ => false) ∧ (fwAt 64 0).fld ctl 10 8 ≠ 1 ∧
    State.reset.inReset 11 = true ∧ onHub.inReset 0 = false ∧ (match onHub.loc 0x1000 with | .dram _ _ => true | _ => false) = true ∧ onHub.fencedAt (onHub.norm 0x1000) = false ∧ onHub.loc (2 ^ 50) = .host ∧ 64 ∉ onHub.flr ∧
    (onHub.flr = [] ∧ onHub.insts = [] ∧ onHub.qslots = [] ∧ onHub.qwait = [] ∧ onHub.widx = [] ∧ onHub.streams = [] ∧ onHub.cores = [] ∧ onHub.rtDrain = false) ∧ 0 < 64 ∧ onHub.ctxFn 5 ≠ 64 ∧ core0.mustEnd = false ∧ core0.sq = [] := by
  decide +kernel

theorem met_ResetsAndHomes_more : ((onCore core0).cores.map (·.1)).Nodup ∧ (64 ∉ onHub.flrLast ∧ onHub.owed = [] ∧ onHub.swap = none ∧ ∀ n, n < 64 → onHub.fld (0x030001840000 + 32 * n) 7 7 ≠ 1) ∧
    (∀ h ∈ (sw0 [wHeld (some 0)]).held, h.core ≠ none) := by decide +kernel

/-- The CXL.mem window open on the first 2 GiB. -/
def open1 : State := onHub.setReg 0x030001800000 (BitVec.ofNat 64 (2 * 2 ^ 32 + 1))

theorem met_HostAccesses : let s := open1
    let look := readRun { who := .host, cached := false, cls := 3 } 0x1000 64
    let fails := fun (m : M (List Byte)) (s : State) => stopsBy m s fun e => match e with | .flt _ => true | _ => false
    let served := fun (off len : Nat) => decide (s.fld 0x030001800000 0 0 = 1 ∧ off + len ≤ s.fld 0x030001800000 41 32 * 2 ^ 30)
    s.PlainHome 0 0x1000 64 ∧ served (2 ^ 31 - 64) 64 = true ∧ served (2 ^ 31) 1 = false ∧ s.fld 0x030001800000 16 8 = 0 ∧ runsTo (readRun { who := .host, cls := 3 } 0x1000 64) s (fun _ _ => true) ∧ fails (readRun { who := .host, cls := 3 } 0x1000 64) { s with ctrlDown := allDown } ∧
    runsTo look s (fun _ _ => true) ∧ fails look { s with ctrlDown := allDown } ∧ runsTo (mmioRead .host 0x030001800000) s (fun _ _ => true) ∧ runsTo (mmioWrite .host 0x030000220000 5) s (fun _ _ => true) ∧
    (onHub.setFld 0x030001800018 10 8 1).fld 0x030001800018 10 8 = 1 ∧ s.fld 0x030001800018 10 8 ≠ 1 ∧ (2 ^ 42 + 64 * 4096 - 2 ^ 42) / 4096 = 64 ∧ (2 ^ 42 + 65 * 4096 - 2 ^ 42) / 4096 = 65 ∧
    (s.setReg (0x030001830000 + 8 * 64) 1#64).fld (0x030001830000 + 8 * 64) 0 0 = 1 :=
  ⟨plainHome_of (by decide +kernel), by decide +kernel⟩

def link0 (fails : Nat) : State := { putMem onHub 0x1000 (leBytes 8 0x10001) with links := [(2, { up := true, fails := fails, pkg := 5, seq := 9 })] }
/-- A collective of two packages with its list at 0x2000, its barrier word at 0x2040 and its status word at 0x2080, one of them package 5. -/
def coll0 : State :=
  (((putMem onHub 0x2000 [5#8, 0#8, 6#8, 0#8]).setReg 0x030001840000 (BitVec.ofNat 64 (2 * 2 ^ 16 + 2 ^ 7))).setReg 0x030001840008 0x2040#64 |>.setReg 0x030001840010 0x2080#64).setReg 0x030001840018 0x2000#64
/-- A port with one descriptor in each ring, owned by the device or not. -/
def port0 (own : Byte) : State := { putMem onHub 0x3000 (leBytes 8 0x4000 ++ leBytes 2 16 ++ [own] ++ leBytes 5 0) with eth := [(1, { EthPort.reset with txBase := 0x3000, txSize := 1, rxBase := 0x3000, rxSize := 1 })] }

/-- The check of a flit run on from a value, and over 30 bytes of zeros. -/
def crcOn (c : Nat) (l : List Byte) : Nat := l.foldl (fun c b => crc64Bits 8 (c ^^^ (b.toNat * 2 ^ 56))) c
def z30 : List Byte := List.replicate 30 0

theorem crcOn_step {c c' : Nat} (h : crcOn c z30 = c') (l : List Byte) : crcOn c (z30 ++ l) = crcOn c' l := by
  rw [← h]
  exact List.foldl_append

theorem crcOn_cons (c : Nat) (b : Byte) (l : List Byte) : crcOn c (b :: l) = crcOn (crc64Bits 8 (c ^^^ (b.toNat * 2 ^ 56))) l := List.foldl_cons ..

theorem crc_zero : crc64Bits 8 (0 ^^^ ((0#8 : Byte).toNat * 2 ^ 56)) = 0 := by decide +kernel

theorem crcOn_zeros (n : Nat) : crcOn 0 (List.replicate n 0#8) = 0 := by
  induction n with
  | zero => rfl
  | succ k h => rw [List.replicate_succ, crcOn_cons, crc_zero, h]

/-- A flit of zeros, of class 0; and one from package 5 to package 0, of class 2, with sequence number 9: bodies and checks. -/
def flitZ : List Byte := List.replicate 248 0 ++ leBytes 8 (0#64 : W64).toNat
def flit9 : List Byte := (leBytes 8 (5 * 2 ^ 16 + 2 * 2 ^ 32 + 9 * 2 ^ 40) ++ (z30 ++ (z30 ++ (z30 ++ (z30 ++ (z30 ++ (z30 ++ (z30 ++ z30)))))))) ++ leBytes 8 (0x41931584f8821bd3#64 : W64).toNat

theorem flitZ_whole : flitZ.length = 256 ∧ crc64 (flitZ.take 248) = leNat (flitZ.drop 248) := by
  refine ⟨by decide +kernel, ?_⟩
  rw [show flitZ.take 248 = List.replicate 248 0#8 by decide +kernel, show leNat (flitZ.drop 248) = 0 by decide +kernel]
  exact crcOn_zeros 248

theorem flit9_whole : flit9.length = 256 ∧ crc64 (flit9.take 248) = leNat (flit9.drop 248) := by
  refine ⟨by decide +kernel, ?_⟩
  rw [show flit9.take 248 = leBytes 8 (5 * 2 ^ 16 + 2 * 2 ^ 32 + 9 * 2 ^ 40) ++ (z30 ++ (z30 ++ (z30 ++ (z30 ++ (z30 ++ (z30 ++ (z30 ++ z30))))))) by decide +kernel,
    show leNat (flit9.drop 248) = 0x41931584f8821bd3 by decide +kernel]
  show crcOn 0 _ = _
  rw [show ∀ l, crcOn 0 (leBytes 8 (5 * 2 ^ 16 + 2 * 2 ^ 32 + 9 * 2 ^ 40) ++ l) = crcOn 0x1499a95035326238 l from fun l => List.foldl_append.trans (congrArg (crcOn · l) (by decide +kernel)),
    crcOn_step (c := 0x1499a95035326238) (c' := 0x9c9f25bac32dd06a) (by decide +kernel),
    crcOn_step (c := 0x9c9f25bac32dd06a) (c' := 0xaf2c6e4b9efc1557) (by decide +kernel),
    crcOn_step (c := 0xaf2c6e4b9efc1557) (c' := 0x73a9dab315e5d5d3) (by decide +kernel),
    crcOn_step (c := 0x73a9dab315e5d5d3) (c' := 0x64409af1bb851053) (by decide +kernel),
    crcOn_step (c := 0x64409af1bb851053) (c' := 0xcbcdb229d16efe82) (by decide +kernel),
    crcOn_step (c := 0xcbcdb229d16efe82) (c' := 0x23e1935723b5d4ba) (by decide +kernel),
    crcOn_step (c := 0x23e1935723b5d4ba) (c' := 0x568233da77a32e5a) (by decide +kernel)]
  decide +kernel

theorem met_FabricAndPorts : (link0 7).PlainHome 0 0x1000 8 ∧ (flitZ.length = 256 ∧ crc64 (flitZ.take 248) = leNat (flitZ.drop 248)) ∧ (flit9.length = 256 ∧ crc64 (flit9.take 248) = leNat (flit9.drop 248)) ∧ flitZ.length ≠ 255 ∧
    (let h := leNat (flit9.take 8); h % 2 ^ 12 = (link0 7).pkgId ∧ h / 2 ^ 40 = ((link0 7).link 2).seq ∧ h / 2 ^ 32 % 4 = 2 ∧ h / 2 ^ 16 % 2 ^ 12 = 5) ∧
    (let h := leNat (flitZ.take 8); let s := (link0 7).setLink 2 { up := true, fails := 0, pkg := 5, seq := 0 }; h / 2 ^ 40 ≠ ((link0 7).link 2).seq ∧ h / 2 ^ 40 = (s.link 2).seq ∧ h / 2 ^ 32 % 4 = 0 ∧ h % 2 ^ 12 = s.pkgId ∧ h % 2 ^ 12 ≠ (s.setReg 0x030001800020 3#64).pkgId) ∧
    [FabMsg.write 0x1000 [1#8], .arrive 0x1000, .abandon, .streamAbandon 6, .streamBlock 6 0 [] []].all (fun m => m.cls == 2) = true ∧ (FabMsg.read 0 0x1000 8).cls = 0 ∧ runsTo (readRun (hubReq 0) 0x1000 8) (link0 7) (fun _ _ => true) ∧
    ({ str0 3 with dpkg := 5 } : Stream).dpkg = 5 ∧ 6 < 65536 ∧ 8 ≤ 8 ∧ 7 < 8 ∧
    (onHub.link 2).up = false ∧ ((link0 8).link 2).fails = 8 ∧ ((link0 7).link 2).up = true ∧ ((link0 7).link 2).fails < 8 ∧ ((link0 7).link 2).seq = 9 ∧
    arriveRule ((link0 7).num 0x1000 8) = some (0, 0x100010001) ∧ (link0 7).owed = [] ∧ (onHub.setFld 0x030001800018 10 8 1).fld 0x030001800018 10 8 = 1 ∧ (List.range 64).all (fun n => onHub.fld (0x030001840000 + 32 * n) 7 7 == 0) = true ∧
    (let s := coll0
     s.fld 0x030001840000 7 7 = 1 ∧ (List.range 63).all (fun m => s.fld (0x030001840000 + 32 * (m + 1)) 7 7 == 0) = true ∧ runsTo (hubRead 0 (s.fld 0x030001840018 51 0) (2 * s.fld 0x030001840000 27 16)) s (fun l _ => l.any fun l => (u16s 2 l).contains 5) ∧
     (runsTo (write64 (hubReq 0) (s.fld 0x030001840010 51 0) (2 + 5 % 4096 * 65536)) s fun _ s1 => s1.mmio == s.mmio && s1.owed == [] && runsTo (read64 (hubReq 0) (s.fld 0x030001840008 51 0)) (s1.takeWrites (.hub 0)) fun w s' =>
       runsTo (write64 (hubReq 0) (s.fld 0x030001840008 51 0) (setBits (setBits w 31 16 (w % 65536)) 32 32 (1 - w / 2 ^ 32 % 2))) s' fun _ s2 => s2.mmio == s.mmio)) ∧
    (onHub.port 1).txSize = 0 ∧ (onHub.port 1).rxSize = 0 ∧ 0 < ((port0 1).port 1).txSize ∧ runsTo (readRun (hubReq 0) 0x3000 16) (port0 0) (fun d _ => fieldOf d 10 1 % 2 == 0) ∧
    (runsTo (readRun (hubReq 0) 0x3000 16) (port0 1) fun d s1 => fieldOf d 10 1 % 2 == 1 && runsTo (readRun (hubReq 0) (fieldOf d 0 8) (fieldOf d 8 2)) s1 fun _ s2 => runsTo (writeRun (hubReq 0) 0x300A [0#8]) s2 fun _ s3 => s3.eth == (port0 1).eth) ∧
    (runsTo (readRun (hubReq 0) 0x3000 16) (port0 1) fun _ s1 => runsTo (writeRun (hubReq 0) 0x4000 [7#8]) s1 fun _ s2 => runsTo (writeRun (hubReq 0) 0x3008 (leBytes 2 1 ++ [0#8])) (s2.takeWrites (.hub 0)) fun _ s3 => s3.eth == (port0 1).eth) ∧
    onHub.locked = false ∧ ({ onHub with locked := true } : State).locked = true ∧ onHub.datum9 ≤ 9 * 0 ∧ 9 * 0 < ({ onHub with datum9 := 1 } : State).datum9 :=
  ⟨plainHome_of (by decide +kernel), flitZ_whole, flit9_whole, by decide +kernel⟩

/-- More messages than a flit has slots for; an atomic of a peer; a read that fails; an abandon during a drain; a collective whose writes are performed; frames of 0 and of more than 9,216 bytes. -/
theorem met_FabricAndPorts_more : let fit := fun (l : List FabMsg) => decide ((l.filter fun m => m.bytes != []).length ≤ 3 ∧ (l.filter fun m => m.bytes == []).length ≤ 2)
    (fit (List.replicate 3 (.write 0x1000 [1#8]) ++ List.replicate 2 (.arrive 0x1000)) && !fit (List.replicate 4 (.write 0x1000 [1#8])) && !fit (List.replicate 3 (.arrive 0x1000))) = true ∧
    (let r := Rmw.scoped .add 5 0; 0x1000 % r.len = 0 ∧ (rmwNew r ((link0 7).num 0x1000 r.len)).isSome = true) ∧ (FabMsg.rmw 1 0x1000 (.scoped .add 5 0)).cls = 0 ∧
    stopsBy (readRun { hubReq 0 with point := some 9 } 0x1000 8) { link0 7 with ctrlDown := allDown } (fun | .flt _ => true | _ => false) ∧ 2 ^ 39 < 2 ^ 39 - 7 + 8 ∧ 2 ^ 39 - 8 + 8 ≤ 2 ^ 39 ∧
    ({ link0 7 with rtDrain := true } : State).rtDrain = true ∧ coll0.owed = [] ∧ coll0.swap = none ∧ (FabMsg.abandon).cls = 2 ∧
    (let d := leBytes 8 0x4000 ++ leBytes 2 0 ++ [1#8] ++ leBytes 5 0; fieldOf d 8 2 = 0 ∧ 9216 < fieldOf (d.set 9 0xFF#8) 8 2) := by decide +kernel

/-- O-die 3 in replay with a log of two samples at 0x1000. -/
def replay3 (idx : Nat) : State := ((onHub.setReg (0x030002000000 + 0x40000 * 3) (BitVec.ofNat 64 (1 + 2 * 2 ^ 16 + idx * 2 ^ 32))).setReg (0x030002000000 + 0x40000 * 3 + 8) 0x1000#64)

theorem met_OpticalDies : (onCore core0).byHart (.core 0) ∧ (let b := 0x030002000000 + 0x40000 * 3
    let ring := fun (v k : Nat) => v / 2 ^ (4 * k) % 8
    (4 < ring 0x5000 3) ∧ (ring 0x3310 2 = ring 0x3310 3) ∧ (List.range 4).all (fun k => decide (ring 0x3204 k ≤ 4)) = true ∧ [ring 0x3204 0, ring 0x3204 1, ring 0x3204 2, ring 0x3204 3].Nodup ∧
    (replay3 2).fld b 0 0 = 1 ∧ onHub.fld b 0 0 ≠ 1 ∧ (replay3 2).fld b 31 16 ≤ (replay3 2).fld b 47 32 ∧ (replay3 1).fld b 47 32 < (replay3 1).fld b 31 16 ∧
    runsTo (readRun (hubReq 0) ((replay3 1).fld (b + 8) 51 1 * 2 + 2 * (replay3 1).fld b 47 32) 2) (replay3 1) (fun _ _ => true) ∧
    stopsBy (readRun (hubReq 0) ((replay3 1).fld (b + 8) 51 1 * 2 + 2 * (replay3 1).fld b 47 32) 2) { replay3 1 with ctrlDown := allDown } (fun e => match e with | .flt _ => true | _ => false) ∧
    (onHub.setReg (b + 0x20) 1#64).fld (b + 0x20) 0 0 = 1 ∧ onHub.fld (b + 0x20) 0 0 = 0) :=
  ⟨rfl, by decide +kernel⟩

theorem met_Management : ({ State.reset with focus := .hart (.core 287) } : State).byCore 287 ∧ (let m := 0x030001720000
    (12 < 13 ∧ 16 ≤ 19 ∧ 19 < 20 ∧ 13 ≤ 15) ∧ onHub.now % 8 = 0 ∧ ({ onHub with now := 7 } : State).now % 8 ≠ 0 ∧
    (let s := onHub.setReg (m + 0x608) 1#64; (s.logHead + 1) % 256 = s.fld (m + 0x608) 7 0) ∧ ¬(onHub.logHead + 1) % 256 = onHub.fld (m + 0x608) 7 0 ∧ onHub.logHead < 256 ∧
    onHub.timeFired = false ∧ (onHub.reg (m + 0x708)).toNat ≤ onHub.hubDatum ∧ (onHub.reg (m + 0x700)).getLsbD 3 = false ∧ (onHub.setReg (m + 0x700) 0xA#64).reg (m + 0x700) = 0xA#64 ∧ (0xA#64 : W64).getLsbD 1 = true ∧ (0xA#64 : W64).getLsbD 3 = true ∧
    (onHub.setReg (m + 0x710) 1#64).fld (m + 0x710) 0 0 = 1 ∧ onHub.fld (m + 0x710) 0 0 = 0 ∧ onHub.hubDatum < ((onHub.setReg (m + 0x708) 1#64).reg (m + 0x708)).toNat ∧
    onHub.fld (0x030001700008 + 16 * 287) 0 0 = 1 ∧ (onHub.setReg (0x030001700008 + 16 * 287) 0#64).fld (0x030001700008 + 16 * 287) 0 0 = 0) :=
  ⟨rfl, by decide +kernel⟩

/-- HOLD with a value kept; a Survey source in the cycle of the one that fired, and in a later one. -/
theorem met_Management_more : let m := 0x030001720000
    (let s := ({ onHub with sens := [(3, 0x123)] } : State).setReg (m + 0x100 + 8 * 3) (BitVec.ofNat 64 (2 ^ 13)); s.fld (m + 0x100 + 8 * 3) 12 12 ≠ 1 ∧ s.fld (m + 0x100 + 8 * 3) 13 13 = 1 ∧ Table.get 0 s.sens 3 = 0x123) ∧
    (let s := (onHub.setReg (m + 0x710) 0x11#64).setReg (m + 0x700) 0xA#64; s.fld (m + 0x710) 0 0 = 1 ∧ s.svAt = s.now ∧ ({ s with now := 5 } : State).svAt ≠ 5) := by decide +kernel

end Sys2Proof.Tests
end

section
/-! SUPPORT. A register write by a hart (R3, R4, R404): when it passes its checks, and what the rules of single
registers do with the value. -/
namespace Sys2Proof.Machine

/-! ### A hart's register write -/

/-- An address below the remote packages is its own local form (R95). -/
theorem State.norm_of_lt (s : State) {pa : Nat} (h : pa < 2 ^ 51) : s.norm pa = pa :=
  if_neg fun hr => absurd hr.1 (Nat.not_le.mpr h)

theorem State.loc_mmio (s : State) {pa : Nat} (hlo : 0x030000000000 ≤ pa) (hhi : pa < 0x030100000000) : s.loc pa = .mmio pa := by
  have hn : s.norm pa = pa := s.norm_of_lt (by omega)
  simp (disch := omega) only [State.loc, hn, if_neg, if_pos]

theorem needDirect_ok {s : State} {a : Agent} (h : s.agentStages a = false) : Ok (needDirect a) s () s := by
  simp [Ok, needDirect, h]

/-- An aligned doubleword access of MMIO by a hart that may act directly passes the guard. -/
theorem mmioGuard_ok {s : State} {a : Agent} {pa : Nat} (va : Nat) (k : AccKind) (h : s.agentStages a = false)
    (hpa : pa % 8 = 0) : Ok (mmioGuard a pa 8 va k) s () s :=
  (needDirect_ok h).bind (by simp [Ok, hpa])

theorem csrCheck_ok {s : State} {a : Agent} {num : Nat} (hex : csrExists a num = true) (hmode : (s.hart a).csrAllowed num = true)
    (hgate : (s.hart a).csrGate num = true) (hrw : bits num 11 10 ≠ 3) : Ok (csrCheck a num true) s () s := by
  simp [Ok, csrCheck, hex, hmode, hgate, hrw]

/-- A CSR other than `engctl` and `minstret` is written as `csrStore` has it. -/
theorem csrWriteOp_ok (s : State) (a : Agent) {num : Nat} (v : W64) (heng : num ≠ 0x5C3) (hinst : num ≠ 0xB02) :
    Ok (csrWriteOp a num v) s () (s.setHart a ((s.hart a).csrStore a.isCore num v)) := by
  cases a <;> simp [Ok, csrWriteOp, heng, hinst]

theorem registerWriteOp_csr {s t : State} {a : Agent} {num : Nat} {v : W64} (ha : s.byHart a) (hnum : num < 0x1000)
    (hcheck : Ok (csrCheck a num true) s () s) (hwrite : Ok (csrWriteOp a num v) s () t) : Ok (registerWriteOp num v) s () t := by
  have hf : s.focus = .hart a := ha
  rw [Ok, registerWriteOp, M.run_bind_get]
  simp only [hf, if_pos hnum]
  exact hcheck.bind hwrite

theorem registerWriteOp_mmio {s t : State} {a : Agent} {pa : Nat} {v : W64} (ha : s.byHart a) (hlo : 0x030000000000 ≤ pa)
    (hhi : pa < 0x030100000000) (hpa : pa % 8 = 0) (hd : s.agentStages a = false) (hwrite : Ok (mmioWrite (whoOf a) pa v) s () t) :
    Ok (registerWriteOp pa v) s () t := by
  have hf : s.focus = .hart a := ha
  rw [Ok, registerWriteOp, M.run_bind_get]
  simp only [hf, if_neg (show ¬pa < 0x1000 by omega), s.loc_mmio hlo hhi]
  exact (mmioGuard_ok pa .store hd hpa).bind hwrite

theorem exec_registerWrite_csr {s t : State} {a : Agent} {addr : BitVec 52} {v : W64} (ha : s.byHart a)
    (hnum : addr.toNat < 0x1000) (hcheck : Ok (csrCheck a addr.toNat true) s () s) (hwrite : Ok (csrWriteOp a addr.toNat v) s () t) :
    exec (.registerWrite addr v) s = .next t :=
  runEvent_ok (registerWriteOp_csr ha hnum hcheck hwrite)

/-- Of an MMIO register: what the register's rule leaves is the next state (R404). -/
theorem exec_registerWrite_mmio {s t : State} {a : Agent} {addr : BitVec 52} {v : W64} (ha : s.byHart a)
    (hlo : 0x030000000000 ≤ addr.toNat) (hhi : addr.toNat < 0x030100000000) (hpa : addr.toNat % 8 = 0) (hd : s.agentStages a = false)
    (hwrite : Ok (mmioWrite (whoOf a) addr.toNat v) s () t) : exec (.registerWrite addr v) s = .next t :=
  runEvent_ok (registerWriteOp_mmio ha hlo hhi hpa hd hwrite)

/-- Setting one register changes it and no other. -/
theorem State.setReg_frame (s : State) (k : Nat) (x : W64) :
    s.setReg k x = { s with mmio := (s.setReg k x).mmio } ∧ (s.setReg k x).reg k = x ∧ ∀ j, j ≠ k → (s.setReg k x).reg j = s.reg j :=
  ⟨rfl, State.reg_setReg _ _ _, fun _ hj => State.reg_setReg_ne _ _ hj⟩

/-! ### Single registers -/

/-- A register outside the bank registers and the cluster occupancies stands in no die's reset domain. -/
theorem State.blockInReset_elsewhere (s : State) {o : Nat} (h : o < 0x300000 ∨ 0x400000 + 0x1000 * 288 ≤ o) :
    s.blockInReset o = false := by
  simp (disch := omega) only [State.blockInReset, if_neg]

theorem hostPort_below (w : Who) {o : Nat} (h : o < 0x1800000) : hostPort w o = false := by
  simp [hostPort, Nat.not_le.mpr h]

/-- A hub limit register (RW) keeps the bits of its field. -/
theorem mmioWrite_hubLimit (w : Who) (s : State) {c : Nat} (v : W64) (hc : c < 256) :
    Ok (mmioWrite w (0x030000220000 + 8 * c) v) s () (s.setReg (0x030000220000 + 8 * c) (v &&& 0xFFFFFF#64)) := by
  have ho : 0x030000220000 + 8 * c - 0x030000000000 = 0x220000 + 8 * c := by omega
  have hmask : plainMask (0x220000 + 8 * c) = some 0xFFFFFF := by
    simp (disch := omega) only [plainMask, if_neg, if_pos]
  rw [Ok, mmioWrite, M.run_bind_get]
  simp (disch := omega) only [ho, s.blockInReset_elsewhere, hostPort_below, hmask, Bool.false_eq_true, if_false, if_neg]
  rfl

/-- CTXEV (W1C, R350): the bits at which the value is 1 are cleared. -/
theorem mmioWrite_ctxEv (w : Who) (s : State) {c : Nat} (v : W64) (hc : c < 256) :
    Ok (mmioWrite w (0x030001601000 + 8 * c) v) s ()
      (s.setReg (0x030001601000 + 8 * c) (s.reg (0x030001601000 + 8 * c) &&& ~~~(v &&& 0xF#64))) := by
  have ho : 0x030001601000 + 8 * c - 0x030000000000 = 0x1601000 + 8 * c := by omega
  rw [Ok, mmioWrite, M.run_bind_get]
  simp (disch := omega) only [ho, s.blockInReset_elsewhere, hostPort_below, Bool.false_eq_true, if_false, if_neg, if_pos]
  rfl

/-- TLBST (RO, R359) takes no write. -/
theorem mmioWrite_tlbStat (w : Who) (s : State) (v : W64) : Ok (mmioWrite w tlbStat v) s () s := by
  have ho : tlbStat - 0x030000000000 = 0x1600010 := rfl
  have hmask : plainMask 0x1600010 = none := rfl
  rw [Ok, mmioWrite, M.run_bind_get]
  simp (disch := omega) only [ho, s.blockInReset_elsewhere, hostPort_below, hmask, Bool.false_eq_true, if_false, if_neg]
  rfl

/-! ### TLBCTL (R359) -/

/-- A fold of steps that leave the MMIO registers alone leaves them alone. -/
theorem mmio_foldl {β : Type} (l : List β) (g : State → β → State) (h : ∀ s b, (g s b).mmio = s.mmio) (s : State) :
    (l.foldl g s).mmio = s.mmio :=
  List.foldlRecOn (motive := fun t => t.mmio = s.mmio) l g rfl fun t ht b _ => (h t b).trans ht

theorem State.dropFrom_mmio (s : State) (t : TlbAt) (p : TlbEntry → Bool) : (s.dropFrom t p).mmio = s.mmio := by
  refine (mmio_foldl _ State.homeDrop (fun _ _ => rfl) _).trans ?_
  cases t <;> rfl

theorem State.dropFromDie_mmio (s : State) (d : Nat) (p : TlbEntry → Bool) : (s.dropFromDie d p).mmio = s.mmio :=
  mmio_foldl _ State.homeDrop (fun _ _ => rfl) _

theorem State.dropEverywhere_mmio (s : State) (p : TlbEntry → Bool) : (s.dropEverywhere p).mmio = s.mmio := by
  refine (mmio_foldl _ _ (fun t d => t.dropFromDie_mmio d p) _).trans (mmio_foldl _ _ (fun t e => ?_) s)
  rw [State.dropFrom_mmio, State.dropFrom_mmio]

theorem State.dropEverywhere_reg (s : State) (p : TlbEntry → Bool) (a : Nat) : (s.dropEverywhere p).reg a = s.reg a := by
  rw [State.reg, State.dropEverywhere_mmio, State.reg]

@[simp] theorem State.reg_withTlbInv (s : State) (i : Option TlbInv) (a : Nat) : ({ s with tlbInv := i } : State).reg a = s.reg a :=
  rfl

/-- An invalidation, begun or refused with RES 1, runs to its end and writes no register but TLBST. -/
theorem tlbInvalOp_ok (i : TlbInv) (s : State) :
    ∃ t, Ok (tlbInvalOp i) s () t ∧ ∀ a, a ≠ tlbStat → t.reg a = s.reg a := by
  rw [tlbInvalOp]
  simp only [Ok, M.run_bind_get]
  split
  next h => exact ⟨_, M.run_modify _ _, fun a ha => State.reg_setReg_ne _ _ ha⟩
  next h =>
    exact ⟨_, M.run_modify _ _, fun a ha => by
      simp only [State.reg_withTlbInv, State.reg_setReg_ne _ _ ha, State.dropEverywhere_reg]⟩

/-- A write of TLBCTL keeps its RW fields before GO acts. -/
theorem mmioGo_tlbCtl (s : State) (v : W64) :
    ∃ t, Ok (mmioGo 0x030001600008 v) s () t ∧ t.reg 0x030001600008 = v &&& 0xFFFFFF0006#64 := by
  have ho : 0x030001600008 - 0x030000000000 = 0x1600008 := rfl
  simp (disch := omega) only [Ok, mmioGo, M.run_bind_get, ho, if_neg, if_true, M.run_bind_modify]
  split
  next hgo =>
    exact (tlbInvalOp_ok _ _).imp fun t ⟨hrun, hreg⟩ => ⟨hrun, (hreg _ (by decide)).trans (State.reg_setReg _ _ _)⟩
  next hgo => exact ⟨_, M.run_pure _ _, State.reg_setReg _ _ _⟩

/-- TLBCTL keeps its RW fields and reads 0 in GO (WO), whatever a GO comes to. -/
theorem mmioWrite_tlbCtl (w : Who) (s : State) (v : W64) :
    ∃ t, Ok (mmioWrite w 0x030001600008 v) s () t ∧ t.reg 0x030001600008 = v &&& 0xFFFFFF0006#64 := by
  have ho : 0x030001600008 - 0x030000000000 = 0x1600008 := rfl
  have hrun : (mmioWrite w 0x030001600008 v).run s = (mmioGo 0x030001600008 v).run s := by
    rw [mmioWrite, M.run_bind_get]
    simp (disch := omega) only [ho, s.blockInReset_elsewhere, hostPort_below, Bool.false_eq_true, if_false, if_neg, or_true,
      if_true]
  obtain ⟨t, hgo, hreg⟩ := mmioGo_tlbCtl s v
  exact ⟨t, hrun.trans hgo, hreg⟩

/-- Settles O39: a write that passes its checks is performed as `csrStore` or the register's own rule has it. -/
theorem registerWrites : Obligations.RegisterWrites := by
  intro s a addr v ha k
  refine ⟨fun hk heng hinst hex hmode hgate hrw => ?csr, fun hlo hhi hal hd t ht => ?mmio, fun c hc hk hd => ?hubLimit,
    fun c hc hk hd => ?ctxEv, fun hk hd => ?tlbStat, fun hk hd => ?tlbCtl⟩
  case csr => exact exec_registerWrite_csr ha hk (csrCheck_ok hex hmode hgate hrw) (csrWriteOp_ok s a v heng hinst)
  case mmio => exact exec_registerWrite_mmio ha hlo hhi hal hd ht
  case hubLimit =>
    have hw := mmioWrite_hubLimit (whoOf a) s v hc
    rw [← hk] at hw
    exact ⟨_, exec_registerWrite_mmio ha (by omega) (by omega) (by omega) hd hw, s.setReg_frame k _⟩
  case ctxEv =>
    have hw := mmioWrite_ctxEv (whoOf a) s v hc
    rw [← hk] at hw
    exact ⟨_, exec_registerWrite_mmio ha (by omega) (by omega) (by omega) hd hw, s.setReg_frame k _⟩
  case tlbStat =>
    have hw := mmioWrite_tlbStat (whoOf a) s v
    rw [tlbStat, ← hk] at hw
    exact exec_registerWrite_mmio ha (by omega) (by omega) (by omega) hd hw
  case tlbCtl =>
    obtain ⟨t, hw, ht⟩ := mmioWrite_tlbCtl (whoOf a) s v
    rw [← hk] at hw ht
    exact ⟨t, exec_registerWrite_mmio ha (by omega) (by omega) (by omega) hd hw, ht⟩

end Sys2Proof.Machine
end

section
/-! SUPPORT. The check of a launch packet (R336), against O51: the walker's rejection of a packet, a scratchpad write that corrects
a word and reports it (R135, R398), and a state in which that report lands on the package number. -/
namespace Sys2Proof.Machine

/-! ### The mapper and the log leave `instNo` alone -/

theorem State.log_instNo (s : State) (k d pa : Nat) (info : List Nat) : (s.log k d pa info).instNo = s.instNo := by
  rw [State.log, State.logRaw]
  split <;> rfl

theorem fillSlots_instNo (d fuel : Nat) (s : State) : (fillSlots d fuel s).instNo = s.instNo := by
  induction fuel generalizing s with
  | zero => rfl
  | succ k ih =>
    rw [fillSlots]
    split
    · exact ih _
    · rfl

theorem State.idleQueues_instNo (s : State) : s.idleQueues.instNo = s.instNo := rfl

theorem instNo_foldl {β : Type} (l : List β) (g : State → β → State) (h : ∀ s b, (g s b).instNo = s.instNo) (s : State) :
    (l.foldl g s).instNo = s.instNo :=
  List.foldlRecOn (motive := fun t => t.instNo = s.instNo) l g rfl fun t ht b _ => (h t b).trans ht

theorem State.mapDie_instNo (s : State) (d : Nat) : (s.mapDie d).instNo = s.instNo := by
  rw [State.mapDie, fillSlots_instNo, State.idleQueues_instNo]
  refine instNo_foldl _ _ (fun t i => ?_) s
  split
  · split
    · split <;> rfl
    · rfl
  · rfl

/-! ### Taking a packet (R336) -/

/-- Of a packet whose graph lies in this package's DRAM space, the check of that address finds nothing. -/
theorem State.packetBad_of_norm_lt {s : State} {e : QEnt} {p : List Byte} (hn : s.norm (fieldOf p 0 8) < 2 ^ 39) :
    s.packetBad e p = (packetZeroBad p || fieldOf p 10 1 != e.qdie || decide (12 ≤ fieldOf p 10 1) || !e.en || fieldOf p 0 8 % 64 != 0 ||
      fieldOf p 24 8 % 8 != 0) := by
  have hloc : ∀ o, s.loc (fieldOf p 0 8) ≠ .hub o := by
    intro o
    rw [State.loc]
    simp only [if_pos hn]
    split <;> exact Loc.noConfusion
  rw [State.packetBad]
  split
  next o h => exact absurd h (hloc o)
  next => rw [decide_eq_false (Nat.not_le.mpr hn), Bool.or_false]

theorem State.packetStatus_noDone (s : State) {p : List Byte} (status node : Nat) (h : fieldOf p 24 8 = 0) :
    s.packetStatus p status node = s := if_pos h

/-- The walker refuses a packet by its check in the state BEFORE it reads the packet and moves RIDX. -/
theorem exec_packetTake_rejects {s s1 s2 : State} {d i : Nat} {b : QSlot} {e : QEnt} {p : List Byte} (hi : i < 64)
    (hb : Table.get none s.qslots (slotKey d i) = some b) (he : queueEnt b.queue s = some e) (hw : Table.get 0 s.widx b.queue ≠ e.ridx)
    (hn : (s.insts.filter fun g => g.queue == b.queue).length < 8)
    (hr : Ok (hubRead 0 (e.rbase + 64 * (e.ridx % 2 ^ e.rlog)) 64) s (some p) s1)
    (hx : Ok (writeRun (hubReq 0) (s.qEntry b.queue + 20) (leBytes 4 (e.ridx + 1))) s1 () s2)
    (hbad : s.packetBad e p = true) :
    exec (.packetTake d i) s = .next (((({ s2 with foreign := s2.foreign.filter (· != (b.queue, e.ridx)) } : State).packetStatus p 3 0).log
      0x08 d 0 [3, b.queue]).mapDie d) := by
  refine runEvent_ok ?_
  simp only [Ok, packetTakeOp, M.run_bind_get, if_neg (Nat.not_le.mpr hi), hb, he, if_neg hw, if_neg (Nat.not_le.mpr hn),
    hr.bind_run, hx.bind_run, hbad, Bool.true_or, if_true, M.run_bind_modify, M.run_modify]

/-! ### Where a report goes (R398) -/

/-- The first word of an entry stands at the head of the log. -/
theorem State.reg_log {s : State} (k d pa : Nat) (info : List Nat) (hfull : ¬(s.logHead + 1) % 256 = s.fld 0x030001720608 7 0) :
    (s.log k d pa info).reg (0x030001721000 + 32 * s.logHead) =
      BitVec.ofNat 64 (k + d * 256 + (bits (logEncode (k :: info)).toNat 31 0 <<< 32)) := by
  simp only [State.log, State.logRaw, if_neg hfull]
  show State.reg (State.setReg _ _ _) _ = _
  rw [State.reg_setReg_ne _ _ (by omega), State.reg_setReg_ne _ _ (by omega), State.reg_setReg_ne _ _ (by omega), State.reg_setReg]

theorem bits_ofNat_add_shiftLeft {k : Nat} (e : Nat) (hk : k < 2 ^ 12) : bits (BitVec.ofNat 64 (k + (e <<< 32))).toNat 11 0 = k := by
  simp only [bits, BitVec.toNat_ofNat, Nat.shiftLeft_eq, Nat.shiftRight_zero]
  omega

/-- A log head of 0x6F81, past the log's 256 entries, puts an entry on the register of the package number (R364): it becomes
the entry's kind and die. -/
theorem State.pkgId_log {s : State} {k d : Nat} (pa : Nat) (info : List Nat) (hh : s.logHead = 0x6F81)
    (hfull : ¬(0x6F81 + 1) % 256 = s.fld 0x030001720608 7 0) (hk : k + d * 256 < 2 ^ 12) : (s.log k d pa info).pkgId = k + d * 256 := by
  have hreg := s.reg_log k d pa info (by rwa [hh])
  rw [hh] at hreg
  rw [State.pkgId, State.fld, show 0x030001800020 = 0x030001721000 + 32 * 0x6F81 from rfl, hreg]
  exact bits_ofNat_add_shiftLeft _ hk

/-! ### A write of part of a bank line that corrects a word on its way (R133, R135) -/

/-- An operation that answers has run to its end. -/
theorem ok_of_answer {α : Type} {m : M α} {s t : State} {a : α} (ha : m.result s = some a) (ht : m.exec s = t) : Ok m s a t := by
  rcases h : m.run s with ⟨r, u⟩
  rw [M.exec, h] at ht
  rw [M.result, h] at ha
  cases r with
  | ok b => rw [Ok, h, ← ht, Option.some.inj ha]
  | error e => exact absurd ha.symm (Option.some_ne_none a)

theorem forM_ok_same {β : Type} {f : β → M PUnit} {s : State} (l : List β) (h : ∀ b, Ok (f b) s ⟨⟩ s) : Ok (l.forM f) s ⟨⟩ s := by
  induction l with
  | nil => rfl
  | cons b r ih => exact (h b).bind ih

/-- A bank access that corrects words, and meets none that it cannot, counts and reports them. -/
theorem bankAccess_corrects {s : State} {n g r b k : Nat} (hs : Table.get false (s.core n).stuck (9 * g + (s.core n).physBank g b) = false)
    (he : (s.core n).eccWords (bankLine n g r ((s.core n).physBank g b)) = (k + 1, 0)) :
    ∃ t : State, t.mmio = s.mmio ∧ t.logHead = s.logHead ∧
      Ok (bankAccess n g r b) s true (t.log 0x01 (dieOf n) 0 [n, g, (s.core n).physBank g b, r, 1, 1]) := by
  refine ⟨s.modCore n fun c => { c with ce := bumpCount c.ce (9 * g + (s.core n).physBank g b) (k + 1) }, rfl, rfl, ?_⟩
  rw [Ok, bankAccess, M.run_bind_get]
  simp only [hs, he, Bool.false_eq_true, if_false, ne_eq, Nat.add_eq_zero_iff, one_ne_zero, and_false, not_false_eq_true, if_true,
    not_true_eq_false, M.run_bind_modify, logM]
  rfl

theorem storeBankLine_ok (n off : Nat) (data : List Byte) (s : State) :
    ∃ t : State, t.mmio = s.mmio ∧ Ok (storeBankLine n off data) s () t := by
  refine ⟨((storeBankLine n off data).run s).2, ?mmio, ?run⟩
  case mmio =>
    simp only [storeBankLine, M.run_bind_modify, M.run_modify]
    rfl
  case run => simp only [Ok, storeBankLine, M.run_bind_modify, M.run_modify]

/-- Part of a bank line of a stale row is merged after one access to its bank, and stored; the parity line is left. -/
theorem writeBankLine_staleRow {s t : State} {n off : Nat} {data : List Byte} {ok : Bool}
    (hm : ((s.core n).group (spGroup n off)).mode = 0) (hl : ((s.core n).group (spGroup n off)).stale.length < 64)
    (hr : ((s.core n).group (spGroup n off)).stale.contains (spRow n off) = true) (hp : Table.get false (s.core n).linePois (off / 128) = false)
    (hh : partHalf off data.length = true) (hb : Ok (bankAccess n (spGroup n off) (spRow n off) (spBank off)) s ok t) :
    ∃ u : State, u.mmio = t.mmio ∧ Ok (writeBankLine n off data) s () u := by
  obtain ⟨u, hu, hst⟩ := storeBankLine_ok n off data t
  have hturn : Ok (groupTurn n (spGroup n off)) s () s := by
    simp [Ok, groupTurn, hm, Nat.not_le.mpr hl]
  have hmerge : Ok (do let _ ← bankAccess n (spGroup n off) (spRow n off) (spBank off); pure ()) s () t := hb.bind rfl
  refine ⟨u, hu, ?_⟩
  rw [Ok, writeBankLine, hturn.bind_run, M.run_bind_get]
  simp only [hp, hr, hh, Bool.false_eq_true, Bool.true_eq_false, and_false, if_false, if_true, hmerge.bind_run, hst.run]

theorem State.breakResv_mmio (s : State) (line : Nat) (c : Option Nat) : (s.breakResv line c).mmio = s.mmio :=
  mmio_foldl _ _ (fun t e => by split <;> rfl) s

/-- A write that lies in one bank line, where no line carries a bad check, is that of the bank line; then reservations break. -/
theorem spWrite_oneLine {s t : State} {w : Who} {n off : Nat} {data : List Byte} (hs : pieces (data.length + 1) 1024 off data = [(off, data)])
    (hb : pieces (data.length + 1) 128 off data = [(off, data)]) (hlen : data.length ≠ 1024) (hl : s.lines = [])
    (hw : Ok (writeBankLine n off data) s () t) : ∃ u : State, u.mmio = t.mmio ∧ Ok (spWrite w n off data) s () u := by
  refine ⟨_, ?mmio, Ok.bind (t := t) (a := ⟨⟩) ?run (M.run_modify _ _)⟩
  case mmio => exact mmio_foldl _ _ (fun _ _ => State.breakResv_mmio _ _ _) t
  case run =>
    rw [hs]
    refine Ok.bind (a := ⟨⟩) ?_ (Ok.pure _ _)
    simp only [hlen, if_false]
    rw [hb]
    refine Ok.bind (a := ⟨⟩) ?_ (Ok.pure _ _)
    rw [Ok, M.run_bind_get]
    refine Ok.bind (forM_ok_same _ fun l => ?_) hw
    simp [Ok, hl, LineMeta.good]

/-- A run that lies in one stripe of a scratchpad is written there, when its home answers. -/
theorem writeRun_oneStripe {s t : State} {q : Req} {pa n off : Nat} {data : List Byte} (hloc : s.loc pa = .sp n off)
    (hs : pieces (data.length + 1) 1024 pa data = [(pa, data)]) (hc : Ok (homeCheck q pa) s () s)
    (hw : Ok (spWrite q.who n off data) s () t) : Ok (writeRun q pa data) s () t := by
  have hseg : Ok (writeSeg q pa data) s () t := by
    rw [Ok, writeSeg, M.run_bind_get, hc.bind_run]
    simp only [hloc, hw.run]
  rw [Ok, writeRun, M.run_bind_get]
  simp only [hloc, hs]
  exact hseg.bind (Ok.pure _ _)

/-! ### The counterexample to O51 -/

/-- A launch packet whose graph lies at 0x4000 of package 1, with nothing else set. -/
def strayPacket : List Byte := leBytes 8 (2 ^ 51 + 2 ^ 39 + 0x4000) ++ List.replicate 56 0

/-- An enabled queue of die 0 with one packet, its ring of 16 in the scratchpad of core 0; and its bytes in the table. -/
def strayEnt : QEnt := { rbase := 0x020000001000, rlog := 4, qprio := 0, qdie := 0, en := true, widx := 1, ridx := 0 }

def strayEntBytes : List Byte := leBytes 8 0x020000001000 ++ [4, 0, 0, 1] ++ leBytes 4 0 ++ leBytes 4 1 ++ leBytes 4 0 ++ leBytes 8 0

/-- Core 0, with a flip of one bit in bank 1 of row 0 of its scratchpad, a row whose parity is stale. -/
def strayCore : Core := { Core.reset with flips := [(16, 1)], groups := [(0, { Group.reset with stale := [0] })] }

/-- The queue table lies in row 0 of the scratchpad of core 0, queue 5 is bound to slot 0 of die 0, and the log's head is out of its
range, such that the next entry falls on the package number. -/
def strayLog : State :=
  { State.reset with
    coreReset := [(0, false)]
    mmio := [(0x030001500000, 0x020000000000)]
    cores := [(0, strayCore)]
    mem := Memory.writeList (Memory.writeList [] 0x0200000000A0 strayEntBytes) 0x020000001000 strayPacket
    qslots := [(0, some { queue := 5, since := 0 })]
    widx := [(5, 1)]
    logHead := 0x6F81 }

theorem strayLog_slot : Table.get none strayLog.qslots (slotKey 0 0) = some { queue := 5, since := 0 } ∧ queueEnt 5 strayLog = some strayEnt ∧
    Table.get 0 strayLog.widx 5 ≠ strayEnt.ridx ∧ (strayLog.insts.filter fun g => g.queue == 5).length < 8 ∧
    (5, strayEnt.ridx) ∉ strayLog.foreign := by decide +kernel

theorem strayLog_read : Ok (hubRead 0 (strayEnt.rbase + 64 * (strayEnt.ridx % 2 ^ strayEnt.rlog)) 64) strayLog (some strayPacket) strayLog :=
  ok_of_answer (by decide +kernel) (by decide +kernel)

/-- The access to the bank of RIDX reports its flip, and this package becomes package 1. -/
theorem strayLog_bankAccess : ∃ t : State, t.pkgId = 1 ∧ Ok (bankAccess 0 0 0 1) strayLog true t := by
  obtain ⟨t, hmmio, hhead, hb⟩ := bankAccess_corrects (s := strayLog) (n := 0) (g := 0) (r := 0) (b := 1) (k := 0)
    (by decide +kernel) (by decide +kernel)
  refine ⟨_, State.pkgId_log _ _ hhead ?_ (by decide), hb⟩
  rw [State.fld, State.reg, hmmio]
  decide +kernel

theorem strayLog_write : ∃ t : State, t.pkgId = 1 ∧
    Ok (writeRun (hubReq 0) (strayLog.qEntry 5 + 20) (leBytes 4 (strayEnt.ridx + 1))) strayLog () t := by
  obtain ⟨t, ht, hb⟩ := strayLog_bankAccess
  obtain ⟨u, hu, hline⟩ := writeBankLine_staleRow (s := strayLog) (n := 0) (off := 180) (data := leBytes 4 (strayEnt.ridx + 1))
    (by decide +kernel) (by decide +kernel) (by decide +kernel) (by decide +kernel) (by decide +kernel) hb
  obtain ⟨v, hv, hsp⟩ := spWrite_oneLine (w := .hub 0) (by decide +kernel) (by decide +kernel) (by decide +kernel) rfl hline
  refine ⟨v, ?_, writeRun_oneStripe (n := 0) (off := 180) (by decide +kernel) (by decide +kernel)
    (ok_of_answer (by decide +kernel) (by decide +kernel)) hsp⟩
  rw [State.pkgId, State.fld, State.reg, hv, hu]
  exact ht

theorem strayPacket_noDone : fieldOf strayPacket 24 8 = 0 := by decide +kernel

/-- To package 0 the packet is malformed: its graph is another package's. -/
theorem strayLog_packetBad : strayLog.packetBad strayEnt strayPacket = true := by decide +kernel

/-- To package 1 the packet is well formed. -/
theorem strayPacket_accepted {s : State} (h : s.pkgId = 1) : s.packetBad strayEnt strayPacket = false := by
  have hn : s.norm (fieldOf strayPacket 0 8) < 2 ^ 39 := by
    rw [State.norm, h]
    decide +kernel
  rw [State.packetBad_of_norm_lt hn]
  decide +kernel

/-- Refutes O51: the statement has a packet judged after its read and the write of RIDX, the model before them, and the
bound 256 of the log's head (R398) is not among its hypotheses. In `strayLog` the write of RIDX corrects a word and reports it (R135), the entry falls on the
package number, and a packet that was malformed becomes well formed: the model refuses it, and the statement wants it launched. -/
theorem not_queuesAndInstances : ¬ Obligations.QueuesAndInstances := by
  intro h
  obtain ⟨-, -, hslots, -⟩ := h
  obtain ⟨s2, hpkg, hx⟩ := strayLog_write
  obtain ⟨hb, he, hw, hn, hforeign⟩ := strayLog_slot
  obtain ⟨-, hslot⟩ := hslots strayLog 0 0 (by decide)
  obtain ⟨-, htake, -⟩ := hslot _ strayEnt hb he
  obtain ⟨haccept, -⟩ := htake strayPacket strayLog s2 hw hn strayLog_read hx
  obtain ⟨t, ht, -, -, hmade, -⟩ := haccept (strayPacket_accepted hpkg) hforeign
  have hrefused := exec_packetTake_rejects (by decide) hb he hw hn strayLog_read hx strayLog_packetBad
  have hnone : t.instNo = s2.instNo := by
    rw [Host.Outcome.next.inj (ht.symm.trans hrefused), State.mapDie_instNo, State.log_instNo,
      State.packetStatus_noDone _ _ _ strayPacket_noDone]
  omega

end Sys2Proof.Machine
end

section
/-! SUPPORT. What a control core's instruction answers where it stops, and steps that change one core alone. -/
namespace Sys2Proof.Machine

/-! ### What a control core's instruction answers -/

theorem runCore_trap {n : Nat} {m : Nat → M (Option W64)} {s t : State} {x : Trap} (h : s.byCore n)
    (hm : (m n).run s = (.error (.trap x), t)) : runCore m s = .next (t.takeTrap (.core n) x) := by
  rw [runCore_at h, runFor_trap hm]

theorem runCore_wait {n : Nat} {m : Nat → M (Option W64)} {s t : State} {k : WaitKind} (h : s.byCore n)
    (hm : (m n).run s = (.error (.wait k), t)) : runCore m s = .next (s.enterWait (.core n) k) := by
  rw [runCore_at h, runFor_wait hm]

@[simp] theorem run_illegal {α : Type} (s : State) : (illegal : M α).run s = (.error (.trap { code := 2 }), s) := rfl

@[simp] theorem run_bind_illegal {α β : Type} (f : α → M β) (s : State) :
    ((illegal : M α) >>= f).run s = (.error (.trap { code := 2 }), s) := M.run_bind_throw _ _ _

@[simp] theorem run_bind_trapM {α β : Type} (code tval cause detail : Nat) (f : α → M β) (s : State) :
    ((trapM code tval cause detail : M α) >>= f).run s =
      (.error (.trap { code := code, tval := tval, cause := cause, detail := detail }), s) := M.run_bind_throw _ _ _

@[simp] theorem run_bind_syncTrap {α β : Type} (cause tval : Nat) (f : α → M β) (s : State) :
    ((syncTrap cause tval : M α) >>= f).run s = (.error (.trap { code := 26, tval := tval, cause := cause }), s) :=
  M.run_bind_throw _ _ _

/-! ### A step that changes one core -/

theorem State.onlyCore_setCore (s : State) (n : Nat) (c : Core) : s.OnlyCore (s.setCore n c) n c :=
  ⟨rfl, State.core_setCore s n c, fun _ hm => State.core_setCore_ne s c hm⟩

theorem State.onlyCore_modCore (s : State) (n : Nat) (g : Core → Core) : s.OnlyCore (s.modCore n g) n (g (s.core n)) :=
  s.onlyCore_setCore n _

theorem State.OnlyCore.modCore {s t : State} {n : Nat} {c : Core} (h : s.OnlyCore t n c) (g : Core → Core) :
    s.OnlyCore (t.modCore n g) n (g c) where
  rest := by rw [State.modCore, State.setCore, h.rest]
  here := by rw [State.core_modCore, h.here]
  others := fun m hm => by rw [State.core_modCore_ne _ _ hm, h.others m hm]

theorem State.core_setRing (s : State) (n : Nat) (e : Eng) (r : Ring) : (s.setRing n e r).core n = (s.core n).setRing e r :=
  State.core_modCore ..

theorem State.ring_setRing (s : State) (n : Nat) (e : Eng) (r : Ring) : (s.setRing n e r).ring n e = r := by
  show ((s.setRing n e r).core n).ring e = r
  rw [State.core_setRing, Core.ring_setRing]

end Sys2Proof.Machine
end

section
/-! SUPPORT. `ring.post` (R26, R289), check by check. -/
namespace Sys2Proof.Machine

theorem exec_post {i : Instr} {e : Eng} {r : Reg} {imm : BitVec 12} {fresh : Bool}
    (h : postOf i = some (e, r, imm, fresh)) (s : State) : exec i s = runCore (postOp e r imm fresh) s := by
  unfold postOf at h
  split at h <;> cases h <;> rfl

/-- What a post of `k` slots leaves of a ring: the write pointer moved on, and the origin record in each slot released (R26). -/
def Ring.posted (r : Ring) (k : Nat) (o : Origin) : Ring :=
  { r with
    write := r.write + BitVec.ofNat 32 k
    org := (List.range k).foldl (fun t i => Table.put Origin.empty t (r.write + BitVec.ofNat 32 i).toNat o) r.org }

/-- A core of which `k` slots of a ring are released. -/
def Core.posted (c : Core) (e : Eng) (k : Nat) (o : Origin) : Core := c.setRing e ((c.ring e).posted k o)

/-- A post leaves the commands in flight alone. -/
theorem Core.posted_flight (c : Core) (e e' : Eng) (k : Nat) (o : Origin) : ((c.posted e k o).ring e').flight = (c.ring e').flight := by
  unfold Core.posted
  by_cases he : e' = e
  · subst he; rw [Core.ring_setRing]; rfl
  · rw [Core.ring_setRing_ne _ _ he]

/-- A FRESH post asks for the drop of the descriptor copies before any slot that it releases. -/
def Core.dropIfFresh (c : Core) (fresh : Bool) (first : List (Nat × W32)) : Core := if fresh then c.dropCopies first else c

/-- Among entries that all take one value, each of them reads it. -/
theorem Table.get_foldl_put {α : Type} [DecidableEq α] (d o : α) (key : Nat → Nat) (l : List Nat) (t : Table α) {j : Nat}
    (h : j ∈ l ∨ Table.get d t (key j) = o) : Table.get d (l.foldl (fun t i => Table.put d t (key i) o) t) (key j) = o := by
  induction l generalizing t with
  | nil => exact h.resolve_left (by simp)
  | cons i l ih =>
    refine ih _ ?_
    rw [Table.get_put]
    rcases h with h | h
    · rcases List.mem_cons.mp h with rfl | h
      · exact .inr (if_pos rfl)
      · exact .inl h
    · exact .inr (by split; exacts [rfl, h])

theorem Ring.posted_org (r : Ring) {k j : Nat} (o : Origin) (h : j < k) :
    Table.get Origin.empty (r.posted k o).org (r.write + BitVec.ofNat 32 j).toNat = o :=
  Table.get_foldl_put _ _ (fun i => (r.write + BitVec.ofNat 32 i).toNat) _ _ (.inl (List.mem_range.mpr h))

/-- The origin record a post leaves: the pc, a0 to a7 and the address space of the core (R26). -/
def State.postOrigin (s : State) (n : Nat) : Origin :=
  { pc := (s.core n).hart.pc, a := (s.core n).hart.args, satp := (s.core n).hart.csrRaw 0x180, ctx := (s.recCtx n).1 }

/-- A drop waits for the commands of MX that have started and not latched, and is done at once without one (R224). -/
theorem Core.dropCopies_cases (c : Core) (first : List (Nat × W32)) :
    if (c.ring .mx).flight.any Flight.unlatched then
      (c.dropCopies first).descs = c.descs ∧ (c.dropCopies first).dropDue = true ∧ (c.dropCopies first).dropFor = c.dropFor ++ first
    else (c.dropCopies first).descs = [] ∧ (c.dropCopies first).dropDue = false := by
  have hr : ({ c with dropDue := true, dropFor := c.dropFor ++ first } : Core).ring .mx = c.ring .mx := rfl
  unfold Core.dropCopies Core.dropIfDue
  rw [hr]
  cases (c.ring .mx).flight.any Flight.unlatched <;> simp

section
variable {s s1 : State} {n : Nat} (e : Eng) (r1 : Reg) (imm : BitVec 12) (fresh : Bool)

theorem postOp_owned (h : (s.core n).hart.priv = .u ∧ ((s.core n).ring e).owner = true) :
    (postOp e r1 imm fresh n).run s = (.error (.trap { code := 2 }), s) := by
  simp only [postOp, M.run_bind_get, if_pos h, run_bind_illegal]

theorem postOp_none (h : ¬((s.core n).hart.priv = .u ∧ ((s.core n).ring e).owner = true))
    (hk : ((s.core n).hart.get r1 + imm.signExtend 64).toNat = 0) :
    Ok (postOp e r1 imm fresh n) s none (if fresh then s.modCore n (·.dropCopies []) else s) := by
  simp only [Ok, postOp, M.run_bind_get, if_neg h, if_pos hk, M.run_bind_modify, M.run_pure]

/-- More slots than are free, or than LD and ST may have together, overpost the ring (R26). -/
theorem postOp_many (h : ¬((s.core n).hart.priv = .u ∧ ((s.core n).ring e).owner = true))
    (hk : ((s.core n).hart.get r1 + imm.signExtend 64).toNat ≠ 0)
    (hmany : ((s.core n).ring e).size < (s.core n).outstanding e + ((s.core n).hart.get r1 + imm.signExtend 64).toNat ∨
      ((e = .ld ∨ e = .st) ∧ 1024 < (s.core n).outstanding .ld + (s.core n).outstanding .st +
        ((s.core n).hart.get r1 + imm.signExtend 64).toNat)) :
    (postOp e r1 imm fresh n).run s = (.error (.trap { code := 26, tval := e.num, cause := 25 }), s) := by
  simp only [postOp, M.run_bind_get, if_neg h, if_neg hk]
  by_cases hfree : ((s.core n).ring e).size - (s.core n).outstanding e < ((s.core n).hart.get r1 + imm.signExtend 64).toNat
  · simp only [Core.outstanding] at hfree
    simp only [if_pos hfree, run_bind_syncTrap]
  · have hboth := hmany.resolve_left (by omega)
    simp only [Core.outstanding] at hfree hboth
    simp only [if_neg hfree, if_pos hboth, run_bind_syncTrap]

/-- A post that fits moves the write pointer on and captures the origin record, once the core's stores are performed (R26). -/
theorem postOp_posts (h : ¬((s.core n).hart.priv = .u ∧ ((s.core n).ring e).owner = true))
    (hk : ((s.core n).hart.get r1 + imm.signExtend 64).toNat ≠ 0)
    (hfit : ¬(((s.core n).ring e).size < (s.core n).outstanding e + ((s.core n).hart.get r1 + imm.signExtend 64).toNat ∨
      ((e = .ld ∨ e = .st) ∧ 1024 < (s.core n).outstanding .ld + (s.core n).outstanding .st +
        ((s.core n).hart.get r1 + imm.signExtend 64).toNat)))
    (hd : Ok (drainAll n) s () s1) :
    ∃ t, Ok (postOp e r1 imm fresh n) s none t ∧ s1.OnlyCore t n
      (((s1.core n).posted e ((s.core n).hart.get r1 + imm.signExtend 64).toNat (s.postOrigin n)).dropIfFresh fresh
        [(e.num, ((s.core n).ring e).write)]) := by
  obtain ⟨hroom, hboth⟩ := not_or.mp hfit
  have hfree : ¬((s.core n).ring e).size - (s.core n).outstanding e < ((s.core n).hart.get r1 + imm.signExtend 64).toNat := by
    omega
  simp only [Core.outstanding] at hfree hboth
  simp only [Ok, postOp, M.run_bind_get, if_neg h, if_neg hk, if_neg hfree, if_neg hboth, hd.bind_run, M.run_bind_modify, M.run_pure]
  refine ⟨_, rfl, ?_⟩
  cases fresh with
  | false => exact s1.onlyCore_modCore n (·.posted e _ (s.postOrigin n))
  | true => exact (s1.onlyCore_modCore n (·.posted e _ (s.postOrigin n))).modCore (·.dropCopies _)

end

/-- Settles O19, case by case along the checks of `ring.post`. -/
theorem ringPost : Obligations.RingPost := by
  intro s s1 n i e r1 imm fresh hi hs
  rw [exec_post hi]
  dsimp only
  refine ⟨fun h => runCore_trap hs (postOp_owned e r1 imm fresh h), fun h hk => runCore_ok hs (postOp_none e r1 imm fresh h hk),
    fun h hk hmany => runCore_trap hs (postOp_many e r1 imm fresh h hk hmany), fun h hk hfit hd => ?_⟩
  obtain ⟨t, ht, honly⟩ := postOp_posts e r1 imm fresh h hk hfit hd
  refine ⟨t, (((s1.core n).ring e).posted _ (s.postOrigin n)).org, runCore_ok hs ht, honly, fun hfresh => ?_, fun j hj =>
    Ring.posted_org _ _ hj⟩
  subst hfresh
  have hdrop := Core.dropCopies_cases ((s1.core n).posted e ((s.core n).hart.get r1 + imm.signExtend 64).toNat (s.postOrigin n))
    [(e.num, ((s.core n).ring e).write)]
  rw [Core.posted_flight] at hdrop
  rw [honly.here]
  show if ((s1.core n).ring .mx).flight.any Flight.unlatched = true then _ else _
  split at hdrop
  next h =>
    rw [if_pos h]
    obtain ⟨hdescs, hdue, hfor⟩ := hdrop
    exact ⟨hdescs, hdue, by rw [Core.dropIfFresh, if_pos rfl, hfor]; simp⟩
  next h => rw [if_neg h]; exact hdrop

end Sys2Proof.Machine
end

section
/-! SUPPORT. Circular buffers (R31, R292, R293): `cb.cfg`, and the claims, takes, pushes and releases of the control core. -/
namespace Sys2Proof.Machine

theorem bits_eq_div_mod (w hi lo : Nat) : bits w hi lo = w / 2 ^ lo % 2 ^ (hi + 1 - lo) := by
  rw [bits, Nat.shiftRight_eq_div_pow]

/-! ### `cb.cfg` (R292) -/

section
variable {s s1 : State} {n : Nat} (i : Nat) (r1 r2 : Reg)

/-- A base, a slot size or a slot count that `cb.cfg` refuses, or slots of the buffer in use (R54, R292). -/
def Core.cfgBad (c : Core) (i : Nat) (r1 r2 : Reg) : Prop :=
  2 ^ 23 ≤ (c.hart.get r1).toNat ∨ 10 < (c.hart.get r2).toNat % 16 ∨ (c.hart.get r2).toNat / 256 % 256 + 1 < 2 ∨
    (c.cb i).held ≠ 0 ∨ (c.cb i).inflight ≠ 0

/-- The check of `cb.cfg`, of the bit fields of its operands. -/
theorem Core.cfgBad_iff (c : Core) : c.cfgBad i r1 r2 ↔ bits (c.hart.get r1).toNat 63 23 ≠ 0 ∨ 10 < bits (c.hart.get r2).toNat 3 0 ∨
    bits (c.hart.get r2).toNat 15 8 + 1 < 2 ∨ (c.cb i).held ≠ 0 ∨ (c.cb i).inflight ≠ 0 := by
  have hbase : 2 ^ 23 ≤ (c.hart.get r1).toNat ↔ bits (c.hart.get r1).toNat 63 23 ≠ 0 := by
    rw [bits_eq_div_mod]
    have := (c.hart.get r1).isLt
    omega
  rw [Core.cfgBad, hbase, bits_eq_div_mod _ 3 0, bits_eq_div_mod _ 15 8]
  simp

theorem cbCfgOp_bad (h : (s.core n).cfgBad i r1 r2) : (cbCfgOp i r1 r2 n).run s = (.error (.trap { code := 2 }), s) := by
  rw [Core.cfgBad_iff] at h
  simp only [cbCfgOp, M.run_bind_get, if_pos h, run_bind_illegal]

/-- What `cb.cfg` makes of a buffer: every slot free, nothing filled, held or claimed (R292). -/
def Hart.cfgCb (h : Hart) (r1 r2 : Reg) : Cb :=
  { Cb.reset with
    configured := true, base := (h.get r1).toNat, sizeCode := (h.get r2).toNat % 16, count := (h.get r2).toNat / 256 % 256 + 1
    free := (h.get r2).toNat / 256 % 256 + 1 }

theorem cbCfgOp_good (h : ¬(s.core n).cfgBad i r1 r2) :
    Ok (cbCfgOp i r1 r2 n) s none (s.setCore n ((s.core n).setCb i ((s.core n).hart.cfgCb r1 r2))) := by
  have hbase : bits ((s.core n).hart.get r1).toNat 22 0 = ((s.core n).hart.get r1).toNat := by
    rw [bits_eq_div_mod, Nat.pow_zero, Nat.div_one]
    exact Nat.mod_eq_of_lt (Nat.lt_of_not_le (not_or.mp h).1)
  have hsize : bits ((s.core n).hart.get r2).toNat 3 0 = ((s.core n).hart.get r2).toNat % 16 := by simp [bits_eq_div_mod]
  have hcount : bits ((s.core n).hart.get r2).toNat 15 8 = ((s.core n).hart.get r2).toNat / 256 % 256 := by simp [bits_eq_div_mod]
  rw [Core.cfgBad_iff] at h
  simp only [Ok, cbCfgOp, M.run_bind_get, if_neg h, M.run_bind_modify, M.run_pure, Hart.cfgCb, Cb.reset]
  rw [hbase, hsize, hcount]

end

/-! ### Claims, takes, pushes and releases (R31, R293) -/

section
variable {s s1 : State} {n : Nat} (i : Nat) (r1 : Reg) (take : Bool)

/-- What a claim or a take of `m` slots waits for. -/
def cbWaitKind (i m : Nat) (take : Bool) : WaitKind := if take then .cbTake i m else .cbClaim i m

theorem cbCheck_unconfigured {m : Nat} {limit : Bool} (h : ((s.core n).cb i).configured = false) :
    (cbCheck i n m limit).run s = (.error (.trap { code := 2 }), s) := by
  simp only [cbCheck, M.run_bind_get, if_pos h, run_bind_illegal]

theorem cbCheck_over {m : Nat} (h : ((s.core n).cb i).configured = true) (hm : ((s.core n).cb i).count < m) :
    (cbCheck i n m true).run s = (.error (.trap { code := 2 }), s) := by
  simp only [cbCheck, M.run_bind_get, h, Bool.true_eq_false, if_false, true_and, if_pos hm, run_bind_illegal]

theorem cbCheck_ok {m : Nat} {limit : Bool} (h : ((s.core n).cb i).configured = true)
    (hm : limit = true → m ≤ ((s.core n).cb i).count) : Ok (cbCheck i n m limit) s ((s.core n).cb i) s := by
  have hno : ¬(limit = true ∧ ((s.core n).cb i).count < m) := fun ⟨hl, hlt⟩ => Nat.not_le.mpr hlt (hm hl)
  simp only [Ok, cbCheck, M.run_bind_get, h, Bool.true_eq_false, if_false, if_neg hno, M.run_pure]

/-- A claim or a take goes on to wait for its slots when its check passes. -/
theorem cbWaitOp_waits (h : ((s.core n).cb i).configured = true) (h0 : ((s.core n).hart.get r1).toNat ≠ 0)
    (hm : ((s.core n).hart.get r1).toNat ≤ ((s.core n).cb i).count) :
    (cbWaitOp i r1 take n).run s = (waiting (.core n) (cbWaitKind i ((s.core n).hart.get r1).toNat take)).run s := by
  simp only [cbWaitOp, M.run_bind_get, (cbCheck_ok i h fun _ => hm).bind_run, if_neg h0, cbWaitKind]

theorem cbWaitOp_illegal (h : (cbCheck i n ((s.core n).hart.get r1).toNat true).run s = (.error (.trap { code := 2 }), s)) :
    (cbWaitOp i r1 take n).run s = (.error (.trap { code := 2 }), s) := by
  simp only [cbWaitOp, M.run_bind_get, M.run_bind (cbCheck _ _ _ _), h]

theorem cbPushOp_illegal (h : (cbCheck i n ((s.core n).hart.get r1).toNat false).run s = (.error (.trap { code := 2 }), s)) :
    (cbPushOp i r1 n).run s = (.error (.trap { code := 2 }), s) := by
  simp only [cbPushOp, M.run_bind_get, M.run_bind (cbCheck _ _ _ _), h]

theorem cbRelOp_illegal (h : (cbCheck i n ((s.core n).hart.get r1).toNat false).run s = (.error (.trap { code := 2 }), s)) :
    (cbRelOp i r1 n).run s = (.error (.trap { code := 2 }), s) := by
  simp only [cbRelOp, M.run_bind_get, M.run_bind (cbCheck _ _ _ _), h]

/-- An unconfigured buffer makes every buffer instruction illegal. -/
theorem cbOps_unconfigured (hs : s.byCore n) (i : BitVec 5) (h : ((s.core n).cb i.toNat).configured = false) :
    ∀ x ∈ [Instr.cbClaim i r1, .cbTake i r1, .cbPush i r1, .cbRel i r1], exec x s = .next (s.illegalAt (.core n)) := by
  simp only [List.mem_cons, List.not_mem_nil, or_false, forall_eq_or_imp, forall_eq]
  exact ⟨runCore_trap hs (cbWaitOp_illegal _ _ _ (cbCheck_unconfigured _ h)), runCore_trap hs (cbWaitOp_illegal _ _ _ (cbCheck_unconfigured _ h)),
    runCore_trap hs (cbPushOp_illegal _ _ (cbCheck_unconfigured _ h)), runCore_trap hs (cbRelOp_illegal _ _ (cbCheck_unconfigured _ h))⟩

/-- No slots asked of a configured buffer: nothing happens. -/
theorem cbOps_zero (hs : s.byCore n) (i : BitVec 5) (h : ((s.core n).cb i.toNat).configured = true)
    (h0 : ((s.core n).hart.get r1).toNat = 0) :
    ∀ x ∈ [Instr.cbClaim i r1, .cbTake i r1, .cbPush i r1, .cbRel i r1], exec x s = .next (s.fallThrough (.core n)) := by
  have hcheck : ∀ limit, Ok (cbCheck i.toNat n 0 limit) s ((s.core n).cb i.toNat) s := fun limit =>
    cbCheck_ok _ h fun _ => Nat.zero_le _
  have hwait : ∀ take, Ok (cbWaitOp i.toNat r1 take n) s none s := fun take => by
    simp only [Ok, cbWaitOp, M.run_bind_get, h0, (hcheck _).bind_run, if_true, M.run_pure]
  have hpush : Ok (cbPushOp i.toNat r1 n) s none s := by
    simp only [Ok, cbPushOp, M.run_bind_get, h0, (hcheck _).bind_run, Nat.not_lt_zero, if_false, if_true, M.run_pure]
  have hrel : Ok (cbRelOp i.toNat r1 n) s none s := by
    simp only [Ok, cbRelOp, M.run_bind_get, h0, (hcheck _).bind_run, Nat.not_lt_zero, if_false, if_true, M.run_pure]
  simp only [List.mem_cons, List.not_mem_nil, or_false, forall_eq_or_imp, forall_eq]
  exact ⟨runCore_ok hs (hwait false), runCore_ok hs (hwait true), runCore_ok hs hpush, runCore_ok hs hrel⟩

theorem cbPushOp_over (h : ((s.core n).cb i).configured = true) (hm : ((s.core n).cb i).ccClm < ((s.core n).hart.get r1).toNat) :
    (cbPushOp i r1 n).run s = (.error (.trap { code := 2 }), s) := by
  simp only [cbPushOp, M.run_bind_get, (cbCheck_ok (limit := false) i h (by simp)).bind_run, if_pos hm, run_bind_illegal]

theorem cbRelOp_over (h : ((s.core n).cb i).configured = true) (hm : ((s.core n).cb i).held < ((s.core n).hart.get r1).toNat) :
    (cbRelOp i r1 n).run s = (.error (.trap { code := 2 }), s) := by
  simp only [cbRelOp, M.run_bind_get, (cbCheck_ok (limit := false) i h (by simp)).bind_run, if_pos hm, run_bind_illegal]

/-- A push within what the control core has in flight, after its stores (R31). -/
theorem cbPushOp_ok (h : ((s.core n).cb i).configured = true) (h0 : ((s.core n).hart.get r1).toNat ≠ 0)
    (hm : ((s.core n).hart.get r1).toNat ≤ ((s.core n).cb i).ccClm) (hd : Ok (drainAll n) s () s1) :
    let b := (s.core n).cb i
    let m := ((s.core n).hart.get r1).toNat
    Ok (cbPushOp i r1 n) s none
      (s1.modCore n (·.setCb i { b with inflight := b.inflight - m, filled := b.filled + m, ccClm := b.ccClm - m })) := by
  simp only [Ok, cbPushOp, M.run_bind_get, (cbCheck_ok (limit := false) i h (by simp)).bind_run, if_neg (Nat.not_lt.mpr hm), if_neg h0,
    hd.bind_run, M.run_bind_modify, M.run_pure]

/-- A release of held slots, after the core's stores (R31). -/
theorem cbRelOp_ok (h : ((s.core n).cb i).configured = true) (h0 : ((s.core n).hart.get r1).toNat ≠ 0)
    (hm : ((s.core n).hart.get r1).toNat ≤ ((s.core n).cb i).held) (hd : Ok (drainAll n) s () s1) :
    let b := (s.core n).cb i
    let m := ((s.core n).hart.get r1).toNat
    Ok (cbRelOp i r1 n) s none (s1.modCore n (·.setCb i { b with held := b.held - m, free := b.free + m })) := by
  simp only [Ok, cbRelOp, M.run_bind_get, (cbCheck_ok (limit := false) i h (by simp)).bind_run, if_neg (Nat.not_lt.mpr hm), if_neg h0,
    hd.bind_run, M.run_bind_modify, M.run_pure]

/-- The slots that a claim finds beside what engines waiting for the buffer take (R30, R31). -/
theorem waiting_cbClaim (i m : Nat) :
    let c := s.core n
    let b := c.cb i
    (b.free < m + c.claimers i b.free false → (waiting (.core n) (.cbClaim i m)).run s = (.error (.wait (.cbClaim i m)), s)) ∧
    (m + c.claimers i b.free false ≤ b.free → Ok (waiting (.core n) (.cbClaim i m)) s none (s.setCore n (c.setCb i
      { b with free := b.free - m, inflight := b.inflight + m, prod := (b.prod + m) % b.count, ccClm := b.ccClm + m }))) := by
  refine ⟨fun h => ?_, fun h => ?_⟩
  · simp only [waiting, tryWait, M.run_bind, M.run_get, if_pos h, M.run_throw]
  · simp only [Ok, waiting, tryWait, M.run_bind, M.run_get, if_neg (Nat.not_lt.mpr h), M.run_modify, M.run_pure]

/-- The same for a take. -/
theorem waiting_cbTake (i m : Nat) :
    let c := s.core n
    let b := c.cb i
    (b.filled < m + c.claimers i b.filled true → (waiting (.core n) (.cbTake i m)).run s = (.error (.wait (.cbTake i m)), s)) ∧
    (m + c.claimers i b.filled true ≤ b.filled → Ok (waiting (.core n) (.cbTake i m)) s none (s.setCore n (c.setCb i
      { b with filled := b.filled - m, held := b.held + m, cons := (b.cons + m) % b.count }))) := by
  refine ⟨fun h => ?_, fun h => ?_⟩
  · simp only [waiting, tryWait, M.run_bind, M.run_get, if_pos h, M.run_throw]
  · simp only [Ok, waiting, tryWait, M.run_bind, M.run_get, if_neg (Nat.not_lt.mpr h), M.run_modify, M.run_pure]

end

/-- Settles O21: what `cb.cfg` and the four buffer instructions do, by the checks they make in turn. -/
theorem buffers : Obligations.Buffers := by
  refine ⟨fun s n i r1 r2 hs => ?cfg, fun s s1 n i r1 hs => ?ops⟩
  case cfg =>
    dsimp only
    exact ⟨fun h => runCore_trap hs (cbCfgOp_bad _ _ _ h),
      fun h => ⟨_, runCore_ok hs (cbCfgOp_good _ _ _ h), s.onlyCore_setCore n _⟩⟩
  case ops =>
    dsimp only
    refine ⟨cbOps_unconfigured r1 hs i, cbOps_zero r1 hs i, fun h hm => ?tooMany, fun h hm => runCore_trap hs (cbPushOp_over _ _ h hm),
      fun h hm => runCore_trap hs (cbRelOp_over _ _ h hm), fun h h0 hm => ?waits,
      fun h h0 hm hd => ⟨_, runCore_ok hs (cbPushOp_ok _ _ h h0 hm hd), s1.onlyCore_modCore n _⟩,
      fun h h0 hm hd => ⟨_, runCore_ok hs (cbRelOp_ok _ _ h h0 hm hd), s1.onlyCore_modCore n _⟩⟩
    case tooMany =>
      exact ⟨runCore_trap hs (cbWaitOp_illegal _ _ _ (cbCheck_over _ h hm)), runCore_trap hs (cbWaitOp_illegal _ _ _ (cbCheck_over _ h hm))⟩
    case waits =>
      have hclaim := cbWaitOp_waits i.toNat r1 false h h0 hm
      have htake := cbWaitOp_waits i.toNat r1 true h h0 hm
      obtain ⟨hcw, hco⟩ := waiting_cbClaim (s := s) (n := n) i.toNat ((s.core n).hart.get r1).toNat
      obtain ⟨htw, hto⟩ := waiting_cbTake (s := s) (n := n) i.toNat ((s.core n).hart.get r1).toNat
      exact ⟨fun hle => ⟨_, runCore_ok hs (hclaim.trans (hco hle)), s.onlyCore_setCore n _⟩, fun hlt => runCore_wait hs (hclaim.trans (hcw hlt)),
        fun hle => ⟨_, runCore_ok hs (htake.trans (hto hle)), s.onlyCore_setCore n _⟩, fun hlt => runCore_wait hs (htake.trans (htw hlt))⟩

end Sys2Proof.Machine
end

section
/-! SUPPORT. Against O40: two commands in flight of one slot. -/
namespace Sys2Proof.Machine

/-- A command of slot 0 that has only entered its ring, its first quarter as given. -/
def twinFlight (q0 : W64) : Flight :=
  { slot := 0, q0 := q0, q1 := 0, q2 := 0, q3 := 0, org := Origin.empty, since := 0, phase := .await, taken := false, claimed := false,
    prog := Prog.start, latch := none, stuck := [], recs := [] }

/-- Core 0 has two commands of slot 0 in flight in the LD ring, of which the first alone awaits a semaphore: semaphore 0, which has been
raised. The step is about the first. -/
def twinSlots : State :=
  { State.reset with
    focus := .flight 0 .ld 0
    cores := [(0, { Core.reset with
      sems := [(0, 1#16)]
      rings := [(0, { Ring.reset with write := 1, read := 1, flight := [twinFlight 0x0000400000000000#64, twinFlight 0] })] })] }

theorem runFlight_at {m : Nat → Eng → Nat → M Unit} {s : State} {n i : Nat} {e : Eng} (hf : s.focus = .flight n e i)
    (h : (m n e i).result s = some ()) : runFlight m s = .next ((m n e i).exec s) := by
  rw [runFlight, hf]
  simp only [(ok_of_answer h rfl).run]

/-- The second command keeps that it took no semaphore, having none to await. -/
theorem twinSlots_taken : exec .engineAwaitTaken twinSlots = .next ((awaitTakenOp 0 .ld 0).exec twinSlots) ∧
    ((((awaitTakenOp 0 .ld 0).exec twinSlots).core 0).ring .ld).flight.map Flight.taken = [true, false] :=
  ⟨runFlight_at (m := awaitTakenOp) (s := twinSlots) (n := 0) (e := .ld) (i := 0) rfl (by decide +kernel), by decide +kernel⟩

/-- Refutes O40: where a command takes its semaphore, the statement has every command in flight of that slot number marked as having taken
one, the model each as its own word has it. In `twinSlots` a second command of the same slot awaits none. That no two commands in flight of
a ring have one slot is not among the hypotheses. -/
theorem not_commandLives : ¬ Obligations.CommandLives := by
  intro h
  obtain ⟨hlife, -⟩ := h
  obtain ⟨hawait, -⟩ := hlife twinSlots 0 .ld 0 (twinFlight 0x0000400000000000#64) rfl
  obtain ⟨-, htakes, -⟩ := hawait rfl rfl
  obtain ⟨t, ht, honly⟩ := htakes (by decide +kernel) (by decide +kernel)
  obtain ⟨hexec, htaken⟩ := twinSlots_taken
  rw [← Host.Outcome.next.inj (ht.symm.trans hexec), honly.here] at htaken
  exact absurd htaken (by decide +kernel)

end Sys2Proof.Machine
end

section
/-! SUPPORT. The turn of a ring (R24, R28): how its next slot starts, and when the command in flight is run. -/
namespace Sys2Proof.Machine

/-- Decoding settles where a command stands, and leaves its slot, its words and its origin record. -/
theorem State.admitFlight_frame (s : State) (n : Nat) (e : Eng) (f : Flight) : ∃ p, s.admitFlight n e f = { f with phase := p } := by
  unfold State.admitFlight
  dsimp only
  split
  · exact ⟨_, rfl⟩
  · exact ⟨_, rfl⟩

theorem Core.dropIfDue_ring (c : Core) (e : Eng) : c.dropIfDue.ring e = c.ring e := by
  unfold Core.dropIfDue
  split <;> rfl

/-- A command that the turn of its ring has come to is the one the engine is about to run, once ready (R28). -/
theorem advanceTurn_runs {s : State} {n i : Nat} {e : Eng} {f : Flight} {x : Instr} (hfrozen : (s.core n).frozen = false)
    (hgate : s.gated (dieOf n) = false) (hf : (s.ring n e).flight[i]? = some f)
    (hturn : ((s.ring n e).flight.take i).all (fun g => g.phase == .done) = true) (hphase : f.phase = .ready)
    (hbegin : f.begun = true ∨ (s.core n).mayBegin e = true) (hbound : f.overdue e s.now = false)
    (hx : commandOf e f.q0 f.q1 f.q2 f.q3 = some x) : advanceTurn n e i s = .run x { s with focus := .flight n e i } := by
  have hrun : ({ s with focus := .flight n e i } : State).mayRun n e i f = true := by
    refine List.all_eq_true.mpr fun g hg => ?_
    rw [List.all_eq_true.mp hturn g hg, Bool.true_or]
  have hbegins : (f.begun = false && (s.core n).mayBegin e = false) = false := by
    rcases hbegin with h | h <;> simp [h]
  have hgate' : ({ s with focus := .flight n e i } : State).gated (dieOf n) = false := hgate
  have hf' : ((s.core n).ring e).flight[i]? = some f := hf
  have hbound' : f.overdue e ({ s with focus := .flight n e i } : State).now = false := hbound
  simp only [advanceTurn, hfrozen, hgate', hf', hbound', hphase, hrun, hbegins, hx, Bool.or_self, Bool.false_eq_true, if_false]
  simp

/-- The next slot of a ring that may start comes in flight with the words read from it, and READ moves on (R24, R28). -/
theorem startTurn_starts {s s2 : State} {n : Nat} {e : Eng} {q : W64 × W64 × W64 × W64}
    (hmay : ({ s with focus := .hub } : State).mayStart n e = true)
    (hread : Ok (readSlot n e (s.ring n e) (s.ring n e).read) (({ s with focus := .hub } : State).modCore n Core.dropIfDue) q s2) :
    ∃ f, startTurn n e s = s2.setRing n e { s.ring n e with read := (s.ring n e).read + 1, flight := (s.ring n e).flight ++ [f] } ∧
      f.slot = (s.ring n e).read ∧ f.q0 = q.1 ∧ f.q1 = q.2.1 ∧ f.q2 = q.2.2.1 ∧ f.q3 = q.2.2.2 ∧
      f.org = Table.get Origin.empty (s.ring n e).org (s.ring n e).read.toNat := by
  have hring : (({ s with focus := .hub } : State).modCore n Core.dropIfDue).ring n e = s.ring n e := by
    show ((({ s with focus := .hub } : State).modCore n Core.dropIfDue).core n).ring e = _
    rw [State.core_modCore, Core.dropIfDue_ring]
    rfl
  simp only [startTurn, hmay, Bool.true_eq_false, if_false, hring, hread.run]
  refine ⟨_, rfl, ?_⟩
  obtain ⟨p, hp⟩ := s2.admitFlight_frame n e
    { slot := (s.ring n e).read, q0 := q.1, q1 := q.2.1, q2 := q.2.2.1, q3 := q.2.2.2,
      org := Table.get Origin.empty (s.ring n e).org (s.ring n e).read.toNat, since := s.now, phase := .await, taken := false,
      claimed := false, prog := Prog.start, latch := none, stuck := [], recs := [] }
  exact (congrArg (fun f : Flight => f.slot = (s.ring n e).read ∧ f.q0 = q.1 ∧ f.q1 = q.2.1 ∧ f.q2 = q.2.2.1 ∧ f.q3 = q.2.2.2 ∧
      f.org = Table.get Origin.empty (s.ring n e).org (s.ring n e).read.toNat) hp).mpr ⟨rfl, rfl, rfl, rfl, rfl, rfl⟩

/-- Settles O2, from what a turn of each kind chooses. -/
theorem stepRunsCommand : Obligations.StepRunsCommand := by
  refine ⟨fun s s1 s2 n e q hturn hmay hread => ?start, fun s s1 n e i k slow f x hturn hfrozen hgate hf hdone hphase hbegin hbound hx => ?run⟩
  case start =>
    obtain ⟨f, hstart, hslot, h0, h1, h2, h3, horg⟩ := startTurn_starts hmay hread
    have hstep : step s = .next (startTurn n e s1) := by simp only [step, hturn, chooseTurn]
    rw [hstart] at hstep
    refine ⟨_, f, hstep, ?_, ?_, hslot, h0, h1, h2, h3, horg, rfl, ?_⟩
    · rw [State.ring_setRing]
    · rw [State.ring_setRing]
    · rw [State.core_setRing]; rfl
  case run =>
    have hrun := advanceTurn_runs (s := { s1 with left := k, slow := slow }) hfrozen hgate hf hdone hphase hbegin hbound hx
    simp only [step, hturn, chooseTurn, hrun]

end Sys2Proof.Machine
end

section
/-! SUPPORT. Instances and their nodes (R342, R343): what the operations of the graph walker read, write and leave alone. -/
namespace Sys2Proof.Machine

/-! ### Instances by their number -/

theorem State.inst?_id {s : State} {id : Nat} {g : GInst} (h : s.inst? id = some g) : g.id = id := by
  simpa using List.find?_some h

/-- Changing an instance changes what its number finds. -/
theorem State.inst?_modInst (s : State) (id : Nat) {f : GInst → GInst} (hf : ∀ g, (f g).id = g.id) :
    (s.modInst id f).inst? id = (s.inst? id).map f := by
  have hcomp : (fun g : GInst => g.id == id) ∘ (fun g => if g.id == id then f g else g) = fun g => g.id == id := by
    funext g
    by_cases h : g.id = id <;> simp [h, hf]
  rw [State.inst?, State.modInst, List.find?_map, hcomp]
  cases h : s.insts.find? (fun g => g.id == id) with
  | none => simp [State.inst?, h]
  | some g =>
    have hid : g.id = id := State.inst?_id (s := s) h
    simp [State.inst?, h, hid]

theorem State.inst?_modNode {s : State} {id : Nat} {g : GInst} (h : s.inst? id = some g) (i : Nat) (f : NodeSt → NodeSt) :
    (s.modInst id fun g => g.modNode i f).inst? id = some (g.modNode i f) := by
  rw [State.inst?_modInst s id (f := fun g => g.modNode i f) fun _ => rfl, h]; rfl

theorem GInst.modNode_same {g : GInst} {i : Nat} {x : NodeSt} (f : NodeSt → NodeSt) (h : g.nodes[i]? = some x) :
    (g.modNode i f).nodes[i]? = some (f x) := by
  simp [GInst.modNode, h]

theorem GInst.modNode_ne (g : GInst) {i j : Nat} (f : NodeSt → NodeSt) (h : j ≠ i) :
    (g.modNode i f).nodes[j]? = g.nodes[j]? := by
  simp [GInst.modNode, Ne.symm h]

/-! ### Operations that leave memory, cores, instances, counters and time alone -/

/-- `t` has the memory, the cores, the instances, the counters and the time of `s`. -/
structure State.Alike (s t : State) : Prop where
  mem : t.mem = s.mem
  cores : t.cores = s.cores
  insts : t.insts = s.insts
  counts : t.depCnt = s.depCnt
  time : t.datum9 = s.datum9

theorem State.Alike.refl (s : State) : s.Alike s := ⟨rfl, rfl, rfl, rfl, rfl⟩

theorem State.Alike.trans {s t u : State} (h : s.Alike t) (k : t.Alike u) : s.Alike u :=
  ⟨k.mem.trans h.mem, k.cores.trans h.cores, k.insts.trans h.insts, k.counts.trans h.counts, k.time.trans h.time⟩

theorem State.Alike.foldl {β : Type} (l : List β) (g : State → β → State) (h : ∀ (s : State) b, s.Alike (g s b)) (s : State) :
    s.Alike (l.foldl g s) :=
  List.foldlRecOn (motive := fun t => s.Alike t) l g (.refl s) fun t ht b _ => ht.trans (h t b)

theorem State.Alike.core {s t : State} (h : s.Alike t) (n : Nat) : t.core n = s.core n := by rw [State.core, h.cores, State.core]

theorem State.Alike.inst? {s t : State} (h : s.Alike t) (id : Nat) : t.inst? id = s.inst? id := by
  rw [State.inst?, h.insts, State.inst?]

theorem State.Alike.ctr {s t : State} (h : s.Alike t) (k : Nat) : t.ctr k = s.ctr k := by rw [State.ctr, h.counts, State.ctr]

theorem State.alike_log (s : State) (k d pa : Nat) (l : List Nat) : s.Alike (s.log k d pa l) := by
  unfold State.log State.logRaw
  dsimp only
  split
  · exact ⟨rfl, rfl, rfl, rfl, rfl⟩
  · exact ⟨rfl, rfl, rfl, rfl, rfl⟩

theorem State.alike_decLive (s : State) (i : Option Nat) : s.Alike (s.decLive i) := by
  unfold State.decLive
  split
  · exact .refl s
  · split
    · unfold State.tellHome
      split
      · exact ⟨rfl, rfl, rfl, rfl, rfl⟩
      · exact .refl s
    · exact ⟨rfl, rfl, rfl, rfl, rfl⟩

theorem State.alike_bind (s : State) (d i q : Nat) (after : Option Nat) : s.Alike (s.bind d i q after) := ⟨rfl, rfl, rfl, rfl, rfl⟩

theorem State.alike_idleQueues (s : State) : s.Alike s.idleQueues := ⟨rfl, rfl, rfl, rfl, rfl⟩

theorem alike_fillSlots (d fuel : Nat) (s : State) : s.Alike (fillSlots d fuel s) := by
  induction fuel generalizing s with
  | zero => exact .refl s
  | succ k ih =>
    unfold fillSlots
    split
    · exact (State.alike_bind ..).trans (ih _)
    · exact .refl s

/-- The mapper binds queues to slots, and does nothing else (R337). -/
theorem State.alike_mapDie (s : State) (d : Nat) : s.Alike (s.mapDie d) := by
  unfold State.mapDie
  refine (State.Alike.foldl _ _ (fun t i => ?_) s).trans ((State.alike_idleQueues _).trans (alike_fillSlots ..))
  split
  · split
    · split
      · exact .refl t
      · exact ⟨rfl, rfl, rfl, rfl, rfl⟩
    · exact .refl t
  · exact .refl t

theorem State.alike_dropSet (s : State) (save : Nat) : s.Alike (s.dropSet save) := ⟨rfl, rfl, rfl, rfl, rfl⟩

/-! ### An instance that has not come to its end (R342, R343) -/

/-- An instance that may go on and has a node that has not ended is left as it is. -/
theorem State.settle_going {s : State} {id i : Nat} {g : GInst} {x : NodeSt} (h : s.inst? id = some g) (hborn : g.born = true)
    (hfault : g.fault = none) (hrev : g.revoked = false) (hx : g.nodes[i]? = some x) (hend : x.phase.ended = false) :
    s.settle id = s := by
  have hall : g.nodes.all (fun x => x.phase.ended) = false :=
    List.all_eq_false.mpr ⟨x, List.mem_of_getElem? hx, by simp [hend]⟩
  simp only [State.settle, h, hborn, hrev, hfault, hall, Bool.true_eq_false, Bool.false_eq_true, if_false]

/-- A faulted instance waits for its task and its transform job that still run. -/
theorem State.settle_running {s : State} {id i : Nat} {g : GInst} {x : NodeSt} (h : s.inst? id = some g) (hborn : g.born = true)
    (hfault : g.fault ≠ none) (hrev : g.revoked = false) (hx : g.nodes[i]? = some x) (hrun : x.phase = .running)
    (hkind : x.kind = 1 ∨ x.kind = 2) : s.settle id = s := by
  have hany : (g.nodes.any fun x => x.phase == .running && (x.kind == 1 || x.kind == 2)) = true :=
    List.any_eq_true.mpr ⟨x, List.mem_of_getElem? hx, by rcases hkind with hk | hk <;> simp [hrun, hk]⟩
  obtain ⟨c, hc⟩ := Option.ne_none_iff_exists'.mp hfault
  simp only [State.settle, h, hborn, hrev, hc, hany, Bool.true_eq_false, Bool.false_eq_true, if_false, if_true]

theorem State.settle_none {s : State} {id : Nat} (h : s.inst? id = none) : s.settle id = s := by simp only [State.settle, h]

/-! ### A core that holds no task -/

/-- A core without a task and with its rings empty, as it stands between two tasks (R22, R300). -/
theorem Core.emptyRings_ring (c : Core) (e : Eng) : c.emptyRings.ring e =
    { c.ring e with read := (c.ring e).write, retire := (c.ring e).write, org := [], flight := [], halted := false } := by
  unfold Core.emptyRings Eng.all
  simp only [List.foldl]
  cases e <;> simp

theorem Core.toIdle_isIdle (c : Core) : c.toIdle.isIdle := by
  refine ⟨rfl, rfl, rfl, rfl, fun e => ?_⟩
  have h : c.toIdle.ring e = c.emptyRings.ring e := rfl
  rw [h, Core.emptyRings_ring]
  exact ⟨rfl, rfl, rfl, rfl⟩

/-- Rings, task and run state make a core idle: staging and the rest of its hart do not count. -/
theorem Core.isIdle_setHart {c : Core} (hc : c.isIdle) {h : Hart} (hrun : h.run = .idle) (hwait : h.wait = none) :
    ({ c with hart := h } : Core).isIdle := by
  obtain ⟨htask, -, -, hsusp, hrings⟩ := hc
  exact ⟨htask, hrun, hwait, hsusp, hrings⟩

/-! ### The end of an instruction of a control core (R50) -/

/-- Completing moves the pc, ends a wait and counts: everything else of the core stands. -/
theorem State.core_finishInstr (s : State) (n : Nat) (pc : Option W64) :
    ∃ h : Hart, (s.finishInstr (.core n) pc).core n = { s.core n with hart := h } ∧ h.run = (s.core n).hart.run ∧ h.wait = none ∧
      h.pc = pc.getD ((s.core n).hart.pc + BitVec.ofNat 64 s.ilen) ∧ h.x = (s.core n).hart.x ∧ h.priv = (s.core n).hart.priv ∧
      ∀ k, k ≠ 0xB02 → h.csrRaw k = (s.core n).hart.csrRaw k := by
  refine ⟨_, State.core_setHart .., ?_⟩
  split
  · exact ⟨rfl, rfl, rfl, rfl, rfl, fun _ _ => rfl⟩
  · exact ⟨rfl, rfl, rfl, rfl, rfl, fun _ hk => Hart.csrRaw_setCsrRaw_ne _ _ hk⟩

theorem State.core_finishInstr_ne (s : State) {n m : Nat} (pc : Option W64) (h : m ≠ n) :
    (s.finishInstr (.core n) pc).core m = s.core m := State.core_setHart_ne s _ h

theorem State.inst?_finishInstr (s : State) (a : Agent) (pc : Option W64) (id : Nat) :
    (s.finishInstr a pc).inst? id = s.inst? id := by
  rw [State.inst?, State.finishInstr, State.setHart_insts, State.inst?]

theorem State.isIdle_finishInstr {s : State} {n : Nat} (pc : Option W64) (h : (s.core n).isIdle) :
    ((s.finishInstr (.core n) pc).core n).isIdle := by
  obtain ⟨k, hk, hrun, hwait, -⟩ := s.core_finishInstr n pc
  rw [hk]
  have ⟨_, hidle, _⟩ := h
  exact Core.isIdle_setHart h (hrun.trans hidle) hwait

end Sys2Proof.Machine
end

section
/-! SUPPORT. The task instructions (R37, R38, R300, R304, R345): abort, direct and yield. -/
namespace Sys2Proof.Machine

/-! ### The task that a core holds and runs -/

section
variable {s : State} {n : Nat} {t : TaskSt}

theorem heldTask_none (h : (s.core n).task = none ∨ (s.core n).suspended = true) :
    (heldTask n).run s = (.error (.trap { code := 2 }), s) := by
  cases ht : (s.core n).task with
  | none => simp only [heldTask, M.run_bind_get, ht, run_illegal]
  | some t =>
    have hs : (s.core n).suspended = true := h.resolve_left (by simp [ht])
    simp only [heldTask, M.run_bind_get, ht, hs, if_true, run_illegal]

theorem heldTask_ok (ht : (s.core n).task = some t) (hs : (s.core n).suspended = false) : Ok (heldTask n) s t s := by
  simp only [Ok, heldTask, M.run_bind_get, ht, hs, Bool.false_eq_true, if_false, M.run_pure]

/-- Without a held task the four task instructions are illegal (R300). -/
theorem taskOps_none (hb : s.byCore n) (h : (s.core n).task = none ∨ (s.core n).suspended = true) :
    ∀ x ∈ [Instr.taskRetire, .taskAbort, .taskDirect, .taskYield], exec x s = .next (s.illegalAt (.core n)) := by
  have hbind : ∀ f : TaskSt → M (Option W64), (heldTask n >>= f).run s = (.error (.trap { code := 2 }), s) := fun f => by
    rw [M.run_bind, heldTask_none h]
  simp only [List.mem_cons, List.not_mem_nil, or_false, forall_eq_or_imp, forall_eq]
  exact ⟨runCore_trap hb (hbind _), runCore_trap hb (hbind _), runCore_trap hb (hbind _), runCore_trap hb (hbind _)⟩

/-! ### Abort (R37) -/

/-- What an abort leaves: staging discarded, the core idle, its node ready again, its task counted out of its stream. -/
def State.aborted (s : State) (n : Nat) (t : TaskSt) : State :=
  ((((s.discardStaging n).modCore n Core.toIdle).forgetTv n).decLive t.stream).modInst t.inst fun g =>
    g.modNode t.node fun x => { x with phase := .ready, asked := none }

theorem State.aborted_core (s : State) (n : Nat) (t : TaskSt) :
    (s.aborted n t).core n = ({ s.core n with staging := Staging.empty } : Core).toIdle := by
  refine ((State.alike_decLive _ _).core n).trans ?_
  show (((s.discardStaging n).modCore n Core.toIdle).core n) = _
  rw [State.core_modCore, State.discardStaging, State.core_modCore]
  rfl

theorem State.aborted_core_ne (s : State) {n m : Nat} (t : TaskSt) (h : m ≠ n) : (s.aborted n t).core m = s.core m := by
  refine ((State.alike_decLive _ _).core m).trans ?_
  show (((s.discardStaging n).modCore n Core.toIdle).core m) = _
  rw [State.core_modCore_ne _ _ h, State.discardStaging, State.core_modCore_ne _ _ h]
  rfl

theorem State.aborted_mem (s : State) (n : Nat) (t : TaskSt) : (s.aborted n t).mem = s.mem := (State.alike_decLive _ _).mem

theorem State.aborted_inst? (s : State) (n : Nat) (t : TaskSt) : (s.aborted n t).inst? t.inst =
    (s.inst? t.inst).map fun g => g.modNode t.node fun x => { x with phase := .ready, asked := none } := by
  refine (State.inst?_modInst _ _ (f := fun g => g.modNode t.node _) fun _ => rfl).trans ?_
  rw [(State.alike_decLive _ _).inst?]
  rfl

/-- In an instance that may go on an abort ends nothing: its node is ready again. -/
theorem State.abortTask_eq (ht : (s.core n).task = some t) (hs : s.sound t.inst t.node) : s.abortTask n = s.aborted n t := by
  have hsettle : (s.aborted n t).settle t.inst = s.aborted n t := by
    have hinst := s.aborted_inst? n t
    cases hg : s.inst? t.inst with
    | none => exact State.settle_none (by rw [hinst, hg]; rfl)
    | some g =>
      obtain ⟨hborn, hfault, hrev, hlt⟩ := hs g hg
      rw [hg] at hinst
      exact State.settle_going hinst hborn hfault hrev
        (GInst.modNode_same (x := g.nodes[t.node]) _ (List.getElem?_eq_getElem hlt)) rfl
  simp only [State.abortTask, ht]
  exact hsettle

theorem State.abortTask_isIdle (ht : (s.core n).task = some t) (hs : s.sound t.inst t.node) :
    ((s.abortTask n).core n).isIdle ∧ ((s.abortTask n).core n).staging = Staging.empty := by
  rw [State.abortTask_eq ht hs, State.aborted_core]
  exact ⟨Core.toIdle_isIdle _, rfl⟩

theorem exec_taskAbort (hb : s.byCore n) (ht : (s.core n).task = some t) (hs : (s.core n).suspended = false)
    (hp : t.pinned = false) :
    exec .taskAbort s = .next (((s.abortTask n).mapDie (dieOf n)).finishInstr (.core n) (some (s.core n).hart.pc)) := by
  refine runCore_ok hb ((heldTask_ok ht hs).bind ?_)
  simp only [Ok, hp, Bool.false_eq_true, if_false, M.run_bind_get, M.run_bind_modify, M.run_pure]

/-- An abort of an unpinned task, in an instance that may go on (R37). -/
theorem taskAbort_aborts (hb : s.byCore n) (ht : (s.core n).task = some t) (hsusp : (s.core n).suspended = false)
    (hp : t.pinned = false) (hs : s.sound t.inst t.node) :
    ∃ u : State, exec .taskAbort s = .next u ∧ (u.core n).isIdle ∧ (u.core n).staging = Staging.empty ∧
      (u.core n).fq = (s.core n).fq ∧ (u.core n).hart.pc = (s.core n).hart.pc ∧ (u.core n).hart.x = (s.core n).hart.x ∧
      (∀ m, m ≠ n → u.core m = s.core m) ∧ u.mem = s.mem ∧
      ∀ g x, s.inst? t.inst = some g → g.nodes[t.node]? = some x →
        ∃ g' x', u.inst? t.inst = some g' ∧ g'.nodes[t.node]? = some x' ∧ x'.phase = .ready ∧ x'.readyAt = x.readyAt := by
  have hmap := (s.aborted n t).alike_mapDie (dieOf n)
  obtain ⟨h, hcore, -, -, hpc, hx, -, -⟩ := ((s.aborted n t).mapDie (dieOf n)).core_finishInstr n (some (s.core n).hart.pc)
  rw [hmap.core, State.aborted_core] at hcore hx
  refine ⟨_, exec_taskAbort hb ht hsusp hp, ?_⟩
  rw [State.abortTask_eq ht hs]
  refine ⟨State.isIdle_finishInstr _ ?idle, ?staging, ?fq, ?pc, ?x, fun m hm => ?others, ?mem, fun g x hg hgx => ?node⟩
  case idle => rw [hmap.core, State.aborted_core]; exact Core.toIdle_isIdle _
  case staging => rw [hcore]; rfl
  case fq => rw [hcore]; rfl
  case pc => rw [hcore]; exact hpc
  case x => rw [hcore]; exact hx
  case others => rw [State.core_finishInstr_ne _ _ hm, hmap.core, State.aborted_core_ne _ _ hm]
  case mem => rw [State.finishInstr_mem, hmap.mem, State.aborted_mem]
  case node =>
    exact ⟨_, _, by rw [State.inst?_finishInstr, hmap.inst?, State.aborted_inst?, hg]; rfl, GInst.modNode_same _ hgx, rfl, rfl⟩

/-! ### Publication (R36, R38) -/

/-- Everything staged is published: its lines, then its decrements, then its launches. -/
theorem publishAll_ok {s1 s2 : State} (hlines : Ok (publishLines n) s () s1)
    (hlaunch : Ok ((s.core n).staging.launches.forM fun l => launchPacket l.1 l.2)
      ((s1.discardStaging n).applyDecs n (s.core n).staging.decs) () s2) : Ok (publishAll n) s () s2 := by
  have hpub : Ok (M.asPublish (publishLines n)) s () s1 := hlines.tryCatch
  rw [Ok, publishAll, M.run_bind_get, hpub.bind_run, M.run_bind_modify, M.run_bind_modify]
  exact hlaunch

theorem taskDirect_pins {s1 s2 : State} (hb : s.byCore n) (ht : (s.core n).task = some t) (hs : (s.core n).suspended = false)
    (hp : t.pinned = false) (hsusp : t.susp = true) (hlines : Ok (publishLines n) s () s1)
    (hlaunch : Ok ((s.core n).staging.launches.forM fun l => launchPacket l.1 l.2)
      ((s1.discardStaging n).applyDecs n (s.core n).staging.decs) () s2) :
    exec .taskDirect s = .next ((s2.modCore n fun c =>
      { c with task := c.task.map fun t => { t with pinned := true } }).fallThrough (.core n)) := by
  refine runCore_ok hb ((heldTask_ok ht hs).bind ?_)
  simp only [Ok, hp, hsusp, Bool.false_eq_true, Bool.true_eq_false, if_false, (publishAll_ok hlines hlaunch).bind_run,
    M.run_bind_modify, M.run_pure]

theorem taskDirect_pinned (hb : s.byCore n) (ht : (s.core n).task = some t) (hs : (s.core n).suspended = false)
    (hp : t.pinned = true) : exec .taskDirect s = .next (s.fallThrough (.core n)) := by
  refine runCore_ok hb ((heldTask_ok ht hs).bind ?_)
  simp only [Ok, hp, if_true, M.run_pure]

theorem taskDirect_unsuspendable (hb : s.byCore n) (ht : (s.core n).task = some t) (hs : (s.core n).suspended = false)
    (hp : t.pinned = false) (hsusp : t.susp = false) : exec .taskDirect s = .next (s.illegalAt (.core n)) := by
  refine runCore_trap hb ?_
  simp only [taskDirectOp, (heldTask_ok ht hs).bind_run, hp, hsusp, Bool.false_eq_true, if_false, if_true, run_bind_illegal]

theorem taskAbort_pinned (hb : s.byCore n) (ht : (s.core n).task = some t) (hs : (s.core n).suspended = false)
    (hp : t.pinned = true) : exec .taskAbort s = .next (s.illegalAt (.core n)) := by
  refine runCore_trap hb ?_
  simp only [taskAbortOp, (heldTask_ok ht hs).bind_run, hp, if_true, run_bind_illegal]

/-! ### The pre-emption point (R300, R304, R345) -/

theorem taskYield_nonePending (hb : s.byCore n) (ht : (s.core n).task = some t) (hs : (s.core n).suspended = false)
    (hp : t.pend = none) : exec .taskYield s = .next (s.fallThrough (.core n)) := by
  refine runCore_ok hb ((heldTask_ok ht hs).bind ?_)
  simp only [Ok, hp, if_true, M.run_pure]

theorem taskYield_waits (hb : s.byCore n) (ht : (s.core n).task = some t) (hs : (s.core n).suspended = false)
    (hp : t.pend ≠ none) (ha : s.abortsInstead n = false) (hq : (s.core n).quiet = false) :
    exec .taskYield s = .next (s.enterWait (.core n) .yield_) := by
  refine runCore_wait hb (t := s) ?_
  simp only [taskYieldOp, (heldTask_ok ht hs).bind_run, if_neg hp, M.run_bind_get, ha, hq, and_self, if_true, M.run_bind_throw]

/-- A yield that does not wait carries the pre-emption out, once the core's stores are performed. -/
theorem taskYield_preempts {s1 : State} (hb : s.byCore n) (ht : (s.core n).task = some t) (hs : (s.core n).suspended = false)
    (hp : t.pend ≠ none) (hready : ¬(s.abortsInstead n = false ∧ (s.core n).quiet = false)) (hd : Ok (drainAll n) s () s1) :
    let v := s1.preempt n ((s.core n).hart.pc + BitVec.ofNat 64 s.ilen)
    exec .taskYield s = .next (v.finishInstr (.core n) (some (v.core n).hart.pc)) := by
  refine runCore_ok hb ((heldTask_ok ht hs).bind ?_)
  simp only [Ok, if_neg hp, M.run_bind_get, if_neg hready, hd.bind_run, M.run_bind_set, M.run_pure]

/-- What a suspension leaves of the core: x1 to x31 and the resume address in the bank, the engines frozen (R304). -/
theorem State.suspend_core (s : State) (n : Nat) (pc : W64) : ∃ R, (s.suspend n pc).core n =
    { s.core n with rings := R, suspRegs := (s.core n).hart.x, suspPc := pc, suspended := true, frozen := true } :=
  ⟨_, State.core_modCore ..⟩

theorem Hart.csrRaw_setCsrBits_ne (h : Hart) {k j : Nat} (hi lo v : Nat) (hj : j ≠ k) :
    (h.setCsrBits k hi lo v).csrRaw j = h.csrRaw j := Hart.csrRaw_setCsrRaw_ne _ _ hj

theorem Hart.csrRaw_jump (h : Hart) (p : Priv) (pc : W64) (w : Option WaitSt) (k : Nat) :
    ({ h with priv := p, pc := pc, wait := w } : Hart).csrRaw k = h.csrRaw k := rfl

/-- Entry of the S-mode handler with the word of `scause` given, which keeps the interrupt bit 2^63 out of the proofs. -/
def Hart.enterSWith (h : Hart) (cause : W64) (pc : W64) : Hart :=
  { (((((h.setCsrRaw 0x141 h.pc).setCsrRaw 0x142 cause).setCsrRaw 0x143 0).setCsrBits mstatusN 8 8 (if h.priv = .s then 1 else 0)).setCsrBits
      mstatusN 5 5 (b2n (h.csrBit mstatusN 1))).setCsrBits mstatusN 1 1 0 with priv := .s, pc := pc, wait := none }

theorem Hart.enterS_eq (h : Hart) (code : Nat) :
    h.enterS code = h.enterSWith (BitVec.ofNat 64 (code + 2 ^ 63)) (vectorPc (h.csrRaw 0x105) true code) := rfl

section
variable (h : Hart) (cause pc : W64)

/-- Entering the S-mode handler writes `sepc`, `scause`, `stval` and `mstatus`. -/
theorem Hart.csrRaw_enterSWith {k : Nat} (hk : k ≠ 0x141 ∧ k ≠ 0x142 ∧ k ≠ 0x143 ∧ k ≠ mstatusN) :
    (h.enterSWith cause pc).csrRaw k = h.csrRaw k := by
  obtain ⟨h1, h2, h3, h4⟩ := hk
  simp only [Hart.enterSWith, Hart.csrRaw_jump, Hart.csrRaw_setCsrBits_ne _ _ _ _ h4, Hart.csrRaw_setCsrRaw_ne _ _ h1,
    Hart.csrRaw_setCsrRaw_ne _ _ h2, Hart.csrRaw_setCsrRaw_ne _ _ h3]

theorem Hart.csrRaw_enterSWith_scause : (h.enterSWith cause pc).csrRaw 0x142 = cause := by
  have hm : 0x142 ≠ mstatusN := by decide
  have hv : 0x142 ≠ 0x143 := by decide
  simp only [Hart.enterSWith, Hart.csrRaw_jump, Hart.csrRaw_setCsrBits_ne _ _ _ _ hm, Hart.csrRaw_setCsrRaw_ne _ _ hv,
    Hart.csrRaw_setCsrRaw]

theorem Hart.csrRaw_enterSWith_sepc : (h.enterSWith cause pc).csrRaw 0x141 = h.pc := by
  have hm : 0x141 ≠ mstatusN := by decide
  have hv : 0x141 ≠ 0x143 := by decide
  have hc : 0x141 ≠ 0x142 := by decide
  simp only [Hart.enterSWith, Hart.csrRaw_jump, Hart.csrRaw_setCsrBits_ne _ _ _ _ hm, Hart.csrRaw_setCsrRaw_ne _ _ hv,
    Hart.csrRaw_setCsrRaw_ne _ _ hc, Hart.csrRaw_setCsrRaw]

end

/-- The hart of a core whose task is being suspended: `shinfo` holds SAVE, the request is taken back, and the handler is entered (R345). -/
def Hart.forSuspension (h : Hart) (save : Nat) (pc : W64) : Hart :=
  ({ (h.setCsrRaw 0x5C4 (BitVec.ofNat 64 save)).setCsrBits 0x344 16 16 0 with pc := pc } : Hart).enterS 16

theorem Hart.csrRaw_setPc (h : Hart) (pc : W64) (k : Nat) : ({ h with pc := pc } : Hart).csrRaw k = h.csrRaw k := rfl

theorem Hart.csrRaw_forSuspension_shinfo (h : Hart) (save : Nat) (pc : W64) :
    (h.forSuspension save pc).csrRaw 0x5C4 = BitVec.ofNat 64 save := by
  have hp : 0x5C4 ≠ 0x344 := by decide
  rw [Hart.forSuspension, Hart.enterS_eq, Hart.csrRaw_enterSWith _ _ _ (by decide), Hart.csrRaw_setPc, Hart.csrRaw_setCsrBits_ne _ _ _ _ hp,
    Hart.csrRaw_setCsrRaw]

theorem State.preempt_core (ha : s.abortsInstead n = false) (ht : (s.core n).task = some t) (pc : W64) :
    ∃ R, (s.preempt n pc).core n =
      { s.core n with rings := R, suspRegs := (s.core n).hart.x, suspPc := pc, suspended := true, frozen := true
                      hart := (s.core n).hart.forSuspension t.save pc } := by
  obtain ⟨R, hR⟩ := s.suspend_core n pc
  refine ⟨R, ?_⟩
  simp only [State.preempt, ha, Bool.false_eq_true, if_false, State.core_modCore, hR, ht]
  rfl

theorem State.preempt_core_ne {m : Nat} (ha : s.abortsInstead n = false) (pc : W64) (h : m ≠ n) :
    (s.preempt n pc).core m = s.core m := by
  simp only [State.preempt, ha, Bool.false_eq_true, if_false, State.core_modCore_ne _ _ h, State.suspend]

theorem State.preempt_mem (ha : s.abortsInstead n = false) (pc : W64) : (s.preempt n pc).mem = s.mem := by
  simp only [State.preempt, ha, Bool.false_eq_true, if_false, State.modCore_mem, State.suspend]

/-- A yield of a task that is suspended (R304, R345). -/
theorem taskYield_suspends {s1 : State} (hb : s.byCore n) (ht : (s.core n).task = some t) (hs : (s.core n).suspended = false)
    (hp : t.pend ≠ none) (hd : Ok (drainAll n) s () s1) (ht1 : (s1.core n).task = some t) (hh : (s1.core n).hart = (s.core n).hart)
    (ha1 : s1.abortsInstead n = false) (hq : (s.core n).quiet = true) :
    ∃ u : State, exec .taskYield s = .next u ∧ (u.core n).suspended = true ∧ (u.core n).frozen = true ∧ (u.core n).task = some t ∧
      (u.core n).suspRegs = (s.core n).hart.x ∧ (u.core n).suspPc = (s.core n).hart.pc + BitVec.ofNat 64 s.ilen ∧
      (u.core n).hart.priv = .s ∧ (u.core n).hart.csrRaw 0x5C4 = BitVec.ofNat 64 t.save ∧
      (u.core n).hart.csrRaw 0x142 = BitVec.ofNat 64 (2 ^ 63 + 16) ∧
      (u.core n).hart.csrRaw 0x141 = (s.core n).hart.pc + BitVec.ofNat 64 s.ilen ∧
      (u.core n).sems = (s1.core n).sems ∧ (u.core n).v = (s1.core n).v ∧ (u.core n).acc = (s1.core n).acc ∧ u.mem = s1.mem ∧
      ∀ m, m ≠ n → u.core m = s1.core m := by
  have hexec := taskYield_preempts hb ht hs hp (fun h => by simp [hq] at h) hd
  obtain ⟨R, hR⟩ := State.preempt_core ha1 ht1 ((s.core n).hart.pc + BitVec.ofNat 64 s.ilen)
  dsimp only at hexec
  generalize hv : s1.preempt n ((s.core n).hart.pc + BitVec.ofNat 64 s.ilen) = v at hexec hR
  generalize some (v.core n).hart.pc = pc at hexec
  obtain ⟨h, hcore, -, -, -, -, hpriv, hcsr⟩ := v.core_finishInstr n pc
  rw [hR] at hcore hpriv hcsr
  refine ⟨_, hexec, ?_⟩
  rw [hcore]
  refine ⟨rfl, rfl, ht1, congrArg Hart.x hh, rfl, hpriv, ?shinfo, ?scause, ?sepc, rfl, rfl, rfl, ?mem, fun m hm => ?others⟩
  case shinfo =>
    rw [hcsr _ (by decide), Hart.csrRaw_forSuspension_shinfo]
  case scause => rw [hcsr _ (by decide), Hart.forSuspension, Hart.enterS_eq, Hart.csrRaw_enterSWith_scause, Nat.add_comm]
  case sepc => rw [hcsr _ (by decide), Hart.forSuspension, Hart.enterS_eq, Hart.csrRaw_enterSWith_sepc]
  case mem => rw [State.finishInstr_mem, ← hv, State.preempt_mem ha1]
  case others => rw [State.core_finishInstr_ne _ _ hm, ← hv, State.preempt_core_ne ha1 _ hm]

/-- A yield of a task that cannot be suspended aborts it (R345). -/
theorem taskYield_aborts {s1 : State} (hb : s.byCore n) (ht : (s.core n).task = some t) (hs : (s.core n).suspended = false)
    (hp : t.pend ≠ none) (hd : Ok (drainAll n) s () s1) (ht1 : (s1.core n).task = some t) (ha : s.abortsInstead n = true)
    (ha1 : s1.abortsInstead n = true) (hsound : s1.sound t.inst t.node) :
    ∃ u : State, exec .taskYield s = .next u ∧ (u.core n).isIdle ∧ (u.core n).staging = Staging.empty := by
  have hexec := taskYield_preempts hb ht hs hp (fun h => by simp [ha] at h) hd
  obtain ⟨hidle, hempty⟩ := State.abortTask_isIdle ht1 hsound
  simp only [State.preempt, ha1, if_true] at hexec
  refine ⟨_, hexec, State.isIdle_finishInstr _ hidle, ?_⟩
  obtain ⟨h, hcore, -⟩ := (s1.abortTask n).core_finishInstr n (some ((s1.abortTask n).core n).hart.pc)
  rw [hcore]
  exact hempty

end

/-- Settles O26, case by case of the four task instructions. -/
theorem taskPoints : Obligations.TaskPoints := by
  refine ⟨fun s n hb => ⟨taskOps_none hb, fun t ht hs => ⟨fun hp => ?pinned, taskAbort_aborts hb ht hs, fun hp hsusp s1 s2 hl hla => ?direct,
      taskYield_nonePending hb ht hs, taskDirect_unsuspendable hb ht hs⟩⟩,
    fun s n t hb ht hs hp ha hq => taskYield_waits hb ht hs hp ha hq, fun s s1 n t hb ht hs hp hd ht1 hh => ⟨?aborts, ?suspends⟩⟩
  case pinned => exact ⟨taskAbort_pinned hb ht hs hp, taskDirect_pinned hb ht hs hp⟩
  case direct => exact ⟨_, taskDirect_pins hb ht hs hp hsusp hl hla, s2.onlyCore_modCore n _⟩
  case aborts => exact fun ha ha1 hsound => taskYield_aborts hb ht hs hp hd ht1 ha ha1 hsound
  case suspends => exact fun _ ha1 hq => taskYield_suspends hb ht hs hp hd ht1 hh ha1 hq

end Sys2Proof.Machine
end

section
/-! SUPPORT. Releases of nodes (R39, R342): what one release, a list of releases, the end of a pass and a node whose counter reaches zero do. -/
namespace Sys2Proof.Machine

/-! ### Counters -/

@[simp] theorem State.ctr_setCtr (s : State) (k v : Nat) : (s.setCtr k v).ctr k = v % 65536 := by
  simp [State.ctr, State.setCtr]

theorem State.ctr_setCtr_ne (s : State) {k j : Nat} (v : Nat) (h : j ≠ k) : (s.setCtr k v).ctr j = s.ctr j := by
  simp only [State.ctr, State.setCtr, Table.get_put_ne _ _ h]

theorem State.ctr_lt (s : State) (k : Nat) : s.ctr k < 65536 := (Table.get (0 : W16) s.depCnt k).isLt

/-- A counter that is counted down by one, which it can be. -/
theorem State.ctr_setCtr_pred (s : State) (k : Nat) : (s.setCtr k (s.ctr k - 1)).ctr k = s.ctr k - 1 := by
  rw [State.ctr_setCtr, Nat.mod_eq_of_lt (Nat.lt_of_le_of_lt (Nat.sub_le _ _) (s.ctr_lt k))]

/-! ### Memory and cores stand -/

/-- `t` has the memory, the cores and the time of `s`. -/
structure State.Still (s t : State) : Prop where
  mem : t.mem = s.mem
  cores : t.cores = s.cores
  time : t.datum9 = s.datum9

theorem State.Still.refl (s : State) : s.Still s := ⟨rfl, rfl, rfl⟩

theorem State.Still.trans {s t u : State} (h : s.Still t) (k : t.Still u) : s.Still u :=
  ⟨k.mem.trans h.mem, k.cores.trans h.cores, k.time.trans h.time⟩

theorem State.Still.datum {s t : State} (h : s.Still t) (d : Nat) : t.datum d = s.datum d := by
  simp only [State.datum, State.hubDatum, h.time]

theorem State.Alike.still {s t : State} (h : s.Alike t) : s.Still t := ⟨h.mem, h.cores, h.time⟩

theorem State.still_modInst (s : State) (id : Nat) (f : GInst → GInst) : s.Still (s.modInst id f) := ⟨rfl, rfl, rfl⟩

theorem State.still_setCtr (s : State) (k v : Nat) : s.Still (s.setCtr k v) := ⟨rfl, rfl, rfl⟩

/-! ### The end of passes -/

/-- Node `x` is a while node whose pass has come to its end. -/
def GInst.passDone (g : GInst) (x : NodeSt) : Bool :=
  x.kind == 4 && x.phase == .running && (g.nodes.zipIdx.filter fun q => x.holds q.2).all fun q => q.1.phase.ended

/-- From `g` to `g'` some while nodes whose pass has ended became ready again, and nothing else of the instance changed. -/
structure GInst.Passed (g g' : GInst) : Prop where
  same : g' = { g with nodes := g'.nodes }
  length : g'.nodes.length = g.nodes.length
  node : ∀ (i : Nat) (x : NodeSt), g.nodes[i]? = some x → g'.nodes[i]? = some x ∨ (g.passDone x = true ∧ g'.nodes[i]? = some { x with phase := .ready })

theorem GInst.Passed.refl (g : GInst) : g.Passed g := ⟨rfl, rfl, fun _ _ h => .inl h⟩

theorem GInst.Passed.ready {g g' : GInst} {i : Nat} {x : NodeSt} (h : g.Passed g') (hx : g.nodes[i]? = some x)
    (hdone : g.passDone x = true) : g.Passed (g'.modNode i fun x => { x with phase := .ready }) where
  same := by rw [h.same]; rfl
  length := by rw [GInst.modNode, List.length_modify, h.length]
  node j y hy := by
    by_cases hji : j = i
    · subst hji
      obtain rfl : x = y := by simpa [hx] using hy
      right
      rcases h.node _ _ hx with hg' | ⟨-, hg'⟩
      · exact ⟨hdone, by rw [GInst.modNode_same _ hg']⟩
      · exact ⟨hdone, by rw [GInst.modNode_same _ hg']⟩
    · rw [GInst.modNode_ne _ _ hji]
      exact h.node j y hy

theorem GInst.Passed.node_of_not_running {g g' : GInst} {i : Nat} {x : NodeSt} (h : g.Passed g') (hx : g.nodes[i]? = some x)
    (hrun : x.phase ≠ .running) : g'.nodes[i]? = some x :=
  (h.node i x hx).resolve_right fun ⟨hdone, _⟩ => by simp [GInst.passDone, hrun] at hdone

/-- The end of passes touches the instance alone. -/
theorem State.passEnds_spec {s : State} {id : Nat} {g : GInst} (h : s.inst? id = some g) :
    s.Still (s.passEnds id) ∧ (∀ k, (s.passEnds id).ctr k = s.ctr k) ∧ ∃ g', (s.passEnds id).inst? id = some g' ∧ g.Passed g' := by
  simp only [State.passEnds, h]
  refine List.foldlRecOn (motive := fun t => s.Still t ∧ (∀ k, t.ctr k = s.ctr k) ∧ ∃ g', t.inst? id = some g' ∧ g.Passed g')
    _ _ ⟨.refl s, fun _ => rfl, g, h, .refl g⟩ fun t ht p hp => ?_
  obtain ⟨hstill, hctr, g', hg', hpass⟩ := ht
  split
  next hdone =>
    exact ⟨hstill.trans (t.still_modInst _ _), hctr, _, State.inst?_modNode hg' _ _,
      hpass.ready (List.mk_mem_zipIdx_iff_getElem?.mp hp) hdone⟩
  next => exact ⟨hstill, hctr, g', hg', hpass⟩

/-! ### One release -/

/-- A node that is released: a plain release is noted. -/
def NodeSt.noted (skip : Bool) (x : NodeSt) : NodeSt := { x with plain := x.plain || !skip }

/-- A release takes one off the counter and notes a plain release. -/
def State.counted (s : State) (id : Nat) (g : GInst) (i : Nat) (skip : Bool) : State :=
  (s.setCtr (g.ctrOf i) (s.ctr (g.ctrOf i) - 1)).modInst id fun g => g.modNode i (NodeSt.noted skip)

section
variable {s : State} {id i : Nat} {g : GInst} {skip : Bool}

theorem State.still_counted : s.Still (s.counted id g i skip) := ⟨rfl, rfl, rfl⟩

theorem State.ctr_counted : (s.counted id g i skip).ctr (g.ctrOf i) = s.ctr (g.ctrOf i) - 1 := State.ctr_setCtr_pred ..

theorem State.ctr_counted_ne {k : Nat} (hk : k ≠ g.ctrOf i) : (s.counted id g i skip).ctr k = s.ctr k := State.ctr_setCtr_ne _ _ hk

theorem State.inst?_counted (h : s.inst? id = some g) :
    (s.counted id g i skip).inst? id = some (g.modNode i (NodeSt.noted skip)) :=
  State.inst?_modNode (s := s.setCtr _ _) h _ _

/-- A release that is not its node's last. -/
theorem State.release1_more (h : s.inst? id = some g) (hc : 1 < s.ctr (g.ctrOf i)) :
    s.release1 id i skip = (s.counted id g i skip, []) := by
  have hleft : (s.counted id g i skip).ctr (g.ctrOf i) ≠ 0 := by rw [State.ctr_counted]; omega
  have hc0 : s.ctr (g.ctrOf i) ≠ 0 := by omega
  simp only [State.release1, h, if_neg hc0]
  exact if_neg hleft

/-- A node's last release. -/
theorem State.release1_last (h : s.inst? id = some g) (hc : s.ctr (g.ctrOf i) = 1) :
    s.release1 id i skip = (s.counted id g i skip).nodeZero id i := by
  have hleft : (s.counted id g i skip).ctr (g.ctrOf i) = 0 := by rw [State.ctr_counted, hc]
  have hc0 : s.ctr (g.ctrOf i) ≠ 0 := by omega
  simp only [State.release1, h, if_neg hc0]
  exact if_pos hleft

end

/-! ### A node that becomes ready -/

/-- In `u` a task more may be pending pre-emption than in `s` (R345). -/
def State.Pended (s u : State) : Prop := u = s ∨ ∃ n, u = s.makePending n

section
variable {s u : State} (h : s.Pended u)
include h

theorem State.Pended.mem : u.mem = s.mem := by
  rcases h with rfl | ⟨n, rfl⟩
  · rfl
  · exact State.modCore_mem ..

theorem State.Pended.ctr (k : Nat) : u.ctr k = s.ctr k := by
  rcases h with rfl | ⟨n, rfl⟩
  · rfl
  · rw [State.ctr, State.makePending, State.modCore_depCnt, State.ctr]

theorem State.Pended.inst? (id : Nat) : u.inst? id = s.inst? id := by
  rcases h with rfl | ⟨n, rfl⟩
  · rfl
  · rw [State.inst?, State.makePending, State.modCore_insts, State.inst?]

end

/-- What the pre-emption for a node that became ready may change: the pending pre-emptions of tasks. -/
theorem State.pended_preemptFor (s : State) (d p : Nat) : s.Pended (s.preemptFor d p) := by
  unfold State.preemptFor
  dsimp only
  split
  · exact .inl rfl
  · split
    · exact .inr ⟨_, rfl⟩
    · exact .inl rfl

/-- Node `i` is made ready at the time of its die. -/
def State.readied (s : State) (id i : Nat) : State :=
  s.modInst id fun g => g.modNode i fun x => { x with phase := .ready, readyAt := s.datum g.die }

/-- A node with a plain release becomes ready; its task may make another pend (R342, R345). -/
theorem State.nodeZero_plain {s : State} {id i : Nat} {g : GInst} {x : NodeSt} (h : s.inst? id = some g)
    (hx : g.nodes[i]? = some x) (hp : x.plain = true) :
    ∃ u, s.nodeZero id i = (u, []) ∧ (s.readied id i).Pended u := by
  have hstep : s.nodeZero id i =
      (if x.kind = 1 then (s.readied id i).preemptFor g.die g.prio else s.readied id i, []) := by
    simp only [State.nodeZero, h, hx, hp, if_true, State.readied]
  rw [hstep]
  refine ⟨_, rfl, ?_⟩
  split
  · exact State.pended_preemptFor ..
  · exact .inl rfl

theorem State.ctr_readied (s : State) (id i k : Nat) : (s.readied id i).ctr k = s.ctr k := rfl

theorem State.inst?_readied {s : State} {id i : Nat} {g : GInst} (h : s.inst? id = some g) :
    (s.readied id i).inst? id = some (g.modNode i fun x => { x with phase := .ready, readyAt := s.datum g.die }) := by
  rw [State.readied, State.inst?_modInst s id (f := fun g => g.modNode i _) fun _ => rfl, h]
  rfl

@[simp] theorem releaseLoop_nil (id fuel : Nat) (s : State) : releaseLoop id fuel [] s = s := by
  cases fuel <;> rfl

theorem releaseLoop_cons (id fuel i : Nat) (skip : Bool) (rest : List (Nat × Bool)) (s : State) :
    releaseLoop id (fuel + 1) ((i, skip) :: rest) s = releaseLoop id fuel (rest ++ (s.release1 id i skip).2) (s.release1 id i skip).1 := rfl

/-- The fuel of a list of releases is enough for each of them. -/
theorem State.releaseAll_eq {s : State} {id : Nat} {g : GInst} (l : List (Nat × Bool)) (h : s.inst? id = some g) :
    ∃ fuel, l.length ≤ fuel ∧ s.releaseAll id l = ((releaseLoop id fuel l s).passEnds id).settle id := by
  refine ⟨l.length + (g.nodes.map fun x => x.nsuc.length + x.nelse.length).sum + 1, by omega, ?_⟩
  simp only [State.releaseAll, h]

end Sys2Proof.Machine
end

section
/-! SUPPORT. `cond.set`, `dep.dec` and `graph.launch` (R33, R301), and the decrement of a counter (R39, R342). -/
namespace Sys2Proof.Machine

/-! ### The instructions -/

theorem run_bind_stops {α β : Type} {m : M α} {f : α → M β} {s t : State} {e : Stop} (h : m.run s = (.error e, t)) :
    (m >>= f).run s = (.error e, t) := by rw [M.run_bind, h]

theorem State.effScope_num_pos (s : State) (pa : Nat) : 1 ≤ (s.effScope pa .pkg).num := by
  unfold State.effScope
  split
  · decide
  · decide
  · decide

section
variable {s : State} {n : Nat} {r1 r2 : Reg}

theorem condSet_misaligned (hb : s.byCore n) (h : ((s.core n).hart.get r1).toNat % 8 ≠ 0) :
    exec (.condSet r1 r2) s = .next (s.takeTrap (.core n) { code := 6, tval := ((s.core n).hart.get r1).toNat }) := by
  refine runCore_trap hb ?_
  simp only [condSetOp, M.run_bind_get, releaseStore, if_pos h, bind_assoc, run_bind_trapM]

/-- A condition word that is staged or queued is an ordinary store. -/
theorem condSet_staged {ph : Phys} {s0 t : State} (hb : s.byCore n) (h : ¬((s.core n).hart.get r1).toNat % 8 ≠ 0)
    (hx : Ok (translateHart (.core n) .store ((s.core n).hart.get r1).toNat) s ph s0) (hnow : s0.storesNow n ph = false)
    (hst : Ok (storeM (.core n) ((s.core n).hart.get r1).toNat (leBytes 8 ((s.core n).hart.get r2).toNat)) s0 () t) :
    exec (.condSet r1 r2) s = .next (t.fallThrough (.core n)) := by
  have hrel : Ok (releaseStore false .pkg ((s.core n).hart.get r1).toNat ((s.core n).hart.get r2) n) s () t := by
    simp only [Ok, releaseStore, if_neg h, Bool.false_eq_true, if_false, (hx.asAccess _ _).bind_run, M.run_bind_get, hnow, if_true]
    exact hst
  exact runCore_ok hb (by simp only [Ok, condSetOp, M.run_bind_get, hrel.bind_run, M.run_pure])

/-- A condition word performed at once is a release (R301). -/
theorem condSet_performed {ph : Phys} {s0 s1 s2 t : State} (hb : s.byCore n) (h : ¬((s.core n).hart.get r1).toNat % 8 ≠ 0)
    (hx : Ok (translateHart (.core n) .store ((s.core n).hart.get r1).toNat) s ph s0) (hnow : s0.storesNow n ph = true)
    (hrel : Ok (releaseAt n (s0.effScope ph.pa .pkg)) s0 () s1)
    (hst : Ok (storeM (.core n) ((s.core n).hart.get r1).toNat (leBytes 8 ((s.core n).hart.get r2).toNat)) s1 () s2)
    (hmark : Ok (markRelease n ph.pa (s1.core n).sq.length (s0.effScope ph.pa .pkg)) s2 () t) :
    exec (.condSet r1 r2) s = .next (t.fallThrough (.core n)) := by
  have hall : Ok (releaseStore false .pkg ((s.core n).hart.get r1).toNat ((s.core n).hart.get r2) n) s () t := by
    simp only [Ok, releaseStore, if_neg h, Bool.false_eq_true, if_false, (hx.asAccess _ _).bind_run, M.run_bind_get, hnow,
      Bool.true_eq_false, hrel.bind_run, false_and, Bool.false_and, hst.bind_run, if_pos (s0.effScope_num_pos ph.pa), hmark.bind_run,
      M.run_pure]
  exact runCore_ok hb (by simp only [Ok, condSetOp, M.run_bind_get, hall.bind_run, M.run_pure])

theorem depDec_performed (hb : s.byCore n) (h : (s.core n).stages = false) :
    exec (.depDec r1) s =
      .next ((s.decrementCtr (dieOf n) (((s.core n).hart.get r1).toNat % 4096) false).fallThrough (.core n)) := by
  refine runCore_ok hb ?_
  simp only [Ok, depDecOp, M.run_bind_get, h, Bool.false_eq_true, if_false, M.run_bind_modify, M.run_pure, bits_eq_div_mod]
  simp

/-- Room for what is to be staged, where there is some. -/
theorem needRoom_ok {l : List Room} (h : (s.core n).roomWith l ≤ 65536) : Ok (needRoom n l) s () s := by
  simp only [Ok, needRoom, M.run_bind_get, if_neg (Nat.not_lt.mpr h), M.run_pure]

/-- One more decrement of counter `k` is staged. -/
def State.decStaged (s : State) (n k : Nat) : State :=
  s.modCore n fun c =>
    { c with staging := { c.staging with decs := Table.put 0 c.staging.decs k (Table.get 0 (s.core n).staging.decs k + 1) } }

theorem stageDec_ok {k : Nat} (h : Table.get 0 (s.core n).staging.decs k ≠ 0 ∨ (s.core n).roomWith [.counter k] ≤ 65536) :
    Ok (stageDec n k) s () (s.decStaged n k) := by
  by_cases hk : Table.get 0 (s.core n).staging.decs k = 0
  · simp only [Ok, stageDec, M.run_bind_get, if_pos hk, (needRoom_ok (h.resolve_left (not_not.mpr hk))).bind_run, M.run_modify, State.decStaged]
  · simp only [Ok, stageDec, M.run_bind_get, if_neg hk, M.run_modify, State.decStaged]

theorem stageDec_full {k : Nat} (hk : Table.get 0 (s.core n).staging.decs k = 0) (h : 65536 < (s.core n).roomWith [.counter k]) :
    ∃ f : Flt, f.cause = 14 ∧ (stageDec n k).run s = (.error (.flt f), s) := by
  refine ⟨{ cause := 14, detail := 0, aux := (s.core n).staging.lacks [.counter k] }, rfl, ?_⟩
  have hroom : (needRoom n [.counter k]).run s = (.error (.flt { cause := 14, detail := 0, aux := (s.core n).staging.lacks [.counter k] }), s) := by
    simp only [needRoom, M.run_bind_get, if_pos h]
    rfl
  simp only [stageDec, M.run_bind_get, if_pos hk, run_bind_stops hroom]

/-- A staging overflow is the trap of code 27 with cause 14, and is not in the error log. -/
theorem asAccess_overflow {α : Type} {m : M α} {f : Flt} {k : AccKind} {va : Nat} (hf : f.cause = 14)
    (h : m.run s = (.error (.flt f), s)) :
    (M.asAccess k va m).run s = (.error (.trap { code := 27, tval := va, cause := 14 }), s) := by
  rw [M.asAccess, M.run_tryCatch, h]
  simp only [M.run_bind_modify, M.run_bind_get, Flt.toTrap, State.reportFlt, hf]
  rfl

theorem depDec_staged (hb : s.byCore n) (h : (s.core n).stages = true)
    (hroom : Table.get 0 (s.core n).staging.decs (((s.core n).hart.get r1).toNat % 4096) ≠ 0 ∨
      (s.core n).roomWith [.counter (((s.core n).hart.get r1).toNat % 4096)] ≤ 65536) :
    exec (.depDec r1) s = .next ((s.decStaged n (((s.core n).hart.get r1).toNat % 4096)).fallThrough (.core n)) := by
  refine runCore_ok hb ?_
  have hbits : bits ((s.core n).hart.get r1).toNat 11 0 = ((s.core n).hart.get r1).toNat % 4096 := by simp [bits_eq_div_mod]
  simp only [Ok, depDecOp, M.run_bind_get, h, if_true, hbits, ((stageDec_ok hroom).asAccess _ _).bind_run, M.run_pure]

theorem depDec_overflows (hb : s.byCore n) (h : (s.core n).stages = true)
    (hk : Table.get 0 (s.core n).staging.decs (((s.core n).hart.get r1).toNat % 4096) = 0)
    (hroom : 65536 < (s.core n).roomWith [.counter (((s.core n).hart.get r1).toNat % 4096)]) :
    exec (.depDec r1) s = .next (s.takeTrap (.core n) { code := 27, tval := 0, cause := 14 }) := by
  refine runCore_trap hb ?_
  have hbits : bits ((s.core n).hart.get r1).toNat 11 0 = ((s.core n).hart.get r1).toNat % 4096 := by simp [bits_eq_div_mod]
  obtain ⟨f, hf, hrun⟩ := stageDec_full hk hroom
  simp only [depDecOp, M.run_bind_get, h, if_true, hbits, run_bind_stops (asAccess_overflow hf hrun)]

theorem graphLaunch_misaligned (hb : s.byCore n) (h : ((s.core n).hart.get r1).toNat % 64 ≠ 0) :
    exec (.graphLaunch r1) s = .next (s.takeTrap (.core n) { code := 4, tval := ((s.core n).hart.get r1).toNat }) := by
  refine runCore_trap hb ?_
  simp only [graphLaunchOp, M.run_bind_get, if_pos h, run_bind_trapM]

theorem graphLaunch_staged {p : List Byte} {s1 : State} (hb : s.byCore n) (h : ¬((s.core n).hart.get r1).toNat % 64 ≠ 0)
    (hp : Ok (loadM (.core n) ((s.core n).hart.get r1).toNat 64) s p s1) (hst : (s1.core n).stages = true)
    (hroom : (s1.core n).roomWith [.launch] ≤ 65536) :
    exec (.graphLaunch r1) s = .next ((s1.modCore n fun c => { c with staging := { c.staging with
      launches := c.staging.launches ++ [((s1.recCtx n).1, p)] } }).fallThrough (.core n)) := by
  refine runCore_ok hb ?_
  simp only [Ok, graphLaunchOp, M.run_bind_get, if_neg h, hp.bind_run, hst, if_true, ((needRoom_ok hroom).asAccess _ _).bind_run,
    M.run_bind_modify, M.run_pure]

theorem graphLaunch_performed {p : List Byte} {s1 s2 t : State} (hb : s.byCore n) (h : ¬((s.core n).hart.get r1).toNat % 64 ≠ 0)
    (hp : Ok (loadM (.core n) ((s.core n).hart.get r1).toNat 64) s p s1) (hst : (s1.core n).stages = false)
    (hrel : Ok (releaseAt n .pkg) s1 () s2) (hl : Ok (launchPacket (s1.recCtx n).1 p) s2 () t) :
    exec (.graphLaunch r1) s = .next (t.fallThrough (.core n)) := by
  refine runCore_ok hb ?_
  simp only [Ok, graphLaunchOp, M.run_bind_get, if_neg h, hp.bind_run, hst, Bool.false_eq_true, if_false, hrel.bind_run, hl.bind_run,
    M.run_pure]

end

/-! ### The decrement of a counter -/

/-- After a release that leaves its node waiting or ready, the passes and the instance's end touch the instance alone, and not the node. -/
theorem State.afterRelease {s : State} {id i : Nat} {g : GInst} {x : NodeSt} (h : s.inst? id = some g) (hborn : g.born = true)
    (hfault : g.fault = none) (hrev : g.revoked = false) (hx : g.nodes[i]? = some x) (hend : x.phase.ended = false)
    (hrun : x.phase ≠ .running) : let t := (s.passEnds id).settle id
    s.Still t ∧ (∀ k, t.ctr k = s.ctr k) ∧ ∃ g', t.inst? id = some g' ∧ g.Passed g' ∧ g'.nodes[i]? = some x := by
  obtain ⟨hstill, hctr, g', hg', hpass⟩ := State.passEnds_spec h
  have hx' := hpass.node_of_not_running hx hrun
  dsimp only
  rw [State.settle_going hg' (by rw [hpass.same]; exact hborn) (by rw [hpass.same]; exact hfault)
    (by rw [hpass.same]; exact hrev) hx' hend]
  exact ⟨hstill, hctr, g', hg', hpass, hx'⟩

/-- A list of one release. -/
theorem State.releaseAll_one {s u : State} {id i : Nat} {g : GInst} {skip : Bool} (h : s.inst? id = some g)
    (hrel : s.release1 id i skip = (u, [])) : s.releaseAll id [(i, skip)] = (u.passEnds id).settle id := by
  obtain ⟨fuel, hfuel, heq⟩ := State.releaseAll_eq [(i, skip)] h
  obtain ⟨k, rfl⟩ : ∃ k, fuel = k + 1 := ⟨fuel - 1, by simp at hfuel; omega⟩
  rw [heq, releaseLoop_cons, hrel, List.append_nil, releaseLoop_nil]

section
variable {s : State} {d k i : Nat} {skip : Bool} {g : GInst} {x : NodeSt} (hc : s.counterNode d k = some (g.id, i))
  (hg : s.inst? g.id = some g) (hx : g.nodes[i]? = some x) (hborn : g.born = true) (hfault : g.fault = none)
  (hrev : g.revoked = false)
include hc hg hx hborn hfault hrev

/-- A count above 1 goes down by one. -/
theorem State.decrementCtr_more (hv : 1 < s.ctr (g.ctrOf i)) (hw : x.phase = .waiting) : let t := s.decrementCtr d k skip
    t.ctr (g.ctrOf i) = s.ctr (g.ctrOf i) - 1 ∧ (∀ j, j ≠ g.ctrOf i → t.ctr j = s.ctr j) ∧ t.mem = s.mem ∧ t.cores = s.cores := by
  have hx' : (g.modNode i (NodeSt.noted skip)).nodes[i]? = some (x.noted skip) := GInst.modNode_same _ hx
  have hphase : (x.noted skip).phase = .waiting := hw
  obtain ⟨hstill, hctr, -⟩ := State.afterRelease (State.inst?_counted (skip := skip) hg) hborn hfault hrev hx'
    (by rw [hphase]; rfl) (by rw [hphase]; decide)
  simp only [State.decrementCtr, hc, State.releaseAll_one hg (State.release1_more hg hv)]
  exact ⟨(hctr _).trans State.ctr_counted, fun j hj => (hctr _).trans (State.ctr_counted_ne hj), hstill.mem, hstill.cores⟩

/-- A count of 1 comes to 0, and its node is ready where a plain release has reached it. -/
theorem State.decrementCtr_last (hv : s.ctr (g.ctrOf i) = 1) (hplain : x.plain = true ∨ skip = false) :
    let t := s.decrementCtr d k skip
    ∃ g' x', t.ctr (g.ctrOf i) = 0 ∧ (∀ j, j ≠ g.ctrOf i → t.ctr j = s.ctr j) ∧ t.inst? g.id = some g' ∧ g'.nodes[i]? = some x' ∧
      x'.phase = .ready ∧ x'.readyAt = s.datum g.die ∧ t.mem = s.mem := by
  have hcount := State.inst?_counted (skip := skip) (i := i) hg
  have hx' : (g.modNode i (NodeSt.noted skip)).nodes[i]? = some (x.noted skip) := GInst.modNode_same _ hx
  obtain ⟨u, hzero, hu⟩ := State.nodeZero_plain hcount hx' (by rcases hplain with h | h <;> simp [NodeSt.noted, h])
  have hready := (hu.inst? g.id).trans (State.inst?_readied (i := i) hcount)
  obtain ⟨hstill, hctr, g', hg', -, hx''⟩ := State.afterRelease hready hborn hfault hrev (GInst.modNode_same _ hx') rfl nofun
  simp only [State.decrementCtr, hc, State.releaseAll_one hg ((State.release1_last hg hv).trans hzero)]
  refine ⟨g', _, ?_, fun j hj => ?_, hg', hx'', rfl, State.still_counted.datum g.die, hstill.mem.trans hu.mem⟩
  · rw [hctr, hu.ctr, State.ctr_readied, State.ctr_counted, hv]
  · rw [hctr, hu.ctr, State.ctr_readied, State.ctr_counted_ne hj]

end

theorem exec_counterDecrement (s : State) (d : Nat) (k : BitVec 12) (skip : Bool) :
    exec (.counterDecrement d k skip) s = .next (s.decrementCtr d k.toNat skip) := rfl

/-- Settles O27: the three instructions case by case, then the decrement by what its release does. -/
theorem graphEffects : Obligations.GraphEffects := by
  refine ⟨fun s n r1 r2 hb => ⟨condSet_misaligned hb, fun ha ph s0 hx => ⟨fun hnow t hst => ?condStaged, fun hnow s1 s2 t hr hst hm => ?condNow⟩,
    depDec_performed hb, fun hst => ⟨fun hroom => ?decStaged, fun hk hroom => depDec_overflows hb hst hk hroom⟩, graphLaunch_misaligned hb,
    fun ha p s1 hp => ⟨fun hst hroom => ?launchStaged, fun hst s2 t hr hl => ?launchNow⟩⟩,
    fun s d k skip => ⟨fun hc => ?none, fun g i x hc hg hx hd hk hborn hfault hrev hw => ⟨fun hv => ?more, fun hv hplain => ?last⟩⟩⟩
  case condStaged => exact condSet_staged hb (not_not.mpr ha) hx hnow hst
  case condNow => exact condSet_performed hb (not_not.mpr ha) hx hnow hr hst hm
  case decStaged => exact ⟨_, depDec_staged hb hst hroom, s.onlyCore_modCore n _⟩
  case launchStaged => exact ⟨_, graphLaunch_staged hb (not_not.mpr ha) hp hst hroom, s1.onlyCore_modCore n _⟩
  case launchNow => exact graphLaunch_performed hb (not_not.mpr ha) hp hst hr hl
  case none => rw [exec_counterDecrement, State.decrementCtr, hc]
  case more =>
    rw [← hk] at hv ⊢
    exact ⟨_, exec_counterDecrement .., State.decrementCtr_more hc hg hx hborn hfault hrev hv hw⟩
  case last =>
    subst hd
    rw [← hk] at hv ⊢
    obtain ⟨g', x', h⟩ := State.decrementCtr_last hc hg hx hborn hfault hrev hv hplain
    exact ⟨_, g', x', exec_counterDecrement .., h⟩

end Sys2Proof.Machine
end

section
/-! SUPPORT. `task.retire` (R36, R300): its checks, and what the end of a task does to the cores, memory and its instance. -/
namespace Sys2Proof.Machine

/-! ### Halted rings and rings not empty -/

theorem Core.haltMask_eq (c : Core) : c.haltMask = (Eng.all.map fun e => if (c.ring e).halted then 2 ^ e.num else 0).sum := by
  have hterm : ∀ e : Eng, b2n (c.ring e).halted <<< e.num = if (c.ring e).halted then 2 ^ e.num else 0 := fun e => by
    cases (c.ring e).halted <;> simp [b2n, Nat.shiftLeft_eq]
  simp only [Core.haltMask, hterm, Eng.all, List.foldl, List.map, List.sum_cons, List.sum_nil]
  omega

theorem Core.ringsEmpty_iff (c : Core) : c.ringsEmpty = true ↔ ∀ e, (c.ring e).write = (c.ring e).retire := by
  simp only [Core.ringsEmpty, List.all_eq_true, beq_iff_eq]
  exact ⟨fun h e => h e (by cases e <;> decide), fun h e _ => h e⟩

/-! ### What the graph walker does for the end of a task of an instance that asks for no completion word -/

/-- Between `s` and `t` the walker has worked: of the cores only tasks have changed, none has got one, memory stands, and the instance asks for
no completion word. -/
structure State.Walked (id : Nat) (s t : State) : Prop where
  mem : t.mem = s.mem
  core : ∀ m, ∃ k, t.core m = { s.core m with task := k } ∧ ((s.core m).task = none → k = none)
  silent : ∀ g, t.inst? id = some g → g.done = 0

section
variable {id : Nat} {s t u : State}

theorem State.Walked.start (h : ∀ g, s.inst? id = some g → g.done = 0) : State.Walked id s s :=
  ⟨rfl, fun m => ⟨(s.core m).task, rfl, fun h => h⟩, h⟩

theorem State.Walked.alike (h : State.Walked id s t) (a : t.Alike u) : State.Walked id s u where
  mem := a.mem.trans h.mem
  core m := by rw [a.core]; exact h.core m
  silent g hg := h.silent g (by rw [← a.inst?]; exact hg)

/-- Work on the instances alone that lets the completion word be. -/
theorem State.Walked.insts (h : State.Walked id s t) (a : t.Still u) (hi : ∀ g, u.inst? id = some g → g.done = 0) : State.Walked id s u where
  mem := a.mem.trans h.mem
  core m := by rw [State.core, a.cores]; exact h.core m
  silent := hi

theorem State.Walked.modInst (h : State.Walked id s t) {f : GInst → GInst} (hid : ∀ g, (f g).id = g.id)
    (hdone : ∀ g, (f g).done = g.done) : State.Walked id s (t.modInst id f) := by
  refine h.insts (t.still_modInst id f) fun g hg => ?_
  rw [State.inst?_modInst t id hid] at hg
  obtain ⟨g0, hg0, rfl⟩ := Option.map_eq_some_iff.mp hg
  rw [hdone, h.silent g0 hg0]

theorem State.Walked.modNode (h : State.Walked id s t) (i : Nat) (f : NodeSt → NodeSt) :
    State.Walked id s (t.modInst id fun g => g.modNode i f) := h.modInst (fun _ => rfl) fun _ => rfl

theorem State.Walked.makePending (h : State.Walked id s t) (n : Nat) : State.Walked id s (t.makePending n) where
  mem := (State.modCore_mem ..).trans h.mem
  core m := by
    obtain ⟨k, hk, hnone⟩ := h.core m
    by_cases hm : m = n
    · subst hm
      rw [State.makePending, State.core_modCore, hk]
      dsimp only
      cases hkt : k with
      | none => exact ⟨none, rfl, fun _ => rfl⟩
      | some x =>
        refine ⟨some (if x.pend = none then { x with pend := some t.now } else x), ?_, fun h0 => ?_⟩
        · dsimp only
          split
          · rfl
          · rfl
        · rw [hkt] at hnone; cases hnone h0
    · exact ⟨k, (State.core_modCore_ne _ _ hm).trans hk, hnone⟩
  silent g hg := h.silent g ((State.Pended.inst? (.inr ⟨n, rfl⟩) id).symm.trans hg)

theorem State.Walked.pended (h : State.Walked id s t) (p : t.Pended u) : State.Walked id s u := by
  rcases p with rfl | ⟨n, rfl⟩
  · exact h
  · exact h.makePending n

/-! ### The end of the instance -/

/-- An instance without a completion word ends: it goes with its counters, and the mapper of its die looks again. -/
theorem State.endInst_silent (t : State) {g : GInst} (hdone : g.done = 0) (status cause node : Nat) :
    ∃ u, t.endInst g status cause node = u.mapDie g.die ∧ t.Still u ∧ u.insts = t.insts.filter fun x => x.id != g.id := by
  simp only [State.endInst, if_pos hdone]
  exact ⟨_, rfl, ⟨rfl, rfl, rfl⟩, rfl⟩

theorem State.inst?_endInst {g : GInst} (hdone : g.done = 0) (status cause node : Nat) : (t.endInst g status cause node).inst? g.id = none := by
  obtain ⟨u, hu, -, hinsts⟩ := t.endInst_silent hdone status cause node
  rw [hu, (State.alike_mapDie ..).inst?, State.inst?, hinsts]
  simp

theorem State.Walked.endInst (h : State.Walked id s t) {g : GInst} (hg : g.id = id) (hdone : g.done = 0) (status cause node : Nat) :
    State.Walked id s (t.endInst g status cause node) := by
  refine h.insts ?_ fun g' hg' => ?_
  · obtain ⟨u, hu, hstill, -⟩ := t.endInst_silent hdone status cause node
    rw [hu]
    exact hstill.trans (State.alike_mapDie ..).still
  · rw [← hg, State.inst?_endInst hdone] at hg'
    cases hg'

theorem State.alike_dropTasks (l : List NodeSt) (f : State → NodeSt → State)
    (hf : ∀ (t : State) x, f t x = if x.phase == .suspended then (t.dropSet x.save).decLive (t.streamOf x)
      else if x.phase == .ready && x.asked.any (fun a => a.2 == .go) then t.decLive (t.streamOf x) else t) (t : State) :
    t.Alike (l.foldl f t) := by
  refine State.Alike.foldl l f (fun t x => ?_) t
  rw [hf]
  split
  · exact (t.alike_dropSet x.save).trans (State.alike_decLive ..)
  · split
    · exact t.alike_decLive _
    · exact .refl t

theorem State.Walked.settle (h : State.Walked id s t) : State.Walked id s (t.settle id) := by
  unfold State.settle
  split
  next => exact h
  next g hg =>
    have hid := State.inst?_id hg
    have hdone := h.silent g hg
    have hend : ∀ {v : State}, t.Alike v → ∀ status cause node, State.Walked id s (v.endInst g status cause node) :=
      fun a _ _ _ => (h.alike a).endInst hid hdone _ _ _
    dsimp only
    split
    next =>
      split
      · exact hend (.refl t) ..
      · exact h
    next =>
      split
      next =>
        split
        · exact h
        · exact hend (State.alike_dropTasks _ _ (fun _ _ => rfl) t) ..
      next =>
        split
        next =>
          split
          · exact h
          · exact hend (State.alike_dropTasks _ _ (fun _ _ => rfl) t) ..
        next =>
          split
          · exact hend (.refl t) ..
          · exact h

theorem State.Walked.graphFault (h : State.Walked id s t) (cause node : Nat) : State.Walked id s (t.graphFault id cause node) := by
  unfold State.graphFault
  split
  next => exact h
  next g hg =>
    have hlog := h.alike (t.alike_log 0x08 g.die 0 [cause, node, id])
    dsimp only
    split
    · exact (hlog.modInst (f := fun g => { g with fault := some (cause, node) }) (fun _ => rfl) fun _ => rfl).settle
    · exact hlog.settle

/-! ### Releases -/

theorem GInst.foldl_modNode_same (l : List Nat) (f : NodeSt → NodeSt) (g : GInst) :
    (l.foldl (fun g j => g.modNode j f) g).id = g.id ∧ (l.foldl (fun g j => g.modNode j f) g).done = g.done :=
  List.foldlRecOn (motive := fun g' : GInst => g'.id = g.id ∧ g'.done = g.done) l _ ⟨rfl, rfl⟩ fun _ h _ _ => h

theorem State.Walked.nodeZero (h : State.Walked id s t) (i : Nat) : State.Walked id s (t.nodeZero id i).1 := by
  unfold State.nodeZero
  split
  next => exact h
  next g hg =>
    split
    next => exact h
    next x hx =>
      split
      next =>
        have hstep : State.Walked id s (t.readied id i) := h.modInst (fun _ => rfl) fun _ => rfl
        dsimp only
        split
        · exact hstep.pended (State.pended_preemptFor ..)
        · exact hstep
      next =>
        refine h.modInst (fun g => ?_) fun g => ?_
        · dsimp only
          split
          · exact (GInst.foldl_modNode_same _ _ _).1
          · rfl
        · dsimp only
          split
          · exact (GInst.foldl_modNode_same _ _ _).2
          · rfl

theorem State.Walked.setCtr (h : State.Walked id s t) (k v : Nat) : State.Walked id s (t.setCtr k v) :=
  h.insts (t.still_setCtr k v) h.silent

theorem State.Walked.release1 (h : State.Walked id s t) (i : Nat) (skip : Bool) : State.Walked id s (t.release1 id i skip).1 := by
  unfold State.release1
  split
  next => exact h
  next g hg =>
    dsimp only
    split
    · exact h.graphFault 1 i
    · have hstep := (h.setCtr (g.ctrOf i) (t.ctr (g.ctrOf i) - 1)).modNode i fun x => { x with plain := x.plain || !skip }
      split
      · exact hstep.nodeZero i
      · exact hstep

theorem State.Walked.releaseLoop (h : State.Walked id s t) (fuel : Nat) (l : List (Nat × Bool)) : State.Walked id s (releaseLoop id fuel l t) := by
  induction fuel generalizing t l with
  | zero => exact h
  | succ fuel ih =>
    cases l with
    | nil => exact h
    | cons r rest => exact ih (h.release1 r.1 r.2) _

theorem State.Walked.passEnds (h : State.Walked id s t) : State.Walked id s (t.passEnds id) := by
  cases hg : t.inst? id with
  | none => simp only [State.passEnds, hg]; exact h
  | some g =>
    obtain ⟨hstill, -, g', hg', hpass⟩ := State.passEnds_spec hg
    refine h.insts hstill fun g'' hg'' => ?_
    obtain rfl : g' = g'' := by simpa [hg'] using hg''
    rw [hpass.same]
    exact h.silent g hg

theorem State.Walked.releaseAll (h : State.Walked id s t) (l : List (Nat × Bool)) : State.Walked id s (t.releaseAll id l) :=
  ((h.releaseLoop _ l).passEnds).settle

theorem State.Walked.completeNode (h : State.Walked id s t) (i : Nat) : State.Walked id s (t.completeNode id i) := by
  unfold State.completeNode
  split
  next => exact h
  next =>
    split
    next => exact h
    next => exact (h.modNode i _).releaseAll _

/-- An instance of one node, which gives no releases, ends with it (R342). -/
theorem State.completeNode_only {g : GInst} {x : NodeSt} (hg : s.inst? id = some g) (hn : g.nodes = [x]) (hsuc : x.nsuc = [])
    (hborn : g.born = true) (hfault : g.fault = none) (hrev : g.revoked = false) (hdone : g.done = 0) :
    (s.completeNode id 0).inst? id = none := by
  have hx : g.nodes[0]? = some x := by rw [hn]; rfl
  have hret := State.inst?_modNode hg 0 fun x => { x with phase := .retired }
  obtain ⟨fuel, -, heq⟩ := State.releaseAll_eq [] hret
  simp only [State.completeNode, hg, hx, hsuc, List.map_nil, heq, releaseLoop_nil]
  obtain ⟨-, -, g', hg', hpass⟩ := State.passEnds_spec hret
  have hx' : g'.nodes = [{ x with phase := .retired }] := by
    have hlen := hpass.length
    have hnode := hpass.node_of_not_running (GInst.modNode_same _ hx) nofun
    simp only [GInst.modNode, hn, List.length_modify, List.length_singleton] at hlen
    obtain ⟨y, hy⟩ := List.length_eq_one_iff.mp hlen
    rw [hy] at hnode ⊢
    simpa using hnode
  have hid : g'.id = id := State.inst?_id hg'
  have hgoing : g'.born = true ∧ g'.fault = none ∧ g'.revoked = false ∧ g'.done = 0 := by
    rw [hpass.same]; exact ⟨hborn, hfault, hrev, hdone⟩
  obtain ⟨hborn', hfault', hrev', hdone'⟩ := hgoing
  have hall : g'.nodes.all (fun x => x.phase.ended) = true := by rw [hx']; rfl
  simp only [State.settle, hg', hborn', hrev', hfault', hall, Bool.true_eq_false, Bool.false_eq_true, if_false, if_true]
  rw [← hid]
  exact State.inst?_endInst hdone' ..

end

/-! ### The instruction -/

/-- The state in which a task that has published everything has ended (R300). -/
def State.retired (s : State) (n : Nat) (t : TaskSt) : State :=
  (((s.modCore n Core.toIdle).decLive t.stream).completeNode t.inst t.node).mapDie (dieOf n)

theorem State.walked_retired {s : State} {n : Nat} {t : TaskSt} (h : ∀ g, s.inst? t.inst = some g → g.done = 0) :
    State.Walked t.inst (s.modCore n Core.toIdle) (s.retired n t) := by
  have hstart : ∀ g, (s.modCore n Core.toIdle).inst? t.inst = some g → g.done = 0 := fun g hg => by
    rw [State.inst?, State.modCore_insts] at hg
    exact h g hg
  exact (((State.Walked.start hstart).alike (State.alike_decLive ..)).completeNode t.node).alike (State.alike_mapDie ..)

theorem State.retired_isIdle {s : State} {n : Nat} {t : TaskSt} (h : ∀ g, s.inst? t.inst = some g → g.done = 0) :
    ((s.retired n t).core n).isIdle := by
  obtain ⟨k, hk, hnone⟩ := (State.walked_retired (n := n) h).core n
  rw [State.core_modCore] at hk hnone
  rw [hk, hnone rfl]
  exact Core.toIdle_isIdle _

section
variable {s : State} {n : Nat} {t : TaskSt} (hb : s.byCore n) (ht : (s.core n).task = some t) (hs : (s.core n).suspended = false)
include hb ht hs

theorem taskRetire_halted (hm : (s.core n).haltMask ≠ 0) :
    exec .taskRetire s = .next (s.takeTrap (.core n) { code := 27, tval := (s.core n).haltMask, cause := 22 }) := by
  refine runCore_trap hb ?_
  simp only [taskRetireOp, (heldTask_ok ht hs).bind_run, retiring, M.run_bind_get, tryWait, bind_assoc, if_pos hm, run_bind_trapM]

theorem taskRetire_waits (hm : ¬(s.core n).haltMask ≠ 0) (hr : (s.core n).ringsEmpty = false) :
    exec .taskRetire s = .next (s.enterWait (.core n) .retire) := by
  refine runCore_wait (t := s) hb ?_
  simp only [taskRetireOp, (heldTask_ok ht hs).bind_run, retiring, M.run_bind_get, tryWait, bind_assoc, if_neg hm, if_pos hr, M.run_bind_throw]

theorem taskRetire_retires {s2 : State} (hm : ¬(s.core n).haltMask ≠ 0) (hr : ¬(s.core n).ringsEmpty = false)
    (hp : Ok (publishAll n) s () s2) : exec .taskRetire s = .next ((s2.retired n t).finishInstr (.core n) (some (s.core n).hart.pc)) := by
  have hnow : Ok (retireNow n) s () (s2.retired n t) := by
    simp only [Ok, retireNow, M.run_bind_get, ht, hp.bind_run, M.run_modify, State.retired]
  refine runCore_ok hb ((heldTask_ok ht hs).bind ?_)
  simp only [Ok, retiring, M.run_bind_get, tryWait, bind_assoc, if_neg hm, if_neg hr, hnow.bind_run, M.run_pure]

end

/-- Settles O25: the two checks, then the retirement, whose work on the graph keeps the cores idle and memory as published. -/
theorem taskRetire : Obligations.TaskRetire := by
  intro s n t hb ht hs
  dsimp only
  simp only [← Core.haltMask_eq]
  refine ⟨taskRetire_halted hb ht hs, fun hm he => ?_, fun hm he s1 s2 hl hla hdone => ?_⟩
  · refine taskRetire_waits hb ht hs (not_not.mpr hm) (Bool.eq_false_iff.mpr fun h => ?_)
    obtain ⟨e, he⟩ := he
    exact he ((Core.ringsEmpty_iff _).mp h e)
  · have hexec := taskRetire_retires hb ht hs (not_not.mpr hm) (by rw [(Core.ringsEmpty_iff _).mpr he]; decide)
      (publishAll_ok hl hla)
    have hwalk := State.walked_retired (n := n) hdone
    refine ⟨_, hexec, State.isIdle_finishInstr _ (State.retired_isIdle hdone), ?mem, fun m hm => ?others,
      fun g x hg hn hnode hsuc hborn hfault hrev => ?ends⟩
    case mem => rw [State.finishInstr_mem, hwalk.mem, State.modCore_mem]
    case others =>
      obtain ⟨k, hk, -⟩ := hwalk.core m
      rw [State.core_finishInstr_ne _ _ hm, hk, State.core_modCore_ne _ _ hm]
      exact ⟨rfl, rfl, rfl⟩
    case ends =>
      rw [State.inst?_finishInstr, State.retired, (State.alike_mapDie ..).inst?, hnode]
      exact State.completeNode_only ((State.alike_decLive ..).inst? _ |>.trans hg) hn hsuc hborn hfault hrev (hdone g hg)

end Sys2Proof.Machine
end

section
/-! SUPPORT. Nodes that end (R40, R342, R343): a node that retires and gives its releases, one that is dropped with a fault, and the roots of
a while body. -/
namespace Sys2Proof.Machine

theorem runEvent_stall {m : M Unit} {s t : State} (h : m.run s = (.error .stall, t)) : runEvent m s = .next s := by
  simp only [runEvent, h]

/-! ### Releases none of which is a node's last -/

/-- The nodes that are released by `rel` have noted the plain releases. -/
def GInst.noted (g : GInst) (rel : List (Nat × Bool)) : GInst :=
  { g with nodes := g.nodes.mapIdx fun j y => { y with plain := y.plain || rel.contains (j, false) } }

theorem GInst.noted_node {g : GInst} {j : Nat} {y : NodeSt} (rel : List (Nat × Bool)) (h : g.nodes[j]? = some y) :
    (g.noted rel).nodes[j]? = some { y with plain := y.plain || rel.contains (j, false) } := by
  simp [GInst.noted, h]

theorem GInst.noted_nil (g : GInst) : g.noted [] = g := by
  simp [GInst.noted, List.mapIdx_eq_zipIdx_map]

theorem GInst.noted_cons (g : GInst) (i : Nat) (skip : Bool) (rest : List (Nat × Bool)) :
    (g.modNode i (NodeSt.noted skip)).noted rest = g.noted ((i, skip) :: rest) := by
  unfold GInst.noted GInst.modNode
  congr 1
  refine List.ext_getElem? fun j => ?_
  rw [List.getElem?_mapIdx, List.getElem?_mapIdx, List.getElem?_modify]
  cases h : g.nodes[j]? with
  | none => rfl
  | some y =>
    by_cases hij : i = j
    · subst hij
      cases skip <;> simp [NodeSt.noted]
    · simp [hij, Ne.symm hij]

/-- The releases are counted and noted, and nothing else comes of them. -/
theorem releaseLoop_noneLast {id : Nat} (rel : List (Nat × Bool)) : ∀ {fuel : Nat} {s : State} {g : GInst}, rel.length ≤ fuel →
    s.inst? id = some g → (∀ r ∈ rel, (rel.map fun r => g.ctrOf r.1).count (g.ctrOf r.1) < s.ctr (g.ctrOf r.1)) →
    let t := releaseLoop id fuel rel s
    s.Still t ∧ t.inst? id = some (g.noted rel) ∧ ∀ k, t.ctr k = s.ctr k - (rel.map fun r => g.ctrOf r.1).count k := by
  induction rel with
  | nil =>
    intro fuel s g _ hg _
    rw [releaseLoop_nil, GInst.noted_nil]
    exact ⟨.refl s, hg, fun k => rfl⟩
  | cons r rest ih =>
    intro fuel s g hfuel hg hc
    obtain ⟨i, skip⟩ := r
    obtain ⟨fuel, rfl⟩ : ∃ k, fuel = k + 1 := ⟨fuel - 1, by simp at hfuel; omega⟩
    have hi := hc (i, skip) List.mem_cons_self
    have hmore : 1 < s.ctr (g.ctrOf i) := by
      simp only [List.map_cons, List.count_cons_self] at hi
      omega
    have hrest : ∀ r ∈ rest, (rest.map fun r => (g.modNode i (NodeSt.noted skip)).ctrOf r.1).count ((g.modNode i (NodeSt.noted skip)).ctrOf r.1) <
        (s.counted id g i skip).ctr ((g.modNode i (NodeSt.noted skip)).ctrOf r.1) := fun r hr => by
      have hr' := hc r (List.mem_cons_of_mem _ hr)
      show (rest.map fun r => g.ctrOf r.1).count (g.ctrOf r.1) < (s.counted id g i skip).ctr (g.ctrOf r.1)
      by_cases hk : g.ctrOf r.1 = g.ctrOf i
      · rw [hk] at hr' ⊢
        rw [State.ctr_counted]
        simp only [List.map_cons, List.count_cons_self] at hr'
        omega
      · rw [State.ctr_counted_ne hk]
        rwa [List.map_cons, List.count_cons_of_ne (Ne.symm hk)] at hr'
    obtain ⟨hstill, hinst, hctr⟩ := ih (by simpa using hfuel) (State.inst?_counted (skip := skip) hg) hrest
    rw [releaseLoop_cons, State.release1_more hg hmore, List.append_nil]
    refine ⟨State.still_counted.trans hstill, by rw [hinst, GInst.noted_cons], fun k => (hctr k).trans ?_⟩
    show (s.counted id g i skip).ctr k - (rest.map fun r => g.ctrOf r.1).count k = _
    by_cases hk : k = g.ctrOf i
    · rw [hk, State.ctr_counted, List.map_cons, List.count_cons_self]
      omega
    · rw [State.ctr_counted_ne hk, List.map_cons, List.count_cons_of_ne (Ne.symm hk)]

/-! ### A node that retires -/

theorem GInst.live_iff (g : GInst) : g.live = true ↔ g.born = true ∧ g.started = true ∧ g.fault = none ∧ g.revoked = false := by
  simp [GInst.live, and_assoc]

section
variable {s : State} {g : GInst} {i : Nat} {x : NodeSt}

/-- A node in another phase. -/
def NodeSt.withPhase (p : NodePhase) (x : NodeSt) : NodeSt := { x with phase := p }

/-- Node `i` retires. -/
def State.retireNode (s : State) (id i : Nat) : State := s.modInst id fun g => g.modNode i (NodeSt.withPhase .retired)

/-- A ready node retires and gives releases none of which is a node's last (R342). -/
theorem State.released_releaseAll {rel : List (Nat × Bool)} (hg : s.inst? g.id = some g) (hlive : g.live = true)
    (hx : g.nodes[i]? = some x) (hready : x.phase = .ready) (hn : s.NoneLast g rel) :
    s.Released ((s.retireNode g.id i).releaseAll g.id rel) g i rel := by
  obtain ⟨hborn, -, hfault, hrev⟩ := g.live_iff.mp hlive
  obtain ⟨hne, hlast⟩ := hn
  have hret : (s.retireNode g.id i).inst? g.id = some (g.modNode i (NodeSt.withPhase .retired)) := State.inst?_modNode hg _ _
  obtain ⟨fuel, hfuel, heq⟩ := State.releaseAll_eq rel hret
  obtain ⟨hstill, hinst, hctr⟩ := releaseLoop_noneLast rel hfuel hret fun r hr => (hlast r hr).2
  obtain ⟨hstill', hctr', g', hg', hpass⟩ := State.passEnds_spec hinst
  have hnode := GInst.modNode_same ((NodeSt.withPhase .retired)) hx
  have hkept := hpass.node_of_not_running (GInst.noted_node rel hnode) nofun
  obtain ⟨r, hr⟩ := List.exists_mem_of_ne_nil rel hne
  obtain ⟨⟨y, hy, hwait⟩, -⟩ := hlast r hr
  have hri : r.1 ≠ i := fun h => by
    rw [h, hx] at hy
    obtain rfl : x = y := by simpa using hy
    rw [hready] at hwait
    cases hwait
  have hy' := GInst.noted_node rel ((GInst.modNode_ne g (NodeSt.withPhase .retired) hri).trans hy)
  have hwaits := hpass.node_of_not_running hy' (by show y.phase ≠ _; rw [hwait]; nofun)
  rw [heq, State.settle_going hg' (by rw [hpass.same]; exact hborn) (by rw [hpass.same]; exact hfault)
    (by rw [hpass.same]; exact hrev) hwaits (by show y.phase.ended = _; rw [hwait]; rfl)]
  have hall := (State.still_modInst s g.id _).trans (hstill.trans hstill')
  refine ⟨⟨g', hg', ⟨_, hkept, rfl⟩, fun j y hy => ?_⟩, fun k => (hctr' k).trans (hctr k), hall.mem, hall.cores⟩
  have hafter : ∃ y', (g.modNode i (NodeSt.withPhase .retired)).nodes[j]? = some y' ∧ y'.plain = y.plain := by
    by_cases hji : j = i
    · subst hji
      exact ⟨_, GInst.modNode_same _ hy, rfl⟩
    · exact ⟨y, (GInst.modNode_ne g _ hji).trans hy, rfl⟩
  obtain ⟨y', hy', hplain⟩ := hafter
  rw [← hplain]
  rcases hpass.node j _ (GInst.noted_node rel hy') with h | ⟨-, h⟩
  · exact ⟨_, h, rfl⟩
  · exact ⟨_, h, rfl⟩

theorem State.completeNode_eq (hg : s.inst? g.id = some g) (hx : g.nodes[i]? = some x) :
    s.completeNode g.id i = (s.retireNode g.id i).releaseAll g.id (x.nsuc.map fun j => (j, false)) := by
  simp only [State.completeNode, hg, hx]
  rfl

/-! ### A node that is dropped -/

/-- Node `i` is dropped. -/
def State.dropped (s : State) (id i : Nat) : State := s.modInst id fun g => g.modNode i (NodeSt.withPhase .dropped)

/-- A dropped node's fault stands, and waits for what still runs (R343). -/
theorem State.dropped_graphFault (hg : s.inst? g.id = some g) (hborn : g.born = true) (hfault : g.fault = none) (hrev : g.revoked = false)
    (cause : Nat) : s.Dropped ((s.dropped g.id i).graphFault g.id cause i) g i cause := by
  rintro ⟨j, y, hji, hy, hrun, hkind⟩
  have hdrop : (s.dropped g.id i).inst? g.id = some (g.modNode i (NodeSt.withPhase .dropped)) := State.inst?_modNode hg _ _
  have hlog := (s.dropped g.id i).alike_log 0x08 g.die 0 [cause, i, g.id]
  have hfaulted := State.inst?_modInst ((s.dropped g.id i).log 0x08 g.die 0 [cause, i, g.id]) g.id
    (f := fun g => { g with fault := some (cause, i) }) fun _ => rfl
  rw [hlog.inst?, hdrop] at hfaulted
  have hstill := ((State.still_modInst s g.id _).trans hlog.still).trans (State.still_modInst _ g.id fun g => { g with fault := some (cause, i) })
  have hstep : (s.dropped g.id i).graphFault g.id cause i =
      ((s.dropped g.id i).log 0x08 g.die 0 [cause, i, g.id]).modInst g.id fun g => { g with fault := some (cause, i) } := by
    simp only [State.graphFault, hdrop]
    have hnone : (g.modNode i (NodeSt.withPhase .dropped)).fault = none := hfault
    rw [if_pos hnone]
    exact State.settle_running hfaulted hborn nofun hrev ((GInst.modNode_ne g _ hji).trans hy) hrun hkind
  rw [hstep]
  exact ⟨hfaulted, hstill.cores, hstill.mem⟩

end

end Sys2Proof.Machine
end

section
/-! SUPPORT. A pass of a while node's body (R342): the counters and the nodes it resets, and the plain releases of the roots. -/
namespace Sys2Proof.Machine

theorem mem_span_iff {a n j : Nat} : j ∈ span a n ↔ a ≤ j ∧ j < a + n := by
  simp only [span, List.mem_map, List.mem_range]
  constructor
  · rintro ⟨k, hk, rfl⟩
    omega
  · rintro ⟨h1, h2⟩
    exact ⟨j - a, by omega, by omega⟩

theorem nodup_span (a n : Nat) : (span a n).Nodup := List.nodup_range.map fun _ _ h => Nat.add_left_cancel h

/-! ### Many nodes and many counters -/

/-- The counters of an instance's nodes are distinct (R341). -/
theorem GInst.ctrOf_inj {g : GInst} (hn : g.nodes.length ≤ 4096) {i j : Nat} (hi : i < g.nodes.length) (hj : j < g.nodes.length)
    (h : g.ctrOf i = g.ctrOf j) : i = j := by
  simp only [GInst.ctrOf, ctrKey] at h
  omega

theorem GInst.foldl_modNode_rest (l : List Nat) (f : NodeSt → NodeSt) (g : GInst) :
    l.foldl (fun g j => g.modNode j f) g = { g with nodes := (l.foldl (fun g j => g.modNode j f) g).nodes } :=
  List.foldlRecOn (motive := fun g' : GInst => g' = { g with nodes := g'.nodes }) l _ rfl fun g' h j _ => by
    rw [h]
    rfl

/-- The same change made to some nodes, once or more often. -/
theorem GInst.foldl_modNode_node {f : NodeSt → NodeSt} (hf : ∀ x, f (f x) = f x) (l : List Nat) (j : Nat) : ∀ g : GInst,
    (l.foldl (fun g j => g.modNode j f) g).nodes[j]? = if j ∈ l then g.nodes[j]?.map f else g.nodes[j]? := by
  induction l with
  | nil => intro g; simp
  | cons a rest ih =>
    intro g
    rw [List.foldl_cons, ih]
    by_cases haj : j = a
    · subst haj
      cases h : g.nodes[j]? <;> simp [GInst.modNode, h, hf]
    · rw [GInst.modNode_ne _ _ haj]
      simp [haj]

/-- Counters set one after another leave the others alone. -/
theorem State.ctr_foldl_setCtr_ne (κ v : Nat → Nat) (l : List Nat) (k : Nat) (hk : ∀ j ∈ l, κ j ≠ k) (s : State) :
    (l.foldl (fun t j => t.setCtr (κ j) (v j)) s).ctr k = s.ctr k :=
  List.foldlRecOn (motive := fun t : State => t.ctr k = s.ctr k) l _ rfl fun t ht j hj => by
    rw [State.ctr_setCtr_ne _ _ (hk j hj).symm, ht]

theorem State.ctr_foldl_setCtr (κ v : Nat → Nat) (l : List Nat) {j : Nat} (hj : j ∈ l) (hinj : ∀ a ∈ l, κ a = κ j → a = j) :
    ∀ s : State, (l.foldl (fun t j => t.setCtr (κ j) (v j)) s).ctr (κ j) = v j % 65536 := by
  induction l with
  | nil => cases hj
  | cons a rest ih =>
    intro s
    rw [List.foldl_cons]
    by_cases hr : j ∈ rest
    · exact ih hr (fun b hb => hinj b (List.mem_cons_of_mem _ hb)) _
    · obtain rfl : j = a := (List.mem_cons.mp hj).resolve_right hr
      rw [State.ctr_foldl_setCtr_ne κ v rest _ fun b hb hk => hr (hinj b (List.mem_cons_of_mem _ hb) hk ▸ hb), State.ctr_setCtr]

theorem State.still_foldl_setCtr (κ v : Nat → Nat) (l : List Nat) (s : State) : s.Still (l.foldl (fun t j => t.setCtr (κ j) (v j)) s) :=
  List.foldlRecOn (motive := fun t => s.Still t) l _ (.refl s) fun t ht _ _ => ht.trans (t.still_setCtr _ _)

theorem State.inst?_foldl_setCtr (κ v : Nat → Nat) (l : List Nat) (s : State) (id : Nat) :
    (l.foldl (fun t j => t.setCtr (κ j) (v j)) s).inst? id = s.inst? id :=
  List.foldlRecOn (motive := fun t : State => t.inst? id = s.inst? id) l _ rfl fun _ ht _ _ => ht

/-! ### Plain releases of distinct counters -/

/-- A node that a plain release reaches, its last or not. -/
def NodeSt.reached (last : Bool) (now : Nat) (x : NodeSt) : NodeSt :=
  { x with plain := true, phase := if last then .ready else x.phase, readyAt := if last then now else x.readyAt }

theorem GInst.modNode_modNode (g : GInst) (i : Nat) (f f' : NodeSt → NodeSt) : (g.modNode i f).modNode i f' = g.modNode i (f' ∘ f) := by
  simp only [GInst.modNode, List.modify_modify_eq]

theorem State.release1_plain {s : State} {id i : Nat} {g : GInst} {x : NodeSt} (hg : s.inst? id = some g) (hx : g.nodes[i]? = some x)
    (hc : 0 < s.ctr (g.ctrOf i)) : ∃ u, s.release1 id i false = (u, []) ∧ u.mem = s.mem ∧ u.ctr (g.ctrOf i) = s.ctr (g.ctrOf i) - 1 ∧
      (∀ k, k ≠ g.ctrOf i → u.ctr k = s.ctr k) ∧
      u.inst? id = some (g.modNode i (NodeSt.reached (s.ctr (g.ctrOf i) == 1) (s.datum g.die))) := by
  have hcount := State.inst?_counted (skip := false) (i := i) hg
  by_cases h1 : s.ctr (g.ctrOf i) = 1
  · obtain ⟨u, hu, hpend⟩ := State.nodeZero_plain hcount (GInst.modNode_same _ hx) (Bool.or_true _)
    refine ⟨u, (State.release1_last hg h1).trans hu, hpend.mem, by rw [hpend.ctr, State.ctr_readied, State.ctr_counted],
      fun k hk => by rw [hpend.ctr, State.ctr_readied, State.ctr_counted_ne hk], ?_⟩
    rw [hpend.inst?, State.inst?_readied hcount, GInst.modNode_modNode, h1]
    congr 2
    funext y
    simp [NodeSt.reached, NodeSt.noted, State.still_counted.datum, GInst.modNode]
  · refine ⟨_, State.release1_more hg (by omega), rfl, State.ctr_counted, fun k hk => State.ctr_counted_ne hk, ?_⟩
    rw [hcount]
    congr 2
    funext y
    simp [NodeSt.reached, NodeSt.noted, h1]

/-- Plain releases of nodes with counters of their own. -/
theorem releaseLoop_roots {id : Nat} (l : List Nat) : ∀ {fuel : Nat} {s : State} {g : GInst}, l.length ≤ fuel → s.inst? id = some g →
    (l.map g.ctrOf).Nodup → (∀ j ∈ l, 0 < s.ctr (g.ctrOf j) ∧ ∃ y, g.nodes[j]? = some y) →
    let t := releaseLoop id fuel (l.map fun j => (j, false)) s
    t.mem = s.mem ∧ (∀ k, k ∉ l.map g.ctrOf → t.ctr k = s.ctr k) ∧ (∀ j ∈ l, t.ctr (g.ctrOf j) = s.ctr (g.ctrOf j) - 1) ∧
    ∃ g', t.inst? id = some g' ∧ g' = { g with nodes := g'.nodes } ∧ ∀ (j : Nat) (y : NodeSt), g.nodes[j]? = some y →
      ∃ now, g'.nodes[j]? = some (if j ∈ l then y.reached (s.ctr (g.ctrOf j) == 1) now else y) := by
  induction l with
  | nil =>
    intro fuel s g _ hg _ _
    rw [List.map_nil, releaseLoop_nil]
    exact ⟨rfl, fun _ _ => rfl, nofun, g, hg, rfl, fun j y hy => ⟨0, by simpa using hy⟩⟩
  | cons i rest ih =>
    intro fuel s g hfuel hg hnodup hall
    obtain ⟨fuel, rfl⟩ : ∃ k, fuel = k + 1 := ⟨fuel - 1, by simp at hfuel; omega⟩
    obtain ⟨hc, x, hx⟩ := hall i List.mem_cons_self
    obtain ⟨u, hu, hmem, hci, hck, hinst⟩ := State.release1_plain hg hx hc
    rw [List.map_cons, List.nodup_cons] at hnodup
    obtain ⟨hnew, hnodup⟩ := hnodup
    have hother : ∀ j ∈ rest, g.ctrOf j ≠ g.ctrOf i := fun j hj h => hnew (h ▸ List.mem_map_of_mem hj)
    have hi : i ∉ rest := fun h => hother i h rfl
    obtain ⟨hmem', hck', hcj', g', hg', hsame, hnode⟩ := ih (fuel := fuel) (by simpa using hfuel) hinst hnodup fun j hj => by
      obtain ⟨hcj, y, hy⟩ := hall j (List.mem_cons_of_mem _ hj)
      have hji : j ≠ i := fun h => hi (h ▸ hj)
      refine ⟨?_, y, (GInst.modNode_ne _ _ hji).trans hy⟩
      show 0 < u.ctr (g.ctrOf j)
      rwa [hck _ (hother j hj)]
    rw [List.map_cons, releaseLoop_cons, hu, List.append_nil]
    refine ⟨hmem'.trans hmem, fun k hk => ?_, fun j hj => ?_, g', hg', by rw [hsame]; rfl, fun j y hy => ?_⟩
    · rw [List.map_cons, List.mem_cons, not_or] at hk
      exact (hck' k hk.2).trans (hck k hk.1)
    · rcases List.mem_cons.mp hj with rfl | hj
      · exact (hck' _ hnew).trans hci
      · exact (hcj' j hj).trans (by show u.ctr (g.ctrOf j) - 1 = _; rw [hck _ (hother j hj)])
    · by_cases hji : j = i
      · subst hji
        obtain rfl : x = y := by simpa [hx] using hy
        obtain ⟨now, h⟩ := hnode j _ (GInst.modNode_same _ hx)
        exact ⟨s.datum g.die, by simpa [hi] using h⟩
      · obtain ⟨now, h⟩ := hnode j y ((GInst.modNode_ne _ _ hji).trans hy)
        refine ⟨now, h.trans ?_⟩
        by_cases hj : j ∈ rest
        · have hcj : u.ctr (g.ctrOf j) = s.ctr (g.ctrOf j) := hck _ (hother j hj)
          rw [if_pos hj, if_pos (List.mem_cons_of_mem _ hj)]
          exact congrArg (fun c => some (y.reached (c == 1) now)) hcj
        · rw [if_neg hj, if_neg (by simp [hji, hj])]

/-! ### A pass begins -/

/-- A body node at the start of a pass. -/
def NodeSt.restarted (y : NodeSt) : NodeSt := { y with phase := .waiting, plain := false }

theorem NodeSt.restarted_restarted (y : NodeSt) : y.restarted.restarted = y.restarted := rfl

/-- The while node `i` runs, and the nodes of its body and their counters are as at the instance's start. -/
def State.passBegun (s : State) (g : GInst) (i : Nat) (body : List Nat) : State :=
  body.foldl (fun t j => t.setCtr (g.ctrOf j) ((g.nodes[j]?.map (·.init)).getD 0)) <|
    s.modInst g.id fun g => body.foldl (fun g j => g.modNode j NodeSt.restarted) (g.modNode i (NodeSt.withPhase .running))

section
variable {s : State} {g : GInst} {i : Nat} {x : NodeSt} {body : List Nat}

theorem State.still_passBegun : s.Still (s.passBegun g i body) := (s.still_modInst _ _).trans (State.still_foldl_setCtr ..)

theorem State.inst?_passBegun (hg : s.inst? g.id = some g) (hx : g.nodes[i]? = some x) (hi : i ∉ body) :
    ∃ g', (s.passBegun g i body).inst? g.id = some g' ∧ g' = { g with nodes := g'.nodes } ∧
      g'.nodes[i]? = some (x.withPhase .running) ∧
      ∀ j ∈ body, ∀ y, g.nodes[j]? = some y → g'.nodes[j]? = some y.restarted := by
  refine ⟨_, ?_, GInst.foldl_modNode_rest body NodeSt.restarted (g.modNode i (NodeSt.withPhase .running)), ?_, fun j hj y hy => ?_⟩
  · rw [State.passBegun, State.inst?_foldl_setCtr, State.inst?_modInst, hg]
    · rfl
    · exact fun g => by rw [GInst.foldl_modNode_rest]; rfl
  · rw [GInst.foldl_modNode_node NodeSt.restarted_restarted, if_neg hi]
    exact GInst.modNode_same _ hx
  · have hji : j ≠ i := fun h => hi (h ▸ hj)
    rw [GInst.foldl_modNode_node NodeSt.restarted_restarted, if_pos hj, GInst.modNode_ne _ _ hji, hy]
    rfl

theorem State.ctr_passBegun {j : Nat} {y : NodeSt} (hn : g.nodes.length ≤ 4096) (hbody : ∀ a ∈ body, a < g.nodes.length) (hj : j ∈ body)
    (hy : g.nodes[j]? = some y) (hinit : y.init < 65536) : (s.passBegun g i body).ctr (g.ctrOf j) = y.init := by
  rw [State.passBegun, State.ctr_foldl_setCtr g.ctrOf _ body hj fun a ha h => GInst.ctrOf_inj hn (hbody a ha) (hbody j hj) h, hy]
  exact Nat.mod_eq_of_lt hinit

/-- A while node whose body holds a node that has not ended has not come to the end of its pass. -/
theorem GInst.passDone_false {j : Nat} {y : NodeSt} (hj : g.nodes[j]? = some y) (hh : x.holds j = true) (he : y.phase.ended = false) :
    g.passDone x = false := by
  have hmem : (y, j) ∈ g.nodes.zipIdx.filter fun q => x.holds q.2 :=
    List.mem_filter.mpr ⟨List.mk_mem_zipIdx_iff_getElem?.mpr hj, hh⟩
  have hall : ((g.nodes.zipIdx.filter fun q => x.holds q.2).all fun q => q.1.phase.ended) = false :=
    List.all_eq_false.mpr ⟨_, hmem, by simp [he]⟩
  simp [GInst.passDone, hall]

/-- A pass of a body that is not empty: its counters reset, and its roots, which have counters above 0, released. -/
theorem State.pass_spec {roots : List Nat} (hg : s.inst? g.id = some g) (hlive : g.live = true) (hx : g.nodes[i]? = some x)
    (hi : i ∉ body) (hn : g.nodes.length ≤ 4096) (hbody : ∀ a ∈ body, a < g.nodes.length) (hheld : ∀ a ∈ body, x.holds a = true)
    (hne : body ≠ []) (hinit : ∀ (j : Nat) (y : NodeSt), g.nodes[j]? = some y → y.init < 65536) (hsub : roots.Sublist body)
    (hnodup : body.Nodup) (hpos : ∀ j ∈ roots, ∀ y, g.nodes[j]? = some y → 0 < y.init) :
    let t := (s.passBegun g i body).releaseAll g.id (roots.map fun j => (j, false))
    ∃ g', t.inst? g.id = some g' ∧ t.mem = s.mem ∧ (∃ y, g'.nodes[i]? = some y ∧ y.phase = .running) ∧
      ∀ j ∈ body, ∀ y, g.nodes[j]? = some y → t.ctr (g.ctrOf j) = (if j ∈ roots then y.init - 1 else y.init) ∧
        ∃ y', g'.nodes[j]? = some y' ∧ y'.plain = decide (j ∈ roots) ∧
          y'.phase = if j ∈ roots ∧ y.init - 1 = 0 then .ready else .waiting := by
  obtain ⟨hborn, -, hfault, hrev⟩ := g.live_iff.mp hlive
  obtain ⟨g1, hg1, hsame1, hi1, hb1⟩ := State.inst?_passBegun hg hx hi
  have hctrOf : g1.ctrOf = g.ctrOf := by rw [hsame1]; rfl
  have hget : ∀ j ∈ body, ∃ y, g.nodes[j]? = some y := fun j hj => ⟨_, List.getElem?_eq_getElem (hbody j hj)⟩
  have hstart : ∀ j ∈ body, ∀ y, g.nodes[j]? = some y → (s.passBegun g i body).ctr (g.ctrOf j) = y.init := fun j hj y hy =>
    State.ctr_passBegun hn hbody hj hy (hinit j y hy)
  obtain ⟨fuel, hfuel, heq⟩ := State.releaseAll_eq (roots.map fun j => (j, false)) hg1
  have hkeys : (roots.map g1.ctrOf).Nodup := by
    rw [hctrOf]
    exact (hnodup.sublist hsub).map_on fun a ha b hb h => GInst.ctrOf_inj hn (hbody a (hsub.subset ha)) (hbody b (hsub.subset hb)) h
  obtain ⟨hmem2, hck2, hcj2, g2, hg2, hsame2, hnode2⟩ := releaseLoop_roots roots (by simpa using hfuel) hg1 hkeys fun j hj => by
    obtain ⟨y, hy⟩ := hget j (hsub.subset hj)
    rw [hctrOf, hstart j (hsub.subset hj) y hy]
    exact ⟨hpos j hj y hy, _, hb1 j (hsub.subset hj) y hy⟩
  rw [hctrOf] at hck2 hcj2 hnode2
  obtain ⟨hstill3, hctr3, g3, hg3, hpass⟩ := State.passEnds_spec hg2
  have hi2 : g2.nodes[i]? = some (x.withPhase .running) := by
    obtain ⟨now, h⟩ := hnode2 i _ hi1
    rwa [if_neg fun h => hi (hsub.subset h)] at h
  have hb2 : ∀ j ∈ body, ∀ y, g.nodes[j]? = some y → ∃ y', g2.nodes[j]? = some y' ∧ y'.plain = decide (j ∈ roots) ∧
      y'.phase = if j ∈ roots ∧ y.init - 1 = 0 then .ready else .waiting := fun j hj y hy => by
    obtain ⟨now, h⟩ := hnode2 j _ (hb1 j hj y hy)
    refine ⟨_, h, ?_⟩
    by_cases hr : j ∈ roots
    · have hp := hpos j hr y hy
      rw [if_pos hr, hstart j hj y hy]
      by_cases h1 : y.init = 1
      · simp [NodeSt.reached, hr, h1]
      · have h0 : ¬y.init - 1 = 0 := by omega
        simp [NodeSt.reached, hr, h1, h0, NodeSt.restarted]
    · simp [hr, NodeSt.restarted]
  have hopen : ∀ j ∈ body, ∀ y', g2.nodes[j]? = some y' → y'.phase.ended = false ∧ y'.phase ≠ .running := fun j hj y' hy' => by
    obtain ⟨y, hy⟩ := hget j hj
    obtain ⟨y'', hy'', -, hphase⟩ := hb2 j hj y hy
    obtain rfl : y'' = y' := by simpa [hy''] using hy'
    rw [hphase]
    split
    · exact ⟨rfl, nofun⟩
    · exact ⟨rfl, nofun⟩
  have hi3 : g3.nodes[i]? = some (x.withPhase .running) := by
    obtain ⟨a, ha⟩ := List.exists_mem_of_ne_nil body hne
    obtain ⟨y, hy⟩ := hget a ha
    obtain ⟨y', hy', -⟩ := hb2 a ha y hy
    have hopen' : g2.passDone (x.withPhase .running) = false := GInst.passDone_false hy' (hheld a ha) (hopen a ha y' hy').1
    exact (hpass.node i _ hi2).resolve_right fun ⟨hdone, _⟩ => by simp [hopen'] at hdone
  have hlive3 : g3.born = true ∧ g3.fault = none ∧ g3.revoked = false := by
    rw [hpass.same, hsame2, hsame1]
    exact ⟨hborn, hfault, hrev⟩
  obtain ⟨hborn3, hfault3, hrev3⟩ := hlive3
  dsimp only
  rw [heq, State.settle_going hg3 hborn3 hfault3 hrev3 hi3 rfl]
  refine ⟨g3, hg3, hstill3.mem.trans (hmem2.trans State.still_passBegun.mem), ⟨_, hi3, rfl⟩, fun j hj y hy => ⟨?_, ?_⟩⟩
  · rw [hctr3]
    by_cases hr : j ∈ roots
    · rw [if_pos hr, hcj2 j hr, hstart j hj y hy]
    · rw [if_neg hr, hck2 _ fun h => ?_, hstart j hj y hy]
      obtain ⟨a, ha, hk⟩ := List.mem_map.mp h
      exact hr (GInst.ctrOf_inj hn (hbody a (hsub.subset ha)) (hbody j hj) hk ▸ ha)
  · obtain ⟨y', hy', hplain, hphase⟩ := hb2 j hj y hy
    exact ⟨y', hpass.node_of_not_running hy' (hopen j hj y' hy').2, hplain, hphase⟩

end

end Sys2Proof.Machine
end

section
/-! SUPPORT. The walker's nodes (R40, R265 to R267, R342) and the grace of a pre-emption (R345). -/
namespace Sys2Proof.Machine

section
variable {s s1 : State} {g : GInst} {i k : Nat} {x : NodeSt}

theorem readyNode_ok (h : s.ReadyNode g i k x) : Ok (readyNode g.id i k) s (g, x) s := by
  obtain ⟨hg, hlive, hx, hready, hkind⟩ := h
  have hall : g.live = true ∧ x.phase = .ready ∧ x.kind = k := ⟨hlive, hready, hkind⟩
  simp only [Ok, readyNode, M.run_bind_get, hg, hx, if_pos hall, M.run_pure]

theorem readyNode_none {id : Nat} (h : s.inst? id = none) : (readyNode id i k).run s = (.error .stall, s) := by
  simp only [readyNode, M.run_bind_get, h, M.run_throw]

/-! ### Nodes of an instance that is not there -/

theorem nodes_none {id : Nat} (h : s.inst? id = none) :
    ∀ x ∈ [Instr.conditionalNode id i, .whileNode id i, .joinNode id i, .timedStartNode id i, .transformJob id i], exec x s = .next s := by
  have hbind : ∀ (k : Nat) (f : GInst × NodeSt → M Unit), (readyNode id i k >>= f).run s = (.error .stall, s) := fun k f => by
    rw [M.run_bind, readyNode_none h]
  simp only [List.mem_cons, List.not_mem_nil, or_false, forall_eq_or_imp, forall_eq]
  exact ⟨runEvent_stall (hbind 3 _), runEvent_stall (hbind 4 _), runEvent_stall (hbind 5 _), runEvent_stall (hbind 6 _),
    runEvent_stall (hbind 2 _)⟩

/-! ### The condition word -/

theorem condWord_ok {l : List Byte} (h : Ok (hubTryVa g.ctx x.p0 8) s (some l) s1) : Ok (condWord g i x) s (some (leNat l)) s1 := by
  simp only [Ok, condWord, h.bind_run, M.run_pure]

theorem condWord_unread (h : Ok (hubTryVa g.ctx x.p0 8) s none s1) :
    Ok (condWord g i x) s none ((s1.dropped g.id i).graphFault g.id 6 i) := by
  simp only [Ok, condWord, h.bind_run, M.run_bind_modify, M.run_pure]
  rfl

theorem conditional_releases {l : List Byte} (h : s.ReadyNode g i 3 x) (hl : Ok (hubTryVa g.ctx x.p0 8) s (some l) s1) :
    exec (.conditionalNode g.id i) s = .next ((s1.retireNode g.id i).releaseAll g.id
      ((x.nsuc.map fun j => (j, leNat l == 0)) ++ (x.nelse.map fun j => (j, leNat l != 0)))) := by
  refine runEvent_ok ?_
  simp only [Ok, conditionalOp, (readyNode_ok h).bind_run, (condWord_ok hl).bind_run, M.run_modify]
  rfl

theorem conditional_unread (h : s.ReadyNode g i 3 x) (hl : Ok (hubTryVa g.ctx x.p0 8) s none s1) :
    exec (.conditionalNode g.id i) s = .next ((s1.dropped g.id i).graphFault g.id 6 i) := by
  refine runEvent_ok ?_
  simp only [Ok, conditionalOp, (readyNode_ok h).bind_run, (condWord_unread hl).bind_run, M.run_pure]

/-! ### A while node -/

theorem while_exits {l : List Byte} (h : s.ReadyNode g i 4 x) (hl : Ok (hubTryVa g.ctx x.p0 8) s (some l) s1) (hz : leNat l = 0) :
    exec (.whileNode g.id i) s = .next (s1.completeNode g.id i) := by
  refine runEvent_ok ?_
  simp only [Ok, whileOp, (readyNode_ok h).bind_run, (condWord_ok hl).bind_run, if_pos hz, M.run_modify]

/-- The nodes of the body of a while node that exist. -/
def GInst.bodyOf (g : GInst) (x : NodeSt) : List Nat := (span x.body.1 (x.body.2 + 1 - x.body.1)).filter (· < g.nodes.length)

/-- The roots of the body of node `i`: its own nodes that are no node's successor. -/
def GInst.rootsOf (g : GInst) (i : Nat) (x : NodeSt) : List Nat :=
  (g.bodyOf x).filter fun j => innermost g.nodes j == some i && !(g.nodes.any fun y => (y.nsuc ++ y.nelse).contains j)

theorem while_begins {l : List Byte} (h : s.ReadyNode g i 4 x) (hl : Ok (hubTryVa g.ctx x.p0 8) s (some l) s1) (hz : leNat l ≠ 0) :
    exec (.whileNode g.id i) s =
      .next ((s1.passBegun g i (g.bodyOf x)).releaseAll g.id ((g.rootsOf i x).map fun j => (j, false))) := by
  refine runEvent_ok ?_
  simp only [Ok, whileOp, (readyNode_ok h).bind_run, (condWord_ok hl).bind_run, if_neg hz, M.run_modify]
  rfl

theorem NodeSt.body_eq (x : NodeSt) : x.body = (x.p1 % 65536, x.p1 / 65536 % 65536) := by
  simp [NodeSt.body, bits_eq_div_mod]

theorem GInst.mem_bodyOf {j : Nat} (hh : x.p1 / 65536 % 65536 < g.nodes.length) :
    j ∈ g.bodyOf x ↔ x.p1 % 65536 ≤ j ∧ j ≤ x.p1 / 65536 % 65536 := by
  simp only [GInst.bodyOf, List.mem_filter, mem_span_iff, NodeSt.body_eq, decide_eq_true_eq]
  omega

/-- A pass of the body of a while node with a nonzero word (R342). -/
theorem while_pass {l : List Byte} (h : s.ReadyNode g i 4 x) (hl : Ok (hubTryVa g.ctx x.p0 8) s (some l) s1) (hg : s1.inst? g.id = some g)
    (hz : leNat l ≠ 0) : let lo := x.p1 % 65536
    let hi := x.p1 / 65536 % 65536
    let root := fun (j : Nat) => innermost g.nodes j == some i && !(g.nodes.any fun y => (y.nsuc ++ y.nelse).contains j)
    i < lo → lo ≤ hi → hi < g.nodes.length → g.nodes.length ≤ 4096 →
    (∀ (j : Nat) (y : NodeSt), g.nodes[j]? = some y → y.init < 65536 ∧ (root j = true → 0 < y.init)) →
    ∃ (t : State) (g' : GInst), exec (.whileNode g.id i) s = .next t ∧ t.inst? g.id = some g' ∧ t.mem = s1.mem ∧
      (∃ y, g'.nodes[i]? = some y ∧ y.phase = .running) ∧
      ∀ (j : Nat) (y : NodeSt), lo ≤ j → j ≤ hi → g.nodes[j]? = some y → let v := if root j then y.init - 1 else y.init
        t.ctr (g.ctrOf j) = v ∧ ∃ y', g'.nodes[j]? = some y' ∧ y'.plain = root j ∧ y'.phase = if root j ∧ v = 0 then .ready else .waiting := by
  intro lo hi root hilo hlohi hhi hn hinit
  obtain ⟨-, hlive, hx, -, hkind⟩ := id h
  have hmem : ∀ j, j ∈ g.bodyOf x ↔ lo ≤ j ∧ j ≤ hi := fun j => GInst.mem_bodyOf hhi
  have hroots : ∀ j ∈ g.bodyOf x, (j ∈ g.rootsOf i x ↔ root j = true) := fun j hj => by
    rw [GInst.rootsOf, List.mem_filter]
    exact and_iff_right hj
  have hheld : ∀ a ∈ g.bodyOf x, x.holds a = true := fun a ha => by
    simp only [NodeSt.holds, hkind, NodeSt.body_eq, beq_self_eq_true, Bool.true_and, decide_eq_true_eq]
    exact (hmem a).mp ha
  have hlo : lo ∈ g.bodyOf x := (hmem lo).mpr ⟨Nat.le_refl _, hlohi⟩
  obtain ⟨g', hg', hm, hrun, hbody⟩ := State.pass_spec (roots := g.rootsOf i x) hg hlive hx
    (fun hi => by have := (hmem i).mp hi; omega) hn (fun a ha => by have := (hmem a).mp ha; omega) hheld (List.ne_nil_of_mem hlo)
    (fun j y hy => (hinit j y hy).1) List.filter_sublist ((nodup_span _ _).filter _)
    fun j hj y hy => (hinit j y hy).2 ((hroots j (List.mem_of_mem_filter hj)).mp hj)
  refine ⟨_, g', while_begins h hl hz, hg', hm, hrun, fun j y h1 h2 hy => ?_⟩
  have hj : j ∈ g.bodyOf x := (hmem j).mpr ⟨h1, h2⟩
  obtain ⟨hctr, y', hy', hplain, hphase⟩ := hbody j hj y hy
  simp only [hroots j hj] at hctr hplain hphase
  refine ⟨hctr, y', hy', by simpa using hplain, hphase.trans ?_⟩
  by_cases hr : root j = true
  · simp [hr]
  · simp [hr]

/-! ### Nodes that do no work -/

theorem join_completes (h : s.ReadyNode g i 5 x) : exec (.joinNode g.id i) s = .next (s.completeNode g.id i) := by
  refine runEvent_ok ?_
  simp only [Ok, joinOp, (readyNode_ok h).bind_run, M.run_modify]

theorem timedStart_waits (h : s.ReadyNode g i 6 x) (ht : s.datum g.die < x.p0) : exec (.timedStartNode g.id i) s = .next s := by
  refine runEvent_stall (t := s) ?_
  simp only [timedStartOp, (readyNode_ok h).bind_run, M.run_bind_get, if_pos ht, M.run_bind_throw]

theorem timedStart_completes (h : s.ReadyNode g i 6 x) (ht : ¬s.datum g.die < x.p0) :
    exec (.timedStartNode g.id i) s = .next (s.completeNode g.id i) := by
  refine runEvent_ok ?_
  simp only [Ok, timedStartOp, (readyNode_ok h).bind_run, M.run_bind_get, if_neg ht, M.run_modify]

/-- A ready node that completes, none of its releases being a last one. -/
theorem State.ReadyNode.released (h : s.ReadyNode g i k x) (hg : s1.inst? g.id = some g)
    (hn : s1.NoneLast g (x.nsuc.map fun j => (j, false))) : s1.Released (s1.completeNode g.id i) g i (x.nsuc.map fun j => (j, false)) := by
  obtain ⟨-, hlive, hx, hready, -⟩ := h
  rw [State.completeNode_eq hg hx]
  exact State.released_releaseAll hg hlive hx hready hn

theorem State.ReadyNode.dropped (h : s.ReadyNode g i k x) (hg : s1.inst? g.id = some g) (cause : Nat) :
    s1.Dropped ((s1.dropped g.id i).graphFault g.id cause i) g i cause := by
  obtain ⟨-, hlive, -⟩ := h
  obtain ⟨hborn, -, hfault, hrev⟩ := g.live_iff.mp hlive
  exact State.dropped_graphFault hg hborn hfault hrev cause

/-! ### Transform jobs -/

theorem State.loc_hub (s : State) {pa : Nat} (hlo : 0x010000000000 ≤ pa) (hhi : pa < 0x010040000000) :
    s.loc pa = .hub (pa - 0x010000000000) := by
  simp only [State.loc, State.norm_of_lt s (show pa < 2 ^ 51 by omega), if_neg (show ¬pa < 2 ^ 39 by omega),
    if_neg (show ¬pa < 0x010000000000 by omega), if_pos hhi]

/-- Where a job may lie. -/
theorem State.jobPlace {pa : Nat} (h : s.isDram pa = true ∨ (0x010000000000 ≤ pa ∧ pa < 0x010040000000)) :
    (∃ st off, s.loc pa = .dram st off) ∨ ∃ off, s.loc pa = .hub off := by
  rcases h with h | ⟨hlo, hhi⟩
  · left
    unfold State.isDram at h
    split at h
    next st off hl => exact ⟨st, off, hl⟩
    next => cases h
  · exact .inr ⟨_, s.loc_hub hlo hhi⟩

theorem jobAnswer_ok {ctx pa res det need : Nat}
    (h : Ok (writeRun (hubReq ctx) (pa + 56) (leBytes 1 res ++ leBytes 1 det ++ leBytes 2 0 ++ leBytes 4 need)) s () s1) :
    Ok (jobAnswer ctx pa res det need) s () s1 := h.tryCatch

theorem transform_ends {s2 s3 s4 : State} {ph : Phys} {raw : List Byte} {r : Nat × Nat × Nat} (h : s.ReadyNode g i 2 x)
    (hx : Ok (hubXlate g.ctx .load x.p0) s ph s1)
    (hplace : s1.isDram ph.pa = true ∨ (0x010000000000 ≤ ph.pa ∧ ph.pa < 0x010040000000)) (hal : ph.pa % 64 = 0)
    (hraw : Ok (hubRead g.ctx ph.pa 64) s1 (some raw) s2) (hrun : Ok ((Job.of raw).run g.ctx raw) s2 r s3)
    (hw : Ok (writeRun (hubReq g.ctx) (ph.pa + 56) (leBytes 1 r.1 ++ leBytes 1 r.2.1 ++ leBytes 2 0 ++ leBytes 4 r.2.2)) s3 () s4) :
    exec (.transformJob g.id i) s =
      .next (if r.1 = 0 then s4.completeNode g.id i else (s4.dropped g.id i).graphFault g.id 3 i) := by
  refine runEvent_ok (m := transformJobOp g.id i) ((readyNode_ok h).bind ?_)
  have hsome : Ok (do pure (some (← hubXlate g.ctx .load x.p0))) s (some ph) s1 := by simp only [Ok, hx.bind_run, M.run_pure]
  have hrest : ∀ fail : M Unit, Ok fail s4 () ((s4.dropped g.id i).graphFault g.id 3 i) →
      Ok (if r.1 = 0 then modify fun s => s.completeNode g.id i else fail) s4 ()
        (if r.1 = 0 then s4.completeNode g.id i else (s4.dropped g.id i).graphFault g.id 3 i) := fun fail hfail => by
    by_cases hr : r.1 = 0
    · simp only [Ok, if_pos hr, M.run_modify]
    · simp only [if_neg hr]
      exact hfail
  refine Ok.bind hsome.tryCatch ?_
  rcases State.jobPlace hplace with ⟨st, off, hl⟩ | ⟨off, hl⟩
  · simp only [Ok, M.run_bind_get, hl, Bool.true_eq_false, hal, ne_eq, not_true_eq_false, or_self, if_false, hraw.bind_run, hrun.bind_run,
      (jobAnswer_ok hw).bind_run]
    exact hrest _ (M.run_modify ..)
  · simp only [Ok, M.run_bind_get, hl, Bool.true_eq_false, hal, ne_eq, not_true_eq_false, or_self, if_false, hraw.bind_run, hrun.bind_run,
      (jobAnswer_ok hw).bind_run]
    exact hrest _ (M.run_modify ..)

theorem jobRun_bad {j : Job} {ctx : Nat} {raw : List Byte} {r : Nat × Nat × Nat} (hbad : j.bad raw = true)
    (h : Ok (j.run ctx raw) s r s1) : r = (1, 0, 0) ∧ s1 = s := by
  have hrun : Ok (j.run ctx raw) s (1, 0, 0) s := by simp only [Ok, Job.run, hbad, if_true, M.run_pure]
  exact h.det hrun

/-- A transpose or a copy moves the elements of a row (R265). -/
theorem jobRow_move {j : Job} {ctx r : Nat} {row : List Byte} (hop : j.op = 3)
    (h : Ok (j.read ctx (addVa j.src (r * j.sstr)) (j.len * ((tyOf j.stype).width / 8))) s row s1) :
    Ok (j.row ctx r) s (if bit j.flags 5 then (List.range j.len).map fun (e : Nat) =>
        (addVa j.dst (e * j.dstr + (r * ((tyOf j.stype).width / 8) : Nat)), (row.drop (e * ((tyOf j.stype).width / 8))).take ((tyOf j.stype).width / 8))
      else [(addVa j.dst (r * j.dstr), row)]) s1 := by
  simp only [Ok, Job.row, hop, Nat.reduceEqDiff, if_false, if_true, h.bind_run]
  have htr : bit j.flags 5 = j.tr := rfl
  rw [htr]
  by_cases ht : j.tr = true
  · simp only [if_pos ht, M.run_pure]
  · simp only [if_neg ht, M.run_pure]

/-- A conversion rounds the elements of a row to their new type (R266). -/
theorem jobRow_convert {j : Job} {ctx r : Nat} {row : List Byte} (hop : j.op = 4)
    (h : Ok (j.read ctx (addVa j.src (r * j.sstr)) ((tyOf j.stype).bytes j.len)) s row s1) :
    Ok (j.row ctx r) s [(addVa j.dst (r * j.dstr), (tyOf j.dtype).rowBytes ((List.range j.len).map fun e =>
      ((tyOf j.dtype).round j.ovf j.rnd ((tyOf j.stype).value ((tyOf j.stype).inRow row e)).1).code))] s1 := by
  simp only [Ok, Job.row, hop, Nat.reduceEqDiff, if_false, h.bind_run, M.run_pure]

/-! ### The grace of a pending pre-emption (R345) -/

variable {n : Nat}

theorem grace_none (h : (s.core n).task = none) : exec (.preemptionGraceExpiry n) s = .next s := by
  refine runEvent_stall (t := s) ?_
  simp only [graceExpiryOp, M.run_bind_get, h, M.run_throw]

theorem grace_notPending {t : TaskSt} (h : (s.core n).task = some t) (hp : t.pend = none) : exec (.preemptionGraceExpiry n) s = .next s := by
  refine runEvent_stall (t := s) ?_
  simp only [graceExpiryOp, M.run_bind_get, h, hp, M.run_throw]

theorem grace_runs {t : TaskSt} {t0 : Nat} (h : (s.core n).task = some t) (hp : t.pend = some t0)
    (hw : s.now < t0 + s.grace ∨ (s.core n).suspended = true) : exec (.preemptionGraceExpiry n) s = .next s := by
  refine runEvent_stall (t := s) ?_
  simp only [graceExpiryOp, M.run_bind_get, h, hp, if_pos hw, M.run_bind_throw]

theorem grace_over {t : TaskSt} {t0 : Nat} (h : (s.core n).task = some t) (hp : t.pend = some t0)
    (hw : ¬(s.now < t0 + s.grace ∨ (s.core n).suspended = true)) : exec (.preemptionGraceExpiry n) s =
      .next (if s.abortsInstead n then s.abortTask n else s.modCore n fun c => { c with hart := c.hart.setCsrBits 0x344 16 16 1 }) := by
  refine runEvent_ok ?_
  simp only [Ok, graceExpiryOp, M.run_bind_get, h, hp, if_neg hw]
  split
  · simp only [M.run_modify]
  · simp only [M.run_modify]

end

/-- Settles O52: node by node, through what a node that retires, that is dropped, or that begins a pass leaves. -/
theorem graphNodes : Obligations.GraphNodes := by
  refine ⟨fun s id i h => nodes_none h, fun s s1 g i x l h hl hg => ?cond, fun s s1 g i x h hl hg => ?condUnread,
    fun s s1 g i x l h hl hg => ⟨fun hz hn => ?whileExit, while_pass h hl hg⟩,
    fun s g i x => ⟨fun h hn => ?join, timedStart_waits, fun h ht hn => ?timed⟩,
    fun s s1 s2 s3 s4 g i x ph raw r => ?transform, fun s s1 j ctx r row => ⟨jobRow_move, jobRow_convert⟩,
    fun s n _ => ⟨grace_none, fun k hk => ⟨grace_notPending hk, fun t0 hp => ⟨grace_runs hk hp, fun hw hs => ?grace⟩⟩⟩⟩
  case cond =>
    intro z rel hn
    obtain ⟨-, hlive, hx, hready, -⟩ := id h
    exact ⟨_, conditional_releases h hl, State.released_releaseAll hg hlive hx hready hn⟩
  case condUnread => exact ⟨_, conditional_unread h hl, h.dropped hg 6⟩
  case whileExit => exact ⟨_, while_exits h hl hz, h.released hg hn⟩
  case join => exact ⟨_, join_completes h, h.released h.1 hn⟩
  case timed => exact ⟨_, timedStart_completes h (Nat.not_lt.mpr ht), h.released h.1 hn⟩
  case transform =>
    intro rel job h hx hplace hal hraw hrun hw hg
    have hexec := transform_ends h hx hplace hal hraw hrun hw
    refine ⟨fun hr hn => ⟨_, hexec, ?_⟩, fun hr => ⟨_, hexec, ?_⟩, fun hbad => jobRun_bad hbad hrun⟩
    · rw [if_pos hr]
      exact h.released hg hn
    · rw [if_neg hr]
      exact h.dropped hg 3
  case grace =>
    have hover := grace_over hk hp (by simp [hs, Nat.not_lt.mpr hw])
    refine ⟨fun ha hsound => ⟨_, hover, ?_⟩, fun ha => ⟨_, hover, ?_⟩⟩
    · rw [if_pos ha]
      exact State.abortTask_isIdle hk hsound
    · rw [if_neg (by simp [ha])]
      exact s.onlyCore_modCore n _

end Sys2Proof.Machine
end

section
/-! SUPPORT. The dispatch of a ready node (R22, R343, R345, R271, R286): the state of the core it goes to. -/
namespace Sys2Proof.Machine

/-! ### The core of a dispatched task (R22) -/

/-- A local interrupt becomes pending. -/
theorem Hart.csrBit_setCsrBits_one (h : Hart) (num i : Nat) (hi : i < 64) : (h.setCsrBits num i i 1).csrBit num i = true := by
  have hlen : i + 1 - i = 1 := by omega
  simp only [Hart.csrBit, Hart.setCsrBits, Hart.csrRaw_setCsrRaw, setBits, bits_eq_div_mod, hlen, Nat.shiftLeft_eq, BitVec.getLsbD_ofNat]
  generalize (h.csrRaw num).toNat = w
  have hpow : 0 < 2 ^ i := Nat.two_pow_pos i
  have hdiv : (w - w / 2 ^ i % 2 ^ 1 * 2 ^ i + 1 % 2 ^ 1 * 2 ^ i) / 2 ^ i % 2 = 1 := by
    have hw : w = 2 ^ i * (w / 2 ^ i) + w % 2 ^ i := (Nat.div_add_mod w (2 ^ i)).symm
    have hsub : w - w / 2 ^ i % 2 ^ 1 * 2 ^ i = 2 ^ i * (w / 2 ^ i - w / 2 ^ i % 2) + w % 2 ^ i := by
      have hle : w / 2 ^ i % 2 ≤ w / 2 ^ i := Nat.mod_le _ _
      rw [Nat.mul_sub, Nat.mul_comm (w / 2 ^ i % 2 ^ 1), pow_one]
      have := Nat.mul_le_mul_left (2 ^ i) hle
      omega
    rw [hsub, show 1 % 2 ^ 1 * 2 ^ i = 2 ^ i * 1 by simp, Nat.add_right_comm, ← Nat.mul_add, Nat.mul_add_div hpow,
      Nat.div_eq_of_lt (Nat.mod_lt _ hpow)]
    omega
  rw [Nat.testBit_eq_decide_div_mod_eq, hdiv]
  simp [hi]

/-- A ring at the dispatch state: empty, not halted, of U, its configuration as it was (R309). -/
theorem Core.dispatchState_ring (c : Core) (e : Eng) : c.dispatchState.ring e =
    { c.ring e with read := (c.ring e).write, retire := (c.ring e).write, org := [], flight := [], halted := false, owner := false } := by
  have hring : c.dispatchState.ring e =
      (Eng.all.foldl (fun c e => let r := c.ring e; c.setRing e { r with owner := false }) c.emptyRings).ring e := rfl
  rw [hring]
  have hempty := c.emptyRings_ring e
  generalize c.emptyRings = b at hempty
  simp only [Eng.all, List.foldl]
  cases e <;> simp [hempty]

section
variable (h : Hart) (n : Nat) (pc satp : W64)

theorem Hart.get_forDispatch (r : Reg) : (h.forDispatch n pc satp).get r =
    if r = 10#5 then BitVec.ofNat 64 (0x020000000000 + n * 0x1000000) else if r = 11#5 then BitVec.ofNat 64 n else 0 := by
  have hx : (h.forDispatch n pc satp).x = Table.put 0 (Table.put 0 [] 10 (BitVec.ofNat 64 (spBase n))) 11 (BitVec.ofNat 64 n) := rfl
  rw [Hart.get, hx]
  have h11 : (11#5).toNat = 11 := rfl
  have h10 : (10#5).toNat = 10 := rfl
  by_cases hr11 : r = 11#5
  · rw [hr11, if_neg (by decide), if_neg (by decide), if_pos rfl, h11, Table.get_put_same]
  have hne11 : r.toNat ≠ 11 := fun hr => hr11 (BitVec.eq_of_toNat_eq hr)
  by_cases hr10 : r = 10#5
  · rw [hr10, if_neg (by decide), if_pos rfl, h10, Table.get_put_ne _ _ (by decide), Table.get_put_same, spBase]
  have hne10 : r.toNat ≠ 10 := fun hr => hr10 (BitVec.eq_of_toNat_eq hr)
  rw [if_neg hr10, if_neg hr11, Table.get_put_ne _ _ hne11, Table.get_put_ne _ _ hne10]
  split
  · rfl
  · rfl

theorem Hart.csrRaw_forDispatch_satp : (h.forDispatch n pc satp).csrRaw 0x180 = satp := by
  have hcsr : (h.forDispatch n pc satp).csrRaw 0x180 = ((h.resetCsr800).setCsrRaw 0x180 satp).noLocal.csrRaw 0x180 := rfl
  rw [hcsr, Hart.noLocal, Hart.csrRaw_setCsrBits_ne _ _ _ _ (by decide), Hart.csrRaw_setCsrRaw]

/-- The registers of the 0x800 range are at their reset values (R310). -/
theorem Hart.csrRaw_forDispatch_reset {k : Nat} (hk : 0x800 ≤ k ∧ k < 0x900) : (h.forDispatch n pc satp).csrRaw k = csrReset k := by
  have hcsr : (h.forDispatch n pc satp).csrRaw k = ((h.resetCsr800).setCsrRaw 0x180 satp).noLocal.csrRaw k := rfl
  rw [hcsr, Hart.noLocal, Hart.csrRaw_setCsrBits_ne _ _ _ _ (by omega), Hart.csrRaw_setCsrRaw_ne _ _ (by omega), Hart.csrRaw,
    Hart.resetCsr800, Table.get_dropWhere, if_pos (decide_eq_true hk)]

end

/-! ### The walker's choice -/

section
variable {s s1 : State} {d n : Nat} {c : Cand}

theorem taskDispatch_none (h : s.nextCand d = none) : exec (.taskDispatch d) s = .next s := by
  refine runEvent_stall (t := s) ?_
  simp only [taskDispatchOp, M.run_bind_get, h, M.run_throw]

variable (h : s.nextCand d = some c)
include h

theorem taskDispatch_drops (hsay : s.says d c.x = .drop) : exec (.taskDispatch d) s = .next (s.dropNode c) := by
  refine runEvent_ok ?_
  simp only [Ok, taskDispatchOp, M.run_bind_get, h, if_pos hsay, M.run_modify]

theorem taskDispatch_noCore (hsay : s.says d c.x ≠ .drop) (hn : (coresOf d).find? s.idleCore = none) : exec (.taskDispatch d) s = .next s := by
  refine runEvent_stall (t := s) ?_
  simp only [taskDispatchOp, M.run_bind_get, h, if_neg hsay, hn, M.run_throw]

variable (hsay : s.says d c.x ≠ .drop) (hn : (coresOf d).find? s.idleCore = some n)
include hsay hn

theorem taskDispatch_asks (hask : s.says d c.x = .ask) : exec (.taskDispatch d) s = .next (s.askAbout d c) := by
  refine runEvent_ok ?_
  simp only [Ok, taskDispatchOp, M.run_bind_get, h, if_neg hsay, hn, if_pos hask, M.run_modify]

theorem taskDispatch_resumes (hask : s.says d c.x ≠ .ask) (hsusp : c.x.phase = .suspended) :
    exec (.taskDispatch d) s = .next (s.requestResume n c) := by
  refine runEvent_ok ?_
  simp only [Ok, taskDispatchOp, M.run_bind_get, h, if_neg hsay, hn, if_neg hask, if_pos hsusp, M.run_modify]

theorem taskDispatch_starts {t : State} (hask : s.says d c.x ≠ .ask) (hsusp : c.x.phase ≠ .suspended) (hd : Ok (dispatchTo n c) s () t) :
    exec (.taskDispatch d) s = .next t := by
  refine runEvent_ok ?_
  simp only [Ok, taskDispatchOp, M.run_bind_get, h, if_neg hsay, hn, if_neg hask, if_neg hsusp]
  exact hd

end

/-! ### A node dropped, asked about or resumed -/

section
variable {s : State} {n d : Nat} {c : Cand}

theorem State.dropNode_ready (h : c.x.phase = .ready) : s.dropNode c = (s.dropped c.g.id c.i).graphFault c.g.id 2 c.i := by
  have hs : c.x.phase ≠ .suspended := by rw [h]; nofun
  rw [State.dropNode, if_neg hs]
  rfl

theorem State.askAbout_eq {key : Nat} (hkey : s.streamOf c.x = some key) (hforeign : 65536 ≤ key) :
    s.askAbout d c = (s.modInst c.g.id fun g => g.modNode c.i fun x => { x with asked := some (key, .waiting) }).send (key / 65536 - 1)
      (.dispatchAsk (key % 65536) d (c.x.phase == .ready)) := by
  simp only [State.askAbout, hkey, State.tellHome, guestOf, if_neg (Nat.not_lt.mpr hforeign)]

/-- What a resume request makes of the core (R345). -/
def Core.resumed (k : Core) (c : Cand) : Core :=
  { k with hart := { (k.hart.noLocal.setCsrRaw 0x5C4 (BitVec.ofNat 64 c.x.save)).setCsrBits 0x344 17 17 1 with run := .run, wait := none }
           resuming := some (c.g.id, c.i), descs := [], dropDue := false, dropFor := [] }

theorem State.requestResume_eq : s.requestResume n c =
    (s.modInst c.g.id fun g => g.modNode c.i fun x => { x with phase := .running }).modCore n fun k => k.resumed c := rfl

theorem Core.resumed_save (k : Core) : (k.resumed c).hart.csrRaw 0x5C4 = BitVec.ofNat 64 c.x.save := by
  have hcsr : (k.resumed c).hart.csrRaw 0x5C4 =
      ((k.hart.noLocal.setCsrRaw 0x5C4 (BitVec.ofNat 64 c.x.save)).setCsrBits 0x344 17 17 1).csrRaw 0x5C4 := rfl
  rw [hcsr, Hart.csrRaw_setCsrBits_ne _ _ _ _ (by decide), Hart.csrRaw_setCsrRaw]

theorem Core.resumed_pending (k : Core) : (k.resumed c).hart.csrBit 0x344 17 = true :=
  Hart.csrBit_setCsrBits_one _ 0x344 17 (by decide)

theorem State.idleCore_task (h : s.idleCore n = true) : (s.core n).task = none := by
  simp only [State.idleCore, Bool.and_eq_true, Option.isNone_iff_eq_none] at h
  exact h.1.1.2

/-! ### A fresh task -/

theorem dispatchTo_fails {s1 : State} (h : Ok (hubTryVa c.g.ctx c.x.p1 64) s none s1) :
    Ok (dispatchTo n c) s () ((s1.dropped c.g.id c.i).graphFault c.g.id 5 c.i) := by
  simp only [Ok, dispatchTo, h.bind_run, M.run_modify]
  rfl

/-- The task that a dispatch starts. -/
def Cand.task (c : Cand) (s : State) : TaskSt :=
  { inst := c.g.id, node := c.i, ctx := c.g.ctx, susp := bit c.x.flags 0, pinned := false, stream := s.streamOf c.x, save := c.x.save,
    nodePa := c.g.gbase + 64 + 64 * c.i, prio := c.g.prio, since := s.now, pend := none }

/-- The core of a fresh task (R22). -/
def Core.started (k : Core) (s : State) (n : Nat) (c : Cand) : Core :=
  { k.dispatchState with hart := k.dispatchState.hart.forDispatch n (BitVec.ofNat 64 c.x.p0) (s.reg (0x030001602000 + 8 * c.g.ctx))
                         suspended := false, frozen := false, staging := Staging.empty, task := some (c.task s), resuming := none }

/-- The state once core `n` holds the task and its node runs. -/
def State.taskStarted (s : State) (n : Nat) (c : Cand) : State :=
  (s.modCore n fun k => k.started s n c).modInst c.g.id fun g => g.modNode c.i fun x => { x with phase := .running }

/-- Its stream counts the task, and one that had none is in use (R271). -/
def State.countTask (s : State) : Option Nat → State
  | none => s
  | some i =>
    if 65536 ≤ i then s
    else
      let u := s.setStream i { s.stream i with live := (s.stream i).live + 1 }
      if (s.stream i).state = 1 then u.toState i 2 else u

theorem State.countTask_frame (s : State) (o : Option Nat) : (s.countTask o).mem = s.mem ∧ (s.countTask o).cores = s.cores := by
  unfold State.countTask
  split
  · exact ⟨rfl, rfl⟩
  · dsimp only
    split
    · exact ⟨rfl, rfl⟩
    · split
      · exact ⟨rfl, rfl⟩
      · exact ⟨rfl, rfl⟩

theorem State.stream_setStream (s : State) (i : Nat) (t : Stream) : (s.setStream i t).stream i = t := Table.get_put_same ..

theorem State.countTask_stream (s : State) {i : Nat} (hi : i < 65536) : ((s.countTask (some i)).stream i).live = (s.stream i).live + 1 ∧
    ((s.countTask (some i)).stream i).state = if (s.stream i).state = 1 then 2 else (s.stream i).state := by
  simp only [State.countTask, if_neg (Nat.not_le.mpr hi)]
  by_cases h : (s.stream i).state = 1
  · simp only [if_pos h, State.toState, State.stream_setStream, and_self]
  · simp only [if_neg h, State.stream_setStream, and_self]

/-- A ring without an image is left as it is (R25). -/
theorem ringImage_empty {ctx addr : Nat} {e : Eng} : Ok (ringImage n ctx e addr 0) s () s := by
  simp only [Ok, ringImage, M.run_bind_get, if_true, M.run_pure]

theorem dispatchTo_starts {args img : List Byte} {s1 s2 s3 : State} (ha : Ok (hubTryVa c.g.ctx c.x.p1 64) s (some args) s1)
    (hi : Ok (hubRead c.g.ctx (c.g.gbase + c.x.imgoff) 96) s1 (some img) s2) (hw : Ok (spWrite (.hub c.g.ctx) n 0 args) s2 () s3)
    (hnone : ∀ e : Eng, fieldOf img (16 * e.num + 8) 4 = 0) :
    Ok (dispatchTo n c) s () ((s3.taskStarted n c).countTask (s3.streamOf c.x)) := by
  have himg : ∀ u : State, Ok (Eng.all.forM fun e => ringImage n c.g.ctx e (fieldOf img (16 * e.num) 8) (fieldOf img (16 * e.num + 8) 4)) u () u :=
    fun u => forM_ok_same _ fun e => by rw [hnone e]; exact ringImage_empty
  have hcount : ∀ u : State, Ok (match s3.streamOf c.x with
      | none => pure ()
      | some i =>
        if 65536 ≤ i then pure ()
        else modify fun s =>
          let t := s.stream i
          let s := s.setStream i { t with live := t.live + 1 }
          if t.state = 1 then s.toState i 2 else s) u () (u.countTask (s3.streamOf c.x)) := fun u => by
    cases s3.streamOf c.x with
    | none => rfl
    | some i =>
      by_cases hf : 65536 ≤ i
      · simp only [Ok, if_pos hf, M.run_pure, State.countTask]
      · simp only [Ok, if_neg hf, M.run_modify, State.countTask]
  simp only [Ok, dispatchTo, ha.bind_run, hi.bind_run, hw.bind_run, M.run_bind_get, M.run_bind_modify, (himg _).bind_run]
  exact hcount _

/-- The core of a fresh task is in the state of R22. -/
theorem Core.started_spec (k : Core) (s : State) (n : Nat) (c : Cand) : let t := k.started s n c
    t.hart.run = .run ∧ t.hart.priv = .u ∧ t.hart.pc = BitVec.ofNat 64 c.x.p0 ∧ t.hart.wait = none ∧ t.hart.resv = none ∧
    (∀ r : Reg, t.hart.get r = if r = 10#5 then BitVec.ofNat 64 (0x020000000000 + n * 0x1000000) else if r = 11#5 then BitVec.ofNat 64 n else 0) ∧
    t.hart.csrRaw 0x180 = s.reg (0x030001602000 + 8 * c.g.ctx) ∧ t.hart.csrRaw 0x800 = 0 ∧ t.hart.csrRaw 0x801 = 0x1000000#64 ∧
    (∀ i, t.sem i = 0) ∧ (∀ i, t.cb i = Cb.reset) ∧ t.v = [] ∧ t.k = [] ∧ t.pj = [] ∧ t.acc = [] ∧ t.staging = Staging.empty ∧
    t.suspended = false ∧ t.frozen = false :=
  ⟨rfl, rfl, rfl, rfl, rfl, Hart.get_forDispatch _ _ _ _, Hart.csrRaw_forDispatch_satp _ _ _ _,
    Hart.csrRaw_forDispatch_reset _ _ _ _ (by decide), Hart.csrRaw_forDispatch_reset _ _ _ _ (by decide), fun _ => rfl, fun _ => rfl,
    rfl, rfl, rfl, rfl, rfl, rfl, rfl⟩

theorem Core.started_ring (k : Core) (s : State) (n : Nat) (c : Cand) (e : Eng) : (k.started s n c).ring e = k.dispatchState.ring e := rfl

theorem Core.dispatchState_fq (k : Core) : k.dispatchState.fq = k.fq := by
  have hempty : k.emptyRings.fq = k.fq := rfl
  rw [← hempty]
  rfl

theorem Core.started_fq (k : Core) (s : State) (n : Nat) (c : Cand) : (k.started s n c).fq = k.fq := by
  have hfq : (k.started s n c).fq = k.dispatchState.fq := rfl
  rw [hfq, Core.dispatchState_fq]

end

/-- Settles O53: the walker's choice case by case, and the core that a fresh task finds. -/
theorem taskDispatch : Obligations.TaskDispatch := by
  intro s d
  refine ⟨taskDispatch_none, fun c h => ⟨fun hsay hready hg hfault hrev hborn => ⟨_, taskDispatch_drops h hsay, ?drop⟩,
    taskDispatch_noCore h, fun n hsay hn => ⟨fun key hask hkey hg hforeign => ⟨_, taskDispatch_asks h hsay hn hask, ?ask⟩,
      fun hsusp hask => ⟨_, taskDispatch_resumes h hsay hn hask hsusp, ?resume⟩,
      fun hsusp hask => ⟨fun s1 ha hg hfault hrev hborn => ?unread, fun args img s1 s2 s3 ha hi hw hnone => ?fresh⟩⟩⟩⟩
  case drop =>
    rw [State.dropNode_ready hready]
    exact State.dropped_graphFault hg hborn hfault hrev 2
  case ask =>
    rw [State.askAbout_eq hkey hforeign]
    exact ⟨rfl, rfl, rfl, State.inst?_modNode hg _ _⟩
  case resume =>
    have hfree := State.idleCore_task (List.find?_some hn)
    rw [State.requestResume_eq, State.core_modCore]
    exact ⟨State.modCore_mem .., fun m hm => State.core_modCore_ne _ _ hm, Core.resumed_save _, Core.resumed_pending _, rfl, rfl, rfl, hfree⟩
  case unread => exact ⟨_, taskDispatch_starts h hsay hn hask hsusp (dispatchTo_fails ha), State.dropped_graphFault hg hborn hfault hrev 5⟩
  case fresh =>
    obtain ⟨hmem, hcores⟩ := (s3.taskStarted n c).countTask_frame (s3.streamOf c.x)
    have hcore : ∀ m, ((s3.taskStarted n c).countTask (s3.streamOf c.x)).core m = (s3.modCore n fun k => k.started s3 n c).core m := fun m => by
      rw [State.core, hcores]
      rfl
    refine ⟨_, taskDispatch_starts h hsay hn hask hsusp (dispatchTo_starts ha hi hw hnone), hmem, fun m hm => ?_, ?_⟩
    · rw [hcore, State.core_modCore_ne _ _ hm]
      exact ⟨rfl, rfl⟩
    · dsimp only
      rw [hcore, State.core_modCore]
      obtain ⟨hrun, hpriv, hpc, hwait, hresv, hx, hsatp, hnumst, hlimit, hsem, hcb, hv, hk, hpj, hacc, hstaging, hsusp, hfrozen⟩ :=
        Core.started_spec (s3.core n) s3 n c
      refine ⟨⟨_, rfl, rfl, rfl, rfl, rfl, rfl, rfl, rfl, rfl, rfl⟩, hrun, hpriv, hpc, hwait, hresv, hx, hsatp, hnumst, hlimit, hsem, hcb, hv, hk,
        hpj, hacc, hstaging, hsusp, hfrozen, Core.started_fq (s3.core n) s3 n c, fun e => ?_, fun i hstream hlt => ?_⟩
      · rw [Core.started_ring, Core.dispatchState_ring]
        exact ⟨rfl, rfl, rfl, rfl, rfl, rfl⟩
      · rw [hstream]
        exact State.countTask_stream _ hlt

end Sys2Proof.Machine
end

section
/-! SUPPORT. What accesses to lines leave beside the bytes: tags, times and what releases cover (R112 to R123, R316 to R319). -/
namespace Sys2Proof.Machine

/-! ### Good checks -/

/-- Every copy that a table of tags lists has a good check (R106). -/
def TagsGood (l : Table (Option CTag)) : Prop := ∀ e ∈ l, ∀ t : CTag, e.2 = some t → t.diff0 = 0 ∧ t.diff1 = 0

/-- Every line of the package and every copy of one has a good check (R106). -/
structure State.Sound (s : State) : Prop where
  lines : ∀ e ∈ s.lines, e.2.diff = 0
  hub : TagsGood s.hubTags
  cc : TagsGood s.ccTags

theorem Table.mem_of_get {α : Type} {d v : α} {k : Nat} {t : Table α} (h : Table.get d t k = v) (hv : v ≠ d) : (k, v) ∈ t := by
  induction t with
  | nil => exact absurd h.symm hv
  | cons e r ih =>
    rw [Table.get] at h
    split at h
    · next hk => subst hk; subst h; exact List.mem_cons_self
    · exact List.mem_cons_of_mem _ (ih h)

theorem Table.mem_put {α : Type} [DecidableEq α] {d v : α} {k : Nat} {t : Table α} {e : Nat × α} (h : e ∈ Table.put d t k v) :
    e ∈ t ∨ e = (k, v) := by
  induction t with
  | nil =>
    rw [Table.put] at h
    split at h
    · exact .inl h
    · exact .inr (by simpa using h)
  | cons a r ih =>
    rw [Table.put] at h
    have hrec : e ∈ Table.put d r k v → e ∈ a :: r ∨ e = (k, v) := fun h => (ih h).imp_left (List.mem_cons_of_mem _)
    split at h
    · split at h
      · exact hrec h
      · rcases List.mem_cons.mp h with rfl | h
        · exact .inl List.mem_cons_self
        · exact hrec h
    · split at h
      · exact (List.mem_cons.mp h).symm
      · split at h
        · exact (List.mem_cons.mp h).symm.imp_left (List.mem_cons_of_mem _)
        · rcases List.mem_cons.mp h with rfl | h
          · exact .inl List.mem_cons_self
          · exact hrec h

theorem TagsGood.get {l : Table (Option CTag)} (h : TagsGood l) {k : Nat} {t : CTag} (ht : Table.get none l k = some t) :
    t.diff0 = 0 ∧ t.diff1 = 0 := h _ (Table.mem_of_get ht nofun) t rfl

theorem TagsGood.put {l : Table (Option CTag)} (h : TagsGood l) (k : Nat) {t : CTag} (ht : t.diff0 = 0 ∧ t.diff1 = 0) :
    TagsGood (Table.put none l k (some t)) := fun e he u hu => by
  rcases Table.mem_put he with he | rfl
  · exact h e he u hu
  · exact Option.some.inj hu ▸ ht

theorem TagsGood.filter {l : Table (Option CTag)} (h : TagsGood l) (p : Nat × Option CTag → Bool) : TagsGood (l.filter p) :=
  fun e he => h e (List.mem_filter.mp he).1

/-- A tag of a new line has a good check. -/
theorem State.newTag_good (s : State) (pa ctx res cls : Nat) (w : Bool) :
    (s.newTag pa ctx res cls w).diff0 = 0 ∧ (s.newTag pa ctx res cls w).diff1 = 0 := ⟨rfl, rfl⟩

theorem State.Sound.lineMeta {s : State} (h : s.Sound) (pa : Nat) : (s.lineMeta pa).diff = 0 := by
  by_cases hg : s.lineMeta pa = LineMeta.good
  · rw [hg]
    rfl
  · exact h.lines _ (Table.mem_of_get (rfl : s.lineMeta pa = _) hg)

/-- Where every check is good a write-back changes nothing. -/
theorem State.Sound.writeBackLine {s : State} (h : s.Sound) {t : CTag} (ht : t.diff0 = 0 ∧ t.diff1 = 0) : s.writeBackLine t = s := by
  rw [State.writeBackLine, ht.1, ht.2, State.writeBack_good _ _ (h.lineMeta _), State.writeBack_good _ _ (h.lineMeta _)]

/-! ### Steps beside the bytes -/

/-- A step beside the bytes: it moves tags, times and old copies, and what releases cover; of a core it moves its clock, what it
observed and what its queued stores cover. No check goes bad, and no old copy comes up. -/
structure State.Aside (s t : State) : Prop where
  rest : t = { s with
    stamp := t.stamp, hubTags := t.hubTags, ccTags := t.ccTags, dbp := t.dbp, dbpSample := t.dbpSample, dirtyWays := t.dirtyWays,
    stale := t.stale, scLines := t.scLines, cores := t.cores, relCov := t.relCov, posted := t.posted }
  cores : ∀ n, t.core n = { s.core n with observed := (t.core n).observed, sq := (t.core n).sq, clk := (t.core n).clk }
  queue : ∀ n, (s.core n).sq = [] → (t.core n).sq = []
  calm : s.stale = [] → t.stale = []
  sound : s.Sound → t.Sound

theorem State.Aside.refl (s : State) : s.Aside s := ⟨rfl, fun _ => rfl, fun _ h => h, id, id⟩

theorem State.Aside.trans {s t u : State} (h : s.Aside t) (k : t.Aside u) : s.Aside u where
  rest := by
    have hk := k.rest
    rw [h.rest] at hk
    exact hk
  cores n := by
    have hk := k.cores n
    rw [h.cores n] at hk
    exact hk
  queue n := k.queue n ∘ h.queue n
  calm := k.calm ∘ h.calm
  sound := k.sound ∘ h.sound

/-- A step beside the bytes that touches no core, and no table of tags but as given. -/
theorem State.Aside.of_tags {s t : State}
    (hr : t = { s with
      stamp := t.stamp, hubTags := t.hubTags, ccTags := t.ccTags, dbp := t.dbp, dbpSample := t.dbpSample, dirtyWays := t.dirtyWays,
      scLines := t.scLines, relCov := t.relCov })
    (hh : TagsGood s.hubTags → TagsGood t.hubTags) (hc : TagsGood s.ccTags → TagsGood t.ccTags) : s.Aside t := by
  have hcores : t.cores = s.cores := by rw [hr]
  have hcore : ∀ n, t.core n = s.core n := fun n => by rw [State.core, hcores]; rfl
  exact {
    rest := by rw [hr]
    cores := fun n => by rw [hcore]
    queue := fun n h => by rw [hcore, h]
    calm := fun h => by rw [hr]; exact h
    sound := fun h => ⟨by rw [hr]; exact h.lines, hh h.hub, hc h.cc⟩ }

/-- A step of one core that moves its clock or what it observed. -/
theorem State.aside_modCore (s : State) (n : Nat) (f : Core → Core)
    (hf : f (s.core n) = { s.core n with observed := (f (s.core n)).observed, clk := (f (s.core n)).clk }) : s.Aside (s.modCore n f) where
  rest := rfl
  cores m := by
    by_cases hm : m = n
    · subst hm
      rw [State.core_modCore]
      conv_lhs => rw [hf]
      rw [hf]
    · rw [State.core_modCore_ne _ _ hm]
  queue m := by
    by_cases hm : m = n
    · subst hm
      rw [State.core_modCore, hf]
      exact id
    · rw [State.core_modCore_ne _ _ hm]
      exact id
  calm := id
  sound h := ⟨h.lines, h.hub, h.cc⟩

theorem Table.get_map {α β : Type} (f : α → β) (d : α) (t : Table α) (k : Nat) :
    Table.get (f d) (t.map fun e => (e.1, f e.2)) k = f (Table.get d t k) := by
  induction t with
  | nil => rfl
  | cons e r ih =>
    rw [List.map_cons, Table.get, Table.get, ih]
    split <;> rfl

/-- A core's notes of lines, cut down. -/
def Core.noting (c : Core) (keep : List Nat → List Nat) : Core :=
  { c with observed := keep c.observed, sq := c.sq.map fun e => { e with cov := keep e.cov } }

theorem State.core_settleCover (s : State) (n : Nat) : s.settleCover.core n = (s.core n).noting (·.filter s.pending) :=
  Table.get_map (fun c : Core => c.noting (·.filter s.pending)) Core.reset s.cores n

theorem State.aside_settleCover (s : State) : s.Aside s.settleCover := by
  exact {
    rest := rfl
    cores := fun n => by rw [State.core_settleCover]; rfl
    queue := fun n h => by rw [State.core_settleCover, Core.noting, h]; rfl
    calm := id
    sound := fun h => ⟨h.lines, h.hub, h.cc⟩ }

theorem State.aside_takeInval (s : State) (p : StaleCopy → Bool) : s.Aside (s.takeInval p) := by
  by_cases hs : s.stale = []
  · rw [State.takeInval_none s p hs]
    exact .refl s
  · rw [State.takeInval]
    split
    · refine State.Aside.trans ?_ (State.aside_settleCover _)
      exact ⟨rfl, fun _ => rfl, fun _ h => h, fun h => absurd h hs, fun h => ⟨h.lines, h.hub, h.cc.filter _⟩⟩
    · exact .refl s

theorem State.aside_lostCopy (s : State) (die addr : Nat) : s.Aside (s.lostCopy die addr) := by
  rw [State.lostCopy]
  split
  · exact .refl s
  · exact s.aside_takeInval _

/-! ### Accesses to the hub array and to the cluster caches -/

theorem State.aside_dbpBump (s : State) (i : Nat) (up : Bool) : s.Aside (dbpBump s i up) := .of_tags rfl id id

section
variable {s : State} {pa ctx res cls : Nat} {write : Bool}

theorem State.Sound.aside_hubAlloc (h : s.Sound) (way : Nat) {t : CTag} (ht : t.diff0 = 0 ∧ t.diff1 = 0) :
    s.Aside (s.hubAlloc pa way t) := by
  have hplace : ∀ u : State, u.Aside { u with
      hubTags := Table.put none u.hubTags (hubKey (hubBank pa) way (hubSet pa)) (some t)
      dirtyWays := Table.put false u.dirtyWays (wayPart way (hubBank pa / 16)) true } := fun u => .of_tags rfl (·.put _ ht) id
  rw [State.hubAlloc]
  split
  · next old hold =>
    rw [h.writeBackLine (h.hub.get hold), ite_self]
    dsimp only
    split
    · exact hplace s
    · exact (s.aside_dbpBump _ _).trans (hplace _)
  · exact hplace s

theorem State.aside_hubHit (s : State) (k : Nat) {t : CTag} (ht : t.diff0 = 0 ∧ t.diff1 = 0) : s.Aside (s.hubHit k t res write) := by
  rw [State.hubHit]
  split
  · exact .of_tags rfl (·.put _ ht) id
  · refine State.Aside.trans ?_ (State.aside_dbpBump _ _ _)
    exact .of_tags rfl (·.put _ ht) id

theorem State.Sound.aside_hubPlace (h : s.Sound) : s.Aside (s.hubPlace pa ctx res cls write) := by
  rw [State.hubPlace]
  split
  · exact h.aside_hubAlloc _ (s.newTag_good ..)
  · exact .refl s

theorem State.Sound.aside_hubFill (h : s.Sound) : s.Aside (s.hubFill pa ctx res cls write) := by
  have hsample : s.Aside { s with dbpSample := (s.dbpSample + 1) % 32 } := .of_tags rfl id id
  rw [State.hubFill]
  dsimp only
  split
  · split
    · exact hsample
    · exact hsample.trans (hsample.sound h).aside_hubPlace
  · exact h.aside_hubPlace

theorem State.hubFind_get {k : Nat} {t : CTag} (h : s.hubFind pa = some (k, t)) : Table.get none s.hubTags k = some t := by
  obtain ⟨w, -, hw⟩ := List.exists_of_findSome?_eq_some h
  split at hw
  · next u hu =>
    split at hw
    · obtain ⟨rfl, rfl⟩ : _ = k ∧ u = t := by simpa using hw
      exact hu
    · cases hw
  · cases hw

theorem State.ccFind_get {cl k : Nat} {t : CTag} (h : s.ccFind cl pa = some (k, t)) : Table.get none s.ccTags k = some t := by
  obtain ⟨w, -, hw⟩ := List.exists_of_findSome?_eq_some h
  split at hw
  · next u hu =>
    split at hw
    · obtain ⟨rfl, rfl⟩ : _ = k ∧ u = t := by simpa using hw
      exact hu
    · cases hw
  · cases hw

theorem State.Sound.aside_touchHub (h : s.Sound) : s.Aside (s.touchHub pa ctx res cls write) := by
  rw [State.touchHub]
  split
  · next e he => exact s.aside_hubHit _ (h.hub.get (State.hubFind_get he))
  · split
    · exact .refl s
    · exact h.aside_hubFill

theorem State.aside_ccHit (s : State) (k : Nat) {t : CTag} (ht : t.diff0 = 0 ∧ t.diff1 = 0) : s.Aside (s.ccHit k t res write) :=
  .of_tags rfl id (·.put _ ht)

theorem State.Sound.aside_ccFill (h : s.Sound) (cl : Nat) {t : CTag} (ht : t.diff0 = 0 ∧ t.diff1 = 0) : s.Aside (s.ccFill cl pa ctx t) := by
  have hfill : ∀ k, s.Aside { s with ccTags := Table.put none s.ccTags k (some t) } := fun k => .of_tags rfl id (·.put _ ht)
  rw [State.ccFill]
  split
  · next way _ =>
    dsimp only
    split
    · next old hold =>
      rw [h.writeBackLine (h.cc.get hold), ite_self]
      exact (hfill _).trans (State.aside_lostCopy _ _ _)
    · exact hfill _
  · exact .refl s

theorem State.Sound.aside_touchCc (h : s.Sound) (cl : Nat) : s.Aside (s.touchCc cl pa ctx res cls write) := by
  rw [State.touchCc]
  split
  · next e he => exact s.aside_ccHit _ (h.cc.get (State.ccFind_get he))
  · split
    · exact .refl s
    · exact h.aside_ccFill _ (s.newTag_good ..)

theorem State.Sound.aside_hubDirty (h : s.Sound) : s.Aside (s.hubDirty pa) := by
  rw [State.hubDirty]
  split
  · next k t ht =>
    have hgood := h.hub.get (State.hubFind_get ht)
    exact .of_tags rfl (·.put _ hgood) id
  · exact .refl s

theorem State.Sound.freshCopies (h : s.Sound) (cl : Option Nat) : s.freshCopies cl pa = s := by
  rw [State.freshCopies]
  refine if_neg fun hbad => ?_
  obtain ⟨e, he, hd⟩ := List.any_eq_true.mp hbad
  rcases ht : e.2 with _ | t
  · simp [ht] at hd
  · obtain ⟨h0, h1⟩ := (List.mem_append.mp he).elim (h.hub e · t ht) (h.cc e · t ht)
    simp [ht, h0, h1] at hd

/-- What an access to a CACHED line does to the tags is beside the bytes. -/
theorem State.Sound.aside_touchLine (h : s.Sound) (w : Who) : s.Aside (s.touchLine w pa res cls write) := by
  have hstamp : s.Aside { s with stamp := s.stamp + 1 } := .of_tags rfl id id
  have h1 := hstamp.sound h
  rw [State.touchLine]
  rw [h1.freshCopies, ite_self]
  split
  · exact hstamp.trans h1.aside_touchHub
  · split
    · next e he =>
      refine hstamp.trans ?_
      cases write with
      | true =>
        have hd := h1.aside_hubDirty (pa := s.norm pa)
        exact hd.trans (State.aside_ccHit _ _ (h1.cc.get (State.ccFind_get he)))
      | false => exact State.aside_ccHit _ _ (h1.cc.get (State.ccFind_get he))
    · have ht := h1.aside_touchHub (pa := s.norm pa) (ctx := s.ctxOf w) (res := res) (cls := cls) (write := write)
      exact (hstamp.trans ht).trans ((ht.sound h1).aside_touchCc _)

end

end Sys2Proof.Machine
end

section
/-! SUPPORT. Reads and writes of plain memory (R48, R49, R104, R106, R123): their bytes, and what they leave unchanged. -/
namespace Sys2Proof.Machine

/-! ### What stands beside the bytes -/

theorem State.SameBut.refl (s : State) : s.SameBut s := ⟨rfl, fun _ => ⟨rfl, rfl, rfl, rfl⟩, fun _ => ⟨rfl, rfl, rfl, rfl, rfl, rfl⟩⟩

theorem State.SameBut.trans {s t u : State} (h : s.SameBut t) (k : t.SameBut u) : s.SameBut u := by
  obtain ⟨hm, hh, hc⟩ := h
  obtain ⟨km, kh, kc⟩ := k
  refine ⟨km.trans hm, fun a => ?_, fun n => ?_⟩
  · obtain ⟨hx, hcsr, hpc, hpriv⟩ := hh a
    obtain ⟨kx, kcsr, kpc, kpriv⟩ := kh a
    exact ⟨kx.trans hx, kcsr.trans hcsr, kpc.trans hpc, kpriv.trans hpriv⟩
  · obtain ⟨h1, h2, h3, h4, h5, h6⟩ := hc n
    obtain ⟨k1, k2, k3, k4, k5, k6⟩ := kc n
    exact ⟨k1.trans h1, k2.trans h2, k3.trans h3, k4.trans h4, k5.trans h5, k6.trans h6⟩

section
variable {s t : State}

theorem State.Aside.mem (h : s.Aside t) : t.mem = s.mem := by rw [h.rest]

theorem State.Aside.hart (h : s.Aside t) (a : Agent) : t.hart a = s.hart a := by
  cases a with
  | core n => exact (congrArg Core.hart (h.cores n) :)
  | mgmt => rw [h.rest]; rfl
  | lane o => rw [h.rest]; rfl

theorem State.Aside.sameBut (h : s.Aside t) : s.SameBut t := by
  refine ⟨by rw [h.rest], fun a => by rw [h.hart]; exact ⟨rfl, rfl, rfl, rfl⟩, fun n => ?_⟩
  have hc := h.cores n
  generalize t.core n = c at hc
  rw [hc]
  exact ⟨rfl, rfl, rfl, rfl, rfl, rfl⟩

theorem State.Aside.loc (h : s.Aside t) (pa : Nat) : t.loc pa = s.loc pa := by rw [h.rest]; rfl

theorem State.Aside.key (h : s.Aside t) (pa : Nat) : t.key pa = s.key pa := by rw [h.rest]; rfl

theorem State.Aside.ctxOf (h : s.Aside t) (w : Who) : t.ctxOf w = s.ctxOf w := by
  have hctx : ∀ n, t.recCtx n = s.recCtx n := fun n => by
    have hc := h.cores n
    rw [State.recCtx, State.recCtx]
    generalize t.core n = c at hc
    rw [hc]
  cases w with
  | cc n => exact congrArg Prod.fst (hctx n)
  | eng n e => exact congrArg Prod.fst (hctx n)
  | host => rw [h.rest]; rfl
  | mgmt => rfl
  | lane o => rfl
  | hub c => rfl

variable {ctx pa len : Nat}

theorem State.PlainHome.isSound (h : s.PlainHome ctx pa len) : s.Sound :=
  ⟨h.sound.1, fun e he => h.sound.2 e (List.mem_append_left _ he), fun e he => h.sound.2 e (List.mem_append_right _ he)⟩

/-- Plain memory stays plain. -/
theorem State.PlainHome.aside (h : s.PlainHome ctx pa len) (k : s.Aside t) : t.PlainHome ctx pa len := by
  have hsound := k.sound h.isSound
  have hcalm := k.calm h.quiet.2.2.1
  exact {
    fits := h.fits
    place := by rw [k.rest]; exact h.place
    alone := by rw [k.rest]; exact h.alone
    home := by rw [k.rest]; exact h.home
    quiet := ⟨by rw [k.rest]; exact h.quiet.1, by rw [k.rest]; exact h.quiet.2.1, hcalm, by rw [k.rest]; exact h.quiet.2.2.2⟩
    sound := ⟨hsound.lines, fun e he => (List.mem_append.mp he).elim (hsound.hub e) (hsound.cc e)⟩ }

/-! ### Plain memory -/

theorem State.PlainHome.norm (h : s.PlainHome ctx pa len) {i : Nat} (hi : i ≤ len) : s.norm (pa + i) = pa + i := by
  obtain ⟨_, hline, hlt⟩ := h.fits
  exact s.norm_of_lt (by omega)

theorem State.PlainHome.loc (h : s.PlainHome ctx pa len) : ∃ st off, s.loc pa = .dram st off := by
  have hd := h.place.1
  rw [State.isDram] at hd
  split at hd
  · next st off hl => exact ⟨st, off, hl⟩
  · cases hd

theorem State.PlainHome.mirror (h : s.PlainHome ctx pa len) : s.mirror pa = none := by
  have hn : s.norm pa = pa := h.norm (Nat.zero_le len)
  rw [State.mirror, hn, if_pos h.fits.2.2]
  split
  · next e he => rw [h.alone e he]; rfl
  · rfl

theorem State.PlainHome.homeCheck_ok {q : Req} (h : s.PlainHome (s.ctxOf q.who) pa len) : Ok (homeCheck q pa) s () s := by
  obtain ⟨st, off, hl⟩ := h.loc
  obtain ⟨hdrain, hdown, -⟩ := h.home
  simp [Ok, homeCheck, State.isMmio, hl, hdrain, hdown]

theorem State.PlainHome.lineFit_ok (h : s.PlainHome ctx pa len) (code : Nat) : Ok (lineFit pa code) s () s := by
  have hm : Table.get LineMeta.good s.lines (s.lineKey pa) = LineMeta.good := h.home.2.2
  have hpoison : LineMeta.good.poison = false := rfl
  have hdiff : LineMeta.good.diff = 0 := rfl
  simp [Ok, lineFit, keyFit, hm, hpoison, hdiff]

/-- A copy in which plain memory is found has a good check. -/
theorem State.PlainHome.foundAt (h : s.PlainHome ctx pa len) {w : Who} {cached : Bool} {d : W32} (hf : (s.foundAt w cached pa).2 = some d) :
    d = 0 := by
  obtain ⟨st, off, hl⟩ := h.loc
  have hn : s.norm pa = pa := h.norm (Nat.zero_le len)
  have hhalf : ∀ t : CTag, t.diff0 = 0 ∧ t.diff1 = 0 → some (if bit pa 6 then t.diff1 else t.diff0) = some d → d = 0 := fun t ht hd => by
    rw [ht.1, ht.2, ite_self] at hd
    exact (Option.some.inj hd).symm
  rw [State.foundAt, hn, hl] at hf
  dsimp only at hf
  split at hf
  · cases hf
  · split at hf
    · next e he =>
      obtain ⟨n, -, hcc⟩ := Option.bind_eq_some_iff.mp he
      exact hhalf _ (h.isSound.cc.get (State.ccFind_get hcc)) hf
    · split at hf
      · next e he => exact hhalf _ (h.isSound.hub.get (State.hubFind_get he)) hf
      · cases hf

theorem State.PlainHome.foundFit_ok (h : s.PlainHome ctx pa len) (q : Req) (code : Nat) : Ok (foundFit q pa code) s () s := by
  rcases hf : (s.foundAt q.who q.cached pa).2 with _ | d
  · simp only [Ok, foundFit, M.run_bind_get, hf]
    exact h.lineFit_ok code
  · have hm : s.lineMeta pa = LineMeta.good := h.home.2.2
    simp [Ok, foundFit, hf, hm, LineMeta.good, h.foundAt hf]

theorem State.PlainHome.mergeFit_ok (h : s.PlainHome ctx pa len) (q : Req) : Ok (mergeFit q pa) s () s :=
  (h.foundFit_ok q 7).bind (by simp [Ok, h.mirror])

theorem pieces_single {step off : Nat} {l : List Byte} (hne : l ≠ []) (hfit : l.length ≤ step - off % step) :
    pieces (l.length + 1) step off l = [(off, l)] := by
  obtain ⟨b, r, rfl⟩ := List.exists_cons_of_ne_nil hne
  rw [pieces]
  dsimp only
  rw [List.take_of_length_le hfit, List.drop_of_length_le hfit]
  rfl

/-! ### Reads -/

/-- A requester's core has nothing queued or staged. -/
def State.Idle (s : State) (w : Who) : Prop := ∀ n, w.coreNo = some n → (s.core n).sq = [] ∧ (s.core n).staging.bytes = []

theorem State.Idle.aside {w : Who} (h : s.Idle w) (k : s.Aside t) : t.Idle w := fun n hn => by
  obtain ⟨hq, hb⟩ := h n hn
  have hc := k.cores n
  exact ⟨k.queue n hq, by rw [hc]; exact hb⟩

theorem State.Idle.stagedFor {w : Who} {n : Nat} (h : s.Idle w) (hn : w.coreNo = some n) : ((s.core n).stagedFor w).bytes = [] := by
  rw [Core.stagedFor]
  split
  · rfl
  · exact (h n hn).2

theorem State.Idle.servedLocally {w : Who} (h : s.Idle w) (hlen : 0 < len) : s.servedLocally w pa len = false := by
  rw [State.servedLocally]
  split
  · rfl
  · next n hn =>
    refine List.all_eq_false.mpr ⟨s.norm pa, mem_span_iff.mpr ⟨le_rfl, by omega⟩, ?_⟩
    rw [h.stagedFor hn, (h n hn).1]
    simp [newestOf]

/-- Of plain memory an idle requester sees the bytes at their home. -/
theorem State.PlainHome.viewByte (h : s.PlainHome ctx pa len) {w : Who} (hw : s.Idle w) {i : Nat} (hi : i < len) :
    s.viewByte w (pa + i) = Memory.read s.mem (s.key pa + i) := by
  obtain ⟨hheld, hswap, hstale, -⟩ := h.quiet
  have hhome : s.homeByte (pa + i) = Memory.read s.mem (s.key pa + i) := by rw [State.homeByte, h.place.2 i hi]
  rw [State.viewByte, h.norm hi.le]
  dsimp only
  split
  · exact hhome
  · next n hn =>
    have hstaged : s.stagedByte ((s.core n).stagedFor w) (pa + i) = none := by rw [State.stagedByte, hw.stagedFor hn]; rfl
    simp [(hw n hn).1, hheld, hswap, hstaged, newestOf, State.staleByte, hstale, hhome]

theorem State.PlainHome.view (h : s.PlainHome ctx pa len) {w : Who} (hw : s.Idle w) :
    (span pa len).map (s.viewByte w) = Memory.readList s.mem (s.key pa) len := by
  simp only [Memory.readList, span, List.map_map]
  exact List.map_congr_left fun i hi => h.viewByte hw (List.mem_range.mp hi)

theorem State.PlainHome.noteObserved (h : s.PlainHome ctx pa len) (w : Who) (pa' : Nat) : s.noteObserved w pa' = s := by
  obtain ⟨hheld, -, hstale, -⟩ := h.quiet
  rw [State.noteObserved]
  split
  · simp [hheld, hstale]
  · rfl

theorem State.Sound.aside_noteRead (h : s.Sound) (q : Req) : s.Aside (s.noteRead q pa) := by
  rw [State.noteRead]
  split
  · exact h.aside_touchLine _
  · exact .refl s

theorem State.PlainHome.readSeg_ok {q : Req} (h : s.PlainHome (s.ctxOf q.who) pa len) (hw : s.Idle q.who) :
    Ok (readSeg q pa len) s (Memory.readList s.mem (s.key pa) len) (s.noteRead q pa) := by
  obtain ⟨st, off, hl⟩ := h.loc
  have haside := h.isSound.aside_noteRead (pa := pa) q
  have hafter := h.aside haside
  have hview := hafter.view (hw.aside haside)
  rw [haside.mem, haside.key] at hview
  simp only [Ok, readSeg, readFit, M.run_bind_get, hl, hw.servedLocally h.fits.1, Bool.false_eq_true, if_false, bind_assoc,
    h.homeCheck_ok.bind_run, (h.foundFit_ok q _).bind_run, M.run_bind_modify, hafter.noteObserved, hview, M.run_pure]

/-- A read of plain memory gives its bytes, and leaves all beside the tags as it was. -/
theorem State.PlainHome.readRun_ok {q : Req} (h : s.PlainHome (s.ctxOf q.who) pa len) (hw : s.Idle q.who) :
    Ok (readRun q pa len) s (Memory.readList s.mem (s.key pa) len) (s.noteRead q pa) := by
  obtain ⟨st, off, hl⟩ := h.loc
  obtain ⟨hpos, hline, -⟩ := h.fits
  have hone : pieces (len + 1) 64 pa (List.replicate len 0) = [(pa, List.replicate len (0 : Byte))] := by
    have hp := pieces_single (step := 64) (off := pa) (l := List.replicate len (0 : Byte)) (by simp; omega) (by simp; omega)
    rwa [List.length_replicate] at hp
  simp only [Ok, readRun, M.run_bind_get, hl, hone, List.mapM_cons, List.mapM_nil, List.length_replicate, bind_assoc,
    (h.readSeg_ok hw).bind_run, pure_bind, M.run_pure, List.flatten_cons, List.flatten_nil, List.append_nil]

end

end Sys2Proof.Machine
end

section
/-! SUPPORT. Writes of plain memory (R49, R106, R123, R317, R318): their bytes, and what they leave unchanged. -/
namespace Sys2Proof.Machine

/-- A step that keeps memory, the registers and the checks. -/
structure State.Kept (s t : State) : Prop where
  mem : t.mem = s.mem
  same : s.SameBut t
  sound : s.Sound → t.Sound

section
variable {s t u : State}

theorem State.Kept.refl (s : State) : s.Kept s := ⟨rfl, .refl s, id⟩

theorem State.Kept.trans (h : s.Kept t) (k : t.Kept u) : s.Kept u := ⟨k.mem.trans h.mem, h.same.trans k.same, k.sound ∘ h.sound⟩

theorem State.Aside.kept (h : s.Aside t) : s.Kept t := ⟨h.mem, h.sameBut, h.sound⟩

theorem State.Kept.foldl {β : Type} (g : State → β → State) (h : ∀ t b, State.Kept t (g t b)) (l : List β) (s : State) :
    s.Kept (l.foldl g s) :=
  List.foldlRecOn (motive := fun t => s.Kept t) l g (.refl s) fun t ht b _ => ht.trans (h t b)

/-! ### Reservations -/

theorem State.kept_setHart (s : State) (a : Agent) (h : Hart) (hx : h.x = (s.hart a).x) (hcsr : h.csr = (s.hart a).csr)
    (hpc : h.pc = (s.hart a).pc) (hpriv : h.priv = (s.hart a).priv) : s.Kept (s.setHart a h) := by
  have hcore : ∀ n, ((s.setHart a h).core n) = { s.core n with hart := ((s.setHart a h).core n).hart } := fun n => by
    cases a with
    | core m =>
      by_cases hm : n = m
      · subst hm
        rw [State.core_setHart]
      · rw [State.core_setHart_ne _ _ hm]
    | mgmt => rfl
    | lane o => rfl
  refine ⟨?mem, ⟨?mmio, fun b => ?harts, fun n => ?cores⟩, fun hs => ?sound⟩
  case mem => cases a with | _ => rfl
  case mmio => cases a with | _ => rfl
  case harts =>
    by_cases hb : b = a
    · subst hb
      rw [State.hart_setHart]
      exact ⟨hx, hcsr, hpc, hpriv⟩
    · rw [State.hart_setHart_ne _ _ hb]
      exact ⟨rfl, rfl, rfl, rfl⟩
  case cores =>
    rw [hcore]
    exact ⟨rfl, rfl, rfl, rfl, rfl, rfl⟩
  case sound => cases a with | _ => exact ⟨hs.lines, hs.hub, hs.cc⟩

/-- A hart without its reservation of a line. -/
def Hart.lose (h : Hart) (line : Nat) : Hart := if h.resv = some line then { h with resv := none } else h

theorem Hart.lose_rest (h : Hart) (line : Nat) : h.lose line = { h with resv := (h.lose line).resv } := by
  rw [Hart.lose]
  split
  · rfl
  · rfl

/-- The management core and the lane service cores lose their reservations of a line. -/
def State.othersLose (s : State) (line : Nat) : State :=
  { s with mgmt := s.mgmt.lose line, lanes := s.lanes.map fun e => (e.1, e.2.lose line) }

theorem State.lane_othersLose (s : State) (line o : Nat) : (s.othersLose line).lane o = (s.lane o).lose line :=
  Table.get_map (fun h : Hart => h.lose line) Hart.reset s.lanes o

theorem State.kept_othersLose (s : State) (line : Nat) : s.Kept (s.othersLose line) := by
  have hlose : ∀ h : Hart, (h.lose line).x = h.x ∧ (h.lose line).csr = h.csr ∧ (h.lose line).pc = h.pc ∧ (h.lose line).priv = h.priv :=
    fun h => by
      rw [h.lose_rest]
      exact ⟨rfl, rfl, rfl, rfl⟩
  refine ⟨rfl, ⟨rfl, fun a => ?_, fun n => ⟨rfl, rfl, rfl, rfl, rfl, rfl⟩⟩, fun h => ⟨h.lines, h.hub, h.cc⟩⟩
  cases a with
  | core n => exact ⟨rfl, rfl, rfl, rfl⟩
  | mgmt => exact hlose s.mgmt
  | lane o =>
    rw [State.hart, State.lane_othersLose]
    exact hlose (s.lane o)

theorem State.kept_breakResv (s : State) (line : Nat) (byCc : Option Nat) : s.Kept (s.breakResv line byCc) := by
  have hcores : s.Kept (s.cores.foldl (fun t e => if some e.1 = byCc then t
      else t.modCore e.1 fun c => { c with hart := c.hart.lose line }) s) := by
    refine State.Kept.foldl _ (fun t e => ?_) _ s
    split
    · exact .refl t
    · have hl := (t.core e.1).hart.lose_rest line
      refine t.kept_setHart (.core e.1) ((t.core e.1).hart.lose line) ?_ ?_ ?_ ?_
      all_goals rw [hl]; rfl
  exact hcores.trans (State.kept_othersLose _ line)

/-! ### Invalidations and releases -/

theorem State.kept_sendInval (s : State) (line : Nat) (w : Who) (old : List Byte) : s.Kept (s.sendInval line w old) := by
  rw [State.sendInval]
  refine State.Kept.trans ?_ (State.Kept.foldl _ (fun t d => ?_) _ _)
  · exact ⟨rfl, ⟨rfl, fun _ => ⟨rfl, rfl, rfl, rfl⟩, fun _ => ⟨rfl, rfl, rfl, rfl, rfl, rfl⟩⟩, fun h => ⟨h.lines, h.hub, h.cc.filter _⟩⟩
  · split
    · exact .refl t
    · exact ⟨rfl, ⟨rfl, fun _ => ⟨rfl, rfl, rfl, rfl⟩, fun _ => ⟨rfl, rfl, rfl, rfl, rfl, rfl⟩⟩, fun h => ⟨h.lines, h.hub, h.cc⟩⟩

theorem State.aside_dropCover (s : State) (b : Bool) (pa len : Nat) : s.Aside (s.dropCover b pa len) := .of_tags rfl id id

theorem State.aside_pastCover (s : State) : s.Aside s.pastCover := .of_tags rfl id id

theorem State.aside_chain (s : State) (core : Option Nat) (pa : Nat) (rs : List RelCover) : s.Aside (s.chain core pa rs) := .of_tags rfl id id

theorem State.aside_noteRelease (s : State) (n : Nat) (sc : Scope) (pa : Nat) (lines : List Nat) :
    s.Aside (s.noteRelease n sc pa lines) := by
  rw [State.noteRelease]
  split
  · exact .refl s
  · exact .of_tags rfl id id

theorem State.aside_acquireAt (s : State) (n : Nat) (sc : Scope) (pa : Nat) : s.Aside (s.acquireAt n sc pa) := by
  rw [State.acquireAt]
  split
  · exact .refl s
  · exact s.aside_modCore n _ rfl

theorem State.kept_tellWrite (s : State) (q : Req) (pa : Nat) (data : List Byte) : s.Kept (s.tellWrite q pa data) := by
  rw [State.tellWrite]
  split
  · split
    · exact .refl s
    · exact ⟨rfl, ⟨rfl, fun _ => ⟨rfl, rfl, rfl, rfl⟩, fun _ => ⟨rfl, rfl, rfl, rfl, rfl, rfl⟩⟩, fun h => ⟨h.lines, h.hub, h.cc⟩⟩
  · exact .refl s

/-! ### A line at its home -/

/-- Bytes stored at a key, with a fresh check and no poison. -/
def State.freshAt (s : State) (k : Nat) (data : List Byte) : State :=
  { s with mem := Memory.writeList s.mem k data, lines := Table.put LineMeta.good s.lines (k / 64) LineMeta.good }

theorem State.sameBut_freshAt (s : State) (k : Nat) (data : List Byte) : s.SameBut (s.freshAt k data) :=
  ⟨rfl, fun _ => ⟨rfl, rfl, rfl, rfl⟩, fun _ => ⟨rfl, rfl, rfl, rfl, rfl, rfl⟩⟩

theorem State.Sound.freshAt (h : s.Sound) (k : Nat) (data : List Byte) : (s.freshAt k data).Sound where
  lines e he := (Table.mem_put he).elim (h.lines e) fun hk => by rw [hk]; rfl
  hub := h.hub
  cc := h.cc

/-- A store to a line without a mirror is that of its bytes; all else is beside them. -/
theorem State.storeLine_kept {w : Who} {cached : Bool} {pa : Nat} {data : List Byte} (hn : s.norm pa = pa) (hm : s.mirror pa = none) :
    ((s.dropCover false pa data.length).freshAt (s.key pa) data).Kept (s.storeLine w cached pa data) := by
  rw [State.storeLine, hn, hm]
  refine State.Kept.trans ?_ (State.aside_pastCover _).kept
  split
  · exact (State.kept_breakResv _ _ _).trans (State.kept_sendInval _ _ _ _)
  · exact State.kept_breakResv _ _ _

variable {ctx pa : Nat} {data : List Byte}

theorem State.PlainHome.performWrite (h : s.PlainHome ctx pa data.length) (q : Req) :
    (s.performWrite q pa data).mem = Memory.writeList s.mem (s.key pa) data ∧ s.SameBut (s.performWrite q pa data) := by
  have hn : s.norm pa = pa := h.norm (Nat.zero_le _)
  have hcover := s.aside_dropCover false pa data.length
  have hput : ((s.dropCover false pa data.length).freshAt (s.key pa) data).Kept ((s.putLine q.who q.cached pa data).tellWrite q pa data) := by
    refine State.Kept.trans ?_ (State.kept_tellWrite _ _ _ _)
    have hswap : s.swapTakes pa = false := by rw [State.swapTakes, h.quiet.2.1]
    rw [State.putLine, if_neg (by simp [hswap])]
    exact State.storeLine_kept hn h.mirror
  have hsound := hput.sound ((hcover.sound h.isSound).freshAt _ _)
  have hall : ((s.dropCover false pa data.length).freshAt (s.key pa) data).Kept (s.performWrite q pa data) := by
    rw [State.performWrite]
    split
    · exact hput.trans (hsound.aside_touchLine _).kept
    · exact hput
  exact ⟨hall.mem, hcover.sameBut.trans ((State.sameBut_freshAt _ _ _).trans hall.same)⟩

theorem State.PlainHome.writeSeg_ok {q : Req} (h : s.PlainHome (s.ctxOf q.who) pa data.length) :
    Ok (writeSeg q pa data) s () (s.performWrite q pa data) := by
  obtain ⟨st, off, hl⟩ := h.loc
  obtain ⟨hheld, -, -, hcyc⟩ := h.quiet
  have hdown : s.downWrite (s.ctxOf q.who) pa = none := by rw [State.downWrite, h.home.2.1, h.mirror]; rfl
  have hhold : s.holdTakes q pa = false := by
    rw [State.holdTakes]
    split
    · rfl
    · simp [hcyc, hheld]
  have hway : s.noteWay pa = s := by rw [State.noteWay, hl]
  rw [Ok, writeSeg, M.run_bind_get, h.homeCheck_ok.bind_run, hl]
  dsimp only
  rw [if_neg (by simp [hdown])]
  split
  · simp [(h.mergeFit_ok q).bind_run, hway, hhold, hheld]
  · simp [hway, hhold, hheld]

/-- A write of plain memory stores its bytes, and nothing else that counts moves. -/
theorem State.PlainHome.writeRun_ok {q : Req} (h : s.PlainHome (s.ctxOf q.who) pa data.length) :
    Ok (writeRun q pa data) s () (s.performWrite q pa data) := by
  obtain ⟨st, off, hl⟩ := h.loc
  obtain ⟨hpos, hline, -⟩ := h.fits
  have hone := pieces_single (step := 64) (off := pa) (List.ne_nil_of_length_pos hpos) (by omega)
  rw [Ok, writeRun, M.run_bind_get, hl]
  dsimp only
  rw [hone]
  exact h.writeSeg_ok.bind (.pure _ _)

end

end Sys2Proof.Machine
end

section
/-! SUPPORT. Atomic accesses to plain memory (R49, R295, R315): the value read, the bytes written, and what they leave unchanged. -/
namespace Sys2Proof.Machine

/-- A part that is left out when its condition does not hold, and then changes nothing. -/
theorem run_optional {β : Type} {b : Bool} {m : M PUnit} {k : M β} {s t : State} (h : b = true → Ok m s ⟨⟩ t) (hn : b = false → t = s) :
    (if b = true then m >>= fun _ => k else k).run s = k.run t := by
  cases b with
  | true => rw [if_pos rfl, (h rfl).bind_run]
  | false => rw [if_neg nofun, hn rfl]

section
variable {s : State} {a : Agent} {va len : Nat}

theorem State.Plain.agentStages (h : s.Plain a va len) : s.agentStages a = false := by
  cases a with
  | core n => exact (h.core n rfl).2.2.1
  | mgmt => rfl
  | lane o => rfl

theorem State.Plain.idle (h : s.Plain a va len) : s.Idle (whoOf a) := by
  cases a with
  | core n =>
    intro m hm
    obtain rfl : n = m := Option.some.inj hm
    obtain ⟨-, -, -, hq, hb⟩ := h.core n rfl
    exact ⟨hq, hb⟩
  | mgmt => exact nofun
  | lane o => exact nofun

/-- Plain memory has its own address, and the home of ordinary memory. -/
theorem State.Plain.translateHart_ok (h : s.Plain a va len) (k : AccKind) :
    Ok (translateHart a k va) s { pa := va, home := homeCached } s := by
  obtain ⟨st, off, hl⟩ := h.home.loc
  have hbare : s.bareHome va = homeCached := by rw [State.bareHome, hl]
  have hlegal : s.homeLegal homeCached va = true := by rw [State.homeLegal, hl]; rfl
  have hcheck : Ok (checkHome va homeCached) s { pa := va, home := homeCached } s := by
    simp only [Ok, checkHome, M.run_bind_get, hl, if_pos hlegal, M.run_pure]
  have hlt : ¬va ≥ 2 ^ 52 := by
    have := h.home.fits.2.2
    omega
  cases a with
  | core n =>
    obtain ⟨hm, hmprv, -⟩ := h.core n rfl
    have hbit : bit ((s.core n).hart.csrRaw 0x300).toNat 17 = false := by
      rw [← hmprv, Hart.csrBit, BitVec.getLsbD, Nat.testBit_eq_decide_div_mod_eq, bit, Nat.shiftRight_eq_div_pow]
      rfl
    simp only [Ok, translateHart, M.run_bind_get, State.hart_core, hm, hbit, mstatusN, Bool.false_eq_true, false_and, and_false,
      if_false, if_true, if_neg hlt, hbare]
    exact hcheck
  | mgmt =>
    simp only [Ok, translateHart, M.run_bind_get, if_neg hlt, hbare]
    exact hcheck
  | lane o =>
    simp only [Ok, translateHart, M.run_bind_get, if_neg hlt, hbare]
    exact hcheck

theorem State.Plain.slotGuard_ok (h : s.Plain a va len) : Ok (slotGuard a va len va) s () s := by
  obtain ⟨st, off, hl⟩ := h.home.loc
  rw [Ok, slotGuard, M.run_bind_get, hl]
  cases a with | _ => rfl

theorem drainAll_idle {n : Nat} (hq : (s.core n).sq = []) : Ok (drainAll n) s () s := by
  rw [Ok, drainAll, M.run_bind_get, hq]
  rfl

/-- With nothing queued or held, and no old copy about, a release changes nothing. -/
theorem State.Plain.releaseAt_ok {n : Nat} (h : s.Plain (.core n) va len) (sc : Scope) : Ok (releaseAt n sc) s () s := by
  obtain ⟨-, -, -, hq, -⟩ := h.core n rfl
  obtain ⟨hheld, hswap, hstale, -⟩ := h.home.quiet
  have htake : s.takeCovered n sc = s := by
    rw [State.takeCovered, State.takeInval_none s _ hstale, ite_self]
  refine (drainAll_idle hq).bind ?_
  simp [Ok, State.swapHolds, hswap, State.coveredHeld, hheld, htake]

/-- Nor does a coherent access wait for anything. -/
theorem State.Plain.coherent_ok (h : s.Plain a va len) (sc : Scope) (write : Bool) : Ok (coherent a va sc write) s () s := by
  obtain ⟨hheld, hswap, hstale, -⟩ := h.home.quiet
  have hwait : s.coherentWaits a va sc write = false := by
    rw [State.coherentWaits, State.swapTakes, hswap, hheld]
    simp
  cases a with
  | core n =>
    obtain ⟨-, -, -, hq, -⟩ := h.core n rfl
    refine (drainAll_idle hq).bind ?_
    simp [Ok, hwait, State.takeInval_none s _ hstale]
  | mgmt => simp [Ok, coherent, hwait]
  | lane o => simp [Ok, coherent, hwait]

/-- A `.sc` write at a time: its line and its core's clock keep the time (R319). -/
def State.scWrote (s : State) (n pa time : Nat) : State :=
  ({ s with scLines := Table.put ScTimes.zero s.scLines (s.norm pa / 64) { wts := time, rts := time, epoch := s.epoch } } : State).modCore n
    fun c => { c with clk := time }

theorem State.aside_scWrote (s : State) (n pa time : Nat) : s.Aside (s.scWrote n pa time) := by
  refine State.Aside.trans ?_ (State.aside_modCore _ n _ rfl)
  exact .of_tags rfl id id

/-- A `.sc` write whose time fits takes it. -/
theorem scStep_ok {n : Nat} (h : s.scFits n va) :
    Ok (scStep n va true) s () (s.scWrote n va (max (s.core n).clk (max (s.scTimes va).wts (s.scTimes va).rts) + 1)) := by
  obtain ⟨hclk, hw, hr⟩ := h
  have hfit : ¬2 ^ 47 < max (s.core n).clk (max (s.scTimes va).wts (s.scTimes va).rts) + 1 := by omega
  rw [Ok, scStep, M.run_bind_get]
  dsimp only
  rw [if_pos rfl, if_neg hfit]
  rfl

/-! ### Parts that may be left out -/

/-- A part beside the bytes that may be left out leads on to the rest from a state beside the bytes. -/
theorem run_optional_aside {b : Bool} {m : M PUnit} (h : b = true → ∃ t, Ok m s ⟨⟩ t ∧ s.Aside t) :
    ∃ u, s.Aside u ∧ ∀ {β : Type} (k : M β), (if b = true then m >>= fun _ => k else k).run s = k.run u := by
  cases b with
  | true =>
    obtain ⟨t, hm, ha⟩ := h rfl
    exact ⟨t, ha, fun k => run_optional (fun _ => hm) (fun hb => by cases hb)⟩
  | false => exact ⟨s, .refl s, fun k => run_optional (fun hb => by cases hb) fun _ => rfl⟩

theorem State.Plain.atRelease_ok (h : s.Plain a va len) (rl : Bool) : Ok (atRelease a rl) s () s := by
  cases a with
  | core n =>
    cases rl with
    | true => exact h.releaseAt_ok .pkg
    | false => exact .pure _ _
  | mgmt => exact .pure _ _
  | lane o => exact .pure _ _

theorem atAcquire_ok (s : State) (a : Agent) (aq : Bool) (pa : Nat) : ∃ t, Ok (atAcquire a aq pa) s () t ∧ s.Aside t := by
  cases a with
  | core n =>
    cases aq with
    | true => exact ⟨_, rfl, s.aside_acquireAt n .pkg pa⟩
    | false => exact ⟨s, .pure _ _, .refl s⟩
  | mgmt => exact ⟨s, .pure _ _, .refl s⟩
  | lane o => exact ⟨s, .pure _ _, .refl s⟩

/-! ### Reading, changing and writing -/

/-- Bytes are written by an atomic, and what it wrote stands for the releases that it read (R317). -/
def State.exchanged (s : State) (a : Agent) (q : Req) (pa : Nat) (data : List Byte) : State :=
  (s.performWrite q pa data).chain (whoOf a).coreNo pa (s.releasesRead (whoOf a).coreNo pa)

theorem State.PlainHome.exchanged_ok {t u : State} {q : Req} {data : List Byte} (h : s.PlainHome (s.ctxOf q.who) va data.length)
    (ha : s.Aside t) (hu : (t.exchanged a q va data).Aside u) :
    Ok (writeRun q va data) t () (t.performWrite q va data) ∧ u.mem = Memory.writeList s.mem (s.key va) data ∧ s.SameBut u := by
  have ht : t.PlainHome (t.ctxOf q.who) va data.length := by
    rw [ha.ctxOf]
    exact h.aside ha
  obtain ⟨hmem, hsame⟩ := ht.performWrite q
  rw [ha.mem, ha.key] at hmem
  have hu := (State.aside_chain (t.performWrite q va data) (whoOf a).coreNo va (t.releasesRead (whoOf a).coreNo va)).trans hu
  exact ⟨ht.writeRun_ok, hu.mem.trans hmem, ha.sameBut.trans (hsame.trans hu.sameBut)⟩

theorem State.tellRmw_dram {st off : Nat} (hl : s.loc va = .dram st off) (r : Rmw) : s.tellRmw va r = s := by rw [State.tellRmw, hl]

theorem State.effScope_dram {st off : Nat} (hl : s.loc va = .dram st off) (sc : Scope) : s.effScope va sc = sc := by
  rw [State.effScope, hl]

theorem length_leBytes (n v : Nat) : (leBytes n v).length = n := by
  induction n generalizing v with
  | zero => rfl
  | succ n ih => rw [leBytes, List.length_cons, ih]

/-- How an atomic's accesses are made. -/
abbrev atomicReq (a : Agent) (sc : Scope) : Req := { reqOf (whoOf a) homeCached 0 with wide := decide (2 ≤ sc.num), told := true }

variable {r : Rmw} {isSc acq rel : Bool} {sc : Scope} {v : Nat}

/-- A control core's read-modify-write, with its releases, its acquire and its place in the order of R319. -/
theorem atomicM_core {n : Nat} (h : s.Plain (.core n) va r.len) (hfit : isSc = true → s.scFits n va)
    (hv : rmwNew r (s.num va r.len) = some v) :
    ∃ t, Ok (atomicM (.core n) sc va isSc acq rel r) s (s.num va r.len) t ∧ t.mem = Memory.writeList s.mem (s.key va) (leBytes r.len v) ∧
      s.SameBut t := by
  obtain ⟨st, off, hl⟩ := h.home.loc
  obtain ⟨s1, ha1, hsc⟩ := run_optional_aside (s := s) (b := isSc) (m := scStep n va true) fun hb =>
    ⟨_, scStep_ok (hfit hb), s.aside_scWrote ..⟩
  have h1 : s1.PlainHome (s1.ctxOf (atomicReq (.core n) sc).who) va r.len := by
    rw [ha1.ctxOf]
    exact h.home.aside ha1
  have hread := h1.readRun_ok (h.idle.aside ha1)
  have ha2 := ha1.trans (h1.isSound.aside_noteRead (pa := va) (atomicReq (.core n) sc))
  obtain ⟨s3, ha3, hacq⟩ := run_optional_aside (b := acq) (m := modify fun s => s.acquireAt n sc va) fun _ =>
    ⟨_, rfl, (s1.noteRead (atomicReq (.core n) sc) va).aside_acquireAt n sc va⟩
  obtain ⟨s4, ha4, hrel⟩ := run_optional_aside (b := rel) (m := modify fun t => t.noteRelease n sc (t.norm va) (t.coveredLines n))
    fun _ => ⟨_, rfl, (s3.exchanged (.core n) (atomicReq (.core n) sc) va (leBytes r.len v)).aside_noteRelease ..⟩
  obtain ⟨hwrite, hmem, hsame⟩ := State.PlainHome.exchanged_ok (by rw [length_leBytes]; exact h.home) (ha2.trans ha3) ha4
  have hnum : leNat (Memory.readList s1.mem (s1.key va) r.len) = s.num va r.len := by
    rw [ha1.mem, ha1.key]
    rfl
  refine ⟨s4, Ok.asAccess _ _ ?_, hmem, hsame⟩
  rw [Ok, (needDirect_ok h.agentStages).bind_run, (h.translateHart_ok .store).bind_run, M.run_bind_get, hl]
  dsimp only
  rw [h.slotGuard_ok.bind_run, State.effScope_dram hl, run_optional (fun _ => h.releaseAt_ok sc) (fun _ => rfl),
    (h.coherent_ok sc true).bind_run, hsc, hread.bind_run, M.run_bind_modify, State.tellRmw_dram (ha2.loc va ▸ hl), hacq, M.run_bind_get,
    hnum, hv]
  dsimp only
  rw [hwrite.bind_run, M.run_bind_modify]
  exact hrel _

/-- That of another agent, which releases and acquires nothing. -/
theorem atomicM_other (hc : a.isCore = false) (h : s.Plain a va r.len) (hv : rmwNew r (s.num va r.len) = some v) :
    ∃ t, Ok (atomicM a sc va isSc acq rel r) s (s.num va r.len) t ∧ t.mem = Memory.writeList s.mem (s.key va) (leBytes r.len v) ∧
      s.SameBut t := by
  obtain ⟨st, off, hl⟩ := h.home.loc
  have hread := h.home.readRun_ok (q := atomicReq a sc) h.idle
  have ha := h.home.isSound.aside_noteRead (pa := va) (atomicReq a sc)
  obtain ⟨hwrite, hmem, hsame⟩ := State.PlainHome.exchanged_ok (a := a) (q := atomicReq a sc) (data := leBytes r.len v)
    (by rw [length_leBytes]; exact h.home) ha (.refl _)
  have hnum : leNat (Memory.readList s.mem (s.key va) r.len) = s.num va r.len := rfl
  refine ⟨_, Ok.asAccess _ _ ?_, hmem, hsame⟩
  rw [Ok, (needDirect_ok h.agentStages).bind_run, (h.translateHart_ok .store).bind_run, M.run_bind_get, hl]
  dsimp only
  rw [h.slotGuard_ok.bind_run, State.effScope_dram hl]
  cases a with
  | core n => cases hc
  | _ =>
    rw [ite_self, (h.coherent_ok sc true).bind_run, ite_self, hread.bind_run, M.run_bind_modify, State.tellRmw_dram (ha.loc va ▸ hl),
      ite_self, M.run_bind_get, hnum, hv]
    dsimp only
    rw [hwrite.bind_run, M.run_bind_modify, ite_self]
    rfl

/-- A read-modify-write of plain memory: it gives the old value, writes the new one, and leaves the rest. -/
theorem atomicM_plain (h : s.Plain a va r.len) (hfit : isSc = true → ∀ n, a = .core n → s.scFits n va)
    (hv : rmwNew r (s.num va r.len) = some v) :
    ∃ t, Ok (atomicM a sc va isSc acq rel r) s (s.num va r.len) t ∧ t.mem = Memory.writeList s.mem (s.key va) (leBytes r.len v) ∧
      s.SameBut t := by
  cases a with
  | core n => exact atomicM_core h (fun hb => hfit hb n rfl) hv
  | mgmt => exact atomicM_other rfl h hv
  | lane o => exact atomicM_other rfl h hv

end

end Sys2Proof.Machine
end

section
/-! SUPPORT. The values that atomics store and leave (R49, R295). -/
namespace Sys2Proof.Machine

/-! ### Numbers of bytes -/

theorem leNat_lt (l : List Byte) : leNat l < 2 ^ (8 * l.length) := by
  induction l with
  | nil => exact Nat.one_pos
  | cons b r ih =>
    have hb := b.isLt
    have hpow : 2 ^ (8 * (r.length + 1)) = 256 * 2 ^ (8 * r.length) := by rw [Nat.mul_add, Nat.pow_add]; omega
    rw [leNat, List.length_cons, hpow]
    omega

theorem State.num_lt (s : State) (pa len : Nat) : s.num pa len < 2 ^ (8 * len) := by
  have h := leNat_lt (Memory.readList s.mem (s.key pa) len)
  rwa [Memory.length_readList] at h

/-- Only the low bytes of a number count. -/
theorem leBytes_mod (n v : Nat) : leBytes n (v % 2 ^ (8 * n)) = leBytes n v := by
  induction n generalizing v with
  | zero => rfl
  | succ n ih =>
    have hpow : 2 ^ (8 * (n + 1)) = 256 * 2 ^ (8 * n) := by rw [Nat.mul_add, Nat.pow_add]; omega
    have hlow : (BitVec.ofNat 8 (v % (256 * 2 ^ (8 * n))) : Byte) = BitVec.ofNat 8 v :=
      BitVec.eq_of_toNat_eq (by rw [BitVec.toNat_ofNat, BitVec.toNat_ofNat]; exact Nat.mod_mod_of_dvd _ ⟨_, rfl⟩)
    rw [leBytes, leBytes, hpow, hlow, Nat.mod_mul_right_div_self, ih]

/-! ### What an atomic stores -/

/-- The signed reading of a number of `w` bits. -/
theorem toInt_eq_signed {w : Nat} (hw : 0 < w) (x : BitVec w) :
    (if 2 ^ (w - 1) ≤ x.toNat then (x.toNat : Int) - 2 ^ w else (x.toNat : Int)) = x.toInt := by
  have hpow : 2 ^ w = 2 * 2 ^ (w - 1) := by rw [← Nat.pow_succ', Nat.succ_eq_add_one, Nat.sub_add_cancel hw]
  rw [BitVec.toInt_eq_toNat_cond]
  by_cases h : 2 ^ (w - 1) ≤ x.toNat
  · rw [if_pos h, if_neg (by omega)]
    push_cast
    rfl
  · rw [if_neg h, if_pos (by omega)]

theorem atNew_toNat {w : Nat} (hw : 0 < w) (op : AtOp) (old x : BitVec w) (hlr : op ≠ .lr) (hsc : op ≠ .sc) :
    (atNew op old x).toNat = atRule op w old.toNat x.toNat := by
  simp only [atRule, toInt_eq_signed hw]
  cases op with
  | lr => exact absurd rfl hlr
  | sc => exact absurd rfl hsc
  | swap => rfl
  | add => exact BitVec.toNat_add _ _
  | xor => exact BitVec.toNat_xor _ _
  | and => exact BitVec.toNat_and _ _
  | or => exact BitVec.toNat_or _ _
  | max => simp only [atNew, BitVec.slt_iff_toInt_lt, apply_ite BitVec.toNat]
  | min =>
    simp only [atNew, BitVec.slt_iff_toInt_lt, apply_ite BitVec.toNat]
    rcases lt_trichotomy old.toInt x.toInt with h | h | h
    · rw [if_pos h, if_neg (by omega)]
    · rw [if_neg (by omega), if_neg (by omega), BitVec.toInt_inj.mp h]
    · rw [if_neg (by omega), if_pos h]
  | maxu =>
    simp only [atNew, BitVec.ult_iff_lt, BitVec.lt_def, apply_ite BitVec.toNat]
    split
    · next h => exact (max_eq_right h.le).symm
    · next h => exact (max_eq_left (not_lt.mp h)).symm
  | minu =>
    simp only [atNew, BitVec.ult_iff_lt, BitVec.lt_def, apply_ite BitVec.toNat]
    split
    · next h => exact (min_eq_left h.le).symm
    · next h => exact (min_eq_right (not_lt.mp h)).symm

/-- A number of 64 bits is what its signed reading wraps to. -/
theorem wrap_toInt (x : W64) : wrap 64 x.toInt = x.toNat := by
  have h := congrArg BitVec.toNat (BitVec.ofInt_toInt (x := x))
  rwa [BitVec.toNat_ofInt] at h

theorem amoNew_toNat (op : AmoOp) (old x d : W64) : (amoNew op old x d).toNat = amoRule op old x d := by
  cases op with
  | add => exact BitVec.toNat_add _ _
  | and => exact BitVec.toNat_and _ _
  | or => exact BitVec.toNat_or _ _
  | xor => exact BitVec.toNat_xor _ _
  | max =>
    rw [amoNew, amoRule]
    split
    · next h => rw [max_eq_left h.le, wrap_toInt]
    · next h => rw [max_eq_right (not_lt.mp h), wrap_toInt]
  | min =>
    rw [amoNew, amoRule]
    split
    · next h => rw [min_eq_left h.le, wrap_toInt]
    · next h => rw [min_eq_right (not_lt.mp h), wrap_toInt]
  | swap => rfl
  | cas => exact apply_ite BitVec.toNat _ _ _

/-- A word of 32 bits in a register is sign-extended. -/
theorem sxw_ofNat (v : Nat) : sxw (BitVec.ofNat 32 v) = BitVec.ofNat 64 (sx32 v) := by
  apply BitVec.eq_of_toNat_eq
  rw [sxw, BitVec.toNat_signExtend, BitVec.toNat_setWidth, BitVec.msb_eq_decide, BitVec.toNat_ofNat, BitVec.toNat_ofNat, sx32]
  simp only [decide_eq_true_eq]
  split
  · omega
  · omega

theorem atExtend_eq (dbl : Bool) (v : Nat) : atExtend dbl v = BitVec.ofNat 64 (if dbl then v else sx32 v) := by
  cases dbl with
  | true => rfl
  | false => exact sxw_ofNat v

/-- The number of a standard AMO that a read-modify-write of plain memory stores. -/
theorem rmwNew_std (op : AtOp) (dbl : Bool) (x : W64) {o : Nat} (ho : o < 2 ^ (8 * if dbl then 8 else 4)) (hlr : op ≠ .lr) (hsc : op ≠ .sc) :
    rmwNew (.std op dbl x) o = some (atRule op (8 * if dbl then 8 else 4) o (x.toNat % 2 ^ (8 * if dbl then 8 else 4))) := by
  cases dbl with
  | true =>
    have ho : o < 2 ^ 64 := ho
    have h := atNew_toNat (by decide) op (BitVec.ofNat 64 o) x hlr hsc
    rw [BitVec.toNat_ofNat, Nat.mod_eq_of_lt ho] at h
    have hx : x.toNat % 2 ^ 64 = x.toNat := Nat.mod_eq_of_lt x.isLt
    exact congrArg some (h.trans (congrArg (atRule op 64 o) hx.symm))
  | false =>
    have ho : o < 2 ^ 32 := ho
    have h := atNew_toNat (by decide) op (BitVec.ofNat 32 o) (BitVec.ofNat 32 x.toNat) hlr hsc
    rw [BitVec.toNat_ofNat, BitVec.toNat_ofNat, Nat.mod_eq_of_lt ho] at h
    exact congrArg some h

theorem rmwNew_scoped (op : AmoOp) (x d : W64) (o : Nat) :
    rmwNew (.scoped op x d) o = some (amoRule op (BitVec.ofNat 64 o) x d) := congrArg some (amoNew_toNat ..)

end Sys2Proof.Machine
end

section
/-! SUPPORT. A translation that comes to its end (R102, R357, R358): it keeps the place of an address in its doubleword, or comes again as it came. -/
namespace Sys2Proof.Machine

/-- What an operation gives when it comes to its end. -/
def Gives {α : Type} (P : α → Prop) (m : M α) : Prop := ∀ s a t, Ok m s a t → P a

theorem Ok.of_bind {α β : Type} {m : M α} {f : α → M β} {s u : State} {b : β} (h : Ok (m >>= f) s b u) :
    ∃ a t, Ok m s a t ∧ Ok (f a) t b u := by
  rw [Ok, M.run_bind] at h
  rcases hm : m.run s with ⟨e | a, t⟩
  · rw [hm] at h
    cases h
  · rw [hm] at h
    exact ⟨a, t, hm, h⟩

theorem gives_bind {α β : Type} {P : β → Prop} {m : M α} {f : α → M β} (h : ∀ a, Gives P (f a)) : Gives P (m >>= f) := fun _ _ _ hm => by
  obtain ⟨a, t, -, hf⟩ := hm.of_bind
  exact h a _ _ _ hf

theorem gives_throw {α : Type} {P : α → Prop} (e : Stop) : Gives P (throw e : M α) := fun _ _ _ h => by cases h

theorem gives_pure {α : Type} {P : α → Prop} {a : α} (h : P a) : Gives P (pure a : M α) := fun _ _ _ hm => by
  cases hm
  exact h

theorem gives_guard {α : Type} {P : α → Prop} {c : Prop} [Decidable c] {e : Stop} {f : PUnit → M α} {m : M α} (h : Gives P m) :
    Gives P (if c then (throw e : M PUnit) >>= f else m) := by
  split
  · intro s a t hf
    obtain ⟨_, _, hm, -⟩ := hf.of_bind
    cases hm
  · exact h

/-! ### Walks -/

/-- An entry of a page: its bases are aligned, and the page does not lie above the address. -/
structure TlbEntry.Paged (e : TlbEntry) (va : Nat) : Prop where
  pbase : e.pbase % 8 = 0
  vbase : e.vbase % 8 = 0
  below : e.vbase ≤ va

theorem State.norm_mod (s : State) (pa : Nat) : s.norm pa % 8 = pa % 8 := by
  rw [State.norm]
  split
  · rw [bits_eq_div_mod]
    omega
  · rfl

theorem TlbEntry.Paged.at {e : TlbEntry} {va : Nat} (h : e.Paged (va % 2 ^ 48)) : e.at va % 8 = va % 8 := by
  obtain ⟨hp, hv, hb⟩ := h
  rw [TlbEntry.at]
  omega

theorem leafOf_gives (ctx asid va lvl pte : Nat) (glob : Bool) : Gives (TlbEntry.Paged · va) (leafOf ctx asid va lvl pte glob) := by
  have hsize : ∀ b : Bool, (if b then 65536 else pageSize lvl) % 8 = 0 := fun b => by
    split
    · rfl
    · rw [pageSize]
      omega
  refine gives_guard <| gives_guard <| gives_guard <| gives_guard <| gives_guard <| gives_pure ⟨?_, ?_, Nat.div_mul_le_self _ _⟩
  · dsimp only
    omega
  · have h := hsize (bit pte 63)
    dsimp only
    rw [Nat.mul_mod, h, Nat.mul_zero, Nat.zero_mod]

theorem walkFrom_gives (ctx asid va : Nat) : ∀ (lvl table : Nat) (glob : Bool), Gives (TlbEntry.Paged · va) (walkFrom ctx asid va lvl table glob)
  | 0, _, _ => gives_throw _
  | lvl + 1, table, glob => by
    refine gives_bind fun pte => gives_guard ?_
    split
    · exact leafOf_gives ctx asid va lvl pte glob
    · exact gives_guard <| gives_guard <| walkFrom_gives ctx asid va lvl _ _

theorem walkFill_gives (t : TlbAt) (ctx : Nat) (satp : W64) (va : Nat) (k : AccKind) :
    Gives (TlbEntry.Paged · (va % 2 ^ 48)) (walkFill t ctx satp va k) := by
  have hleaf : Gives (TlbEntry.Paged · (va % 2 ^ 48)) (walkLeaf ctx satp va k) := fun s e u h => by
    obtain ⟨e0, s0, hwalk, hrest⟩ := h.of_bind
    have hp := walkFrom_gives _ _ _ _ _ _ _ _ _ hwalk
    refine gives_guard (P := (TlbEntry.Paged · (va % 2 ^ 48))) (gives_bind fun s1 => gives_pure ?_) _ _ _ hrest
    exact ⟨(s1.norm_mod _).trans hp.pbase, hp.vbase, hp.below⟩
  intro s e u h
  obtain ⟨e0, s0, hwalk, hrest⟩ := h.of_bind
  have hp := hleaf _ _ _ hwalk
  refine gives_bind (P := (TlbEntry.Paged · (va % 2 ^ 48))) (fun _ => ?_) _ _ _ hrest
  exact gives_bind fun _ => gives_bind fun _ => gives_bind fun _ => gives_pure hp

/-! ### Translations that the TLBs have -/

section
variable {s s1 : State} {n va : Nat}

theorem State.fillTlb_rest (s : State) (t : TlbAt) (e : TlbEntry) :
    s.fillTlb t e = { s.setTlb t ((e :: s.tlb t).take t.cap) with homes := (s.fillTlb t e).homes } := by
  have hadd : ∀ u : State, ∀ p z h, u.homeAdd p z h = { u with homes := (u.homeAdd p z h).homes } := fun u p z h => by
    rw [State.homeAdd]
    split
    · rfl
    · rfl
  exact List.foldlRecOn (motive := fun u : State => u = { s.setTlb t ((e :: s.tlb t).take t.cap) with homes := u.homes }) _ _
    (hadd _ _ _ _) fun u hu x _ => by
      rw [hu]
      rfl

theorem State.core_fillTlb (s : State) (n : Nat) (e : TlbEntry) : (s.fillTlb (.cc n) e).core n =
    { s.core n with hart := { (s.core n).hart with tlb := (e :: s.tlb (.cc n)).take (TlbAt.cc n).cap } } := by
  rw [State.fillTlb_rest]
  exact State.core_modCore s n fun c => { c with hart := { c.hart with tlb := (e :: s.tlb (.cc n)).take (TlbAt.cc n).cap } }

/-- The home of an address is checked without a change. -/
theorem checkHome_ok {pa home : Nat} {ph : Phys} (h : Ok (checkHome pa home) s ph s1) : s1 = s ∧ ph.pa = pa := by
  rw [Ok, checkHome, M.run_bind_get] at h
  split at h
  · cases h
  · split at h
    · cases h
      exact ⟨rfl, rfl⟩
    · cases h

/-- A look-up that comes to its end has walked to a page, has changed nothing, or has filled the TLB from the die's. -/
theorem lookup_ok {t : TlbAt} {ctx : Nat} {satp : W64} {k : AccKind} {e : TlbEntry} (h : Ok (lookup t ctx satp va k) s e s1) :
    e.Paged (va % 2 ^ 48) ∨ s1 = s ∨ (e.hits ctx (bits satp.toNat 59 44) (va % 2 ^ 48) = true ∧ s1 = s.fillTlb t e) := by
  rw [Ok, lookup, M.run_bind_get] at h
  dsimp only at h
  split at h
  · cases h
    exact .inr (.inl rfl)
  · split at h
    · next e0 he =>
      rw [M.run_bind_modify] at h
      cases h
      rw [tlbFind] at he
      exact .inr (.inr ⟨List.find?_some (p := (TlbEntry.hits · _ _ _)) he, rfl⟩)
    · exact .inl (walkFill_gives _ _ _ _ _ _ _ _ h)

/-- An entry in front of its TLB is found. -/
theorem lookup_hit {ctx : Nat} {satp : W64} {k : AccKind} {e : TlbEntry} (h : e.hits ctx (bits satp.toNat 59 44) (va % 2 ^ 48) = true) :
    Ok (lookup (.cc n) ctx satp va k) (s.fillTlb (.cc n) e) e (s.fillTlb (.cc n) e) := by
  have hfind : tlbFind ((s.fillTlb (.cc n) e).tlb (.cc n)) ctx (bits satp.toNat 59 44) (va % 2 ^ 48) = some e := by
    rw [State.tlb, State.core_fillTlb]
    exact List.find?_cons_of_pos h
  rw [Ok, lookup, M.run_bind_get]
  dsimp only
  rw [hfind]
  rfl

/-- A translation that comes to its end changes nothing, or keeps the place in the doubleword, or comes again from where it left. -/
theorem translate_again {ctx : Nat} {satp : W64} {p : Perm} {k : AccKind} {ph : Phys} (h : Ok (translate (.cc n) ctx satp p k va) s ph s1) :
    s1 = s ∨ ph.pa % 8 = va % 8 ∨ ((∃ e, s1 = s.fillTlb (.cc n) e) ∧ Ok (translate (.cc n) ctx satp p k va) s1 ph s1) := by
  rw [Ok, translate] at h
  split at h
  · next hmode =>
    split at h
    · cases h
    · next hcanon =>
      obtain ⟨e, s2, hlook, h⟩ := Ok.of_bind (h : Ok _ _ _ _)
      split at h
      · next hallows =>
        obtain ⟨ph0, s3, hcheck, h⟩ := h.of_bind
        cases h
        obtain ⟨rfl, hpa⟩ := checkHome_ok hcheck
        rcases lookup_ok hlook with hp | hs | ⟨hhit, hs⟩
        · exact .inr (.inl ((congrArg (· % 8) hpa).trans hp.at))
        · exact .inl hs
        · subst hs
          refine .inr (.inr ⟨⟨e, rfl⟩, ?_⟩)
          rw [Ok, translate, if_pos hmode, if_neg hcanon, (lookup_hit hhit).bind_run, if_pos hallows, hcheck.bind_run]
          rfl
      · cases h
  · split at h
    · cases h
    · rw [M.run_bind_get] at h
      exact .inl (checkHome_ok h).1

/-- The mode whose rights an access of a hart has: MPRV lends a load or store that of MPP. -/
def Hart.accessMode (h : Hart) (k : AccKind) : Priv :=
  if h.priv = .m ∧ bit (h.csrRaw mstatusN).toNat 17 ∧ k ≠ .fetch then Priv.ofNum (bits (h.csrRaw mstatusN).toNat 12 11) else h.priv

/-- Who such an access is made as. -/
def Hart.accessPerm (h : Hart) (k : AccKind) : Perm :=
  { user := h.accessMode k == .u, sum := bit (h.csrRaw mstatusN).toNat 18, mxr := bit (h.csrRaw mstatusN).toNat 19 }

/-- An address that is not translated takes its own home. -/
def State.bare (s : State) (va : Nat) : M Phys := do
  if va ≥ 2 ^ 52 then flt 3 2
  checkHome va (s.bareHome va)

theorem State.bare_ok {ph : Phys} (h : Ok (s.bare va) s ph s1) : s1 = s := by
  rw [Ok, State.bare] at h
  split at h
  · cases h
  · exact (checkHome_ok h).1

theorem translateHart_core (k : AccKind) : (translateHart (.core n) k va).run s =
    (if (s.core n).hart.accessMode k = .m then s.bare va
      else translate (.cc n) (s.recCtx n).1 ((s.core n).hart.csrRaw 0x180) ((s.core n).hart.accessPerm k) k va).run s := by
  rw [translateHart, M.run_bind_get]
  rfl

theorem translateHart_other {a : Agent} (h : a.isCore = false) (k : AccKind) :
    (translateHart a k va).run s = (s.bare va).run s := by
  cases a with
  | core n => cases h
  | _ =>
    rw [translateHart, M.run_bind_get]
    rfl

theorem translateHart_again {a : Agent} {k : AccKind} {ph : Phys} (h : Ok (translateHart a k va) s ph s1) :
    ph.pa % 8 = va % 8 ∨ Ok (translateHart a k va) s1 ph s1 := by
  have hsame : s1 = s → Ok (translateHart a k va) s1 ph s1 := fun hs => by
    rw [hs] at h ⊢
    exact h
  have hother : a.isCore = false → Ok (translateHart a k va) s1 ph s1 := fun hc => by
    have hrun := h
    rw [Ok, translateHart_other hc] at hrun
    exact hsame (State.bare_ok hrun)
  cases a with
  | core n =>
    have hrun := h
    rw [Ok, translateHart_core] at hrun
    split at hrun
    · exact .inr (hsame (State.bare_ok hrun))
    · next hmode =>
      rcases translate_again hrun with hs | hp | ⟨⟨e, hs⟩, hagain⟩
      · exact .inr (hsame hs)
      · exact .inl hp
      · have hcore : s1.core n = { s.core n with hart := { (s.core n).hart with tlb := (e :: s.tlb (.cc n)).take (TlbAt.cc n).cap } } := by
          rw [hs, State.core_fillTlb]
        have hmode1 : (s1.core n).hart.accessMode k = (s.core n).hart.accessMode k := by
          rw [hcore]
          rfl
        have hperm : (s1.core n).hart.accessPerm k = (s.core n).hart.accessPerm k := by
          rw [hcore]
          rfl
        have hsatp : (s1.core n).hart.csrRaw 0x180 = (s.core n).hart.csrRaw 0x180 := by
          rw [hcore]
          rfl
        have hctx : s1.recCtx n = s.recCtx n := by
          rw [State.recCtx, hcore]
          rfl
        refine .inr ?_
        rw [Ok, translateHart_core, hmode1, if_neg hmode, hperm, hsatp, hctx]
        exact hagain
  | mgmt => exact .inr (hother rfl)
  | lane o => exact .inr (hother rfl)

end

end Sys2Proof.Machine
end

section
/-! SUPPORT. Atomics on plain memory, where they are not aligned, in MMIO and in unpinned tasks (R35, R49, R52, R295, R404). -/
namespace Sys2Proof.Machine

section
variable {s s1 : State} {a : Agent} {va len : Nat}

/-! ### The traps of atomics -/

theorem asAccess_trap {α : Type} {m : M α} {x : Trap} (h : m.run s = (.error (.trap x), s1)) (k : AccKind) (va : Nat) :
    (M.asAccess k va m).run s = (.error (.trap x), s1) := by
  rw [M.asAccess, M.run_tryCatch, h]
  rfl

theorem runFor_bind_get (f : State → M (Option W64)) : runFor a (get >>= f) s = runFor a (f s) s := by
  simp only [runFor, M.run_bind_get]

theorem needDirect_stages (h : s.agentStages a = true) : (needDirect a).run s = (.error (.trap { code := 27, cause := 20 }), s) := by
  rw [needDirect, M.run_bind_get, if_pos h]
  rfl

theorem atomicAligned_ok (k : AccKind) (h : va % len = 0) : Ok (atomicAligned a k va len) s () s := by
  rw [Ok, atomicAligned, if_neg (not_not_intro h)]
  rfl

section
variable {k : AccKind} (h : va % len ≠ 0)
include h

theorem atomicAligned_flt {f : Flt} (hf : (translateHart a k va).run s = (.error (.flt f), s1)) :
    (atomicAligned a k va len).run s = (.error (.trap { code := k.alignCode, tval := va }), s1) := by
  rw [atomicAligned, if_pos h]
  refine run_bind_stops ?_
  rw [M.run_tryCatch, hf]
  rfl

theorem atomicAligned_memory {ph : Phys} (ht : Ok (translateHart a k va) s ph s1) (hl : ∀ p, s1.loc ph.pa ≠ .mmio p) :
    (atomicAligned a k va len).run s = (.error (.trap { code := k.alignCode, tval := va }), s1) := by
  rw [atomicAligned, if_pos h, ht.tryCatch.bind_run, M.run_bind_get]
  split
  · next p hp => exact absurd hp (hl p)
  · rfl

theorem atomicAligned_mmio {ph : Phys} {p : Nat} (ht : Ok (translateHart a k va) s ph s1) (hl : s1.loc ph.pa = .mmio p) :
    (atomicAligned a k va len).run s = (mmioGuard a p len va k).run s1 := by
  rw [atomicAligned, if_pos h, ht.tryCatch.bind_run, M.run_bind_get, hl]

end

theorem mmioGuard_stages {k : AccKind} (pa : Nat) (h : s.agentStages a = true) :
    (mmioGuard a pa len va k).run s = (.error (.trap { code := 27, cause := 20 }), s) := run_bind_stops (needDirect_stages h)

theorem mmioGuard_misfit {k : AccKind} {pa : Nat} (h : s.agentStages a = false) (hp : len ≠ 8 ∨ pa % 8 ≠ 0) :
    (mmioGuard a pa len va k).run s = (.error (.trap { code := k.accessCode, tval := va }), s) := by
  rw [mmioGuard, (needDirect_ok h).bind_run, if_pos hp]
  rfl

theorem State.loc_mmio_eq {pa p : Nat} (h : s.loc pa = .mmio p) : p = s.norm pa := by
  simp only [State.loc] at h
  split at h
  · split at h
    · cases h
    · cases h
  · repeat' split at h
    all_goals cases h
    rfl

/-- A standard atomic that is not aligned, whose accesses are `rest` once its alignment has been looked at (R49, R404): where the guard
of MMIO lets it pass, `rest` takes the access fault. -/
theorem State.crossTrap_atomic {α : Type} {rest : M α} {fin : α → M (Option W64)} (hlen : len = 4 ∨ len = 8) (hmis : va % len ≠ 0)
    (hrest : ∀ ph u p, u.agentStages a = false → Ok (translateHart a .store va) u ph u → u.loc ph.pa = .mmio p →
      rest.run u = (.error (.trap { code := 7, tval := va }), u)) :
    s.CrossTrap a .store va (.next (runFor a (M.asAccess .store va (atomicAligned a .store va len >>= fun _ => rest) >>= fin) s)) := by
  have hstop : ∀ {x : Trap} {u : State}, (atomicAligned a .store va len >>= fun _ => rest).run s = (.error (.trap x), u) →
      runFor a (M.asAccess .store va (atomicAligned a .store va len >>= fun _ => rest) >>= fin) s = u.takeTrap a x := fun hx =>
    runFor_trap (run_bind_stops (asAccess_trap hx _ _))
  refine ⟨fun ph s1 ht => ⟨fun hl => ?memory, fun p hl => ?mmio⟩, fun f s1 hf => ?fault⟩
  case memory => rw [hstop (run_bind_stops (atomicAligned_memory hmis ht hl))]
  case fault => rw [hstop (run_bind_stops (atomicAligned_flt hmis hf))]
  case mmio =>
    have hguard := atomicAligned_mmio hmis ht hl
    cases hst : s1.agentStages a with
    | true =>
      rw [mmioGuard_stages p hst] at hguard
      rw [hstop (run_bind_stops hguard)]
      rfl
    | false =>
      by_cases hp : len ≠ 8 ∨ p % 8 ≠ 0
      · rw [mmioGuard_misfit hst hp] at hguard
        rw [hstop (run_bind_stops hguard)]
        rfl
      · have hpa : p % 8 = ph.pa % 8 := by rw [State.loc_mmio_eq hl, State.norm_mod]
        obtain ⟨rfl, hp8⟩ : len = 8 ∧ p % 8 = 0 := by omega
        have hagain := (translateHart_again ht).resolve_left (by omega)
        rw [(mmioGuard_ok va .store hst hp8).run] at hguard
        rw [hstop ((Ok.bind_run (a := ()) hguard).trans (hrest ph s1 p hst hagain hl))]
        rfl

/-! ### Atomics in MMIO and in unpinned tasks -/

theorem atomicM_mmio {ph : Phys} {p : Nat} (hst : s.agentStages a = false) (ht : Ok (translateHart a .store va) s ph s1)
    (hl : s1.loc ph.pa = .mmio p) (sc : Scope) (isSc acq rel : Bool) (r : Rmw) :
    (atomicM a sc va isSc acq rel r).run s = (.error (.trap { code := 7, tval := va }), s1) := by
  refine asAccess_trap ?_ _ _
  rw [(needDirect_ok hst).bind_run, ht.bind_run, M.run_bind_get, hl]
  exact run_bind_trapM ..

theorem atomicM_stages (hst : s.agentStages a = true) (sc : Scope) (isSc acq rel : Bool) (r : Rmw) :
    (atomicM a sc va isSc acq rel r).run s = (.error (.trap { code := 27, cause := 20 }), s) :=
  asAccess_trap (run_bind_stops (needDirect_stages hst)) _ _

end

/-! ### The scoped atomics (R52, R295) -/

theorem exec_scoped {i : Instr} {op : AmoOp} {c : Bool} {sc : Scope} {rd r2 r1 : Reg} (h : amoOf i = some (op, c, sc, rd, r2, r1)) (s : State) :
    exec i s = runCore (amoOp op c sc rd r2 r1) s := by
  rw [amoOf.eq_def] at h
  split at h <;> cases h
  all_goals rfl

section
variable {s : State} {n : Nat} {i : Instr} {op : AmoOp} {c : Bool} {sc : Scope} {rd r2 r1 : Reg}
  (h : amoOf i = some (op, c, sc, rd, r2, r1)) (hb : s.byCore n)
include h hb

theorem scoped_misaligned (hv : ((s.core n).hart.get r1).toNat % 8 ≠ 0) :
    exec i s = .next (s.takeTrap (.core n) { code := 6, tval := ((s.core n).hart.get r1).toNat }) := by
  rw [exec_scoped h]
  refine runCore_trap hb (t := s) ?_
  rw [amoOp, M.run_bind_get]
  dsimp only
  rw [if_pos hv, run_bind_trapM]

theorem scoped_stages (hv : ((s.core n).hart.get r1).toNat % 8 = 0) (hst : (s.core n).stages = true) :
    exec i s = .next (s.takeTrap (.core n) { code := 27, cause := 20 }) := by
  rw [exec_scoped h]
  refine runCore_trap hb (t := s) ?_
  rw [amoOp, M.run_bind_get]
  dsimp only
  rw [if_neg (not_not_intro hv)]
  exact run_bind_stops (atomicM_stages (a := .core n) hst ..)

theorem scoped_plain {va : Nat} (hva : ((s.core n).hart.get r1).toNat = va) (hv : va % 8 = 0) (hp : s.Plain (.core n) va 8)
    (hfit : c = true → s.scFits n va) :
    ∃ t : State, exec i s = .next ((t.setX (.core n) rd (BitVec.ofNat 64 (s.num va 8))).fallThrough (.core n)) ∧
      t.mem = Memory.writeList s.mem (s.key va)
        (leBytes 8 (amoRule op (BitVec.ofNat 64 (s.num va 8)) ((s.core n).hart.get r2) ((s.core n).hart.get rd))) ∧ s.SameBut t := by
  obtain ⟨t, hm, hmem, hsame⟩ := atomicM_plain (r := .scoped op ((s.core n).hart.get r2) ((s.core n).hart.get rd)) (isSc := c)
    (acq := c) (rel := c) (sc := sc) hp (fun hc m hm => by cases hm; exact hfit hc) (rmwNew_scoped ..)
  refine ⟨t, ?_, hmem, hsame⟩
  rw [exec_scoped h]
  refine runCore_ok hb (pc := none) ?_
  rw [Ok, amoOp, M.run_bind_get]
  dsimp only
  rw [hva, if_neg (not_not_intro hv), hm.bind_run]
  rfl

end

/-! ### The standard atomics (R49) -/

section
variable {s : State} {a : Agent} {op : AtOp} {dbl aq rl : Bool} {rd r1 r2 : Reg}

theorem exec_standard (hb : s.byHart a) : exec (.standardAtomic op dbl aq rl rd r1 r2) s =
    .next (runFor a (standardAtomicOp op dbl aq rl rd r1 r2 a) s) := runHart_at hb

theorem standardAtomicOp_amo (hlr : op ≠ .lr) (hsc : op ≠ .sc) : standardAtomicOp op dbl aq rl rd r1 r2 a = amoStdOp a op dbl aq rl rd r1 r2 := by
  cases op with
  | lr => exact absurd rfl hlr
  | sc => exact absurd rfl hsc
  | _ => rfl

theorem len_cases (dbl : Bool) : (if dbl then 8 else 4) = 4 ∨ (if dbl then 8 else 4) = 8 := by
  cases dbl with
  | true => exact .inr rfl
  | false => exact .inl rfl

theorem standard_misaligned (hb : s.byHart a) (hlr : op ≠ .lr) (hv : ((s.hart a).get r1).toNat % (if dbl then 8 else 4) ≠ 0) :
    s.CrossTrap a .store ((s.hart a).get r1).toNat (exec (.standardAtomic op dbl aq rl rd r1 r2) s) := by
  rw [exec_standard hb]
  by_cases hsc : op = .sc
  · subst hsc
    rw [standardAtomicOp, scOp, runFor_bind_get]
    refine State.crossTrap_atomic (len_cases dbl) hv fun ph u p hst ht hl => ?_
    rw [(needDirect_ok hst).bind_run, ht.bind_run, M.run_bind_get, hl]
    exact run_bind_trapM ..
  · rw [standardAtomicOp_amo hlr hsc, amoStdOp, runFor_bind_get]
    exact State.crossTrap_atomic (len_cases dbl) hv fun ph u p hst ht hl => atomicM_mmio hst ht hl ..

theorem standard_stages (hb : s.byHart a) (hv : ((s.hart a).get r1).toNat % (if dbl then 8 else 4) = 0) (hst : s.agentStages a = true) :
    exec (.standardAtomic op dbl aq rl rd r1 r2) s = .next (s.takeTrap a { code := 27, cause := 20 }) := by
  rw [exec_standard hb]
  refine congrArg _ (runFor_trap ?_)
  by_cases hlr : op = .lr
  · subst hlr
    rw [standardAtomicOp, lrOp, M.run_bind_get]
    refine run_bind_stops (asAccess_trap ?_ _ _)
    rw [(atomicAligned_ok .load hv).bind_run]
    exact run_bind_stops (needDirect_stages hst)
  by_cases hsc : op = .sc
  · subst hsc
    rw [standardAtomicOp, scOp, M.run_bind_get]
    refine run_bind_stops (asAccess_trap ?_ _ _)
    rw [(atomicAligned_ok .store hv).bind_run]
    exact run_bind_stops (needDirect_stages hst)
  · rw [standardAtomicOp_amo hlr hsc, amoStdOp, M.run_bind_get]
    refine run_bind_stops (asAccess_trap ?_ _ _)
    rw [Rmw.len, (atomicAligned_ok .store hv).bind_run]
    exact atomicM_stages hst ..

theorem amo_plain {va len : Nat} (hb : s.byHart a) (hlr : op ≠ .lr) (hsc : op ≠ .sc) (hva : ((s.hart a).get r1).toNat = va)
    (hlen : (if dbl then 8 else 4) = len) (hv : va % len = 0) (hp : s.Plain a va len) :
    ∃ t : State, exec (.standardAtomic op dbl aq rl rd r1 r2) s =
        .next ((t.setX a rd (BitVec.ofNat 64 (if dbl then s.num va len else sx32 (s.num va len)))).fallThrough a) ∧
      t.mem = Memory.writeList s.mem (s.key va) (leBytes len (atRule op (8 * len) (s.num va len) (((s.hart a).get r2).toNat % 2 ^ (8 * len)))) ∧
      s.SameBut t := by
  subst hlen
  obtain ⟨t, hm, hmem, hsame⟩ := atomicM_plain (r := .std op dbl ((s.hart a).get r2)) (isSc := false) (acq := aq) (rel := rl)
    (sc := .pkg) hp nofun (rmwNew_std op dbl _ (s.num_lt va _) hlr hsc)
  refine ⟨t, ?_, hmem, hsame⟩
  rw [exec_standard hb, standardAtomicOp_amo hlr hsc, ← atExtend_eq]
  refine congrArg _ (runFor_ok (pc := none) ?_)
  rw [Ok, amoStdOp, M.run_bind_get]
  dsimp only
  rw [hva, (Ok.asAccess _ _ (Ok.bind (atomicAligned_ok (len := (Rmw.std op dbl _).len) .store hv) hm)).bind_run]
  rfl

/-! ### SC -/

/-- A release by an SC of a control core leaves what it covers at its word (R317). -/
def State.scNoted (s : State) (a : Agent) (rl : Bool) (pa : Nat) : State :=
  match a, rl with
  | .core n, true => s.noteRelease n .pkg (s.norm pa) (s.coveredLines n)
  | _, _ => s

theorem State.aside_scNoted (s : State) (a : Agent) (rl : Bool) (pa : Nat) : s.Aside (s.scNoted a rl pa) := by
  cases a with
  | core n =>
    cases rl with
    | true => exact s.aside_noteRelease ..
    | false => exact .refl s
  | mgmt => exact .refl s
  | lane o => exact .refl s

/-- The agent's reservation ends. -/
def State.unreserved (s : State) (a : Agent) : State := s.setHart a { s.hart a with resv := none }

theorem State.kept_unreserved (s : State) (a : Agent) : s.Kept (s.unreserved a) := s.kept_setHart a _ rfl rfl rfl rfl

theorem State.resv_unreserved (s : State) (a : Agent) : ((s.unreserved a).hart a).resv = none := by
  rw [State.unreserved, State.hart_setHart]

/-- How an SC's store is made. -/
abbrev scReq (a : Agent) : Req := { reqOf (whoOf a) homeCached 0 with wide := true }

variable {va : Nat}

theorem scOp_stores (hva : ((s.hart a).get r1).toNat = va) (hv : va % (if dbl then 8 else 4) = 0)
    (hp : s.Plain a va (if dbl then 8 else 4)) (hr : (s.hart a).resv = some (va / 64)) :
    ∃ u, (s.exchanged a (scReq a) va (leBytes (if dbl then 8 else 4) ((s.hart a).get r2).toNat)).Aside u ∧
      Ok (scOp a dbl aq rl rd r1 r2) s none ((u.unreserved a).setX a rd 0) := by
  obtain ⟨st, off, hl⟩ := hp.home.loc
  have hnorm : s.norm va = va := hp.home.norm (Nat.zero_le _)
  have hwrite := State.PlainHome.writeRun_ok (q := scReq a) (data := leBytes (if dbl then 8 else 4) ((s.hart a).get r2).toNat)
    (by rw [length_leBytes]; exact hp.home)
  obtain ⟨u, hacq, hu⟩ := atAcquire_ok
    ((s.exchanged a (scReq a) va (leBytes (if dbl then 8 else 4) ((s.hart a).get r2).toNat)).scNoted a rl va) a aq va
  refine ⟨u, (State.aside_scNoted _ a rl va).trans hu, ?_⟩
  rw [Ok, scOp, M.run_bind_get]
  dsimp only
  rw [hva]
  refine (Ok.bind_run (a := true) (t := u) (Ok.asAccess _ _ ?_)).trans rfl
  rw [Ok, (atomicAligned_ok .store hv).bind_run, (needDirect_ok hp.agentStages).bind_run, (hp.translateHart_ok .store).bind_run, M.run_bind_get, hl]
  dsimp only
  rw [hp.slotGuard_ok.bind_run, hnorm, if_pos hr, (hp.atRelease_ok rl).bind_run, (hp.coherent_ok .pkg true).bind_run, M.run_bind_get,
    hwrite.bind_run, M.run_bind_modify]
  have htail := hacq.bind (f := fun _ => pure true) (Ok.pure true u)
  cases a with
  | core n =>
    cases rl with
    | true => exact htail
    | false => exact htail
  | mgmt => exact htail
  | lane o => exact htail

theorem scOp_fails (hva : ((s.hart a).get r1).toNat = va) (hv : va % (if dbl then 8 else 4) = 0)
    (hp : s.Plain a va (if dbl then 8 else 4)) (hr : (s.hart a).resv ≠ some (va / 64)) :
    Ok (scOp a dbl aq rl rd r1 r2) s none ((s.unreserved a).setX a rd 1) := by
  obtain ⟨st, off, hl⟩ := hp.home.loc
  have hnorm : s.norm va = va := hp.home.norm (Nat.zero_le _)
  rw [Ok, scOp, M.run_bind_get]
  dsimp only
  rw [hva]
  refine (Ok.bind_run (a := false) (t := s) (Ok.asAccess _ _ ?_)).trans rfl
  rw [Ok, (atomicAligned_ok .store hv).bind_run, (needDirect_ok hp.agentStages).bind_run, (hp.translateHart_ok .store).bind_run, M.run_bind_get, hl]
  dsimp only
  rw [hp.slotGuard_ok.bind_run, hnorm, if_neg hr]
  rfl

theorem sc_plain {len : Nat} (hb : s.byHart a) (hva : ((s.hart a).get r1).toNat = va) (hlen : (if dbl then 8 else 4) = len)
    (hv : va % len = 0) (hp : s.Plain a va len) :
    ∃ t : State, exec (.standardAtomic .sc dbl aq rl rd r1 r2) s =
        .next ((t.setX a rd (if (s.hart a).resv = some (va / 64) then 0 else 1)).fallThrough a) ∧
      t.mem = (if (s.hart a).resv = some (va / 64)
        then Memory.writeList s.mem (s.key va) (leBytes len (((s.hart a).get r2).toNat % 2 ^ (8 * len))) else s.mem) ∧
      (t.hart a).resv = none ∧ s.SameBut t := by
  subst hlen
  rw [exec_standard hb, standardAtomicOp]
  by_cases hr : (s.hart a).resv = some (va / 64)
  · obtain ⟨u, hu, hrun⟩ := scOp_stores (aq := aq) (rl := rl) (rd := rd) (r2 := r2) hva hv hp hr
    obtain ⟨-, hmem, hsame⟩ := State.PlainHome.exchanged_ok (by rw [length_leBytes]; exact hp.home) (.refl s) hu
    have hkept := u.kept_unreserved a
    rw [if_pos hr, if_pos hr, leBytes_mod]
    exact ⟨u.unreserved a, congrArg _ (runFor_ok hrun), hkept.mem.trans hmem, u.resv_unreserved a, hsame.trans hkept.same⟩
  · have hkept := s.kept_unreserved a
    rw [if_neg hr, if_neg hr]
    exact ⟨s.unreserved a, congrArg _ (runFor_ok (scOp_fails hva hv hp hr)), hkept.mem, s.resv_unreserved a, hkept.same⟩

end

/-- Settles O30: scoped atomics and standard ones, each refused, staged, or performed on plain memory. -/
theorem atomics : Obligations.Atomics := by
  refine ⟨fun s n i op c sc rd r2 r1 hi hb => ?custom, fun s a dbl aq rl rd r1 r2 hb => ?standard⟩
  case custom => exact ⟨scoped_misaligned hi hb, scoped_stages hi hb, scoped_plain hi hb rfl⟩
  case standard =>
    exact ⟨fun op hlr hv => standard_misaligned hb hlr hv, fun op n ha hv hst => standard_stages hb hv (by rw [ha]; exact hst),
      fun op hlr hsc hv hp => amo_plain hb hlr hsc rfl rfl hv hp, fun hv hp => sc_plain hb rfl rfl hv hp⟩

end Sys2Proof.Machine
end

section
/-! SUPPORT. The fields of encodings (R50, R51 to R55, R59): each field of a word reads back as it was put in. -/
namespace Sys2Proof

@[simp] theorem bit1_eq_one (b : Bool) : (bit1 b == 1#1) = b := by cases b with | _ => rfl

@[simp] theorem Eng.ofNum_num (e : Eng) : Eng.ofNum e.num = some e := by cases e with | _ => rfl

@[simp] theorem Eng.ofNum_bits5 (e : Eng) : Eng.ofNum e.bits5.toNat = some e := by cases e with | _ => rfl

/-! ### Words of the control stream -/

section
variable (imm : BitVec 12) (a : Reg) (f3 : BitVec 3) (d : Reg) (op : BitVec 7)

/-- A form R is a form I of its funct7 and its second source. -/
theorem encR_eq_encI (f7 : BitVec 7) (b : Reg) : encR f7 b a f3 d op = encI (f7 ++ b) a f3 d op := rfl

/-- A field within the immediate. -/
theorem fld_encI_imm {lo n : Nat} (h : 20 ≤ lo) : fld (encI imm a f3 d op) lo n = imm.extractLsb' (lo - 20) n := by
  simp (disch := omega) only [fld, encI, BitVec.extractLsb'_append_eq_of_le, Nat.sub_sub]

/-- A field within rd. -/
theorem fld_encI_rd {lo n : Nat} (h : 7 ≤ lo) (hn : lo + n ≤ 12) : fld (encI imm a f3 d op) lo n = d.extractLsb' (lo - 7) n := by
  simp (disch := omega) only [fld, encI, BitVec.extractLsb'_append_eq_of_le, BitVec.extractLsb'_append_eq_of_add_le]

@[simp] theorem fImm_encI : fImm (encI imm a f3 d op) = imm :=
  (fld_encI_imm _ _ _ _ _ le_rfl).trans BitVec.extractLsb'_eq_self

@[simp] theorem fRd_encI : fRd (encI imm a f3 d op) = d :=
  (fld_encI_rd _ _ _ _ _ le_rfl le_rfl).trans BitVec.extractLsb'_eq_self

@[simp] theorem fRs1_encI : fRs1 (encI imm a f3 d op) = a := by
  simp (disch := omega) only [fRs1, fld, encI, BitVec.extractLsb'_append_eq_of_le, BitVec.extractLsb'_append_eq_of_add_le,
    Nat.sub_self, BitVec.extractLsb'_eq_self]

@[simp] theorem fF3_encI : fF3 (encI imm a f3 d op) = f3 := by
  simp (disch := omega) only [fF3, fld, encI, BitVec.extractLsb'_append_eq_of_le, BitVec.extractLsb'_append_eq_of_add_le,
    Nat.sub_self, BitVec.extractLsb'_eq_self]

@[simp] theorem fld_encI_op : fld (encI imm a f3 d op) 0 7 = op := BitVec.extractLsb'_append_eq_right

variable (f7 : BitVec 7) (b : Reg)

@[simp] theorem fRd_encR : fRd (encR f7 b a f3 d op) = d := fRd_encI ..

@[simp] theorem fRs1_encR : fRs1 (encR f7 b a f3 d op) = a := fRs1_encI ..

@[simp] theorem fF3_encR : fF3 (encR f7 b a f3 d op) = f3 := fF3_encI ..

@[simp] theorem fld_encR_op : fld (encR f7 b a f3 d op) 0 7 = op := fld_encI_op ..

@[simp] theorem fImm_encR : fImm (encR f7 b a f3 d op) = f7 ++ b := fImm_encI ..

/-- A field within funct7. -/
theorem fld_encR_f7 {lo n : Nat} (h : 25 ≤ lo) : fld (encR f7 b a f3 d op) lo n = f7.extractLsb' (lo - 25) n := by
  rw [encR_eq_encI, fld_encI_imm _ _ _ _ _ (by omega), BitVec.extractLsb'_append_eq_of_le (by omega), Nat.sub_sub]

@[simp] theorem fF7_encR : fF7 (encR f7 b a f3 d op) = f7 :=
  (fld_encR_f7 _ _ _ _ _ _ le_rfl).trans BitVec.extractLsb'_eq_self

@[simp] theorem fRs2_encR : fRs2 (encR f7 b a f3 d op) = b := by
  rw [fRs2, encR_eq_encI, fld_encI_imm _ _ _ _ _ le_rfl]
  exact BitVec.extractLsb'_append_eq_right

end

/-! ### Command words -/

/-- Q0 of a command word. -/
def q0Of (opc : BitVec 8) (e : Eng) (h : Hdr) (md : BitVec 15) : W64 := opc ++ BitVec.ofNat 4 e.num ++ h.pack ++ md

section
variable (opc : BitVec 8) (e : Eng) (h : Hdr) (md : BitVec 15)

@[simp] theorem opc_q0Of : qf (q0Of opc e h md) 56 8 = opc := by
  simp (disch := omega) only [qf, q0Of, BitVec.extractLsb'_append_eq_of_le, Nat.sub_self, BitVec.extractLsb'_eq_self]

@[simp] theorem eng_q0Of : (qf (q0Of opc e h md) 52 4).toNat = e.num := by
  have hfield : qf (q0Of opc e h md) 52 4 = BitVec.ofNat 4 e.num := by
    simp (disch := omega) only [qf, q0Of, BitVec.extractLsb'_append_eq_of_le, BitVec.extractLsb'_append_eq_of_add_le, Nat.sub_self,
      BitVec.extractLsb'_eq_self]
  rw [hfield]
  cases e with | _ => rfl

@[simp] theorem hdrOf_q0Of : hdrOf (q0Of opc e h md) = h := by
  simp (disch := omega) only [hdrOf, qf, q0Of, Hdr.pack, BitVec.extractLsb'_append_eq_of_le, BitVec.extractLsb'_append_eq_of_add_le,
    Nat.sub_self, BitVec.extractLsb'_eq_self, bit1_eq_one]

@[simp] theorem bodyOf_q0Of (b : Body) : bodyOf (q0Of opc e h b.md) b.q1 b.q2 b.q3 = b :=
  congrArg (Body.mk · b.q1 b.q2 b.q3) BitVec.extractLsb'_append_eq_right

end

@[simp] theorem ldArgsOf_pack (a : LdArgs) : ldArgsOf a.pack = a := by
  simp (disch := omega) only [ldArgsOf, LdArgs.pack, qf, mbit, BitVec.extractLsb'_append_eq_of_le,
    BitVec.extractLsb'_append_eq_of_add_le, Nat.sub_self, BitVec.extractLsb'_eq_self, bit1_eq_one]

@[simp] theorem stArgsOf_pack (a : StArgs) : stArgsOf a.pack = a := by
  simp (disch := omega) only [stArgsOf, StArgs.pack, qf, mbit, BitVec.extractLsb'_append_eq_of_le,
    BitVec.extractLsb'_append_eq_of_add_le, Nat.sub_self, BitVec.extractLsb'_eq_self, bit1_eq_one]

@[simp] theorem mxArgsOf_pack (a : MxArgs) : mxArgsOf a.pack = a := rfl

@[simp] theorem vopOf_pack (o : VOp) : vopOf o.pack = o := by
  simp (disch := omega) only [vopOf, VOp.pack, BitVec.extractLsb'_append_eq_of_le, BitVec.extractLsb'_append_eq_of_add_le,
    Nat.sub_self, BitVec.extractLsb'_eq_self, bit1_eq_one]

@[simp] theorem vxArgsOf_pack (a : VxArgs) : vxArgsOf a.pack = a := by
  simp (disch := omega) only [vxArgsOf, VxArgs.pack, qf, mbit, BitVec.extractLsb'_append_eq_of_le,
    BitVec.extractLsb'_append_eq_of_add_le, Nat.sub_self, BitVec.extractLsb'_eq_self, bit1_eq_one, vopOf_pack]

@[simp] theorem ctArgsOf_pack (a : CtArgs) : ctArgsOf a.pack = a := by
  simp (disch := omega) only [ctArgsOf, CtArgs.pack, qf, mbit, BitVec.extractLsb'_append_eq_of_le,
    BitVec.extractLsb'_append_eq_of_add_le, Nat.sub_self, BitVec.extractLsb'_eq_self, bit1_eq_one]

@[simp] theorem tvArgsOf_pack (a : TvArgs) : tvArgsOf a.pack = a := by
  simp (disch := omega) only [tvArgsOf, TvArgs.pack, qf, mbit, BitVec.extractLsb'_append_eq_of_le,
    BitVec.extractLsb'_append_eq_of_add_le, Nat.sub_self, BitVec.extractLsb'_eq_self, bit1_eq_one]

end Sys2Proof
end

section
/-! SUPPORT. Decoding an encoded instruction (R48 to R66), family by family. -/
namespace Sys2Proof

/-! ### The standard instructions (R48) -/

section
variable {w : W32}

theorem decode32_custom0 (h : fld w 0 7 = 0x0B#7) : decode32 w = decodeCustom0 w := by rw [decode32, h]; rfl

theorem decode32_custom1 (h : fld w 0 7 = 0x2B#7) : decode32 w = decodeCustom1 w := by rw [decode32, h]; rfl

theorem decode32_custom2 (h : fld w 0 7 = 0x5B#7) : decode32 w = decodeCustom2 w := by rw [decode32, h]; rfl

theorem decode32_opImm (h : fld w 0 7 = 0x13#7) : decode32 w = (decodeOpImm w).map .standardInstruction := by rw [decode32, h]; rfl

theorem decode32_opImmW (h : fld w 0 7 = 0x1B#7) : decode32 w = (decodeOpImmW w).map .standardInstruction := by rw [decode32, h]; rfl

theorem decode32_opW (h : fld w 0 7 = 0x3B#7) : decode32 w = (decodeOpW w).map .standardInstruction := by rw [decode32, h]; rfl

theorem decode32_system (h : fld w 0 7 = 0x73#7) : decode32 w = decodeSystem w := by rw [decode32, h]; rfl

theorem decode32_amo (h : fld w 0 7 = 0x2F#7) : decode32 w = decodeAmo w := by rw [decode32, h]; rfl

end

section
variable (rd a b : Reg)

/-- An operation on registers lies in OP, or, where it takes the low word of one operand, in OP-32. -/
theorem decodeAlu_fields (op : AluOp) :
    (op.fields.2.2 = 0x33#7 ∧ decodeAlu op.fields.1.toNat op.fields.2.1.toNat = some op) ∨
    (op.fields.2.2 = 0x3B#7 ∧ decodeAluUw op.fields.1.toNat op.fields.2.1.toNat = some op ∧
      ¬(op.fields.1.toNat = 4 ∧ op.fields.2.1.toNat = 4)) := by
  cases op with
  | addUw | sh1addUw | sh2addUw | sh3addUw => exact .inr ⟨rfl, rfl, by decide⟩
  | _ => exact .inl ⟨rfl, rfl⟩

theorem decodeAluW_fields (op : AluWOp) : decodeAluW op.fields.1.toNat op.fields.2.toNat = some op ∧
    decodeAluUw op.fields.1.toNat op.fields.2.toNat = none ∧ ¬(op.fields.1.toNat = 4 ∧ op.fields.2.toNat = 4) := by
  cases op with | _ => exact ⟨rfl, rfl, by decide⟩

theorem decode32_alu (op : AluOp) : decode32 (Rv.alu op rd a b).encode = some (.standardInstruction (.alu op rd a b)) := by
  rw [Rv.encode]
  rcases decodeAlu_fields op with ⟨hop, halu⟩ | ⟨hop, huw, hzext⟩
  · rw [hop]
    simp [decode32, halu]
  · have hz : ¬(op.fields.1.toNat = 4 ∧ op.fields.2.1.toNat = 4 ∧ b = 0#5) := fun h => hzext ⟨h.1, h.2.1⟩
    rw [hop, decode32_opW (fld_encR_op ..)]
    simp [decodeOpW, huw, hz]

theorem decode32_aluw (op : AluWOp) : decode32 (Rv.aluw op rd a b).encode = some (.standardInstruction (.aluw op rd a b)) := by
  obtain ⟨hw, huw, hzext⟩ := decodeAluW_fields op
  have hz : ¬(op.fields.1.toNat = 4 ∧ op.fields.2.toNat = 4 ∧ b = 0#5) := fun h => hzext ⟨h.1, h.2.1⟩
  rw [Rv.encode, decode32_opW (fld_encR_op ..)]
  simp [decodeOpW, huw, hw, hz]

theorem decodeImmOp_f3 (op : ImmOp) : decodeImmOp op.f3.toNat = some op := by cases op with | _ => rfl

theorem decode32_imm (op : ImmOp) (i : BitVec 12) : decode32 (Rv.imm op rd a i).encode = some (.standardInstruction (.imm op rd a i)) := by
  rw [Rv.encode, decode32_opImm (fld_encI_op ..)]
  simp [decodeOpImm, decodeImmOp_f3]

theorem decode32_un (op : UnOp) : decode32 (Rv.un op rd a).encode = some (.standardInstruction (.un op rd a)) := by
  cases op with
  | zextH =>
    have hword : (Rv.un .zextH rd a).encode = encR 4#7 0#5 a 4#3 rd 0x3B#7 := rfl
    rw [hword, decode32_opW (fld_encR_op ..)]
    simp [decodeOpW]
  | clzw | ctzw | cpopw =>
    rw [Rv.encode, UnOp.fields, decode32_opImmW (fld_encI_op ..)]
    simp [decodeOpImmW, decodeUnW, fld_encI_imm]
  | _ =>
    rw [Rv.encode, UnOp.fields, decode32_opImm (fld_encI_op ..)]
    simp [decodeOpImm, decodeImmOp, decodeUn]

/-- A shift by six bits lies in OP-IMM, where no operation with one operand has its word, or it is `slli.uw`. -/
theorem decodeShift_fields (op : ShiftOp) : op = .slliUw ∨ (op.fields.2.2 = 0x13#7 ∧ decodeImmOp op.fields.2.1.toNat = none ∧
    (∀ sh : BitVec 6, decodeUn op.fields.2.1.toNat (op.fields.1 ++ sh).toNat = none) ∧
    decodeShift op.fields.2.1.toNat op.fields.1.toNat = some op) := by
  cases op with
  | slliUw => exact .inl rfl
  | _ => exact .inr ⟨rfl, rfl, by decide, rfl⟩

theorem decode32_shift (op : ShiftOp) (sh : BitVec 6) : decode32 (Rv.shift op rd a sh).encode = some (.standardInstruction (.shift op rd a sh)) := by
  have hword : (Rv.shift op rd a sh).encode = encI (op.fields.1 ++ sh) a op.fields.2.1 rd op.fields.2.2 := rfl
  have hhi : fld (encI (op.fields.1 ++ sh) a op.fields.2.1 rd op.fields.2.2) 26 6 = op.fields.1 :=
    (fld_encI_imm _ _ _ _ _ (by decide)).trans BitVec.extractLsb'_append_eq_left
  have hlo : fld (encI (op.fields.1 ++ sh) a op.fields.2.1 rd op.fields.2.2) 20 6 = sh :=
    (fld_encI_imm _ _ _ _ _ le_rfl).trans BitVec.extractLsb'_append_eq_right
  rw [hword]
  rcases decodeShift_fields op with rfl | ⟨hop, himm, hun, hshift⟩
  · simp only [ShiftOp.fields] at hhi hlo ⊢
    rw [decode32_opImmW (fld_encI_op ..)]
    simp [decodeOpImmW, hhi, hlo]
  · rw [decode32_opImm ((fld_encI_op ..).trans hop)]
    simp [decodeOpImm, himm, hun, hhi, hlo, hshift]

/-- A shift of the low word is neither an operation with one operand nor `slli.uw`. -/
theorem decodeShiftW_fields (op : ShiftWOp) : op.fields.2.toNat ≠ 0 ∧ ¬(op.fields.2.toNat = 1 ∧ (op.fields.1.extractLsb' 1 6).toNat = 2) ∧
    (∀ sh : BitVec 5, decodeUnW op.fields.2.toNat (op.fields.1 ++ sh).toNat = none) ∧
    decodeShiftW op.fields.2.toNat op.fields.1.toNat = some op := by
  cases op with
  | _ => exact ⟨by decide, by decide, by decide, rfl⟩

theorem decode32_shiftw (op : ShiftWOp) (sh : BitVec 5) :
    decode32 (Rv.shiftw op rd a sh).encode = some (.standardInstruction (.shiftw op rd a sh)) := by
  obtain ⟨hf3, huw, hun, hshift⟩ := decodeShiftW_fields op
  have hhi : fld (encR op.fields.1 sh a op.fields.2 rd 0x1B#7) 26 6 = op.fields.1.extractLsb' 1 6 := fld_encR_f7 _ _ _ _ _ _ (by decide)
  rw [Rv.encode, decode32_opImmW (fld_encR_op ..), decodeOpImmW, hhi]
  simp only [fF3_encR, fImm_encR, fF7_encR, if_neg hf3, if_neg huw, hun, hshift]
  simp

/-! ### Offsets -/

theorem decodeBranch_f3 (op : BranchOp) : decodeBranch op.f3.toNat = some op := by cases op with | _ => rfl

/-- The parts of a branch's offset, put together. -/
theorem branch_offset (o : BitVec 12) :
    (o.extractLsb' 11 1 ++ o.extractLsb' 10 1 ++ o.extractLsb' 4 6 ++ o.extractLsb' 0 4 : BitVec 12) = o := by
  simp (disch := omega) only [BitVec.extractLsb'_append_extractLsb'_eq_extractLsb', BitVec.extractLsb'_eq_self]

theorem decode32_branch (op : BranchOp) (o : BitVec 12) :
    decode32 (Rv.branch op a b o).encode = some (.standardInstruction (.branch op a b o)) := by
  have hop : fld (Rv.branch op a b o).encode 0 7 = 0x63#7 := BitVec.extractLsb'_append_eq_right
  have hf3 : fF3 (Rv.branch op a b o).encode = op.f3 := by
    simp (disch := omega) only [fF3, fld, Rv.encode, BitVec.extractLsb'_append_eq_of_le, BitVec.extractLsb'_append_eq_of_add_le,
      Nat.sub_self, BitVec.extractLsb'_eq_self]
  rw [decode32, hop, hf3]
  simp (disch := omega) only [fRs1, fRs2, fld, Rv.encode, BitVec.extractLsb'_append_eq_of_le, BitVec.extractLsb'_append_eq_of_add_le,
    Nat.sub_self, BitVec.extractLsb'_eq_self, decodeBranch_f3, branch_offset]
  rfl

/-- The parts of a jump's offset, put together. -/
theorem jump_offset (o : BitVec 20) :
    (o.extractLsb' 19 1 ++ o.extractLsb' 11 8 ++ o.extractLsb' 10 1 ++ o.extractLsb' 0 10 : BitVec 20) = o := by
  simp (disch := omega) only [BitVec.extractLsb'_append_extractLsb'_eq_extractLsb', BitVec.extractLsb'_eq_self]

theorem decode32_jal (o : BitVec 20) : decode32 (Rv.jal rd o).encode = some (.standardInstruction (.jal rd o)) := by
  have hop : fld (Rv.jal rd o).encode 0 7 = 0x6F#7 := BitVec.extractLsb'_append_eq_right
  rw [decode32, hop]
  simp (disch := omega) only [fRd, fld, Rv.encode, BitVec.extractLsb'_append_eq_of_le, BitVec.extractLsb'_append_eq_of_add_le,
    Nat.sub_self, BitVec.extractLsb'_eq_self, jump_offset]
  rfl

/-- `lui` and `auipc` keep their immediate whole. -/
theorem upper_fields (i : BitVec 20) (op : BitVec 7) : fld (i ++ rd ++ op) 0 7 = op ∧ fRd (i ++ rd ++ op) = rd ∧
    fld (i ++ rd ++ op) 12 20 = i := by
  refine ⟨BitVec.extractLsb'_append_eq_right, ?_, ?_⟩
  all_goals simp (disch := omega) only [fRd, fld, BitVec.extractLsb'_append_eq_of_le, BitVec.extractLsb'_append_eq_of_add_le,
    Nat.sub_self, BitVec.extractLsb'_eq_self]

theorem decode32_upper (i : BitVec 20) : decode32 (Rv.lui rd i).encode = some (.standardInstruction (.lui rd i)) ∧
    decode32 (Rv.auipc rd i).encode = some (.standardInstruction (.auipc rd i)) := by
  obtain ⟨h7, hrd, himm⟩ := upper_fields rd i 0x37#7
  obtain ⟨h7', hrd', himm'⟩ := upper_fields rd i 0x17#7
  rw [Rv.encode, Rv.encode, decode32, decode32, h7, hrd, himm, h7', hrd', himm']
  exact ⟨rfl, rfl⟩

/-- Decoding undoes the encoding of a standard instruction. -/
theorem decode32_standard (r : Rv) : decode32 r.encode = some (.standardInstruction r) := by
  cases r with
  | lui rd i => exact (decode32_upper rd i).1
  | auipc rd i => exact (decode32_upper rd i).2
  | jal rd o => exact decode32_jal rd o
  | jalr rd a i => simp [Rv.encode, decode32]
  | branch op a b o => exact decode32_branch a b op o
  | imm op rd a i => exact decode32_imm rd a op i
  | addiw rd a i => simp [Rv.encode, decode32_opImmW, decodeOpImmW]
  | shift op rd a sh => exact decode32_shift rd a op sh
  | shiftw op rd a sh => exact decode32_shiftw rd a op sh
  | un op rd a => exact decode32_un rd a op
  | alu op rd a b => exact decode32_alu rd a b op
  | aluw op rd a b => exact decode32_aluw rd a b op
  | csr op rd a n =>
    rw [Rv.encode, decode32_system (fld_encI_op ..)]
    cases op with | _ => simp [decodeSystem, CsrOp.f2]
  | csri op rd u n =>
    rw [Rv.encode, decode32_system (fld_encI_op ..)]
    cases op with | _ => simp [decodeSystem, CsrOp.f2]
  | sys op => cases op with | _ => rfl
  | fencei => rfl

end

/-! ### The custom instructions (R51 to R53) -/

section
variable (f3 : BitVec 3) (f7 : BitVec 7) (d a b : Reg)

theorem decode_enc0 : decode (enc0 f3 f7 d a b) = decodeCustom0 (encR f7 b a f3 d 0x0B#7) := decode32_custom0 (fld_encR_op ..)

theorem decode_enc2 : decode (enc2 f7 d a b) = decodeCustom2 (encR f7 b a 0#3 d 0x5B#7) := decode32_custom2 (fld_encR_op ..)

/-- `ring.post` in each of its forms. -/
theorem decode_encPost (e : Eng) (imm : BitVec 12) (fresh : Bool) : decode (encPost e a imm fresh) = some
    (if fresh then (if a = 0#5 then .ringPostFresh e imm else .ringPostFreshReg e a imm)
      else if a = 0#5 then .ringPost e imm else .ringPostReg e a imm) := by
  have hfld : ∀ {lo n : Nat}, 7 ≤ lo → lo + n ≤ 12 → fld (encI imm a 0#3 (0#1 ++ bit1 fresh ++ BitVec.ofNat 3 e.num) 0x0B#7) lo n =
      (0#1 ++ bit1 fresh ++ BitVec.ofNat 3 e.num : Reg).extractLsb' (lo - 7) n := fun h hn => fld_encI_rd _ _ _ _ _ h hn
  have heng : Eng.ofNum ((0#1 ++ bit1 fresh ++ BitVec.ofNat 3 e.num : Reg).extractLsb' 0 3).toNat = some e := by
    rw [BitVec.extractLsb'_append_eq_right]
    cases e with | _ => rfl
  have hnew : ((0#1 ++ bit1 fresh ++ BitVec.ofNat 3 e.num : Reg).extractLsb' 3 1) = bit1 fresh := by
    simp (disch := omega) only [BitVec.extractLsb'_append_eq_of_le, BitVec.extractLsb'_append_eq_of_add_le, Nat.sub_self,
      BitVec.extractLsb'_eq_self]
  have hzero : ((0#1 ++ bit1 fresh ++ BitVec.ofNat 3 e.num : Reg).extractLsb' 4 1) = 0#1 := by
    simp (disch := omega) only [BitVec.extractLsb'_append_eq_of_le, Nat.sub_sub]
    rfl
  rw [encPost, decode, decode32_custom0 (fld_encI_op ..), decodeCustom0, fF3_encI]
  show decodePost _ = _
  rw [decodePost, hfld (by decide) (by decide), hfld (by decide) (by decide), hfld (by decide) (by decide), hzero, heng, hnew,
    fRs1_encI, fImm_encI]
  cases fresh with | _ => rfl

section
variable (op : BitVec 5) (c : Bool) (s : Scope)

theorem fld_enc1_op : fld (encR (op ++ bit1 c ++ 0#1) b a f3 d 0x2B#7) 27 5 = op := by
  rw [fld_encR_f7 _ _ _ _ _ _ (by decide)]
  simp (disch := omega) only [BitVec.extractLsb'_append_eq_of_le, Nat.sub_self, Nat.sub_sub, BitVec.extractLsb'_eq_self]

theorem fld_enc1_sc : fld (encR (op ++ bit1 c ++ 0#1) b a f3 d 0x2B#7) 26 1 = bit1 c := by
  rw [fld_encR_f7 _ _ _ _ _ _ (by decide)]
  simp (disch := omega) only [BitVec.extractLsb'_append_eq_of_le, BitVec.extractLsb'_append_eq_of_add_le, Nat.sub_self,
    BitVec.extractLsb'_eq_self]

theorem fld_enc1_zero : fld (encR (op ++ bit1 c ++ 0#1) b a f3 d 0x2B#7) 25 1 = 0#1 := by
  rw [fld_encR_f7 _ _ _ _ _ _ le_rfl]
  exact BitVec.extractLsb'_append_eq_right

/-- The three bits of a scope's code name it. -/
theorem Scope.ofNum_mod : Scope.ofNum (s.num % 8) = some s := by cases s with | _ => rfl

theorem decode_enc1 : decode (enc1 op c s d a b) = decodeCustom1 (encR (op ++ bit1 c ++ 0#1) b a (BitVec.ofNat 3 s.num) d 0x2B#7) :=
  decode32_custom1 (fld_encR_op ..)

end

end

/-! ### The standard accesses (R49) -/

theorem decode_load (k : MemKind) (d a : Reg) (i : BitVec 12) :
    decode (.word (encI i a k.f3 d 0x03#7)) = some (.controlCoreLoad k d a i) := by
  have hk : decodeLoad k.f3.toNat = some k := by cases k with | _ => rfl
  simp [decode, decode32, hk]

/-- The parts of a store's offset, put together. -/
theorem store_offset (i : BitVec 12) : (i.extractLsb' 5 7 ++ i.extractLsb' 0 5 : BitVec 12) = i := by
  simp (disch := omega) only [BitVec.extractLsb'_append_extractLsb'_eq_extractLsb', BitVec.extractLsb'_eq_self]

theorem decode_store {k : MemKind} (b a : Reg) (i : BitVec 12) (h : (Instr.controlCoreStore k b a i).formOk = true) :
    decode (.word (i.extractLsb' 5 7 ++ b ++ a ++ k.f3 ++ i.extractLsb' 0 5 ++ 0x23#7)) = some (.controlCoreStore k b a i) := by
  have hk : decodeStore k.f3.toNat = some k := by
    cases k with
    | bu | hu | wu => cases h
    | _ => rfl
  have hword : (i.extractLsb' 5 7 ++ b ++ a ++ k.f3 ++ i.extractLsb' 0 5 ++ 0x23#7 : W32) =
    encR (i.extractLsb' 5 7) b a k.f3 (i.extractLsb' 0 5) 0x23#7 := rfl
  have hhi : fld (encR (i.extractLsb' 5 7) b a k.f3 (i.extractLsb' 0 5) 0x23#7) 25 7 = i.extractLsb' 5 7 := fF7_encR ..
  have hlo : fld (encR (i.extractLsb' 5 7) b a k.f3 (i.extractLsb' 0 5) 0x23#7) 7 5 = i.extractLsb' 0 5 := fRd_encR ..
  rw [hword, decode, decode32, fld_encR_op, hhi, hlo, store_offset]
  simp [hk]

theorem decode_fence (fm p q : BitVec 4) (a d : Reg) :
    decode (.word (fm ++ p ++ q ++ a ++ 0#3 ++ d ++ 0x0F#7)) = some (.standardFence fm p q a d) := by
  have hword : (fm ++ p ++ q ++ a ++ 0#3 ++ d ++ 0x0F#7 : W32) = encI (fm ++ p ++ q) a 0#3 d 0x0F#7 := rfl
  have h28 : fld (encI (fm ++ p ++ q) a 0#3 d 0x0F#7) 28 4 = fm := by
    rw [fld_encI_imm _ _ _ _ _ (by decide)]
    simp (disch := omega) only [BitVec.extractLsb'_append_eq_of_le, Nat.sub_self, BitVec.extractLsb'_eq_self]
  have h24 : fld (encI (fm ++ p ++ q) a 0#3 d 0x0F#7) 24 4 = p := by
    rw [fld_encI_imm _ _ _ _ _ (by decide)]
    simp (disch := omega) only [BitVec.extractLsb'_append_eq_of_le, BitVec.extractLsb'_append_eq_of_add_le, Nat.sub_self,
      BitVec.extractLsb'_eq_self]
  have h20 : fld (encI (fm ++ p ++ q) a 0#3 d 0x0F#7) 20 4 = q :=
    (fld_encI_imm _ _ _ _ _ le_rfl).trans BitVec.extractLsb'_append_eq_right
  rw [hword, decode, decode32, fld_encI_op, fF3_encI, h28, h24, h20, fRs1_encI, fRd_encI]
  rfl

theorem decode_atomic {op : AtOp} (dbl aq rl : Bool) (d a b : Reg) (h : (Instr.standardAtomic op dbl aq rl d a b).formOk = true) :
    decode (.word (encR (op.f5 ++ bit1 aq ++ bit1 rl) b a (if dbl then 3#3 else 2#3) d 0x2F#7)) =
      some (.standardAtomic op dbl aq rl d a b) := by
  have hat : decodeAt op.f5.toNat = some op := by cases op with | _ => rfl
  have hform : ¬(op = .lr ∧ b ≠ 0#5) := by simpa [Instr.formOk, Decidable.imp_iff_not_or] using h
  have hfld : ∀ {lo n : Nat}, 25 ≤ lo → fld (encR (op.f5 ++ bit1 aq ++ bit1 rl) b a (if dbl then 3#3 else 2#3) d 0x2F#7) lo n =
      (op.f5 ++ bit1 aq ++ bit1 rl).extractLsb' (lo - 25) n := fun h => fld_encR_f7 _ _ _ _ _ _ h
  have h27 : (op.f5 ++ bit1 aq ++ bit1 rl).extractLsb' 2 5 = op.f5 := by
    simp (disch := omega) only [BitVec.extractLsb'_append_eq_of_le, Nat.sub_self, BitVec.extractLsb'_eq_self]
  have h26 : (op.f5 ++ bit1 aq ++ bit1 rl).extractLsb' 1 1 = bit1 aq := by
    simp (disch := omega) only [BitVec.extractLsb'_append_eq_of_le, BitVec.extractLsb'_append_eq_of_add_le, Nat.sub_self,
      BitVec.extractLsb'_eq_self]
  have h25 : (op.f5 ++ bit1 aq ++ bit1 rl).extractLsb' 0 1 = bit1 rl := BitVec.extractLsb'_append_eq_right
  rw [decode, decode32_amo (fld_encR_op ..), decodeAmo, hfld (by decide), hfld (by decide), hfld (by decide), h27, h26, h25, hat,
    fF3_encR, fRs2_encR, fRs1_encR, fRd_encR]
  dsimp only
  rw [if_neg hform, bit1_eq_one, bit1_eq_one]
  cases dbl with | _ => rfl

/-! ### Commands (R55, R58, R62 to R66) -/

/-- The command of an engine with a code of its own. -/
def Eng.lookUp (e : Eng) (opc : Nat) (h : Hdr) (b : Body) : Option Instr :=
  match e with
  | .ld => (byCode ldTable opc).map fun f => f h (ldArgsOf b)
  | .st => (byCode stTable opc).map fun f => f h (stArgsOf b)
  | .mx => (byCode mxTable opc).map fun f => f h (mxArgsOf b)
  | .vx => (byCode vxTable opc).map fun f => f h (vxArgsOf b)
  | .ct => (byCode ctTable opc).map fun f => f h (ctArgsOf b)
  | .tv => if opc = 0x04 ∧ (tvArgsOf b).fin then some (.tvCancelFin h (tvArgsOf b))
    else (byCode tvTable opc).map fun f => f h (tvArgsOf b)

section
variable {opc : BitVec 8} {e : Eng} {h : Hdr}

/-- A command word decodes to what the ring of its own engine makes of it, where that is legal. -/
theorem decode_cmdWords {b : Body} {i : Instr} (hc : commandOf e (q0Of opc e h b.md) b.q1 b.q2 b.q3 = some i) (hl : i.legal = true) :
    decode (cmdWords e opc h b) = some i := by
  have hdef : decode (cmdWords e opc h b) = decodeCommand (q0Of opc e h b.md) b.q1 b.q2 b.q3 := rfl
  rw [hdef, decodeCommand, eng_q0Of, Eng.ofNum_num]
  dsimp only
  rw [hc]
  exact if_pos hl

/-- A command with a code below those of every engine is looked up in the map of its own. -/
theorem commandOf_low {b : Body} (hopc : opc.toNat < 0xF0) :
    commandOf e (q0Of opc e h b.md) b.q1 b.q2 b.q3 = e.lookUp opc.toNat h b := by
  rw [commandOf.eq_def, eng_q0Of, if_neg (not_not_intro rfl), opc_q0Of, if_neg (not_le.mpr hopc), hdrOf_q0Of, bodyOf_q0Of]
  cases e with | _ => rfl

theorem decode_ld {f : Hdr → LdArgs → Instr} {a : LdArgs} (hopc : opc.toNat < 0xF0) (hf : byCode ldTable opc.toNat = some f)
    (hl : (f h a).legal = true) : decode (cmdWords .ld opc h a.pack) = some (f h a) := by
  refine decode_cmdWords ?_ hl
  rw [commandOf_low hopc, Eng.lookUp, hf, ldArgsOf_pack]
  rfl

theorem decode_st {f : Hdr → StArgs → Instr} {a : StArgs} (hopc : opc.toNat < 0xF0) (hf : byCode stTable opc.toNat = some f)
    (hl : (f h a).legal = true) : decode (cmdWords .st opc h a.pack) = some (f h a) := by
  refine decode_cmdWords ?_ hl
  rw [commandOf_low hopc, Eng.lookUp, hf, stArgsOf_pack]
  rfl

theorem decode_mx {f : Hdr → MxArgs → Instr} {a : MxArgs} (hopc : opc.toNat < 0xF0) (hf : byCode mxTable opc.toNat = some f)
    (hl : (f h a).legal = true) : decode (cmdWords .mx opc h a.pack) = some (f h a) := by
  refine decode_cmdWords ?_ hl
  rw [commandOf_low hopc, Eng.lookUp, hf, mxArgsOf_pack]
  rfl

theorem decode_vx {f : Hdr → VxArgs → Instr} {a : VxArgs} (hopc : opc.toNat < 0xF0) (hf : byCode vxTable opc.toNat = some f)
    (hl : (f h a).legal = true) : decode (cmdWords .vx opc h a.pack) = some (f h a) := by
  refine decode_cmdWords ?_ hl
  rw [commandOf_low hopc, Eng.lookUp, hf, vxArgsOf_pack]
  rfl

theorem decode_ct {f : Hdr → CtArgs → Instr} {a : CtArgs} (hopc : opc.toNat < 0xF0) (hf : byCode ctTable opc.toNat = some f)
    (hl : (f h a).legal = true) : decode (cmdWords .ct opc h a.pack) = some (f h a) := by
  refine decode_cmdWords ?_ hl
  rw [commandOf_low hopc, Eng.lookUp, hf, ctArgsOf_pack]
  rfl

/-- A command of TV other than a cancel is told by its code alone, and a plain cancel by FIN beside it. -/
theorem decode_tv {f : Hdr → TvArgs → Instr} {a : TvArgs} (hopc : opc.toNat < 0xF0) (hf : byCode tvTable opc.toNat = some f)
    (hfin : opc.toNat = 0x04 → a.fin = false) (hl : (f h a).legal = true) : decode (cmdWords .tv opc h a.pack) = some (f h a) := by
  have hplain : ¬(opc.toNat = 0x04 ∧ a.fin = true) := fun hc => by simp [hfin hc.1] at hc
  refine decode_cmdWords ?_ hl
  rw [commandOf_low hopc, Eng.lookUp, hf, tvArgsOf_pack]
  exact if_neg hplain

theorem tvPlainLegal_fin {fin : Bool} {a : TvArgs} (hl : tvPlainLegal fin h a = true) : a.fin = fin := by
  simp only [tvPlainLegal, Bool.and_eq_true, beq_iff_eq] at hl
  exact hl.1.1.1.1.2

theorem decode_tvCancelFin {a : TvArgs} (hl : (Instr.tvCancelFin h a).legal = true) :
    decode (cmdWords .tv 0x04#8 h a.pack) = some (.tvCancelFin h a) := by
  refine decode_cmdWords ?_ hl
  rw [commandOf_low (by decide), Eng.lookUp, tvArgsOf_pack]
  exact if_pos ⟨rfl, tvPlainLegal_fin hl⟩

/-- The words of a buffer command hold its buffer, its count and zeros. -/
theorem CbArgs.pack_fields (a : CbArgs) : qf a.pack.q1 0 5 = a.cb ∧ qf a.pack.q1 16 9 = a.m ∧ qf a.pack.q1 5 11 = 0#11 ∧
    qf a.pack.q1 25 39 = 0#39 := by
  refine ⟨?_, ?_, ?_, ?_⟩
  all_goals simp (disch := omega) only [qf, CbArgs.pack, BitVec.extractLsb'_append_eq_of_le, BitVec.extractLsb'_append_eq_of_add_le,
    Nat.sub_self, BitVec.extractLsb'_eq_self]

theorem commandOf_high {b : Body} (hopc : 0xF0 ≤ opc.toNat) : commandOf e (q0Of opc e h b.md) b.q1 b.q2 b.q3 =
    commonOf e opc.toNat h b := by
  rw [commandOf.eq_def, eng_q0Of, if_neg (not_not_intro rfl), opc_q0Of, if_pos hopc, hdrOf_q0Of, bodyOf_q0Of]

theorem commonOf_pack (a : CbArgs) {k : Nat} (hk : k ≠ 0xF0) : commonOf e k h a.pack =
    if k = 0xF1 then some (.cbRelCommand e h a)
    else if k = 0xF2 then some (.cbClaimCommand e h a)
    else if k = 0xF3 then some (.cbPushCommand e h a)
    else if k = 0xF4 then some (.cbTakeCommand e h a)
    else none := by
  obtain ⟨hcb, hm, hz, hz'⟩ := a.pack_fields
  have hwords : ¬(a.pack.md ≠ 0#15 ∨ a.pack.q2 ≠ 0#64 ∨ a.pack.q3 ≠ 0#64) := fun h => h.elim (· rfl) fun h => h.elim (· rfl) (· rfl)
  rw [commonOf, if_neg hwords, if_neg hk, hcb, hm, hz, hz', if_neg fun h => h.elim (· rfl) (· rfl)]

theorem decode_common {b : Body} {i : Instr} (hopc : 0xF0 ≤ opc.toNat) (hi : commonOf e opc.toNat h b = some i) (hl : i.legal = true) :
    decode (cmdWords e opc h b) = some i := decode_cmdWords ((commandOf_high hopc).trans hi) hl

end

end Sys2Proof
end

section
/-! SUPPORT. Every instruction that has words is the one that they decode to (R51 to R66). -/
namespace Sys2Proof

theorem decode_encode {i : Instr} {c : Code} (hl : i.legal = true) (hform : i.formOk = true) (hc : encode i = some c) : decode c = some i := by
  cases i with
  | ringPost e imm | ringPostFresh e imm => cases hc; exact decode_encPost ..
  | ringPostReg e a imm | ringPostFreshReg e a imm =>
    cases hc
    have ha : a ≠ 0#5 := by simpa [Instr.formOk] using hform
    simp [decode_encPost, ha]
  | ringWait | ringPtr | semRaise | semWait | semRead | semTry | cbCfg | cbClaim | cbPush | cbTake | cbRel | cbStat | taskRetire
  | taskAbort | taskDirect | taskYield | condSet | depDec | graphLaunch | datumRd | datumWait | snapTrig | snapRd =>
    cases hc
    simp [decode_enc0, decodeCustom0, when1]
  | ldAcq | sdRel | amoAdd | amoAnd | amoOr | amoXor | amoMax | amoMin | amoSwap | amoCas | fenceScoped | arrive | wait =>
    cases hc
    simp [decode_enc1, decodeCustom1, fld_enc1_op, fld_enc1_sc, fld_enc1_zero, Scope.ofNum_mod, when1]
  | ctxSave | ctxRest | fqRd | fqPop | ringCfg | ringOwn | semSet | errInj =>
    cases hc
    simp [decode_enc2, decodeCustom2, when1]
  | standardFence fm p q a d => cases hc; exact decode_fence ..
  | standardAtomic op dbl aq rl d a b => cases hc; exact decode_atomic _ _ _ _ _ _ hform
  | sfenceVma a b =>
    cases hc
    rw [decode, decode32_system (fld_encR_op ..)]
    simp [decodeSystem]
  | controlCoreLoad k d a imm => cases hc; exact decode_load ..
  | controlCoreStore k b a imm => cases hc; exact decode_store _ _ _ hform
  | standardInstruction r => cases hc; exact decode32_standard r
  | nop e h =>
    cases hc
    exact decode_common (by decide) rfl hl
  | cbRelCommand e h a | cbClaimCommand e h a | cbPushCommand e h a | cbTakeCommand e h a =>
    cases hc
    exact decode_common (by decide) (commonOf_pack a (by decide)) hl
  | ldTile | ldGather | ldMcast | ldBmv | ldBpn | ldCvt | ldPref | ldMove | ldFill => cases hc; exact decode_ld (by decide) rfl hl
  | stTile | stScat | stBmv | stDtile | stDscat | stCvt | stWb | stFlush => cases hc; exact decode_st (by decide) rfl hl
  | mmaBf16 | mmaFp8 | mmaI8 | mmaQ4 | mvBf16 | mvFp8 | mvI8 | mvQ4 | accZero | accLd | accSt | accScale => cases hc; exact decode_mx (by decide) rfl hl
  | vxVld | vxVst | vxVldk | vxVstk | vxMov | vxMovi | vxIota | vxPjLd | vxAdd | vxSub | vxAdds | vxSubs | vxMul | vxMulh
  | vxMin | vxMax | vxAbs | vxDot | vxDots | vxMadd | vxAnd | vxOr | vxXor | vxAndn | vxSll | vxSrl | vxSra | vxRol | vxPopc
  | vxClz | vxCmpEq | vxCmpNe | vxCmpLt | vxCmpLe | vxCmpLtu | vxCmpLeu | vxSel | vxCsel | vxKand | vxKor | vxKxor | vxKnot
  | vxKmov | vxKpop | vxPerm | vxBcast | vxSlideup | vxSlidedn | vxZip | vxUnzip | vxProj | vxRsum | vxRmax | vxRmin | vxRargmax
  | vxRargmin | vxRand | vxRor | vxFadd | vxFsub | vxFmul | vxFfma | vxFmin | vxFmax | vxFdiv | vxFsqrt | vxFrsq | vxFcmpEq
  | vxFcmpLt | vxFcmpLe | vxFcmpUn | vxFabs | vxCvt | vxQzL8 | vxDqL8 | vxBps | vxBpm | vxScacc | vxFrsum => cases hc; exact decode_vx (by decide) rfl hl
  | ctMax | ctExpsum | ctScale | ctSoftmax | ctRmsnorm | ctLayernorm | ctSumsq => cases hc; exact decode_ct (by decide) rfl hl
  | tvOpen | tvBlk | tvSeal | tvStat | tvAcq | tvDisc | tvFree => cases hc; exact decode_tv (by decide) rfl (fun h => absurd h (by decide)) hl
  | tvCancel => cases hc; exact decode_tv (by decide) rfl (fun _ => tvPlainLegal_fin hl) hl
  | tvCancelFin => cases hc; exact decode_tvCancelFin hl
  | _ => cases hc

/-- Settles O4: by the family of the instruction. -/
theorem decodeEncode : Obligations.DecodeEncode := fun i c hwf hc => by
  obtain ⟨hl, hform⟩ := (Bool.and_eq_true _ _).mp hwf
  exact decode_encode hl hform hc

end Sys2Proof
end

section
/-! SUPPORT. What the completion of an instruction and the write of an integer register change, and what they leave (R48, R50). -/
namespace Sys2Proof.Machine

theorem bit_eq_testBit (w i : Nat) : bit w i = w.testBit i := by
  rw [bit, Nat.testBit_eq_decide_div_mod_eq, Nat.shiftRight_eq_div_pow]
  rfl

theorem Hart.bit_csrRaw (h : Hart) (k i : Nat) : bit (h.csrRaw k).toNat i = h.csrBit k i := bit_eq_testBit ..

/-! ### Integer registers -/

theorem Hart.get_set (h : Hart) (rd r : Reg) (v : W64) : (h.set rd v).get r = if r = rd ∧ rd ≠ 0#5 then v else h.get r := by
  by_cases hr : r = rd
  · subst hr
    by_cases h0 : r = 0#5
    · subst h0
      simp
    · rw [if_pos ⟨rfl, h0⟩, Hart.get_set_same h v h0]
  · rw [if_neg fun h => hr h.1, Hart.get_set_ne h v hr]

theorem State.setX_hart (s : State) (a : Agent) (rd : Reg) (v : W64) : (s.setX a rd v).hart a = (s.hart a).set rd v := State.hart_setHart ..

/-- Of a core a write of its hart changes the hart alone. -/
theorem State.core_setHart_rest (s : State) (a : Agent) (h : Hart) (n : Nat) :
    (s.setHart a h).core n = { s.core n with hart := ((s.setHart a h).core n).hart } := by
  cases a with
  | core m =>
    by_cases hm : n = m
    · subst hm
      rw [State.core_setHart]
    · rw [State.core_setHart_ne _ _ hm]
  | mgmt => rfl
  | lane o => rfl

/-! ### Completion -/

/-- A hart whose instruction completes: its pc moves to `pc`, its wait ends, and it counts unless counting is inhibited. -/
def Hart.finish (h : Hart) (pc : W64) : Hart :=
  let h := { h with pc := pc, wait := none }
  if h.csrBit 0x320 2 then h else h.setCsrRaw 0xB02 (h.csrRaw 0xB02 + 1)

theorem State.finishInstr_finish (s : State) (a : Agent) (p : Option W64) :
    s.finishInstr a p = s.setHart a ((s.hart a).finish (p.getD ((s.hart a).pc + BitVec.ofNat 64 s.ilen))) := by
  rw [State.finishInstr, Hart.bit_csrRaw]
  rfl

theorem State.finishInstr_hart (s : State) (a : Agent) (p : Option W64) :
    (s.finishInstr a p).hart a = (s.hart a).finish (p.getD ((s.hart a).pc + BitVec.ofNat 64 s.ilen)) := by
  rw [State.finishInstr_finish, State.hart_setHart]

section
variable (h : Hart) (pc : W64)

theorem Hart.finish_rest : h.finish pc = { h with pc := pc, wait := none, csr := (h.finish pc).csr } := by
  rw [Hart.finish]
  split
  · rfl
  · rfl

@[simp] theorem Hart.finish_pc : (h.finish pc).pc = pc := by rw [h.finish_rest]

@[simp] theorem Hart.finish_wait : (h.finish pc).wait = none := by rw [h.finish_rest]

@[simp] theorem Hart.finish_x : (h.finish pc).x = h.x := by rw [h.finish_rest]

@[simp] theorem Hart.finish_get (r : Reg) : (h.finish pc).get r = h.get r := by rw [Hart.get, h.finish_x]; rfl

@[simp] theorem Hart.finish_priv : (h.finish pc).priv = h.priv := by rw [h.finish_rest]

theorem Hart.finish_csrRaw {k : Nat} (hk : k ≠ 0xB02) : (h.finish pc).csrRaw k = h.csrRaw k := by
  rw [Hart.finish]
  split
  · rfl
  · exact Hart.csrRaw_setCsrRaw_ne _ _ hk

theorem Hart.finish_minstret : (h.finish pc).csrRaw 0xB02 = if h.csrBit 0x320 2 then h.csrRaw 0xB02 else h.csrRaw 0xB02 + 1 := by
  have hbit : ({ h with pc := pc, wait := none } : Hart).csrBit 0x320 2 = h.csrBit 0x320 2 := rfl
  rw [Hart.finish, hbit]
  split
  · rfl
  · exact Hart.csrRaw_setCsrRaw ..

end

/-- Settles O10: completion and a register write are writes of one hart. -/
theorem registerAndPcFrame : Obligations.RegisterAndPcFrame := by
  refine ⟨fun s a p => ?completion, fun s a rd v => ?write⟩
  case completion =>
    have hhart := s.finishInstr_hart a p
    have hother : ∀ b, b ≠ a → (s.finishInstr a p).hart b = s.hart b := fun b hb => by
      rw [State.finishInstr_finish, State.hart_setHart_ne _ _ hb]
    have hmem : (s.finishInstr a p).mem = s.mem := by rw [State.finishInstr_finish, State.setHart_mem]
    have hmmio : (s.finishInstr a p).mmio = s.mmio := by rw [State.finishInstr_finish, State.setHart_mmio]
    dsimp only
    rw [hhart, hmem]
    refine ⟨Hart.finish_pc .., Hart.finish_wait .., Hart.finish_get _ _, Hart.finish_priv .., fun k hk => Hart.finish_csrRaw _ _ hk,
      fun hc => ?_, fun hc => ?_, hother, fun _ => rfl, hmmio⟩
    · exact (Hart.finish_minstret ..).trans (if_neg (by rw [Hart.csrBit, hc]; exact Bool.false_ne_true))
    · exact (Hart.finish_minstret ..).trans (if_pos hc)
  case write =>
    have hother : ∀ b, b ≠ a → (s.setX a rd v).hart b = s.hart b := fun b hb => State.hart_setHart_ne _ _ hb
    have hcore : ∀ n, (s.setX a rd v).core n = { s.core n with hart := ((s.setX a rd v).core n).hart } := State.core_setHart_rest _ _ _
    dsimp only
    rw [State.setX_hart]
    refine ⟨fun r => Hart.get_set .., Hart.get_zero _, Hart.set_pc .., Hart.set_priv .., Hart.set_csr .., Hart.set_wait .., hother,
      State.setHart_mem .., State.setHart_mmio .., fun n => ?_⟩
    rw [hcore]
    exact ⟨rfl, rfl, rfl, rfl, rfl, rfl⟩

end Sys2Proof.Machine
end

section
/-! SUPPORT. The arithmetic of the standard's integer operations (R48), in numbers: words of any width. -/
namespace Sys2Proof.Machine

section
variable {w : Nat}

/-! ### Signed readings -/

theorem wrap_eq_ofInt (z : Int) : wrap w z = (BitVec.ofInt w z).toNat := (BitVec.toNat_ofInt z).symm

/-- A number of any width is what its signed reading wraps to. -/
theorem toNat_eq_wrap (x : BitVec w) : x.toNat = wrap w x.toInt := by rw [wrap_eq_ofInt, BitVec.ofInt_toInt]

theorem wrap_lt (z : Int) : wrap w z < 2 ^ w := wrap_eq_ofInt (w := w) z ▸ BitVec.isLt _

theorem sshiftRight_toNat (x : BitVec w) (k : Nat) : (x.sshiftRight k).toNat = wrap w (x.toInt / (2 ^ k : Nat)) := by
  rw [toNat_eq_wrap, BitVec.toInt_sshiftRight, Int.shiftRight_eq_div_pow]

theorem sdiv_toNat (x y : BitVec w) : (x.sdiv y).toNat = wrap w (x.toInt.tdiv y.toInt) := by
  rw [toNat_eq_wrap, BitVec.toInt_sdiv, wrap, Int.bmod_emod, wrap]

theorem srem_toNat (x y : BitVec w) : (x.srem y).toNat = wrap w (x.toInt.tmod y.toInt) := by
  rw [toNat_eq_wrap, BitVec.toInt_srem]

theorem ite_slt_toNat (x y : BitVec w) : (if x.slt y then y else x).toNat = wrap w (max x.toInt y.toInt) := by
  rw [toNat_eq_wrap]
  simp only [BitVec.slt_iff_toInt_lt]
  split
  · next h => rw [max_eq_right h.le]
  · next h => rw [max_eq_left (not_lt.mp h)]

theorem ite_sgt_toNat (x y : BitVec w) : (if y.slt x then y else x).toNat = wrap w (min x.toInt y.toInt) := by
  rw [toNat_eq_wrap]
  simp only [BitVec.slt_iff_toInt_lt]
  split
  · next h => rw [min_eq_right h.le]
  · next h => rw [min_eq_left (not_lt.mp h)]

/-! ### Rotation -/

/-- The two parts of a rotated word do not meet. -/
theorem rotate_parts {x k : Nat} (hx : x < 2 ^ w) (hk : k ≤ w) :
    x * 2 ^ k % 2 ^ w ||| x / 2 ^ (w - k) = (x * 2 ^ k + x / 2 ^ (w - k)) % 2 ^ w := by
  have hpow : 2 ^ w = 2 ^ k * 2 ^ (w - k) := by rw [← Nat.pow_add, Nat.add_sub_cancel' hk]
  have hlow : x / 2 ^ (w - k) < 2 ^ k := Nat.div_lt_of_lt_mul (by rwa [Nat.mul_comm, ← hpow])
  have hhigh : x * 2 ^ k % 2 ^ w = 2 ^ k * (x % 2 ^ (w - k)) := by rw [hpow, Nat.mul_comm x, Nat.mul_mod_mul_left]
  have hlt : x % 2 ^ (w - k) + 1 ≤ 2 ^ (w - k) := Nat.mod_lt _ (Nat.two_pow_pos _)
  have hsum : 2 ^ k * (x % 2 ^ (w - k)) + x / 2 ^ (w - k) < 2 ^ w :=
    calc 2 ^ k * (x % 2 ^ (w - k)) + x / 2 ^ (w - k) < 2 ^ k * (x % 2 ^ (w - k)) + 2 ^ k := Nat.add_lt_add_left hlow _
      _ = 2 ^ k * (x % 2 ^ (w - k) + 1) := (Nat.mul_succ ..).symm
      _ ≤ 2 ^ w := hpow ▸ Nat.mul_le_mul_left _ hlt
  rw [hhigh, ← Nat.two_pow_add_eq_or_of_lt hlow, Nat.add_mod, hhigh, Nat.mod_eq_of_lt ((Nat.div_le_self ..).trans_lt hx),
    Nat.mod_eq_of_lt hsum]

theorem rotateLeft_toNat (x : BitVec w) {k : Nat} (hk : k < w) :
    (x.rotateLeft k).toNat = (x.toNat * 2 ^ k + x.toNat / 2 ^ (w - k)) % 2 ^ w := by
  rw [BitVec.toNat_rotateLeft, Nat.mod_eq_of_lt hk, Nat.shiftLeft_eq, Nat.shiftRight_eq_div_pow, rotate_parts x.isLt hk.le]

theorem rotateRight_toNat (x : BitVec w) {k : Nat} (hk : k < w) :
    (x.rotateRight k).toNat = (x.toNat / 2 ^ k + x.toNat * 2 ^ (w - k)) % 2 ^ w := by
  have h := rotate_parts x.isLt (Nat.sub_le w k)
  rw [Nat.sub_sub_self hk.le] at h
  rw [BitVec.toNat_rotateRight, Nat.mod_eq_of_lt hk, Nat.shiftLeft_eq, Nat.shiftRight_eq_div_pow, Nat.or_comm, h, Nat.add_comm]

theorem shiftLeft_toNat (x : BitVec w) (k : Nat) : (x <<< k).toNat = x.toNat * 2 ^ k % 2 ^ w := by
  rw [BitVec.toNat_shiftLeft, Nat.shiftLeft_eq]

theorem ushiftRight_toNat (x : BitVec w) (k : Nat) : (x >>> k).toNat = x.toNat / 2 ^ k := by
  rw [BitVec.toNat_ushiftRight, Nat.shiftRight_eq_div_pow]

end

/-! ### Words of 64 bits -/

theorem boolWord_toNat (b : Bool) : (boolWord b).toNat = if b then 1 else 0 := by cases b with | _ => rfl

theorem boolWord_slt (x y : W64) : (boolWord (x.slt y)).toNat = if x.toInt < y.toInt then 1 else 0 := by
  simp only [boolWord_toNat, BitVec.slt_iff_toInt_lt]

theorem boolWord_ult (x y : W64) : (boolWord (x.ult y)).toNat = if x.toNat < y.toNat then 1 else 0 := by
  simp only [boolWord_toNat, BitVec.ult, decide_eq_true_eq]

theorem zxw_toNat (x : W64) : (zxw x).toNat = x.toNat % 2 ^ 32 := by
  rw [zxw, lowW, BitVec.toNat_setWidth, BitVec.toNat_setWidth]
  exact Nat.mod_eq_of_lt ((Nat.mod_lt _ (by decide)).trans (by decide))

/-- The high half of a product whose factors read as integers. -/
theorem highHalf_ofInt (p q : Int) : (highHalf (BitVec.ofInt 128 p) (BitVec.ofInt 128 q)).toNat = wrap 64 (p * q / (2 ^ 64 : Nat)) := by
  rw [highHalf, BitVec.extractLsb'_toNat, ← BitVec.ofInt_mul, BitVec.toNat_ofInt, Nat.shiftRight_eq_div_pow, wrap]
  generalize p * q = z
  omega

theorem setWidth_eq_ofInt (x : W64) : x.setWidth 128 = BitVec.ofInt 128 x.toNat := BitVec.eq_of_toNat_eq (by
  rw [BitVec.toNat_setWidth, BitVec.toNat_ofInt]
  have := x.isLt
  omega)

theorem divU_toNat {w : Nat} (x y : BitVec w) : (divU x y).toNat = if y = 0 then 2 ^ w - 1 else x.toNat / y.toNat := by
  rw [divU, apply_ite BitVec.toNat, BitVec.toNat_allOnes, BitVec.toNat_udiv]

theorem divS_toNat {w : Nat} (x y : BitVec w) : (divS x y).toNat = if y = 0 then 2 ^ w - 1 else wrap w (x.toInt.tdiv y.toInt) := by
  rw [divS, apply_ite BitVec.toNat, BitVec.toNat_allOnes, sdiv_toNat]

theorem remU_toNat {w : Nat} (x y : BitVec w) : (remU x y).toNat = if y = 0 then x.toNat else x.toNat % y.toNat := by
  rw [remU, apply_ite BitVec.toNat, BitVec.toNat_umod]

theorem remS_toNat {w : Nat} (x y : BitVec w) : (remS x y).toNat = if y = 0 then x.toNat else wrap w (x.toInt.tmod y.toInt) := by
  rw [remS, apply_ite BitVec.toNat, srem_toNat]

/-- Adding a shifted operand. -/
theorem add_shift_toNat (x y : W64) (k : Nat) : (y + (x <<< k)).toNat = (y.toNat + 2 ^ k * x.toNat) % 2 ^ 64 := by
  rw [BitVec.toNat_add, shiftLeft_toNat, Nat.add_mod_mod, Nat.mul_comm]

theorem add_shift_uw_toNat (x y : W64) (k : Nat) : (y + (zxw x <<< k)).toNat = (y.toNat + 2 ^ k * (x.toNat % 2 ^ 32)) % 2 ^ 64 := by
  rw [add_shift_toNat, zxw_toNat]

theorem mulhu_toNat (x y : W64) : (highHalf (x.setWidth 128) (y.setWidth 128)).toNat = x.toNat * y.toNat / 2 ^ 64 := by
  have hlt : x.toNat * y.toNat < 2 ^ 64 * 2 ^ 64 := Nat.mul_lt_mul'' x.isLt y.isLt
  rw [setWidth_eq_ofInt, setWidth_eq_ofInt, highHalf_ofInt, wrap, ← Nat.cast_mul]
  generalize x.toNat * y.toNat = z at *
  omega

theorem aluValue_toNat (op : AluOp) (x y : W64) : (aluValue op x y).toNat = aluRule op x y := by
  have hk : y.toNat % 64 < 64 := Nat.mod_lt _ (by decide)
  cases op with
  | add => exact BitVec.toNat_add ..
  | sub =>
    rw [aluValue, aluRule, BitVec.toNat_sub]
    have := y.isLt
    congr 1
    omega
  | sll => exact shiftLeft_toNat ..
  | slt => exact boolWord_slt ..
  | sltu => exact boolWord_ult ..
  | xor => exact BitVec.toNat_xor ..
  | srl => exact ushiftRight_toNat ..
  | sra => exact sshiftRight_toNat ..
  | or => exact BitVec.toNat_or ..
  | and => exact BitVec.toNat_and ..
  | mul => exact BitVec.toNat_mul ..
  | mulh => exact highHalf_ofInt ..
  | mulhsu =>
    rw [aluValue, aluRule, setWidth_eq_ofInt]
    exact highHalf_ofInt ..
  | mulhu => exact mulhu_toNat ..
  | div => exact divS_toNat ..
  | divu => exact divU_toNat ..
  | rem => exact remS_toNat ..
  | remu => exact remU_toNat ..
  | sh1add => exact add_shift_toNat ..
  | sh2add => exact add_shift_toNat ..
  | sh3add => exact add_shift_toNat ..
  | addUw => rw [aluValue, aluRule, BitVec.toNat_add, zxw_toNat]
  | sh1addUw => exact add_shift_uw_toNat ..
  | sh2addUw => exact add_shift_uw_toNat ..
  | sh3addUw => exact add_shift_uw_toNat ..
  | andn => rw [aluValue, aluRule, BitVec.toNat_and, BitVec.toNat_not]
  | orn => rw [aluValue, aluRule, BitVec.toNat_or, BitVec.toNat_not]
  | xnor => rw [aluValue, aluRule, BitVec.toNat_not, BitVec.toNat_xor]
  | max => exact ite_slt_toNat ..
  | maxu =>
    simp only [aluValue, aluRule, BitVec.ult, decide_eq_true_eq, apply_ite BitVec.toNat]
    split
    · next h => exact (max_eq_right h.le).symm
    · next h => exact (max_eq_left (not_lt.mp h)).symm
  | min => exact ite_sgt_toNat ..
  | minu =>
    simp only [aluValue, aluRule, BitVec.ult, decide_eq_true_eq, apply_ite BitVec.toNat]
    split
    · next h => exact (min_eq_right h.le).symm
    · next h => exact (min_eq_left (not_lt.mp h)).symm
  | rol => exact rotateLeft_toNat _ hk
  | ror => exact rotateRight_toNat _ hk

theorem immValue_toNat (op : ImmOp) (x i : W64) : (immValue op x i).toNat = immRule op x i := by
  cases op with
  | addi => exact BitVec.toNat_add ..
  | slti => exact boolWord_slt ..
  | sltiu => exact boolWord_ult ..
  | xori => exact BitVec.toNat_xor ..
  | ori => exact BitVec.toNat_or ..
  | andi => exact BitVec.toNat_and ..

theorem shiftValue_toNat (op : ShiftOp) (x : W64) {k : Nat} (hk : k < 64) : (shiftValue op x k).toNat = shiftRule op x k := by
  cases op with
  | slli => exact shiftLeft_toNat ..
  | srli => exact ushiftRight_toNat ..
  | srai => exact sshiftRight_toNat ..
  | rori => exact rotateRight_toNat _ hk
  | slliUw => rw [shiftValue, shiftRule, shiftLeft_toNat, zxw_toNat]

/-! ### Words of 32 bits -/

/-- Of a number that is sign-extended its low 32 bits count. -/
theorem sx32_congr {u v : Nat} (h : u % 2 ^ 32 = v % 2 ^ 32) : sx32 u = sx32 v := by rw [sx32, sx32, h]

theorem sxw_eq {v : W32} {n : Nat} (h : v.toNat = n % 2 ^ 32) : sxw v = BitVec.ofNat 64 (sx32 n) := by
  have hv : v = BitVec.ofNat 32 n := BitVec.eq_of_toNat_eq (h.trans (BitVec.toNat_ofNat ..).symm)
  rw [hv, sxw_ofNat]

theorem sxw_lowW_add (x y : W64) : sxw (lowW (x + y)) = BitVec.ofNat 64 (sx32 (x.toNat + y.toNat)) :=
  sxw_eq (by rw [lowW, BitVec.toNat_setWidth, BitVec.toNat_add, Nat.mod_mod_of_dvd _ (by decide)])

theorem sxw_eq_toNat {v : W32} {n : Nat} (h : v.toNat = n) : sxw v = BitVec.ofNat 64 (sx32 n) :=
  sxw_eq (by rw [← h, Nat.mod_eq_of_lt v.isLt])

theorem lowW_toNat (x : W64) : (lowW x).toNat = x.toNat % 2 ^ 32 := BitVec.toNat_setWidth ..

theorem lowW_toInt (x : W64) : (lowW x).toInt = sgn32 (x.toNat % 2 ^ 32) := by
  rw [BitVec.toInt_eq_toNat_cond, lowW_toNat, sgn32]
  omega

theorem lowW_eq_zero (x : W64) : lowW x = 0 ↔ x.toNat % 2 ^ 32 = 0 := by
  rw [← lowW_toNat, ← BitVec.toNat_inj]
  rfl

theorem sxw_div {y : W64} {v : W32} {n : Nat} (h : v.toNat = if lowW y = 0 then 2 ^ 32 - 1 else n) :
    sxw v = BitVec.ofNat 64 (if y.toNat % 2 ^ 32 = 0 then 2 ^ 64 - 1 else sx32 n) := by
  rw [sxw_eq_toNat h]
  simp only [lowW_eq_zero]
  split
  · rfl
  · rfl

theorem sxw_rem {x y : W64} {v : W32} {n : Nat} (h : v.toNat = if lowW y = 0 then (lowW x).toNat else n) :
    sxw v = BitVec.ofNat 64 (if y.toNat % 2 ^ 32 = 0 then sx32 (x.toNat % 2 ^ 32) else sx32 n) := by
  rw [sxw_eq_toNat h, lowW_toNat]
  simp only [lowW_eq_zero]
  split
  · rfl
  · rfl

theorem sshiftRightW_toNat (x : W64) (k : Nat) : ((lowW x).sshiftRight k).toNat = wrap 32 (sgn32 (x.toNat % 2 ^ 32) / (2 ^ k : Nat)) := by
  rw [sshiftRight_toNat, lowW_toInt]

theorem aluwValue_eq (op : AluWOp) (x y : W64) : aluwValue op x y = BitVec.ofNat 64 (aluwRule op x y) := by
  have hk : y.toNat % 32 < 32 := Nat.mod_lt _ (by decide)
  cases op with
  | addw => exact sxw_eq (by rw [BitVec.toNat_add, lowW_toNat, lowW_toNat])
  | subw =>
    refine sxw_eq ?_
    rw [BitVec.toNat_sub, lowW_toNat, lowW_toNat]
    omega
  | sllw => exact sxw_eq (by rw [shiftLeft_toNat, lowW_toNat])
  | srlw => exact sxw_eq_toNat (by rw [ushiftRight_toNat, lowW_toNat])
  | sraw => exact sxw_eq_toNat (sshiftRightW_toNat ..)
  | mulw => exact sxw_eq (by rw [BitVec.toNat_mul, lowW_toNat, lowW_toNat])
  | divw => exact sxw_div (by rw [divS_toNat, lowW_toInt, lowW_toInt])
  | divuw => exact sxw_div (by rw [divU_toNat, lowW_toNat, lowW_toNat])
  | remw => exact sxw_rem (by rw [remS_toNat, lowW_toInt, lowW_toInt])
  | remuw => exact sxw_rem (by rw [remU_toNat, lowW_toNat (x := x), lowW_toNat (x := y)])
  | rolw => exact sxw_eq (by rw [rotateLeft_toNat _ hk, lowW_toNat])
  | rorw => exact sxw_eq (by rw [rotateRight_toNat _ hk, lowW_toNat])

theorem shiftwValue_eq (op : ShiftWOp) (x : W64) {k : Nat} (hk : k < 32) : shiftwValue op x k = BitVec.ofNat 64 (shiftwRule op x k) := by
  cases op with
  | slliw => exact sxw_eq (by rw [shiftLeft_toNat, lowW_toNat])
  | srliw => exact sxw_eq_toNat (by rw [ushiftRight_toNat, lowW_toNat])
  | sraiw => exact sxw_eq_toNat (sshiftRightW_toNat ..)
  | roriw => exact sxw_eq (by rw [rotateRight_toNat _ hk, lowW_toNat])

/-! ### One operand -/

theorem leadZeros_isClz (w v : Nat) : IsClz w v (leadZeros w v) := by
  induction w with
  | zero => exact ⟨le_rfl, by rw [Nat.pow_zero, Nat.mod_one]; exact Nat.one_pos, fun h => absurd h (Nat.lt_irrefl 0)⟩
  | succ w ih =>
    obtain ⟨hle, hlt, hge⟩ := ih
    have hmod : v % 2 ^ (w + 1) = v % 2 ^ w + 2 ^ w * (v / 2 ^ w % 2) := by rw [Nat.pow_succ, Nat.mod_mul]
    have hrange : (List.range (w + 1)).reverse = w :: (List.range w).reverse := by
      rw [List.range_succ, List.reverse_append, List.reverse_singleton, List.singleton_append]
    by_cases hb : bit v w = true
    · have hz : leadZeros (w + 1) v = 0 := by rw [leadZeros, hrange, List.takeWhile_cons_of_neg (by simp [hb])]; rfl
      have hone : v / 2 ^ w % 2 = 1 := by simpa [bit, Nat.shiftRight_eq_div_pow] using hb
      have hlow : v % 2 ^ (w + 1) < 2 ^ (w + 1 - 0) := Nat.mod_lt _ (Nat.two_pow_pos _)
      rw [hmod, hone] at hlow
      rw [hz, IsClz, hmod, hone]
      exact ⟨Nat.zero_le _, hlow, fun _ => by simp⟩
    · have hs : leadZeros (w + 1) v = leadZeros w v + 1 := by rw [leadZeros, hrange, List.takeWhile_cons_of_pos (by simp [hb])]; rfl
      have hzero : v / 2 ^ w % 2 = 0 := by
        have : ¬v / 2 ^ w % 2 = 1 := by simpa [bit, Nat.shiftRight_eq_div_pow] using hb
        omega
      rw [hs, IsClz, hmod, hzero, Nat.mul_zero, Nat.add_zero, Nat.add_sub_add_right]
      exact ⟨Nat.succ_le_succ hle, hlt, fun h => hge (Nat.lt_of_succ_lt_succ h)⟩

/-- A bit below `w` is a bit of the low `w` bits. -/
theorem mod_div_mod_two {w i : Nat} (v : Nat) (hi : i < w) : v % 2 ^ w / 2 ^ i % 2 = v / 2 ^ i % 2 := by
  obtain ⟨k, rfl⟩ := Nat.exists_eq_add_of_lt hi
  rw [show i + k + 1 = i + (k + 1) from Nat.add_assoc .., Nat.pow_add, Nat.mod_mul_right_div_self, Nat.pow_succ, Nat.mod_mul_left_mod]

/-- Trailing zeros are counted in the low bits alone. -/
theorem IsCtz.of_mod {w v r : Nat} (h : IsCtz w (v % 2 ^ w) r) : IsCtz w v r := by
  obtain ⟨hle, hlow, hbit⟩ := h
  exact ⟨hle, by rwa [Nat.mod_mod_of_dvd _ (Nat.pow_dvd_pow 2 hle)] at hlow, fun hr => (mod_div_mod_two v hr).symm.trans (hbit hr)⟩

/-- How far a condition holds from the start of a range on. -/
theorem takeWhile_range_spec (p : Nat → Bool) (w : Nat) : let r := ((List.range w).takeWhile p).length
    r ≤ w ∧ (∀ i < r, p i = true) ∧ (r < w → p r = false) := by
  induction w with
  | zero => exact ⟨le_rfl, fun i h => absurd h (Nat.not_lt_zero i), fun h => absurd h (Nat.lt_irrefl 0)⟩
  | succ w ih =>
    obtain ⟨hle, hall, hend⟩ := ih
    dsimp only
    rw [List.range_succ, List.takeWhile_append, List.length_range]
    split
    · next hr =>
      rw [hr] at hall
      rw [List.length_append, List.length_range]
      cases hw : p w with
      | true =>
        rw [List.takeWhile_cons_of_pos hw]
        exact ⟨le_rfl, fun i hi => (Nat.lt_succ_iff_lt_or_eq.mp hi).elim (hall i) (· ▸ hw), fun h => absurd h (Nat.lt_irrefl _)⟩
      | false =>
        rw [List.takeWhile_cons_of_neg (by simp [hw])]
        exact ⟨Nat.le_succ w, hall, fun _ => hw⟩
    · next hr => exact ⟨hle.trans (Nat.le_succ w), hall, fun _ => hend (Nat.lt_of_le_of_ne hle hr)⟩

theorem trailZeros_isCtz (w v : Nat) : IsCtz w v (trailZeros w v) := by
  obtain ⟨hle, hall, hend⟩ := takeWhile_range_spec (fun i => !bit v i) w
  have hzero : ∀ i < trailZeros w v, v.testBit i = false := fun i hi => by
    rw [← bit_eq_testBit]
    simpa using hall i hi
  refine ⟨hle, ?_, fun h => ?_⟩
  · refine Nat.eq_of_testBit_eq fun i => ?_
    rw [Nat.testBit_mod_two_pow, Nat.zero_testBit]
    by_cases hi : i < trailZeros w v
    · rw [hzero i hi, Bool.and_false]
    · rw [decide_eq_false hi, Bool.false_and]
  · have hbit : v.testBit (trailZeros w v) = true := by
      rw [← bit_eq_testBit, ← Bool.not_eq_false', trailZeros]
      exact hend h
    simpa [Nat.testBit_eq_decide_div_mod_eq] using hbit

theorem bitCount_eq (w v : Nat) : bitCount w v = ((List.range w).map fun i => v / 2 ^ i % 2).sum := by
  rw [bitCount]
  induction List.range w with
  | nil => rfl
  | cons i l ih =>
    rw [List.map_cons, List.sum_cons, ← ih, List.filter_cons, bit, Nat.shiftRight_eq_div_pow]
    rcases Nat.mod_two_eq_zero_or_one (v / 2 ^ i) with h | h
    · rw [h]; exact (Nat.zero_add _).symm
    · rw [h]; exact Nat.add_comm ..

theorem unValue_sextB (x : W64) : unRule .sextB x.toNat (unValue .sextB x).toNat := by
  rw [unRule, unValue, BitVec.toNat_signExtend, BitVec.msb_eq_decide, BitVec.toNat_setWidth, BitVec.toNat_setWidth]
  simp only [decide_eq_true_eq, Nat.add_one_sub_one]
  split
  · omega
  · omega

theorem unValue_sextH (x : W64) : unRule .sextH x.toNat (unValue .sextH x).toNat := by
  rw [unRule, unValue, BitVec.toNat_signExtend, BitVec.msb_eq_decide, BitVec.toNat_setWidth, BitVec.toNat_setWidth]
  simp only [decide_eq_true_eq, Nat.add_one_sub_one]
  split
  · omega
  · omega

theorem unValue_zextH (x : W64) : unRule .zextH x.toNat (unValue .zextH x).toNat := by
  rw [unRule, unValue, BitVec.toNat_setWidth, BitVec.toNat_setWidth]
  exact Nat.mod_eq_of_lt ((Nat.mod_lt _ (by decide)).trans (by decide))

/-- The digit of a number of bytes. -/
theorem leNat_digit (l : List Byte) {i : Nat} (hi : i < l.length) : leNat l / 256 ^ i % 256 = l[i].toNat := by
  induction l generalizing i with
  | nil => cases hi
  | cons b r ih =>
    have hb := b.isLt
    cases i with
    | zero =>
      rw [leNat, Nat.pow_zero, Nat.div_one]
      exact Nat.add_mul_mod_self_left .. |>.trans (Nat.mod_eq_of_lt hb)
    | succ i =>
      have hdiv : (b.toNat + 256 * leNat r) / 256 = leNat r := by omega
      rw [leNat, Nat.pow_succ, Nat.mul_comm (256 ^ i), ← Nat.div_div_eq_div_mul, hdiv, ih (Nat.lt_of_succ_lt_succ hi)]
      rfl

theorem leBytes_digit (n v : Nat) {i : Nat} (hi : i < n) : ((leBytes n v)[i]'(by rwa [length_leBytes])).toNat = v / 256 ^ i % 256 := by
  induction n generalizing v i with
  | zero => cases hi
  | succ n ih =>
    cases i with
    | zero => simp [leBytes]
    | succ i =>
      simp only [leBytes, List.getElem_cons_succ]
      rw [ih _ (Nat.lt_of_succ_lt_succ hi), Nat.div_div_eq_div_mul, Nat.pow_succ, Nat.mul_comm]

/-- The digits of the number that eight bytes make. -/
theorem ofNat_leNat_digit {l : List Byte} (h8 : l.length = 8) {i : Nat} (hi : i < 8) :
    (BitVec.ofNat 64 (leNat l)).toNat / 256 ^ i % 256 = (l[i]'(h8 ▸ hi)).toNat := by
  have hlt := leNat_lt l
  rw [h8] at hlt
  rw [BitVec.toNat_ofNat, Nat.mod_eq_of_lt hlt, leNat_digit]

theorem unValue_rev8 (x : W64) : unRule .rev8 x.toNat (unValue .rev8 x).toNat := fun i hi => by
  have h8 : (leBytes 8 x.toNat).reverse.length = 8 := by rw [List.length_reverse, length_leBytes]
  rw [unValue, ofNat_leNat_digit h8 hi, List.getElem_reverse, leBytes_digit _ _ (by rw [length_leBytes]; omega), length_leBytes]

theorem unValue_orcB (x : W64) : unRule .orcB x.toNat (unValue .orcB x).toNat := fun i hi => by
  have h8 : ((leBytes 8 x.toNat).map fun b => if b = 0 then (0 : Byte) else 0xFF).length = 8 := by rw [List.length_map, length_leBytes]
  have hzero : (leBytes 8 x.toNat)[i]'(by rwa [length_leBytes]) = 0 ↔ x.toNat / 256 ^ i % 256 = 0 := by
    rw [← leBytes_digit 8 x.toNat hi, ← BitVec.toNat_inj]
    rfl
  rw [unValue, ofNat_leNat_digit h8 hi, List.getElem_map]
  simp only [hzero]
  split
  · rfl
  · rfl

theorem ofNat_toNat_of_le {r n : Nat} (h : r ≤ n) (hn : n < 2 ^ 64) : (BitVec.ofNat 64 r).toNat = r := by
  rw [BitVec.toNat_ofNat, Nat.mod_eq_of_lt (h.trans_lt hn)]

theorem bitCount_le (w v : Nat) : bitCount w v ≤ w := (List.length_filter_le ..).trans_eq List.length_range

theorem unValue_spec (op : UnOp) (x : W64) : unRule op x.toNat (unValue op x).toNat := by
  have hlow : ∀ r, IsClz 32 (lowW x).toNat r → IsClz 32 x.toNat r := fun r h => by rwa [IsClz, lowW_toNat, Nat.mod_mod] at h
  cases op with
  | clz =>
    have h := leadZeros_isClz 64 x.toNat
    rwa [unRule, unValue, ofNat_toNat_of_le h.1 (by decide)]
  | ctz =>
    have h := trailZeros_isCtz 64 x.toNat
    rwa [unRule, unValue, ofNat_toNat_of_le h.1 (by decide)]
  | cpop => rw [unRule, unValue, ofNat_toNat_of_le (bitCount_le ..) (by decide), bitCount_eq]
  | clzw =>
    have h := leadZeros_isClz 32 (lowW x).toNat
    rw [unRule, unValue, ofNat_toNat_of_le h.1 (by decide)]
    exact hlow _ h
  | ctzw =>
    have h := trailZeros_isCtz 32 (lowW x).toNat
    rw [unRule, unValue, ofNat_toNat_of_le h.1 (by decide)]
    rw [lowW_toNat] at h ⊢
    exact h.of_mod
  | cpopw =>
    rw [unRule, unValue, ofNat_toNat_of_le (bitCount_le ..) (by decide), bitCount_eq, lowW_toNat]
    exact congrArg List.sum (List.map_congr_left fun i hi => mod_div_mod_two _ (List.mem_range.mp hi))
  | sextB => exact unValue_sextB x
  | sextH => exact unValue_sextH x
  | zextH => exact unValue_zextH x
  | rev8 => exact unValue_rev8 x
  | orcB => exact unValue_orcB x

/-! ### The instructions -/

section
variable {s : State} {a : Agent}

theorem exec_standardInstruction (i : Rv) (hb : s.byHart a) :
    exec (.standardInstruction i) s = .next (runFor a (standardOp i a) s) := runHart_at hb

theorem exec_standardInstruction_ok {i : Rv} {pc : Option W64} {t : State} (hb : s.byHart a) (h : Ok (standardOp i a) s pc t) :
    exec (.standardInstruction i) s = .next (t.finishInstr a pc) := runHart_ok hb h

/-- An instruction that only writes a register gives it the number that its value is. -/
theorem exec_finReg {i : Rv} {rd : Reg} {v : W64} {n : Nat} (hb : s.byHart a) (hv : v = BitVec.ofNat 64 n)
    (h : (standardOp i a).run s = (finReg a rd v).run s) :
    exec (.standardInstruction i) s = .next ((s.setX a rd (BitVec.ofNat 64 n)).fallThrough a) :=
  exec_standardInstruction_ok hb (h.trans (by rw [hv]; rfl))

theorem eq_ofNat_of_toNat {v : W64} {n : Nat} (h : v.toNat = n) : v = BitVec.ofNat 64 n := by rw [← h, BitVec.ofNat_toNat, BitVec.setWidth_eq]

theorem run_addiw (s : State) (a : Agent) (rd r1 : Reg) (imm : BitVec 12) : (standardOp (.addiw rd r1 imm) a).run s =
    (finReg a rd (sxw (lowW ((s.hart a).get r1 + imm.signExtend 64)))).run s := by
  simp only [standardOp, M.run_bind_get]

theorem run_aluw (s : State) (a : Agent) (op : AluWOp) (rd r1 r2 : Reg) : (standardOp (.aluw op rd r1 r2) a).run s =
    (finReg a rd (aluwValue op ((s.hart a).get r1) ((s.hart a).get r2))).run s := by
  simp only [standardOp, M.run_bind_get]

theorem run_shiftw (s : State) (a : Agent) (op : ShiftWOp) (rd r1 : Reg) (k : BitVec 5) : (standardOp (.shiftw op rd r1 k) a).run s =
    (finReg a rd (shiftwValue op ((s.hart a).get r1) k.toNat)).run s := by
  simp only [standardOp, M.run_bind_get]

theorem run_un (s : State) (a : Agent) (op : UnOp) (rd r1 : Reg) : (standardOp (.un op rd r1) a).run s =
    (finReg a rd (unValue op ((s.hart a).get r1))).run s := by
  simp only [standardOp, M.run_bind_get]

/-- The upper immediate, its low 12 bits zero. -/
theorem upperImm_eq (imm : BitVec 20) : (imm ++ 0#12).signExtend 64 = BitVec.ofNat 64 (sx32 (imm.toNat * 4096)) :=
  sxw_eq_toNat (v := imm ++ 0#12) (by
    rw [BitVec.toNat_append, BitVec.toNat_ofNat, Nat.shiftLeft_eq]
    exact Nat.or_zero _)

end

/-- Settles O8: an integer instruction is one write of its register, and the value it writes is, operation by operation, the number
that the standard names (`aluValue_toNat`, `aluwValue_eq`, `unValue_spec` and their like). -/
theorem integerResults : Obligations.IntegerResults := by
  unfold Obligations.IntegerResults
  intro s a hb
  refine ⟨fun op rd r1 r2 _ => ?alu, fun op rd r1 r2 _ => ?aluw, fun op rd r1 imm _ => ?imm, fun rd r1 imm _ => ?addiw,
    fun op rd r1 k _ => ?shift, fun op rd r1 k _ => ?shiftw, fun op rd r1 => ?un, fun rd imm _ => ?lui, fun rd imm _ => ?auipc, fun _ => ?fencei⟩
  case alu => exact exec_finReg hb (eq_ofNat_of_toNat (aluValue_toNat ..)) rfl
  case aluw => exact exec_finReg hb (aluwValue_eq ..) (run_aluw s a op rd r1 r2)
  case imm => exact exec_finReg hb (eq_ofNat_of_toNat (immValue_toNat ..)) rfl
  case addiw => exact exec_finReg hb (sxw_lowW_add ((s.hart a).get r1) (imm.signExtend 64)) (run_addiw s a rd r1 imm)
  case shift => exact exec_finReg hb (eq_ofNat_of_toNat (shiftValue_toNat _ _ k.isLt)) rfl
  case shiftw => exact exec_finReg hb (shiftwValue_eq _ _ k.isLt) (run_shiftw s a op rd r1 k)
  case un => exact ⟨(unValue op ((s.hart a).get r1)).toNat, BitVec.isLt _, unValue_spec .., fun _ => exec_finReg hb (eq_ofNat_of_toNat rfl) (run_un s a op rd r1)⟩
  case lui => exact exec_finReg hb (upperImm_eq imm) rfl
  case auipc =>
    refine exec_finReg hb ?_ rfl
    rw [upperImm_eq, BitVec.ofNat_add, BitVec.ofNat_toNat, BitVec.setWidth_eq]
  case fencei => exact exec_standardInstruction_ok hb rfl

end Sys2Proof.Machine
end

section
/-! SUPPORT and O9. Jumps and branches (R48). -/
namespace Sys2Proof.Machine

/-- When the comparison of a branch holds, in numbers. -/
def branchHolds (op : BranchOp) (x y : W64) : Prop :=
  match op with
  | .beq => x.toNat = y.toNat
  | .bne => x.toNat ≠ y.toNat
  | .blt => x.toInt < y.toInt
  | .bge => y.toInt ≤ x.toInt
  | .bltu => x.toNat < y.toNat
  | .bgeu => y.toNat ≤ x.toNat

theorem ult_iff_toNat_lt (x y : W64) : x.ult y = true ↔ x.toNat < y.toNat := decide_eq_true_iff

theorem branchTaken_iff (op : BranchOp) (x y : W64) : branchTaken op x y = true ↔ branchHolds op x y := by
  cases op with
  | beq => exact beq_iff_eq.trans BitVec.toNat_inj.symm
  | bne => exact bne_iff_ne.trans (not_congr BitVec.toNat_inj.symm)
  | blt => exact BitVec.slt_iff_toInt_lt
  | bge => exact (Bool.not_eq_true' _).to_iff.trans (Bool.not_eq_true _ ▸ (not_congr BitVec.slt_iff_toInt_lt).trans not_lt)
  | bltu => exact ult_iff_toNat_lt x y
  | bgeu => exact (Bool.not_eq_true' _).to_iff.trans (Bool.not_eq_true _ ▸ (not_congr (ult_iff_toNat_lt x y)).trans not_lt)

/-- Clearing the bits of `y` takes off what `x` has of them. -/
theorem sub_and_not (x y : W64) : x - (x &&& ~~~y) = x &&& y := by
  have hdisjoint : (x &&& ~~~y) &&& (x &&& y) = 0#64 := by
    ext i hi
    simp only [BitVec.getElem_and, BitVec.getElem_not, BitVec.getElem_zero]
    cases x[i] <;> cases y[i] <;> rfl
  have hunion : (x &&& ~~~y) ||| (x &&& y) = x := by
    ext i hi
    simp only [BitVec.getElem_or, BitVec.getElem_and, BitVec.getElem_not]
    cases x[i] <;> cases y[i] <;> rfl
  rw [sub_eq_iff_eq_add', BitVec.add_eq_or_of_and_eq_zero _ _ hdisjoint, hunion]

theorem sub_clearBit0_le_one (x : W64) : (x - (x &&& ~~~1#64)).toNat ≤ 1 := by
  rw [sub_and_not, BitVec.toNat_and]
  exact Nat.and_le_right

theorem getLsbD_clearBit0 (x : W64) : (x &&& ~~~1#64).getLsbD 0 = false := by simp

/-- Settles O9: each of the three runs to its end with the pc it names, and the branch's comparison is the number's
(`branchTaken_iff`). -/
theorem jumpsAndBranches : Obligations.JumpsAndBranches := by
  unfold Obligations.JumpsAndBranches
  intro s a hb
  have hbranch (op : BranchOp) (r1 r2 : Reg) (off : BitVec 12) : exec (.standardInstruction (.branch op r1 r2 off)) s =
      .next (s.finishInstr a (some (if branchTaken op ((s.hart a).get r1) ((s.hart a).get r2) then (s.hart a).pc + offsetOf off
        else (s.hart a).pc + BitVec.ofNat 64 s.ilen))) := exec_standardInstruction_ok hb rfl
  refine ⟨fun rd off => exec_standardInstruction_ok hb rfl,
    fun rd r1 imm => ⟨_, getLsbD_clearBit0 _, sub_clearBit0_le_one _, exec_standardInstruction_ok hb rfl⟩,
    fun op r1 r2 off => ⟨fun h => ?taken, fun h => ?passed⟩⟩
  case taken => exact (hbranch op r1 r2 off).trans (by rw [if_pos ((branchTaken_iff op _ _).mpr h)]; rfl)
  case passed => exact (hbranch op r1 r2 off).trans (by rw [if_neg (mt (branchTaken_iff op _ _).mp h)])

end Sys2Proof.Machine
end

section
/-! SUPPORT and O12. Fields of CSRs, and the system instructions (R48, R347). -/
namespace Sys2Proof.Machine

/-! ### A field of a CSR -/

/-- A field's bits are the written value's, every other bit stands. -/
theorem testBit_setBits (w v j : Nat) {hi lo : Nat} (hlo : lo ≤ hi) :
    (setBits w hi lo v).testBit j = if lo ≤ j ∧ j ≤ hi then v.testBit (j - lo) else w.testBit j := by
  obtain ⟨n, hn⟩ : ∃ n, hi + 1 - lo = n := ⟨_, rfl⟩
  have hr : w % 2 ^ lo < 2 ^ lo := Nat.mod_lt _ (Nat.two_pow_pos _)
  have hv : v % 2 ^ n < 2 ^ n := Nat.mod_lt _ (Nat.two_pow_pos _)
  have hfield : w / 2 ^ lo % 2 ^ n * 2 ^ lo ≤ w / 2 ^ lo * 2 ^ lo := Nat.mul_le_mul_right _ (Nat.mod_le ..)
  have hparts : w - w / 2 ^ lo % 2 ^ n * 2 ^ lo + v % 2 ^ n * 2 ^ lo =
      2 ^ lo * (2 ^ n * (w / 2 ^ lo / 2 ^ n) + v % 2 ^ n) + w % 2 ^ lo := by
    have hw := Nat.div_add_mod w (2 ^ lo)
    have hq := Nat.div_add_mod (w / 2 ^ lo) (2 ^ n)
    have hcut : w / 2 ^ lo * 2 ^ lo = 2 ^ n * (w / 2 ^ lo / 2 ^ n) * 2 ^ lo + w / 2 ^ lo % 2 ^ n * 2 ^ lo := by
      rw [← Nat.add_mul, hq]
    rw [Nat.mul_comm (2 ^ lo), Nat.add_mul]
    rw [Nat.mul_comm] at hw
    omega
  rw [setBits, bits_eq_div_mod, hn, Nat.shiftLeft_eq, Nat.shiftLeft_eq, hparts, Nat.testBit_two_pow_mul_add _ hr,
    Nat.testBit_two_pow_mul_add _ hv, Nat.testBit_mod_two_pow, Nat.testBit_mod_two_pow, Nat.testBit_div_two_pow, Nat.testBit_div_two_pow]
  rcases Nat.lt_or_ge j lo with h | h
  · rw [if_pos h, if_neg (by omega), decide_eq_true h, Bool.true_and]
  · rw [if_neg (by omega)]
    rcases Nat.lt_or_ge hi j with hj | hj
    · rw [if_neg (by omega), if_neg (by omega), show j - lo - n + n + lo = j by omega]
    · rw [if_pos (by omega), if_pos (by omega), decide_eq_true (by omega), Bool.true_and]

/-- A number of `n` bits is a field where its bits are the field's. -/
theorem bits_eq_of_testBit {w v hi lo : Nat} (hv : v < 2 ^ (hi + 1 - lo)) (h : ∀ i < hi + 1 - lo, w.testBit (lo + i) = v.testBit i) :
    bits w hi lo = v := by
  refine Nat.eq_of_testBit_eq fun i => ?_
  rw [bits_eq_div_mod, Nat.testBit_mod_two_pow, Nat.testBit_div_two_pow, Nat.add_comm i]
  by_cases hi : i < hi + 1 - lo
  · rw [h i hi, decide_eq_true hi, Bool.true_and]
  · rw [decide_eq_false hi, Bool.false_and, Nat.testBit_lt_two_pow (hv.trans_le (Nat.pow_le_pow_right Nat.two_pos (Nat.not_lt.mp hi)))]

theorem Hart.testBit_csrRaw (h : Hart) (k i : Nat) : (h.csrRaw k).toNat.testBit i = h.csrBit k i := BitVec.testBit_toNat _

theorem Hart.csrBit_setCsrBits (h : Hart) (k v j : Nat) {hi lo : Nat} (hlo : lo ≤ hi) (hhi : hi < 64) :
    (h.setCsrBits k hi lo v).csrBit k j = if lo ≤ j ∧ j ≤ hi then v.testBit (j - lo) else h.csrBit k j := by
  rw [Hart.csrBit, Hart.setCsrBits, Hart.csrRaw_setCsrRaw, BitVec.getLsbD_ofNat, testBit_setBits _ _ _ hlo]
  rcases Nat.lt_or_ge j 64 with hj | hj
  · rw [decide_eq_true hj, Bool.true_and, h.testBit_csrRaw]
  · rw [decide_eq_false (by omega), Bool.false_and, if_neg (by omega), Hart.csrBit, BitVec.getLsbD_of_ge _ _ hj]

/-- The bit that a field of one bit takes. -/
theorem Hart.csrBit_setCsrBits_same (h : Hart) (k v : Nat) {i : Nat} (hi : i < 64) : (h.setCsrBits k i i v).csrBit k i = v.testBit 0 := by
  rw [Hart.csrBit_setCsrBits _ _ _ _ le_rfl hi, if_pos ⟨le_rfl, le_rfl⟩, Nat.sub_self]

/-- A bit outside the field that is written. -/
theorem Hart.csrBit_setCsrBits_out (h : Hart) (k v : Nat) {hi lo j : Nat} (hlo : lo ≤ hi) (hhi : hi < 64) (hj : j < lo ∨ hi < j) :
    (h.setCsrBits k hi lo v).csrBit k j = h.csrBit k j := by
  rw [Hart.csrBit_setCsrBits _ _ _ _ hlo hhi, if_neg (by omega)]

theorem testBit_b2n (b : Bool) : (b2n b).testBit 0 = b := by cases b with | _ => rfl

/-! ### The returns -/

section
variable (h : Hart)

/-- The mode that `mret` goes back to. -/
def Hart.mretMode (modes : Bool) : Priv := if modes then Priv.ofNum (bits (h.csrRaw 0x300).toNat 12 11) else .m

/-- What `mret` makes of MIE, MPIE and MPP. -/
def Hart.mretFields (modes : Bool) : Hart :=
  ((h.setCsrBits 0x300 3 3 (b2n (h.csrBit 0x300 7))).setCsrBits 0x300 7 7 1).setCsrBits 0x300 12 11 (if modes then 0 else 3)

theorem Hart.mret_eq (modes : Bool) : h.mret modes = { (if h.mretMode modes = .m then h.mretFields modes else
    (h.mretFields modes).setCsrBits 0x300 17 17 0) with priv := h.mretMode modes, pc := h.csrRaw 0x341 } := rfl

/-- Every bit of `mstatus` but MPRV is as the writes of its fields leave it. -/
theorem Hart.csrBit_mret (modes : Bool) {j : Nat} (hj : j ≠ 17) : (h.mret modes).csrBit 0x300 j = (h.mretFields modes).csrBit 0x300 j := by
  rw [Hart.mret_eq]
  split
  · rfl
  · exact Hart.csrBit_setCsrBits_out (h.mretFields modes) 0x300 0 le_rfl (by decide) (by omega)

theorem Hart.csrRaw_mret (modes : Bool) {k : Nat} (hk : k ≠ 0x300) : (h.mret modes).csrRaw k = h.csrRaw k := by
  have hfields : (h.mretFields modes).csrRaw k = h.csrRaw k := by
    simp only [Hart.mretFields, Hart.csrRaw_setCsrBits_ne _ _ _ _ hk]
  rw [Hart.mret_eq]
  split
  · exact hfields
  · exact (Hart.csrRaw_setCsrBits_ne (h.mretFields modes) 17 17 0 hk).trans hfields

theorem Hart.mret_x (modes : Bool) : (h.mret modes).x = h.x := by
  rw [Hart.mret_eq]
  split
  · rfl
  · rfl

theorem Hart.mret_mie (modes : Bool) : (h.mret modes).csrBit 0x300 3 = h.csrBit 0x300 7 := by
  rw [h.csrBit_mret _ (by decide), Hart.mretFields, Hart.csrBit_setCsrBits_out _ _ _ (by decide) (by decide) (by decide),
    Hart.csrBit_setCsrBits_out _ _ _ (by decide) (by decide) (by decide), Hart.csrBit_setCsrBits_same _ _ _ (by decide), testBit_b2n]

theorem Hart.mret_mpie (modes : Bool) : (h.mret modes).csrBit 0x300 7 = true := by
  rw [h.csrBit_mret _ (by decide), Hart.mretFields, Hart.csrBit_setCsrBits_out _ _ _ (by decide) (by decide) (by decide),
    Hart.csrBit_setCsrBits_same _ _ _ (by decide)]
  rfl

theorem Hart.mret_mpp (modes : Bool) : bits ((h.mret modes).csrRaw 0x300).toNat 12 11 = if modes then 0 else 3 := by
  refine bits_eq_of_testBit (by cases modes with | _ => decide) fun i hi => ?_
  rw [Hart.testBit_csrRaw, h.csrBit_mret _ (by omega), Hart.mretFields, Hart.csrBit_setCsrBits _ _ _ _ (by decide) (by decide), if_pos (by omega),
    Nat.add_sub_cancel_left]

theorem Hart.csrRaw_sret {k : Nat} (hk : k ≠ 0x300) : h.sret.csrRaw k = h.csrRaw k := by
  have hcsr : h.sret.csrRaw k = ((((h.setCsrBits mstatusN 1 1 (b2n (h.csrBit mstatusN 5))).setCsrBits mstatusN 5 5 1).setCsrBits mstatusN 8 8
    0).setCsrBits mstatusN 17 17 0).csrRaw k := rfl
  rw [hcsr]
  simp only [Hart.csrRaw_setCsrBits_ne _ _ _ _ hk, mstatusN]

theorem Hart.csrBit_sret {j : Nat} (hj : j ≠ 17) : h.sret.csrBit 0x300 j =
    (((h.setCsrBits 0x300 1 1 (b2n (h.csrBit 0x300 5))).setCsrBits 0x300 5 5 1).setCsrBits 0x300 8 8 0).csrBit 0x300 j :=
  Hart.csrBit_setCsrBits_out _ 0x300 0 le_rfl (by decide) (by omega)

theorem Hart.sret_sie : h.sret.csrBit 0x300 1 = h.csrBit 0x300 5 := by
  rw [h.csrBit_sret (by decide), Hart.csrBit_setCsrBits_out _ _ _ (by decide) (by decide) (by decide),
    Hart.csrBit_setCsrBits_out _ _ _ (by decide) (by decide) (by decide), Hart.csrBit_setCsrBits_same _ _ _ (by decide), testBit_b2n]

theorem Hart.sret_spie : h.sret.csrBit 0x300 5 = true := by
  rw [h.csrBit_sret (by decide), Hart.csrBit_setCsrBits_out _ _ _ (by decide) (by decide) (by decide),
    Hart.csrBit_setCsrBits_same _ _ _ (by decide)]
  rfl

theorem Hart.sret_spp : h.sret.csrBit 0x300 8 = false := by
  rw [h.csrBit_sret (by decide), Hart.csrBit_setCsrBits_same _ _ _ (by decide)]
  rfl

end

/-! ### What each of them does -/

section
variable {s : State} {a : Agent}

theorem exec_standardInstruction_trap {i : Rv} {t : State} {x : Trap} (hb : s.byHart a)
    (h : (standardOp i a).run s = (.error (.trap x), t)) : exec (.standardInstruction i) s = .next (t.takeTrap a x) := by
  rw [exec_standardInstruction i hb, runFor_trap h]

theorem run_sys (op : SysOp) : (standardOp (.sys op) a).run s = (sysOp a op).run s := rfl

theorem mretOp_ok (hp : (s.hart a).priv = .m) :
    Ok (mretOp a) s (some ((s.hart a).csrRaw 0x341)) (s.setHart a ((s.hart a).mret a.isCore)) := by
  simp only [Ok, mretOp, M.run_bind_get, if_neg (not_not.mpr hp), M.run_bind_modify, M.run_pure]

theorem mretOp_illegal (hp : (s.hart a).priv ≠ .m) : (mretOp a).run s = (.error (.trap { code := 2 }), s) := by
  simp only [mretOp, M.run_bind_get, if_pos hp, run_bind_illegal]

/-- The conditions under which a core's `sret` is an illegal instruction. -/
def Hart.sretBarred (h : Hart) : Prop := h.priv = .u ∨ (h.priv = .s ∧ h.csrBit 0x300 22 = true)

/-- The state in which `sret` leaves a core: the engines of one that is not suspended go on (R307). -/
def Core.afterSret (c : Core) : Core := { c with hart := c.hart.sret, frozen := if c.suspended then c.frozen else false }

theorem sretOp_ok {n : Nat} (hp : ¬(s.core n).hart.sretBarred) :
    Ok (sretOp (.core n)) s (some ((s.core n).hart.csrRaw 0x141)) (s.modCore n Core.afterSret) := by
  have hp' : ¬((s.hart (.core n)).priv = .u ∨ ((s.hart (.core n)).priv = .s ∧ (s.hart (.core n)).csrBit mstatusN 22 = true)) := hp
  simp only [Ok, sretOp, M.run_bind_get, if_neg hp', M.run_bind_modify, M.run_pure]
  rfl

theorem sretOp_illegal (hp : a.isCore = false ∨ (s.hart a).sretBarred) : (sretOp a).run s = (.error (.trap { code := 2 }), s) := by
  cases a with
  | core n =>
    have hp' : (s.hart (.core n)).priv = .u ∨ ((s.hart (.core n)).priv = .s ∧ (s.hart (.core n)).csrBit mstatusN 22 = true) :=
      hp.resolve_left Bool.noConfusion
    simp only [sretOp, M.run_bind_get, if_pos hp', run_bind_illegal]
  | mgmt => rfl
  | lane o => rfl

theorem wfiOp_ok (hp : (s.hart a).priv = .m ∨ (s.hart a).csrBit 0x300 21 = false) : Ok (wfiOp a) s none s := by
  have hp' : ¬((s.hart a).priv ≠ .m ∧ (s.hart a).csrBit mstatusN 21 = true) := fun h =>
    hp.elim h.1 fun h0 => Bool.false_ne_true (h0.symm.trans h.2)
  simp only [Ok, wfiOp, M.run_bind_get, if_neg hp']
  rfl

theorem wfiOp_illegal (hp : (s.hart a).priv ≠ .m) (hw : (s.hart a).csrBit 0x300 21 = true) :
    (wfiOp a).run s = (.error (.trap { code := 2 }), s) := by
  have hp' : (s.hart a).priv ≠ .m ∧ (s.hart a).csrBit mstatusN 21 = true := ⟨hp, hw⟩
  simp only [wfiOp, M.run_bind_get, if_pos hp', run_bind_illegal]

theorem num_code (p : Priv) : 8 + p.num = if p = .u then 8 else if p = .s then 9 else 11 := by cases p with | _ => rfl

/-- A return from a trap: what completion keeps of a state in which only the hart has moved. -/
theorem returned_frame {u : State} {pc : W64} (hx : (u.hart a).x = (s.hart a).x) (hmem : u.mem = s.mem)
    (hother : ∀ b, b ≠ a → u.hart b = s.hart b) (hcsr : ∀ k, k ≠ 0x300 → (u.hart a).csrRaw k = (s.hart a).csrRaw k) :
    let t := u.finishInstr a (some pc)
    (t.hart a).x = (s.hart a).x ∧ t.mem = s.mem ∧ (∀ b, b ≠ a → t.hart b = s.hart b) ∧
      ∀ k, k ≠ 0x300 → k ≠ 0xB02 → (t.hart a).csrRaw k = (s.hart a).csrRaw k := by
  dsimp only
  refine ⟨?_, ?_, fun b hb => ?_, fun k hk hc => ?_⟩
  · rw [State.finishInstr_hart, Hart.finish_x, hx]
  · rw [State.finishInstr_finish, State.setHart_mem, hmem]
  · rw [State.finishInstr_finish, State.hart_setHart_ne _ _ hb, hother b hb]
  · rw [State.finishInstr_hart, Hart.finish_csrRaw _ _ hc, hcsr k hk]

theorem Hart.finish_csrBit (h : Hart) (pc : W64) {k : Nat} (i : Nat) (hk : k ≠ 0xB02) : (h.finish pc).csrBit k i = h.csrBit k i := by
  rw [Hart.csrBit, Hart.finish_csrRaw _ _ hk, Hart.csrBit]

end

/-- Settles O12: each is one operation with its checks before it, and the returns move the fields of `mstatus` bit by bit
(`Hart.csrBit_setCsrBits`). -/
theorem systemInstructions : Obligations.SystemInstructions := by
  unfold Obligations.SystemInstructions
  intro s a hb
  refine ⟨?ecall, exec_standardInstruction_trap hb rfl, fun hp => exec_standardInstruction_trap hb (mretOp_illegal hp), fun hp => ?mret,
    fun hp => exec_standardInstruction_trap hb (sretOp_illegal hp), fun hcore hp => ?sret,
    fun hp => exec_standardInstruction_ok hb (wfiOp_ok hp), fun hp hw => exec_standardInstruction_trap hb (wfiOp_illegal hp hw)⟩
  case ecall =>
    rw [← num_code]
    exact exec_standardInstruction_trap hb rfl
  case mret =>
    have hhart : (s.setHart a ((s.hart a).mret a.isCore)).hart a = (s.hart a).mret a.isCore := State.hart_setHart ..
    refine ⟨_, exec_standardInstruction_ok hb (mretOp_ok hp), ?_⟩
    have hframe := returned_frame (s := s) (a := a) (u := s.setHart a ((s.hart a).mret a.isCore)) (pc := (s.hart a).csrRaw 0x341)
      (by rw [hhart, Hart.mret_x]) (State.setHart_mem ..) (fun b hb => State.hart_setHart_ne _ _ hb) fun k hk => by rw [hhart, Hart.csrRaw_mret _ _ hk]
    have hmpp := (s.hart a).mret_mpp a.isCore
    refine ⟨?_, fun hc => ⟨?_, ?_⟩, fun hc => ⟨?_, ?_⟩, ?_, ?_, hframe⟩
    · rw [State.finishInstr_hart, Hart.finish_pc, Option.getD_some]
    · rw [State.finishInstr_hart, Hart.finish_priv, hhart, hc]
      change Priv.ofNum (bits ((s.hart a).csrRaw 0x300).toNat 12 11) = _
      generalize bits ((s.hart a).csrRaw 0x300).toNat 12 11 = m
      obtain _ | _ | m := m
      · rfl
      · rfl
      · exact (if_neg (by omega)).trans (if_neg (by omega))
    · rw [State.finishInstr_hart, Hart.finish_csrRaw _ _ (by decide), hhart, hmpp, if_pos hc]
    · rw [State.finishInstr_hart, Hart.finish_priv, hhart, hc]
      rfl
    · rw [State.finishInstr_hart, Hart.finish_csrRaw _ _ (by decide), hhart, hmpp, if_neg (by simp [hc])]
    · rw [State.finishInstr_hart, Hart.finish_csrBit _ _ _ (by decide), hhart, Hart.mret_mie]
    · rw [State.finishInstr_hart, Hart.finish_csrBit _ _ _ (by decide), hhart, Hart.mret_mpie]
  case sret =>
    obtain ⟨n, rfl⟩ : ∃ n, a = .core n := by
      cases a with
      | core n => exact ⟨n, rfl⟩
      | mgmt => cases hcore
      | lane o => cases hcore
    have hlegal : ¬(s.core n).hart.sretBarred := by
      have hp' : (s.core n).hart.priv = .m ∨ (s.core n).hart.priv = .s ∧ (s.core n).hart.csrBit 0x300 22 = false := hp
      rintro (hu | ⟨hs, hv⟩)
      · simp [hu] at hp'
      · simp [hs, hv] at hp'
    have hhart : (s.modCore n Core.afterSret).hart (.core n) = (s.hart (.core n)).sret := congrArg Core.hart (State.core_modCore ..)
    have hother : ∀ b, b ≠ .core n → (s.modCore n Core.afterSret).hart b = s.hart b := fun b hb => by
      cases b with
      | core m => exact congrArg Core.hart (State.core_modCore_ne s _ fun h => hb (congrArg _ h))
      | mgmt => rfl
      | lane o => rfl
    have hframe := returned_frame (s := s) (a := .core n) (u := s.modCore n Core.afterSret) (pc := (s.hart (.core n)).csrRaw 0x141)
      (by rw [hhart]; rfl) rfl hother fun k hk => by rw [hhart, Hart.csrRaw_sret _ hk]
    refine ⟨_, exec_standardInstruction_ok hb (sretOp_ok hlegal), ?_, ?_, ?_, ?_, ?_, hframe⟩
    · rw [State.finishInstr_hart, Hart.finish_pc, Option.getD_some]
      rfl
    · rw [State.finishInstr_hart, Hart.finish_priv, hhart]
      rfl
    · rw [State.finishInstr_hart, Hart.finish_csrBit _ _ _ (by decide), hhart, Hart.sret_sie]
    · rw [State.finishInstr_hart, Hart.finish_csrBit _ _ _ (by decide), hhart, Hart.sret_spie]
    · rw [State.finishInstr_hart, Hart.finish_csrBit _ _ _ (by decide), hhart, Hart.sret_spp]

end Sys2Proof.Machine
end

section
/-! SUPPORT and O13. The CSR instructions (R48, R310). -/
namespace Sys2Proof.Machine

/-! ### `engctl` as it reads -/

theorem dvd_foldl_add {α : Type} {d : Nat} (g : α → Nat) (hg : ∀ x, d ∣ g x) (l : List α) {z : Nat} (hz : d ∣ z) :
    d ∣ l.foldl (fun acc x => acc + g x) z := by
  induction l generalizing z with
  | nil => exact hz
  | cons x l ih => exact ih (Nat.dvd_add hz (hg x))

/-- The bits that KILL and RESUME are written at read zero. -/
theorem Core.engctl_killBit (c : Core) : bit c.engctl.toNat 8 = false := by
  have hshift (b : Bool) (k : Nat) (hk : 16 ≤ k) : 2 ^ 16 ∣ b2n b <<< k := by
    rw [Nat.shiftLeft_eq]
    exact Dvd.dvd.mul_left (Nat.pow_dvd_pow 2 hk) _
  have hsum := dvd_foldl_add (d := 2 ^ 16) (fun e : Eng => b2n (c.ring e).halted <<< (16 + e.num) + b2n (c.ring e).isStalled <<< (24 + e.num))
    (fun e => Nat.dvd_add (hshift _ _ (by omega)) (hshift _ _ (by omega))) Eng.all (Nat.dvd_zero _)
  have heng : c.engctl.toNat = Eng.all.foldl (fun acc e => acc + (b2n (c.ring e).halted <<< (16 + e.num) +
      b2n (c.ring e).isStalled <<< (24 + e.num))) 0 % 2 ^ 64 := by
    simp only [Core.engctl, BitVec.toNat_ofNat, Nat.add_assoc]
  rw [bit_eq_testBit, Nat.testBit_eq_decide_div_mod_eq, heng, decide_eq_false_iff_not]
  generalize Eng.all.foldl (fun acc e => acc + (b2n (c.ring e).halted <<< (16 + e.num) + b2n (c.ring e).isStalled <<< (24 + e.num))) 0 = m at *
  omega

/-! ### The operation -/

/-- What a CSR instruction writes, of the old value and its source. -/
def csrNew (op : CsrOp) (old src : W64) : W64 :=
  match op with
  | .rw => src
  | .rs => old ||| src
  | .rc => old &&& ~~~src

/-- A set or clear of nothing. -/
theorem csrNew_zero {op : CsrOp} (old : W64) (hop : op ≠ .rw) : csrNew op old 0#64 = old := by
  cases op with
  | rw => exact absurd rfl hop
  | rs => exact BitVec.or_zero
  | rc => exact (congrArg _ BitVec.not_zero).trans BitVec.and_allOnes

/-- What bars an access to a CSR: the register, the mode, the gates or a read-only number. -/
def State.csrBarred (s : State) (a : Agent) (k : Nat) (wr : Bool) : Prop :=
  csrExists a k = false ∨ (s.hart a).csrAllowed k = false ∨ (s.hart a).csrGate k = false ∨ (wr = true ∧ bits k 11 10 = 3)

section
variable {s t : State} {a : Agent} {op : CsrOp} {rd : Reg} {k : Nat} {src : W64} {wr : Bool}

theorem csrCheck_free (h : ¬s.csrBarred a k wr) : Ok (csrCheck a k wr) s () s := by
  have h' := h
  rw [State.csrBarred] at h'
  simp only [Ok, csrCheck, M.run_bind_get, if_neg h', M.run_pure]

theorem csrCheck_barred (h : s.csrBarred a k wr) : (csrCheck a k wr).run s = (.error (.trap { code := 2 }), s) := by
  have h' := h
  rw [State.csrBarred] at h'
  simp only [csrCheck, M.run_bind_get, if_pos h', run_illegal]

theorem csrOp_barred (h : s.csrBarred a k wr) : (csrOp a op rd k src wr).run s = (.error (.trap { code := 2 }), s) := by
  rw [csrOp, M.run_bind, csrCheck_barred h]

/-- Does the instruction end the task of its core: does it write KILL? -/
def State.csrKills (s : State) (a : Agent) (k : Nat) (new : W64) : Bool :=
  match a with
  | .core n => k == 0x5C3 && bit new.toNat 8 && (s.core n).task.isSome
  | _ => false

theorem State.csrKills_ne (s : State) (a : Agent) (new : W64) (hk : k ≠ 0x5C3) : s.csrKills a k new = false := by
  cases a with
  | core n => rw [State.csrKills, beq_false_of_ne hk]; rfl
  | mgmt => rfl
  | lane o => rfl

/-- What `engctl` reads as never names a KILL. -/
theorem State.csrKills_old (s : State) (a : Agent) (k : Nat) : s.csrKills a k (s.csrValue a k) = false := by
  by_cases hk : k = 0x5C3
  · subst hk
    cases a with
    | core n =>
      have hold : s.csrValue (.core n) 0x5C3 = (s.core n).engctl := by simp [State.csrValue]
      rw [State.csrKills, hold, Core.engctl_killBit]
      rfl
    | mgmt => rfl
    | lane o => rfl
  · exact s.csrKills_ne a _ hk

/-- The end of a CSR instruction: rd takes the old value unless the core's task has ended. -/
theorem csrOp_end {old new : W64} (hkill : s.csrKills a k new = false) :
    Ok (if s.csrKills a k new then pure (some (t.hart a).pc) else finReg a rd old) t none (t.setX a rd old) := by
  rw [hkill]
  rfl

theorem csrOp_read (h : ¬s.csrBarred a k false) (hnew : csrNew op (s.csrValue a k) src = s.csrValue a k) :
    Ok (csrOp a op rd k src false) s none (s.setX a rd (s.csrValue a k)) := by
  rw [Ok, csrOp, (csrCheck_free h).bind_run, M.run_bind_get]
  simp only [Bool.false_eq_true, if_false, M.run_bind_get]
  exact csrOp_end (new := csrNew op (s.csrValue a k) src) (by rw [hnew]; exact s.csrKills_old a k)

theorem csrOp_write (h : ¬s.csrBarred a k true) (hk : k ≠ 0x5C3) (hw : Ok (csrWriteOp a k (csrNew op (s.csrValue a k) src)) s () t) :
    Ok (csrOp a op rd k src true) s none (t.setX a rd (s.csrValue a k)) := by
  rw [Ok, csrOp, (csrCheck_free h).bind_run, M.run_bind_get]
  simp only [if_true]
  refine hw.bind ?_
  rw [Ok, M.run_bind_get]
  exact csrOp_end (new := csrNew op (s.csrValue a k) src) (s.csrKills_ne a _ hk)

/-- `minstret` is written so that with the instruction's own count it holds the value. -/
theorem csrWriteOp_minstret (s : State) (a : Agent) (v : W64) : Ok (csrWriteOp a 0xB02 v) s ()
    (s.setHart a ((s.hart a).setCsrRaw 0xB02 (if (s.hart a).csrBit 0x320 2 = false then v - 1 else v))) := by
  have hstore : ∀ v, (s.hart a).csrStore a.isCore 0xB02 v = (s.hart a).setCsrRaw 0xB02 v := fun v => by simp [Hart.csrStore]
  cases a <;> simp [Ok, csrWriteOp, hstore]

end

/-- A write of `minstret` completes with the value written in it. -/
theorem minstret_written (s : State) (a : Agent) (rd : Reg) (old new : W64) :
    let t := ((s.setHart a ((s.hart a).setCsrRaw 0xB02 (if (s.hart a).csrBit 0x320 2 = false then new - 1 else new))).setX a rd old).fallThrough a
    (t.hart a).csrRaw 0xB02 = new ∧ (∀ r, (t.hart a).get r = if r = rd ∧ rd ≠ 0#5 then old else (s.hart a).get r) ∧
      (t.hart a).pc = (s.hart a).pc + BitVec.ofNat 64 s.ilen ∧ (∀ j, j ≠ 0xB02 → (t.hart a).csrRaw j = (s.hart a).csrRaw j) ∧
      t.mem = s.mem ∧ ∀ b, b ≠ a → t.hart b = s.hart b := by
  dsimp only
  generalize hv : (if (s.hart a).csrBit 0x320 2 = false then new - 1 else new) = v
  generalize hu : (s.setHart a ((s.hart a).setCsrRaw 0xB02 v)).setX a rd old = u
  have hhart : u.hart a = ((s.hart a).setCsrRaw 0xB02 v).set rd old := by rw [← hu, State.setX_hart, State.hart_setHart]
  have hraw : ∀ j, (u.hart a).csrRaw j = ((s.hart a).setCsrRaw 0xB02 v).csrRaw j := fun j => by rw [hhart, Hart.csrRaw_set]
  have hpc : (u.hart a).pc = (s.hart a).pc := by rw [hhart, Hart.set_pc]; rfl
  have hilen : u.ilen = s.ilen := by rw [← hu, State.setX, State.setHart_ilen, State.setHart_ilen]
  have hother : ∀ b, b ≠ a → u.hart b = s.hart b := fun b hb => by
    rw [← hu, State.setX, State.hart_setHart_ne _ _ hb, State.hart_setHart_ne _ _ hb]
  rw [State.fallThrough, State.finishInstr_hart]
  refine ⟨?_, fun r => ?_, ?_, fun j hj => ?_, ?_, fun b hb => ?_⟩
  · have hinhibit : (u.hart a).csrBit 0x320 2 = (s.hart a).csrBit 0x320 2 := by
      rw [Hart.csrBit, hraw, Hart.csrRaw_setCsrRaw_ne _ _ (by decide), Hart.csrBit]
    rw [Hart.finish_minstret, hinhibit, hraw, Hart.csrRaw_setCsrRaw, ← hv]
    cases (s.hart a).csrBit 0x320 2 with
    | false => exact BitVec.sub_add_cancel new 1
    | true => rfl
  · rw [Hart.finish_get, hhart, Hart.get_set]
    rfl
  · rw [Hart.finish_pc, hpc, hilen]
    rfl
  · rw [Hart.finish_csrRaw _ _ hj, hraw, Hart.csrRaw_setCsrRaw_ne _ _ hj]
  · rw [State.finishInstr_finish, State.setHart_mem, ← hu, State.setX, State.setHart_mem, State.setHart_mem]
  · rw [State.finishInstr_finish, State.hart_setHart_ne _ _ hb, hother b hb]

/-- Settles O13: the check comes first, then the write, then rd; what `engctl` reads as writes no KILL. -/
theorem csrInstructions : Obligations.CsrInstructions := by
  unfold Obligations.CsrInstructions
  intro s a op rd num i src wr hb hi
  have hrun : (standardOp i a).run s = (csrOp a op rd num.toNat src wr).run s := by
    obtain ⟨r1, rfl, rfl, rfl⟩ | ⟨u, rfl, rfl, rfl⟩ := hi
    · rfl
    · rw [BitVec.ofNat_toNat]
      rfl
  have hzero : wr = false → csrNew op (s.csrValue a num.toNat) src = s.csrValue a num.toNat := fun hw => by
    have hsrc : op ≠ .rw ∧ src = 0#64 := by
      obtain ⟨r1, rfl, rfl, rfl⟩ | ⟨u, rfl, rfl, rfl⟩ := hi
      · simp only [Bool.or_eq_false_iff, beq_eq_false_iff_ne, bne_eq_false_iff_eq] at hw
        exact ⟨hw.1, by rw [hw.2, Hart.get_zero]; rfl⟩
      · simp only [Bool.or_eq_false_iff, beq_eq_false_iff_ne, bne_eq_false_iff_eq] at hw
        exact ⟨hw.1, by rw [hw.2]; rfl⟩
    rw [hsrc.2, csrNew_zero _ hsrc.1]
  refine ⟨fun hbar => exec_standardInstruction_trap hb (hrun.trans (csrOp_barred hbar)), fun hfree hw => ?read, fun hfree hw h1 h2 => ?write,
    fun hfree hw hk => ?minstret⟩
  case read =>
    subst hw
    exact exec_standardInstruction_ok hb (hrun.trans (csrOp_read hfree (hzero rfl)))
  case write =>
    subst hw
    exact exec_standardInstruction_ok hb (hrun.trans (csrOp_write hfree h1 (csrWriteOp_ok s a _ h1 h2)))
  case minstret =>
    subst hw
    rw [hk] at hrun hfree ⊢
    refine ⟨_, exec_standardInstruction_ok hb (hrun.trans (csrOp_write hfree (by decide) (csrWriteOp_minstret s a _))), ?_⟩
    exact minstret_written s a rd _ (csrNew op (s.csrValue a 0xB02) src)

end Sys2Proof.Machine
end

section
/-! SUPPORT, O18 and O24. Instructions that a mode or an agent does not have (R53, R388, R395), and those of S-mode (R54, R143, R309). -/
namespace Sys2Proof.Machine

/-- What only a control core has runs as a control core's instruction. -/
theorem exec_runCore {i : Instr} (h : i.controlCoreOnly = true) : ∃ m, exec i = runCore m := by
  cases i with
  | ringPost | ringPostReg | ringPostFresh | ringPostFreshReg | ringWait | ringPtr => exact ⟨_, rfl⟩
  | semRaise | semWait | semRead | semTry => exact ⟨_, rfl⟩
  | cbCfg | cbClaim | cbPush | cbTake | cbRel | cbStat => exact ⟨_, rfl⟩
  | taskRetire | taskAbort | taskDirect | taskYield | condSet | depDec | graphLaunch => exact ⟨_, rfl⟩
  | ldAcq | sdRel | amoAdd | amoAnd | amoOr | amoXor | amoMax | amoMin | amoSwap | amoCas => exact ⟨_, rfl⟩
  | fenceScoped | arrive | wait | sfenceVma => exact ⟨_, rfl⟩
  | ctxSave | ctxRest | fqRd | fqPop | ringCfg | ringOwn | semSet | errInj => exact ⟨_, rfl⟩
  | _ => exact Bool.noConfusion h

/-! ### The mode -/

section
variable {s : State} {n : Nat}

theorem superOnly_ok (hp : (s.core n).hart.priv ≠ .u) : Ok (superOnly n) s () s := by
  simp only [Ok, superOnly, M.run_bind_get, if_neg hp, M.run_pure]

theorem superOnly_illegal {α : Type} (f : Unit → M α) (hp : (s.core n).hart.priv = .u) :
    (superOnly n >>= f).run s = (.error (.trap { code := 2 }), s) := by
  rw [M.run_bind]
  simp only [superOnly, M.run_bind_get, if_pos hp, run_illegal]

theorem ctxSaveOp_notSuper (r1 : Reg) (hp : (s.core n).hart.priv ≠ .s) : (ctxSaveOp r1 n).run s = (.error (.trap { code := 2 }), s) := by
  cases ht : (s.core n).task with
  | none => simp only [ctxSaveOp, M.run_bind_get, ht, run_illegal]
  | some t => simp only [ctxSaveOp, M.run_bind_get, ht, if_pos (Or.inl hp), run_bind_illegal]

theorem ctxRestOp_notSuper (r1 : Reg) (hp : (s.core n).hart.priv ≠ .s) : (ctxRestOp r1 n).run s = (.error (.trap { code := 2 }), s) := by
  simp only [ctxRestOp, M.run_bind_get, if_pos (Or.inl hp), run_bind_illegal]

theorem errInjOp_notSuper (r1 r2 : Reg) (hp : (s.core n).hart.priv ≠ .s) : (errInjOp r1 r2 n).run s = (.error (.trap { code := 2 }), s) := by
  simp only [errInjOp, M.run_bind_get, if_pos hp, run_bind_illegal]

/-- In U-mode the first check of every custom-2 instruction stops it (R53). -/
theorem custom2_illegal {i : Instr} (hb : s.byCore n) (hp : (s.core n).hart.priv = .u) (h : i.custom2 = true) :
    exec i s = .next (s.illegalAt (.core n)) := by
  have hs : (s.core n).hart.priv ≠ .s := fun h => Priv.noConfusion (hp.symm.trans h)
  cases i with
  | ctxSave r1 => exact runCore_trap hb (ctxSaveOp_notSuper r1 hs)
  | ctxRest r1 => exact runCore_trap hb (ctxRestOp_notSuper r1 hs)
  | errInj r1 r2 => exact runCore_trap hb (errInjOp_notSuper r1 r2 hs)
  | fqRd | fqPop | ringCfg | ringOwn | semSet => exact runCore_trap hb (superOnly_illegal _ hp)
  | _ => exact Bool.noConfusion h

end

/-- Settles O18: `exec_runCore` off the control cores, `custom2_illegal` on them. -/
theorem illegalByAgent : Obligations.IllegalByAgent := by
  refine ⟨fun s a i hb ha hi => ?_, fun s n i hb hp hi => custom2_illegal hb hp hi⟩
  obtain ⟨m, hm⟩ := exec_runCore hi
  rw [hm]
  exact runCore_elsewhere hb ha

/-! ### `ring.cfg`, `ring.own` and `err.inj` -/

section
variable {s : State} {n : Nat}

/-- A ring size, ring pointers, or a base that `ring.cfg` refuses (R54, R309). -/
def Core.ringCfgBad (c : Core) (n : Nat) (e : Eng) (r1 r2 : Reg) : Prop :=
  let k := bits (c.hart.get r2).toNat 3 0
  k < 4 ∨ 12 < k ∨ (c.ring e).write ≠ (c.ring e).retire ∨ (c.hart.get r1).toNat % 32 ≠ 0 ∨ spSize n < (c.hart.get r1).toNat + 32 * 2 ^ k

/-- An empty ring with its base and size. -/
def Ring.configured (r : Ring) (base size : Nat) : Ring :=
  { r with base := base, size := size, write := 0, read := 0, retire := 0, org := [], flight := [] }

theorem ringCfgOp_bad {e : Eng} {r1 r2 : Reg} (hp : (s.core n).hart.priv ≠ .u) (h : (s.core n).ringCfgBad n e r1 r2) :
    (ringCfgOp e r1 r2 n).run s = (.error (.trap { code := 2 }), s) := by
  rw [ringCfgOp, (superOnly_ok hp).bind_run]
  rw [Core.ringCfgBad] at h
  simp only [M.run_bind_get, if_pos h, run_bind_illegal]

theorem ringCfgOp_good {e : Eng} {r1 r2 : Reg} (hp : (s.core n).hart.priv ≠ .u) (h : ¬(s.core n).ringCfgBad n e r1 r2) :
    Ok (ringCfgOp e r1 r2 n) s none
      (s.setRing n e (((s.core n).ring e).configured ((s.core n).hart.get r1).toNat (2 ^ bits ((s.core n).hart.get r2).toNat 3 0))) := by
  rw [Ok, ringCfgOp, (superOnly_ok hp).bind_run]
  rw [Core.ringCfgBad] at h
  simp only [M.run_bind_get, if_neg h, M.run_bind_modify]
  rfl

theorem ringOwnOp_ok {e : Eng} {r1 : Reg} (hp : (s.core n).hart.priv ≠ .u) :
    Ok (ringOwnOp e r1 n) s none (s.setRing n e { s.ring n e with owner := ((s.core n).hart.get r1).getLsbD 0 }) :=
  (superOnly_ok hp).bind rfl

theorem errInjOp_illegal {r1 r2 : Reg} (h : injectLegal n ((s.core n).hart.get r1).toNat ((s.core n).hart.get r2).toNat = false) :
    (errInjOp r1 r2 n).run s = (.error (.trap { code := 2 }), s) := by
  by_cases hp : (s.core n).hart.priv = .s
  · simp only [errInjOp, M.run_bind_get, if_neg (not_not.mpr hp), if_pos h, run_bind_illegal]
  · exact errInjOp_notSuper r1 r2 hp

theorem errInjOp_ok {r1 r2 : Reg} (hp : (s.core n).hart.priv = .s)
    (h : injectLegal n ((s.core n).hart.get r1).toNat ((s.core n).hart.get r2).toNat = true) : Ok (errInjOp r1 r2 n) s none
      (s.modCore n fun c => c.inject n ((s.core n).hart.get r1).toNat ((s.core n).hart.get r2).toNat) := by
  have h' : ¬injectLegal n ((s.core n).hart.get r1).toNat ((s.core n).hart.get r2).toNat = false := by simp [h]
  simp only [Ok, errInjOp, M.run_bind_get, if_neg (not_not.mpr hp), if_neg h', M.run_bind_modify]
  rfl

end

/-- Settles O24, check by check. -/
theorem supervisorInstructions : Obligations.SupervisorInstructions := by
  unfold Obligations.SupervisorInstructions
  intro s n hb c hp
  refine ⟨fun e r1 r2 => ?cfg, fun e r1 => ⟨_, runCore_ok hb (ringOwnOp_ok hp), s.onlyCore_modCore n _⟩,
    fun r1 r2 => ⟨fun h => ?barred, fun hs h => ⟨_, runCore_ok hb (errInjOp_ok hs h), s.onlyCore_modCore n _⟩⟩⟩
  case cfg =>
    have hk : bits (c.hart.get r2).toNat 3 0 = (c.hart.get r2).toNat % 16 := by simp [bits_eq_div_mod]
    have hbad : c.ringCfgBad n e r1 r2 ↔ ((c.hart.get r2).toNat % 16 < 4 ∨ 12 < (c.hart.get r2).toNat % 16 ∨
        (c.ring e).write ≠ (c.ring e).retire ∨ (c.hart.get r1).toNat % 32 ≠ 0 ∨
        (if n < 32 then 2 ^ 23 else 2 ^ 21) < (c.hart.get r1).toNat + 32 * 2 ^ ((c.hart.get r2).toNat % 16)) := by
      rw [Core.ringCfgBad, hk, spSize, isP]
      simp only [decide_eq_true_eq]
    refine ⟨fun h => runCore_trap hb (ringCfgOp_bad hp (hbad.mpr h)), fun h =>
      ⟨_, runCore_ok hb (ringCfgOp_good hp (mt hbad.mp h)), ?_⟩⟩
    rw [← hk]
    exact s.onlyCore_modCore n _
  case barred => exact h.elim (fun h => runCore_trap hb (errInjOp_notSuper r1 r2 h)) fun h => runCore_trap hb (errInjOp_illegal h)

end Sys2Proof.Machine
end

section
/-! SUPPORT, O1 and O3. The step of a hart runs what its bytes decode to (R48, R349); encodings written out. -/
namespace Sys2Proof.Machine

/-- With nothing before it at the boundary, the turn of a hart is the instruction at its pc (R349). -/
theorem hartTurn_runs {s s2 : State} {a : Agent} {bs : List Byte} {i : Instr} {len : Nat} (hrun : (s.hart a).run = .run)
    (hgate : s.agentGated a = false) (hfault : s.faultDue a = false) (hintr : s.intrDue a = none) (hwait : (s.hart a).wait = none)
    (hfetch : Ok (fetchInstr a) { s with focus := .hart a } bs s2) (hdecode : decodeBytes bs = some (i, len))
    (hmay : agentMay a i = true) : hartTurn a s = .run i { s2 with ilen := len } := by
  have hstop : ¬((s.hart a).run ≠ .run ∨ ({ s with focus := .hart a } : State).agentGated a = true) :=
    not_or.mpr ⟨not_not.mpr hrun, Bool.eq_false_iff.mp hgate⟩
  have hfault' : ({ s with focus := .hart a } : State).faultDue a = false := hfault
  have hintr' : ({ s with focus := .hart a } : State).intrDue a = none := hintr
  rw [hartTurn]
  simp only [if_neg hstop, hfault', hintr', hwait, hfetch.run, hdecode, hmay, Option.isSome_none, Bool.false_eq_true, if_false, if_true]

/-- Settles O1, from what the turn of a hart chooses. -/
theorem stepRunsDecoded : Obligations.StepRunsDecoded := by
  intro s s1 s2 a bs i len hturn hrun hgate hfault hintr hwait hfetch hdecode hmay
  have hchosen := hartTurn_runs hrun hgate hfault hintr hwait hfetch hdecode hmay
  simp only [step, hturn, chooseTurn, hchosen]

/-- Settles O3: each word is the encoding of its instruction, and decodes to it. -/
theorem wordsDecode : Obligations.WordsDecode := by
  refine ⟨?_, ?_, ?_, ?_, ?_, ?_, ?_, ?_, ?_, ?_, ?_, ?_, ?_, ?_, ?_, ?_⟩
  all_goals exact decodeEncode _ _ (by decide +kernel) (by decide +kernel)

end Sys2Proof.Machine
end

section
/-! SUPPORT, O28 and O29. A translation that does not keep the place of an address in its doubleword (R49, R102, R404). -/
namespace Sys2Proof.Machine

/-- A leaf for the first page of virtual memory at four bytes past a doubleword of MMIO. No walk makes it: the base of a page is aligned. -/
def strayEntry : TlbEntry :=
  { ctx := 0, asid := 0, global := true, vbase := 0, size := 4096, pbase := 0x030000220004, r := true, w := true, x := false, user := false,
    dirty := true, home := homeUncached }

/-- Core 0 in S-mode with translation on (R357), that leaf in its TLB, and 60 in x1. -/
def strayHart : Hart :=
  { Hart.reset with run := .run, priv := .s, csr := [(0x180, 0x9000000000000000#64)], x := [(1, 60#64)], tlb := [strayEntry] }

def strayTlb : State :=
  { State.reset with focus := .hart (.core 0), coreReset := [(0, false)], cores := [(0, { Core.reset with hart := strayHart })] }

/-- Eight bytes at 60 cross a line of virtual memory, and are an aligned doubleword of MMIO. -/
theorem strayTlb_translates (k : AccKind) (hk : k ≠ .fetch) :
    Ok (translateHart (.core 0) k 60) strayTlb { pa := 0x030000220040, home := homeUncached, va := 60 } strayTlb := by
  cases k with
  | fetch => exact absurd rfl hk
  | load => rfl
  | store => rfl

theorem strayTlb_mmio : strayTlb.loc 0x030000220040 = .mmio 0x030000220040 := by decide +kernel

/-- The exception cause that core 0 holds after a step. -/
def causeAfter (o : Host.Outcome State Fault Refusal) : Option W64 :=
  match o with
  | .next t => some ((t.core 0).hart.csrRaw 0x342)
  | _ => none

/-- Where the outcome leaves another cause than the access fault's, it is none. -/
theorem strayTlb_refutes {k : AccKind} (hk : k ≠ .fetch) {o : Host.Outcome State Fault Refusal} (ho : causeAfter o = some 0#64)
    (h : strayTlb.CrossTrap (.core 0) k 60 o) : False := by
  obtain ⟨-, hmmio⟩ := h.1 _ _ (strayTlb_translates k hk)
  have hcause := congrArg causeAfter (hmmio _ strayTlb_mmio)
  rw [ho] at hcause
  cases k with
  | fetch => exact absurd rfl hk
  | load => exact absurd hcause (by decide +kernel)
  | store => exact absurd hcause (by decide +kernel)

/-- Refutes O28: a load that crosses a line takes the access fault in MMIO, says the statement, also where the translation gives it an
aligned doubleword; the model judges the physical address (R404). In `strayTlb` a TLB holds a leaf whose base is not aligned, so that
eight bytes at 60 are the doubleword at 0x030000220040, and the load completes. That the leaves of the TLBs are aligned is not among the hypotheses. -/
theorem not_loads : ¬ Obligations.Loads := by
  intro h
  obtain ⟨hload, -⟩ := h strayTlb (.core 0) rfl
  obtain ⟨hcross, -⟩ := hload .d 2#5 1#5 0#12
  exact strayTlb_refutes (k := .load) (by decide) (by decide +kernel) (hcross (by decide +kernel))

/-- Refutes O29, as O28: in `strayTlb` a store of eight bytes at 60, which cross a line, is one of an aligned doubleword of MMIO, and completes. -/
theorem not_storesAndQueue : ¬ Obligations.StoresAndQueue := by
  intro h
  obtain ⟨hinstr, -⟩ := h
  obtain ⟨hstore, -⟩ := hinstr strayTlb (.core 0) rfl
  obtain ⟨hcross, -⟩ := hstore .d 2#5 1#5 0#12
  exact strayTlb_refutes (k := .store) (by decide) (by decide +kernel) (hcross (by decide +kernel))

end Sys2Proof.Machine
end

section
/-! SUPPORT and O32. Fences (R49, R296, R316 to R318) and `sfence.vma` (R359). -/
namespace Sys2Proof.Machine

/-! ### Fences -/

section
variable {s s1 : State} {n : Nat}

theorem State.settleCover_stale (s : State) : s.settleCover.stale = s.stale := rfl

theorem State.takeInval_stale (s : State) (p : StaleCopy → Bool) : (s.takeInval p).stale = s.stale.filter fun c => !p c := by
  rw [State.takeInval]
  split
  · exact State.settleCover_stale _
  · next h =>
    refine (List.filter_eq_self.mpr fun c hc => ?_).symm
    rw [Bool.not_eq_true', Bool.eq_false_iff]
    exact fun hp => h (List.any_eq_true.mpr ⟨c, hc, hp⟩)

/-- The old copies that are left once what a release at a scope covers is performed (R318). -/
theorem State.takeCovered_stale (s : State) (n : Nat) (sc : Scope) : (s.takeCovered n sc).stale =
    if sc = .pkg ∨ sc = .sys then s.stale.filter fun k => !(k.writers.contains n || (s.core n).observed.contains k.line) else s.stale := by
  have htake := s.takeInval_stale (s.coversCopy n)
  cases sc with
  | pkg => exact htake
  | sys => exact htake
  | _ => rfl

theorem State.aside_takeCovered (s : State) (n : Nat) (sc : Scope) : s.Aside (s.takeCovered n sc) := by
  rw [State.takeCovered]
  split
  · exact s.aside_takeInval _
  · exact .refl s

/-- Once the stores have left the queue, with no covered write held, a release ends with the invalidations that it covers. -/
theorem releaseAt_ok (sc : Scope) (hdrain : Ok (drainAll n) s () s1) (hheld : s1.coveredHeld n = false) (hswap : s1.swap = none) :
    Ok (releaseAt n sc) s () (s1.takeCovered n sc) := by
  refine hdrain.bind ?_
  simp [Ok, State.swapHolds, hswap, hheld]

theorem exec_standardFence_core (hb : s.byCore n) (fm p q : BitVec 4) (r1 rd : Reg) :
    exec (.standardFence fm p q r1 rd) s = exec (.fenceScoped .sys) s :=
  (runHart_at (m := standardFenceOp) hb).trans (runCore_at (m := fenceOp .sys) hb).symm

end

/-! ### `sfence.vma` -/

/-- The entries that the operands of an `sfence.vma` pick. -/
def Hart.sfencePicks (h : Hart) (r1 r2 : Reg) (e : TlbEntry) : Bool :=
  (r1 == 0#5 || decide (e.vbase ≤ (h.get r1).toNat % 2 ^ 48 ∧ (h.get r1).toNat % 2 ^ 48 < e.vbase + e.size)) &&
    (r2 == 0#5 || (!e.global && e.asid == (h.get r2).toNat % 2 ^ 16))

/-- A core without the entries that a test picks, of its hart's TLB and of its engines'. -/
def Core.dropTlbs (c : Core) (p : TlbEntry → Bool) : Core :=
  { c with hart := { c.hart with tlb := c.hart.tlb.filter fun e => !p e }, etlb := c.etlb.filter fun e => !p e }

section
variable (s : State) (n : Nat) (p : TlbEntry → Bool)

/-- Entries leave one TLB; the home directory counts them off. -/
theorem State.dropFrom_rest (t : TlbAt) :
    s.dropFrom t p = { s.setTlb t ((s.tlb t).filter fun e => !p e) with homes := (s.dropFrom t p).homes } :=
  List.foldlRecOn (motive := fun u : State => u = { s.setTlb t ((s.tlb t).filter fun e => !p e) with homes := u.homes }) _ _ rfl
    fun u hu x _ => by
      rw [hu]
      rfl

theorem State.core_dropFrom (t : TlbAt) (m : Nat) : (s.dropFrom t p).core m = (s.setTlb t ((s.tlb t).filter fun e => !p e)).core m := by
  rw [State.dropFrom_rest]
  rfl

/-- The state that `sfence.vma` leaves. -/
def State.sfenced : State := (s.dropFrom (.cc n) p).dropFrom (.eng n) p

theorem State.core_dropFrom_cc (m : Nat) : (s.dropFrom (.cc n) p).core m =
    if m = n then { s.core n with hart := { (s.core n).hart with tlb := (s.core n).hart.tlb.filter fun e => !p e } } else s.core m := by
  rw [State.core_dropFrom]
  split
  · next h => rw [h]; exact State.core_modCore s n _
  · next h => exact State.core_modCore_ne _ _ h

theorem State.core_dropFrom_eng (m : Nat) : (s.dropFrom (.eng n) p).core m =
    if m = n then { s.core n with etlb := (s.core n).etlb.filter fun e => !p e } else s.core m := by
  rw [State.core_dropFrom]
  split
  · next h => rw [h]; exact State.core_modCore s n _
  · next h => exact State.core_modCore_ne _ _ h

theorem State.core_sfenced (m : Nat) : (s.sfenced n p).core m = if m = n then (s.core n).dropTlbs p else s.core m := by
  rw [State.sfenced, State.core_dropFrom_eng, State.core_dropFrom_cc, State.core_dropFrom_cc, if_pos rfl]
  split
  · rfl
  · rfl

theorem State.sfenced_rest : s.sfenced n p = { s with cores := (s.sfenced n p).cores, homes := (s.sfenced n p).homes } := by
  rw [State.sfenced, State.dropFrom_rest _ _ (.eng n), State.dropFrom_rest s p (.cc n)]
  rfl

theorem State.sameBut_sfenced : s.SameBut (s.sfenced n p) := by
  have hcore : ∀ m, (s.sfenced n p).core m = s.core m ∨ (s.sfenced n p).core m = (s.core m).dropTlbs p := fun m => by
    rw [State.core_sfenced]
    split
    · next h => exact .inr (by rw [h])
    · exact .inl rfl
  refine ⟨by rw [State.sfenced_rest], fun a => ?_, fun m => ?_⟩
  · cases a with
    | core m =>
      rw [State.hart_core, State.hart_core]
      rcases hcore m with h | h
      · rw [h]; exact ⟨rfl, rfl, rfl, rfl⟩
      · rw [h]; exact ⟨rfl, rfl, rfl, rfl⟩
    | mgmt => rw [State.sfenced_rest]; exact ⟨rfl, rfl, rfl, rfl⟩
    | lane o => rw [State.sfenced_rest]; exact ⟨rfl, rfl, rfl, rfl⟩
  · rcases hcore m with h | h
    · rw [h]; exact ⟨rfl, rfl, rfl, rfl, rfl, rfl⟩
    · rw [h]; exact ⟨rfl, rfl, rfl, rfl, rfl, rfl⟩

end

section
variable {s : State} {n : Nat} {r1 r2 : Reg}

theorem sfenceOp_illegal (h : (s.core n).hart.priv = .u ∨ ((s.core n).hart.priv = .s ∧ (s.core n).hart.csrBit 0x300 20 = true)) :
    (sfenceOp r1 r2 n).run s = (.error (.trap { code := 2 }), s) := by
  have h' : (s.core n).hart.priv = .u ∨ ((s.core n).hart.priv = .s ∧ (s.core n).hart.csrBit mstatusN 20 = true) := h
  simp only [sfenceOp, M.run_bind_get, if_pos h', run_bind_illegal]

theorem sfenceOp_ok (h : (s.core n).hart.priv = .m ∨ ((s.core n).hart.priv = .s ∧ (s.core n).hart.csrBit 0x300 20 = false)) :
    Ok (sfenceOp r1 r2 n) s none (s.sfenced n ((s.core n).hart.sfencePicks r1 r2)) := by
  have h' : ¬((s.core n).hart.priv = .u ∨ ((s.core n).hart.priv = .s ∧ (s.core n).hart.csrBit mstatusN 20 = true)) := by
    rcases h with h | ⟨h, hv⟩
    · simp [h]
    · have hv' : (s.core n).hart.csrBit mstatusN 20 = false := hv
      simp [h, hv']
  simp only [Ok, sfenceOp, M.run_bind_get, if_neg h', M.run_bind_modify]
  rfl

end

/-- Settles O32: a fence is a release (`releaseAt_ok`), and `sfence.vma` a cut of two TLBs (`State.core_sfenced`). -/
theorem fences : Obligations.Fences := by
  unfold Obligations.Fences
  intro s n hb
  refine ⟨fun sc s1 hdrain hheld hswap => ?fence, fun r1 r2 h => runCore_trap hb (sfenceOp_illegal h), fun r1 r2 h => ?sfence,
    fun u a ha hc fm p q r1 rd => ?other⟩
  case fence =>
    have haside := s1.aside_takeCovered n sc
    refine ⟨s1.takeCovered n sc, runCore_ok hb ((releaseAt_ok sc hdrain hheld hswap).bind (.pure none _)), haside.mem, haside.sameBut,
      s1.takeCovered_stale n sc, fun hsys fm p q r1 rd => ?_⟩
    rw [hsys]
    exact exec_standardFence_core hb fm p q r1 rd
  case sfence =>
    have hpicks : (s.core n).hart.sfencePicks r1 r2 = fun e => (r1 == 0#5 || (decide (e.vbase ≤ ((s.core n).hart.get r1).toNat % 2 ^ 48) &&
        decide (((s.core n).hart.get r1).toNat % 2 ^ 48 < e.vbase + e.size))) &&
        (r2 == 0#5 || (!e.global && e.asid == ((s.core n).hart.get r2).toNat % 2 ^ 16)) := funext fun e => by
      rw [Hart.sfencePicks, Bool.decide_and]
    have hcore := s.core_sfenced n ((s.core n).hart.sfencePicks r1 r2)
    refine ⟨_, runCore_ok hb (sfenceOp_ok h), ?_, ?_, ?_, s.sameBut_sfenced n _, fun m hm => (hcore m).trans (if_neg hm)⟩
    · rw [hcore, if_pos rfl, ← hpicks]
      rfl
    · rw [hcore, if_pos rfl, ← hpicks]
      rfl
    · rw [State.sfenced_rest]
  case other =>
    refine runHart_ok (m := standardFenceOp) ha (pc := none) ?_
    cases a with
    | core n => cases hc
    | mgmt => rfl
    | lane o => rfl

end Sys2Proof.Machine
end

section
/-! O14. The register `numst` (R72, R73). -/
namespace Sys2Proof.Machine

/-- What a write stores in `numst` (R72): the flags that it does not clear, and its two enables. -/
theorem Hart.csrRaw_csrStore_numst (h : Hart) (v : W64) :
    (h.csrStore true 0x800 v).csrRaw 0x800 = (h.csrRaw 0x800 &&& ~~~v &&& 0x3F#64) ||| (v &&& 0x30000#64) := by
  simp [Hart.csrStore]

/-- The bits of the six flags. -/
theorem getLsbD_flagMask {i : Nat} (hi : i < 64) : (0x3F#64).getLsbD i = decide (i < 6) := by
  rw [show (0x3F#64 : W64) = BitVec.ofNat 64 (2 ^ 6 - 1) from rfl, BitVec.getLsbD_ofNat, Nat.testBit_two_pow_sub_one]
  simp [hi]

/-- The bits of the two enables. -/
theorem getLsbD_enableMask {i : Nat} (hi : i < 64) : (0x30000#64).getLsbD i = decide (i = 16 ∨ i = 17) := by
  revert i
  decide

/-- Settles O14: a write stores the bits of two masks, which lie apart, and the flags of a command are ORed into the register. -/
theorem numericStatus : Obligations.NumericStatus := by
  refine ⟨fun h v i hi => ?write, fun s n f => ?flags, rfl⟩
  case write =>
    rw [Hart.csrRaw_csrStore_numst]
    simp only [BitVec.getLsbD_or, BitVec.getLsbD_and, BitVec.getLsbD_not, getLsbD_flagMask hi, getLsbD_enableMask hi, hi, decide_true, Bool.true_and]
    by_cases hflag : i < 6
    · have henable : ¬(i = 16 ∨ i = 17) := by omega
      simp [hflag, henable]
    · by_cases henable : i = 16 ∨ i = 17 <;> simp [hflag, henable]
  case flags =>
    rw [State.orFlags, State.core_modCore, Hart.csrRaw_setCsrRaw]
    rfl

end Sys2Proof.Machine
end

section
/-! SUPPORT. An engine's write to a calm run of its own scratchpad (R129 to R136, R147). -/
namespace Sys2Proof.Machine

theorem forM_ok_mem {β : Type} {f : β → M PUnit} {s : State} {l : List β} (h : ∀ b ∈ l, Ok (f b) s ⟨⟩ s) : Ok (l.forM f) s ⟨⟩ s := by
  induction l with
  | nil => rfl
  | cons b r ih => exact (h b List.mem_cons_self).bind (ih fun x hx => h x (List.mem_cons_of_mem _ hx))

/-! ### Bank lines -/

section
variable {s : State} {n : Nat}

theorem Core.eccWords_noFlips {c : Core} (h : c.flips = []) (line : Nat) : c.eccWords line = (0, 0) := by
  simp [Core.eccWords, h]

/-- An access to a bank with no bad word changes nothing. -/
theorem bankAccess_clean (hflips : (s.core n).flips = []) (hstuck : (s.core n).stuck = []) (g r b : Nat) : Ok (bankAccess n g r b) s true s := by
  simp [Ok, bankAccess, Core.eccWords_noFlips hflips, hstuck]

theorem storeBankLine_mem (n off : Nat) (data : List Byte) (s : State) :
    ∃ t : State, Ok (storeBankLine n off data) s () t ∧ t.mem = Memory.writeList s.mem (spBase n + off) data := by
  refine ⟨((storeBankLine n off data).run s).2, ?run, ?mem⟩
  case run => simp only [Ok, storeBankLine, M.run_bind_modify, M.run_modify]
  case mem =>
    simp only [storeBankLine, M.run_bind_modify, M.run_modify]
    rfl

/-- A bank line of a HEALTHY group without bad words is written, whether or not its parity bank is free (R133). -/
theorem writeBankLine_clean {off : Nat} {data : List Byte} (hgroup : (s.core n).group (spGroup n off) = Group.reset)
    (hflips : (s.core n).flips = []) (hstuck : (s.core n).stuck = []) (hpois : (s.core n).linePois = []) :
    ∃ t : State, Ok (writeBankLine n off data) s () t ∧ t.mem = Memory.writeList s.mem (spBase n + off) data := by
  have hturn : Ok (groupTurn n (spGroup n off)) s () s := by simp [Ok, groupTurn, hgroup, Group.reset]
  let s1 : State := { s with freeNo := s.freeNo + 1 }
  have hfree : Ok freshBool s (Config.freeBool s.freeNo) s1 := rfl
  have haccess : ∀ b, Ok (bankAccess n (spGroup n off) (spRow n off) b) s1 true s1 := bankAccess_clean (s := s1) hflips hstuck _ _
  obtain ⟨t, hst, hmem⟩ := storeBankLine_mem n off data s1
  have hmerge : Ok (if partHalf off data.length = true then do
      let _ ← bankAccess n (spGroup n off) (spRow n off) (spBank off)
      pure () else pure () : M Unit) s1 () s1 := by
    split
    · exact (haccess _).bind rfl
    · rfl
  rw [writeBankLine]
  simp only [Ok, hturn.bind_run, M.run_bind_get, hpois, Table.get_nil, Bool.false_eq_true, and_false, if_false, hgroup, Group.reset,
    List.contains_nil, and_self, if_true, hfree.bind_run]
  cases Config.freeBool s.freeNo with
  | true =>
    simp only [if_true, hmerge.bind_run, hst.bind_run, M.run_modify]
    exact ⟨_, rfl, hmem⟩
  | false =>
    simp only [Bool.false_eq_true, if_false, (haccess _).bind_run, hst.bind_run, Bool.and_self, if_true, M.run_modify]
    exact ⟨_, rfl, hmem⟩

end

/-! ### A run of a calm pad -/

/-- A scratchpad lies in the window of its core (R95). -/
theorem spSize_le (n : Nat) : spSize n ≤ 0x1000000 := by
  unfold spSize
  split <;> norm_num

/-- An address of a scratchpad's window is a place of that scratchpad (R95). -/
theorem State.loc_sp (s : State) {pa n off : Nat} (hn : n < 288) (hpa : pa = spBase n + off) (hoff : off < spSize n) :
    s.loc pa = .sp n off := by
  have hsize := spSize_le n
  have hbase : pa = 0x020000000000 + n * 0x1000000 + off := hpa
  have hcore : (pa - 0x020000000000) / 0x1000000 = n := by omega
  have hplace : pa % 0x1000000 = off := by omega
  simp only [State.loc, State.norm_of_lt s (show pa < 2 ^ 51 by omega), if_neg (show ¬pa < 2 ^ 39 by omega),
    if_neg (show ¬pa < 0x010000000000 by omega), if_neg (show ¬pa < 0x010040000000 by omega), if_neg (show ¬pa < 0x020000000000 by omega),
    if_pos (show pa < 0x020000000000 + 288 * 0x1000000 by omega), hcore, hplace, if_pos hoff]

/-- The home of a scratchpad answers while its die is out of reset (R110). -/
theorem homeCheck_sp {s : State} {pa n off : Nat} (hloc : s.loc pa = .sp n off) (hup : s.inReset (dieOf n) = false) (q : Req) :
    Ok (homeCheck q pa) s () s := by
  simp [Ok, homeCheck, State.isMmio, State.isDram, State.down, hloc, hup]

section
variable {s : State} {n off : Nat} {data : List Byte} (h : s.CalmPad n off data.length)
include h

theorem State.CalmPad.ne_nil : data ≠ [] := List.ne_nil_of_length_pos h.fits.1

/-- A run within a 64-byte line is one piece of every larger cut. -/
theorem State.CalmPad.pieces_off {step : Nat} (hstep : step = 128 ∨ step = 1024) : pieces (data.length + 1) step off data = [(off, data)] := by
  obtain ⟨hpos, hline, -, -⟩ := h.fits
  refine pieces_single h.ne_nil ?_
  rcases hstep with rfl | rfl <;> omega

theorem State.CalmPad.pieces_base {step : Nat} (hstep : step = 128 ∨ step = 1024) :
    pieces (data.length + 1) step (spBase n + off) data = [(spBase n + off, data)] := by
  obtain ⟨hpos, hline, -, -⟩ := h.fits
  refine pieces_single h.ne_nil ?_
  rw [spBase]
  rcases hstep with rfl | rfl <;> omega

theorem State.CalmPad.loc : s.loc (spBase n + off) = .sp n off := by
  obtain ⟨-, -, hoff, hn⟩ := h.fits
  exact s.loc_sp hn rfl hoff

theorem State.CalmPad.homeCheck_ok (q : Req) : Ok (homeCheck q (spBase n + off)) s () s := homeCheck_sp h.loc h.up q

/-- The check of the line that a run lies in is good. -/
theorem State.CalmPad.lineGood : Table.get LineMeta.good s.lines (spBase n / 64 + off / 64) = LineMeta.good := by
  have hline : spBase n / 64 + off / 64 = (spBase n + off) / 64 := by rw [spBase]; omega
  rw [hline, h.line]

theorem State.CalmPad.spWrite_ok (w : Who) :
    ∃ t : State, Ok (spWrite w n off data) s () t ∧ t.mem = Memory.writeList s.mem (spBase n + off) data := by
  obtain ⟨hpos, hline, -, -⟩ := h.fits
  obtain ⟨hflips, hstuck, hpois⟩ := h.clean
  obtain ⟨t, hw, hmem⟩ := writeBankLine_clean (data := data) h.group hflips hstuck hpois
  refine ⟨_, Ok.bind (t := t) (a := ⟨⟩) ?run (M.run_modify _ _), ?mem⟩
  case mem => exact (mem_foldl _ _ (fun u l => u.breakResv_mem l _) t).trans hmem
  case run =>
    rw [h.pieces_off (.inr rfl)]
    refine Ok.bind (a := ⟨⟩) ?_ (Ok.pure _ _)
    simp only [if_neg (show data.length ≠ 1024 by omega)]
    rw [h.pieces_off (.inl rfl)]
    refine Ok.bind (a := ⟨⟩) ?_ (Ok.pure _ _)
    rw [Ok, M.run_bind_get]
    refine Ok.bind (forM_ok_mem fun l hl => ?_) hw
    have hl : l = off / 64 := by
      have := mem_span_iff.mp (List.mem_filter.mp hl).1
      dsimp only at this
      omega
    subst hl
    show Ok (if (Table.get LineMeta.good s.lines (spBase n / 64 + off / 64)).diff ≠ 0 then _ else pure ()) s ⟨⟩ s
    rw [h.lineGood]
    rfl

theorem State.CalmPad.writeRun_ok (q : Req) :
    ∃ t : State, Ok (writeRun q (spBase n + off) data) s () t ∧ t.mem = Memory.writeList s.mem (spBase n + off) data := by
  obtain ⟨t, hw, hmem⟩ := h.spWrite_ok q.who
  exact ⟨t, writeRun_oneStripe h.loc (h.pieces_base (.inr rfl)) (h.homeCheck_ok q) hw, hmem⟩

end

/-! ### An engine's access -/

/-- A physical address of the own scratchpad is a place of it (R147). -/
theorem Cx.localOff_bare {s : State} {c : Cx} {va off : Nat} (hbare : c.bare) (hva : va < 2 ^ 52) (hloc : s.loc va = .sp c.n off) (k : AccKind) :
    Ok (c.localOff k va) s off s := by
  have hbits : ¬bits c.f.org.satp.toNat 63 60 = 9 := hbare
  have hlegal : s.homeLegal homeCorepin va = true := by rw [State.homeLegal, hloc]; rfl
  have htrans : Ok (translateEng c.n c.f.org c.owner k va) s { pa := va, home := homeCorepin } s := by
    simp only [Ok, translateEng, translate, if_neg hbits, if_neg (Nat.not_le.mpr hva), M.run_bind_get, State.bareHome, hloc, checkHome, hlegal,
      if_true, M.run_pure]
  refine Ok.bind htrans.tryCatch ?_
  simp only [Ok, M.run_bind_get, hloc, if_true, M.run_pure]

theorem spBase_add_lt {n off : Nat} (hn : n < 288) (hoff : off < spSize n) : spBase n + off < 2 ^ 52 := by
  have hsize := spSize_le n
  have hbase : spBase n = 0x020000000000 + n * 0x1000000 := rfl
  omega

section
variable {s : State} {c : Cx} {off : Nat} {data : List Byte} (h : s.CalmPad c.n off data.length) (hbare : c.bare)
include h

theorem State.CalmPad.putBank_ok (whole : Bool) :
    ∃ t : State, Ok (c.putBank whole off data) s () t ∧ t.mem = Memory.writeList s.mem (spBase c.n + off) data := by
  obtain ⟨t, hw, hmem⟩ := h.writeRun_ok { who := c.who, cached := false }
  refine ⟨t, ?_, hmem⟩
  simp only [Ok, Cx.putBank, M.run_bind_get, h.clean.2.2, Table.get_nil, Bool.false_and, Bool.false_eq_true, if_false]
  exact hw

include hbare

theorem State.CalmPad.putLocal_ok (whole : Nat → Bool) :
    ∃ t : State, Ok (c.putLocal whole (spBase c.n + off) data) s () t ∧ t.mem = Memory.writeList s.mem (spBase c.n + off) data := by
  obtain ⟨hpos, hline, hoff, hn⟩ := h.fits
  have hlt := spBase_add_lt hn hoff
  have hva : (spBase c.n + off) % 2 ^ 64 = spBase c.n + off := Nat.mod_eq_of_lt (hlt.trans (by norm_num))
  have hplace : Ok (c.localOff .store (spBase c.n + off)) s off s := Cx.localOff_bare hbare hlt h.loc .store
  have hstripes : stripes (spBase c.n + off) data = [(spBase c.n + off, data)] := by
    rw [stripes, h.pieces_base (.inr rfl), List.flatMap_singleton, if_neg (show data.length ≠ 1024 by omega), h.pieces_base (.inl rfl)]
  obtain ⟨t, hw, hmem⟩ := h.putBank_ok (whole ((spBase c.n + off) / 128))
  have hrun : Ok (M.atRun (spBase c.n + off) (spBase c.n + off) (c.putBank (whole ((spBase c.n + off) / 128)) off data)) s () t := hw.tryCatch
  rw [Cx.putLocal, hstripes]
  cases htag : c.layTag with
  | none =>
    refine ⟨t, Ok.bind (a := ⟨⟩) ?_ (Ok.pure _ _), hmem⟩
    simp only [hva]
    exact hplace.bind hrun.bind_run
  | some tag =>
    refine ⟨_, Ok.bind (a := ⟨⟩) ?_ (Ok.pure _ _), (t.modCore_mem c.n fun k => k.setTags off data.length tag).trans hmem⟩
    simp only [hva]
    exact hplace.bind hrun.bind_run

end

end Sys2Proof.Machine
end

section
/-! SUPPORT. The sums of a product command, element by element (R90, R91), and the region of an accumulator that it lands in (R216). -/
namespace Sys2Proof.Machine

/-! ### The groups of an FP element (R90) -/

/-- A group of products added to an element, with one rounding; a group with no product adds nothing. -/
def fpGroup (mode : Rnd) (acc : Nat × Flags) : List (XVal × Flags) → Nat × Flags
  | [] => acc
  | t :: r =>
    let s := r.foldl (fun (u v : XVal × Flags) => (u.1.add v.1, u.2.or v.2)) t
    let x := ETy.fp32.value acc.1
    let w := FFmt.fp32.round .ieee mode (x.1.add s.1)
    (w.code, ((acc.2.or x.2).or s.2).or w.flags)

theorem fpElem_eq (mode : Rnd) (g kc x0 : Nat) (term : Nat → XVal × Flags) :
    fpElem mode g kc x0 (fun q => some (term q)) =
      (List.range ((kc + g - 1) / g)).foldl (fun acc q => fpGroup mode acc ((span (g * q) (min g (kc - g * q))).map term)) (x0, {}) := by
  rw [fpElem]
  congr 1
  funext acc q
  rw [show (fun q => some (term q)) = some ∘ term from rfl, List.filterMap_eq_map]
  cases (span (g * q) (min g (kc - g * q))).map term with | _ => rfl

theorem fst_foldl_add (l : List (XVal × Flags)) (t : XVal × Flags) :
    (l.foldl (fun (u v : XVal × Flags) => (u.1.add v.1, u.2.or v.2)) t).1 = (l.map Prod.fst).foldl XVal.add t.1 := by
  induction l generalizing t with
  | nil => rfl
  | cons x r ih => exact ih _

/-- The first group of a list of products, and the groups after it. -/
theorem groupSums_succ (mode : Rnd) (g k : Nat) (l : List XVal) (x : Nat × Flags) {ts : List (XVal × Flags)} (hne : ts ≠ [])
    (hl : l.take g = ts.map Prod.fst) : groupSums mode g (k + 1) l x.1 = groupSums mode g k (l.drop g) (fpGroup mode x ts).1 := by
  cases ts with
  | nil => exact absurd rfl hne
  | cons t r =>
    rw [groupSums, hl, fpGroup, fst_foldl_add]
    rfl

theorem take_drop_range (g a kc : Nat) : ((List.range kc).drop a).take g = span a (min g (kc - a)) := by
  refine List.ext_getElem ?_ fun i _ _ => ?_
  · simp [span]
  · simp [span]

theorem foldl_fpGroup (mode : Rnd) {g kc : Nat} (hg : 0 < g) (term : Nat → XVal × Flags) (k q : Nat) (acc : Nat × Flags)
    (hq : ∀ i < k, g * (q + i) < kc) :
    ((List.range' q k).foldl (fun acc q => fpGroup mode acc ((span (g * q) (min g (kc - g * q))).map term)) acc).1 =
      groupSums mode g k (((List.range kc).drop (g * q)).map fun j => (term j).1) acc.1 := by
  induction k generalizing q acc with
  | zero => rfl
  | succ k ih =>
    have hfirst : g * q < kc := hq 0 (Nat.succ_pos k)
    have hne : (span (g * q) (min g (kc - g * q))).map term ≠ [] := by
      have : min g (kc - g * q) ≠ 0 := by omega
      simpa [span] using this
    have htake : (((List.range kc).drop (g * q)).map fun j => (term j).1).take g = ((span (g * q) (min g (kc - g * q))).map term).map Prod.fst := by
      rw [← List.map_take, take_drop_range, List.map_map]
      rfl
    rw [groupSums_succ mode g k _ acc hne htake, ← List.map_drop, List.drop_drop, List.range'_succ, List.foldl_cons,
      ih (q + 1) _ fun i hi => by have := hq (i + 1) (by omega); rwa [show q + 1 + i = q + (i + 1) by omega]]
    rw [Nat.mul_succ]

/-- An FP element is the sum of its groups (R90). -/
theorem fpElem_groupSums (mode : Rnd) {g : Nat} (hg : 0 < g) (kc x0 : Nat) (term : Nat → XVal × Flags) :
    (fpElem mode g kc x0 fun q => some (term q)).1 = groupSums mode g ((kc + g - 1) / g) ((List.range kc).map fun j => (term j).1) x0 := by
  rw [fpElem_eq, List.range_eq_range', foldl_fpGroup mode hg term _ 0 _ fun i hi => ?_]
  · rw [Nat.mul_zero, List.drop_zero]
  · have hi' : i + 1 ≤ (kc + g - 1) / g := hi
    rw [Nat.le_div_iff_mul_le hg, Nat.succ_mul] at hi'
    rw [Nat.zero_add, Nat.mul_comm]
    omega

/-! ### The sum of an INT element (R91) -/

/-- While no sum passes 48 bits, an INT element is the exact sum. -/
theorem intElem_exact (x0 : Int) (term : Nat → Int × Flags) (kc : Nat)
    (h : ∀ m ≤ kc, -(2 ^ 47 : Int) ≤ x0 + ((List.range m).map fun j => (term j).1).sum ∧ x0 + ((List.range m).map fun j => (term j).1).sum < 2 ^ 47) :
    ∃ fl, intElem kc x0 false (fun q => some (term q)) = (x0 + ((List.range kc).map fun j => (term j).1).sum, false, fl) := by
  induction kc with
  | zero => exact ⟨{}, by simp [intElem]⟩
  | succ k ih =>
    obtain ⟨fl, hk⟩ := ih fun m hm => h m (by omega)
    obtain ⟨hlo, hhi⟩ := h (k + 1) (Nat.le_refl _)
    rw [List.range_succ, List.map_append, List.sum_append, List.map_singleton, List.sum_singleton, ← add_assoc] at hlo hhi ⊢
    rw [intElem] at hk ⊢
    rw [List.range_succ, List.foldl_append, hk]
    simp only [List.foldl_cons, List.foldl_nil, Bool.false_eq_true, if_false, if_neg (Int.not_lt.mpr hlo), if_neg (Int.not_le.mpr hhi)]
    exact ⟨_, rfl⟩

/-! ### Keys of an accumulator (R216) -/

/-- Places of an accumulator whose columns lie in it have keys of their own. -/
theorem accKey_inj {n acc r q r' q' : Nat} (hq : q < accDim n) (hq' : q' < accDim n) (h : accKey n acc r q = accKey n acc r' q') :
    r = r' ∧ q = q' := by
  have hsum : accDim n * r + q = accDim n * r' + q' := by
    rw [Nat.mul_comm _ r, Nat.mul_comm _ r']
    exact Nat.add_left_cancel (n := acc * (accDim n * accDim n)) (by rw [← Nat.add_assoc, ← Nat.add_assoc]; exact h)
  have hpos : 0 < accDim n := by omega
  have hrow := congrArg (· / accDim n) hsum
  have hcol := congrArg (· % accDim n) hsum
  simp only [Nat.mul_add_div hpos, Nat.div_eq_of_lt hq, Nat.div_eq_of_lt hq', Nat.add_zero] at hrow
  simp only [Nat.mul_add_mod, Nat.mod_eq_of_lt hq, Nat.mod_eq_of_lt hq'] at hcol
  exact ⟨hrow, hcol⟩

/-- The keys of an accumulator lie in its part of the table. -/
theorem accKey_mem {n acc r q : Nat} (hr : r < accDim n) (hq : q < accDim n) :
    acc * (accDim n * accDim n) ≤ accKey n acc r q ∧ accKey n acc r q < (acc + 1) * (accDim n * accDim n) := by
  rw [accKey, Nat.succ_mul]
  have : (r + 1) * accDim n ≤ accDim n * accDim n := Nat.mul_le_mul_right _ hr
  rw [Nat.succ_mul] at this
  omega

/-! ### A list of writes to a table -/

section
variable {α β : Type} [DecidableEq α] {d : α} (key : β → Nat) (val : β → α) (l : List β) (t : Table α)

/-- Of the writes of one key, all of one value, one at least leaves it. -/
theorem Table.get_foldl_put_of_mem {b : β} (hb : b ∈ l) (h : ∀ b' ∈ l, key b' = key b → val b' = val b) :
    Table.get d (l.foldl (fun t b => Table.put d t (key b) (val b)) t) (key b) = val b := by
  induction l using List.reverseRecOn with
  | nil => cases hb
  | append_singleton r x ih =>
    rw [List.foldl_append, List.foldl_cons, List.foldl_nil, Table.get_put]
    split
    next hx => exact h x (by simp) hx.symm
    next hx =>
      have hr : b ∈ r := by
        rcases List.mem_append.mp hb with hr | hr
        · exact hr
        · exact absurd (congrArg key (List.mem_singleton.mp hr)) hx
      exact ih hr fun b' hb' => h b' (List.mem_append_left _ hb')

/-- Writes of other keys leave a key alone. -/
theorem Table.get_foldl_put_ne {j : Nat} (h : ∀ b ∈ l, key b ≠ j) :
    Table.get d (l.foldl (fun t b => Table.put d t (key b) (val b)) t) j = Table.get d t j := by
  induction l generalizing t with
  | nil => rfl
  | cons x r ih =>
    rw [List.foldl_cons, ih _ fun b hb => h b (List.mem_cons_of_mem _ hb), Table.get_put_ne _ _ (h x List.mem_cons_self).symm]

end

/-- The places of a region, row by row. -/
theorem mem_region {m n : Nat} {e : Nat × Nat} : (e ∈ (List.range m).flatMap fun i => (List.range n).map fun j => (i, j)) ↔ e.1 < m ∧ e.2 < n := by
  obtain ⟨i, j⟩ := e
  simp

end Sys2Proof.Machine
end

section
/-! SUPPORT. A product command of one step (R220 to R226, R229, R230). -/
namespace Sys2Proof.Machine

/-! ### A command that ends with a fault (R67, R352) -/

/-- A fault that is no page fault ends the command, with the record of its cause to be written at its retirement. -/
theorem State.failsWith_engineFault (s : State) (n : Nat) (e : Eng) (f : Flight) {x : Flt} (hx : x.cause ≠ 3) :
    s.FailsWith (s.engineFault n e f.slot x) n e f x.cause := by
  rw [State.engineFault]
  cases hfind : (s.ring n e).flight.find? fun g => g.slot == f.slot with
  | none =>
    refine ⟨⟨rfl, rfl, fun _ _ => rfl⟩, fun _ _ => rfl, fun g hg hslot => absurd hfind fun hnone => ?_⟩
    exact List.find?_eq_none.mp hnone g hg (beq_iff_eq.mpr hslot)
  | some g =>
    have hslot : g.slot = f.slot := beq_iff_eq.mp (List.find?_some (p := fun g : Flight => g.slot == f.slot) hfind)
    simp only [if_neg fun h : x.cause = 3 ∧ x.detail = 1 => hx h.1]
    refine ⟨⟨rfl, ?here, fun m hm => State.core_modCore_ne _ _ hm⟩, fun k hk => ?rings, fun u hu hslotU => ?failed⟩
    case here =>
      rw [State.modFlight, State.core_setRing]
      rfl
    case rings =>
      show (State.core _ n).ring k = _
      rw [State.modFlight, State.core_setRing, Core.ring_setRing_ne _ _ hk]
      rfl
    case failed =>
      rw [State.modFlight, State.ring_setRing] at hu
      obtain ⟨v, hv, rfl⟩ := List.mem_map.mp hu
      by_cases hvs : v.slot = f.slot
      · simp only [if_pos hvs]
        exact ⟨_, rfl, rfl, rfl, congrArg BitVec.toNat hslot, rfl⟩
      · rw [if_neg hvs] at hslotU
        exact absurd hslotU hvs

/-- A command that meets a fault of its own making, which is no page fault. -/
theorem runEngine_fails {es : Eng → Bool} {m : Cx → M Bool} {s t : State} {n i : Nat} {e : Eng} {f : Flight} {x : Flt} (h : Working s n e i f)
    (he : es e = true) (hm : (m (s.cx n e f)).run s = (.error (.flt x), t)) (hx : x.cause ≠ 3) :
    ∃ u : State, runEngine es m s = .next u ∧ t.FailsWith u n e f x.cause :=
  ⟨_, runEngine_fault h he hm, t.failsWith_engineFault n e f hx⟩

theorem run_bind_flt {α β : Type} (cause detail aux aux2 : Nat) (k : α → M β) (s : State) :
    ((flt cause detail aux aux2 : M α) >>= k).run s = (.error (.flt { cause := cause, detail := detail, aux := aux, aux2 := aux2 }), s) := by
  rw [M.run_bind]
  rfl

/-! ### The product commands -/

theorem exec_product {x : Instr} {form : Nat} {h : Hdr} {a : MxArgs} (hx : productOf x = some (form, h, a)) (s : State) :
    exec x s = runEngine (· == .mx) (fun c => productOp form c h a) s := by
  rw [productOf.eq_def] at hx
  split at hx <;> cases hx
  all_goals rfl

theorem formG_pos (form : Nat) : 0 < formG form := by
  unfold formG
  split
  · decide
  · split <;> decide

/-! ### One step -/

/-- Counters that stand at their start move nothing. -/
theorem Nest.walk_start (f : Nat → Int) : Nest.walk [0, 0, 0, 0, 0, 0] f = 0 := by
  simp [Nest.walk, List.range_succ]

theorem addVa_zero {a : Nat} (h : a < 2 ^ 64) : addVa a 0 = a := by
  rw [addVa, Int.add_zero, wrap, ← Int.natCast_mod, Int.toNat_natCast, Nat.mod_eq_of_lt h]

theorem Cx.addr_lt (c : Cx) (w : Aop) : c.addr w < 2 ^ 64 := BitVec.isLt _

/-- A region that stays in the accumulator at every step does so at the first. -/
theorem Nest.region_fits {d : Nest} {k : Core} {n form : Nat} {a : MxArgs} (h : d.defect k n a form = none) (hcount : ∀ l < 6, d.count l = 1) :
    d.u 24 2 + d.tm ≤ accDim n ∧ d.u 26 2 + d.tn ≤ accDim n := by
  have hextent : ∀ f, d.extent f = (0, 0) := fun f => by
    simp [Nest.extent, List.range_succ, hcount]
  have hwithin : d.within n 12 (d.u 24 2) (d.u 26 2) d.tm d.tn = true := by
    unfold Nest.defect at h
    split at h
    · cases h
    · by_contra hw
      rw [if_pos (Bool.eq_false_iff.mpr hw)] at h
      cases h
  rw [Nest.within, hextent, hextent] at hwithin
  have := of_decide_eq_true hwithin
  omega

/-- What a step lands in its region: `val` by row and column. -/
def landedOf (n : Nat) (a : MxArgs) (d : Nest) (val : Nat → Nat → W64 × Bool × Flags) : Landed :=
  ((List.range d.tm).flatMap fun i => (List.range d.tn).map fun j => (i, j)).map fun ij =>
    (accKey n a.acc (d.u 24 2 + ij.1) (d.u 26 2 + ij.2), val ij.1 ij.2)

/-- The product of row `i` of A and column `j` of B at their place `q`, and its flags. -/
def fpTerm (a : MxArgs) (ta tb : Tile) (i j q : Nat) : XVal × Flags :=
  let x := mxVal ta.ty a.ctr (ta.at i q).1 (ta.at i q).2
  let y := mxVal tb.ty a.ctr (tb.at q j).1 (tb.at q j).2
  (x.1.mul y.1, x.2.or y.2)

def intTerm (a : MxArgs) (ta tb : Tile) (i j q : Nat) : Int × Flags :=
  let x := mxInt ta.ty a.ctr (ta.at i q).1 (ta.at i q).2
  let y := mxInt tb.ty a.ctr (tb.at q j).1 (tb.at q j).2
  (x.1 * y.1, x.2.or y.2)

/-- An element of the FP kind as a step computes it from the core `k` of its start. -/
def fpLands (n : Nat) (h : Hdr) (a : MxArgs) (form : Nat) (d : Nest) (k : Core) (ta tb : Tile) (i j : Nat) : W64 × Bool × Flags :=
  let r := fpElem h.mode (formG form) d.kc (k.accFp (accKey n a.acc (d.u 24 2 + i) (d.u 26 2 + j))) fun q => some (fpTerm a ta tb i j q)
  (BitVec.ofNat 64 r.1, false, r.2)

/-- An element of the INT kind; `stuck` tells those that are held at an end they passed (R91). -/
def intLands (n : Nat) (a : MxArgs) (d : Nest) (k : Core) (stuck : Nat → Bool) (ta tb : Tile) (i j : Nat) : W64 × Bool × Flags :=
  let key := accKey n a.acc (d.u 24 2 + i) (d.u 26 2 + j)
  let r := intElem d.kc (k.accI key) (stuck key) fun q => some (intTerm a ta tb i j q)
  (BitVec.ofInt 64 r.1, r.2.1, r.2.2)

/-- The command holds the element of a key at an end that its sum passed. -/
def Cx.holds (c : Cx) (s : State) (key : Nat) : Bool := (s.ring c.n c.e).flight.any fun f => f.slot == c.f.slot && f.stuck.contains key

/-- A step has landed: the accumulator written, the held elements noted, the flags ORed in. -/
def State.landed (s : State) (c : Cx) (l : Landed) : State :=
  ((s.modCore c.n fun k => { k with acc := l.foldl (fun t e => Table.put 0 t e.1 e.2.1) k.acc }).modFlight c.n c.e c.f.slot fun f =>
    { f with stuck := f.stuck ++ (l.filterMap fun e => if e.2.2.1 ∧ !f.stuck.contains e.1 then some e.1 else none) }).orFlags c.n
      (l.foldl (fun fl e => fl.or e.2.2.2) {})

/-- The first step of a nest, A and B plain tiles: it lands what it computes from the tiles it fetches. -/
theorem Cx.mxStep_start {c : Cx} {h : Hdr} {a : MxArgs} {form : Nat} {d : Nest} {ta tb : Tile} {s s1 s2 : State} (hche : a.che = false)
    (hspa : a.spa = 0) (hta : Ok (c.tile (d.u 8 4) (c.addr (BitVec.ofNat 32 (d.u 0 4))) d.tm d.kc) s ta s1)
    (htb : Ok (c.tile (d.u 12 4) (c.addr (BitVec.ofNat 32 (d.u 4 4))) d.kc d.tn) s1 tb s2) :
    Ok (c.mxStep h a form d [0, 0, 0, 0, 0, 0]) s () (s2.landed c (landedOf c.n a d
      (if d.isFp a form then fpLands c.n h a form d (s.core c.n) ta tb else intLands c.n a d (s.core c.n) (c.holds s) ta tb))) := by
  have hnof8 : a.nof8 = 0 := if_pos hspa
  have hatB : ∀ q j, tb.atB 0 q j = some (tb.at q j) := fun q j => if_pos rfl
  simp only [Ok, Cx.mxStep, M.run_bind_get, Nest.walk_start, Int.add_zero, Int.toNat_natCast, addVa_zero (c.addr_lt _), hche, hnof8, if_true,
    Bool.false_eq_true, if_false, hta.bind_run, htb.bind_run, hatB, Option.map_some]
  cases d.isFp a form with
  | true => rfl
  | false => rfl

end Sys2Proof.Machine
end

section
/-! SUPPORT. What a product command of one step leaves (R220 to R226). -/
namespace Sys2Proof.Machine

/-! ### What a step leaves -/

section
variable {s : State} {c : Cx} {l : Landed}

theorem State.landed_mem : (s.landed c l).mem = s.mem := rfl

theorem State.landed_core : (s.landed c l).core c.n =
    { s.core c.n with
      acc := l.foldl (fun t e => Table.put 0 t e.1 e.2.1) (s.core c.n).acc
      rings := ((s.landed c l).core c.n).rings
      hart := ((s.landed c l).core c.n).hart } := by
  simp only [State.landed, State.orFlags, State.modFlight, State.setRing, State.core_modCore]
  rfl

theorem State.landed_core_ne {m : Nat} (hm : m ≠ c.n) : (s.landed c l).core m = s.core m := by
  simp only [State.landed, State.orFlags, State.modFlight, State.setRing, State.core_modCore_ne _ _ hm]

theorem State.accGet_landed (j : Nat) :
    ((s.landed c l).core c.n).accGet j = Table.get 0 (l.foldl (fun t e => Table.put 0 t e.1 e.2.1) (s.core c.n).acc) j := by
  rw [State.landed_core]
  rfl

end

theorem mem_landedOf {n : Nat} {a : MxArgs} {d : Nest} {val : Nat → Nat → W64 × Bool × Flags} {e : Nat × W64 × Bool × Flags} :
    e ∈ landedOf n a d val ↔ ∃ i j, (i < d.tm ∧ j < d.tn) ∧ (accKey n a.acc (d.u 24 2 + i) (d.u 26 2 + j), val i j) = e := by
  simp only [landedOf, List.mem_map, mem_region, Prod.exists]

section
variable {s : State} {c : Cx} {a : MxArgs} {d : Nest} {val : Nat → Nat → W64 × Bool × Flags}

/-- Outside its region a step changes no element. -/
theorem State.accGet_landedOf_ne {j : Nat} (h : ∀ r < d.tm, ∀ q < d.tn, j ≠ accKey c.n a.acc (d.u 24 2 + r) (d.u 26 2 + q)) :
    ((s.landed c (landedOf c.n a d val)).core c.n).accGet j = (s.core c.n).accGet j := by
  rw [State.accGet_landed, Table.get_foldl_put_ne Prod.fst _ _ _ fun e he => ?_, Core.accGet]
  obtain ⟨r, q, ⟨hr, hq⟩, rfl⟩ := mem_landedOf.mp he
  exact (h r hr q hq).symm

/-- In its region, which lies in the accumulator, a step leaves each element what it landed there. -/
theorem State.accGet_landedOf (hfit : d.u 26 2 + d.tn ≤ accDim c.n) {r q : Nat} (hr : r < d.tm) (hq : q < d.tn) :
    ((s.landed c (landedOf c.n a d val)).core c.n).accGet (accKey c.n a.acc (d.u 24 2 + r) (d.u 26 2 + q)) = (val r q).1 := by
  rw [State.accGet_landed]
  refine Table.get_foldl_put_of_mem Prod.fst (fun e => e.2.1) _ _ (mem_landedOf.mpr ⟨r, q, ⟨hr, hq⟩, rfl⟩) fun e he hkey => ?_
  obtain ⟨r', q', ⟨-, hq'⟩, rfl⟩ := mem_landedOf.mp he
  obtain ⟨hrow, hcol⟩ := accKey_inj (by omega) (by omega) hkey
  rw [Nat.add_left_cancel hrow, Nat.add_left_cancel hcol]

end

/-! ### The command -/

section
variable {s s1 : State} {n i : Nat} {f : Flight} {x : Instr} {form : Nat} {h : Hdr} {a : MxArgs} {d : Nest}

theorem exec_product_defect (hw : Working s n .mx i f) (hx : productOf x = some (form, h, a)) {w : Nat} (hf : f.latch = none)
    (hlatch : Ok ((s.cx n .mx f).latch a) s d s1) (hdefect : d.defect (s1.core n) n a form = some w) :
    ∃ t : State, exec x s = .next t ∧ s1.FailsWith t n .mx f 1 := by
  rw [exec_product hx]
  refine runEngine_fails (x := { cause := 1, detail := w }) hw rfl ?_ (show (1 : Nat) ≠ 3 by decide)
  have hf' : (s.cx n .mx f).f.latch = none := hf
  have hdefect' : d.defect (s1.core (s.cx n .mx f).n) (s.cx n .mx f).n a form = some w := hdefect
  simp only [productOp, hlatch.bind_run, M.run_bind_get, if_pos hf', hdefect', run_bind_flt]

/-- The descriptor is latched, and a drop of copies that is due takes effect (R223, R224). -/
def State.latched (s : State) (n : Nat) (f : Flight) (d : Nest) : State :=
  (s.modFlight n .mx f.slot fun f => { f with latch := some d.d }).modCore n Core.dropIfDue

/-- The accumulator is cleared where Z asks it (R230). -/
def State.zeroed (s : State) (n : Nat) (f : Flight) (a : MxArgs) (form : Nat) (d : Nest) : State :=
  if a.z then (s.modCore n (Core.accClear n a.acc (!d.isFp a form))).modFlight n .mx f.slot fun f => { f with prog := { f.prog with z := true } }
  else s

/-- The command stands before its first step. -/
def State.atStart (s : State) (n : Nat) (f : Flight) : State :=
  s.modFlight n .mx f.slot fun f => { f with prog := { f.prog with n := [0, 0, 0, 0, 0, 0] } }

theorem nextCount_single : nextCount [1, 1, 1, 1, 1, 1] [0, 0, 0, 0, 0, 0] = none := rfl

/-- A nest of single counts is one step. -/
theorem Cx.mxLoop_single {c : Cx} {t : State} (hcount : ∀ l < 6, d.count l = 1) (hleft : s.left = none)
    (hstep : Ok (c.mxStep h a form d [0, 0, 0, 0, 0, 0]) (s.modFlight c.n c.e c.f.slot fun f => { f with prog := { f.prog with n := [0, 0, 0, 0, 0, 0] } }) () t) :
    Ok (c.mxLoop h a form d (((List.range 6).map d.count).foldl (· * ·) 1) [0, 0, 0, 0, 0, 0]) s () t := by
  have hcounts : (List.range 6).map d.count = [1, 1, 1, 1, 1, 1] := List.map_congr_left (g := fun _ => 1) fun l hl => hcount l (List.mem_range.mp hl)
  have hb : ∀ u : State, u.left = none → Ok (boundary none) u () u := fun u hu => by simp [Ok, boundary, hu]
  rw [hcounts]
  show Ok (c.mxLoop h a form d (0 + 1) [0, 0, 0, 0, 0, 0]) s () t
  simp only [Ok, Cx.mxLoop, Cx.modFlight, M.run_bind_modify, hcounts, nextCount_single]
  refine Ok.bind (hb _ ?_) (hstep.bind (Ok.pure _ _))
  exact hleft

theorem exec_product_single (hw : Working s n .mx i f) (hx : productOf x = some (form, h, a)) (hf : f.latch = none) (hn : f.prog.n = [])
    (hz : f.prog.z = false) (hlatch : Ok ((s.cx n .mx f).latch a) s d s1) (hleft : s1.left = none) (hdefect : d.defect (s1.core n) n a form = none)
    (hcount : ∀ l < 6, d.count l = 1) {t : State}
    (hstep : Ok ((s.cx n .mx f).mxStep h a form d [0, 0, 0, 0, 0, 0]) (((s1.latched n f d).zeroed n f a form d).atStart n f) () t) :
    exec x s = .next (t.doneFlight n .mx f) := by
  rw [exec_product hx]
  refine runEngine_done hw rfl ?_
  have hf' : (s.cx n .mx f).f.latch = none := hf
  have hn' : (s.cx n .mx f).f.prog.n = [] := hn
  have hz' : (s.cx n .mx f).f.prog.z = false := hz
  have hdefect' : d.defect (s1.core (s.cx n .mx f).n) (s.cx n .mx f).n a form = none := hdefect
  have hzleft : ((s1.latched n f d).zeroed n f a form d).left = none := by
    unfold State.zeroed
    split <;> exact hleft
  have hloop := Cx.mxLoop_single hcount hzleft hstep
  simp only [Ok, productOp, hlatch.bind_run, M.run_bind_get, if_pos hf', hdefect', Cx.modFlight, M.run_bind_modify, hn', hz', if_true, and_true]
  by_cases hza : a.z = true
  · simp only [if_pos hza, M.run_bind_modify]
    rw [State.zeroed, if_pos hza] at hloop
    exact hloop.bind_run
  · simp only [if_neg hza]
    rw [State.zeroed, if_neg hza] at hloop
    exact hloop.bind_run

end
end Sys2Proof.Machine
end

section
/-! SUPPORT. ACC.LD and ACC.SCALE (R235, R236). -/
namespace Sys2Proof.Machine

/-! ### What the accumulator commands run -/

section
variable (h : Hdr) (a : MxArgs) (s : State)

theorem exec_accLd : exec (.accLd h a) s = runEngine (· == .mx) (fun c => accLdBody c a) s := rfl

theorem exec_accSt : exec (.accSt h a) s = runEngine (· == .mx) (fun c => accStBody c h a) s := rfl

theorem exec_accScale : exec (.accScale h a) s = runEngine (· == .mx) (fun c => accScaleBody c h a) s := rfl

end

/-! ### Loads (R235) -/

section
variable {s s1 : State} {n i : Nat} {f : Flight} {h : Hdr} {a : MxArgs}

theorem accLd_fails (hw : Working s n .mx i f) (hz : a.z = false) (hmode : (s.core n).accMode a.acc ≠ (tyOf (layTy a.lay)).isInt) :
    ∃ u : State, exec (.accLd h a) s = .next u ∧ s.FailsWith u n .mx f 1 := by
  rw [exec_accLd]
  refine runEngine_fails (x := { cause := 1, detail := 0x80 }) hw rfl ?_ (show (1 : Nat) ≠ 3 by decide)
  have hc : a.z = false ∧ (s.core (s.cx n .mx f).n).accMode a.acc ≠ intMem (tyOf (layTy a.lay)) := ⟨hz, hmode⟩
  simp only [accLdBody, M.run_bind_get, if_pos hc, run_bind_flt]

/-- What an element of a memory type is in an accumulator. -/
def accOf (t : ETy) (code : Nat) : W64 :=
  if t.isInt then BitVec.ofInt 64 (t.intVal code) else BitVec.ofNat 64 (if t = .bf16 then code * 65536 else code)

/-- The writes of an ACC.LD, from the rows that it has read. -/
def ldPuts (n : Nat) (a : MxArgs) (rows : List (List Byte)) : List (Nat × W64) :=
  rows.zipIdx.flatMap fun (r : List Byte × Nat) => (List.range (regionOf a).2.1).map fun q =>
    (accKey n a.acc (a.row0 + ((regionOf a).2.2 r.2 q).1) (a.col0 + ((regionOf a).2.2 r.2 q).2),
      accOf (tyOf (layTy a.lay)) ((tyOf (layTy a.lay)).inRow r.1 q))

def State.accLoaded (s : State) (n : Nat) (a : MxArgs) (rows : List (List Byte)) : State :=
  (if a.z then s.modCore n (Core.accClear n a.acc (tyOf (layTy a.lay)).isInt) else s).modCore n fun k =>
    { k with acc := (ldPuts n a rows).foldl (fun m p => Table.put 0 m p.1 p.2) k.acc }

theorem accLd_loads {rows : List (List Byte)} (hw : Working s n .mx i f)
    (hrows : let c := s.cx n .mx f
      Ok ((List.range (regionOf a).1).mapM fun ρ => c.unswizzled (c.addr a.addr + ρ * layPitch a.lay) (swzMask (laySpan a.lay) ρ) 0
        ((tyOf (layTy a.lay)).bytes (regionOf a).2.1)) s rows s1)
    (hmode : a.z = true ∨ (s.core n).accMode a.acc = (tyOf (layTy a.lay)).isInt) :
    exec (.accLd h a) s = .next ((s1.accLoaded n a rows).doneFlight n .mx f) := by
  rw [exec_accLd]
  refine runEngine_done hw rfl ?_
  have hc : ¬(a.z = false ∧ (s.core (s.cx n .mx f).n).accMode a.acc ≠ intMem (tyOf (layTy a.lay))) := fun hc =>
    hmode.elim (fun hz => Bool.false_ne_true (hc.1.symm.trans hz)) hc.2
  dsimp only at hrows
  simp only [Ok, accLdBody, M.run_bind_get, if_neg hc, hrows.bind_run]
  by_cases hz : a.z = true
  · simp only [if_pos hz, M.run_bind_modify, State.accLoaded]
    rfl
  · simp only [if_neg hz, M.run_bind_modify, State.accLoaded]
    rfl

end

section
variable {s : State} {n : Nat} {a : MxArgs} {rows : List (List Byte)}

theorem State.accLoaded_mem : (s.accLoaded n a rows).mem = s.mem := by
  rw [State.accLoaded]
  split <;> rfl

theorem State.accLoaded_mode (hz : a.z = true) : ((s.accLoaded n a rows).core n).accMode a.acc = (tyOf (layTy a.lay)).isInt := by
  rw [State.accLoaded, if_pos hz, State.core_modCore, State.core_modCore]
  exact Table.get_put_same _ _ _

theorem mem_ldPuts {p : Nat × W64} : p ∈ ldPuts n a rows ↔ ∃ ρ q, (ρ < rows.length ∧ q < (regionOf a).2.1) ∧
    (accKey n a.acc (a.row0 + ((regionOf a).2.2 ρ q).1) (a.col0 + ((regionOf a).2.2 ρ q).2),
      accOf (tyOf (layTy a.lay)) ((tyOf (layTy a.lay)).inRow (rows.getD ρ []) q)) = p := by
  simp only [ldPuts, List.mem_flatMap, List.mem_map, List.mem_range, Prod.exists, List.mem_zipIdx_iff_getElem?]
  constructor
  · rintro ⟨r, ρ, hr, q, hq, rfl⟩
    exact ⟨ρ, q, ⟨(List.getElem?_eq_some_iff.mp hr).1, hq⟩, by rw [List.getD_eq_getElem?_getD, hr]; rfl⟩
  · rintro ⟨ρ, q, ⟨hρ, hq⟩, rfl⟩
    refine ⟨rows[ρ], ρ, List.getElem?_eq_getElem hρ, q, hq, ?_⟩
    rw [List.getD_eq_getElem?_getD, List.getElem?_eq_getElem hρ]
    rfl

/-- The element of the region at a row and position of memory lies in the region, and no other row and position has it. -/
theorem regionOf_spec (a : MxArgs) {ρ q : Nat} (hρ : ρ < (regionOf a).1) (hq : q < (regionOf a).2.1) :
    ((regionOf a).2.2 ρ q).1 < a.nr ∧ ((regionOf a).2.2 ρ q).2 < a.nc ∧ ∀ ρ' q', (regionOf a).2.2 ρ' q' = (regionOf a).2.2 ρ q → ρ' = ρ ∧ q' = q := by
  unfold regionOf at hρ hq ⊢
  split
  next ht =>
    rw [if_pos ht] at hρ hq
    exact ⟨hq, hρ, fun ρ' q' h => ⟨congrArg Prod.snd h, congrArg Prod.fst h⟩⟩
  next ht =>
    rw [if_neg ht] at hρ hq
    exact ⟨hρ, hq, fun ρ' q' h => ⟨congrArg Prod.fst h, congrArg Prod.snd h⟩⟩

theorem State.accGet_accLoaded (hcol : a.col0 + a.nc ≤ accDim n) (hlen : rows.length = (regionOf a).1) {ρ q : Nat}
    (hρ : ρ < (regionOf a).1) (hq : q < (regionOf a).2.1) :
    ((s.accLoaded n a rows).core n).accGet (accKey n a.acc (a.row0 + ((regionOf a).2.2 ρ q).1) (a.col0 + ((regionOf a).2.2 ρ q).2)) =
      accOf (tyOf (layTy a.lay)) ((tyOf (layTy a.lay)).inRow (rows.getD ρ []) q) := by
  obtain ⟨-, hin, hinj⟩ := regionOf_spec a hρ hq
  rw [State.accLoaded, State.core_modCore]
  refine Table.get_foldl_put_of_mem Prod.fst Prod.snd _ _ (mem_ldPuts.mpr ⟨ρ, q, ⟨hlen ▸ hρ, hq⟩, rfl⟩) fun p hp hkey => ?_
  obtain ⟨ρ', q', ⟨hρ', hq'⟩, rfl⟩ := mem_ldPuts.mp hp
  obtain ⟨-, hin', -⟩ := regionOf_spec a (hlen ▸ hρ') hq'
  obtain ⟨hr, hc⟩ := accKey_inj (by omega) (by omega) hkey
  obtain ⟨rfl, rfl⟩ := hinj ρ' q' (Prod.ext (Nat.add_left_cancel hr) (Nat.add_left_cancel hc))
  rfl

end

theorem length_of_mapM_ok {α β : Type} {f : β → M α} {l : List β} {s t : State} {r : List α} (h : Ok (l.mapM f) s r t) : r.length = l.length := by
  induction l generalizing s r t with
  | nil =>
    rw [List.mapM_nil] at h
    obtain ⟨rfl, -⟩ := h.det (Ok.pure _ _)
    rfl
  | cons x l ih =>
    rw [List.mapM_cons] at h
    obtain ⟨y, u, -, h⟩ := h.of_bind
    obtain ⟨ys, v, hys, h⟩ := h.of_bind
    obtain ⟨rfl, -⟩ := h.det (Ok.pure _ _)
    rw [List.length_cons, List.length_cons, ih hys]

/-! ### Scaling (R236) -/

section
variable {s s1 : State} {n i : Nat} {f : Flight} {h : Hdr} {a : MxArgs}

theorem accScale_fails (hw : Working s n .mx i f) (hmode : (s.core n).accMode a.acc = true) :
    ∃ u : State, exec (.accScale h a) s = .next u ∧ s.FailsWith u n .mx f 1 := by
  rw [exec_accScale]
  refine runEngine_fails (x := { cause := 1, detail := 0x80 }) hw rfl ?_ (show (1 : Nat) ≠ 3 by decide)
  have hc : (s.core (s.cx n .mx f).n).accMode a.acc = true := hmode
  simp only [accScaleBody, M.run_bind_get, if_pos hc, run_bind_flt]

/-- What an ACC.SCALE makes of the element at a row and column, from the core of its start and the scale vector. -/
def scaled (n : Nat) (h : Hdr) (a : MxArgs) (k : Core) (sc : List Byte) (r q : Nat) : ERes :=
  let y := ETy.fp32.value (fieldOf sc (4 * ((if a.b11 then r else q) / 2 ^ a.gsh)) 4)
  let x := k.accVal a.acc (accKey n a.acc r q)
  let v := k.accVal a.asrc (accKey n a.asrc r q)
  if a.asrc = a.acc then ETy.fp32.result h (x.1.mul y.1) (x.2.or y.2) else ETy.fp32.result h (x.1.add (v.1.mul y.1)) ((x.2.or v.2).or y.2)

def scalePuts (n : Nat) (h : Hdr) (a : MxArgs) (k : Core) (sc : List Byte) : List (Nat × ERes) :=
  ((List.range (accDim n)).flatMap fun r => (List.range (accDim n)).map fun q => (r, q)).map fun e =>
    (accKey n a.acc e.1 e.2, scaled n h a k sc e.1 e.2)

def State.accScaled (s : State) (n : Nat) (l : List (Nat × ERes)) : State :=
  (s.modCore n fun k => { k with acc := l.foldl (fun m p => Table.put 0 m p.1 (BitVec.ofNat 64 p.2.1)) k.acc }).orFlags n
    (l.foldl (fun fl p => fl.or p.2.2.1) {})

theorem accScale_scales {sc : List Byte} (hw : Working s n .mx i f) (hmode : (s.core n).accMode a.acc = false)
    (hsc : Ok ((s.cx n .mx f).readLocal ((s.cx n .mx f).addr a.addr) (4 * accDim n)) s sc s1) :
    exec (.accScale h a) s = .next ((s1.accScaled n (scalePuts n h a (s.core n) sc)).doneFlight n .mx f) := by
  rw [exec_accScale]
  refine runEngine_done hw rfl ?_
  have hc : ¬(s.core (s.cx n .mx f).n).accMode a.acc = true := fun h => Bool.false_ne_true (hmode.symm.trans h)
  have hsc' : Ok ((s.cx n .mx f).readLocal ((s.cx n .mx f).addr a.addr) (4 * accDim (s.cx n .mx f).n)) s sc s1 := hsc
  simp only [Ok, accScaleBody, M.run_bind_get, if_neg hc, hsc'.bind_run, M.run_bind_modify]
  rfl

theorem mem_scalePuts {k : Core} {sc : List Byte} {p : Nat × ERes} : p ∈ scalePuts n h a k sc ↔
    ∃ r q, (r < accDim n ∧ q < accDim n) ∧ (accKey n a.acc r q, scaled n h a k sc r q) = p := by
  simp only [scalePuts, List.mem_map, mem_region, Prod.exists]

theorem State.accGet_accScaled (l : List (Nat × ERes)) (j : Nat) :
    ((s.accScaled n l).core n).accGet j = Table.get 0 (l.foldl (fun m p => Table.put 0 m p.1 (BitVec.ofNat 64 p.2.1)) (s.core n).acc) j := by
  rw [State.accScaled, State.orFlags, State.core_modCore, State.core_modCore]
  rfl

theorem State.accGet_accScaled_ne {k : Core} {sc : List Byte} {j : Nat}
    (hj : j < a.acc * (accDim n * accDim n) ∨ (a.acc + 1) * (accDim n * accDim n) ≤ j) :
    ((s.accScaled n (scalePuts n h a k sc)).core n).accGet j = (s.core n).accGet j := by
  rw [State.accGet_accScaled, Table.get_foldl_put_ne Prod.fst (fun p : Nat × ERes => BitVec.ofNat 64 p.2.1) _ _ fun p hp => ?_, Core.accGet]
  obtain ⟨r, q, ⟨hr, hq⟩, rfl⟩ := mem_scalePuts.mp hp
  obtain ⟨hlo, hhi⟩ := accKey_mem (acc := a.acc) hr hq
  dsimp only
  omega

theorem State.accGet_accScaled_key {k : Core} {sc : List Byte} {r q : Nat} (hr : r < accDim n) (hq : q < accDim n) :
    ((s.accScaled n (scalePuts n h a k sc)).core n).accGet (accKey n a.acc r q) = BitVec.ofNat 64 (scaled n h a k sc r q).1 := by
  rw [State.accGet_accScaled]
  refine Table.get_foldl_put_of_mem Prod.fst (fun p => BitVec.ofNat 64 p.2.1) _ _ (mem_scalePuts.mpr ⟨r, q, ⟨hr, hq⟩, rfl⟩) fun p hp hkey => ?_
  obtain ⟨r', q', ⟨-, hq'⟩, rfl⟩ := mem_scalePuts.mp hp
  obtain ⟨rfl, rfl⟩ := accKey_inj hq' hq hkey
  rfl

/-- A scaled element of an FP accumulator is the product, or the sum with the product of the other accumulator, rounded once (R236). -/
theorem scaled_fst {k : Core} (sc : List Byte) (hmode : k.accMode a.acc = false) (r q : Nat) :
    let y := FFmt.fp32.value (leNat ((sc.drop (4 * ((if a.b11 then r else q) / 2 ^ a.gsh))).take 4))
    let x := FFmt.fp32.value (k.accFp (accKey n a.acc r q))
    (scaled n h a k sc r q).1 = (FFmt.fp32.round h.ovm h.mode
      (if a.asrc = a.acc then x.mul y else x.add ((k.accVal a.asrc (accKey n a.asrc r q)).1.mul y))).code := by
  have hval : k.accVal a.acc (accKey n a.acc r q) = ETy.fp32.value (k.accFp (accKey n a.acc r q)) :=
    if_neg fun h => Bool.false_ne_true (hmode.symm.trans h)
  dsimp only
  rw [scaled]
  simp only [hval]
  split <;> rfl

end

end Sys2Proof.Machine
end

section
/-! SUPPORT. ACC.ST of one row into a calm scratchpad (R235). -/
namespace Sys2Proof.Machine

/-! ### A run that is written whole -/

/-- After a part that comes to its end in a state that satisfies `P`, the rest runs from there. -/
theorem Ok.exists_bind {α β : Type} {m : M α} {f : α → M β} {s : State} {a : α} {b : β} {P Q : State → Prop} (hm : ∃ t, Ok m s a t ∧ P t)
    (hf : ∀ t, P t → ∃ u, Ok (f a) t b u ∧ Q u) : ∃ u, Ok (m >>= f) s b u ∧ Q u := by
  obtain ⟨t, ht, hP⟩ := hm
  obtain ⟨u, hu, hQ⟩ := hf t hP
  exact ⟨u, ht.bind hu, hQ⟩

theorem Ok.exists_forM_one {f : Nat → M PUnit} {s : State} {P : State → Prop} (h : ∃ t, Ok (f 0) s ⟨⟩ t ∧ P t) :
    ∃ t, Ok ((List.range 1).forM f) s ⟨⟩ t ∧ P t :=
  Ok.exists_bind h fun t ht => ⟨t, Ok.pure _ _, ht⟩

theorem setRuns_replicate (n st k : Nat) (h : 0 < k + n) : setRuns (List.replicate n true) st k = [(st, k + n)] := by
  induction n generalizing k with
  | zero =>
    have hk : ¬k = 0 := by omega
    rw [List.replicate_zero, setRuns, if_neg hk]
    rfl
  | succ n ih =>
    rw [List.replicate_succ, setRuns, if_pos rfl, ih (k + 1) (by omega), Nat.add_right_comm, Nat.add_assoc]

theorem setRuns_all {has : Nat → Bool} {len : Nat} (hlen : 0 < len) (h : ∀ o < len, has o = true) :
    setRuns ((span 0 len).map has) 0 0 = [(0, len)] := by
  have hall : (span 0 len).map has = List.replicate len true := List.eq_replicate_iff.mpr ⟨by simp [span], fun b hb => by
    obtain ⟨o, ho, rfl⟩ := List.mem_map.mp hb
    have := mem_span_iff.mp ho
    exact h o (by omega)⟩
  rw [hall, setRuns_replicate _ _ _ (by omega), Nat.zero_add]

section
variable {s : State} {c : Cx} {off : Nat} {data : List Byte} (h : s.CalmPad c.n off data.length)
include h

theorem State.CalmPad.cutBanks_base : cutBanks (spBase c.n + off) data.length = [(0, data.length)] := by
  obtain ⟨hpos, hline, -, -⟩ := h.fits
  have hzeros : s.CalmPad c.n off (List.replicate data.length (0 : Byte)).length := by rwa [List.length_replicate]
  have hone := fun step hstep => hzeros.pieces_base (step := step) hstep
  simp only [List.length_replicate] at hone
  rw [cutBanks, hone 1024 (.inr rfl), List.flatMap_singleton, List.length_replicate, if_neg (by omega), hone 128 (.inl rfl)]
  simp

/-- A run of which every byte is picked is written as it is. -/
theorem State.CalmPad.putMasked_ok (hbare : c.bare) (whole : Nat → Bool) {has : Nat → Bool} (hhas : ∀ o < data.length, has o = true)
    {bytes : Nat → Nat → List Byte} (hbytes : bytes 0 data.length = data) :
    ∃ t : State, Ok (c.putMasked whole 0 (spBase c.n + off) data.length has bytes fun _ _ => pure ()) s () t ∧
      t.mem = Memory.writeList s.mem (spBase c.n + off) data := by
  obtain ⟨hpos, hline, -, -⟩ := h.fits
  obtain ⟨t, ht, hmem⟩ := h.putLocal_ok hbare whole
  refine ⟨t, ?_, hmem⟩
  have hlen : ¬(data.length = 1024 ∧ (span 0 1024).all has = false) := by omega
  rw [Cx.putMasked, h.cutBanks_base]
  simp only [List.flatMap_singleton, if_neg hlen]
  refine Ok.bind (a := ⟨⟩) ?_ (Ok.pure _ _)
  simp only [Nat.lt_irrefl, if_false, setRuns_all hpos hhas]
  refine Ok.bind (a := ⟨⟩) (Ok.at _ _ (Ok.bind (a := ⟨⟩) ?_ (Ok.pure _ _))) (Ok.pure _ _)
  simp only [Nat.add_zero, hbytes]
  exact ht

end

/-! ### Stores (R235) -/

theorem rowBytes_fp32 (l : List Nat) : ETy.fp32.rowBytes l = l.flatMap (leBytes 4) := by
  induction l with
  | nil => rfl
  | cons x r ih =>
    cases r with
    | nil => exact (List.append_nil _).symm
    | cons y r => rw [ETy.rowBytes, if_neg (by decide), ih]; rfl

theorem map_getD_span (l : List Byte) : ((span 0 l.length).map fun b => l.getD b 0) = l := by
  refine List.ext_getElem (by simp [span]) fun i _ h => ?_
  simp [span, List.getElem?_eq_getElem h]

theorem accOut_fp32 {k : Core} {acc : Nat} (h : Hdr) (hmode : k.accMode acc = false) (key : Nat) :
    (k.accOut h acc key .fp32).1 = (FFmt.fp32.round h.ovm h.mode (FFmt.fp32.value (k.accFp key))).code := by
  have hval : k.accVal acc key = ETy.fp32.value (k.accFp key) := if_neg fun h => Bool.false_ne_true (hmode.symm.trans h)
  rw [Core.accOut, if_neg (by simp [hmode]), hval]
  rfl

section
variable {s : State} {n i : Nat} {f : Flight} {h : Hdr} {a : MxArgs}

theorem accSt_fails (hw : Working s n .mx i f)
    (hmode : ((s.core n).accMode a.acc = true ∧ (tyOf (layTy a.lay)).isInt = false ∧ (tyOf (layTy a.lay) ≠ .fp32 ∨ h.ovm ≠ .ieee)) ∨
      ((s.core n).accMode a.acc = false ∧ (tyOf (layTy a.lay)).isInt = true)) :
    ∃ u : State, exec (.accSt h a) s = .next u ∧ s.FailsWith u n .mx f 1 := by
  rw [exec_accSt]
  refine runEngine_fails (x := { cause := 1, detail := 0x80 }) hw rfl ?_ (show (1 : Nat) ≠ 3 by decide)
  have hc : ((s.core (s.cx n .mx f).n).accMode a.acc = true ∧ (!(intMem (tyOf (layTy a.lay)) || (tyOf (layTy a.lay) == .fp32 && h.ovm == .ieee))) = true) ∨
      ((s.core (s.cx n .mx f).n).accMode a.acc = false ∧ intMem (tyOf (layTy a.lay)) = true) := by
    refine hmode.imp_left fun ⟨hint, hfp, hother⟩ => ⟨hint, ?_⟩
    rw [intMem, hfp]
    rcases hother with ht | ho
    · simp [ht]
    · simp [ho]
  simp only [accStBody, M.run_bind_get, if_pos hc, run_bind_flt]

/-- The bytes of a row of an FP accumulator as FP32. -/
def accRow (n : Nat) (a : MxArgs) (k : Core) : List Byte :=
  (List.range a.nc).flatMap fun q => leBytes 4 (k.accFp (accKey n a.acc (a.row0 + 0) (a.col0 + q)))

theorem length_accRow (k : Core) : (accRow n a k).length = 4 * a.nc := by
  simp [accRow, length_leBytes, List.length_flatMap, Nat.mul_comm]

theorem accSt_row {off : Nat} (hw : Working s n .mx i f) (ht : tyOf (layTy a.lay) = .fp32) (hmode : (s.core n).accMode a.acc = false)
    (hovm : h.ovm ≠ .gaz) (hoff : f.prog.off = 0) (hnr : a.nr = 1) (htr : layTr a.lay = false) (hbare : (s.cx n .mx f).bare) (hleft : s.left = none)
    (hbase : (s.cx n .mx f).addr a.addr = spBase n + off) (hcalm : s.CalmPad n off (4 * a.nc))
    (hround : ∀ q < a.nc, let x := (s.core n).accFp (accKey n a.acc (a.row0 + 0) (a.col0 + q))
      (FFmt.fp32.round h.ovm h.mode (FFmt.fp32.value x)).code = x) :
    ∃ u : State, exec (.accSt h a) s = .next (u.doneFlight n .mx f) ∧ u.mem = Memory.writeList s.mem (spBase n + off) (accRow n a (s.core n)) := by
  have hrow : ETy.fp32.rowBytes ((List.range a.nc).map fun q => ((s.core n).accOut h a.acc (accKey n a.acc (a.row0 + 0) (a.col0 + q)) .fp32).1) =
      accRow n a (s.core n) := by
    rw [rowBytes_fp32, List.flatMap_map, accRow]
    refine List.flatMap_congr fun q hq => ?_
    rw [accOut_fp32 h hmode, hround q (List.mem_range.mp hq)]
  have hlen : ETy.fp32.bytes a.nc = (accRow n a (s.core n)).length := by
    rw [length_accRow, ETy.bytes, ETy.width]
    omega
  have hcalm' : s.CalmPad (s.cx n .mx f).n off (accRow n a (s.core n)).length := by
    rw [length_accRow]
    exact hcalm
  have hregion : regionOf a = (1, a.nc, fun ρ q => (ρ, q)) := by rw [regionOf, htr, hnr]; rfl
  have hmask : swzMask (laySpan a.lay) 0 = 0 := by rw [swzMask, Nat.zero_mod]
  have hpos := hcalm'.fits.1
  have hc : ¬(((s.core (s.cx n .mx f).n).accMode a.acc = true ∧ (!(intMem .fp32 || (ETy.fp32 == .fp32 && h.ovm == .ieee))) = true) ∨
      ((s.core (s.cx n .mx f).n).accMode a.acc = false ∧ intMem .fp32 = true)) := by
    have hmode' : (s.core (s.cx n .mx f).n).accMode a.acc = false := hmode
    simp [hmode', intMem, ETy.isInt]
  have hoff' : (s.cx n .mx f).f.prog.off = 0 := hoff
  have hb : Ok (boundary (some (max 0 0))) s () s := by simp [Ok, boundary, hleft]
  suffices hbody : ∃ u : State, Ok (accStBody (s.cx n .mx f) h a) s true u ∧ u.mem = Memory.writeList s.mem (spBase n + off) (accRow n a (s.core n)) by
    obtain ⟨u, hu, hmem⟩ := hbody
    exact ⟨u, by rw [exec_accSt, runEngine_done hw rfl hu], hmem⟩
  simp only [Ok, accStBody, M.run_bind_get, ht, if_neg hc, hregion, if_neg hovm, hoff', hbase, Nat.zero_sub]
  refine Ok.exists_bind (P := fun u => u.mem = _) (Ok.exists_forM_one ?row) fun u hu => ⟨_, rfl, hu⟩
  simp only [Nat.zero_mul, Nat.add_zero, hmask, if_true, beq_self_eq_true, Bool.or_true, Nat.xor_zero, hlen, if_neg (Nat.not_le.mpr hpos)] at hrow ⊢
  obtain ⟨t, hput, hmem⟩ := hcalm'.putMasked_ok hbare _ (has := fun o => decide (o < (accRow n a (s.core n)).length)) (fun _ ho => decide_eq_true ho)
    (bytes := fun o cnt => (span o cnt).map fun b => (accRow n a (s.core n)).getD b 0) (map_getD_span _)
  refine ⟨t, hb.bind (Ok.bind (Ok.at _ _ ?_) (Ok.at _ _ hput.tryCatch)), hmem⟩
  rw [Cx.keepNibble, if_neg fun hw4 => absurd hw4.1 (by decide), Ok]
  exact congrArg (fun r => (Except.ok r, s)) hrow

end

end Sys2Proof.Machine
end

section
/-! O44. The matrix commands (R90, R91, R220 to R226, R229, R230, R235, R236). -/
namespace Sys2Proof.Machine

/-! ### The elements of a product -/

section
variable {s : State} {n : Nat} {h : Hdr} {a : MxArgs} {form : Nat} {d : Nest} {k : Core} {ta tb : Tile} {r q : Nat}

theorem fpLands_fst : (fpLands n h a form d k ta tb r q).1 = BitVec.ofNat 64
    (groupSums h.mode (formG form) ((d.kc + formG form - 1) / formG form) ((List.range d.kc).map fun j => (fpTerm a ta tb r q j).1)
      (k.accFp (accKey n a.acc (d.u 24 2 + r) (d.u 26 2 + q)))) :=
  congrArg (BitVec.ofNat 64) (fpElem_groupSums h.mode (formG_pos form) d.kc _ (fpTerm a ta tb r q))

/-- An element that is held at no end, while no sum passes 48 bits, is the exact sum. -/
theorem intLands_fst {stuck : Nat → Bool} (hfree : ∀ key, stuck key = false)
    (hsum : ∀ m ≤ d.kc, let sum := k.accI (accKey n a.acc (d.u 24 2 + r) (d.u 26 2 + q)) + ((List.range m).map fun j => (intTerm a ta tb r q j).1).sum; -(2 ^ 47 : Int) ≤ sum ∧ sum < 2 ^ 47) :
    (intLands n a d k stuck ta tb r q).1 = BitVec.ofInt 64
      (k.accI (accKey n a.acc (d.u 24 2 + r) (d.u 26 2 + q)) + ((List.range d.kc).map fun j => (intTerm a ta tb r q j).1).sum) := by
  obtain ⟨fl, hexact⟩ := intElem_exact _ (intTerm a ta tb r q) d.kc hsum
  rw [intLands, hfree, hexact]

theorem Cx.holds_eq_false {c : Cx} (hstuck : ∀ g ∈ (s.ring c.n c.e).flight, g.slot = c.f.slot → g.stuck = []) (key : Nat) : c.holds s key = false := by
  refine List.any_eq_false.mpr fun g hg hheld => ?_
  obtain ⟨hslot, hkey⟩ := Bool.and_eq_true_iff.mp hheld
  rw [hstuck g hg (beq_iff_eq.mp hslot)] at hkey
  cases hkey

theorem State.landed_v {c : Cx} {l : Landed} : ((s.landed c l).core c.n).v = (s.core c.n).v := by
  rw [State.landed_core]

end

/-! ### The place of an element that ACC.LD loads -/

section
variable {a : MxArgs}

theorem regionOf_rows : (regionOf a).1 = (if layTr a.lay then (a.nc, a.nr) else (a.nr, a.nc)).1 := by
  rw [regionOf]
  split <;> rfl

theorem regionOf_len : (regionOf a).2.1 = (if layTr a.lay then (a.nc, a.nr) else (a.nr, a.nc)).2 := by
  rw [regionOf]
  split <;> rfl

theorem accKey_regionOf (n ρ q : Nat) : accKey n a.acc (a.row0 + ((regionOf a).2.2 ρ q).1) (a.col0 + ((regionOf a).2.2 ρ q).2) =
    if layTr a.lay then accKey n a.acc (a.row0 + q) (a.col0 + ρ) else accKey n a.acc (a.row0 + ρ) (a.col0 + q) := by
  rw [regionOf]
  split <;> rfl

end

/-- Settles O44: a command of one step is one landing in its region, an ACC.LD, ACC.ST or ACC.SCALE one pass over its elements. -/
theorem matrixCommands : Obligations.MatrixCommands := by
  unfold Obligations.MatrixCommands
  intro s n i f hw c
  refine ⟨fun x form h a hx => ⟨fun d s1 w hf hlatch hdefect => exec_product_defect hw hx hf hlatch hdefect, ?product⟩, fun h a => ?moves⟩
  case product =>
    intro d ta tb s1 s2 s3 hf hn hz hlatch hleft hdefect hcount hche hspa sA sB sC hstuck hta htb k key
    obtain ⟨-, hfit⟩ := Nest.region_fits hdefect hcount
    have hstep := Cx.mxStep_start (c := c) (h := h) (form := form) hche hspa hta htb
    refine ⟨_, exec_product_single hw hx hf hn hz hlatch hleft hdefect hcount hstep, State.landed_mem, fun m hm => State.landed_core_ne hm,
      State.landed_v (c := c), fun j hj => State.accGet_landedOf_ne (c := c) hj, fun hfp r hr q hq => ?fp, fun hint r hr q hq => ?int⟩
    case fp =>
      rw [if_pos hfp]
      exact (State.accGet_landedOf (c := c) hfit hr hq).trans fpLands_fst
    case int =>
      intro term sum hsum
      rw [if_neg (Bool.eq_false_iff.mp hint)]
      exact (State.accGet_landedOf (c := c) hfit hr hq).trans (intLands_fst (Cx.holds_eq_false hstuck) hsum)
  case moves =>
    intro acc k sz key t base shape place
    refine ⟨fun hz hmode => accLd_fails hw hz hmode, fun rows s1 hrows hmode => ?load, fun hmode => accSt_fails hw hmode,
      fun off ht hmode hovm hoff hnr htr hbare hleft hbase hcalm hround => accSt_row hw ht hmode hovm hoff hnr htr hbare hleft hbase hcalm hround,
      fun hmode => accScale_fails hw hmode, fun sc s1 hmode hsc => ?scale⟩
    case load =>
      have hrows' : Ok ((List.range (regionOf a).1).mapM fun ρ => c.unswizzled (c.addr a.addr + ρ * layPitch a.lay) (swzMask (laySpan a.lay) ρ) 0
          ((tyOf (layTy a.lay)).bytes (regionOf a).2.1)) s rows s1 := by
        rw [regionOf_rows, regionOf_len]
        exact hrows
      have hlen : rows.length = (regionOf a).1 := (length_of_mapM_ok hrows').trans List.length_range
      refine ⟨_, accLd_loads hw hrows' hmode, State.accLoaded_mem, State.accLoaded_mode, fun _ hcol ρ hρ q hq => ?_⟩
      have hplace := State.accGet_accLoaded (s := s1) hcol hlen (regionOf_rows ▸ hρ) (regionOf_len ▸ hq)
      rw [accKey_regionOf] at hplace
      exact hplace
    case scale =>
      refine ⟨_, accScale_scales hw hmode hsc, rfl, fun j hj => State.accGet_accScaled_ne hj, fun r hr q hq => ?_⟩
      exact (State.accGet_accScaled_key hr hq).trans (congrArg (BitVec.ofNat 64) (scaled_fst sc hmode r q))

end Sys2Proof.Machine
end

section
/-! O7. What package reset leaves (R97, R121, R122, R127, R310, R335, R365, R378, R389). -/
namespace Sys2Proof.Machine

/-- Settles O7: every register and table of the reset state is a closed term, whose value is its reset value. -/
theorem resetValues : Obligations.ResetValues := by
  have hcwlim : Hart.reset.csrRaw 0x801 = 0x1000000#64 := by decide
  exact ⟨fun _ => ⟨rfl, rfl, fun _ => rfl, fun _ => rfl, hcwlim⟩, fun _ => rfl, fun _ => rfl, fun _ => rfl,
    by decide, by decide, by decide, by decide, by decide, by decide, by decide, by decide, by decide⟩

end Sys2Proof.Machine
end

section
/-! O56. A function level reset and a task whose context has no function register of its own (R360, R367). -/
namespace Sys2Proof.Machine

/-- A task of a context past the 256 there are: what stands where its function register would be is the reset register of VF1. No dispatch
gives a task such a context. -/
def strayTask : TaskSt :=
  { inst := 0, node := 0, ctx := 0x4001, susp := false, pinned := false, stream := none, save := 0, nodePa := 0, prio := 0, since := 0, pend := none }

/-- Core 0 holds that task after package reset. -/
def strayReset : State := { State.reset with cores := [(0, { Core.reset with task := some strayTask })] }

/-- Before the reset of VF1 its register is 0, so the task is of no function. -/
theorem strayReset_ctxFn : strayReset.ctxFn strayTask.ctx = 0 := by decide +kernel

/-- The task that core 0 holds after a step. -/
def taskAfter (o : Host.Outcome State Fault Refusal) : Option TaskSt :=
  match o with
  | .next t => (t.core 0).task
  | _ => none

/-- The reset sets BUSY of VF1, where the task's function is now read as 1, and aborts it. -/
theorem strayReset_aborts : taskAfter (exec (.functionLevelReset 1) strayReset) = none := by decide +kernel

theorem strayReset_collectives : ∀ n < 64, strayReset.fld (0x030001840000 + 32 * n) 7 7 ≠ 1 := by decide +kernel

/-- Refutes O56: a core with no task of the function keeps all it holds, says the statement, for the functions that contexts have before the
reset. In `strayReset` the context of a task is 0x4001, whose function register would be the reset register of VF1: BUSY makes it the
function's own, and the task is aborted. That contexts are below 256 is not among the hypotheses. -/
theorem not_resetsAndHomes : ¬ Obligations.ResetsAndHomes := by
  intro h
  obtain ⟨-, -, -, -, -, -, -, -, -, -, hflr⟩ := h strayReset
  obtain ⟨t, hexec, -, -, -, -, hothers⟩ := hflr 1 (by decide) (by decide) rfl (by decide) (by decide) (by simp [strayReset, State.reset])
    (by simp [strayReset, State.reset]) (fun n hn hv => absurd hv (strayReset_collectives n hn)) rfl rfl rfl rfl
    (by simp [strayReset, State.reset]) (by decide +kernel)
  have hkept : t.core 0 = strayReset.core 0 := hothers 0 fun k hk => by
    obtain rfl : strayTask = k := Option.some.inj hk
    rw [strayReset_ctxFn]
    decide
  have hgone := strayReset_aborts
  rw [hexec, taskAfter, hkept] at hgone
  exact absurd hgone (by decide)

end Sys2Proof.Machine
end

section
/-! SUPPORT, O58. The links and the fabric's answers stay as they are where a hub unit reads or writes plain memory (R99). -/
namespace Sys2Proof.Machine

/-- Where an address lies is read off the registers alone. -/
theorem State.loc_congr {s t : State} (h : t.mmio = s.mmio) (pa : Nat) : t.loc pa = s.loc pa := by
  show ({ State.reset with mmio := t.mmio } : State).loc pa = ({ State.reset with mmio := s.mmio } : State).loc pa
  rw [h]

/-- The links and what has left on the fabric stand as they were. -/
structure State.SameEdge (s t : State) : Prop where
  links : t.links = s.links
  fabOut : t.fabOut = s.fabOut

section
variable {s t u : State}

theorem State.SameEdge.refl (s : State) : s.SameEdge s := ⟨rfl, rfl⟩

theorem State.SameEdge.trans (h : s.SameEdge t) (k : t.SameEdge u) : s.SameEdge u :=
  ⟨k.links.trans h.links, k.fabOut.trans h.fabOut⟩

theorem State.SameEdge.foldl {β : Type} (g : State → β → State) (h : ∀ t b, State.SameEdge t (g t b)) (l : List β) (s : State) :
    s.SameEdge (l.foldl g s) :=
  List.foldlRecOn (motive := fun t => s.SameEdge t) l g (.refl s) fun t ht b _ => ht.trans (h t b)

theorem State.Aside.sameEdge (h : s.Aside t) : s.SameEdge t := by
  rw [h.rest]
  exact ⟨rfl, rfl⟩

theorem State.sameEdge_breakResv (s : State) (line : Nat) (byCc : Option Nat) : s.SameEdge (s.breakResv line byCc) := by
  refine State.SameEdge.trans (State.SameEdge.foldl (fun t e => if some e.1 = byCc then t
    else t.modCore e.1 fun c => { c with hart := c.hart.lose line }) (fun t e => ?_) s.cores s) ⟨rfl, rfl⟩
  split
  · exact .refl t
  · exact ⟨rfl, rfl⟩

theorem State.sameEdge_sendInval (s : State) (line : Nat) (w : Who) (old : List Byte) : s.SameEdge (s.sendInval line w old) := by
  rw [State.sendInval]
  refine State.SameEdge.trans ?_ (State.SameEdge.foldl _ (fun t d => ?_) _ _)
  · exact ⟨rfl, rfl⟩
  · split
    · exact .refl t
    · exact ⟨rfl, rfl⟩

theorem State.sameEdge_storeLine (s : State) (w : Who) (cached : Bool) (pa : Nat) (data : List Byte) :
    s.SameEdge (s.storeLine w cached pa data) := by
  have hfresh : s.SameEdge (let f := (s.dropCover false (s.norm pa) data.length).freshAt (s.key (s.norm pa)) data
      match s.mirror (s.norm pa) with
      | some p => f.freshAt (dramKey p) data
      | none => f) := by
    dsimp only
    split
    · exact ⟨rfl, rfl⟩
    · exact ⟨rfl, rfl⟩
  have hbroken := hfresh.trans (State.sameEdge_breakResv _ (s.norm pa / 64) (if w.isCc then w.coreNo else none))
  rw [State.storeLine]
  refine State.SameEdge.trans ?_ (State.aside_pastCover _).sameEdge
  split
  · exact hbroken.trans (State.sameEdge_sendInval _ _ _ _)
  · exact hbroken

variable {ctx pa : Nat} {data : List Byte}

/-- A write of plain memory sends nothing to another package. -/
theorem State.PlainHome.performWrite_edge (h : s.PlainHome ctx pa data.length) (q : Req) : s.SameEdge (s.performWrite q pa data) := by
  obtain ⟨st, off, hl⟩ := h.loc
  have hput : s.putLine q.who q.cached pa data = s.storeLine q.who q.cached pa data := by
    rw [State.putLine, State.swapTakes, h.quiet.2.1]
    rfl
  have hn : s.norm pa = pa := h.norm (Nat.zero_le _)
  have hkept := State.storeLine_kept (w := q.who) (cached := q.cached) (data := data) hn h.mirror
  have hsound := hkept.sound (((s.aside_dropCover false pa data.length).sound h.isSound).freshAt _ _)
  have htell : (s.storeLine q.who q.cached pa data).tellWrite q pa data = s.storeLine q.who q.cached pa data := by
    rw [State.tellWrite, State.loc_congr (s := s) hkept.same.1, hl]
  have hstore := s.sameEdge_storeLine q.who q.cached pa data
  rw [State.performWrite, hput, htell]
  split
  · exact hstore.trans (hsound.aside_touchLine _).sameEdge
  · exact hstore

end

end Sys2Proof.Machine
end

section
/-! SUPPORT, O58. The log, and what the hub's units do at memory (R8, R370, R372). -/
namespace Sys2Proof.Machine

/-! ### An entry of the log -/

/-- A state that differs in registers alone differs in registers alone after a further write. -/
theorem State.setReg_of_eq {s t : State} {m : Table W64} (h : t = { s with mmio := m }) (a : Nat) (v : W64) :
    ∃ m', t.setReg a v = { s with mmio := m' } := by
  subst h
  exact ⟨_, rfl⟩

/-- An entry of the error log is in registers alone (R398). -/
theorem State.log_rest (s : State) (k d pa : Nat) (info : List Nat) :
    s.log k d pa info = { s with mmio := (s.log k d pa info).mmio, logHead := (s.log k d pa info).logHead } := by
  have hput : ∃ m h, s.log k d pa info = { s with mmio := m, logHead := h } := by
    unfold State.log State.logRaw
    dsimp only
    split
    · exact ⟨_, _, rfl⟩
    · obtain ⟨m1, h1⟩ := State.setReg_of_eq (s := s) rfl _ _
      obtain ⟨m2, h2⟩ := State.setReg_of_eq h1 _ _
      obtain ⟨m3, h3⟩ := State.setReg_of_eq h2 _ _
      obtain ⟨m4, h4⟩ := State.setReg_of_eq h3 _ _
      exact ⟨m4, _, by rw [h4]⟩
  obtain ⟨m, h, hlog⟩ := hput
  rw [hlog]

/-- The registers below the log are not the log's. -/
theorem State.reg_log_below (s : State) {a : Nat} (h : a < 0x030001720608) (k d pa : Nat) (info : List Nat) :
    (s.log k d pa info).reg a = s.reg a := by
  have hset : ∀ (t : State) (b : Nat) (v : W64), a < b → (t.setReg b v).reg a = t.reg a := fun t b v hb => t.reg_setReg_ne v (by omega)
  unfold State.log State.logRaw
  dsimp only
  split
  · rw [State.setFld, hset _ _ _ (by omega)]
  · show State.reg (State.setReg _ _ _) _ = _
    rw [hset _ _ _ (by omega), hset _ _ _ (by omega), hset _ _ _ (by omega), hset _ _ _ (by omega)]

/-! ### What is owed -/

section
variable {s t : State}

/-- What a hub unit can perform at once is performed at once. -/
theorem State.hubPost_ok {o : Owed} (hr : o.releases = false ∨ s.owed = []) (h : Ok o.act s () t) : s.hubPost o = t := by
  have hnow : ¬(o.releases = true ∧ s.owed ≠ []) := fun hc => hr.elim (by simp [hc.1]) hc.2
  rw [State.hubPost, if_neg hnow, h.run]

variable {pa len : Nat} {q : Req} {data : List Byte}

/-- A hub unit under context 0 writes plain memory. -/
theorem State.PlainHome.hubWrites (h : s.PlainHome 0 pa data.length) (hq : q.who = .hub 0) :
    ∃ t, Ok (writeRun q pa data) s () t ∧ t.mem = Memory.writeList s.mem (s.key pa) data ∧ s.SameBut t ∧ s.SameEdge t := by
  have hctx : s.ctxOf q.who = 0 := by rw [hq]; rfl
  obtain ⟨hmem, hsame⟩ := h.performWrite q
  exact ⟨_, State.PlainHome.writeRun_ok (hctx ▸ h), hmem, hsame, h.performWrite_edge q⟩

/-- It reads plain memory, which stays plain. -/
theorem State.PlainHome.hubReads (h : s.PlainHome 0 pa len) (hq : q.who = .hub 0) :
    Ok (readRun q pa len) s (Memory.readList s.mem (s.key pa) len) (s.noteRead q pa) ∧ s.Aside (s.noteRead q pa) := by
  have hctx : s.ctxOf q.who = 0 := by rw [hq]; rfl
  have hidle : s.Idle q.who := fun n hn => by rw [hq] at hn; cases hn
  exact ⟨State.PlainHome.readRun_ok (hctx ▸ h) hidle, h.isSound.aside_noteRead q⟩

/-- It writes what it has read. -/
theorem State.PlainHome.hubWritesBack (h : s.PlainHome 0 pa data.length) (hq : q.who = .hub 0) :
    ∃ t, Ok (writeRun q pa data) (s.noteRead q pa) () t ∧ t.mem = Memory.writeList s.mem (s.key pa) data ∧ s.SameBut t ∧ s.SameEdge t := by
  obtain ⟨-, haside⟩ := h.hubReads hq
  obtain ⟨t, hw, hmem, hsame, hedge⟩ := (h.aside haside).hubWrites hq
  rw [haside.mem, haside.key] at hmem
  exact ⟨t, hw, hmem, haside.sameBut.trans hsame, haside.sameEdge.trans hedge⟩

theorem hubRmw_ok {r : Rmw} {v : Nat} (h : s.PlainHome 0 pa r.len) (hv : rmwNew r (s.num pa r.len) = some v) :
    ∃ t, Ok (hubRmw pa r) s (s.num pa r.len) t ∧ t.mem = Memory.writeList s.mem (s.key pa) (leBytes r.len v) ∧ s.SameBut t ∧
      s.SameEdge t := by
  have hw : s.PlainHome 0 pa (leBytes r.len v).length := by rwa [length_leBytes]
  obtain ⟨hread, -⟩ := h.hubReads (q := { hubReq 0 with point := some 9 }) rfl
  obtain ⟨t, hwrite, hrest⟩ := hw.hubWritesBack (q := { hubReq 0 with point := some 9 }) rfl
  have hnum : leNat (Memory.readList s.mem (s.key pa) r.len) = s.num pa r.len := rfl
  refine ⟨t, hread.bind ?_, hrest⟩
  dsimp only
  rw [hnum, hv]
  exact hwrite.bind (.pure _ _)

end

end Sys2Proof.Machine
end

section
/-! SUPPORT, O58. A flit arrives (R369), and what its messages do (R368, R370 to R372). -/
namespace Sys2Proof.Machine

/-! ### The parts of a flit -/

theorem fieldOf_word (f : List Byte) (hi lo : Nat) : bits (fieldOf f 0 8) hi lo = leNat (f.take 8) / 2 ^ lo % 2 ^ (hi + 1 - lo) :=
  bits_eq_div_mod _ _ _

theorem flitSeq_eq (f : List Byte) : flitSeq f = leNat (f.take 8) / 2 ^ 40 := by
  have hlt := leNat_lt (f.take 8)
  have hlen : (f.take 8).length ≤ 8 := List.length_take_le 8 f
  have hword : leNat (f.take 8) < 2 ^ 64 := hlt.trans_le (Nat.pow_le_pow_right (by decide) (by omega))
  rw [flitSeq, fieldOf_word]
  omega

theorem flitDest_eq (f : List Byte) : flitDest f = leNat (f.take 8) % 2 ^ 12 := by
  rw [flitDest, fieldOf_word]
  omega

theorem flitSource_eq (f : List Byte) : flitSource f = leNat (f.take 8) / 2 ^ 16 % 2 ^ 12 := fieldOf_word ..

theorem flitClass_eq (f : List Byte) : flitClass f = leNat (f.take 8) / 2 ^ 32 % 4 := fieldOf_word ..

theorem flitOk_iff (f : List Byte) : flitOk f = true ↔ f.length = 256 ∧ crc64 (f.take 248) = leNat (f.drop 248) := by
  simp only [flitOk, Bool.and_eq_true, beq_iff_eq]
  refine and_congr_right fun hlen => ?_
  have hdrop : (f.drop 248).length ≤ 8 := by rw [List.length_drop, hlen]
  rw [fieldOf, List.take_of_length_le hdrop]

theorem slotsHold_iff (l : List FabMsg) :
    slotsHold l = true ↔ (l.filter fun m => m.bytes != []).length ≤ 3 ∧ (l.filter fun m => m.bytes == []).length ≤ 2 := by
  have hempty : ∀ b : List Byte, (b == []) = b.isEmpty := fun b => by cases b with | _ => rfl
  simp only [slotsHold, Bool.and_eq_true, decide_eq_true_eq, bne, hempty]

/-! ### A flit of 256 bytes on a link -/

section
variable {s : State} {l : Nat} {body : List Byte} {crc : W64} {msgs : List FabMsg} {flit : List Byte}

/-- A link that has taken a flit: its sequence number, its credits and the number it acknowledges. -/
def State.flitTaken (s : State) (l : Nat) (flit : List Byte) : State :=
  let k := s.link l
  s.setLink l { k with fails := 0, seq := (k.seq + 1) % 2 ^ 24, credits := fieldOf flit 8 8, acked := fieldOf flit 240 8 }

theorem State.pkgId_setLink (k : Link) : (s.setLink l k).pkgId = s.pkgId := rfl

/-- A flit that may arrive. -/
structure State.Arrives (s : State) (l : Nat) (msgs : List FabMsg) : Prop where
  up : (s.link l).up = true
  fails : (s.link l).fails < 8
  fit : slotsHold msgs = true

theorem State.Arrives.goesOn (h : s.Arrives l msgs) : ¬((s.link l).up = false ∨ 8 ≤ (s.link l).fails ∨ slotsHold msgs = false) := by
  simp [h.up, h.fails, h.fit]

theorem flit_stays (h : (s.link l).up = false ∨ 8 ≤ (s.link l).fails ∨ slotsHold msgs = false) :
    runEvent (flitReceiveOp l flit msgs) s = .next s := by
  refine runEvent_stall (t := s) ?_
  simp only [flitReceiveOp, M.run_bind_get, if_pos h, M.run_bind_throw]

theorem flit_fails (h : s.Arrives l msgs) (hbad : flitOk flit = false) :
    runEvent (flitReceiveOp l flit msgs) s = .next (s.setLink l { s.link l with fails := (s.link l).fails + 1 }) := by
  refine runEvent_ok ?_
  simp only [Ok, flitReceiveOp, M.run_bind_get, if_neg h.goesOn, if_pos hbad, M.run_modify]

theorem flit_replays (h : s.Arrives l msgs) (hok : flitOk flit = true) (hseq : flitSeq flit ≠ (s.link l).seq) :
    runEvent (flitReceiveOp l flit msgs) s = .next (s.setLink l { s.link l with fails := 0 }) := by
  refine runEvent_ok ?_
  simp only [Ok, flitReceiveOp, M.run_bind_get, if_neg h.goesOn, hok, Bool.true_eq_false, if_false, if_pos hseq, M.run_modify]

/-- One in sequence for another package is taken, and its messages are not this package's. -/
theorem flit_passes (h : s.Arrives l msgs) (hok : flitOk flit = true) (hseq : flitSeq flit = (s.link l).seq)
    (hdest : flitDest flit ≠ s.pkgId) : runEvent (flitReceiveOp l flit msgs) s = .next (s.flitTaken l flit) := by
  refine runEvent_ok ?_
  simp only [Ok, flitReceiveOp, M.run_bind_get, if_neg h.goesOn, hok, Bool.true_eq_false, if_false, hseq, ne_eq, not_true_eq_false,
    hdest, false_and, M.run_modify, State.pkgId_setLink, not_false_eq_true, if_true]
  rfl

/-- One for this package: the messages of its class are performed in order. -/
theorem flit_performs (h : s.Arrives l msgs) (hok : flitOk flit = true) (hseq : flitSeq flit = (s.link l).seq)
    (hdest : flitDest flit = s.pkgId) (hnow : (msgs.filter fun m => m.cls == flitClass flit).any s.msgWaits = false) :
    runEvent (flitReceiveOp l flit msgs) s =
      .next ((msgs.filter fun m => m.cls == flitClass flit).foldl (State.fabricMsg (flitSource flit)) (s.flitTaken l flit)) := by
  refine runEvent_ok ?_
  simp only [Ok, flitReceiveOp, M.run_bind_get, if_neg h.goesOn, hok, Bool.true_eq_false, if_false, hseq, ne_eq, not_true_eq_false,
    hdest, hnow, Bool.false_eq_true, and_false, M.run_modify, State.pkgId_setLink]
  rfl

theorem flit_waits (h : s.Arrives l msgs) (hok : flitOk flit = true) (hseq : flitSeq flit = (s.link l).seq)
    (hdest : flitDest flit = s.pkgId) (hwait : (msgs.filter fun m => m.cls == flitClass flit).any s.msgWaits = true) :
    runEvent (flitReceiveOp l flit msgs) s = .next s := by
  refine runEvent_stall (t := s) ?_
  simp only [flitReceiveOp, M.run_bind_get, if_neg h.goesOn, hok, Bool.true_eq_false, if_false, hseq, ne_eq, not_true_eq_false,
    hdest, hwait, and_self, if_true, M.run_bind_throw]

end

end Sys2Proof.Machine
end

section
/-! SUPPORT, O58. What the messages of a flit do (R368, R370, R371). -/
namespace Sys2Proof.Machine

section
variable {s : State} {src off len tag : Nat}

/-! ### Writes and arrivals -/

/-- Plain memory does not depend on the links. -/
theorem State.PlainHome.setLink (h : s.PlainHome 0 off len) (l : Nat) (k : Link) : (s.setLink l k).PlainHome 0 off len := by
  obtain ⟨st, o, hl⟩ := h.loc
  have hl' : (s.setLink l k).loc off = .dram st o := hl
  have hdown : (s.setLink l k).down 0 off = none := by
    have hd := h.home.2.1
    rw [State.down, hl] at hd
    rw [State.down, hl']
    exact hd
  exact ⟨h.fits, h.place, h.alone, ⟨h.home.1, hdown, h.home.2.2⟩, h.quiet, h.sound⟩

theorem State.sameBut_setLink (s : State) (l : Nat) (k : Link) : s.SameBut (s.setLink l k) :=
  ⟨rfl, fun _ => ⟨rfl, rfl, rfl, rfl⟩, fun _ => ⟨rfl, rfl, rfl, rfl, rfl, rfl⟩⟩

theorem fabricMsg_write {data : List Byte} (hend : off + data.length ≤ 2 ^ 39) (h : s.PlainHome 0 off data.length) :
    (s.fabricMsg src (.write off data)).mem = Memory.writeList s.mem (s.key off) data ∧ s.SameBut (s.fabricMsg src (.write off data)) ∧
      s.SameEdge (s.fabricMsg src (.write off data)) := by
  obtain ⟨t, hw, hrest⟩ := h.hubWrites (q := hubReq 0) rfl
  have hpost : s.hubPost (.put 0 off data) = t := State.hubPost_ok (.inl rfl) hw
  rw [State.fabricMsg, if_pos hend, hpost]
  exact hrest

/-- The fields of a barrier word whose bits 63 to 33 are 0. -/
theorem barrierWord_fields {e p ph : Nat} (he : e < 2 ^ 16) (hp : p < 2 ^ 16) (hph : ph < 2) : let w := e + p * 2 ^ 16 + ph * 2 ^ 32
    bits w 15 0 = e ∧ bits w 31 16 = p ∧ bits w 32 32 = ph ∧ bits w 63 33 = 0 := by
  simp only [bits_eq_div_mod]
  omega

theorem barrierWord_setPending {e p p' ph : Nat} (he : e < 2 ^ 16) (hp : p < 2 ^ 16) (hp' : p' < 2 ^ 16) (hph : ph < 2) :
    setBits (e + p * 2 ^ 16 + ph * 2 ^ 32) 31 16 p' = e + p' * 2 ^ 16 + ph * 2 ^ 32 := by
  obtain ⟨-, hold, -, -⟩ := barrierWord_fields he hp hph
  rw [setBits, hold, Nat.shiftLeft_eq, Nat.shiftLeft_eq, Nat.mod_eq_of_lt hp']
  omega

theorem barrierWord_setPhase {e p ph ph' : Nat} (he : e < 2 ^ 16) (hp : p < 2 ^ 16) (hph : ph < 2) (hph' : ph' < 2) :
    setBits (e + p * 2 ^ 16 + ph * 2 ^ 32) 32 32 ph' = e + p * 2 ^ 16 + ph' * 2 ^ 32 := by
  obtain ⟨-, -, hold, -⟩ := barrierWord_fields he hp hph
  rw [setBits, hold, Nat.shiftLeft_eq, Nat.shiftLeft_eq, show 2 ^ (32 + 1 - 32) = 2 from rfl, Nat.mod_eq_of_lt hph']
  omega

/-- The rule of an arrival (R297) is what the home does to the word. -/
theorem arriveWord_of_rule {w : Nat} {r : Nat × Nat} (h : arriveRule w = some r) : arriveWord w = some (r.2, r.1) := by
  simp only [arriveRule] at h
  split at h
  case isTrue => cases h
  next hgood =>
  have he : w % 2 ^ 16 < 2 ^ 16 := Nat.mod_lt _ (by decide)
  have hp : w / 2 ^ 16 % 2 ^ 16 < 2 ^ 16 := Nat.mod_lt _ (by decide)
  have hph : w / 2 ^ 32 % 2 < 2 := Nat.mod_lt _ (by decide)
  have hw : w = w % 2 ^ 16 + w / 2 ^ 16 % 2 ^ 16 * 2 ^ 16 + w / 2 ^ 32 % 2 * 2 ^ 32 := by omega
  generalize w % 2 ^ 16 = e at *
  generalize w / 2 ^ 16 % 2 ^ 16 = p at *
  generalize w / 2 ^ 32 % 2 = ph at *
  subst hw
  obtain ⟨hex, hpe, hphase, htop⟩ := barrierWord_fields he hp hph
  simp only [arriveWord, hex, hpe, hphase, htop]
  rw [if_neg (by omega)]
  split at h
  next hone =>
    obtain rfl := Option.some.inj h
    rw [if_pos hone, barrierWord_setPending he hp he hph, barrierWord_setPhase he he hph (by omega)]
  next hmore =>
    obtain rfl := Option.some.inj h
    rw [if_neg hmore, barrierWord_setPending he hp (by omega) hph, Option.some.injEq, Prod.mk.injEq]
    omega

theorem State.PlainHome.arrives (h : s.PlainHome 0 off 8) {r : Nat × Nat} (hr : arriveRule (s.num off 8) = some r) :
    ∃ t, Ok (Owed.arrive off).act s () t ∧ t.mem = Memory.writeList s.mem (s.key off) (leBytes 8 r.2) ∧ s.SameBut t ∧ s.SameEdge t := by
  have htake : s.takeWrites (.hub 0) = s := s.takeInval_none _ h.quiet.2.2.1
  have hw : s.PlainHome 0 off (leBytes 8 r.2).length := by rwa [length_leBytes]
  obtain ⟨hread, -⟩ := h.hubReads (q := hubReq 0) rfl
  obtain ⟨t, hwrite, hrest⟩ := hw.hubWritesBack (q := hubReq 0) rfl
  have hread64 : Ok (read64 (hubReq 0) off) s (s.num off 8) (s.noteRead (hubReq 0) off) := hread.bind (.pure _ _)
  have hword := arriveWord_of_rule hr
  refine ⟨t, ?_, hrest⟩
  rw [Ok, Owed.act, M.run_bind_modify, htake, hread64.bind_run, hword]
  exact hwrite

theorem fabricMsg_arrive (howed : s.owed = []) (halign : off % 8 = 0) (h : s.PlainHome 0 off 8) {r : Nat × Nat}
    (hr : arriveRule (s.num off 8) = some r) : let t := s.fabricMsg src (.arrive off)
    t.mem = Memory.writeList s.mem (s.key off) (leBytes 8 r.2) ∧ s.SameBut t ∧ s.SameEdge t := by
  obtain ⟨t, hact, hrest⟩ := h.arrives hr
  have hpost : s.hubPost (.arrive off) = t := State.hubPost_ok (.inr howed) hact
  dsimp only
  rw [State.fabricMsg, if_pos ⟨halign, h.fits.2.2⟩, hpost]
  exact hrest

/-! ### Requests and their answers -/

/-- A read of another package's: beyond the package's DRAM space it fails. -/
theorem fabricMsg_read_out (h : 2 ^ 39 < off + len) : s.fabricMsg src (.read tag off len) = s.send src (.failed tag 3) := by
  refine State.hubPost_ok (.inl rfl) ?_
  rw [Ok, Owed.act, fabricAnswer]
  simp only [decide_eq_false (Nat.not_le.mpr h), Bool.false_eq_true, if_false]
  rfl

/-- The look of the answering unit at the line: it is as the line leaves that a failing check is detected (R107). -/
abbrev leaving : Req := { hubReq 0 with point := some 9 }

theorem fabricMsg_read_ok {x : List Byte} {t : State} (hin : off + len ≤ 2 ^ 39) (h : Ok (readRun leaving off len) s x t) :
    s.fabricMsg src (.read tag off len) = t.send src (.data tag x) := by
  refine State.hubPost_ok (.inl rfl) ?_
  rw [Ok, Owed.act, fabricAnswer]
  simp only [decide_eq_true hin, if_true]
  exact (h.bind (f := fun y => modify fun u => u.send src (.data tag y)) rfl).tryCatch

theorem fabricMsg_read_fails {f : Flt} {t : State} (hin : off + len ≤ 2 ^ 39) (h : (readRun leaving off len).run s = (.error (.flt f), t)) :
    s.fabricMsg src (.read tag off len) = (t.hubReport f).send src (.failed tag f.cause) := by
  refine State.hubPost_ok (.inl rfl) ?_
  rw [Ok, Owed.act, fabricAnswer]
  simp only [decide_eq_true hin, if_true]
  have hstop : ((readRun leaving off len) >>= fun y => modify fun u => u.send src (.data tag y)).run s = (.error (.flt f), t) :=
    run_bind_stops h
  rw [M.run_tryCatch, hstop]
  rfl

theorem fabricMsg_rmw {r : Rmw} {v : Nat} (halign : off % r.len = 0) (h : s.PlainHome 0 off r.len)
    (hv : rmwNew r (s.num off r.len) = some v) : let t := s.fabricMsg src (.rmw tag off r)
    t.mem = Memory.writeList s.mem (s.key off) (leBytes r.len v) ∧ t.links = s.links ∧ s.SameBut t ∧
      t.fabOut = s.fabOut ++ [(src, .data tag (leBytes r.len (s.num off r.len)))] := by
  obtain ⟨t, hrmw, hmem, hsame, hedge⟩ := hubRmw_ok h hv
  have hpost : s.fabricMsg src (.rmw tag off r) = t.send src (.data tag (leBytes r.len (s.num off r.len))) := by
    refine State.hubPost_ok (.inl rfl) ?_
    rw [Ok, Owed.act, fabricAnswer]
    simp only [decide_eq_true (And.intro h.fits.2.2 halign), if_true]
    exact ((hrmw.bind (f := fun o => pure (leBytes r.len o)) (.pure _ _)).bind (f := fun y => modify fun u => u.send src (.data tag y)) rfl).tryCatch
  dsimp only
  rw [hpost]
  exact ⟨hmem, hedge.links, hsame, congrArg (· ++ _) hedge.fabOut⟩

/-! ### Streams -/

/-- An abandon message's cancel is performed, or there is none. -/
theorem runEvent_streamAbandon (s : State) (i : Nat) : runEvent (streamAbandonOp i) s = .next ((streamAbandonOp i).exec s) := by
  by_cases h : 65536 ≤ i ∨ (s.stream i).dpkg = s.pkgId ∨ (s.stream i).state = 0
  · have hrun : (streamAbandonOp i).run s = (.error .stall, s) := by
      simp only [streamAbandonOp, M.run_bind_get, if_pos h, M.run_bind_throw]
    rw [runEvent_stall hrun, M.exec, hrun]
  · have hrun := Ok.run (m := streamAbandonOp i) (s := s) (a := ()) (t := ((streamAbandonOp i).run s).2) (by
      simp only [Ok, streamAbandonOp, M.run_bind_get, if_neg h, M.run_modify])
    exact runEvent_ok hrun

theorem fabricMsg_streamBlock {i idx : Nat} {x : List Byte} {out : List (Nat × Nat)} (hi : i < 65536) (hsrc : src < 4096) :
    ∃ m : TvMsg, s.fabricMsg src (.streamBlock i idx x out) = { s with tvChan := s.tvChan ++ [m] } ∧ m.stream = 65536 * (src + 1) + i ∧
      m.isSeal = false ∧ m.idx = idx ∧ m.data = x ∧ m.outliers = out := by
  have hkey : guestKey src i = 65536 * (src + 1) + i := by rw [guestKey, Nat.mod_eq_of_lt hsrc, Nat.mod_eq_of_lt hi]
  exact ⟨_, rfl, hkey, rfl, rfl, rfl, rfl⟩

end

end Sys2Proof.Machine
end

section
/-! SUPPORT, O58. Abandons of collectives (R372), frames (R373) and links (R369). -/
namespace Sys2Proof.Machine

/-! ### Abandons -/

/-- An element of a list that leaves a state alone, all of them. -/
theorem foldl_stays {α β : Type} {g : α → β → α} {s : α} {l : List β} (h : ∀ b ∈ l, g s b = s) : l.foldl g s = s := by
  induction l with
  | nil => rfl
  | cons b r ih =>
    rw [List.foldl_cons, h b (by simp)]
    exact ih fun c hc => h c (by simp [hc])

/-- Where one element alone does something, the whole list does it. -/
theorem foldl_only {α β : Type} {g : α → β → α} {s t : α} {l : List β} {b : β} (hb : b ∈ l) (hnodup : l.Nodup) (hstep : g s b = t)
    (hs : ∀ c ∈ l, c ≠ b → g s c = s) (ht : ∀ c ∈ l, c ≠ b → g t c = t) : l.foldl g s = t := by
  induction l with
  | nil => cases hb
  | cons c r ih =>
    obtain ⟨hc, hr⟩ := List.nodup_cons.mp hnodup
    by_cases hcb : c = b
    · subst hcb
      rw [List.foldl_cons, hstep]
      exact foldl_stays fun d hd => ht d (by simp [hd]) fun e => hc (e ▸ hd)
    · have hbr : b ∈ r := (List.mem_cons.mp hb).resolve_left (Ne.symm hcb)
      rw [List.foldl_cons, hs c (by simp) hcb]
      exact ih hbr hr (fun d hd => hs d (by simp [hd])) fun d hd => ht d (by simp [hd])

/-- The address of collective entry `n`. -/
def collEntry (n : Nat) : Nat := 0x030001840000 + 32 * n

/-- What an abandon of package `pkg` does with entry `n`. -/
def abandonEntry (pkg : Nat) (s : State) (n : Nat) : State :=
  if s.fld (collEntry n) 7 7 = 1 then
    let r := s.collMembers n
    if r.2.contains pkg then
      r.1.hubPost (.collective (s.fld (collEntry n + 16) 51 0) (s.fld (collEntry n + 8) 51 0) (2 + pkg % 4096 * 65536))
    else r.1
  else s

theorem State.abandonFrom_eq (s : State) (pkg : Nat) : s.abandonFrom pkg = (List.range 64).foldl (abandonEntry pkg) s := rfl

section
variable {s s' s1 s2 s3 : State} {pkg n w : Nat} {l : List Byte}

theorem abandonEntry_invalid (h : s.fld (collEntry n) 7 7 = 0) : abandonEntry pkg s n = s := if_neg (by omega)

theorem fld_congr {t : State} (h : t.mmio = s.mmio) (a hi lo : Nat) : t.fld a hi lo = s.fld a hi lo := by
  rw [State.fld, State.fld, State.reg, State.reg, h]

theorem State.takeWrites_mmio (s : State) (u : Who) : (s.takeWrites u).mmio = s.mmio := by
  rw [State.takeWrites, State.takeInval]
  split
  · rfl
  · rfl

/-- The end of a collective (R372): its status word, and after it, at package scope, its barrier. -/
theorem collective_ok {stw bar v : Nat} (hswap : s'.swap = none) (h1 : Ok (write64 (hubReq 0) stw v) (s'.takeWrites (.hub 0)) () s1)
    (h2 : Ok (read64 (hubReq 0) bar) s1 w s2)
    (h3 : Ok (write64 (hubReq 0) bar (setBits (setBits w 31 16 (w % 65536)) 32 32 (1 - w / 2 ^ 32 % 2))) s2 () s3) :
    Ok (Owed.collective stw bar v).act s' () (s3.takeWrites (.hub 0)) := by
  have hfree : s'.swapTakes stw = false := by rw [State.swapTakes, hswap]
  have hpart : bits w 15 0 = w % 65536 ∧ bits w 32 32 = w / 2 ^ 32 % 2 := by
    simp only [bits_eq_div_mod]
    omega
  rw [Ok, Owed.act, M.run_bind_get, if_neg (by simp [hfree]), M.run_bind_modify, h1.bind_run, h2.bind_run, hpart.1, hpart.2, h3.bind_run]
  rfl

theorem abandonEntry_abandons (hvalid : s.fld (collEntry n) 7 7 = 1)
    (hread : Ok (hubRead 0 (s.fld (collEntry n + 24) 51 0) (2 * s.fld (collEntry n) 27 16)) s (some l) s')
    (hmember : pkg ∈ u16s (s.fld (collEntry n) 27 16) l) (howed : s'.owed = [])
    (hact : Ok (Owed.collective (s.fld (collEntry n + 16) 51 0) (s.fld (collEntry n + 8) 51 0) (2 + pkg % 4096 * 65536)).act s' () s3) :
    abandonEntry pkg s n = s3 := by
  have hlook : s.collMembers n = (s', u16s (s.fld (collEntry n) 27 16) l) := by
    have hl : s.hubLook (hubRead 0 (s.fld (collEntry n + 24) 51 0) (2 * s.fld (collEntry n) 27 16)) = (s', some l) := by
      rw [State.hubLook, hread.run]
    have hm : s.collMembers n = ((s.hubLook (hubRead 0 (s.fld (collEntry n + 24) 51 0) (2 * s.fld (collEntry n) 27 16))).1,
      ((s.hubLook (hubRead 0 (s.fld (collEntry n + 24) 51 0) (2 * s.fld (collEntry n) 27 16))).2.map (u16s (s.fld (collEntry n) 27 16))).getD []) := rfl
    rw [hm, hl]
    rfl
  rw [abandonEntry, if_pos hvalid, hlook]
  exact (if_pos (by simpa using hmember)).trans (State.hubPost_ok (.inr howed) hact)

end

/-! ### Links -/

section
variable {s : State} {l : Nat}

theorem State.link_setLink (s : State) (l : Nat) (k : Link) : (s.setLink l k).link l = k := Table.get_put_same ..

theorem State.link_setLink_ne (s : State) {l j : Nat} (k : Link) (h : j ≠ l) : (s.setLink l k).link j = s.link j := Table.get_put_ne _ _ h

theorem linkDown_stays (h : (s.link l).up = false ∨ (s.link l).fails < 8) : runEvent (linkDownOp l) s = .next s := by
  refine runEvent_stall (t := s) ?_
  simp only [linkDownOp, M.run_bind_get, if_pos h, M.run_bind_throw]

theorem linkDown_ends (hup : (s.link l).up = true) (hfails : 8 ≤ (s.link l).fails) :
    runEvent (linkDownOp l) s = .next ((s.setLink l { s.link l with up := false, fails := 0 }).log 0x07 0x0C 0 [1, l]) := by
  refine runEvent_ok ?_
  simp only [Ok, linkDownOp, M.run_bind_get, if_neg (show ¬((s.link l).up = false ∨ (s.link l).fails < 8) by simp [hup, hfails]),
    M.run_modify]

theorem linkOpen_stays {pkg : Nat} (h : s.fwState ≠ 1 ∨ (s.link l).up = true) : runEvent (linkOpenOp l pkg) s = .next s := by
  refine runEvent_stall (t := s) ?_
  simp only [linkOpenOp, M.run_bind_get, if_pos h, M.run_bind_throw]

theorem linkOpen_opens {pkg : Nat} (hfw : s.fwState = 1) (hup : (s.link l).up = false) :
    runEvent (linkOpenOp l pkg) s = .next (s.setLink l { up := true, fails := 0, pkg := pkg % 4096, seq := 0 }) := by
  refine runEvent_ok ?_
  simp only [Ok, linkOpenOp, M.run_bind_get, if_neg (show ¬(s.fwState ≠ 1 ∨ (s.link l).up = true) by simp [hup, hfw]), M.run_modify]

end

/-! ### Frames -/

section
variable {s s1 s2 s3 : State} {p base size k : Nat} {d x : List Byte}

theorem ethDesc_none (h : size = 0) : (ethDesc base size k).run s = (.error .stall, s) := by
  rw [ethDesc, if_pos h, M.run_bind_throw]

theorem fieldOf_own (d : List Byte) : bit (fieldOf d 10 1) 0 = decide (fieldOf d 10 1 % 2 = 1) := rfl

/-- A descriptor that the device owns. -/
theorem ethDesc_owned (h : 0 < size) (hd : Ok (readRun (hubReq 0) (base + 16 * (k % size)) 16) s d s1) (hown : fieldOf d 10 1 % 2 = 1) :
    Ok (ethDesc base size k) s (base + 16 * (k % size), d) s1 := by
  have hbit : bit (fieldOf d 10 1) 0 ≠ false := by simp [fieldOf_own, hown]
  rw [Ok, ethDesc, if_neg (Nat.pos_iff_ne_zero.mp h), hd.bind_run, if_neg hbit]
  rfl

/-- One that the host owns. -/
theorem ethDesc_held (h : 0 < size) (hd : Ok (readRun (hubReq 0) (base + 16 * (k % size)) 16) s d s1) (hown : fieldOf d 10 1 % 2 = 0) :
    (ethDesc base size k).run s = (.error .stall, s1) := by
  have hbit : bit (fieldOf d 10 1) 0 = false := by simp [fieldOf_own, hown]
  rw [ethDesc, if_neg (Nat.pos_iff_ne_zero.mp h), hd.bind_run, if_pos hbit, M.run_bind_throw]

theorem frameTransmit_noPort (h : 8 ≤ p) : runEvent (frameTransmitOp p) s = .next s := by
  refine runEvent_stall (t := s) ?_
  rw [frameTransmitOp, if_pos h, M.run_bind_throw]

theorem frameTransmit_stalls (hp : p < 8) (h : (ethDesc (s.port p).txBase (s.port p).txSize (s.port p).txNext).run s = (.error .stall, s1)) :
    runEvent (frameTransmitOp p) s = .next s := by
  refine runEvent_stall (t := s1) ?_
  rw [frameTransmitOp, if_neg (Nat.not_le.mpr hp), M.run_bind_get]
  exact run_bind_stops h

theorem frameTransmit_length {a : Nat} (hp : p < 8) (h : Ok (ethDesc (s.port p).txBase (s.port p).txSize (s.port p).txNext) s (a, d) s1)
    (hlen : fieldOf d 8 2 = 0 ∨ 9216 < fieldOf d 8 2) : runEvent (frameTransmitOp p) s = .next s := by
  refine runEvent_stall (t := s1) ?_
  rw [frameTransmitOp, if_neg (Nat.not_le.mpr hp), M.run_bind_get, h.bind_run]
  dsimp only
  rw [if_pos hlen, M.run_bind_throw]

theorem frameTransmit_sends {a : Nat} (hp : p < 8) (h : Ok (ethDesc (s.port p).txBase (s.port p).txSize (s.port p).txNext) s (a, d) s1)
    (hlen : 0 < fieldOf d 8 2 ∧ fieldOf d 8 2 ≤ 9216) (hread : Ok (readRun (hubReq 0) (fieldOf d 0 8) (fieldOf d 8 2)) s1 x s2)
    (hwrite : Ok (writeRun (hubReq 0) (a + 10) [BitVec.ofNat 8 (fieldOf d 10 1 - 1)]) s2 () s3) (heth : s3.eth = s.eth) : let e := s.port p
    runEvent (frameTransmitOp p) s =
      .next (s3.setPort p { e with txNext := e.txNext + 1, sent := e.sent ++ [x], stamps := e.stamps ++ [s3.hubDatum] }) := by
  have hport : s3.port p = s.port p := by rw [State.port, State.port, heth]
  refine runEvent_ok ?_
  rw [Ok, frameTransmitOp, if_neg (Nat.not_le.mpr hp), M.run_bind_get, h.bind_run]
  dsimp only
  rw [if_neg (by omega), hread.bind_run, hwrite.bind_run, M.run_modify, hport]

theorem frameReceive_refused (h : 9216 < x.length ∨ x = [] ∨ 8 ≤ p) : runEvent (frameReceiveOp p x) s = .next s := by
  refine runEvent_stall (t := s) ?_
  rw [frameReceiveOp, M.run_bind_get]
  dsimp only
  rw [if_pos h, M.run_bind_throw]

theorem frameReceive_stalls (h : (ethDesc (s.port p).rxBase (s.port p).rxSize (s.port p).rxNext).run s = (.error .stall, s1)) :
    runEvent (frameReceiveOp p x) s = .next s := by
  by_cases hx : 9216 < x.length ∨ x = [] ∨ 8 ≤ p
  · exact frameReceive_refused hx
  · refine runEvent_stall (t := s1) ?_
    rw [frameReceiveOp, M.run_bind_get]
    dsimp only
    rw [if_neg hx]
    exact run_bind_stops h

theorem frameReceive_lands {a : Nat} (hx : ¬(9216 < x.length ∨ x = [] ∨ 8 ≤ p))
    (h : Ok (ethDesc (s.port p).rxBase (s.port p).rxSize (s.port p).rxNext) s (a, d) s1)
    (hdata : Ok (writeRun (hubReq 0) (fieldOf d 0 8) x) s1 () s2)
    (hback : Ok (writeRun (hubReq 0) (a + 8) (leBytes 2 x.length ++ [BitVec.ofNat 8 (fieldOf d 10 1 - 1)])) (s2.takeWrites (.hub 0)) () s3)
    (heth : s3.eth = s.eth) : let e := s.port p
    runEvent (frameReceiveOp p x) s = .next (s3.setPort p { e with rxNext := e.rxNext + 1, stamps := e.stamps ++ [s3.hubDatum] }) := by
  have hport : s3.port p = s.port p := by rw [State.port, State.port, heth]
  refine runEvent_ok ?_
  rw [Ok, frameReceiveOp, M.run_bind_get]
  dsimp only
  rw [if_neg hx, h.bind_run]
  dsimp only
  rw [hdata.bind_run, M.run_bind_modify, hback.bind_run, M.run_modify, hport]

end

end Sys2Proof.Machine
end

section
/-! O58. The fabric, Ethernet and the timing port (R333, R368 to R373). -/
namespace Sys2Proof.Machine

section
variable {s : State} {l : Nat} {msgs : List FabMsg} {flit : List Byte}

/-- A flit of one message for this package, which need not wait. -/
theorem flit_one {m : FabMsg} (h : s.Arrives l msgs) (hok : flitOk flit = true) (hseq : flitSeq flit = (s.link l).seq)
    (hdest : flitDest flit = s.pkgId) (hmine : (msgs.filter fun m => m.cls == flitClass flit) = [m]) (hnow : s.msgWaits m = false) :
    runEvent (flitReceiveOp l flit msgs) s = .next ((s.flitTaken l flit).fabricMsg (flitSource flit) m) := by
  rw [flit_performs h hok hseq hdest (by rw [hmine]; simp [hnow]), hmine]
  rfl

theorem flitSource_lt (f : List Byte) : flitSource f < 4096 := by
  rw [flitSource_eq]
  omega

end

/-- Settles O58, each part by the lemma of its event. -/
theorem fabricAndPorts : Obligations.FabricAndPorts := by
  intro s
  refine ⟨fun l body crc msgs => ?flits, fun l => ?links, fun p => ?abandons, fun p d hp => ⟨frameTransmit_noPort hp, frameReceive_refused (.inr (.inr hp))⟩,
    fun p hp => ?frames, fun ns => ?timing⟩
  case flits =>
    dsimp only
    generalize hf : body ++ leBytes 8 crc.toNat = flit
    have hexec : exec (.flitReceive l body crc msgs) s = runEvent (flitReceiveOp l flit msgs) s := by rw [← hf]; rfl
    rw [hexec, ← flitOk_iff, ← slotsHold_iff, ← flitSeq_eq, ← flitDest_eq, ← flitSource_eq, ← flitClass_eq]
    refine ⟨fun h => ?_, fun hup hfails hfit hbad => ?_, fun hup hfails hfit hok hseq => ?_, fun hup hfails hfit hok hseq => ⟨fun hdest => ?_, fun hdest mine hmine => ?_⟩⟩
    · exact flit_stays (by simpa using h)
    · exact flit_fails ⟨hup, hfails, hfit⟩ (by simpa using hbad)
    · exact flit_replays ⟨hup, hfails, hfit⟩ hok hseq
    · exact flit_passes ⟨hup, hfails, hfit⟩ hok hseq hdest
    · have hcomes : s.Arrives l msgs := ⟨hup, hfails, hfit⟩
      have hone : ∀ {m}, mine = [m] → s.msgWaits m = false →
          runEvent (flitReceiveOp l flit msgs) s = .next ((s.flitTaken l flit).fabricMsg (flitSource flit) m) :=
        fun hm => flit_one hcomes hok hseq hdest (hmine ▸ hm)
      have hsame : s.SameBut (s.flitTaken l flit) := s.sameBut_setLink _ _
      refine ⟨fun hm => ?none, fun off d hm hend hhome => ?write, fun off r hm howed halign hhome hr => ?arrive,
        fun tag off len hm => ⟨fun hout => ?readOut, fun x u1 hin hread => ?readOk, fun f u1 hin hread => ?readFails⟩,
        fun tag off r v hm halign hhome hv => ?rmw, fun hm hdrain => ?abandonWaits, fun hm hdrain => ?abandon,
        fun i hm hi => ⟨fun hsrc => ?streamAbandon, fun hsrc => ?streamOther⟩, fun i idx x out hm hi => ?streamBlock⟩
      case none =>
        rw [flit_performs hcomes hok hseq hdest (by rw [← hmine, hm]; rfl), ← hmine, hm]
        rfl
      case write =>
        obtain ⟨hmem, hbut, hedge⟩ := fabricMsg_write (src := flitSource flit) hend (hhome.setLink l _)
        exact ⟨_, hone hm rfl, hmem, hedge.links, hsame.trans hbut⟩
      case arrive =>
        obtain ⟨hmem, hbut, hedge⟩ := fabricMsg_arrive (src := flitSource flit) (s := s.flitTaken l flit) howed halign (hhome.setLink l _) hr
        exact ⟨_, hone hm rfl, hmem, hedge.links, hsame.trans hbut⟩
      case readOut => rw [hone hm rfl, fabricMsg_read_out hout]; rfl
      case readOk => rw [hone hm rfl, fabricMsg_read_ok (s := s.flitTaken l flit) hin hread]; rfl
      case readFails =>
        refine ⟨_, hone hm rfl, ?_⟩
        rw [fabricMsg_read_fails (s := s.flitTaken l flit) hin hread, State.hubReport, State.log_rest]
        exact ⟨rfl, rfl, rfl⟩
      case rmw =>
        obtain ⟨hmem, hlinks, hbut, hout⟩ := fabricMsg_rmw (src := flitSource flit) (tag := tag) (s := s.flitTaken l flit) halign (hhome.setLink l _) hv
        exact ⟨_, hone hm rfl, hmem, hout, hlinks, hsame.trans hbut⟩
      case abandonWaits =>
        refine flit_waits hcomes hok hseq hdest ?_
        rw [← hmine, hm]
        simpa [State.msgWaits] using hdrain
      case abandon => exact hone hm hdrain
      case streamAbandon =>
        have hmsg : (s.flitTaken l flit).fabricMsg (flitSource flit) (.streamAbandon i) = (streamAbandonOp i).exec (s.flitTaken l flit) := by
          rw [State.fabricMsg, Nat.mod_eq_of_lt hi]
          exact if_pos hsrc
        rw [hone hm rfl, hmsg, ← runEvent_streamAbandon]
        show _ = runEvent (streamAbandonOp (i % 65536)) _
        rw [Nat.mod_eq_of_lt hi]
        rfl
      case streamOther =>
        have hmsg : (s.flitTaken l flit).fabricMsg (flitSource flit) (.streamAbandon i) = s.flitTaken l flit := by
          rw [State.fabricMsg, Nat.mod_eq_of_lt hi]
          exact if_neg hsrc
        rw [hone hm rfl, hmsg]
        rfl
      case streamBlock =>
        obtain ⟨m, hmsg, hrest⟩ := fabricMsg_streamBlock (s := s.flitTaken l flit) (idx := idx) (x := x) (out := out) hi (flitSource_lt flit)
        exact ⟨_, m, hone hm rfl, hmsg, hrest⟩
  case links =>
    refine ⟨linkDown_stays, fun hup hfails => ⟨_, linkDown_ends hup hfails, ?_⟩, fun p => ⟨linkOpen_stays, linkOpen_opens⟩⟩
    rw [State.log_rest]
    exact ⟨State.link_setLink .., fun j hj => State.link_setLink_ne s _ hj, rfl, rfl⟩
  case abandons =>
    refine ⟨fun hnone => ?_, fun n s1 s2 s3 w l s' hn hvalid hothers => ?_⟩
    · exact congrArg Host.Outcome.next (foldl_stays fun n hn => abandonEntry_invalid (hnone n (List.mem_range.mp hn)))
    · intro stw bar hread hmember howed hswap h1 h2 h3 hmmio
      have hact := collective_ok hswap h1 h2 h3
      have hafter : (s3.takeWrites (.hub 0)).mmio = s.mmio := (s3.takeWrites_mmio _).trans hmmio
      refine congrArg Host.Outcome.next (foldl_only (List.mem_range.mpr hn) List.nodup_range
        (abandonEntry_abandons hvalid hread hmember howed hact) (fun m hm hne => ?_) fun m hm hne => ?_)
      · exact abandonEntry_invalid (hothers m (List.mem_range.mp hm) hne)
      · refine abandonEntry_invalid ?_
        rw [fld_congr hafter]
        exact hothers m (List.mem_range.mp hm) hne
  case frames =>
    refine ⟨fun h => ?txNone, fun h d => ?rxNone, fun d s1 hsize hd => ?tx, fun d x s1 hsize hd => ?rx⟩
    case txNone => exact frameTransmit_stalls hp (ethDesc_none h)
    case rxNone => exact frameReceive_stalls (ethDesc_none h)
    case tx =>
      refine ⟨fun h => ?_, fun x s2 s3 hown hpos hlen hread hwrite heth => ?_⟩
      · rcases Nat.mod_two_eq_zero_or_one (fieldOf d 10 1) with hown | hown
        · exact frameTransmit_stalls hp (ethDesc_held hsize hd hown)
        · exact frameTransmit_length hp (ethDesc_owned hsize hd hown) (by omega)
      · exact frameTransmit_sends hp (ethDesc_owned hsize hd hown) ⟨hpos, hlen⟩ hread hwrite heth
    case rx =>
      refine ⟨fun h => ?_, fun s2 s3 hne hlen hown hdata hback heth => ?_⟩
      · rcases h with h | h | hown
        · exact frameReceive_refused (.inl h)
        · exact frameReceive_refused (.inr (.inl h))
        · exact frameReceive_stalls (ethDesc_held hsize hd hown)
      · exact frameReceive_lands (by simp [hne]; omega) (ethDesc_owned hsize hd hown) hdata hback heth
  case timing =>
    have hexec : exec (.timingPortLock ns) s = runEvent (timingLockOp ns) s := rfl
    rw [hexec]
    refine ⟨fun h => runEvent_ok ?_, fun h => runEvent_ok ?_⟩
    · simp only [Ok, timingLockOp, M.run_modify, if_pos h]
    · simp only [Ok, timingLockOp, M.run_modify, if_neg (Nat.not_le.mpr h)]

end Sys2Proof.Machine
end

section
/-! SUPPORT, O54. Fields of registers after a write, and what a write-back and the drop of lines leave alone (R107, R117). -/
namespace Sys2Proof.Machine

/-! ### Fields -/

section
variable {s : State} {a hi lo hi' lo' : Nat}

theorem State.testBit_setFld (v j : Nat) (hlo : lo ≤ hi) (hhi : hi < 64) :
    ((s.setFld a hi lo v).reg a).toNat.testBit j = if lo ≤ j ∧ j ≤ hi then v.testBit (j - lo) else (s.reg a).toNat.testBit j := by
  rw [State.setFld, State.reg_setReg, BitVec.toNat_ofNat, Nat.testBit_mod_two_pow, testBit_setBits _ _ _ hlo]
  rcases Nat.lt_or_ge j 64 with hj | hj
  · rw [decide_eq_true hj, Bool.true_and]
  · have hhigh : (s.reg a).toNat.testBit j = false :=
      Nat.testBit_lt_two_pow ((s.reg a).isLt.trans_le (Nat.pow_le_pow_right Nat.two_pos hj))
    rw [decide_eq_false (by omega), Bool.false_and, if_neg (by omega), hhigh]

/-- A field that was written reads as its bits. -/
theorem State.fld_setFld (v : Nat) (hlo : lo ≤ hi) (hhi : hi < 64) : (s.setFld a hi lo v).fld a hi lo = v % 2 ^ (hi + 1 - lo) := by
  refine bits_eq_of_testBit (Nat.mod_lt _ (Nat.two_pow_pos _)) fun i hi => ?_
  rw [State.testBit_setFld v _ hlo hhi, if_pos (by omega), Nat.testBit_mod_two_pow, decide_eq_true hi, Bool.true_and, Nat.add_sub_cancel_left]

/-- A field apart from the one that was written stands. -/
theorem State.fld_setFld_apart (v : Nat) (hlo : lo ≤ hi) (hhi : hi < 64) (h : hi' < lo ∨ hi < lo') :
    (s.setFld a hi lo v).fld a hi' lo' = s.fld a hi' lo' := by
  refine Nat.eq_of_testBit_eq fun i => ?_
  rw [State.fld, State.fld, bits_eq_div_mod, bits_eq_div_mod, Nat.testBit_mod_two_pow, Nat.testBit_mod_two_pow, Nat.testBit_div_two_pow,
    Nat.testBit_div_two_pow, State.testBit_setFld v _ hlo hhi]
  by_cases hin : i < hi' + 1 - lo'
  · rw [if_neg (by omega)]
  · rw [decide_eq_false hin, Bool.false_and, Bool.false_and]

theorem State.reg_setFld_ne {b : Nat} (v : Nat) (h : b ≠ a) : (s.setFld a hi lo v).reg b = s.reg b := State.reg_setReg_ne _ _ h

end

/-! ### Registers, the log and checks alone -/

/-- Two states that differ in registers, the head of the log and the checks of lines at most. -/
def State.NotesOnly (s t : State) : Prop := t = { s with mmio := t.mmio, logHead := t.logHead, lines := t.lines }

section
variable {s t u : State}

theorem State.NotesOnly.refl (s : State) : s.NotesOnly s := rfl

theorem State.NotesOnly.trans (h : s.NotesOnly t) (k : t.NotesOnly u) : s.NotesOnly u := by
  rw [State.NotesOnly] at h k ⊢
  rw [k, h]

theorem State.NotesOnly.foldl {β : Type} (g : State → β → State) (h : ∀ t b, State.NotesOnly t (g t b)) (l : List β) (s : State) :
    s.NotesOnly (l.foldl g s) :=
  List.foldlRecOn (motive := fun t => s.NotesOnly t) l g (.refl s) fun t ht b _ => ht.trans (h t b)

theorem State.notesOnly_log (s : State) (k d pa : Nat) (info : List Nat) : s.NotesOnly (s.log k d pa info) := by
  rw [State.log_rest]
  exact rfl

theorem State.notesOnly_poisonAt (s : State) (pa : Nat) : s.NotesOnly (s.poisonAt pa) := by
  rw [State.poisonAt]
  dsimp only
  split
  · exact rfl
  · exact rfl

theorem State.notesOnly_writeBack (s : State) (pa : Nat) (copy : W32) : s.NotesOnly (s.writeBack pa copy) := by
  rw [State.writeBack]
  split
  · exact .refl s
  · exact (s.notesOnly_poisonAt pa).trans (State.notesOnly_log ..)

theorem State.notesOnly_writeBackLine (s : State) (g : CTag) : s.NotesOnly (s.writeBackLine g) :=
  (s.notesOnly_writeBack _ _).trans (State.notesOnly_writeBack _ _ _)

end

end Sys2Proof.Machine
end

section
/-! SUPPORT, O54. Flushes of a range and of a context (R116, R117). -/
namespace Sys2Proof.Machine

section
variable {s : State}

/-! ### The tags that leave -/

theorem State.trimStale_spec (s : State) : s.trimStale.hubTags = s.hubTags ∧ s.trimStale.ccTags = s.ccTags ∧ s.trimStale.mem = s.mem ∧
    s.trimStale.stale = s.stale.filter fun c => s.present c.die (c.line / 2) := by
  rw [State.trimStale]
  split
  next hall =>
    rw [List.all_eq_true] at hall
    exact ⟨rfl, rfl, rfl, (List.filter_eq_self.mpr hall).symm⟩
  · exact ⟨rfl, rfl, rfl, rfl⟩

/-- A flush of tags leaves those that it does not pick. -/
theorem State.dropTags_eq (s : State) (p : CTag → Bool) : s.dropTags p =
    ({ s with hubTags := s.hubTags.filter fun e => !flushed p e, ccTags := s.ccTags.filter fun e => !flushed p e } : State).trimStale := by
  have hkeep : ∀ l : List (Nat × Option CTag), (l.filter fun e => match e.2 with
      | some t => t.staged.isSome || !p t
      | none => true) = l.filter fun e => !flushed p e := fun l => by
    refine List.filter_congr fun e _ => ?_
    rw [flushed]
    cases e.2 with
    | none => rfl
    | some t => cases hs : t.staged with
      | none => simp [hs]
      | some o => simp [hs]
  exact congrArg₂ (fun h c => ({ s with hubTags := h, ccTags := c } : State).trimStale) (hkeep s.hubTags) (hkeep s.ccTags)

theorem State.dropTags_spec (s : State) (p : CTag → Bool) :
    (s.dropTags p).hubTags = s.hubTags.filter (fun e => !flushed p e) ∧ (s.dropTags p).ccTags = s.ccTags.filter (fun e => !flushed p e) ∧
      (s.dropTags p).mem = s.mem ∧ (s.dropTags p).stale = s.stale.filter fun c => (s.dropTags p).present c.die (c.line / 2) := by
  obtain ⟨hhub, hcc, hmem, hstale⟩ := State.trimStale_spec
    { s with hubTags := s.hubTags.filter fun e => !flushed p e, ccTags := s.ccTags.filter fun e => !flushed p e }
  rw [← State.dropTags_eq] at hhub hcc hmem hstale
  refine ⟨hhub, hcc, hmem, hstale.trans ?_⟩
  simp only [State.present, State.sharers, hcc]

/-- The dirty tags among those that a flush picks. -/
def State.dirtyPicked (s : State) (p : CTag → Bool) : List CTag :=
  ((s.hubTags.filter (flushed p)) ++ (s.ccTags.filter (flushed p))).filterMap fun e => e.2.bind fun t => if t.dirty then some t else none

theorem State.mem_dirtyPicked {p : CTag → Bool} {g : CTag} (h : g ∈ s.dirtyPicked p) : ∃ e ∈ s.hubTags ++ s.ccTags, e.2 = some g := by
  obtain ⟨e, he, hbind⟩ := List.mem_filterMap.mp h
  obtain ⟨t, ht, hg⟩ := Option.bind_eq_some_iff.mp hbind
  obtain rfl : t = g := by
    split at hg
    · exact Option.some.inj hg
    · cases hg
  rw [← List.filter_append] at he
  exact ⟨e, List.mem_of_mem_filter he, ht⟩

theorem State.flushTags_eq (s : State) (p : CTag → Bool) : s.flushTags p =
    let dirty := ((s.dirtyPicked p).map (·.addr)).eraseDups
    let left := dirty.filter fun a => (s.downWrite 0 (a * 128)).isSome
    ((((s.dirtyPicked p).filter fun t => !left.contains t.addr).foldl State.writeBackLine s).dropTags fun t => p t && !left.contains t.addr,
      (dirty.filter fun a => !left.contains a).length, left.length) := rfl

/-- Where every home answers, a flush of tags writes the dirty ones back and drops them all. -/
theorem State.flushTags_up (hup : s.homesUp) (p : CTag → Bool) : ∃ u k, s.flushTags p = (u.dropTags p, k, 0) ∧ s.NotesOnly u := by
  have hleft : (((s.dirtyPicked p).map (·.addr)).eraseDups.filter fun a => (s.downWrite 0 (a * 128)).isSome) = [] := by
    refine List.filter_eq_nil_iff.mpr fun a ha => ?_
    obtain ⟨g, hg, rfl⟩ := List.mem_map.mp (List.mem_eraseDups.mp ha)
    obtain ⟨e, he, hsome⟩ := State.mem_dirtyPicked hg
    rw [hup e he g hsome]
    simp
  simp only [State.flushTags_eq, hleft, List.contains_nil, Bool.not_false, Bool.and_true]
  exact ⟨_, _, rfl, State.NotesOnly.foldl _ State.notesOnly_writeBackLine _ _⟩

theorem State.flushes_of_up (hup : s.homesUp) (mode : Nat) (p : CTag → Bool) : let r := s.flushTags p
    let t := r.1.flushStart mode (if r.2.2 = 0 then 0 else 1) r.2.1
    s.Flushes t mode p ∧ t.stale = s.stale.filter fun c => t.present c.die (c.line / 2) := by
  obtain ⟨u, k, hflush, hnotes⟩ := s.flushTags_up hup p
  obtain ⟨hhub, hcc, hmem, hstale⟩ := u.dropTags_spec p
  rw [hflush]
  rw [State.NotesOnly] at hnotes
  refine ⟨⟨?_, ?_, ?_, k, rfl, State.reg_setReg ..⟩, ?_⟩
  · exact hhub.trans (by rw [hnotes])
  · exact hcc.trans (by rw [hnotes])
  · exact hmem.trans (by rw [hnotes])
  · exact hstale.trans (by rw [hnotes]; rfl)

end

end Sys2Proof.Machine
end

section
/-! SUPPORT, O54. What a range flush may name (R95, R116, R117). -/
namespace Sys2Proof.Machine

section
variable {s : State} {lo hi pa base len : Nat}

/-- Regions are whole GiB (R97). -/
theorem RtEnt.has_page (e : RtEnt) (pa : Nat) : e.has (pa / 2 ^ 30 * 2 ^ 30) = e.has pa := by
  have hlow : e.base * 2 ^ 30 ≤ pa / 2 ^ 30 * 2 ^ 30 ↔ e.base * 2 ^ 30 ≤ pa := by omega
  have hhigh : pa / 2 ^ 30 * 2 ^ 30 < (e.base + e.size) * 2 ^ 30 ↔ pa < (e.base + e.size) * 2 ^ 30 := by omega
  simp only [RtEnt.has, hlow, hhigh]

theorem State.rtFind_page (s : State) (pa : Nat) : s.rtFind (pa / 2 ^ 30 * 2 ^ 30) = s.rtFind pa := by
  simp only [State.rtFind, RtEnt.has_page]

theorem State.rtFind_of_inRegions (h : s.inRegions lo hi = true) (hlo : lo ≤ pa) (hhi : pa < hi) : ∃ e, s.rtFind pa = some e := by
  have hpage := List.all_eq_true.mp h (pa / 2 ^ 30) (mem_span_iff.mpr (by omega))
  rw [s.rtFind_page] at hpage
  exact Option.isSome_iff_exists.mp hpage

theorem State.loc_dram_of_rtFind {e : RtEnt} (hn : s.norm pa < 2 ^ 39) (h : s.rtFind (s.norm pa) = some e) :
    s.loc pa = .dram (e.place (s.norm pa - e.base * 2 ^ 30)).1 (e.place (s.norm pa - e.base * 2 ^ 30)).2 := by
  rw [State.loc, if_pos hn, h]

theorem State.loc_host (hlo : 2 ^ 50 ≤ pa) (hhi : pa < 2 ^ 50 + 2 ^ 48) : s.loc pa = .host := by
  have hn := s.norm_of_lt (pa := pa) (by omega)
  rw [State.loc, hn]
  dsimp only
  rw [if_neg (by omega), if_neg (by omega), if_neg (by omega), if_neg (by omega), if_neg (by omega), if_neg (by omega), if_neg (by omega),
    if_pos ⟨hlo, hhi⟩]

theorem State.loc_remote (hlo : 2 ^ 51 ≤ pa) (hhi : pa < 2 ^ 52) (hpkg : bits pa 50 39 ≠ s.pkgId) : s.loc pa = .remote (bits pa 50 39) := by
  have hn : s.norm pa = pa := if_neg fun h => hpkg h.2.2
  rw [State.loc, hn]
  dsimp only
  rw [if_neg (by omega), if_neg (by omega), if_neg (by omega), if_neg (by omega), if_neg (by omega), if_neg (by omega), if_neg (by omega),
    if_neg (by omega), if_pos ⟨hlo, hhi⟩]

theorem spBase_window_le (h : spBase 0 ≤ base) : spBase ((base - spBase 0) / 0x1000000) ≤ base := by
  have hfloor := Nat.div_mul_le_self (base - spBase 0) 0x1000000
  calc spBase ((base - spBase 0) / 0x1000000) = spBase 0 + (base - spBase 0) / 0x1000000 * 0x1000000 := rfl
    _ ≤ base := by omega

/-- Where a line of a range that may be flushed can lie. -/
def Loc.flushable : Loc → Prop
  | .dram _ _ | .sp _ _ | .host | .remote _ => True
  | _ => False

theorem State.flushable_of_rangeOk (h : s.rangeBad base len = false) (hlo : base ≤ pa) (hhi : pa < base + len) : (s.loc pa).flushable := by
  rw [State.rangeBad, Bool.or_eq_false_iff, Bool.not_eq_false'] at h
  obtain ⟨-, hplace⟩ := h
  dsimp only at hplace
  split at hplace
  case isTrue hdram =>
    have hn := s.norm_of_lt (pa := pa) (by omega)
    obtain ⟨e, he⟩ := State.rtFind_of_inRegions hplace hlo hhi
    rw [State.loc_dram_of_rtFind (e := e) (by rw [hn]; omega) (by rw [hn]; exact he)]
    trivial
  split at hplace
  case isTrue hremote =>
    by_cases hpkg : bits pa 50 39 = s.pkgId
    · have hown : s.norm pa = bits pa 38 0 := if_pos ⟨by omega, by omega, hpkg⟩
      rw [bits_eq_div_mod] at hpkg hown
      rw [← hpkg, if_pos (by omega)] at hplace
      obtain ⟨e, he⟩ := State.rtFind_of_inRegions (pa := s.norm pa) hplace (by rw [hown]; omega) (by rw [hown]; omega)
      rw [State.loc_dram_of_rtFind (by rw [hown]; omega) he]
      trivial
    · rw [State.loc_remote (by omega) (by omega) hpkg]
      trivial
  case isFalse =>
    simp only [Bool.or_eq_true, decide_eq_true_eq] at hplace
    rcases hplace with hhost | ⟨hsp, hn, hend⟩
    · rw [State.loc_host (by omega) (by omega)]
      trivial
    · have hbase := spBase_window_le hsp
      generalize (base - spBase 0) / 0x1000000 = n at hn hend hbase
      have hoff : pa = spBase n + (pa - spBase n) := (Nat.add_sub_of_le (hbase.trans hlo)).symm
      rw [s.loc_sp hn hoff (by omega)]
      trivial

theorem State.rangeBad_of_shape (h : base % 128 ≠ 0 ∨ len = 0 ∨ len % 128 ≠ 0) : s.rangeBad base len = true := by
  rw [State.rangeBad]
  dsimp only
  rw [decide_eq_true h, Bool.true_or]

theorem State.rangeBad_of_place (hlo : base ≤ pa) (hhi : pa < base + len) (h : s.loc pa = .bad ∨ s.isMmio pa = true ∨ ∃ o, s.loc pa = .hub o) :
    s.rangeBad base len = true := by
  by_contra hok
  have hplace := State.flushable_of_rangeOk (Bool.not_eq_true _ ▸ hok) hlo hhi
  rcases h with h | h | ⟨o, h⟩
  · rw [h] at hplace
    exact hplace
  · rw [State.isMmio] at h
    split at h
    next p hp => rw [hp] at hplace; exact hplace
    next => cases h
  · rw [h] at hplace
    exact hplace

end

end Sys2Proof.Machine
end

section
/-! SUPPORT, O54. The flush commands: refused, held up, and done (R101, R116, R117, R385). -/
namespace Sys2Proof.Machine

section
variable {s : State} {base len c : Nat}

/-! ### While one runs -/

/-- A flush or a thaw while a flush is in progress is ignored with RES 3. -/
theorem flush_busy (h : s.flush ≠ none) (base len first last c : Nat) :
    ∀ m ∈ [hubFlushRangeOp base len, hubFlushWaysOp first last, hubFlushContextOp c, hubThawOp],
      runEvent m s = .next (s.setFld hfStat 3 1 3) := by
  have hsome : s.flush.isSome = true := Option.isSome_iff_ne_none.mpr h
  refine List.forall_mem_cons.mpr ⟨?_, List.forall_mem_cons.mpr ⟨?_, List.forall_mem_cons.mpr ⟨?_, List.forall_mem_cons.mpr ⟨?_, fun _ hm => by cases hm⟩⟩⟩⟩ <;>
    refine runEvent_ok ?_
  · simp only [Ok, hubFlushRangeOp, M.run_bind_get, if_pos hsome, M.run_modify]
  · simp only [Ok, hubFlushWaysOp, M.run_bind_get, if_pos hsome, M.run_modify]
  · simp only [Ok, hubFlushContextOp, M.run_bind_get, if_pos hsome, M.run_modify]
  · simp only [Ok, hubThawOp, M.run_bind_get, if_pos hsome, M.run_modify]

theorem hubThaw_idle (h : s.flush = none) : runEvent hubThawOp s = .next { s.setReg hfStat 0 with frozenWays := [] } := by
  refine runEvent_ok ?_
  simp only [Ok, hubThawOp, M.run_bind_get, h, Option.isSome_none, Bool.false_eq_true, if_false, M.run_modify]

/-! ### What it waits for -/

theorem State.flushWaits_iff (reach : Nat → Bool) :
    s.flushWaits reach = true ↔ s.rtDrain = true ∨ ∃ h ∈ s.heldW, reach (h.pa / 128) = true := by
  rw [State.flushWaits, Bool.or_eq_true, List.any_eq_true]

theorem State.tagged_iff (p : CTag → Bool) (addr : Nat) :
    s.tagged p addr = true ↔ ∃ e ∈ s.hubTags ++ s.ccTags, ∃ t, e.2 = some t ∧ t.staged = none ∧ t.addr = addr ∧ p t = true := by
  rw [State.tagged, List.any_eq_true]
  refine exists_congr fun e => and_congr_right fun _ => ?_
  cases e.2 with
  | none => simp
  | some t => simp [and_assoc, and_left_comm]

theorem State.flushHeld_iff (p : CTag → Bool) : s.FlushHeld p ↔ s.flushWaits (s.tagged p) = true := by
  simp only [State.FlushHeld, State.flushWaits_iff, State.tagged_iff]

/-! ### A range and a context -/

theorem hubFlushRange_bad (h : s.flush = none) (hbad : s.rangeBad base len = true) :
    runEvent (hubFlushRangeOp base len) s = .next (s.setReg hfStat 4#64) := by
  refine runEvent_ok ?_
  simp only [Ok, hubFlushRangeOp, M.run_bind_get, h, Option.isSome_none, Bool.false_eq_true, if_false, if_pos hbad, M.run_modify]
  rfl

theorem hubFlushRange_waits (h : s.flush = none) (hok : s.rangeBad base len = false)
    (hwait : s.flushWaits (fun a => s.inRange base len (a * 128)) = true) : runEvent (hubFlushRangeOp base len) s = .next s := by
  refine runEvent_stall (t := s) ?_
  simp only [hubFlushRangeOp, M.run_bind_get, h, Option.isSome_none, hok, Bool.false_eq_true, if_false, if_pos hwait, M.run_bind_throw]

theorem hubFlushRange_done (h : s.flush = none) (hok : s.rangeBad base len = false)
    (hwait : ¬s.flushWaits (fun a => s.inRange base len (a * 128)) = true) : runEvent (hubFlushRangeOp base len) s =
      .next (let r := s.flushTags fun t => s.inRange base len (t.addr * 128)
        r.1.flushStart 0 (if r.2.2 = 0 then 0 else 1) r.2.1) := by
  refine runEvent_ok ?_
  simp only [Ok, hubFlushRangeOp, M.run_bind_get, h, Option.isSome_none, hok, Bool.false_eq_true, if_false, if_neg hwait, M.run_modify]

theorem hubFlushContext_waits (h : s.flush = none) (hwait : s.flushWaits (s.tagged fun t => t.ctx == c) = true) :
    runEvent (hubFlushContextOp c) s = .next s := by
  refine runEvent_stall (t := s) ?_
  simp only [hubFlushContextOp, M.run_bind_get, h, Option.isSome_none, Bool.false_eq_true, if_false, if_pos hwait, M.run_bind_throw]

theorem hubFlushContext_done (h : s.flush = none) (hwait : ¬s.flushWaits (s.tagged fun t => t.ctx == c) = true) :
    runEvent (hubFlushContextOp c) s = .next (let r := s.flushTags fun t => t.ctx == c
      r.1.flushStart 2 (if r.2.2 = 0 then 0 else 1) r.2.1) := by
  refine runEvent_ok ?_
  simp only [Ok, hubFlushContextOp, M.run_bind_get, h, Option.isSome_none, Bool.false_eq_true, if_false, if_neg hwait, M.run_modify]

end

end Sys2Proof.Machine
end

section
/-! SUPPORT, O54. The flush of ways (R117). -/
namespace Sys2Proof.Machine

/-! ### What a way flush works on -/

/-- The dirty lines of ways, which have to be written back. -/
def State.wayDirty (s : State) (inW : Nat → Bool) : List CTag :=
  (s.hubTags.filter fun e => inW e.1).filterMap fun e => e.2.bind fun t => if t.dirty && t.staged.isNone then some t else none

/-- The staged lines of ways, which have to move, with their owners. -/
def State.wayStaged (s : State) (inW : Nat → Bool) : List (Nat × CTag) :=
  (s.hubTags.filter fun e => inW e.1).filterMap fun e => e.2.bind fun t => t.staged.map fun n => (n, t)

/-- The scratchpad bytes of ways (R114). -/
def ofWays (ways : List Nat) (pa : Nat) : Bool :=
  decide (0x010000000000 ≤ pa ∧ pa < 0x010040000000) && ways.contains (bits (pa - 0x010000000000) 29 26)

/-- The ways of a table with some more of them frozen. -/
def freezeWays (ways : List Nat) (t : Table Bool) : Table Bool := ways.foldl (fun t w => Table.put false t w true) t

theorem get_freezeWays (ways : List Nat) (t : Table Bool) (w : Nat) :
    Table.get false (freezeWays ways t) w = (ways.contains w || Table.get false t w) := by
  induction ways generalizing t with
  | nil => rfl
  | cons v ws ih =>
    rw [freezeWays, List.foldl_cons, ← freezeWays, ih, Table.get_put, List.contains_cons]
    by_cases hv : w = v
    · simp [hv]
    · simp [hv, beq_false_of_ne hv]

section
variable {s : State} {first last : Nat}

theorem State.wayDirty_mem {inW : Nat → Bool} {g : CTag} (h : g ∈ s.wayDirty inW) : ∃ e ∈ s.hubTags, e.2 = some g := by
  obtain ⟨e, he, hbind⟩ := List.mem_filterMap.mp h
  obtain ⟨t, ht, hg⟩ := Option.bind_eq_some_iff.mp hbind
  obtain rfl : t = g := by
    split at hg
    · exact Option.some.inj hg
    · cases hg
  exact ⟨e, List.mem_of_mem_filter he, ht⟩

/-- Where every home answers no line stays in a way. -/
theorem State.wayLeft_nil (h : s.homesUp) (inW : Nat → Bool) :
    (((s.wayDirty inW).map (·.addr)).filter fun a => (s.downWrite 0 (a * 128)).isSome) = [] := by
  refine List.filter_eq_nil_iff.mpr fun a ha => ?_
  obtain ⟨g, hg, rfl⟩ := List.mem_map.mp ha
  obtain ⟨e, he, hsome⟩ := State.wayDirty_mem hg
  rw [h e (List.mem_append_left _ he) g hsome]
  simp

theorem State.wayStaged_nil {inW : Nat → Bool} (h : ∀ e ∈ s.hubTags, ∀ t, e.2 = some t → t.staged = none) : s.wayStaged inW = [] := by
  refine List.filterMap_eq_nil_iff.mpr fun e he => ?_
  have hnone := h e (List.mem_of_mem_filter he)
  cases ht : e.2 with
  | none => rfl
  | some t => simp [hnone t ht]

/-! ### The command -/

theorem hubFlushWays_order (h : s.flush = none) (hlt : last < first) :
    runEvent (hubFlushWaysOp first last) s = .next (s.setReg hfStat 4#64) := by
  refine runEvent_ok ?_
  simp only [Ok, hubFlushWaysOp, M.run_bind_get, h, Option.isSome_none, Bool.false_eq_true, if_false, if_pos hlt, M.run_modify]
  rfl

/-- Where the copies of a line that a flush of the ways takes lie in the hub. -/
def State.inWays (s : State) (ways : List Nat) (addr : Nat) : Bool :=
  s.hubTags.any fun e => ways.contains (e.1 / 8192 % 16) && e.2.any fun t => t.staged.isNone && t.addr == addr

theorem State.inWays_iff (ways : List Nat) (addr : Nat) :
    s.inWays ways addr = true ↔ ∃ e ∈ s.hubTags, ∃ t, e.2 = some t ∧ t.staged = none ∧ t.addr = addr ∧ e.1 / 8192 % 16 ∈ ways := by
  rw [State.inWays, List.any_eq_true]
  refine exists_congr fun e => and_congr_right fun _ => ?_
  cases e.2 with
  | none => simp
  | some t => simp [and_comm, and_assoc, and_left_comm]

theorem hubFlushWays_waits (h : s.flush = none) (hle : ¬last < first)
    (hwait : s.flushWaits (s.inWays (span first (last + 1 - first))) = true) : runEvent (hubFlushWaysOp first last) s = .next s := by
  refine runEvent_stall (t := s) ?_
  simp only [hubFlushWaysOp, M.run_bind_get, h, Option.isSome_none, Bool.false_eq_true, if_false, if_neg hle]
  exact (congrArg (fun m : M PUnit => m.run s) (if_pos hwait)).trans (M.run_bind_throw ..)

/-- What a flush of the ways from `first` to `last` leaves, where it takes every line of them: the command in progress, the ways frozen and
empty, and what they hold as scratchpad zero. -/
structure State.WaysFlushed (s : State) (first last : Nat) (t : State) : Prop where
  going : ∃ k, t.flush = some { mode := 1, a := first, b := last, res := 0, count := k }
  busy : t.reg hfStat = 1#64
  frozen : t.frozenWays = freezeWays (span first (last + 1 - first)) s.frozenWays
  tags : t.hubTags = s.hubTags.filter fun e => !(span first (last + 1 - first)).contains (e.1 / 8192 % 16)
  mem : t.mem = Table.dropWhere (ofWays (span first (last + 1 - first))) s.mem

theorem hubFlushWays_done (h : s.flush = none) (hle : ¬last < first) (hwait : ¬s.flushWaits (s.inWays (span first (last + 1 - first))) = true)
    (hup : s.homesUp) (hstaged : ∀ e ∈ s.hubTags, ∀ t, e.2 = some t → t.staged = none) :
    ∃ t, runEvent (hubFlushWaysOp first last) s = .next t ∧ s.WaysFlushed first last t := by
  have hidle : ¬s.flush.isSome = true := by simp [h]
  have hrun : ∃ t, (hubFlushWaysOp first last).run s = (.ok ⟨⟩, t) ∧ s.WaysFlushed first last t := by
    rw [hubFlushWaysOp, M.run_bind_get, if_neg hidle, if_neg hle]
    extract_lets ways inW
    refine ⟨_, (congrArg (fun m : M PUnit => m.run s) (if_neg hwait)).trans (M.run_modify _ _), ?_⟩
    extract_lets z dirty left done u moved v w x y
    have hleft : left = [] := State.wayLeft_nil (s := z) hup inW
    have hu : z.NotesOnly u := State.NotesOnly.foldl _ State.notesOnly_writeBackLine _ _
    have hutags : u.hubTags = s.hubTags := by rw [hu]
    have hmoved : moved = [] := State.wayStaged_nil (by rwa [hutags])
    have hw : w = v := by rw [show w = moved.foldl (fun t m => t.moveStaged m.1 m.2) v from rfl, hmoved, List.foldl_nil]
    have hkept : v.hubTags = s.hubTags.filter fun e => !inW e.1 := by
      refine (congrArg _ hutags).trans (List.filter_congr fun e _ => ?_)
      rw [hleft]
      cases e.2 with
      | none => exact Bool.or_false _
      | some t => exact (congrArg (_ || ·) (Bool.and_false _)).trans (Bool.or_false _)
    have hzero : x.mem = Table.dropWhere (ofWays ways) w.mem := rfl
    refine ⟨⟨done.length, ?_⟩, State.reg_setReg .., ?_, ?_, ?_⟩
    · show some _ = some _
      rw [if_pos hleft]
    · show w.frozenWays = _
      rw [hw, show v.frozenWays = u.frozenWays from rfl, hu]
      rfl
    · show w.hubTags = _
      rw [hw, hkept]
    · show x.mem = _
      rw [hzero, hw, show v.mem = u.mem from rfl, hu]
  obtain ⟨t, hok, ht⟩ := hrun
  exact ⟨t, runEvent_ok hok, ht⟩

end

end Sys2Proof.Machine
end

section
/-! SUPPORT, O54. What a flush of ways leaves, and its end (R117). -/
namespace Sys2Proof.Machine

section
variable {s t : State} {first last w : Nat}

/-! ### The ways after a flush -/

theorem mem_waySpan (hle : first ≤ last) : w ∈ span first (last + 1 - first) ↔ first ≤ w ∧ w ≤ last := by
  rw [mem_span_iff]
  omega

theorem ofWays_iff (hle : first ≤ last) (pa : Nat) : ofWays (span first (last + 1 - first)) pa = true ↔
    0x010000000000 ≤ pa ∧ pa < 0x010040000000 ∧ first ≤ (pa - 0x010000000000) / 2 ^ 26 % 16 ∧ (pa - 0x010000000000) / 2 ^ 26 % 16 ≤ last := by
  rw [ofWays, Bool.and_eq_true, decide_eq_true_eq, List.contains_iff_mem, mem_waySpan hle, bits_eq_div_mod, and_assoc]
  exact Iff.rfl

theorem State.WaysFlushed.frozen_way (h : s.WaysFlushed first last t) (hlo : first ≤ w) (hhi : w ≤ last) :
    Table.get false t.frozenWays w = true := by
  rw [h.frozen, get_freezeWays, List.contains_iff_mem.mpr ((mem_waySpan (hlo.trans hhi)).mpr ⟨hlo, hhi⟩), Bool.true_or]

theorem State.WaysFlushed.mem_tags (h : s.WaysFlushed first last t) (hle : first ≤ last) (e : Nat × Option CTag) :
    e ∈ t.hubTags ↔ e ∈ s.hubTags ∧ ¬(first ≤ e.1 / 8192 % 16 ∧ e.1 / 8192 % 16 ≤ last) := by
  rw [h.tags, List.mem_filter, ← mem_waySpan hle, Bool.not_eq_true', ← Bool.not_eq_true, List.contains_iff_mem]

theorem State.WaysFlushed.read (h : s.WaysFlushed first last t) (pa : Nat) :
    Memory.read t.mem pa = if ofWays (span first (last + 1 - first)) pa then 0#8 else Memory.read s.mem pa := by
  rw [Memory.read, h.mem, Table.get_dropWhere]
  rfl

/-! ### The end of a flush -/

/-- A part of a way that becomes CLEAN with the way. -/
def State.emptyPart (s : State) (k w : Nat) : Bool :=
  k / 4 == w && !(s.hubTags.any fun e => e.2.isSome && e.1 / 8192 % 16 == w && e.1 / 8192 / 16 / 16 == k % 4)

theorem State.cleanWays_rest (l : List Nat) (s : State) : ∃ d, l.foldl State.cleanWay s = { s with dirtyWays := d } ∧
    ∀ k, Table.get false d k = if l.any (s.emptyPart k) then false else Table.get false s.dirtyWays k := by
  induction l generalizing s with
  | nil => exact ⟨s.dirtyWays, rfl, fun k => rfl⟩
  | cons w l ih =>
    obtain ⟨d, hd, hget⟩ := ih (s.cleanWay w)
    refine ⟨d, hd, fun k => (hget k).trans ?_⟩
    have hhead : Table.get false (s.cleanWay w).dirtyWays k = if s.emptyPart k w then false else Table.get false s.dirtyWays k :=
      Table.get_dropWhere (s.emptyPart · w) s.dirtyWays k
    have htail : (s.cleanWay w).emptyPart k = s.emptyPart k := rfl
    rw [hhead, htail, List.any_cons]
    cases s.emptyPart k w <;> simp

theorem State.clean_iff : s.clean w = true ↔ ∀ l, l < 4 → Table.get false s.dirtyWays (wayPart w l) = false := by
  simp only [State.clean, List.all_eq_true, List.mem_range, Bool.not_eq_true']

/-- A way among those of the flush that holds no line is CLEAN. -/
theorem State.clean_cleanWays {l : List Nat} (hw : w ∈ l) (hempty : ∀ e ∈ s.hubTags, e.2 ≠ none → e.1 / 8192 % 16 ≠ w) :
    (l.foldl State.cleanWay s).clean w = true := by
  obtain ⟨d, hd, hget⟩ := State.cleanWays_rest l s
  rw [hd, State.clean_iff]
  intro layer hlayer
  have hpart : s.emptyPart (wayPart w layer) w = true := by
    have hway : wayPart w layer / 4 = w := by rw [wayPart]; omega
    rw [State.emptyPart, hway, beq_self_eq_true, Bool.true_and, Bool.not_eq_true', List.any_eq_false]
    intro e he hin
    simp only [Bool.and_eq_true, beq_iff_eq] at hin
    exact hempty e he (Option.isSome_iff_ne_none.mp hin.1.1) hin.1.2
  exact (hget _).trans (if_pos (List.any_eq_true.mpr ⟨w, hw, hpart⟩))

theorem hubFlushDone_idle (h : s.flush = none) : runEvent hubFlushDoneOp s = .next s := by
  refine runEvent_stall (t := s) ?_
  simp only [hubFlushDoneOp, M.run_bind_get, h, M.run_throw]

/-- The command's end as it stands in its register and in the log. -/
def State.flushReported (s : State) (f : FlushSt) : State :=
  (s.setReg hfStat (BitVec.ofNat 64 (2 * f.res + f.count % 2 ^ 32 * 2 ^ 32))).log 0x05 0x0C 0 [2, f.res, f.count]

theorem hubFlushDone_eq {f : FlushSt} (h : s.flush = some f) : runEvent hubFlushDoneOp s = .next
    { (if f.mode = 1 then (span f.a (f.b + 1 - f.a)).foldl State.cleanWay (s.flushReported f) else s.flushReported f) with flush := none } := by
  refine runEvent_ok ?_
  simp only [Ok, hubFlushDoneOp, M.run_bind_get, h]
  exact M.run_modify ..

theorem State.reg_flushReported (f : FlushSt) :
    (s.flushReported f).reg hfStat = BitVec.ofNat 64 (2 * f.res + f.count % 2 ^ 32 * 2 ^ 32) := by
  rw [State.flushReported, State.reg_log_below _ (by decide), State.reg_setReg]

theorem State.flushReported_rest (f : FlushSt) : ∃ m h, s.flushReported f = { s with mmio := m, logHead := h } := by
  rw [State.flushReported, State.log_rest]
  exact ⟨_, _, rfl⟩

theorem hubFlushDone_spec {f : FlushSt} (h : s.flush = some f) : ∃ t, runEvent hubFlushDoneOp s = .next t ∧ t.flush = none ∧
    t.reg hfStat = BitVec.ofNat 64 (2 * f.res + f.count % 2 ^ 32 * 2 ^ 32) ∧ t.mem = s.mem ∧
    (∀ w, f.mode = 1 → f.a ≤ w → w ≤ f.b → (∀ e ∈ s.hubTags, e.2 ≠ none → e.1 / 8192 % 16 ≠ w) → t.clean w = true) ∧
    ∀ w, f.mode ≠ 1 → t.clean w = s.clean w := by
  have hreg := s.reg_flushReported f
  obtain ⟨m, k, hrest⟩ := s.flushReported_rest f
  refine ⟨_, hubFlushDone_eq h, rfl, ?_⟩
  by_cases hmode : f.mode = 1
  · obtain ⟨d, hd, -⟩ := State.cleanWays_rest (span f.a (f.b + 1 - f.a)) (s.flushReported f)
    rw [if_pos hmode]
    refine ⟨?_, ?_, fun w _ hlo hhi hempty => ?_, fun w hne => absurd hmode hne⟩
    · rw [hd]
      exact hreg
    · rw [hd, hrest]
    · refine State.clean_cleanWays (s := s.flushReported f) ((mem_waySpan (hlo.trans hhi)).mpr ⟨hlo, hhi⟩) ?_
      rw [hrest]
      exact hempty
  · rw [if_neg hmode]
    refine ⟨hreg, ?_, fun w hone => absurd hone hmode, fun w _ => ?_⟩
    · rw [hrest]
    · rw [hrest]
      rfl

end

end Sys2Proof.Machine
end

section
/-! SUPPORT, O54. The commit of a region table (R100, R101). -/
namespace Sys2Proof.Machine

/-! ### The check of the staged table -/

/-- The staged table as a list. -/
def State.stagedTable (s : State) : List RtEnt := (List.range 64).map s.rtStaged

/-- What the check says of one entry of a table (R100). -/
def rtVerdict (es : List RtEnt) (p : RtEnt × Nat) : Option (Nat × Nat) :=
  let e := p.1
  let others := es.zipIdx.filter fun q => q.2 != p.2
  if e.valid = false then none
  else if e.rangeBad then some (1, p.2)
  else if others.any fun q => q.1.overlaps e then some (2, p.2)
  else if others.any fun q => q.1.stackClash e then some (3, p.2)
  else if e.rplen then
    match es[e.rplidx]? with
    | some t => if e.rplidx = p.2 ∨ t.valid = false ∨ t.size ≠ e.size ∨ t.rplen then some (4, p.2) else none
    | none => some (4, p.2)
  else none

section
variable {s : State} {n : Nat}

theorem State.rtCheck_eq (s : State) : s.rtCheck = (s.stagedTable.zipIdx.findSome? (rtVerdict s.stagedTable)).getD (0, 0) := rfl

theorem rtVerdict_some {es : List RtEnt} {p : RtEnt × Nat} {r : Nat × Nat} (h : rtVerdict es p = some r) : r.1 ≤ 4 ∧ r.2 = p.2 := by
  rw [rtVerdict] at h
  split at h
  · cases h
  split at h
  · cases h; exact ⟨by simp, rfl⟩
  split at h
  · cases h; exact ⟨by simp, rfl⟩
  split at h
  · cases h; exact ⟨by simp, rfl⟩
  split at h
  case isFalse => cases h
  split at h
  · split at h
    · cases h; exact ⟨by simp, rfl⟩
    · cases h
  · cases h; exact ⟨by simp, rfl⟩

/-- RES and the entry fit their fields. -/
theorem State.rtCheck_lt (s : State) : s.rtCheck.1 < 8 ∧ s.rtCheck.2 < 64 := by
  rw [State.rtCheck_eq]
  cases hfind : s.stagedTable.zipIdx.findSome? (rtVerdict s.stagedTable) with
  | none => decide
  | some r =>
    obtain ⟨p, hp, hv⟩ := List.exists_of_findSome?_eq_some hfind
    obtain ⟨hres, hidx⟩ := rtVerdict_some hv
    have hlt := (List.mem_zipIdx' hp).1
    rw [State.stagedTable, List.length_map, List.length_range] at hlt
    exact ⟨Nat.lt_of_le_of_lt hres (by decide), hidx ▸ hlt⟩

/-- The first valid entry with a field out of range is the one that the check names. -/
theorem State.rtCheck_first (hn : n < 64) (hfirst : ∀ m, m < n → (s.rtStaged m).valid = false) (hbad : (s.rtStaged n).rangeBad = true) :
    s.rtCheck = (1, n) := by
  have hlen : n < s.stagedTable.zipIdx.length := by
    rwa [List.length_zipIdx, State.stagedTable, List.length_map, List.length_range]
  have hget : ∀ m (h : m < s.stagedTable.zipIdx.length), s.stagedTable.zipIdx[m] = (s.rtStaged m, m) := fun m h => by
    simp [State.stagedTable]
  have hfind : s.stagedTable.zipIdx.findSome? (rtVerdict s.stagedTable) = some (1, n) := by
    refine List.findSome?_eq_some_iff.mpr ⟨s.stagedTable.zipIdx.take n, (s.rtStaged n, n), s.stagedTable.zipIdx.drop (n + 1), ?_, ?_, ?_⟩
    · rw [← hget n hlen, ← List.drop_eq_getElem_cons hlen, List.take_append_drop]
    · have hvalid : (s.rtStaged n).valid = true := by
        rw [RtEnt.rangeBad, Bool.and_eq_true] at hbad
        exact hbad.1
      rw [rtVerdict]
      dsimp only
      rw [if_neg (by simp [hvalid]), if_pos hbad]
    · intro p hp
      obtain ⟨m, hm, rfl⟩ := List.mem_take_iff_getElem.mp hp
      rw [hget m (by omega), rtVerdict]
      exact if_pos (hfirst m (by omega))
  rw [State.rtCheck_eq, hfind]
  rfl

/-! ### COMMIT -/

theorem State.rt_congr {t : State} (h : ∀ a, a < 0x030000101000 → t.reg a = s.reg a) (hn : n < 64) :
    t.rtActive n = s.rtActive n ∧ t.rtStaged n = s.rtStaged n := by
  refine ⟨?_, ?_⟩
  · rw [State.rtActive, h _ (by omega), h _ (by omega)]
    rfl
  · rw [State.rtStaged, h _ (by omega), h _ (by omega)]
    rfl

theorem regionTableCommit_busy (h : s.rtDrain = true) : runEvent regionTableCommitOp s = .next (s.setFld rtStat 18 16 5) := by
  refine runEvent_ok ?_
  simp only [Ok, regionTableCommitOp, M.run_bind_get, if_pos h, M.run_modify]

/-- The result of a check as the status register and the log have it. -/
def State.rtReported (s : State) (r : Nat × Nat) : State :=
  ((s.setFld rtStat 18 16 r.1).setFld rtStat 29 24 r.2).log 0x05 0x0C 0 [1, r.1, r.2]

theorem regionTableCommit_eq (h : s.rtDrain = false) : runEvent regionTableCommitOp s =
    .next (if s.rtCheck.1 = 0 then { s.rtReported s.rtCheck with rtDrain := true } else s.rtReported s.rtCheck) := by
  refine runEvent_ok ?_
  simp only [Ok, regionTableCommitOp, M.run_bind_get, h, Bool.false_eq_true, if_false, M.run_bind_modify]
  split
  · exact M.run_modify ..
  · exact M.run_pure ..

theorem State.rtReported_rest (r : Nat × Nat) : ∃ m h, s.rtReported r = { s with mmio := m, logHead := h } := by
  rw [State.rtReported, State.log_rest]
  exact ⟨_, _, rfl⟩

theorem State.reg_rtReported (r : Nat × Nat) {a : Nat} (h : a < 0x030001720608) :
    (s.rtReported r).reg a = ((s.setFld rtStat 18 16 r.1).setFld rtStat 29 24 r.2).reg a := State.reg_log_below _ h _ _ _ _

theorem State.fld_rtReported (r : Nat × Nat) (hi lo : Nat) :
    (s.rtReported r).fld rtStat hi lo = ((s.setFld rtStat 18 16 r.1).setFld rtStat 29 24 r.2).fld rtStat hi lo := by
  rw [State.fld, State.fld, State.reg_rtReported r (by decide)]

theorem regionTableCommit_spec (h : s.rtDrain = false) : ∃ t, runEvent regionTableCommitOp s = .next t ∧
    t.fld rtStat 18 16 = s.rtCheck.1 ∧ t.fld rtStat 29 24 = s.rtCheck.2 ∧ t.fld rtStat 15 8 = s.fld rtStat 15 8 ∧
    t.rtDrain = (s.rtCheck.1 == 0) ∧ t.mem = s.mem ∧ ∀ n, n < 64 → t.rtActive n = s.rtActive n ∧ t.rtStaged n = s.rtStaged n := by
  obtain ⟨hres, hidx⟩ := s.rtCheck_lt
  generalize hr : s.rtCheck = r at hres hidx
  have hcode : (s.rtReported r).fld rtStat 18 16 = r.1 := by
    rw [State.fld_rtReported, State.fld_setFld_apart _ (by decide) (by decide) (by decide), State.fld_setFld _ (by decide) (by decide)]
    exact Nat.mod_eq_of_lt hres
  have hentry : (s.rtReported r).fld rtStat 29 24 = r.2 := by
    rw [State.fld_rtReported, State.fld_setFld _ (by decide) (by decide)]
    exact Nat.mod_eq_of_lt hidx
  have hversion : (s.rtReported r).fld rtStat 15 8 = s.fld rtStat 15 8 := by
    rw [State.fld_rtReported, State.fld_setFld_apart _ (by decide) (by decide) (by decide),
      State.fld_setFld_apart _ (by decide) (by decide) (by decide)]
  have htable : ∀ n, n < 64 → (s.rtReported r).rtActive n = s.rtActive n ∧ (s.rtReported r).rtStaged n = s.rtStaged n := fun n hn => by
    refine State.rt_congr (fun a ha => ?_) hn
    rw [State.reg_rtReported r (by omega), State.reg_setFld_ne _ (by rw [rtStat]; omega), State.reg_setFld_ne _ (by rw [rtStat]; omega)]
  obtain ⟨m, k, hrest⟩ := s.rtReported_rest r
  refine ⟨_, regionTableCommit_eq h, ?_⟩
  rw [hr]
  split
  next hzero => exact ⟨hcode, hentry, hversion, (beq_iff_eq.mpr hzero).symm, by rw [hrest], htable⟩
  next hne => exact ⟨hcode, hentry, hversion, by rw [beq_false_of_ne hne, hrest]; exact h, by rw [hrest], htable⟩

end

end Sys2Proof.Machine
end

section
/-! SUPPORT, O54. The switch of region tables, and what the caches hold under the new one (R99, R101). -/
namespace Sys2Proof.Machine

/-! ### The switch -/

/-- One entry of the staged table becomes active. -/
def State.rtCopy (s t : State) (n : Nat) : State :=
  (t.setReg (0x030000100800 + 32 * n) (s.reg (0x030000100000 + 32 * n))).setReg (0x030000100808 + 32 * n) (s.reg (0x030000100008 + 32 * n))

section
variable {s t u : State} {n a pa : Nat}

theorem State.reg_rtCopies (l : List Nat) (t : State) (a : Nat) :
    (∃ n ∈ l, a = 0x030000100800 + 32 * n ∧ (l.foldl s.rtCopy t).reg a = s.reg (0x030000100000 + 32 * n)) ∨
    (∃ n ∈ l, a = 0x030000100808 + 32 * n ∧ (l.foldl s.rtCopy t).reg a = s.reg (0x030000100008 + 32 * n)) ∨
    ((∀ n ∈ l, a ≠ 0x030000100800 + 32 * n ∧ a ≠ 0x030000100808 + 32 * n) ∧ (l.foldl s.rtCopy t).reg a = t.reg a) := by
  induction l generalizing t with
  | nil => exact .inr (.inr ⟨fun n hn => (List.not_mem_nil hn).elim, rfl⟩)
  | cons m l ih =>
    rw [List.foldl_cons]
    obtain ⟨n, hn, ha, hreg⟩ | ⟨n, hn, ha, hreg⟩ | ⟨hout, hreg⟩ := ih (s.rtCopy t m)
    · exact .inl ⟨n, List.mem_cons_of_mem _ hn, ha, hreg⟩
    · exact .inr (.inl ⟨n, List.mem_cons_of_mem _ hn, ha, hreg⟩)
    rw [hreg]
    by_cases h0 : a = 0x030000100800 + 32 * m
    · refine .inl ⟨m, List.mem_cons_self, h0, ?_⟩
      rw [State.rtCopy, State.reg_setReg_ne _ _ (by omega), h0, State.reg_setReg]
    by_cases h1 : a = 0x030000100808 + 32 * m
    · refine .inr (.inl ⟨m, List.mem_cons_self, h1, ?_⟩)
      rw [State.rtCopy, h1, State.reg_setReg]
    refine .inr (.inr ⟨List.forall_mem_cons.mpr ⟨⟨h0, h1⟩, hout⟩, ?_⟩)
    rw [State.rtCopy, State.reg_setReg_ne _ _ h1, State.reg_setReg_ne _ _ h0]

theorem State.rtSwitch_rest (s : State) : ∃ m, s.rtSwitch = { s with mmio := m } := by
  refine List.foldlRecOn (motive := fun t : State => ∃ m : Table W64, t = { s with mmio := m }) (List.range 64) _ ⟨s.mmio, rfl⟩ fun t ht n _ => ?_
  obtain ⟨m, rfl⟩ := ht
  exact ⟨_, rfl⟩

theorem State.reg_rtSwitch_active (hn : n < 64) : s.rtSwitch.reg (0x030000100800 + 32 * n) = s.reg (0x030000100000 + 32 * n) ∧
    s.rtSwitch.reg (0x030000100808 + 32 * n) = s.reg (0x030000100008 + 32 * n) := by
  have hin : n ∈ List.range 64 := List.mem_range.mpr hn
  refine ⟨?_, ?_⟩
  · obtain ⟨m, -, ha, hreg⟩ | ⟨m, -, ha, -⟩ | ⟨hout, -⟩ := State.reg_rtCopies (s := s) (List.range 64) s (0x030000100800 + 32 * n)
    · obtain rfl : m = n := by omega
      exact hreg
    · omega
    · exact absurd rfl (hout n hin).1
  · obtain ⟨m, -, ha, -⟩ | ⟨m, -, ha, hreg⟩ | ⟨hout, -⟩ := State.reg_rtCopies (s := s) (List.range 64) s (0x030000100808 + 32 * n)
    · omega
    · obtain rfl : m = n := by omega
      exact hreg
    · exact absurd rfl (hout n hin).2

theorem State.reg_rtSwitch_other (h : a < 0x030000100800 ∨ 0x030000101000 ≤ a) : s.rtSwitch.reg a = s.reg a := by
  obtain ⟨m, hm, ha, -⟩ | ⟨m, hm, ha, -⟩ | ⟨-, hreg⟩ := State.reg_rtCopies (s := s) (List.range 64) s a
  · have := List.mem_range.mp hm
    omega
  · have := List.mem_range.mp hm
    omega
  · exact hreg

theorem State.rt_rtSwitch (hn : n < 64) : s.rtSwitch.rtActive n = s.rtStaged n ∧ s.rtSwitch.rtStaged n = s.rtStaged n := by
  obtain ⟨h0, h1⟩ := State.reg_rtSwitch_active (s := s) hn
  refine ⟨?_, ?_⟩
  · rw [State.rtActive, h0, h1]
    rfl
  · rw [State.rtStaged, State.reg_rtSwitch_other (.inl (by omega)), State.reg_rtSwitch_other (.inl (by omega))]
    rfl

/-! ### What the caches hold -/

/-- The lines that the hub and the cluster caches hold, staged ones apart. -/
def State.cachedTags (s : State) : List CTag :=
  (s.hubTags ++ s.ccTags).filterMap fun e => e.2.bind fun g => if g.staged.isNone then some g else none

/-- The addresses of the dirty lines in the caches. -/
def State.dirtyAddrs (s : State) : List Nat := ((s.cachedTags.filter (·.dirty)).map (·.addr)).eraseDups

/-- Half a line in a cache is put where the new table `t` has it, and its mirror there. -/
def State.remapLine (s t u : State) (pa : Nat) : State :=
  let put := fun (u : State) (k : Nat) =>
    { u with mem := Memory.writeList u.mem k (Memory.readList s.mem (s.key pa) 64)
             lines := Table.put LineMeta.good u.lines (k / 64) (s.lineMeta pa) }
  let u := if t.isDram pa && s.key pa != t.key pa then put u (t.key pa) else u
  if t.mirror pa = s.mirror pa then u
  else match t.mirror pa with
    | some p => put u (dramKey p)
    | none => u

theorem State.remapLines_eq (s t : State) : s.remapLines t =
    ((s.dirtyAddrs.flatMap fun a => [a * 128, a * 128 + 64]).foldl (s.remapLine t) t).dropTags
      fun g => s.key (g.addr * 128) != t.key (g.addr * 128) && !s.dirtyAddrs.contains g.addr := rfl

theorem State.remapLine_rest (s t u : State) (pa : Nat) : ∃ m l, s.remapLine t u pa = { u with mem := m, lines := l } := by
  have hput : ∀ c : Bool, ∃ m l, (if c = true then ({ u with
      mem := Memory.writeList u.mem (t.key pa) (Memory.readList s.mem (s.key pa) 64)
      lines := Table.put LineMeta.good u.lines (t.key pa / 64) (s.lineMeta pa) } : State) else u) = { u with mem := m, lines := l } := fun c => by
    cases c with
    | true => exact ⟨_, _, rfl⟩
    | false => exact ⟨_, _, rfl⟩
  obtain ⟨m, l, h⟩ := hput (t.isDram pa && s.key pa != t.key pa)
  rw [State.remapLine]
  dsimp only
  rw [h]
  split
  · exact ⟨_, _, rfl⟩
  split
  · exact ⟨_, _, rfl⟩
  · exact ⟨_, _, rfl⟩

theorem State.remapFold_rest (s t : State) (l : List Nat) (u : State) : ∃ m k, l.foldl (s.remapLine t) u = { u with mem := m, lines := k } := by
  refine List.foldlRecOn (motive := fun v : State => ∃ (m : List Host.Cell) (k : Table LineMeta), v = { u with mem := m, lines := k }) l _ ⟨u.mem, u.lines, rfl⟩ fun v hv pa _ => ?_
  obtain ⟨m, k, rfl⟩ := hv
  obtain ⟨m', k', h⟩ := s.remapLine_rest t { u with mem := m, lines := k } pa
  exact ⟨m', k', h⟩

/-- Half a line that has no mirror is written where the new table moves it. -/
theorem State.mem_remapLine (h : t.mirror pa = s.mirror pa) (hdram : t.isDram pa = true) : (s.remapLine t u pa).mem =
    if s.key pa = t.key pa then u.mem else Memory.writeList u.mem (t.key pa) (Memory.readList s.mem (s.key pa) 64) := by
  rw [State.remapLine]
  dsimp only
  rw [if_pos h, hdram, Bool.true_and]
  by_cases hkey : s.key pa = t.key pa
  · rw [if_neg (by simp [hkey]), if_pos hkey]
  · rw [if_pos (by simp [hkey]), if_neg hkey]

/-- What the drop of tags leaves alone. -/
theorem State.dropTags_rest (s : State) (p : CTag → Bool) : let t := s.dropTags p
    t = { s with hubTags := t.hubTags, ccTags := t.ccTags, stale := t.stale, cores := t.cores, relCov := t.relCov, posted := t.posted } := by
  dsimp only
  rw [State.dropTags_eq, State.trimStale]
  split
  · exact rfl
  · exact rfl

/-! ### The two halves of a line -/

theorem State.norm_half (s : State) (a : Nat) : s.norm (a * 128 + 64) = s.norm (a * 128) + 64 ∧ s.norm (a * 128) % 128 = 0 := by
  have hpkg : bits (a * 128 + 64) 50 39 = bits (a * 128) 50 39 := by
    rw [bits_eq_div_mod, bits_eq_div_mod]
    omega
  by_cases h : 2 ^ 51 ≤ a * 128 ∧ a * 128 < 2 ^ 52 ∧ bits (a * 128) 50 39 = s.pkgId
  · have h' : 2 ^ 51 ≤ a * 128 + 64 ∧ a * 128 + 64 < 2 ^ 52 ∧ bits (a * 128 + 64) 50 39 = s.pkgId :=
      ⟨by omega, by omega, hpkg.trans h.2.2⟩
    rw [State.norm, State.norm, if_pos h, if_pos h', bits_eq_div_mod, bits_eq_div_mod]
    omega
  · have h' : ¬(2 ^ 51 ≤ a * 128 + 64 ∧ a * 128 + 64 < 2 ^ 52 ∧ bits (a * 128 + 64) 50 39 = s.pkgId) := fun hc =>
      h ⟨by omega, by omega, hpkg.symm.trans hc.2.2⟩
    rw [State.norm, State.norm, if_neg h, if_neg h']
    omega

theorem State.rtFind_half {p : Nat} (h : p % 128 = 0) : s.rtFind (p + 64) = s.rtFind p := by
  have hhas : ∀ e : RtEnt, e.has (p + 64) = e.has p := fun e => by
    have hlow : e.base * 2 ^ 30 ≤ p + 64 ↔ e.base * 2 ^ 30 ≤ p := by omega
    have hhigh : p + 64 < (e.base + e.size) * 2 ^ 30 ↔ p < (e.base + e.size) * 2 ^ 30 := by omega
    simp only [RtEnt.has, hlow, hhigh]
  simp only [State.rtFind, hhas]

theorem RtEnt.place_half (e : RtEnt) {o : Nat} (h : o % 128 = 0) : e.place (o + 64) = ((e.place o).1, (e.place o).2 + 64) := by
  have hgran : 4096 <<< e.gran = 128 * (32 * 2 ^ e.gran) := by
    rw [Nat.shiftLeft_eq, ← Nat.mul_assoc]
  rw [RtEnt.place, RtEnt.place]
  dsimp only
  rw [hgran]
  generalize 32 * 2 ^ e.gran = k
  have hquot : (o + 64) / (128 * k) = o / (128 * k) := by
    rw [← Nat.div_div_eq_div_mul, ← Nat.div_div_eq_div_mul, show (o + 64) / 128 = o / 128 by omega]
  have hrem : (o + 64) % (128 * k) = o % (128 * k) + 64 := by
    have hlow := Nat.div_add_mod o (128 * k)
    have hhigh := Nat.div_add_mod (o + 64) (128 * k)
    rw [hquot] at hhigh
    omega
  rw [hquot, hrem, ← Nat.add_assoc]

theorem State.loc_dram_iff {st off : Nat} : s.loc pa = .dram st off ↔
    s.norm pa < 2 ^ 39 ∧ ∃ e, s.rtFind (s.norm pa) = some e ∧ e.place (s.norm pa - e.base * 2 ^ 30) = (st, off) := by
  refine ⟨fun h => ?_, fun ⟨hn, e, he, hplace⟩ => ?_⟩
  · by_cases hn : s.norm pa < 2 ^ 39
    · rw [State.loc, if_pos hn] at h
      cases he : s.rtFind (s.norm pa) with
      | none => rw [he] at h; cases h
      | some e =>
        rw [he] at h
        cases h
        exact ⟨hn, e, rfl, rfl⟩
    · exfalso
      rw [State.loc] at h
      dsimp only at h
      rw [if_neg hn] at h
      repeat' split at h
      all_goals cases h
  · rw [State.loc_dram_of_rtFind hn he, hplace]

theorem State.isDram_iff : s.isDram pa = true ↔ s.norm pa < 2 ^ 39 ∧ (s.rtFind (s.norm pa)).isSome = true := by
  have hloc : s.isDram pa = true ↔ ∃ st off, s.loc pa = .dram st off := by
    rw [State.isDram]
    cases s.loc pa with
    | dram st off => simp
    | _ => simp
  simp only [hloc, State.loc_dram_iff, Option.isSome_iff_exists]
  refine ⟨fun ⟨_, _, hn, e, he, _⟩ => ⟨hn, e, he⟩, fun ⟨hn, e, he⟩ => ⟨_, _, hn, e, he, rfl⟩⟩

theorem State.isDram_half (a : Nat) : s.isDram (a * 128 + 64) = s.isDram (a * 128) := by
  obtain ⟨hhalf, hmod⟩ := s.norm_half a
  have hlt : s.norm (a * 128) + 64 < 2 ^ 39 ↔ s.norm (a * 128) < 2 ^ 39 := by omega
  rw [Bool.eq_iff_iff, State.isDram_iff, State.isDram_iff, hhalf, State.rtFind_half hmod, hlt]

/-- The halves of a line in DRAM have keys that are 64 apart: its interleave is of whole lines (R97). -/
theorem State.key_half (a : Nat) (h : s.isDram (a * 128) = true) : s.key (a * 128 + 64) = s.key (a * 128) + 64 := by
  obtain ⟨hhalf, hmod⟩ := s.norm_half a
  obtain ⟨hn, hsome⟩ := State.isDram_iff.mp h
  obtain ⟨e, he⟩ := Option.isSome_iff_exists.mp hsome
  have hbase : e.base * 2 ^ 30 ≤ s.norm (a * 128) := by
    have hhas := List.find?_some he
    simp only [RtEnt.has, Bool.and_eq_true, decide_eq_true_eq] at hhas
    exact hhas.1.2
  have hlow := State.loc_dram_of_rtFind hn he
  have hhigh : s.loc (a * 128 + 64) = .dram (e.place (s.norm (a * 128) - e.base * 2 ^ 30)).1 ((e.place (s.norm (a * 128) - e.base * 2 ^ 30)).2 + 64) := by
    refine State.loc_dram_iff.mpr ⟨by omega, e, ?_, ?_⟩
    · rw [hhalf, State.rtFind_half hmod, he]
    · rw [hhalf, Nat.sub_add_comm hbase, e.place_half (by omega)]
  rw [State.key, State.key, hlow, hhigh]
  exact (Nat.add_assoc ..).symm

end

end Sys2Proof.Machine
end

section
/-! SUPPORT, O54. The end of a region table's drain (R101). -/
namespace Sys2Proof.Machine

section
variable {s t u : State} {pa : Nat}

/-! ### States with the same table -/

theorem State.reg_congr (h : t.mmio = s.mmio) (a : Nat) : t.reg a = s.reg a := by rw [State.reg, State.reg, h]

/-- Two states that map every address alike. -/
structure State.SameTable (s t : State) : Prop where
  active : ∀ n, n < 64 → t.rtActive n = s.rtActive n
  pkg : t.pkgId = s.pkgId

theorem State.SameTable.norm (h : s.SameTable t) (pa : Nat) : t.norm pa = s.norm pa := by
  rw [State.norm, State.norm, h.pkg]

theorem State.SameTable.loc (h : s.SameTable t) (pa : Nat) : t.loc pa = s.loc pa := by
  have hlist : (List.range 64).map t.rtActive = (List.range 64).map s.rtActive :=
    List.map_congr_left fun n hn => h.active n (List.mem_range.mp hn)
  have hfind : ∀ p, t.rtFind p = s.rtFind p := fun p => by rw [State.rtFind, State.rtFind, hlist]
  rw [State.loc, State.loc, h.norm]
  dsimp only
  rw [hfind]

theorem State.SameTable.key (h : s.SameTable t) (pa : Nat) : t.key pa = s.key pa := by
  rw [State.key, State.key, h.loc, h.norm]

theorem State.SameTable.isDram (h : s.SameTable t) (pa : Nat) : t.isDram pa = s.isDram pa := by
  rw [State.isDram, State.isDram, h.loc]

/-- A table without replicas gives no line a mirror (R99). -/
theorem State.mirror_none (h : ∀ n, n < 64 → (s.rtActive n).rplen = false) (pa : Nat) : s.mirror pa = none := by
  rw [State.mirror]
  split
  case isFalse => rfl
  split
  next e he =>
    obtain ⟨n, hn, rfl⟩ := List.mem_map.mp (List.mem_of_find?_eq_some he)
    rw [h n (List.mem_range.mp hn)]
    rfl
  next => rfl

/-! ### The lines under the new table -/

theorem State.remapLines_mem (s t : State) :
    (s.remapLines t).mem = ((s.dirtyAddrs.flatMap fun a => [a * 128, a * 128 + 64]).foldl (s.remapLine t) t).mem := by
  rw [State.remapLines_eq]
  exact (State.dropTags_spec _ _).2.2.1

theorem State.remapLines_rest (s t : State) : (s.remapLines t).mmio = t.mmio ∧ (s.remapLines t).owed = t.owed := by
  obtain ⟨m, l, hfold⟩ := s.remapFold_rest t (s.dirtyAddrs.flatMap fun a => [a * 128, a * 128 + 64]) t
  rw [State.remapLines_eq, State.dropTags_rest, hfold]
  exact ⟨rfl, rfl⟩

theorem State.dirtyAddrs_nil (h : ∀ e ∈ s.hubTags ++ s.ccTags, ∀ g, e.2 = some g → g.dirty = false) : s.dirtyAddrs = [] := by
  have hnone : s.cachedTags.filter (·.dirty) = [] := by
    refine List.filter_eq_nil_iff.mpr fun g hg => ?_
    obtain ⟨e, he, hbind⟩ := List.mem_filterMap.mp hg
    obtain ⟨x, hx, hsome⟩ := Option.bind_eq_some_iff.mp hbind
    obtain rfl : x = g := by
      split at hsome
      · exact Option.some.inj hsome
      · cases hsome
    rw [h e he x hx]
    exact Bool.false_ne_true
  rw [State.dirtyAddrs, hnone]
  rfl

theorem Memory.readList_writeList_apart (m : List Host.Cell) (l : List Byte) {k j n : Nat} (h : j + n ≤ k ∨ k + l.length ≤ j) :
    Memory.readList (Memory.writeList m k l) j n = Memory.readList m j n := by
  refine List.map_congr_left fun i hi => Memory.read_writeList_out _ _ _ _ ?_
  have := mem_span_iff.mp hi
  omega

/-- Both halves of a dirty line stand where the new table has them (R101). -/
theorem State.readList_remapHalves (hmirror : ∀ pa, t.mirror pa = s.mirror pa) (a : Nat) (hdram : t.isDram (a * 128) = true)
    (hmem : t.mem = s.mem) {h : Nat} (hh : h < 2) :
    Memory.readList ([a * 128, a * 128 + 64].foldl (s.remapLine t) t).mem (t.key (a * 128 + 64 * h)) 64 =
      Memory.readList s.mem (s.key (a * 128 + 64 * h)) 64 := by
  have hhalf := t.key_half a hdram
  have hdram' : t.isDram (a * 128 + 64) = true := (t.isDram_half a).trans hdram
  have hlen : ∀ k, (Memory.readList s.mem k 64).length = 64 := fun k => Memory.length_readList s.mem k 64
  have hback : ∀ m k j, Memory.readList (Memory.writeList m k (Memory.readList s.mem j 64)) k 64 = Memory.readList s.mem j 64 := fun m k j => by
    have := Memory.readList_writeList m (Memory.readList s.mem j 64) k
    rwa [hlen] at this
  rw [List.foldl_cons, List.foldl_cons, List.foldl_nil, State.mem_remapLine (hmirror _) hdram', State.mem_remapLine (hmirror _) hdram]
  obtain rfl | rfl : h = 0 ∨ h = 1 := by omega
  · have hskip : ∀ m, Memory.readList (if s.key (a * 128 + 64) = t.key (a * 128 + 64) then m
        else Memory.writeList m (t.key (a * 128 + 64)) (Memory.readList s.mem (s.key (a * 128 + 64)) 64)) (t.key (a * 128)) 64 =
        Memory.readList m (t.key (a * 128)) 64 := fun m => by
      split
      · rfl
      · exact Memory.readList_writeList_apart _ _ (.inl (by omega))
    rw [show a * 128 + 64 * 0 = a * 128 from rfl, hskip]
    split
    next hkey => rw [hmem, hkey]
    next => exact hback ..
  · rw [Nat.mul_one]
    split
    next hkey =>
      rw [← hkey] at hhalf ⊢
      split
      · rw [hmem]
      · rw [Memory.readList_writeList_apart _ _ (.inr (by rw [hlen, hhalf])), hmem]
    next => exact hback ..

/-! ### The event -/

theorem regionTableDrain_idle (h : s.rtDrain = false) : runEvent regionTableDrainOp s = .next s := by
  refine runEvent_stall (t := s) ?_
  simp only [regionTableDrainOp, M.run_bind_get, if_pos h, M.run_bind_throw]

/-- A state under the next version of its table, its drain over. -/
def State.nextVersion (u : State) : State := { u.setFld rtStat 15 8 (u.fld rtStat 15 8 + 1) with rtDrain := false }

theorem State.nextVersion_mem (u : State) : u.nextVersion.mem = u.mem := rfl

theorem State.nextVersion_owed (u : State) : u.nextVersion.owed = u.owed := rfl

theorem State.reg_nextVersion {a : Nat} (h : a ≠ rtStat) : u.nextVersion.reg a = u.reg a := State.reg_setFld_ne _ h

theorem State.fld_nextVersion (u : State) : u.nextVersion.fld rtStat 15 8 = (u.fld rtStat 15 8 + 1) % 256 :=
  State.fld_setFld _ (by decide) (by decide)

theorem State.payOwed_nil (h : u.owed = []) : u.payOwed = u := by
  rw [State.payOwed, h, List.foldl_nil, ← h]

/-- The state with the staged table active, under the next version. -/
def State.rtSwitched (s : State) : State := (s.remapLines s.rtSwitch).nextVersion

theorem regionTableDrain_eq (h : s.rtDrain = true) (hpaid : s.owed = []) : runEvent regionTableDrainOp s = .next s.rtSwitched := by
  have howed : s.rtSwitched.owed = [] := by
    obtain ⟨m, hm⟩ := s.rtSwitch_rest
    rw [State.rtSwitched, State.nextVersion_owed, (s.remapLines_rest s.rtSwitch).2, hm]
    exact hpaid
  refine runEvent_ok ?_
  simp only [Ok, regionTableDrainOp, M.run_bind_get, h, Bool.true_eq_false, if_false]
  refine (M.run_modify ..).trans ?_
  rw [← State.payOwed_nil howed]
  rfl

theorem State.reg_rtSwitched {a : Nat} (h : a ≠ rtStat) : s.rtSwitched.reg a = s.rtSwitch.reg a :=
  (State.reg_nextVersion h).trans (State.reg_congr (s.remapLines_rest _).1 a)

theorem State.version_rtSwitched (s : State) : s.rtSwitched.fld rtStat 15 8 = (s.fld rtStat 15 8 + 1) % 256 := by
  rw [State.rtSwitched, State.fld_nextVersion, State.fld, State.reg_congr (s.remapLines_rest _).1, State.reg_rtSwitch_other (.inr (by decide))]
  rfl

theorem State.rt_rtSwitched {n : Nat} (hn : n < 64) : s.rtSwitched.rtActive n = s.rtStaged n ∧ s.rtSwitched.rtStaged n = s.rtStaged n := by
  obtain ⟨hactive, hstaged⟩ := State.rt_congr (s := s.rtSwitch) (t := s.rtSwitched) (fun a ha => State.reg_rtSwitched (by rw [rtStat]; omega)) hn
  rw [hactive, hstaged]
  exact State.rt_rtSwitch hn

theorem State.sameTable_rtSwitched (s : State) : s.rtSwitch.SameTable s.rtSwitched where
  active n hn := (State.rt_rtSwitched hn).1.trans (State.rt_rtSwitch hn).1.symm
  pkg := by rw [State.pkgId, State.pkgId, State.fld, State.fld, State.reg_rtSwitched (by decide)]

theorem State.mem_rtSwitched (s : State) : s.rtSwitched.mem =
    ((s.dirtyAddrs.flatMap fun a => [a * 128, a * 128 + 64]).foldl (s.remapLine s.rtSwitch) s.rtSwitch).mem := by
  rw [State.rtSwitched, State.nextVersion_mem, State.remapLines_mem]

theorem State.mem_rtSwitch (s : State) : s.rtSwitch.mem = s.mem := by
  obtain ⟨m, hm⟩ := s.rtSwitch_rest
  rw [hm]

/-- Memory stands where no cache holds a dirty line. -/
theorem State.mem_rtSwitched_clean (h : ∀ e ∈ s.hubTags ++ s.ccTags, ∀ g, e.2 = some g → g.dirty = false) : s.rtSwitched.mem = s.mem := by
  rw [State.mem_rtSwitched, State.dirtyAddrs_nil h, List.flatMap_nil, List.foldl_nil, s.mem_rtSwitch]

/-- The one dirty line that the hub holds stands where the new table has it. -/
theorem State.readList_rtSwitched {k : Nat} {g : CTag} (hrepl : ∀ n, n < 64 → (s.rtStaged n).rplen = false ∧ (s.rtActive n).rplen = false)
    (hhub : s.hubTags = [(k, some g)]) (hcc : s.ccTags = []) (hdirty : g.dirty = true) (hstaged : g.staged = none) {h : Nat} (hh : h < 2)
    (hdram : s.rtSwitched.isDram (g.addr * 128 + 64 * h) = true) :
    Memory.readList s.rtSwitched.mem (s.rtSwitched.key (g.addr * 128 + 64 * h)) 64 = Memory.readList s.mem (s.key (g.addr * 128 + 64 * h)) 64 := by
  have haddrs : s.dirtyAddrs = [g.addr] := by
    have htags : s.cachedTags = [g] := by
      rw [State.cachedTags, hhub, hcc]
      simp [hstaged]
    rw [State.dirtyAddrs, htags, List.filter_cons_of_pos hdirty]
    rfl
  have hmirror : ∀ pa, s.rtSwitch.mirror pa = s.mirror pa := fun pa => by
    rw [State.mirror_none (s := s) (fun n hn => (hrepl n hn).2), State.mirror_none fun n hn => by rw [(State.rt_rtSwitch hn).1]; exact (hrepl n hn).1]
  have hline : s.rtSwitch.isDram (g.addr * 128) = true := by
    rw [s.sameTable_rtSwitched.isDram] at hdram
    obtain rfl | rfl : h = 0 ∨ h = 1 := by omega
    · exact hdram
    · rwa [Nat.mul_one, State.isDram_half] at hdram
  rw [s.sameTable_rtSwitched.key, State.mem_rtSwitched, haddrs, List.flatMap_cons, List.flatMap_nil, List.append_nil]
  exact State.readList_remapHalves hmirror g.addr hline s.mem_rtSwitch hh

end

end Sys2Proof.Machine
end

section
/-! SUPPORT, O54. The hub split (R115). -/
namespace Sys2Proof.Machine

/-- Is way `w` one that the write of HUBSPLIT for context `c` gives or takes, without being CLEAN? -/
def State.splitMoved (s : State) (c v w : Nat) : Bool :=
  ((splitWays (s.reg (0x030000200000 + 8 * c)).toNat).contains w != (splitWays v).contains w) && !s.clean w

/-- Does the write give context `c` a way that another context holds? -/
def State.splitOverlaps (s : State) (c v : Nat) : Bool :=
  (List.range 256).any fun d => d != c && (splitWays v).any fun w => s.holdsWay d w

section
variable {s : State} {c v w : Nat}

theorem mem_splitWays : w ∈ splitWays v ↔ v / 256 % 16 ≤ w ∧ w < v / 256 % 16 + v % 16 := by
  have hbase : bits v 11 8 = v / 256 % 16 := bits_eq_div_mod v 11 8
  have hcount : bits v 3 0 = v % 16 := by
    rw [bits_eq_div_mod]
    omega
  rw [splitWays, mem_span_iff, hbase, hcount]

theorem State.splitCheck_eq : s.splitCheck c v =
    if 12 < v % 16 ∨ 12 < v / 256 % 16 + v % 16 ∨ (v % 16 = 0 ∧ v / 256 % 16 ≠ 0) then (1, 0)
    else if s.splitOverlaps c v then (2, 0)
    else match (List.range 16).find? (s.splitMoved c v) with
      | some w => (3, w)
      | none => if s.ctxBusy c then (4, 0) else (0, 0) := by
  have hbase : bits v 11 8 = v / 256 % 16 := bits_eq_div_mod v 11 8
  have hcount : bits v 3 0 = v % 16 := by
    rw [bits_eq_div_mod]
    omega
  rw [← hbase, ← hcount]
  rfl

theorem State.splitOverlaps_iff : s.splitOverlaps c v = true ↔
    ∃ d w, d < 256 ∧ d ≠ c ∧ (v / 256 % 16 ≤ w ∧ w < v / 256 % 16 + v % 16) ∧ s.holdsWay d w = true := by
  rw [State.splitOverlaps, List.any_eq_true]
  refine exists_congr fun d => ?_
  rw [List.mem_range, Bool.and_eq_true, bne_iff_ne, List.any_eq_true]
  simp only [mem_splitWays]
  exact ⟨fun ⟨hd, hne, w, hw, hholds⟩ => ⟨w, hd, hne, hw, hholds⟩, fun ⟨w, hd, hne, hw, hholds⟩ => ⟨hd, hne, w, hw, hholds⟩⟩

theorem State.not_clean_iff : s.clean w = false ↔ ∃ l, l < 4 ∧ Table.get false s.dirtyWays (wayPart w l) = true := by
  rw [← Bool.not_eq_true, State.clean_iff]
  simp

theorem State.splitMoved_iff : s.splitMoved c v w = true ↔
    ¬(((s.reg (0x030000200000 + 8 * c)).toNat / 256 % 16 ≤ w ∧
        w < (s.reg (0x030000200000 + 8 * c)).toNat / 256 % 16 + (s.reg (0x030000200000 + 8 * c)).toNat % 16) ↔
      (v / 256 % 16 ≤ w ∧ w < v / 256 % 16 + v % 16)) ∧ ∃ l, l < 4 ∧ Table.get false s.dirtyWays (wayPart w l) = true := by
  rw [State.splitMoved, Bool.and_eq_true, bne_iff_ne, Bool.not_eq_true', State.not_clean_iff, Ne, Bool.eq_iff_iff, List.contains_iff_mem,
    List.contains_iff_mem, mem_splitWays, mem_splitWays]

theorem find?_range_first {p : Nat → Bool} {n : Nat} (hw : w < n) (hp : p w = true) (hfirst : ∀ u, u < w → ¬p u = true) :
    (List.range n).find? p = some w := by
  rw [List.find?_range_eq_some]
  exact ⟨hp, List.mem_range.mpr hw, fun u hu => by simpa using hfirst u hu⟩

theorem State.splitResult (s : State) (c v : Nat) : s.SplitResult c v (s.splitCheck c v) := by
  rw [State.splitCheck_eq]
  refine ⟨fun hrange => if_pos hrange, fun hrange hover => ?_, fun hrange hover w hw hmoved hfirst => ?_, fun hrange hover hnone => ?_⟩
  · rw [if_neg hrange, if_pos (State.splitOverlaps_iff.mpr hover)]
  · have hfind : (List.range 16).find? (s.splitMoved c v) = some w :=
      find?_range_first hw (State.splitMoved_iff.mpr hmoved) fun u hu h => hfirst u hu (State.splitMoved_iff.mp h)
    rw [if_neg hrange, if_neg (fun h => hover (State.splitOverlaps_iff.mp h)), hfind]
  · have hfind : (List.range 16).find? (s.splitMoved c v) = none :=
      List.find?_eq_none.mpr fun w hw h => hnone w (List.mem_range.mp hw) (State.splitMoved_iff.mp h)
    rw [if_neg hrange, if_neg (fun h => hover (State.splitOverlaps_iff.mp h)), hfind]
    dsimp only
    split
    · rfl
    · rfl

theorem State.hubSplit_spec (s : State) {c : Nat} (hc : c < 256) (v : W64) : let t := s.hubSplit c v
    t.frozenWays = [] ∧ t.mem = s.mem ∧
    t.reg 0x030000200800 = BitVec.ofNat 64 ((s.splitCheck c v.toNat).1 + c * 256 + (s.splitCheck c v.toNat).2 * 65536) ∧
    t.reg (0x030000200000 + 8 * c) = (if (s.splitCheck c v.toNat).1 = 0 then v &&& 0xF0F#64 else s.reg (0x030000200000 + 8 * c)) ∧
    ∀ d, d < 256 → d ≠ c → t.reg (0x030000200000 + 8 * d) = s.reg (0x030000200000 + 8 * d) := by
  have hreg : ∀ a, ({ s with frozenWays := [] } : State).reg a = s.reg a := fun _ => rfl
  rw [State.hubSplit]
  dsimp only
  split
  case isTrue =>
    refine ⟨rfl, rfl, ?_, State.reg_setReg .., fun d hd hne => ?_⟩
    · rw [State.reg_setReg_ne _ _ (by omega), State.reg_setReg]
    · rw [State.reg_setReg_ne _ _ (by omega), State.reg_setReg_ne _ _ (by omega), hreg]
  case isFalse =>
    refine ⟨rfl, rfl, State.reg_setReg .., ?_, fun d hd _ => ?_⟩
    · rw [State.reg_setReg_ne _ _ (by omega), hreg]
    · rw [State.reg_setReg_ne _ _ (by omega), hreg]

end

end Sys2Proof.Machine
end

section
/-! O54. Region-table commits, the hub split, flushes and the predictor (R100, R101, R115 to R117, R121). -/
namespace Sys2Proof.Machine

/-- Settles O54, each part by the lemmas of its event. -/
theorem hubArray : Obligations.HubArray := by
  intro s
  refine ⟨regionTableCommit_busy, regionTableCommit_spec, fun n hn hfirst hbad => State.rtCheck_first hn hfirst hbad, regionTableDrain_idle,
    fun hdrain hpaid => ⟨s.rtSwitched, regionTableDrain_eq hdrain hpaid, rfl, s.version_rtSwitched, State.mem_rtSwitched_clean,
      fun k g h hrepl hhub hcc hdirty hstaged hh => State.readList_rtSwitched hrepl hhub hcc hdirty hstaged hh, fun n hn => State.rt_rtSwitched hn⟩,
    fun c v => ⟨s.splitResult c.toNat v.toNat, _, rfl, s.hubSplit_spec c.isLt v⟩, fun hbusy base len first last ctx => ?busy, fun hidle => ?flush,
    hubFlushDone_idle, fun f hf _ => hubFlushDone_spec hf, rfl⟩
  case busy =>
    have hall := flush_busy hbusy base.toNat len.toNat first.toNat last.toNat ctx.toNat
    simp only [List.forall_mem_cons] at hall ⊢
    obtain ⟨hrange, hways, hcontext, hthaw, -⟩ := hall
    exact ⟨hrange, hways, hcontext, hthaw, fun _ h => (List.not_mem_nil h).elim⟩
  case flush =>
    refine ⟨hubThaw_idle hidle, fun base len => hubFlushRange_bad hidle, fun base len => State.rangeBad_of_shape,
      fun base len pa => State.rangeBad_of_place, fun base len hok => ⟨fun hwait => ?rangeWaits, fun hdrain hheld hup => ?range⟩,
      fun ctx hheld => hubFlushContext_waits hidle ((State.flushHeld_iff _).mp hheld), fun ctx hheld hup => ?context,
      fun first last hlt => hubFlushWays_order hidle hlt, fun first last hle hwait => ?waysWait, fun first last hle hdrain hheld hup _ hstaged => ?ways⟩
    case rangeWaits => exact hubFlushRange_waits hidle hok ((State.flushWaits_iff _).mpr hwait)
    case range =>
      have hgo : ¬s.flushWaits (fun a => s.inRange base.toNat len.toNat (a * 128)) = true := fun h => by
        rcases (State.flushWaits_iff _).mp h with h | ⟨x, hx, hin⟩
        · rw [hdrain] at h
          cases h
        · exact Bool.false_ne_true ((hheld x hx).symm.trans hin)
      exact ⟨_, hubFlushRange_done hidle hok hgo, State.flushes_of_up hup 0 _⟩
    case context =>
      exact ⟨_, hubFlushContext_done hidle (fun h => hheld ((State.flushHeld_iff _).mpr h)), (State.flushes_of_up hup 2 _).1⟩
    case waysWait =>
      refine hubFlushWays_waits hidle (Nat.not_lt.mpr hle) ((State.flushWaits_iff _).mpr (hwait.imp_right fun ⟨x, hx, e, he, t, ht, hst, haddr, hlo, hhi⟩ => ?_))
      exact ⟨x, hx, (State.inWays_iff _ _).mpr ⟨e, he, t, ht, hst, haddr, (mem_waySpan hle).mpr ⟨hlo, hhi⟩⟩⟩
    case ways =>
      have hgo : ¬s.flushWaits (s.inWays (span first.toNat (last.toNat + 1 - first.toNat))) = true := fun h => by
        rcases (State.flushWaits_iff _).mp h with h | ⟨x, hx, hin⟩
        · rw [hdrain] at h
          cases h
        · obtain ⟨e, he, t, ht, -, haddr, hway⟩ := (State.inWays_iff _ _).mp hin
          have hmem := (mem_waySpan hle).mp hway
          have hout := hheld x hx e he t ht haddr
          omega
      obtain ⟨t, hrun, ht⟩ := hubFlushWays_done hidle (Nat.not_lt.mpr hle) hgo hup hstaged
      refine ⟨t, hrun, ht.going, ht.busy, fun w hw => ht.frozen_way hw.1 hw.2, fun e he => ((ht.mem_tags hle e).mp he).2,
        fun e he hout => (ht.mem_tags hle e).mpr ⟨he, hout⟩, fun pa hlo hhi hway => ?_, fun pa hout => ?_⟩
      · rw [ht.read, if_pos ((ofWays_iff hle pa).mpr ⟨hlo, hhi, hway⟩)]
      · rw [ht.read, if_neg fun h => hout ((ofWays_iff hle pa).mp h)]

end Sys2Proof.Machine
end

section
/-! SUPPORT, O50. The records of streams: what each operation writes, and what it leaves alone (R270, R277, R281, R284). -/
namespace Sys2Proof.Machine

/-! ### Frames -/

/-- Two states that differ in the records of streams, the channels and the replies on them, and what leaves on the fabric at most. -/
def State.StreamsOnly (s t : State) : Prop :=
  t = { s with streams := t.streams, tvChan := t.tvChan, tvReply := t.tvReply, fabOut := t.fabOut }

section
variable {s t u : State} {i k : Nat}

theorem State.StreamsOnly.refl (s : State) : s.StreamsOnly s := rfl

theorem State.StreamsOnly.trans (h : s.StreamsOnly t) (h' : t.StreamsOnly u) : s.StreamsOnly u := by
  rw [State.StreamsOnly] at h h' ⊢
  rw [h', h]

theorem State.StreamsOnly.mem (h : s.StreamsOnly t) : t.mem = s.mem := by
  rw [State.StreamsOnly] at h
  rw [h]

theorem State.StreamsOnly.foldl {β : Type} (g : State → β → State) (h : ∀ t b, State.StreamsOnly t (g t b)) (l : List β) (s : State) :
    s.StreamsOnly (l.foldl g s) :=
  List.foldlRecOn (motive := fun t => s.StreamsOnly t) l g (.refl s) fun t ht b _ => ht.trans (h t b)

theorem State.streamsOnly_setStream (s : State) (i : Nat) (x : Stream) : s.StreamsOnly (s.setStream i x) := rfl

theorem State.streamsOnly_toState (s : State) (i st : Nat) : s.StreamsOnly (s.toState i st) := rfl

theorem State.streamsOnly_send (s : State) (pkg : Nat) (m : FabMsg) : s.StreamsOnly (s.send pkg m) := rfl

theorem State.streamsOnly_streamErr (s : State) (i code idx : Nat) : s.StreamsOnly (s.streamErr i code idx) := by
  rw [State.streamErr]
  split
  · exact .refl s
  · exact s.streamsOnly_setStream _ _

theorem State.streamsOnly_giveNotice (s : State) (i : Nat) (g : Bool) : s.StreamsOnly (s.giveNotice i g) := by
  rw [State.giveNotice]
  split
  · exact .refl s
  · exact s.streamsOnly_setStream _ _

theorem State.streamsOnly_tellHome (s : State) (key : Nat) (m : Nat → FabMsg) : s.StreamsOnly (s.tellHome key m) := by
  rw [State.tellHome]
  split
  · exact s.streamsOnly_send _ _
  · exact .refl s

theorem State.streamsOnly_tvSettle (s : State) (wait i code st : Nat) : s.StreamsOnly (s.tvSettle wait i code st) := by
  rw [State.tvSettle]
  dsimp only
  split
  · exact rfl
  · exact rfl

theorem State.streamsOnly_tvAnswer (s : State) (i core : Nat) (slot : W32) (code idx : Nat) (g : Bool) :
    s.StreamsOnly (s.tvAnswer i core slot code idx g) := by
  have herr : s.StreamsOnly (if code ≤ 11 then s.streamErr i code idx else s) := by
    split
    · exact s.streamsOnly_streamErr _ _ _
    · exact .refl s
  rw [State.tvAnswer]
  refine herr.trans ?_
  generalize (if code ≤ 11 then s.streamErr i code idx else s) = v
  dsimp only
  split
  · exact v.streamsOnly_tellHome _ _
  split
  · exact .refl v
  · exact rfl

/-! ### What a record reads as -/

theorem State.stream_setStream_ne (x : Stream) (h : k ≠ i) : (s.setStream i x).stream k = s.stream k := Table.get_put_ne _ _ h

theorem State.stream_congr (h : t.streams = s.streams) (k : Nat) : t.stream k = s.stream k := by rw [State.stream, State.stream, h]

theorem State.stream_toState (s : State) (i st : Nat) : (s.toState i st).stream i = (s.stream i).moved st s.hubDatum := s.stream_setStream _ _

theorem State.stream_toState_ne (st : Nat) (h : k ≠ i) : (s.toState i st).stream k = s.stream k := State.stream_setStream_ne _ h

theorem State.stream_streamErr {code : Nat} (idx : Nat) (h : code ≠ 0) :
    (s.streamErr i code idx).stream i = { s.stream i with lasterr := code, erridx := idx } := by
  rw [State.streamErr, if_neg h]
  exact s.stream_setStream _ _

theorem State.stream_streamErr_ne (code idx : Nat) (h : k ≠ i) : (s.streamErr i code idx).stream k = s.stream k := by
  rw [State.streamErr]
  split
  · rfl
  · exact State.stream_setStream_ne _ h

theorem State.stream_giveNotice (s : State) (i : Nat) (g : Bool) :
    (s.giveNotice i g).stream i = { s.stream i with notice := some ((s.stream i).notice.getD g) } := by
  rw [State.giveNotice]
  cases hn : (s.stream i).notice with
  | none =>
    rw [if_neg (by simp)]
    exact s.stream_setStream _ _
  | some b =>
    rw [if_pos (by simp)]
    show s.stream i = { s.stream i with notice := some b }
    rw [← hn]

theorem State.stream_giveNotice_ne (g : Bool) (h : k ≠ i) : (s.giveNotice i g).stream k = s.stream k := by
  rw [State.giveNotice]
  split
  · rfl
  · exact State.stream_setStream_ne _ h

theorem State.streams_tellHome (s : State) (key : Nat) (m : Nat → FabMsg) : (s.tellHome key m).streams = s.streams := by
  rw [State.tellHome]
  split
  · rfl
  · rfl

theorem State.tellHome_own (m : Nat → FabMsg) (h : i < 65536) : s.tellHome i m = s := by
  rw [State.tellHome, guestOf, if_pos h]

theorem State.tellHome_guest (m : Nat → FabMsg) (h : 65536 ≤ i) : s.tellHome i m = s.send (i / 65536 - 1) (m (i % 65536)) := by
  rw [State.tellHome, guestOf, if_neg (Nat.not_lt.mpr h)]

/-! ### Replies -/

/-- A settled reply no longer waits; an outcome of 0 leaves the record. -/
theorem State.tvSettle_done (s : State) (wait i st : Nat) : s.tvSettle wait i 0 st =
    { s with tvReply := s.tvReply.map fun (r : TvReply) => if r.waits wait i then { r with code := 0, idx := 0, st := st } else r } := by
  rw [State.tvSettle]
  exact if_neg (by simp)

theorem State.stream_tvSettle_ne (wait code st : Nat) (h : k ≠ i) : (s.tvSettle wait i code st).stream k = s.stream k := by
  rw [State.tvSettle]
  dsimp only
  split
  · exact State.stream_setStream_ne _ h
  · rfl

/-- A settled reply may leave its outcome in the record, and nothing else. -/
theorem State.stream_tvSettle (s : State) (wait i code st : Nat) : ∃ e x,
    (s.tvSettle wait i code st).stream i = { s.stream i with lasterr := e, erridx := x } := by
  rw [State.tvSettle]
  dsimp only
  split
  · exact ⟨_, _, State.stream_setStream ..⟩
  · exact ⟨(s.stream i).lasterr, (s.stream i).erridx, rfl⟩

theorem State.streams_tvAnswer (s : State) (i core : Nat) (slot : W32) (code idx : Nat) (g : Bool) :
    (s.tvAnswer i core slot code idx g).streams = (if code ≤ 11 then s.streamErr i code idx else s).streams := by
  rw [State.tvAnswer]
  dsimp only
  split
  · exact State.streams_tellHome ..
  split
  · rfl
  · rfl

theorem State.stream_tvAnswer {code : Nat} (core : Nat) (slot : W32) (idx : Nat) (g : Bool) (hle : code ≤ 11) (hne : code ≠ 0) :
    (s.tvAnswer i core slot code idx g).stream i = { s.stream i with lasterr := code, erridx := idx } := by
  rw [State.stream_congr (s.streams_tvAnswer ..), if_pos hle, State.stream_streamErr idx hne]

theorem State.stream_tvAnswer_none (core : Nat) (slot : W32) (idx : Nat) (g : Bool) {code : Nat} (h : code = 0 ∨ 11 < code) :
    (s.tvAnswer i core slot code idx g).stream k = s.stream k := by
  rw [State.stream_congr (s.streams_tvAnswer ..)]
  rcases h with rfl | h
  · rfl
  · rw [if_neg (Nat.not_le.mpr h)]

theorem State.stream_tvAnswer_ne (core : Nat) (slot : W32) (code idx : Nat) (g : Bool) (h : k ≠ i) :
    (s.tvAnswer i core slot code idx g).stream k = s.stream k := by
  rw [State.stream_congr (s.streams_tvAnswer ..)]
  split
  · exact State.stream_streamErr_ne _ _ h
  · rfl

/-- An outcome goes to the command or the package that waits for it. -/
theorem State.tells_tvAnswer (s : State) (m : TvMsg) (code idx : Nat) : s.Tells (s.tvAnswer m.stream m.core m.slot code idx false) m code idx := by
  have hrec := s.streams_tvAnswer m.stream m.core m.slot code idx false
  rw [State.Tells, State.stream_congr hrec]
  have herr : ∃ l, (if code ≤ 11 then s.streamErr m.stream code idx else s) = { s with streams := l } := by
    split
    · rw [State.streamErr]
      split
      · exact ⟨_, rfl⟩
      · exact ⟨_, rfl⟩
    · exact ⟨_, rfl⟩
  obtain ⟨l, hl⟩ := herr
  rw [State.tvAnswer, hl]
  dsimp only
  by_cases hguest : 65536 ≤ m.stream
  · rw [if_pos hguest, if_pos hguest, State.tellHome_guest _ hguest]
    exact ⟨rfl, rfl, rfl⟩
  rw [if_neg hguest, if_neg hguest]
  by_cases hcore : 288 ≤ m.core
  · rw [if_pos hcore, if_pos hcore]
    exact ⟨rfl, rfl⟩
  · rw [if_neg hcore, if_neg hcore]
    exact ⟨rfl, rfl⟩

end

end Sys2Proof.Machine
end

section
/-! SUPPORT, O50. A cancel of a stream that no task works on (R282, R284). -/
namespace Sys2Proof.Machine

section
variable {s t : State} {i k : Nat}

/-! ### No task to abort -/

theorem State.resumed_mem {n j : Nat} {g : GInst} {x : NodeSt} (h : s.resumed n = some (g, j, x)) : g ∈ s.insts ∧ x ∈ g.nodes := by
  simp only [State.resumed, Option.bind_eq_bind, Option.bind_eq_some_iff, Option.pure_def, Option.some.injEq, Prod.mk.injEq] at h
  obtain ⟨r, -, g', hg, x', hx, rfl, -, rfl⟩ := h
  exact ⟨List.mem_of_find?_eq_some hg, List.mem_of_getElem? hx⟩

/-- An abort of suspended tasks that names none is no abort. -/
theorem State.abortSavedIf_none {p : GInst → NodeSt → Bool} (h : ∀ g ∈ s.insts, ∀ x ∈ g.nodes, p g x = false) : s.abortSavedIf p = s := by
  have hcores : (List.range 288).foldl (fun t n => match t.resumed n with
      | some (g, _, x) => if p g x then t.endResume n .ready else t
      | none => t) s = s := by
    refine foldl_stays fun n _ => ?_
    cases hr : s.resumed n with
    | none => rfl
    | some r =>
      obtain ⟨hg, hx⟩ := State.resumed_mem (g := r.1) (j := r.2.1) (x := r.2.2) hr
      exact if_neg (by rw [h _ hg _ hx]; exact Bool.false_ne_true)
  have hinsts : s.insts.foldl (fun t g => (g.nodes.zipIdx.foldl (fun t q =>
      if q.1.phase = .suspended ∧ p g q.1 = true then (t.dropSaved g.id q.2 q.1 .ready).settle g.id else t) t)) s = s := by
    refine foldl_stays fun g hg => foldl_stays fun q hq => if_neg fun hp => ?_
    have hx : q.1 ∈ g.nodes := (List.mem_zipIdx' hq).2 ▸ List.getElem_mem _
    exact Bool.false_ne_true ((h g hg q.1 hx).symm.trans hp.2)
  rw [State.abortSavedIf]
  exact (congrArg (fun u : State => u.insts.foldl _ u) hcores).trans hinsts

theorem State.abortStream_taskless (h : s.taskless i) (die : Option Nat) : s.abortStream i die = s := by
  obtain ⟨htasks, hnodes⟩ := h
  have hcores : s.cores.foldl (fun t e => match (t.core e.1).task with
      | some k => if k.stream = some i ∧ k.pinned = false ∧ (die = none ∨ die = some (dieOf e.1)) then t.abortTask e.1 else t
      | none => t) s = s := by
    refine foldl_stays fun e _ => ?_
    cases hk : (s.core e.1).task with
    | none => rfl
    | some k => exact if_neg fun hc => htasks e.1 k hk hc.1
  have hsaved : s.abortSavedIf (fun g x => s.streamOf x == some i && !x.pinned && (die.isNone || die == some g.die)) = s :=
    State.abortSavedIf_none fun g hg x hx => by rw [beq_false_of_ne (hnodes g hg x hx), Bool.false_and, Bool.false_and]
  rw [State.abortStream]
  exact (congrArg (fun u : State => u.abortSavedIf fun g x => u.streamOf x == some i && !x.pinned && (die.isNone || die == some g.die))
    hcores).trans hsaved

/-! ### It stays so -/

theorem Table.keys_put {α : Type} [DecidableEq α] {d v : α} (l : Table α) (q : Nat → Bool) (hq : q k = false) :
    ((Table.put d l k v).map (·.1)).find? q = (l.map (·.1)).find? q := by
  induction l with
  | nil =>
    rw [Table.put]
    split
    · rfl
    · exact List.find?_cons_of_neg (by rw [hq]; exact Bool.false_ne_true)
  | cons e r ih =>
    have hskip : ∀ l : List Nat, (k :: l).find? q = l.find? q := fun l => List.find?_cons_of_neg (by rw [hq]; exact Bool.false_ne_true)
    obtain ⟨j, x⟩ := e
    rw [Table.put]
    split
    · split
      next hjk => rw [ih, List.map_cons, ← hjk, hskip]
      next => rw [List.map_cons, List.map_cons, List.find?_cons, List.find?_cons, ih]
    split
    · rw [List.map_cons, hskip]
    split
    next hjk => rw [List.map_cons, List.map_cons, ← hjk, hskip]
    next => rw [List.map_cons, List.map_cons, List.find?_cons, List.find?_cons, ih]

/-- Which record a node works on does not depend on what the record of a stream in use says, as long as it stays in use. -/
theorem State.streamKey_setStream {x : Stream} (hi : i < 65536) (h : x.state = 0 ↔ (s.stream i).state = 0) (j : Nat) :
    (s.setStream i x).streamKey j = s.streamKey j := by
  have hkeys : (((s.setStream i x).streams.map (·.1)).find? fun k => 65536 ≤ k && k % 65536 == j) =
      (s.streams.map (·.1)).find? fun k => 65536 ≤ k && k % 65536 == j :=
    Table.keys_put _ _ (by rw [decide_eq_false (Nat.not_le.mpr hi), Bool.false_and])
  have hstate : ((s.setStream i x).stream j).state ≠ 0 ↔ (s.stream j).state ≠ 0 := by
    by_cases hj : j = i
    · rw [hj, State.stream_setStream]
      exact not_congr h
    · rw [State.stream_setStream_ne _ hj]
  rw [State.streamKey, State.streamKey, hkeys]
  exact if_congr hstate rfl rfl

theorem State.taskless.setStream {x : Stream} (h : s.taskless k) (hi : i < 65536) (hx : x.state = 0 ↔ (s.stream i).state = 0) :
    (s.setStream i x).taskless k := by
  refine ⟨h.1, fun g hg y hy hc => h.2 g hg y hy ?_⟩
  rw [State.streamOf] at hc ⊢
  simpa only [State.streamKey_setStream hi hx] using hc

theorem State.taskless.congr (h : s.taskless k) (hcore : ∀ n, (t.core n).task = (s.core n).task) (hinsts : t.insts = s.insts)
    (hstreams : t.streams = s.streams) : t.taskless k := by
  refine ⟨fun n w hw => h.1 n w ((hcore n).symm.trans hw), fun g hg x hx hc => h.2 g (hinsts ▸ hg) x hx ?_⟩
  rw [State.streamOf] at hc ⊢
  simpa only [State.streamKey, State.stream_congr hstreams, hstreams] using hc

/-! ### The cancel -/

/-- A cancel of a stream without tasks: what becomes of its record, and its code (R282, R284). -/
theorem State.cancelStream_taskless (hi : i < 65536) (h : s.taskless i) : let r := s.cancelStream i
    s.StreamsOnly r.1 ∧ r.2 = ((s.stream i).cancelled s.hubDatum).2 ∧ r.1.stream i = ((s.stream i).cancelled s.hubDatum).1 := by
  have habort : ∀ die, (s.stream i).state ≠ 0 → (s.toState i 7).abortStream i die = s.toState i 7 := fun die hs =>
    State.abortStream_taskless (h.setStream hi ⟨fun h7 => absurd (show 7 = 0 from h7) (by decide), fun h0 => absurd h0 hs⟩) die
  have hmoved := s.stream_toState i 7
  generalize hx : s.stream i = x at habort hmoved
  dsimp only
  rw [State.cancelStream, Stream.cancelled]
  dsimp only
  rw [hx]
  by_cases h0 : x.state = 0
  · rw [if_pos h0, if_pos h0]
    exact ⟨.refl s, rfl, hx⟩
  rw [if_neg h0, if_neg h0]
  by_cases h2 : x.state = 1 ∨ x.state = 2
  · rw [if_pos h2, if_pos (show x.state ≤ 2 by omega), habort none h0, State.stream_giveNotice, hmoved]
    exact ⟨(s.streamsOnly_toState i 7).trans (State.streamsOnly_giveNotice _ _ _), rfl, rfl⟩
  rw [if_neg h2, if_neg (show ¬x.state ≤ 2 by omega)]
  by_cases h3 : x.state = 3
  · rw [if_pos h3, if_pos h3, habort none h0, hmoved, State.stream_setStream]
    exact ⟨rfl, rfl, rfl⟩
  rw [if_neg h3, if_neg h3]
  by_cases h4 : x.state = 4
  · rw [if_pos h4, if_pos h4, State.stream_setStream]
    exact ⟨rfl, rfl, rfl⟩
  rw [if_neg h4, if_neg h4]
  by_cases h5 : x.state = 5
  · rw [if_pos h5, if_pos h5, habort _ h0]
    split
    · exact ⟨rfl, rfl, hmoved⟩
    · exact ⟨rfl, rfl, hmoved⟩
  rw [if_neg h5, if_neg h5]
  split
  · exact ⟨.refl s, rfl, hx⟩
  split
  · exact ⟨.refl s, rfl, hx⟩
  · exact ⟨.refl s, rfl, hx⟩

end

end Sys2Proof.Machine
end

section
/-! SUPPORT, O50. The events on one record: the lift of its fence, its discard, the end of its cancel, an abandon (R282, R284, R286). -/
namespace Sys2Proof.Machine

section
variable {s t u : State} {i k : Nat}

/-! ### Invalidations that arrive -/

theorem State.takeInval_rest (s : State) (p : StaleCopy → Bool) : let t := s.takeInval p
    t = { s with stale := t.stale, ccTags := t.ccTags, cores := t.cores, relCov := t.relCov, posted := t.posted } := by
  dsimp only
  rw [State.takeInval]
  split
  · exact rfl
  · exact rfl

theorem State.task_takeInval (s : State) (p : StaleCopy → Bool) (n : Nat) : ((s.takeInval p).core n).task = (s.core n).task := by
  rw [State.takeInval]
  split
  · rw [State.core_settleCover]
    rfl
  · rfl

theorem State.taskless.takeInval (h : s.taskless i) (p : StaleCopy → Bool) : (s.takeInval p).taskless i :=
  h.congr (s.task_takeInval p) (by rw [s.takeInval_rest p]) (by rw [s.takeInval_rest p])

/-! ### The lift of a fence -/

/-- The lift of a fence once the invalidations that it waits for have been taken in. -/
def State.liftFence (s : State) (i : Nat) : State :=
  let u := s.toState i 5
  let t := u.stream i
  (((u.setStream i { t with fenced := false, deferred := false }).giveNotice i true).tvSettle waitLift i 0 5).tellHome i .lifted

/-- The record of a stream whose fence is lifted. -/
def Stream.lifted (t : Stream) (now : Nat) : Stream :=
  { t.moved 5 now with fenced := false, deferred := false, notice := some (t.notice.getD true) }

theorem State.liftFence_eq (s : State) (hi : i < 65536) : s.liftFence i =
    (((s.toState i 5).setStream i { (s.toState i 5).stream i with fenced := false, deferred := false }).giveNotice i true).tvSettle waitLift i 0 5 :=
  State.tellHome_own _ hi

theorem State.liftFence_streams (s : State) (hi : i < 65536) : s.StreamsOnly (s.liftFence i) ∧
    (s.liftFence i).stream i = (s.stream i).lifted s.hubDatum ∧ (∀ k, k ≠ i → (s.liftFence i).stream k = s.stream k) ∧
    ∀ r ∈ (s.liftFence i).tvReply, ¬(r.code = 100 ∧ r.idx = i) := by
  have honly : s.StreamsOnly (s.liftFence i) := by
    rw [State.liftFence_eq s hi]
    exact ((s.streamsOnly_toState i 5).trans (State.streamsOnly_setStream _ _ _)).trans
      ((State.streamsOnly_giveNotice _ _ _).trans (State.streamsOnly_tvSettle _ _ _ _ _))
  refine ⟨honly, ?_, fun k hk => ?_, fun r hr hwait => ?_⟩
  · rw [State.liftFence_eq s hi, State.tvSettle_done]
    refine (State.stream_giveNotice _ _ _).trans ?_
    rw [State.stream_setStream, State.stream_toState]
    rfl
  · rw [State.liftFence_eq s hi, State.tvSettle_done]
    refine (State.stream_giveNotice_ne _ hk).trans ?_
    rw [State.stream_setStream_ne _ hk, State.stream_toState_ne _ hk]
  · rw [State.liftFence_eq s hi, State.tvSettle_done] at hr
    obtain ⟨x, -, hx⟩ := List.mem_map.mp hr
    split at hx
    · rw [← hx] at hwait
      exact absurd hwait.1 (by simp)
    next hno =>
      rw [hx] at hno
      exact hno (by simp [TvReply.waits, waitLift, hwait.1, hwait.2])

/-- The state in which the invalidations for a stream's lines have been taken in. -/
def State.settledFor (s : State) (t : Stream) : State := s.takeInval fun c => s.inStream t (c.line * 64)

theorem fenceLifted_stays (h : (s.stream i).state ≠ 4) : runEvent (fenceLiftedOp i) s = .next s := by
  refine runEvent_stall (t := s) ?_
  simp only [fenceLiftedOp, M.run_bind_get, if_pos h, M.run_bind_throw]

theorem fenceLifted_eq (h : (s.stream i).state = 4) : runEvent (fenceLiftedOp i) s = .next (
    let u := s.settledFor (s.stream i)
    if (u.stream i).deferred then ((u.liftFence i).cancelStream i).1 else u.liftFence i) := by
  have hgo : ¬(s.stream i).state ≠ 4 := fun hn => hn h
  have hdeferred : ∀ u : State, ((u.toState i 5).stream i).deferred = (u.stream i).deferred := fun u => by
    rw [State.stream_toState]
    rfl
  refine runEvent_ok ?_
  dsimp only
  rw [← hdeferred]
  simp only [Ok, fenceLiftedOp, M.run_bind_get, if_neg hgo]
  exact M.run_modify ..

theorem State.settledFor_same (s : State) (x : Stream) : (s.settledFor x).mem = s.mem ∧ (s.settledFor x).streams = s.streams ∧
    (s.settledFor x).hubDatum = s.hubDatum ∧ (s.settledFor x).pkgId = s.pkgId := by
  rw [State.settledFor, State.takeInval_rest]
  exact ⟨rfl, rfl, rfl, rfl⟩

/-! ### The end of a cancel, and an abandon -/

theorem cancelComplete_stays (h : (s.stream i).state ≠ 7 ∨ (s.stream i).live ≠ 0) : runEvent (cancelCompleteOp i) s = .next s := by
  refine runEvent_stall (t := s) ?_
  have hstall : (s.stream i).state ≠ 7 ∨ (s.stream i).live ≠ 0 ∨ ((s.stream i).discarding = true ∧ (s.stream i).lost = false) :=
    h.imp_right Or.inl
  simp only [cancelCompleteOp, M.run_bind_get, if_pos hstall, M.run_bind_throw]

theorem cancelComplete_spec (h7 : (s.stream i).state = 7) (hlive : (s.stream i).live = 0) (hdisc : (s.stream i).discarding = false) :
    ∃ u, runEvent (cancelCompleteOp i) s = .next u ∧ u.mem = s.mem ∧
      u.stream i = { (s.stream i).moved 8 s.hubDatum with fenced := false, notice := some ((s.stream i).notice.getD false),
                                                          lasterr := if (s.stream i).lost then 11 else (s.stream i).lasterr } := by
  have hgo : ¬((s.stream i).state ≠ 7 ∨ (s.stream i).live ≠ 0 ∨ ((s.stream i).discarding = true ∧ (s.stream i).lost = false)) := by
    simp [h7, hlive, hdisc]
  refine ⟨_, runEvent_ok (by simp only [Ok, cancelCompleteOp, M.run_bind_get, if_neg hgo]; exact M.run_modify ..), ?_, ?_⟩
  · exact (State.streamsOnly_giveNotice _ _ _).mem
  · rw [State.stream_giveNotice, State.stream_setStream, State.stream_toState, ← hdisc]
    rfl

theorem streamAbandon_stays (h : (s.stream i).dpkg = s.pkgId ∨ (s.stream i).state = 0) : runEvent (streamAbandonOp i) s = .next s := by
  refine runEvent_stall (t := s) ?_
  have hstall : 65536 ≤ i ∨ (s.stream i).dpkg = s.pkgId ∨ (s.stream i).state = 0 := .inr h
  simp only [streamAbandonOp, M.run_bind_get, if_pos hstall, M.run_bind_throw]

theorem Stream.cancelled_code {t : Stream} (now : Nat) (h : t.state ≠ 0) : (t.cancelled now).2 = 0 ∧ t.state ≠ 7 ↔ t.state ≤ 5 := by
  rw [Stream.cancelled]
  rw [if_neg h]
  split
  · simp only [true_and]; omega
  split
  · simp only [true_and]; omega
  split
  · simp only [true_and]; omega
  split
  · simp only [true_and]; omega
  split
  · simp only [reduceCtorEq, false_and, false_iff]; omega
  split
  · simp only [true_and]; omega
  · simp only [reduceCtorEq, false_and, false_iff]; omega

theorem streamAbandon_spec (hi : i < 65536) (hpkg : (s.stream i).dpkg ≠ s.pkgId) (hstate : (s.stream i).state ≠ 0) (htask : s.taskless i) :
    ∃ u, runEvent (streamAbandonOp i) s = .next u ∧ u.mem = s.mem ∧ u.stream i = if (s.stream i).state ≤ 5 then
      { ((s.stream i).cancelled s.hubDatum).1 with lasterr := 11, erridx := 0 } else s.stream i := by
  have hgo : ¬(65536 ≤ i ∨ (s.stream i).dpkg = s.pkgId ∨ (s.stream i).state = 0) := by
    simp only [not_or]
    exact ⟨Nat.not_le.mpr hi, hpkg, hstate⟩
  obtain ⟨honly, hcode, hrec⟩ := State.cancelStream_taskless hi htask
  refine ⟨_, runEvent_ok (by simp only [Ok, streamAbandonOp, M.run_bind_get, if_neg hgo]; exact M.run_modify ..), ?_⟩
  dsimp only
  rw [hcode]
  by_cases hle : (s.stream i).state ≤ 5
  · rw [if_pos ((Stream.cancelled_code _ hstate).mpr hle), if_pos hle]
    exact ⟨(honly.trans (State.streamsOnly_streamErr _ _ _ _)).mem, by rw [State.stream_streamErr 0 (by decide), hrec]⟩
  · rw [if_neg fun hc => hle ((Stream.cancelled_code _ hstate).mp hc), if_neg hle]
    exact ⟨rfl, rfl⟩

/-! ### The loss of a peer -/

theorem State.loseStream_only (s : State) (i : Nat) : s.StreamsOnly (s.loseStream i) := by
  rw [State.loseStream]
  refine State.StreamsOnly.trans (t := { s with tvChan := s.tvChan.filter fun m => m.stream != i }) rfl ?_
  refine State.StreamsOnly.trans ?_ (State.streamsOnly_setStream _ _ _)
  have hsettled := (State.StreamsOnly.foldl (fun (t : State) (m : TvMsg) => t.tvAnswer i m.core m.slot 11 0 false)
    (fun t m => t.streamsOnly_tvAnswer i m.core m.slot 11 0 false) (s.tvChan.filter fun m => m.stream == i)
    ({ s with tvChan := s.tvChan.filter fun m => m.stream != i } : State)).trans
    ((State.streamsOnly_tvSettle _ waitLift i 11 (s.stream i).state).trans (State.streamsOnly_tvSettle _ waitDisc i 11 (s.stream i).state))
  split
  · exact hsettled.trans (State.streamsOnly_streamErr _ _ _ _)
  · exact hsettled

theorem State.lost_loseStream (s : State) (i : Nat) : ((s.loseStream i).stream i).lost = true := by
  rw [State.loseStream]
  rw [State.stream_setStream]

theorem State.stream_loseStream_ne (h : k ≠ i) : (s.loseStream i).stream k = s.stream k := by
  have hfold : ∀ (l : List TvMsg) (t : State), (l.foldl (fun t m => t.tvAnswer i m.core m.slot 11 0 false) t).stream k = t.stream k := fun l t =>
    List.foldlRecOn (motive := fun u : State => u.stream k = t.stream k) l _ rfl fun u hu m _ => (State.stream_tvAnswer_ne _ _ _ _ _ h).trans hu
  rw [State.loseStream]
  rw [State.stream_setStream_ne _ h]
  split
  · rw [State.stream_streamErr_ne _ _ h, State.stream_tvSettle_ne _ _ _ h, State.stream_tvSettle_ne _ _ _ h, hfold]
    rfl
  · rw [State.stream_tvSettle_ne _ _ _ h, State.stream_tvSettle_ne _ _ _ h, hfold]
    rfl

/-- The streams whose D side is on a package are lost with it. -/
def State.losePeer (s : State) (pkg : Nat) : State :=
  s.streams.foldl (fun t e => if e.2.dpkg = pkg ∧ e.2.state ≠ 0 then t.loseStream e.1 else t) s

theorem State.lost_losePeer {pkg : Nat} {e : Nat × Stream} (he : e ∈ s.streams) (hpkg : e.2.dpkg = pkg) (hstate : e.2.state ≠ 0) :
    ((s.losePeer pkg).stream e.1).lost = true := by
  have hstep : ∀ (t : State) (k : Nat), (t.stream e.1).lost = true → ((t.loseStream k).stream e.1).lost = true := fun t k ht => by
    by_cases hk : e.1 = k
    · rw [hk]
      exact t.lost_loseStream k
    · rw [State.stream_loseStream_ne hk]
      exact ht
  obtain ⟨before, after, hl⟩ := List.append_of_mem he
  rw [State.losePeer, hl, List.foldl_append, List.foldl_cons, if_pos ⟨hpkg, hstate⟩]
  refine List.foldlRecOn (motive := fun t : State => (t.stream e.1).lost = true) after _ (State.lost_loseStream _ _) fun t ht x _ => ?_
  split
  · exact hstep t x.1 ht
  · exact ht

theorem State.losePeer_only (s : State) (pkg : Nat) : s.StreamsOnly (s.losePeer pkg) := by
  refine State.StreamsOnly.foldl _ (fun t e => ?_) _ _
  split
  · exact t.loseStream_only _
  · exact .refl t

theorem peerLost_stays {pkg : Nat} (h : pkg = s.pkgId ∨ s.reaches pkg = true) : runEvent (peerLostOp pkg) s = .next s := by
  refine runEvent_stall (t := s) ?_
  simp only [peerLostOp, M.run_bind_get, if_pos h, M.run_bind_throw]

theorem peerLost_eq {pkg : Nat} (hpkg : pkg ≠ s.pkgId) (hreach : s.reaches pkg = false) :
    runEvent (peerLostOp pkg) s = .next (s.losePeer pkg) := by
  have hgo : ¬(pkg = s.pkgId ∨ s.reaches pkg = true) := by simp [hpkg, hreach]
  refine runEvent_ok ?_
  simp only [Ok, peerLostOp, M.run_bind_get, if_neg hgo]
  exact M.run_modify ..

end

end Sys2Proof.Machine
end

section
/-! SUPPORT, O50. A discard, and the messages of a channel: blocks and seals (R278 to R280, R284, R285). -/
namespace Sys2Proof.Machine

section
variable {s t u : State} {i k : Nat}

/-! ### A discard -/

/-- Zeros over one block of a stream. -/
def zeroBlock (t : Stream) (b : Nat) : M Unit := do
  let w ← get
  writeRun { who := .hub t.ctx, cached := false, traverse := true } ((if t.dpkg = w.pkgId then 0 else 2 ^ 51 + t.dpkg * 2 ^ 39) + t.dbase + b * t.blockBytes)
    (List.replicate t.blockBytes 0)

theorem zeroBlocks_ok {x : Stream} {l : List Nat} (h : Ok (l.forM (zeroBlock x)) s () t) : Ok (zeroBlocks x l) s () t := by
  induction l generalizing s with
  | nil => exact h
  | cons b l ih =>
    obtain ⟨⟨⟩, v, hb, hl⟩ := Ok.of_bind (m := zeroBlock x b) (f := fun _ => l.forM (zeroBlock x)) h
    rw [zeroBlocks]
    simp only [Ok, zeroBlock, M.run_bind_get] at hb
    simp only [Ok, M.run_bind_get]
    exact (Ok.tryCatch hb).bind (ih hl)

theorem discardAck_stays (h : (s.stream i).discarding = false ∨ (s.stream i).lost = true ∨ ∃ m ∈ s.tvChan, m.stream = i) :
    runEvent (discardAckOp i) s = .next s := by
  have hstall : (s.stream i).discarding = false ∨ (s.stream i).lost = true ∨ (s.tvChan.any fun m => m.stream == i) = true :=
    h.imp_right (Or.imp_right fun ⟨m, hm, hi⟩ => List.any_eq_true.mpr ⟨m, hm, beq_iff_eq.mpr hi⟩)
  refine runEvent_stall (t := s) ?_
  simp only [discardAckOp, M.run_bind_get, if_pos hstall, M.run_bind_throw]

/-- A record whose discard is done (R284). -/
def Stream.discarded (t : Stream) : Stream := { t with accepted := [], received := [], nacc := 0, discarding := false, toPrefill := false }

/-- The end of a discard once the blocks are zero. -/
def State.endDiscard (s : State) (i : Nat) : State :=
  let t := s.stream i
  let s := s.setStream i t.discarded
  if 65536 ≤ i then (s.setStream i { s.stream i with state := 2 }).tellHome i .discarded
  else if t.state = 7 then (s.giveNotice i false).tvSettle waitDisc i 5 7
  else if t.toPrefill then (s.toState i 2).tvSettle waitDisc i 0 2 else s

theorem discardAck_eq (hdisc : (s.stream i).discarding = true) (hlost : (s.stream i).lost = false) (hchan : ∀ m ∈ s.tvChan, m.stream ≠ i)
    (hzero : Ok ((s.stream i).received.forM (zeroBlock (s.stream i))) s () t) : runEvent (discardAckOp i) s = .next (t.endDiscard i) := by
  have hgo : ¬((s.stream i).discarding = false ∨ (s.stream i).lost = true ∨ (s.tvChan.any fun m => m.stream == i) = true) := by
    simp only [hdisc, hlost, Bool.true_eq_false, Bool.false_eq_true, false_or, List.any_eq_true, beq_iff_eq, not_exists, not_and]
    exact hchan
  refine runEvent_ok ?_
  simp only [Ok, discardAckOp, M.run_bind_get, if_neg hgo, (zeroBlocks_ok hzero).bind_run]
  exact M.run_modify ..

theorem State.endDiscard_only (s : State) (i : Nat) : s.StreamsOnly (s.endDiscard i) := by
  have hset : ∀ x, s.StreamsOnly (s.setStream i x) := s.streamsOnly_setStream i
  rw [State.endDiscard]
  dsimp only
  split
  · exact (hset _).trans ((State.streamsOnly_setStream _ _ _).trans (State.streamsOnly_tellHome _ _ _))
  split
  · exact (hset _).trans ((State.streamsOnly_giveNotice _ _ _).trans (State.streamsOnly_tvSettle _ _ _ _ _))
  split
  · exact (hset _).trans ((State.streamsOnly_toState _ _ _).trans (State.streamsOnly_tvSettle _ _ _ _ _))
  · exact hset _

/-- TV.DISC returns its stream to PREFILL. -/
theorem State.stream_endDiscard_prefill (hi : i < 65536) (h3 : (s.stream i).state = 3) (hpre : (s.stream i).toPrefill = true) :
    (s.endDiscard i).stream i = { (s.stream i).moved 2 s.hubDatum with accepted := [], received := [], nacc := 0, discarding := false, toPrefill := false } := by
  rw [State.endDiscard]
  dsimp only
  rw [if_neg (Nat.not_le.mpr hi), if_neg (by rw [h3]; decide), if_pos hpre, State.tvSettle_done]
  refine (State.stream_toState _ _ _).trans ?_
  rw [State.stream_setStream]
  rfl

/-- A cancel keeps its stream in CANCELLING, with the free notice given. -/
theorem State.stream_endDiscard_cancelling (hi : i < 65536) (h7 : (s.stream i).state = 7) : ∃ e x,
    (s.endDiscard i).stream i = { (s.stream i).discarded with notice := some ((s.stream i).notice.getD false), lasterr := e, erridx := x } := by
  rw [State.endDiscard]
  dsimp only
  rw [if_neg (Nat.not_le.mpr hi), if_pos h7]
  obtain ⟨e, x, h⟩ := State.stream_tvSettle ((s.setStream i (s.stream i).discarded).giveNotice i false) waitDisc i 5 7
  refine ⟨e, x, h.trans ?_⟩
  rw [State.stream_giveNotice, State.stream_setStream]
  rfl

/-! ### Blocks -/

variable {m : TvMsg} {bad written : List Nat} {j : Nat}

theorem arrivals_stay (h : s.chanHead j = none) (b : Bool) :
    runEvent (blockArrivalOp j bad written) s = .next s ∧ runEvent (sealArrivalOp j b) s = .next s := by
  refine ⟨runEvent_stall (t := s) ?_, runEvent_stall (t := s) ?_⟩
  · simp only [blockArrivalOp, M.run_bind_get, h, M.run_throw]
  · simp only [sealArrivalOp, M.run_bind_get, h, M.run_throw]

/-- A state whose command of message `m` has been answered. -/
def State.answered (s : State) (m : TvMsg) (code idx : Nat) : State := s.tvAnswer m.stream m.core m.slot code idx false

theorem State.answered_spec {code : Nat} (idx : Nat) (hle : code ≤ 11) (hne : code ≠ 0) (k : Nat) :
    (s.dropMsg k).Tells ((s.dropMsg k).answered m code idx) m code idx ∧
    ((s.dropMsg k).answered m code idx).stream m.stream = { s.stream m.stream with lasterr := code, erridx := idx } ∧
    ((s.dropMsg k).answered m code idx).mem = s.mem :=
  ⟨State.tells_tvAnswer _ m code idx, State.stream_tvAnswer _ _ _ _ hle hne, (State.streamsOnly_tvAnswer _ _ _ _ _ _ _).mem⟩

/-- A block for a stream in another state gets c3. -/
theorem blockArrival_state (hm : s.chanHead j = some m) (hb : m.isSeal = false) (h3 : (s.stream m.stream).state ≠ 3)
    (h7 : (s.stream m.stream).state ≠ 7) : runEvent (blockArrivalOp j bad written) s = .next ((s.dropMsg j).answered m 3 0) := by
  refine runEvent_ok ?_
  simp only [Ok, blockArrivalOp, M.run_bind_get, hm, hb, Bool.false_eq_true, if_false, M.run_bind_modify, if_pos (And.intro h3 h7), M.run_modify]
  rfl

/-- In CANCELLING it gets c5. -/
theorem blockArrival_cancelling (hm : s.chanHead j = some m) (hb : m.isSeal = false) (h7 : (s.stream m.stream).state = 7) :
    runEvent (blockArrivalOp j [] written) s = .next ((s.dropMsg j).answered m 5 0) := by
  refine runEvent_ok ?_
  simp only [Ok, blockArrivalOp, M.run_bind_get, hm, hb, Bool.false_eq_true, if_false, M.run_bind_modify, h7, ne_eq, not_true_eq_false,
    and_false, false_and, if_true, M.run_modify]
  rfl

/-- Behind a failed message of its channel it gets c6. -/
theorem blockArrival_doomed (hm : s.chanHead j = some m) (hb : m.isSeal = false) (h3 : (s.stream m.stream).state = 3) (hk : m.doomed = some k) :
    runEvent (blockArrivalOp j [] written) s = .next ((s.dropMsg j).answered m 6 k) := by
  refine runEvent_ok ?_
  simp only [Ok, blockArrivalOp, M.run_bind_get, hm, hb, Bool.false_eq_true, if_false, M.run_bind_modify, h3, ne_eq, not_true_eq_false,
    false_and, hk, Nat.reduceEqDiff, M.run_modify]
  rfl

/-- One that was accepted before is discarded. -/
theorem blockArrival_again (hm : s.chanHead j = some m) (hb : m.isSeal = false) (h3 : (s.stream m.stream).state = 3) (hk : m.doomed = none)
    (hacc : m.idx ∈ (s.stream m.stream).accepted) : runEvent (blockArrivalOp j [] written) s = .next ((s.dropMsg j).answered m 0 0) := by
  refine runEvent_ok ?_
  simp only [Ok, blockArrivalOp, M.run_bind_get, hm, hb, Bool.false_eq_true, if_false, M.run_bind_modify, h3, ne_eq, not_true_eq_false,
    false_and, hk, Nat.reduceEqDiff, List.contains_iff_mem.mpr hacc, if_true, M.run_modify]
  rfl

/-- A record with a block accepted. -/
def Stream.accepting (t : Stream) (b : Nat) : Stream :=
  { t with accepted := b :: t.accepted, nacc := t.nacc + 1, received := b :: t.received.filter (· != b) }

/-- One that is intact and without outliers is written and accepted. -/
theorem blockArrival_accepts (hm : s.chanHead j = some m) (hb : m.isSeal = false) (h3 : (s.stream m.stream).state = 3) (hk : m.doomed = none)
    (hacc : m.idx ∉ (s.stream m.stream).accepted) (hout : m.outliers = [])
    (hw : Ok (writeRun { who := .hub (s.stream m.stream).ctx, cached := false, traverse := true }
      (s.streamBase (s.stream m.stream) + (s.stream m.stream).dbase + m.idx * (s.stream m.stream).blockBytes) m.data) (s.dropMsg j) () t) :
    runEvent (blockArrivalOp j [] written) s =
      .next ((t.setStream m.stream ((t.stream m.stream).accepting m.idx)).answered m 0 0) := by
  have hnew : (s.stream m.stream).accepted.contains m.idx = false := by
    rw [← Bool.not_eq_true, List.contains_iff_mem]
    exact hacc
  have hbase : (s.dropMsg j).streamBase (s.stream m.stream) = s.streamBase (s.stream m.stream) := rfl
  refine runEvent_ok ?_
  simp only [Ok, blockArrivalOp, M.run_bind_get, hm, hb, Bool.false_eq_true, if_false, M.run_bind_modify, h3, ne_eq, not_true_eq_false,
    false_and, hk, Nat.reduceEqDiff, hnew, hw.bind_run, hout, streamAppend, M.run_bind_pure]
  exact M.run_modify ..

/-- What a failing block leaves before it is reported: its index among those that received lines, and the later messages of its
channel doomed. -/
def State.doomed (s : State) (m : TvMsg) : State :=
  let t := s.stream m.stream
  { s.setStream m.stream { t with received := m.idx :: t.received.filter (· != m.idx) } with
    tvChan := s.tvChan.map fun (o : TvMsg) => if o.pdie == m.pdie && o.stream == m.stream && o.doomed.isNone then { o with doomed := some m.idx } else o }

/-- A block that failed is reported (R285): with c6, or with c5 in CANCELLING. -/
def State.blockFailed (s : State) (m : TvMsg) : State :=
  let t := s.stream m.stream
  ((s.doomed m).answered m (if t.state = 3 then 6 else 5) (if t.state = 3 then m.idx else 0)).log 0x09 t.ddie 0 [m.stream, m.idx]

theorem State.blockFailed_handoff (h3 : (s.stream m.stream).state = 3) :
    s.blockFailed m = ((s.doomed m).answered m 6 m.idx).log 0x09 (s.stream m.stream).ddie 0 [m.stream, m.idx] := by
  rw [State.blockFailed, if_pos h3, if_pos h3]

/-- One that fails dooms what follows it in its channel. -/
theorem blockArrival_fails (hm : s.chanHead j = some m) (hb : m.isSeal = false) (h3 : (s.stream m.stream).state = 3) (hk : m.doomed = none)
    (hbad : bad ≠ []) : runEvent (blockArrivalOp j bad []) s = .next ((s.dropMsg j).blockFailed m) := by
  refine runEvent_ok ?_
  simp only [Ok, blockArrivalOp, M.run_bind_get, hm, hb, Bool.false_eq_true, if_false, M.run_bind_modify, h3, ne_eq, not_true_eq_false,
    false_and, hk, hbad, not_false_eq_true, and_self, if_true, List.filter_nil]
  split
  · have hnone : ∀ (f : Nat → M PUnit) (u : State), Ok (([] : List Nat).eraseDups.forM f) u ⟨⟩ u := fun _ _ => rfl
    exact (hnone _ _).bind_run.trans (M.run_modify ..)
  · exact M.run_modify ..

end

end Sys2Proof.Machine
end

section
/-! SUPPORT, O50. What the end of a message leaves (R279, R280, R285). -/
namespace Sys2Proof.Machine

section
variable {s t u v : State} {m : TvMsg} {bad : List Nat} {i j k : Nat} {code idx : Nat}

/-! ### Failing blocks -/

theorem State.tvChan_answered (s : State) (m : TvMsg) (code idx : Nat) : (s.answered m code idx).tvChan = s.tvChan := by
  have herr : (if code ≤ 11 then s.streamErr m.stream code idx else s).tvChan = s.tvChan := by
    split
    · rw [State.streamErr]
      split
      · rfl
      · rfl
    · rfl
  rw [State.answered, State.tvAnswer]
  dsimp only
  split
  · rw [State.tellHome]
    split
    · exact herr
    · exact herr
  split
  · exact herr
  · exact herr

theorem State.Tells.log (h : u.Tells v m code idx) (kind die pa : Nat) (info : List Nat) : u.Tells (v.log kind die pa info) m code idx := by
  rw [State.log_rest]
  exact h

theorem State.stream_log (s : State) (kind die pa : Nat) (info : List Nat) (i : Nat) : (s.log kind die pa info).stream i = s.stream i := by
  rw [State.log_rest]
  rfl

theorem State.tvChan_log (s : State) (kind die pa : Nat) (info : List Nat) : (s.log kind die pa info).tvChan = s.tvChan := by
  rw [State.log_rest]

theorem State.mem_log (s : State) (kind die pa : Nat) (info : List Nat) : (s.log kind die pa info).mem = s.mem := by
  rw [State.log_rest]

/-- A failing block is answered with c6 and what follows it in its channel is doomed. -/
theorem State.blockFailed_spec (h3 : (s.stream m.stream).state = 3) : let u := s.blockFailed m
    s.Tells u m 6 m.idx ∧ u.mem = s.mem ∧ (u.stream m.stream).accepted = (s.stream m.stream).accepted ∧
      m.idx ∈ (u.stream m.stream).received ∧ ∀ o ∈ u.tvChan, o.pdie = m.pdie → o.stream = m.stream → o.doomed ≠ none := by
  have hrec : ((s.doomed m).answered m 6 m.idx).stream m.stream = { (s.doomed m).stream m.stream with lasterr := 6, erridx := m.idx } :=
    State.stream_tvAnswer _ _ _ _ (by decide) (by decide)
  have hdoomed : (s.doomed m).stream m.stream =
      { s.stream m.stream with received := m.idx :: (s.stream m.stream).received.filter (· != m.idx) } := s.stream_setStream _ _
  have htells : s.Tells ((s.doomed m).answered m 6 m.idx) m 6 m.idx := by
    obtain ⟨hlen, hrest⟩ := State.tells_tvAnswer (s.doomed m) m 6 m.idx
    exact ⟨hlen.trans (List.length_map _), hrest⟩
  dsimp only
  rw [State.blockFailed_handoff h3]
  refine ⟨htells.log _ _ _ _, ?_, ?_, ?_, fun o ho hdie hstream hnone => ?_⟩
  · rw [State.mem_log]
    exact (State.streamsOnly_tvAnswer _ _ _ _ _ _ _).mem
  · rw [State.stream_log, hrec, hdoomed]
  · rw [State.stream_log, hrec, hdoomed]
    exact List.mem_cons_self
  · rw [State.tvChan_log, State.tvChan_answered] at ho
    obtain ⟨x, -, hx⟩ := List.mem_map.mp ho
    split at hx
    · rw [← hx] at hnone
      cases hnone
    next hno =>
      rw [hx] at hno
      exact hno (by simp [hdie, hstream, hnone])

/-! ### Seals -/

/-- In CANCELLING a seal gets c5. -/
theorem sealArrival_cancelling (b : Bool) (hm : s.chanHead j = some m) (hs : m.isSeal = true) (h7 : (s.stream m.stream).state = 7) :
    runEvent (sealArrivalOp j b) s = .next ((s.dropMsg j).answered m 5 0) := by
  refine runEvent_ok ?_
  simp only [Ok, sealArrivalOp, M.run_bind_get, hm, hs, Bool.true_eq_false, if_false, M.run_bind_modify, if_pos h7, M.run_modify]
  rfl

/-- In another state it gets c3. -/
theorem sealArrival_state (b : Bool) (hm : s.chanHead j = some m) (hs : m.isSeal = true) (h3 : (s.stream m.stream).state ≠ 3)
    (h7 : (s.stream m.stream).state ≠ 7) : runEvent (sealArrivalOp j b) s = .next ((s.dropMsg j).answered m 3 0) := by
  refine runEvent_ok ?_
  simp only [Ok, sealArrivalOp, M.run_bind_get, hm, hs, Bool.true_eq_false, if_false, M.run_bind_modify, if_neg h7, if_pos h3, M.run_modify]
  rfl

/-- Behind a failed message of its channel it gets c6. -/
theorem sealArrival_doomed (b : Bool) (hm : s.chanHead j = some m) (hs : m.isSeal = true) (h3 : (s.stream m.stream).state = 3)
    (hk : m.doomed = some k) : runEvent (sealArrivalOp j b) s = .next ((s.dropMsg j).answered m 6 k) := by
  refine runEvent_ok ?_
  simp only [Ok, sealArrivalOp, M.run_bind_get, hm, hs, Bool.true_eq_false, if_false, M.run_bind_modify, h3, Nat.reduceEqDiff, ne_eq,
    not_true_eq_false, hk, M.run_modify]
  rfl

/-- The lowest block that a seal misses; none counts while a discard is ordered (R280, log 75). -/
def Stream.missing (t : Stream) (n : Nat) : Option Nat := (List.range n).find? fun b => t.discarding || !t.accepted.contains b

theorem Stream.missing_first {x : Stream} {n b : Nat} (hb : b < n) (hmiss : x.discarding = true ∨ b ∉ x.accepted)
    (hfirst : ∀ c, c < b → x.discarding = false ∧ c ∈ x.accepted) : x.missing n = some b :=
  find?_range_first hb (by simpa using hmiss) fun c hc hp => by simp [hfirst c hc] at hp

theorem Stream.missing_none {x : Stream} {n : Nat} (hdisc : x.discarding = false) (h : ∀ b, b < n → b ∈ x.accepted) : x.missing n = none :=
  List.find?_eq_none.mpr fun b hb hp => by simp [hdisc, h b (List.mem_range.mp hb)] at hp

/-- A seal that misses a block gets c9 and the lowest of them. -/
theorem sealArrival_misses {b : Nat} (hm : s.chanHead j = some m) (hs : m.isSeal = true) (h3 : (s.stream m.stream).state = 3)
    (hk : m.doomed = none) (hb : (s.stream m.stream).missing m.idx = some b) :
    runEvent (sealArrivalOp j false) s = .next ((s.dropMsg j).answered m 9 b) := by
  rw [Stream.missing] at hb
  refine runEvent_ok ?_
  simp only [Ok, sealArrivalOp, M.run_bind_get, hm, hs, Bool.true_eq_false, if_false, M.run_bind_modify, h3, Nat.reduceEqDiff, ne_eq,
    not_true_eq_false, hk, Bool.false_eq_true, hb, M.run_modify]
  rfl

/-- The seal request of a stream whose blocks are all there. -/
def State.sealed (s : State) (m : TvMsg) : State :=
  let i := m.stream
  let s := if 65536 ≤ i then s else s.toState i 4
  let t := s.stream i
  let s := s.setStream i { t with nseal := m.idx }
  if 65536 ≤ i then s.tellHome i fun j => .sealPassed j m.idx else s.tvAnswer i m.core m.slot waitLift i false

theorem sealArrival_seals (hm : s.chanHead j = some m) (hs : m.isSeal = true) (h3 : (s.stream m.stream).state = 3)
    (hk : m.doomed = none) (hb : (s.stream m.stream).missing m.idx = none) :
    runEvent (sealArrivalOp j false) s = .next ((s.dropMsg j).sealed m) := by
  rw [Stream.missing] at hb
  refine runEvent_ok ?_
  simp only [Ok, sealArrivalOp, M.run_bind_get, hm, hs, Bool.true_eq_false, if_false, M.run_bind_modify, h3, Nat.reduceEqDiff, ne_eq,
    not_true_eq_false, hk, Bool.false_eq_true, hb]
  exact M.run_modify ..

/-- A stream of this package is SEALED. -/
theorem State.sealed_own (hi : m.stream < 65536) : s.StreamsOnly (s.sealed m) ∧
    (s.sealed m).stream m.stream = { (s.stream m.stream).moved 4 s.hubDatum with nseal := m.idx } := by
  have hown : ¬65536 ≤ m.stream := Nat.not_le.mpr hi
  rw [State.sealed]
  simp only [if_neg hown]
  refine ⟨((s.streamsOnly_toState _ 4).trans (State.streamsOnly_setStream _ _ _)).trans (State.streamsOnly_tvAnswer _ _ _ _ _ _ _), ?_⟩
  rw [State.stream_tvAnswer_none _ _ _ _ (.inr (by decide)), State.stream_setStream, State.stream_toState]

/-- The seal of another package's stream passes to its home (R286). -/
theorem State.sealed_guest (hi : 65536 ≤ m.stream) : (s.sealed m).mem = s.mem ∧
    (s.sealed m).stream m.stream = { s.stream m.stream with nseal := m.idx } ∧
    (s.sealed m).fabOut = s.fabOut ++ [(m.stream / 65536 - 1, .sealPassed (m.stream % 65536) m.idx)] := by
  rw [State.sealed]
  simp only [if_pos hi, State.tellHome_guest _ hi]
  exact ⟨rfl, s.stream_setStream _ _, rfl⟩

end

end Sys2Proof.Machine
end

section
/-! SUPPORT, O50. The requests of Waypoint (R101, R272, R273, R385). -/
namespace Sys2Proof.Machine

section
variable {s s1 : State} {l : List Byte} {k : Nat}

theorem wpOp_eq (l : List Byte) : wpOp l = leNat ((l.drop (8 * 0)).take 8) % 8 := by
  rw [wpOp, bits_eq_div_mod, Nat.pow_zero, Nat.div_one]
  rfl

theorem wpStream_eq (l : List Byte) : wpStream l = leNat ((l.drop (8 * 0)).take 8) / 2 ^ 16 % 2 ^ 16 := bits_eq_div_mod _ _ _

theorem wpStream_lt (l : List Byte) : wpStream l < 65536 := by
  rw [wpStream_eq]
  omega

theorem wpRequest_ok (hbusy : s.fld wpStat 0 0 = 1) (hread : Ok (hubRead 0 (s.fld 0x030001400000 51 6 * 64) 64) s (some l) s1) :
    Ok wpRequest s l s1 := by
  have hgo : ¬s.fld wpStat 0 0 = 0 := by rw [hbusy]; decide
  simp only [Ok, wpRequest, M.run_bind_get, if_neg hgo, hread.bind_run, M.run_pure]

/-! ### Copies that go -/

/-- A flush of tags touches no memory, no record and no clock. -/
theorem State.dropCopies_same (s : State) (p : Nat → Bool) :
    (s.dropCopies p).mem = s.mem ∧ (s.dropCopies p).streams = s.streams ∧ (s.dropCopies p).hubDatum = s.hubDatum := by
  rw [State.dropCopies, State.flushTags_eq]
  dsimp only
  generalize List.filter _ (s.dirtyPicked _) = done
  have hnotes := State.NotesOnly.foldl State.writeBackLine State.notesOnly_writeBackLine done s
  generalize done.foldl State.writeBackLine s = u at hnotes
  rw [State.NotesOnly] at hnotes
  rw [State.dropTags_rest, hnotes]
  exact ⟨rfl, rfl, rfl⟩

theorem State.wpDone_spec (s : State) (r : Nat) : (s.wpDone r).reg wpStat = BitVec.ofNat 64 (2 * r) ∧ (s.wpDone r).streams = s.streams ∧
    (s.wpDone r).mem = s.mem := ⟨State.reg_setReg .., rfl, rfl⟩

/-! ### Admission -/

/-- The admission of a stream under record `x`. -/
def State.admitted (s : State) (i : Nat) (x : Stream) : State := (((s.dropCopies (s.inStream x)).setStream i x).toState i 1).wpDone 0

theorem State.admitted_spec (s : State) (i : Nat) (x : Stream) : (s.admitted i x).reg wpStat = BitVec.ofNat 64 (2 * 0) ∧ (s.admitted i x).mem = s.mem ∧
    (s.admitted i x).stream i = x.moved 1 s.hubDatum ∧ ∀ k, k ≠ i → (s.admitted i x).stream k = s.stream k := by
  obtain ⟨hmem, hstreams, hnow⟩ := s.dropCopies_same (s.inStream x)
  rw [State.admitted]
  generalize s.dropCopies (s.inStream x) = u at hmem hstreams hnow
  obtain ⟨hreg, hrec, hkept⟩ := State.wpDone_spec ((u.setStream i x).toState i 1) 0
  refine ⟨hreg, hkept.trans hmem, ?_, fun k hk => ?_⟩
  · rw [State.stream_congr hrec, State.stream_toState, State.stream_setStream, ← hnow]
    rfl
  · rw [State.stream_congr hrec, State.stream_toState_ne _ hk, State.stream_setStream_ne _ hk, State.stream_congr hstreams]

theorem State.admitWaits_iff (x : Stream) : s.admitWaits x = true ↔ s.rtDrain = true ∨ ∃ h ∈ s.heldW, s.inStream x h.pa = true := by
  rw [State.admitWaits, Bool.or_eq_true, List.any_eq_true]

theorem Stream.rangeBad_iff (x : Stream) : x.rangeBad = true ↔ 3 < x.pdie ∨ x.ddie < 4 ∨ 0x0B < x.ddie ∨ x.nbmax = 0 ∨ 4096 < x.nbmax ∨
    x.dbase % 128 ≠ 0 ∨ x.gzbase % 8 ≠ 0 ∨ 2 ^ 39 < x.dbase + x.nbmax * x.blockBytes ∨ 2 ^ 39 < x.gzbase + 8 * x.gzcap := decide_eq_true_iff

/-- Does a record's region meet that of another stream in use? -/
def State.clashes (s : State) (i : Nat) (x : Stream) : Bool := s.streams.any fun e => e.1 != i && e.2.state != 0 && e.2.clash x

theorem State.clashes_iff (i : Nat) (x : Stream) : s.clashes i x = true ↔ ∃ e ∈ s.streams, e.1 ≠ i ∧ e.2.state ≠ 0 ∧ e.2.clash x = true := by
  simp only [State.clashes, List.any_eq_true, Bool.and_eq_true, bne_iff_ne, and_assoc]

/-- The record that an admission writes. -/
def State.newRecord (s : State) (l : List Byte) : Stream := admitRecord l (s.stream (wpStream l)).seq

/-- An admission once its descriptor is read (R273). -/
theorem waypointAdmit_run (hread : Ok wpRequest s l s1) (hop : wpOp l = 1) : waypointAdmitOp.run s =
    (if wpZeroBad l true = true then (.ok ⟨⟩, s1.wpDone 1)
    else if (s1.stream (wpStream l)).state ≠ 0 then (.ok ⟨⟩, s1.wpDone 2)
    else if (s1.newRecord l).rangeBad = true then (.ok ⟨⟩, s1.wpDone 3)
    else if s1.clashes (wpStream l) (s1.newRecord l) = true then (.ok ⟨⟩, s1.wpDone 4)
    else if s1.admitWaits (s1.newRecord l) = true then (.error .stall, s1)
    else (.ok ⟨⟩, s1.admitted (wpStream l) (s1.newRecord l))) := by
  have hmine : ¬(wpOp l = 2 ∨ wpOp l = 3) := by omega
  have hform : (wpOp l ≠ 1 ∨ wpZeroBad l true = true) ↔ wpZeroBad l true = true := by simp [hop]
  have hrun : ∀ (p : Prop) [Decidable p] (m m' : M PUnit), (if p then m else m').run s1 = if p then m.run s1 else m'.run s1 := fun p _ m m' =>
    apply_ite (fun m : M PUnit => m.run s1) p m m'
  simp only [waypointAdmitOp, hread.bind_run, if_neg hmine, M.run_bind_get, hform, hrun, M.run_modify, M.run_bind_throw]
  rfl

/-- A request that ends with a code, once its descriptor is read. -/
theorem runEvent_wpDone {m : M Unit} {r : Nat} (h : m.run s = (.ok ⟨⟩, s1.wpDone r)) : ∃ u, runEvent m s = .next u ∧
    u.reg wpStat = BitVec.ofNat 64 (2 * r) ∧ u.streams = s1.streams := by
  obtain ⟨hreg, hrec, -⟩ := s1.wpDone_spec r
  exact ⟨_, runEvent_ok h, hreg, hrec⟩

/-! ### Cancel and release -/

theorem waypointCancel_run (hread : Ok wpRequest s l s1) (hop : wpOp l = 2) (hz : ¬wpZeroBad l false = true) : waypointCancelOp.run s =
    (.ok ⟨⟩, (s1.cancelStream (wpStream l)).1.wpDone (if (s1.cancelStream (wpStream l)).2 = 0 then 0 else 2)) := by
  have hmine : ¬wpOp l ≠ 2 := not_not_intro hop
  simp only [waypointCancelOp, hread.bind_run, if_neg hmine, if_neg hz]
  exact M.run_modify ..

/-- The record that a release leaves. -/
def State.released (s : State) (i : Nat) : State :=
  s.setStream i { Stream.reset with seq := ((s.stream i).seq + 1) % 65536, tchg := s.hubDatum }

theorem waypointRelease_run (hread : Ok wpRequest s l s1) (hop : wpOp l = 3) (hz : ¬wpZeroBad l false = true) : waypointReleaseOp.run s =
    (.ok ⟨⟩, if (s1.stream (wpStream l)).state ≠ 6 ∧ (s1.stream (wpStream l)).state ≠ 8 then s1.wpDone 2 else (s1.released (wpStream l)).wpDone 0) := by
  have hmine : ¬wpOp l ≠ 3 := not_not_intro hop
  simp only [waypointReleaseOp, hread.bind_run, if_neg hmine, M.run_bind_get, if_neg hz]
  split
  · exact M.run_modify ..
  · exact M.run_modify ..

end

end Sys2Proof.Machine
end

section
/-! O50. Blocks, seals, fences, discards, cancels and Waypoint requests (R270 to R286). -/
namespace Sys2Proof.Machine

section
variable {s : State}

theorem streamNo_own {i : Nat} (hi : i < 65536) : streamNo i = i := Nat.mod_eq_of_lt (by omega)

theorem State.taskless.liftFence {i k : Nat} (h : s.taskless k) (hi : i < 65536) (h0 : (s.stream i).state ≠ 0) : (s.liftFence i).taskless k := by
  have hmoved : (s.toState i 5).taskless k := h.setStream hi ⟨fun h5 => absurd (show 5 = 0 from h5) (by decide), fun h => absurd h h0⟩
  have hset := hmoved.setStream (i := i) (x := { (s.toState i 5).stream i with fenced := false, deferred := false }) hi Iff.rfl
  have hnotice : ∀ {u : State}, u.taskless k → (u.giveNotice i true).taskless k := fun {u} hu => by
    rw [State.giveNotice]
    split
    · exact hu
    · exact hu.setStream hi Iff.rfl
  rw [State.liftFence_eq s hi, State.tvSettle_done]
  exact (hnotice hset).congr (fun _ => rfl) rfl rfl

theorem Stream.cancelled_decode {t : Stream} (now : Nat) (h : t.state = 5) : (t.cancelled now).1 = t.moved 7 now := by
  rw [Stream.cancelled, if_neg (by omega), if_neg (by omega), if_neg (by omega), if_neg (by omega), if_pos h]

/-- A deferred cancel is applied as its stream enters DECODE. -/
theorem fenceLifted_deferred {i : Nat} (hi : i < 65536) (h4 : (s.stream i).state = 4) (hdef : (s.stream i).deferred = true) (htask : s.taskless i) :
    ∃ u : State, runEvent (fenceLiftedOp i) s = .next u ∧ (u.stream i).state = 7 ∧ (u.stream i).owner = 0x0C ∧ (u.stream i).fenced = false := by
  obtain ⟨-, hstreams, -, -⟩ := s.settledFor_same (s.stream i)
  have hrec := State.stream_congr hstreams i
  have htask' : (s.settledFor (s.stream i)).taskless i := htask.takeInval _
  have hrun := fenceLifted_eq h4
  dsimp only at hrun
  generalize s.settledFor (s.stream i) = u at hrun hrec htask'
  rw [hrec, if_pos hdef] at hrun
  obtain ⟨-, hlifted, -, -⟩ := u.liftFence_streams hi
  obtain ⟨-, -, hend⟩ := State.cancelStream_taskless hi (htask'.liftFence hi (by rw [hrec, h4]; decide))
  rw [hlifted, Stream.cancelled_decode _ rfl] at hend
  refine ⟨_, hrun, ?_⟩
  rw [hend]
  exact ⟨rfl, rfl, rfl⟩

/-- Without one the stream is in DECODE, its free notice given. -/
theorem fenceLifted_spec {i : Nat} (hi : i < 65536) (h4 : (s.stream i).state = 4) (hdef : (s.stream i).deferred = false) :
    ∃ u : State, runEvent (fenceLiftedOp i) s = .next u ∧ u.mem = s.mem ∧
      u.stream i = { (s.stream i).moved 5 s.hubDatum with fenced := false, notice := some ((s.stream i).notice.getD true) } ∧
      (∀ r ∈ u.tvReply, ¬(r.code = 100 ∧ r.idx = i)) ∧ ∀ k, k ≠ i → u.stream k = s.stream k := by
  obtain ⟨hmem, hstreams, hnow, -⟩ := s.settledFor_same (s.stream i)
  have hrec := fun k => State.stream_congr hstreams k
  have hrun := fenceLifted_eq h4
  dsimp only at hrun
  generalize s.settledFor (s.stream i) = u at hrun hrec hmem hnow
  rw [hrec, if_neg (by rw [hdef]; exact Bool.false_ne_true)] at hrun
  obtain ⟨honly, hlifted, hothers, hreplies⟩ := u.liftFence_streams hi
  refine ⟨_, hrun, honly.mem.trans hmem, ?_, hreplies, fun k hk => (hothers k hk).trans (hrec k)⟩
  rw [hlifted, hrec, hnow, Stream.lifted, ← hdef]
  rfl

end

/-- Settles O50, each part by the lemmas of its event. -/
theorem streamEvents : Obligations.StreamEvents := by
  refine ⟨fun s j bad written b hnone => arrivals_stay hnone b, fun s j m hm => ?messages, fun s i hi => ?records, fun s pkg => ?peers,
    fun s hbusy l s1 hread => ?waypoint⟩
  case messages =>
    refine ⟨fun hb bad written => ⟨fun h3 h7 => ?otherState, fun h7 hbad => ?cancelling, fun h3 hbad hk hacc => ?again, fun h3 hbad hk hacc hout s1 hw => ?accepts,
      fun k h3 hbad hk => ?behindFailed, fun h3 hbad hw hk => ?fails⟩, fun hs bad => ⟨fun h7 => ?sealCancelling, fun h3 h7 => ?sealOtherState, fun h3 hdisc hk hbad hpos => ?sealDiscarding,
      fun k h3 hdisc hk => ?sealBehindFailed, fun k h3 hdisc hk hbad hlt hmiss hall => ?sealMisses, fun h3 hdisc hk hbad hall => ?seals⟩⟩
    case otherState =>
      exact ⟨_, blockArrival_state hm hb h3 h7, State.answered_spec 0 (by decide) (by decide) j⟩
    case cancelling =>
      subst hbad
      exact ⟨_, blockArrival_cancelling hm hb h7, State.answered_spec 0 (by decide) (by decide) j⟩
    case again =>
      subst hbad
      exact ⟨_, blockArrival_again hm hb h3 hk hacc, State.tells_tvAnswer _ m 0 0, State.stream_tvAnswer_none _ _ _ _ (.inl rfl),
        (State.streamsOnly_tvAnswer _ _ _ _ _ _ _).mem⟩
    case accepts =>
      subst hbad
      refine ⟨_, blockArrival_accepts hm hb h3 hk hacc hout hw, State.tells_tvAnswer _ m 0 0, (State.streamsOnly_tvAnswer _ _ _ _ _ _ _).mem, ?_⟩
      refine (State.stream_tvAnswer_none _ _ _ _ (.inl rfl)).trans ((s1.stream_setStream _ _).trans ?_)
      have hkeep : ((s1.stream m.stream).received.filter (· != m.idx)) = (s1.stream m.stream).received.filter (· ≠ m.idx) :=
        List.filter_congr fun b _ => by rw [Bool.eq_iff_iff, bne_iff_ne, decide_eq_true_iff]
      rw [Stream.accepting, hkeep]
    case behindFailed =>
      subst hbad
      exact ⟨_, blockArrival_doomed hm hb h3 hk, State.answered_spec k (by decide) (by decide) j⟩
    case fails =>
      subst hw
      exact ⟨_, blockArrival_fails hm hb h3 hk hbad, State.blockFailed_spec (s := s.dropMsg j) h3⟩
    case sealCancelling =>
      obtain ⟨htells, -, hmem⟩ := State.answered_spec (s := s) (m := m) (code := 5) 0 (by decide) (by decide) j
      exact ⟨_, sealArrival_cancelling bad hm hs h7, htells, hmem⟩
    case sealOtherState =>
      obtain ⟨htells, -, hmem⟩ := State.answered_spec (s := s) (m := m) (code := 3) 0 (by decide) (by decide) j
      exact ⟨_, sealArrival_state bad hm hs h3 h7, htells, hmem⟩
    case sealDiscarding =>
      subst hbad
      have hmiss := Stream.missing_first (x := s.stream m.stream) hpos (.inl hdisc) (fun c hc => absurd hc (Nat.not_lt_zero c))
      exact ⟨_, sealArrival_misses hm hs h3 hk hmiss, State.answered_spec 0 (by decide) (by decide) j⟩
    case sealBehindFailed =>
      obtain ⟨htells, -, hmem⟩ := State.answered_spec (s := s) (m := m) (code := 6) k (by decide) (by decide) j
      exact ⟨_, sealArrival_doomed bad hm hs h3 hk, htells, hmem⟩
    case sealMisses =>
      subst hbad
      have hfirst := Stream.missing_first hlt (.inr hmiss) fun c hc => ⟨hdisc, hall c hc⟩
      exact ⟨_, sealArrival_misses hm hs h3 hk hfirst, State.answered_spec k (by decide) (by decide) j⟩
    case seals =>
      subst hbad
      refine ⟨_, sealArrival_seals hm hs h3 hk (Stream.missing_none hdisc hall), ?_, fun hown => ?_, fun hguest => ?_⟩
      · rcases Nat.lt_or_ge m.stream 65536 with hown | hguest
        · exact (State.sealed_own hown).1.mem
        · exact (State.sealed_guest hguest).1
      · exact (State.sealed_own hown).2
      · exact (State.sealed_guest hguest).2
  case records =>
    have hfence : exec (.fenceLifted i) s = runEvent (fenceLiftedOp i) s := congrArg (fun k => runEvent (fenceLiftedOp k) s) (streamNo_own hi)
    have hdisc : exec (.discardAck i) s = runEvent (discardAckOp i) s := congrArg (fun k => runEvent (discardAckOp k) s) (streamNo_own hi)
    have hcancel : exec (.cancelComplete i) s = runEvent (cancelCompleteOp i) s :=
      congrArg (fun k => runEvent (cancelCompleteOp k) s) (Nat.mod_eq_of_lt hi)
    have habandon : exec (.streamAbandon i) s = runEvent (streamAbandonOp i) s :=
      congrArg (fun k => runEvent (streamAbandonOp k) s) (Nat.mod_eq_of_lt hi)
    rw [hfence, hdisc, hcancel, habandon]
    refine ⟨fenceLifted_stays, fenceLifted_spec hi, fenceLifted_deferred hi, fun hd hlost hchan s1 hzero => ?_, discardAck_stays,
      cancelComplete_stays, cancelComplete_spec, streamAbandon_stays, streamAbandon_spec hi⟩
    refine ⟨_, discardAck_eq hd hlost hchan hzero, (s1.endDiscard_only i).mem, State.stream_endDiscard_prefill hi, fun h7 => ?_⟩
    obtain ⟨e, x, hend⟩ := State.stream_endDiscard_cancelling hi h7
    rw [hend]
    exact ⟨h7, rfl, rfl, rfl, rfl, rfl⟩
  case peers =>
    exact ⟨peerLost_stays, fun hpkg hreach => ⟨_, peerLost_eq hpkg hreach, (s.losePeer_only pkg).mem, fun e he => State.lost_losePeer he⟩⟩
  case waypoint =>
    have hreq := wpRequest_ok hbusy hread
    dsimp only
    rw [← wpOp_eq, ← wpStream_eq, ← Stream.rangeBad_iff, show admitRecord l (s1.stream (wpStream l)).seq = s1.newRecord l from rfl]
    refine ⟨fun hop hform => ?admission, fun hop hform => ?malformed, fun hop hform htask => ?cancel, fun hop hform => ?release⟩
    case admission =>
      have hrun := waypointAdmit_run hreq hop
      rw [if_neg hform] at hrun
      refine ⟨fun hused => ?_, fun hfree hrange => ?_, fun hfree hrange hclash => ?_, fun hfree hrange hclash hwait => ?_,
        fun hfree hrange hclash hdrain hheld => ?_⟩
      · rw [if_pos hused] at hrun
        exact runEvent_wpDone hrun
      all_goals rw [if_neg (not_not_intro hfree)] at hrun
      · rw [if_pos hrange] at hrun
        exact runEvent_wpDone hrun
      all_goals rw [if_neg hrange] at hrun
      · rw [if_pos ((State.clashes_iff _ _).mpr hclash)] at hrun
        exact runEvent_wpDone hrun
      all_goals
        have hapart : ¬s1.clashes (wpStream l) (s1.newRecord l) = true := fun h => by
          obtain ⟨e, he, hne, hs, hc⟩ := (State.clashes_iff _ _).mp h
          exact Bool.false_ne_true ((hclash e he hne hs).symm.trans hc)
        rw [if_neg hapart] at hrun
      · rw [if_pos ((State.admitWaits_iff _).mpr hwait)] at hrun
        exact runEvent_stall hrun
      · have hgo : ¬s1.admitWaits (s1.newRecord l) = true := fun h => by
          rcases (State.admitWaits_iff _).mp h with h | ⟨x, hx, hin⟩
          · exact Bool.false_ne_true (hdrain.symm.trans h)
          · exact Bool.false_ne_true ((hheld x hx).symm.trans hin)
        rw [if_neg hgo] at hrun
        obtain ⟨hreg, hmem, hrec, hothers⟩ := s1.admitted_spec (wpStream l) (s1.newRecord l)
        exact ⟨_, runEvent_ok hrun, hreg, hmem, hrec, rfl, hothers⟩
    case malformed =>
      have hrun := waypointAdmit_run hreq hop
      rw [if_pos hform] at hrun
      exact runEvent_wpDone hrun
    case cancel =>
      obtain ⟨honly, hcode, hrec⟩ := State.cancelStream_taskless (wpStream_lt l) htask
      obtain ⟨hreg, hstreams, hmem⟩ := State.wpDone_spec (s1.cancelStream (wpStream l)).1 (if (s1.cancelStream (wpStream l)).2 = 0 then 0 else 2)
      exact ⟨_, runEvent_ok (waypointCancel_run hreq hop hform), hcode ▸ hreg, (State.stream_congr hstreams _).trans hrec, hmem.trans honly.mem⟩
    case release =>
      have hrun := waypointRelease_run hreq hop hform
      refine ⟨fun hstate => ?_, fun hstate => ?_⟩
      · rw [if_pos hstate] at hrun
        exact runEvent_wpDone hrun
      · rw [if_neg (by omega)] at hrun
        obtain ⟨u, hu, hreg, hstreams⟩ := runEvent_wpDone hrun
        refine ⟨u, hu, hreg, (State.stream_congr hstreams _).trans (s1.stream_setStream _ _), fun k hk => ?_⟩
        exact (State.stream_congr hstreams k).trans (State.stream_setStream_ne _ hk)

end Sys2Proof.Machine
end

section
/-! SUPPORT and O55. A swap job whose PTEs name its page by this package's own remote address (R95, R125). -/
namespace Sys2Proof.Machine

/-! ### Two names of one line of plain memory (R95) -/

section
variable {s t : State} {a pa ctx len : Nat}

theorem State.loc_of_norm (h : s.norm a = s.norm pa) : s.loc a = s.loc pa := by rw [State.loc, h, State.loc]

theorem State.key_of_norm (h : s.norm a = s.norm pa) : s.key a = s.key pa := by rw [State.key, State.key, State.loc_of_norm h, h]

theorem State.lineMeta_of_norm (h : s.norm a = s.norm pa) : s.lineMeta a = s.lineMeta pa := by
  rw [State.lineMeta, State.lineKey, State.key_of_norm h, State.lineMeta, State.lineKey]

theorem State.foundAt_of_norm (h : s.norm a = s.norm pa) (w : Who) (cached : Bool) : s.foundAt w cached a = s.foundAt w cached pa := by
  rw [State.foundAt, State.foundAt, h]

theorem State.viewByte_of_norm (h : s.norm a = s.norm pa) (w : Who) : s.viewByte w a = s.viewByte w pa := by
  rw [State.viewByte, State.viewByte, h]

/-- A home that answers a line answers it by its other names. -/
theorem State.PlainHome.homeCheck_named {q : Req} (h : s.PlainHome (s.ctxOf q.who) pa len) (hn : s.norm a = s.norm pa) :
    Ok (homeCheck q a) s () s := by
  obtain ⟨st, off, hl⟩ := h.loc
  obtain ⟨hdrain, hdown, -⟩ := h.home
  have hla := (State.loc_of_norm hn).trans hl
  rw [State.down, hl] at hdown
  simp only [Ok, homeCheck, M.run_bind_get, State.isMmio, hla, hdrain, State.down, hn, hdown, reduceCtorEq, Bool.false_eq_true,
    or_self, false_and, if_false, M.run_pure]

theorem State.PlainHome.foundFit_named (h : s.PlainHome ctx pa len) (hn : s.norm a = s.norm pa) (q : Req) (code : Nat) :
    Ok (foundFit q a code) s () s := by
  have hm : s.lineMeta a = LineMeta.good := (State.lineMeta_of_norm hn).trans h.home.2.2
  have hk : Table.get LineMeta.good s.lines (s.lineKey a) = LineMeta.good := hm
  have hpoison : LineMeta.good.poison = false := rfl
  have hdiff : LineMeta.good.diff = 0 := rfl
  rcases hf : (s.foundAt q.who q.cached pa).2 with _ | d
  · simp [Ok, foundFit, State.foundAt_of_norm hn, hf, lineFit, keyFit, hk, hpoison, hdiff]
  · simp [Ok, foundFit, State.foundAt_of_norm hn, hf, hm, hpoison, h.foundAt hf]

/-- A hub unit reads a line of plain memory by any name of it. -/
theorem State.PlainHome.readSeg_named (h : s.PlainHome ctx pa len) (hn : ∀ o < len, s.norm (a + o) = s.norm (pa + o)) :
    Ok (readSeg (hubReq ctx) a len) s (Memory.readList s.mem (s.key pa) len) (s.noteRead (hubReq ctx) a) := by
  have hn0 : s.norm a = s.norm pa := hn 0 h.fits.1
  obtain ⟨st, off, hl⟩ := h.loc
  have hla := (State.loc_of_norm hn0).trans hl
  have haside := h.isSound.aside_noteRead (pa := a) (hubReq ctx)
  have hidle : ∀ u : State, u.Idle (hubReq ctx).who := fun u n hc => by cases hc
  have hview := (h.aside haside).view (hidle _)
  rw [haside.mem, haside.key] at hview
  have hnorm : ∀ p, (s.noteRead (hubReq ctx) a).norm p = s.norm p := fun p => by rw [haside.rest]; rfl
  have hnamed : (span a len).map ((s.noteRead (hubReq ctx) a).viewByte (hubReq ctx).who) = Memory.readList s.mem (s.key pa) len := by
    rw [← hview]
    simp only [span, List.map_map]
    refine List.map_congr_left fun o ho => State.viewByte_of_norm ?_ _
    rw [hnorm, hnorm, hn o (List.mem_range.mp ho)]
  have hnote := (h.aside haside).noteObserved (hubReq ctx).who a
  have hcheck : Ok (homeCheck (hubReq ctx) a) s () s := State.PlainHome.homeCheck_named (q := hubReq ctx) h hn0
  simp only [Ok, readSeg, readFit, M.run_bind_get, hla, (hidle s).servedLocally h.fits.1, Bool.false_eq_true, if_false, bind_assoc,
    hcheck.bind_run, (h.foundFit_named hn0 _ _).bind_run, M.run_bind_modify, hnote, hnamed, M.run_pure]

/-! ### Runs of two lines, and the copy of a page (R125) -/

/-- Every 64-byte line from `a` on, `n` of them, is one of plain memory from `pa` on. -/
structure State.PlainLines (s : State) (ctx a pa n : Nat) : Prop where
  start : a % 64 = 0
  named : ∀ o < 64 * n, s.norm (a + o) = pa + o
  plain : ∀ k < n, s.PlainHome ctx (pa + 64 * k) 64

variable {n k : Nat}

theorem State.PlainLines.aside (h : s.PlainLines ctx a pa n) (j : s.Aside t) : t.PlainLines ctx a pa n where
  start := h.start
  named o ho := by rw [← h.named o ho, j.rest]; rfl
  plain k hk := (h.plain k hk).aside j

theorem State.PlainLines.readSeg (h : s.PlainLines ctx a pa n) (hk : k < n) :
    Ok (readSeg (hubReq ctx) (a + 64 * k) 64) s (Memory.readList s.mem (s.key (pa + 64 * k)) 64) (s.noteRead (hubReq ctx) (a + 64 * k)) :=
  (h.plain k hk).readSeg_named fun o ho => by
    rw [Nat.add_assoc, h.named _ (by omega), (h.plain k hk).norm ho.le, Nat.add_assoc]

theorem pieces_lines {p : Nat} (hp : p % 64 = 0) (b : Byte) :
    pieces 129 64 p (List.replicate 128 b) = [(p, List.replicate 64 b), (p + 64, List.replicate 64 b)] := by
  have hp' : (p + 64) % 64 = 0 := by omega
  simp [pieces, hp, hp']

/-- A bank line of plain memory, read by a hub unit by any name of it. -/
theorem State.PlainLines.readRun (h : s.PlainLines ctx a pa n) (hk : k + 1 < n) :
    ∃ t, Ok (readRun (hubReq ctx) (a + 64 * k) 128) s
      (Memory.readList s.mem (s.key (pa + 64 * k)) 64 ++ Memory.readList s.mem (s.key (pa + 64 * (k + 1))) 64) t ∧ s.Aside t := by
  have hfirst := h.readSeg (Nat.lt_of_succ_lt hk)
  have haside := (h.plain k (Nat.lt_of_succ_lt hk)).isSound.aside_noteRead (pa := a + 64 * k) (hubReq ctx)
  have hsecond := (h.aside haside).readSeg hk
  rw [haside.mem, haside.key] at hsecond
  have haside' := ((h.aside haside).plain (k + 1) hk).isSound.aside_noteRead (pa := a + 64 * (k + 1)) (hubReq ctx)
  obtain ⟨st, off, hl⟩ := (h.plain k (Nat.lt_of_succ_lt hk)).loc
  have hla : s.loc (a + 64 * k) = .dram st off := by
    have hline : s.norm (pa + 64 * k) = pa + 64 * k := (h.plain k (Nat.lt_of_succ_lt hk)).norm (Nat.zero_le _)
    exact (State.loc_of_norm ((h.named _ (by omega)).trans hline.symm)).trans hl
  have hstart : (a + 64 * k) % 64 = 0 := by have := h.start; omega
  refine ⟨_, ?_, haside.trans haside'⟩
  rw [show a + 64 * (k + 1) = a + 64 * k + 64 by omega] at hsecond ⊢
  simp only [Ok, Machine.readRun, M.run_bind_get, hla, pieces_lines hstart, List.mapM_cons, List.mapM_nil, List.length_replicate,
    bind_assoc, hfirst.bind_run, hsecond.bind_run, pure_bind, M.run_pure, List.flatten_cons, List.flatten_nil, List.append_nil]

/-- A copy of lines each of which goes comes to its end. -/
theorem swapLines_goes {P : State → Prop} {io : Nat → M Unit} (l i : Nat)
    (hio : ∀ j, i ≤ j → j < i + l → ∀ u, P u → ∃ v, Ok (io j) u () v ∧ P v) {u : State} (hu : P u) :
    ∃ v, Ok (swapLines io l i) u (i + l, none) v ∧ P v := by
  induction l generalizing i u with
  | zero => exact ⟨u, rfl, hu⟩
  | succ l ih =>
    obtain ⟨v, hv, hPv⟩ := hio i le_rfl (by omega) u hu
    obtain ⟨w, hw, hPw⟩ := ih (i + 1) (fun j hj hj' => hio j (by omega) (by omega)) hPv
    refine ⟨w, ?_, hPw⟩
    have hline : Ok (do io i; pure none : M (Option Nat)) u none v := hv.bind (.pure _ _)
    rw [Ok, swapLines, hline.tryCatch.bind_run, ← show i + 1 + l = i + (l + 1) by omega]
    exact hw

/-- The lines of a page of plain memory can all be read, by any name of the page. -/
theorem State.PlainLines.readPage (h : s.PlainLines ctx a pa 1024) :
    ∃ t, Ok (swapLines (fun i => do let _ ← Machine.readRun (hubReq ctx) (a + 128 * i) 128) 512 0) s (512, none) t ∧ s.Aside t := by
  refine swapLines_goes (P := s.Aside) 512 0 (fun j _ hj u hu => ?_) (.refl s)
  obtain ⟨v, hv, hav⟩ := (h.aside hu).readRun (k := 2 * j) (by omega)
  rw [show a + 64 * (2 * j) = a + 128 * j by omega] at hv
  exact ⟨v, hv.bind (.pure _ _), hu.trans hav⟩

theorem hubRead_ok {l : List Byte} (h : Ok (Machine.readRun (hubReq ctx) pa len) s l t) : Ok (hubRead ctx pa len) s (some l) t :=
  Ok.tryCatch (h.bind (.pure _ _))

end

/-! ### The counterexample -/

/-- A page of DRAM by this package's own remote address: package 0 has it at 0x10000 (R95). -/
def aliasPage : Nat := 2 ^ 51 + 0x10000

/-- A PTE of that page of 64 KiB, CACHED. -/
def aliasPte : Nat := 2 ^ 63 + (aliasPage / 4096 + 8) * 2 ^ 10 + 0xCF

/-- The 16 PTEs of the page. -/
def aliasPtes : List Byte := (List.range 16).flatMap fun _ => leBytes 8 aliasPte

/-- The descriptor of a job whose PTEs lie at 0x80 and that moves their page to 0x20000, CACHED, context 0. -/
def aliasDesc : List Byte := leBytes 8 0x80 ++ leBytes 8 0x20000 ++ leBytes 16 0

/-- The job of a descriptor at 0 has GO. -/
def aliasJob : State :=
  { (State.reset.setReg swStat 1#64) with mem := Memory.writeList [] (State.reset.key 0) (aliasDesc ++ List.replicate 96 0 ++ aliasPtes) }

/-- The region of all of DRAM space that package reset leaves: pages of 4 KiB on eight stacks (R97). -/
def wholeSpace : RtEnt := { valid := true, rplen := false, rplidx := 0, gran := 0, smask := 0xFF, base := 0, size := 512, stkoff := 0 }

theorem wholeSpace_place (o : Nat) : wholeSpace.place o = (o / 4096 % 8, o / 4096 / 8 * 4096 + o % 4096) := by
  have hstacks : wholeSpace.stacks = List.range 8 := by decide
  have hget : ∀ k < 8, (List.range 8).getD k 0 = k := by decide
  simp only [RtEnt.place, hstacks, List.length_range, hget _ (Nat.mod_lt _ (by decide))]
  simp only [wholeSpace, Nat.shiftLeft_zero, Nat.zero_mul, Nat.zero_add]

theorem aliasJob_rtFind {pa : Nat} (h : pa < 2 ^ 39) : aliasJob.rtFind pa = some wholeSpace := by
  have hactive : aliasJob.rtActive 0 = wholeSpace := by decide +kernel
  have hhas : wholeSpace.has pa = true := by
    simp [RtEnt.has, wholeSpace]
    omega
  rw [State.rtFind, List.range_succ_eq_map, List.map_cons, hactive]
  exact List.find?_cons_of_pos hhas

theorem aliasJob_loc {pa : Nat} (h : pa < 2 ^ 39) : aliasJob.loc pa = .dram (pa / 4096 % 8) (pa / 4096 / 8 * 4096 + pa % 4096) := by
  have hbase : pa - wholeSpace.base * 2 ^ 30 = pa := Nat.sub_zero pa
  rw [State.loc, State.norm_of_lt _ (by omega), if_pos h, aliasJob_rtFind h]
  simp only [hbase, wholeSpace_place]

/-- Memory is plain to a unit of context 0, line by line. -/
theorem aliasJob_plain {pa len : Nat} (hpa : pa < 2 ^ 39) (hlen : 0 < len ∧ pa % 64 + len ≤ 64) : aliasJob.PlainHome 0 pa len where
  fits := ⟨hlen.1, hlen.2, hpa⟩
  place := by
    refine ⟨by rw [State.isDram, aliasJob_loc hpa], fun i hi => ?_⟩
    rw [State.key, State.key, aliasJob_loc hpa, aliasJob_loc (by omega)]
    simp only [dramKey]
    omega
  alone e he := by
    rw [aliasJob_rtFind hpa] at he
    rw [← Option.some.inj he]
    rfl
  home := by
    refine ⟨rfl, ?_, rfl⟩
    rw [State.down, aliasJob_loc hpa]
    rfl
  quiet := ⟨rfl, rfl, rfl, by decide +kernel⟩
  sound := ⟨fun e he => absurd he List.not_mem_nil, fun e he => absurd he List.not_mem_nil⟩

theorem aliasJob_norm {o : Nat} (h : o < 65536) : aliasJob.norm (aliasPage + o) = 0x10000 + o := by
  have hpkg : aliasJob.pkgId = 0 := by decide +kernel
  rw [State.norm, hpkg, if_pos]
  · simp only [bits, aliasPage, Nat.shiftRight_zero]; omega
  · simp only [bits, aliasPage, Nat.shiftRight_eq_div_pow]; omega

theorem aliasJob_page : aliasJob.PlainLines 0 aliasPage 0x10000 1024 where
  start := by decide
  named o ho := aliasJob_norm ho
  plain k hk := aliasJob_plain (by omega) (by omega)

theorem aliasJob_local : aliasJob.PlainLines 0 0x10000 0x10000 1024 where
  start := by decide
  named o ho := aliasJob.norm_of_lt (by omega)
  plain k hk := aliasJob_plain (by omega) (by omega)

theorem aliasJob_ptes : aliasJob.PlainLines 0 0x80 0x80 2 where
  start := by decide
  named o ho := aliasJob.norm_of_lt (by omega)
  plain k hk := aliasJob_plain (by omega) (by omega)

/-! ### The job, as the swap engine does it -/

theorem aliasDesc_words : fieldOf aliasDesc 0 8 = 0x80 ∧ fieldOf aliasDesc 8 8 = 0x20000 ∧ fieldOf aliasDesc 16 8 = 0 := by decide

theorem aliasPtes_words : ∀ i < 16, fieldOf aliasPtes (8 * i) 8 = aliasPte := by decide

/-- The job that is under way once the page has been read (R125). -/
def movedFrom (s : State) (src : Nat) : SwapSt :=
  { desc := 0, src := src, dst := 0x20000, home := 0, ctx := 0, ptepa := 0x80, res := 0, lines := 512,
    data := (span src 65536).map s.homeByte, held := [] }

/-- A job of `aliasDesc` whose PTEs are one leaf, 16 times, and whose page can be read moves the page at the place that the leaf names. -/
theorem swapJob_moves {s s1 s2 s3 : State} {ptes : List Byte} {v src : Nat} (hgo : s.fld swStat 0 0 = 1) (hfree : s.swap = none)
    (hdesc : s.fld 0x030000230000 51 5 = 0) (hd : Ok (hubRead 0 0 32) s (some aliasDesc) s1) (hp : Ok (hubRead 0 0x80 128) s1 (some ptes) s2)
    (hleaf : ((List.range 16).map fun i => fieldOf ptes (8 * i) 8) = List.replicate 16 v) (hnapot : pteNapot v = true)
    (hlegal : s2.homeLegal 0 0x20000 = true) (hloc : s2.loc 0x20000 ≠ .bad) (hhomes : s2.homes = []) (hsrc : s2.norm (bits v 53 14 * 65536) = src)
    (hl : Ok (swapLines (fun i => do let _ ← readRun (hubReq 0) (src + 128 * i) 128) 512 0) s2 (512, none) s3) :
    exec .swapJob s = .next { s3 with swap := some (movedFrom s3 src) } := by
  have hbits : bits 0x80 51 0 = 0x80 ∧ bits 0x20000 51 16 = 2 ∧ bits 0 1 0 = 0 ∧ bits 0 15 8 = 0 := by decide
  obtain ⟨h0, h1, h2⟩ := aliasDesc_words
  obtain ⟨hptepa, hdst, hhome, hctx⟩ := hbits
  have hgo' : ¬(s.fld swStat 0 0 = 0 ∨ s.swap.isSome = true) := by simp [hgo, hfree]
  have hfirst : (List.replicate 16 v).getD 0 0 = v := rfl
  have hall : (List.replicate 16 v).all pteNapot = true := by simp [hnapot]
  have hany : ((List.replicate 16 v).any fun p => bits p 53 10 != bits v 53 10) = false := by simp
  have hpin : ¬(0 = homeHubpin) := by decide
  refine runEvent_ok ?_
  simp only [Ok, swapJobOp, M.run_bind_get, if_neg hgo', hdesc, Nat.zero_mul, hd.bind_run, h0, h1, h2, hptepa, hdst, hhome, hctx, hp.bind_run,
    Option.getD_some, hleaf, hfirst, hall, hany, hsrc, hlegal, hloc, hhomes, hpin, hl.bind_run, M.run_modify, List.any_nil, Option.isNone_some,
    bne_self_eq_false, Bool.or_self, Nat.reduceMul, Nat.reduceMod, Nat.reduceAdd, ne_eq, not_true_eq_false, false_and, or_self, if_false,
    Bool.false_eq_true, Bool.true_eq_false]
  rfl

/-- The descriptor and the PTEs are read, and leave plain memory plain. -/
theorem aliasJob_reads : ∃ s1 s2, Ok (hubRead 0 0 32) aliasJob (some aliasDesc) s1 ∧ Ok (hubRead 0 0x80 128) s1 (some aliasPtes) s2 ∧
    aliasJob.Aside s2 := by
  have hplain : aliasJob.PlainHome 0 0 32 := aliasJob_plain (by decide) (by decide)
  have hread := State.PlainHome.readRun_ok (q := hubReq 0) hplain fun n hn => by cases hn
  have haside := hplain.isSound.aside_noteRead (pa := 0) (hubReq 0)
  obtain ⟨s2, hptes, haside'⟩ := (aliasJob_ptes.aside haside).readRun (k := 0) (by decide)
  have hdesc : Memory.readList aliasJob.mem (aliasJob.key 0) 32 = aliasDesc := by decide +kernel
  have hleaves : Memory.readList aliasJob.mem (aliasJob.key 0x80) 64 ++ Memory.readList aliasJob.mem (aliasJob.key 0xC0) 64 = aliasPtes := by
    decide +kernel
  rw [hdesc] at hread
  rw [haside.mem, haside.key, haside.key, hleaves] at hptes
  exact ⟨_, s2, hubRead_ok hread, hubRead_ok hptes, haside.trans haside'⟩

/-- DST is DRAM, which may be CACHED, and no home of it is in use. -/
theorem aliasJob_dst {s : State} (h : aliasJob.Aside s) : s.homeLegal 0 0x20000 = true ∧ s.loc 0x20000 ≠ .bad ∧ s.homes = [] := by
  have hloc := (h.loc 0x20000).trans (aliasJob_loc (by decide))
  refine ⟨?_, ?_, ?_⟩
  · rw [State.homeLegal, hloc]
    rfl
  · rw [hloc]
    nofun
  · rw [h.rest]
    rfl

theorem aliasJob_go : aliasJob.fld swStat 0 0 = 1 ∧ aliasJob.fld 0x030000230000 51 5 = 0 := by decide +kernel

/-- The job moves the page at its local address. -/
theorem aliasJob_moves {s1 s2 : State} (hd : Ok (hubRead 0 0 32) aliasJob (some aliasDesc) s1)
    (hp : Ok (hubRead 0 0x80 128) s1 (some aliasPtes) s2) (h : aliasJob.Aside s2) :
    ∃ t j, exec .swapJob aliasJob = .next t ∧ t.swap = some j ∧ j.src = 0x10000 := by
  obtain ⟨s3, hread, -⟩ := (aliasJob_local.aside h).readPage
  obtain ⟨hlegal, hloc, hhomes⟩ := aliasJob_dst h
  obtain ⟨hgo, hdesc⟩ := aliasJob_go
  have hptes : ((List.range 16).map fun i => fieldOf aliasPtes (8 * i) 8) = List.replicate 16 aliasPte :=
    List.eq_replicate_iff.mpr ⟨rfl, fun v hv => by
      obtain ⟨i, hi, rfl⟩ := List.mem_map.mp hv
      exact aliasPtes_words i (List.mem_range.mp hi)⟩
  have hnorm : s2.norm (bits aliasPte 53 14 * 65536) = 0x10000 := (aliasJob_page.aside h).named 0 (by decide)
  exact ⟨_, _, swapJob_moves hgo rfl hdesc hd hp hptes (by decide) hlegal hloc hhomes hnorm hread, rfl, rfl⟩

/-- Refutes O55: PTEs may name the source page by this package's own remote address, which names the same page of its DRAM (R95). All
512 lines can be read there, and the job under way keeps the local address; the statement has it keep the remote one. -/
theorem not_hubEvents : ¬ Obligations.HubEvents := by
  unfold Obligations.HubEvents
  intro h
  obtain ⟨-, hjob, -⟩ := h aliasJob
  clear h
  obtain ⟨s1, s2, hd, hp, haside⟩ := aliasJob_reads
  obtain ⟨s3, hread, -⟩ := (aliasJob_page.aside haside).readPage
  obtain ⟨hlegal, hloc, hhomes⟩ := aliasJob_dst haside
  obtain ⟨hgo, hdesc⟩ := aliasJob_go
  obtain ⟨h0, h1, h2⟩ := aliasDesc_words
  have hleaf : ∀ i < 16, pteNapot (fieldOf aliasPtes (8 * i) 8) = true ∧
      fieldOf aliasPtes (8 * i) 8 / 1024 % 2 ^ 44 = fieldOf aliasPtes 0 8 / 1024 % 2 ^ 44 := fun i hi => by
    rw [aliasPtes_words i hi, aliasPtes_words 0 (by decide)]
    decide
  have hsrc : fieldOf aliasPtes 0 8 / 2 ^ 14 % 2 ^ 40 * 65536 = aliasPage := by
    rw [aliasPtes_words 0 (by decide)]
    decide
  obtain ⟨-, hgood⟩ := hjob hgo rfl aliasDesc aliasPtes s1 s2 (by rw [hdesc]; exact hd) (by simp only [Nat.reduceMul, h0, h2]; exact hp)
  simp only [Nat.reduceMul, h0, h1, h2, Nat.zero_div, Nat.zero_mod, Nat.zero_mul, Nat.zero_add, hsrc] at hgood
  obtain ⟨hmoved, -⟩ := hgood ⟨by decide, by decide, trivial, trivial, trivial, hleaf⟩ hlegal hloc (fun hpin => absurd hpin.1 (by decide))
    (fun r hr => by rw [hhomes] at hr; cases hr) 512 none s3 hread
  obtain ⟨t, ht, -, -, hswap⟩ := hmoved rfl
  obtain ⟨u, j, hu, hj, hplace⟩ := aliasJob_moves hd hp haside
  obtain rfl := Host.Outcome.next.inj (ht.symm.trans hu)
  obtain rfl := Option.some.inj (hj.symm.trans hswap)
  exact absurd hplace (show aliasPage ≠ 0x10000 by decide)

end Sys2Proof.Machine
end

section
/-! SUPPORT, O33. What accesses to memory, and the end of an instance, leave of the cores (R36, R105 to R143, R316 to R318, R342). -/
namespace Sys2Proof.Machine

/-! ### Cores apart from memory -/

/-- A core without what accesses to memory move: its reservation, its notes on lines, its queued stores, its clock, and the checks and
counts of its scratchpad's banks. -/
def Core.apart (c : Core) : Core :=
  { c with hart := { c.hart with resv := none }, observed := [], sq := [], clk := 0, flips := [], linePois := [], ce := [], ue := [], groups := [] }

/-- From `s` to `t` the cores have moved in what accesses to memory move, at most. -/
structure State.SameApart (s t : State) : Prop where
  core : ∀ n, (t.core n).apart = (s.core n).apart

section
variable {s t u : State}

theorem State.SameApart.refl (s : State) : s.SameApart s := ⟨fun _ => rfl⟩

theorem State.SameApart.trans (h : s.SameApart t) (k : t.SameApart u) : s.SameApart u := ⟨fun n => (k.core n).trans (h.core n)⟩

theorem State.SameApart.foldl {β : Type} (g : State → β → State) (h : ∀ t b, State.SameApart t (g t b)) (l : List β) (s : State) :
    s.SameApart (l.foldl g s) :=
  List.foldlRecOn (motive := fun t => s.SameApart t) l g (.refl s) fun t ht b _ => ht.trans (h t b)

theorem State.SameApart.of_cores (h : t.cores = s.cores) : s.SameApart t := ⟨fun n => by rw [State.core, h, State.core]⟩

theorem State.Aside.sameApart (h : s.Aside t) : s.SameApart t where
  core n := by
    have hc := h.cores n
    generalize t.core n = c at hc
    rw [hc]
    rfl

theorem State.NotesOnly.sameApart (h : s.NotesOnly t) : s.SameApart t := .of_cores (by rw [h])

theorem State.Alike.sameApart (h : s.Alike t) : s.SameApart t := .of_cores h.cores

theorem State.sameApart_modCore (s : State) (n : Nat) {f : Core → Core} (hf : ∀ c, (f c).apart = c.apart) : s.SameApart (s.modCore n f) where
  core m := by
    by_cases hm : m = n
    · subst hm
      rw [State.core_modCore, hf]
    · rw [State.core_modCore_ne _ _ hm]

theorem State.sameApart_breakResv (s : State) (line : Nat) (byCc : Option Nat) : s.SameApart (s.breakResv line byCc) := by
  refine State.SameApart.trans (State.SameApart.foldl (fun t e => if some e.1 = byCc then t
    else t.modCore e.1 fun c => { c with hart := c.hart.lose line }) (fun t e => ?_) s.cores s) (.of_cores rfl)
  split
  · exact .refl t
  · exact t.sameApart_modCore _ fun c => by rw [c.hart.lose_rest]; rfl

/-! ### Accesses to lines -/

variable (s)

theorem State.cores_hubAlloc (pa way : Nat) (g : CTag) : (s.hubAlloc pa way g).cores = s.cores := by
  have hline : ∀ old, (s.writeBackLine old).cores = s.cores := fun old => by rw [s.notesOnly_writeBackLine old]
  rw [State.hubAlloc]
  split
  · next old _ =>
    have hold : (if old.dirty = true then s.writeBackLine old else s).cores = s.cores := by
      split
      · exact hline old
      · rfl
    dsimp only
    split
    · exact hold
    · exact hold
  · rfl

theorem State.cores_hubHit (k : Nat) (g : CTag) (res : Nat) (write : Bool) : (s.hubHit k g res write).cores = s.cores := by
  rw [State.hubHit]
  split
  · rfl
  · rfl

variable (pa ctx res cls : Nat) (write : Bool)

theorem State.cores_hubPlace : (s.hubPlace pa ctx res cls write).cores = s.cores := by
  rw [State.hubPlace]
  split
  · exact s.cores_hubAlloc _ _ _
  · rfl

theorem State.cores_hubFill : (s.hubFill pa ctx res cls write).cores = s.cores := by
  rw [State.hubFill]
  dsimp only
  split
  · split
    · rfl
    · exact State.cores_hubPlace _ _ _ _ _ _
  · exact s.cores_hubPlace _ _ _ _ _

theorem State.cores_touchHub : (s.touchHub pa ctx res cls write).cores = s.cores := by
  rw [State.touchHub]
  split
  · exact s.cores_hubHit _ _ _ _
  · split
    · rfl
    · exact s.cores_hubFill _ _ _ _ _

theorem State.cores_hubDirty : (s.hubDirty pa).cores = s.cores := by
  rw [State.hubDirty]
  split
  · rfl
  · rfl

theorem State.cores_freshCopies (cl : Option Nat) : (s.freshCopies cl pa).cores = s.cores := by
  rw [State.freshCopies]
  split
  · rfl
  · rfl

theorem State.sameApart_ccFill (cl : Nat) (g : CTag) : s.SameApart (s.ccFill cl pa ctx g) := by
  rw [State.ccFill]
  split
  · dsimp only
    split
    · next old _ =>
      refine State.SameApart.trans ?_ (State.aside_lostCopy _ _ _).sameApart
      refine .of_cores ?_
      show (if old.dirty = true then s.writeBackLine old else s).cores = s.cores
      split
      · rw [s.notesOnly_writeBackLine old]
      · rfl
    · exact .of_cores rfl
  · exact .refl s

theorem State.sameApart_touchCc (cl : Nat) : s.SameApart (s.touchCc cl pa ctx res cls write) := by
  rw [State.touchCc]
  split
  · exact .of_cores rfl
  · split
    · exact .refl s
    · exact s.sameApart_ccFill _ _ _ _

theorem State.sameApart_touchLine (w : Who) : s.SameApart (s.touchLine w pa res cls write) := by
  have hstart : s.SameApart (if write then ({ s with stamp := s.stamp + 1 } : State).freshCopies (w.coreNo.map clusterOf) (s.norm pa)
      else { s with stamp := s.stamp + 1 }) := by
    split
    · exact .of_cores (State.cores_freshCopies _ _ _)
    · exact .of_cores rfl
  refine hstart.trans ?_
  rw [State.touchLine]
  generalize (if write then ({ s with stamp := s.stamp + 1 } : State).freshCopies (w.coreNo.map clusterOf) (s.norm pa)
      else { s with stamp := s.stamp + 1 }) = u
  split
  · exact .of_cores (State.cores_touchHub ..)
  · split
    · refine .of_cores ?_
      show (if write then u.hubDirty (s.norm pa) else u).cores = u.cores
      split
      · exact u.cores_hubDirty _
      · rfl
    · exact State.SameApart.trans (.of_cores (State.cores_touchHub ..)) (State.sameApart_touchCc ..)

theorem State.sameApart_sendInval (line : Nat) (w : Who) (old : List Byte) : s.SameApart (s.sendInval line w old) := by
  rw [State.sendInval]
  refine State.SameApart.trans ?_ (State.SameApart.foldl _ (fun t d => ?_) _ _)
  · exact .of_cores rfl
  · split
    · exact .refl t
    · exact .of_cores rfl

theorem State.sameApart_storeLine (w : Who) (cached : Bool) (data : List Byte) : s.SameApart (s.storeLine w cached pa data) := by
  have hfresh : s.SameApart (let f := (s.dropCover false (s.norm pa) data.length).freshAt (s.key (s.norm pa)) data
      match s.mirror (s.norm pa) with
      | some p => f.freshAt (dramKey p) data
      | none => f) := by
    dsimp only
    split
    · exact .of_cores rfl
    · exact .of_cores rfl
  have hbroken := hfresh.trans (State.sameApart_breakResv _ (s.norm pa / 64) (if w.isCc then w.coreNo else none))
  rw [State.storeLine]
  refine State.SameApart.trans ?_ (State.aside_pastCover _).sameApart
  split
  · exact hbroken.trans (State.sameApart_sendInval _ _ _ _)
  · exact hbroken

theorem State.sameApart_putLine (w : Who) (cached : Bool) (data : List Byte) : s.SameApart (s.putLine w cached pa data) := by
  rw [State.putLine]
  split
  · exact (s.sameApart_breakResv _ _).trans (.of_cores rfl)
  · exact s.sameApart_storeLine _ _ _ _

theorem State.sameApart_tellWrite (q : Req) (data : List Byte) : s.SameApart (s.tellWrite q pa data) := by
  rw [State.tellWrite]
  split
  · split
    · exact .refl s
    · exact .of_cores rfl
  · exact .refl s

theorem State.sameApart_performWrite (q : Req) (data : List Byte) : s.SameApart (s.performWrite q pa data) := by
  have hput := (s.sameApart_putLine pa q.who q.cached data).trans (State.sameApart_tellWrite _ pa q data)
  rw [State.performWrite]
  split
  · exact hput.trans (State.sameApart_touchLine ..)
  · exact hput

theorem State.sameApart_holdWrite (q : Req) (data : List Byte) : s.SameApart (s.holdWrite q pa data) := by
  have hbreak : s.SameApart (if q.who.isCc then s else s.breakResv (s.norm pa / 64) none) := by
    split
    · exact .refl s
    · exact s.sameApart_breakResv _ _
  rw [State.holdWrite]
  refine State.SameApart.trans ?_ (State.sameApart_touchCc ..)
  exact hbreak.trans (.of_cores rfl)

theorem State.sameApart_noteWay : s.SameApart (s.noteWay pa) := by
  rw [State.noteWay]
  split
  · exact .of_cores rfl
  · exact .refl s

end

/-! ### The accesses of a hub unit -/

section
variable {α β : Type} {P : State → Prop}

/-- What stops has no second part. -/
theorem keeps_bind_throw (e : Stop) (f : α → M β) : Keeps P ((throw e : M α) >>= f) := fun s hs => by rwa [M.run_bind_throw]

/-- A check that stops, or goes on. -/
theorem keeps_guard {c : Prop} [Decidable c] {e : Stop} {f : α → M β} {m : M β} (h : Keeps P m) :
    Keeps P (if c then (throw e : M α) >>= f else m) := keeps_ite (fun _ => keeps_bind_throw e f) fun _ => h

/-- Whether a home answers is asked without moving anything. -/
theorem keeps_homeCheck (q : Req) (pa : Nat) : Keeps P (homeCheck q pa) := by
  unfold homeCheck
  refine keeps_bind_get fun s _ => keeps_guard (keeps_guard ?_)
  split
  · exact keeps_pure _
  · exact keeps_ite (fun _ => keeps_pure _) fun _ => keeps_flt _ _ _ _

/-- Whether a line is fit is asked without moving anything. -/
theorem keeps_keyFit (key pa code : Nat) : Keeps P (keyFit key pa code) := by
  unfold keyFit integrity
  exact keeps_bind_get fun s _ => keeps_guard (keeps_ite (fun _ => keeps_flt _ _ _ _) fun _ => keeps_pure _)

theorem keeps_foundFit (q : Req) (pa code : Nat) : Keeps P (foundFit q pa code) := by
  unfold foundFit lineFit integrity
  refine keeps_bind_get fun s _ => ?_
  split
  · exact keeps_bind_get fun u _ => keeps_keyFit _ _ _
  · exact keeps_guard (keeps_ite (fun _ => keeps_flt _ _ _ _) fun _ => keeps_pure _)

theorem keeps_mergeFit (q : Req) (pa : Nat) : Keeps P (mergeFit q pa) := by
  unfold mergeFit
  refine keeps_bind (keeps_foundFit q pa 7) fun _ => keeps_bind_get fun s _ => ?_
  split
  · exact keeps_keyFit _ _ _
  · exact keeps_pure _

/-- A step that may be left out. -/
theorem keeps_when {c : Prop} [Decidable c] {m : M Unit} {f : Unit → M β} (hm : Keeps P m) (hf : Keeps P (f ())) :
    Keeps P (if c then m >>= f else f ()) := keeps_ite (fun _ => keeps_bind hm fun _ => hf) fun _ => hf

end

section
variable {s : State}

theorem keeps_apart_of {g : State → State} (h : ∀ t : State, t.SameApart (g t)) : Keeps s.SameApart (modify g : M PUnit) :=
  keeps_modify fun t ht => ht.trans (h t)

/-- A change of one core in what memory moves. -/
theorem keeps_apart_modCore (n : Nat) {f : Core → Core} (hf : ∀ c, (f c).apart = c.apart) :
    Keeps s.SameApart (modify fun t => t.modCore n f : M PUnit) := keeps_apart_of fun t => t.sameApart_modCore n hf

theorem keeps_apart_logM (k d pa : Nat) (info : List Nat) : Keeps s.SameApart (logM k d pa info) :=
  keeps_apart_of fun t => (t.notesOnly_log k d pa info).sameApart

theorem keeps_apart_freshBool : Keeps s.SameApart freshBool := fun _ ht => ht.trans (.of_cores rfl)

/-- Bad words of a bank, where there are any, are counted and reported. -/
theorem keeps_apart_counted {α : Type} {c : Prop} [Decidable c] (n k d pa : Nat) (info : List Nat) {f : Core → Core}
    (hf : ∀ c, (f c).apart = c.apart) {rest : Unit → M α} (h : ∀ r, Keeps s.SameApart (rest r)) :
    Keeps s.SameApart (if c then (modify fun t => t.modCore n f) >>= fun _ => logM k d pa info >>= rest else rest ()) :=
  keeps_ite (fun _ => keeps_bind (keeps_apart_modCore n hf) fun _ => keeps_bind (keeps_apart_logM _ _ _ _) h) fun _ => h ()

theorem keeps_apart_bankAccess (n g r b : Nat) : Keeps s.SameApart (bankAccess n g r b) := by
  unfold bankAccess
  refine keeps_bind_get fun u _ => keeps_ite (fun _ => ?_) fun _ => ?_
  · exact keeps_bind (keeps_apart_modCore n fun _ => rfl) fun _ => keeps_bind (keeps_apart_logM _ _ _ _) fun _ => keeps_pure _
  · refine keeps_apart_counted n _ _ _ _ (fun _ => ?_) fun _ => ?_
    · rfl
    · refine keeps_apart_counted n _ _ _ _ (fun _ => ?_) fun _ => ?_
      · rfl
      · exact keeps_pure _

/-! The words of a bank line written or poisoned, and a row that becomes stale, leave the rest of the core. -/

@[simp] theorem Core.apart_clearFlips (c : Core) (line : Nat) : (c.clearFlips line).apart = c.apart := rfl

@[simp] theorem Core.apart_setStale (c : Core) (g : Nat) (l : List Nat) : (c.setStale g l).apart = c.apart := rfl

@[simp] theorem Core.apart_linePois (c : Core) (p : Table Bool) : ({ c with linePois := p } : Core).apart = c.apart := rfl

theorem keeps_apart_catchUpRow (n g r : Nat) : Keeps s.SameApart (catchUpRow n g r) := by
  unfold catchUpRow
  refine keeps_bind (keeps_forM' fun b => ?_) fun _ => keeps_apart_modCore n fun _ => rfl
  exact keeps_bind (keeps_apart_bankAccess n g r b) fun ok =>
    keeps_ite (fun _ => keeps_apart_modCore n fun _ => rfl) fun _ => keeps_pure _

theorem keeps_apart_catchUp (n g : Nat) : Keeps s.SameApart (catchUp n g) := by
  unfold catchUp
  refine keeps_bind_get fun u _ => ?_
  split
  · exact keeps_pure _
  · exact keeps_apart_catchUpRow n g _

theorem keeps_apart_groupTurn (n g : Nat) : Keeps s.SameApart (groupTurn n g) := by
  unfold groupTurn
  exact keeps_bind_get fun u _ => keeps_guard (keeps_ite (fun _ => keeps_apart_catchUp n g) fun _ => keeps_pure _)

theorem keeps_apart_writeList (k : Nat) (data : List Byte) :
    Keeps s.SameApart (modify fun t => { t with mem := Memory.writeList t.mem k data } : M PUnit) := keeps_apart_of fun _ => .of_cores rfl

theorem keeps_apart_freshLines (pa len : Nat) : Keeps s.SameApart (modify fun t => t.freshLines pa len : M PUnit) :=
  keeps_apart_of fun _ => .of_cores rfl

theorem keeps_apart_storeBankLine (n off : Nat) (data : List Byte) : Keeps s.SameApart (storeBankLine n off data) := by
  unfold storeBankLine
  refine keeps_bind (keeps_apart_modCore n fun c => ?_) fun _ =>
    keeps_bind (keeps_apart_writeList _ _) fun _ => keeps_apart_freshLines _ _
  dsimp only
  split <;> simp

theorem keeps_apart_writeBankLine (n off : Nat) (data : List Byte) : Keeps s.SameApart (writeBankLine n off data) := by
  unfold writeBankLine
  have hmerge : Keeps s.SameApart (if partHalf off data.length = true then do
      let _ ← bankAccess n (spGroup n off) (spRow n off) (spBank off)
      pure () else pure () : M Unit) :=
    keeps_ite (fun _ => keeps_bind (keeps_apart_bankAccess _ _ _ _) fun _ => keeps_pure _) fun _ => keeps_pure _
  have hstore := keeps_apart_storeBankLine (s := s) n off data
  refine keeps_bind (keeps_apart_groupTurn _ _) fun _ => keeps_bind_get fun u _ => keeps_guard ?_
  refine keeps_ite (fun _ => keeps_bind keeps_apart_freshBool fun busy => keeps_ite (fun _ => ?_) fun _ => ?_) fun _ => ?_
  · exact keeps_bind hmerge fun _ => keeps_bind hstore fun _ => keeps_apart_modCore n fun _ => rfl
  · exact keeps_bind (keeps_apart_bankAccess _ _ _ _) fun old => keeps_bind (keeps_apart_bankAccess _ _ _ _) fun par => keeps_bind hstore fun _ =>
      keeps_ite (fun _ => keeps_apart_modCore n fun _ => rfl) fun _ => keeps_apart_catchUpRow _ _ _
  · exact keeps_bind hmerge fun _ => hstore

theorem Core.apart_foldl {β : Type} (l : List β) (f : Core → β → Core) (hf : ∀ c b, (f c b).apart = c.apart) (c : Core) :
    (l.foldl f c).apart = c.apart :=
  List.foldlRecOn (motive := fun d : Core => d.apart = c.apart) l f rfl fun d hd b _ => (hf d b).trans hd

theorem keeps_apart_writeStripe (n off : Nat) (data : List Byte) : Keeps s.SameApart (writeStripe n off data) := by
  unfold writeStripe
  refine keeps_bind (keeps_apart_groupTurn _ _) fun _ => keeps_bind (keeps_apart_modCore n fun c => ?_) fun _ =>
    keeps_bind (keeps_apart_writeList _ _) fun _ => keeps_apart_freshLines _ _
  dsimp only
  rw [Core.apart_setStale]
  split
  · rw [Core.apart_clearFlips, Core.apart_foldl _ _ fun _ _ => by simp]
  · rw [Core.apart_foldl _ _ fun _ _ => by simp]

theorem keeps_apart_spWrite (w : Who) (n off : Nat) (data : List Byte) : Keeps s.SameApart (spWrite w n off data) := by
  unfold spWrite
  refine keeps_bind (keeps_forM' fun p => ?_) fun _ => keeps_apart_of fun t => State.SameApart.foldl _ (fun t l => t.sameApart_breakResv _ _) _ t
  refine keeps_ite (fun _ => keeps_apart_writeStripe _ _ _) fun _ => keeps_forM' fun q => keeps_bind_get fun u _ => ?_
  refine keeps_bind (keeps_forM' fun l => ?_) fun _ => keeps_apart_writeBankLine _ _ _
  exact keeps_ite (fun _ => keeps_flt _ _ _ _) fun _ => keeps_pure _

theorem keeps_apart_writeSeg (q : Req) (pa : Nat) (data : List Byte) : Keeps s.SameApart (writeSeg q pa data) := by
  unfold writeSeg
  refine keeps_bind_get fun u _ => keeps_bind (keeps_homeCheck q pa) fun _ => ?_
  have hput : Keeps s.SameApart (do
      modify fun t => t.noteWay pa
      if u.holdTakes q pa then modify fun t => t.holdWrite q pa data
      else if u.heldW.any fun h => h.pa / 64 == u.norm pa / 64 then throw .stall
      else modify fun t => t.performWrite q pa data : M Unit) :=
    keeps_bind (keeps_apart_of fun t => t.sameApart_noteWay pa) fun _ =>
      keeps_ite (fun _ => keeps_apart_of fun t => t.sameApart_holdWrite pa q data) fun _ =>
      keeps_ite (fun _ => keeps_throw _) fun _ => keeps_apart_of fun t => t.sameApart_performWrite pa q data
  split
  · exact keeps_apart_spWrite _ _ _ _
  · exact keeps_guard (keeps_when (keeps_mergeFit q pa) hput)

theorem keeps_apart_writeRun (q : Req) (pa : Nat) (data : List Byte) : Keeps s.SameApart (writeRun q pa data) := by
  unfold writeRun
  refine keeps_bind_get fun u _ => ?_
  split
  · exact keeps_forM' fun p => keeps_apart_writeSeg _ _ _
  · exact keeps_forM' fun p => keeps_apart_writeSeg _ _ _

/-- The write of a completion word (R336). -/
theorem keeps_apart_word (ctx pa v : Nat) : Keeps s.SameApart (Owed.word ctx pa v).act :=
  keeps_bind (keeps_apart_of fun t => (t.aside_takeInval _).sameApart) fun _ =>
    keeps_bind (keeps_apart_writeRun _ _ _) fun _ => keeps_apart_of fun t => (t.aside_takeInval _).sameApart

end

/-! ### The end of an instance -/

section
variable (s : State)

theorem State.sameApart_hubReport (f : Flt) : s.SameApart (s.hubReport f) := (s.notesOnly_log ..).sameApart

theorem State.sameApart_postWord (ctx pa v : Nat) : s.SameApart (s.hubPost (.word ctx pa v)) := by
  have hact := keeps_apart_word (s := s) ctx pa v s (.refl s)
  unfold State.hubPost
  split
  · exact .of_cores rfl
  · split
    next h => rwa [h] at hact
    next => exact .of_cores rfl
    next h =>
      rw [h] at hact
      exact hact.trans (State.sameApart_hubReport _ _)
    next h => rwa [h] at hact

theorem State.sameApart_endInst (g : GInst) (status cause node : Nat) : s.SameApart (s.endInst g status cause node) := by
  unfold State.endInst
  refine State.SameApart.trans ?_ (State.alike_mapDie _ _).sameApart
  have hword : s.SameApart (if g.done = 0 then s else s.hubPost (.word g.ctx g.done (status + cause * 256 + node * 65536))) := by
    split
    · exact .refl s
    · exact s.sameApart_postWord ..
  exact hword.trans (.of_cores rfl)

theorem State.sameApart_settle (id : Nat) : s.SameApart (s.settle id) := by
  unfold State.settle
  split
  next => exact .refl s
  next g hg =>
    have hdrop := (State.alike_dropTasks g.nodes _ (fun _ _ => rfl) s).sameApart
    dsimp only
    split
    next =>
      split
      · exact s.sameApart_endInst ..
      · exact .refl s
    next =>
      split
      next =>
        split
        · exact .refl s
        · exact hdrop.trans (State.sameApart_endInst ..)
      next =>
        split
        next =>
          split
          · exact .refl s
          · exact hdrop.trans (State.sameApart_endInst ..)
        next =>
          split
          · exact s.sameApart_endInst ..
          · exact .refl s

end

end Sys2Proof.Machine
end

section
/-! SUPPORT, O33. The context leaves the core (R305, R345). -/
namespace Sys2Proof.Machine

/-! ### The core that a context has left -/

/-- A core that its context has left: the dispatch state, with no task, no staged output and no interrupt of the task (R305). -/
def Core.released (c : Core) : Core :=
  { c.dispatchState with hart := c.dispatchState.hart.noLocal, staging := Staging.empty, task := none, suspended := false, frozen := false, suspRegs := [], suspPc := 0 }

section
variable (c : Core)

theorem Core.dispatchState_hart : c.dispatchState.hart = c.hart := by
  have hempty : c.emptyRings.hart = c.hart := rfl
  rw [← hempty]
  rfl

theorem Core.released_hart : c.released.hart = c.hart.noLocal := congrArg Hart.noLocal c.dispatchState_hart

theorem Core.released_ring (e : Eng) : c.released.ring e =
    { c.ring e with read := (c.ring e).write, retire := (c.ring e).write, org := [], flight := [], halted := false, owner := false } :=
  c.dispatchState_ring e

/-- The interrupts of the task, 16 to 18, are pending no more (R345, R350). -/
theorem Core.released_csrBit (j : Nat) : c.released.hart.csrBit 0x344 j = (c.hart.csrBit 0x344 j && !(j == 16 || j == 17 || j == 18)) := by
  rw [Core.released_hart, Hart.noLocal, Hart.csrBit_setCsrBits _ _ _ _ (by decide) (by decide)]
  split
  next h =>
    have hj : (j == 16 || j == 17 || j == 18) = true := by simp; omega
    rw [Nat.zero_testBit, hj, Bool.not_true, Bool.and_false]
  next h =>
    have hj : (j == 16 || j == 17 || j == 18) = false := by simp; omega
    rw [hj, Bool.not_false, Bool.and_true]

end

/-- What stands on core `n` once its context has left it, its registers apart (R305). -/
structure Core.LeftBy (c d : Core) : Prop where
  task : d.task = none
  suspended : d.suspended = false
  frozen : d.frozen = false
  staging : d.staging = Staging.empty
  sem : ∀ i, d.sem i = 0
  cb : ∀ i, d.cb i = Cb.reset
  v : d.v = []
  k : d.k = []
  pj : d.pj = []
  acc : d.acc = []
  ring : ∀ e, d.ring e =
    { c.ring e with read := (c.ring e).write, retire := (c.ring e).write, org := [], flight := [], halted := false, owner := false }
  pending : ∀ j, d.hart.csrBit 0x344 j = (c.hart.csrBit 0x344 j && !(j == 16 || j == 17 || j == 18))

/-- What accesses to memory move is nothing of it. -/
theorem Core.leftBy_of_apart {c d : Core} (h : d.apart = c.released.apart) : c.LeftBy d where
  task := congrArg Core.task h
  suspended := congrArg Core.suspended h
  frozen := congrArg Core.frozen h
  staging := congrArg Core.staging h
  sem i := congrArg (fun c => c.sem i) h
  cb i := congrArg (fun c => c.cb i) h
  v := congrArg Core.v h
  k := congrArg Core.k h
  pj := congrArg Core.pj h
  acc := congrArg Core.acc h
  ring e := (congrArg (fun c => c.ring e) h).trans (c.released_ring e)
  pending j := (congrArg (fun c => c.hart.csrBit 0x344 j) h).trans (c.released_csrBit j)

/-! ### What the release changes -/

section
variable (s : State) (n : Nat) (t : TaskSt)

/-- The staged output of core `n` is held under its SAVE address, where there is any (R345). -/
def State.stagedHeld (save : Nat) : State :=
  if (s.core n).staging = Staging.empty then s
  else ({ s with savedSets := Table.put none s.savedSets save (some (s.core n).staging) } : State).retag n (heldKey save)

theorem State.stagedHeld_alike (save : Nat) : s.Alike (s.stagedHeld n save) := by
  unfold State.stagedHeld
  split
  · exact .refl s
  · exact ⟨rfl, rfl, rfl, rfl, rfl⟩

theorem State.stagedHeld_savedSets {save : Nat} (h : (s.core n).staging ≠ Staging.empty) :
    Table.get none (s.stagedHeld n save).savedSets save = some (s.core n).staging := by
  rw [State.stagedHeld, if_neg h]
  exact Table.get_put_same _ _ _

/-- The node of a task whose context has been saved. -/
def NodeSt.saved (x : NodeSt) (pinned : Bool) (seen : List Nat) (kept : List (Nat × List Flight)) : NodeSt :=
  { x with phase := .suspended, pinned := pinned, seen := seen, kept := kept, asked := x.asked.map fun a => (a.1, Asked.ask) }

/-- The context leaves: its staged output is held, the core is released, the node is suspended. -/
theorem State.releaseContext_eq : ∃ seen kept, s.releaseContext n t =
    ((s.stagedHeld n t.save).modCore n Core.released).modInst t.inst fun g => g.modNode t.node fun x => x.saved t.pinned seen kept :=
  ⟨_, _, rfl⟩

theorem State.releaseContext_mem : (s.releaseContext n t).mem = s.mem := by
  obtain ⟨seen, kept, he⟩ := s.releaseContext_eq n t
  rw [he]
  exact (s.stagedHeld_alike n t.save).mem

theorem State.releaseContext_core : (s.releaseContext n t).core n = (s.core n).released := by
  obtain ⟨seen, kept, he⟩ := s.releaseContext_eq n t
  rw [he]
  show ((s.stagedHeld n t.save).modCore n Core.released).core n = _
  rw [State.core_modCore, (s.stagedHeld_alike n t.save).core]

theorem State.releaseContext_core_ne {m : Nat} (hm : m ≠ n) : (s.releaseContext n t).core m = s.core m := by
  obtain ⟨seen, kept, he⟩ := s.releaseContext_eq n t
  rw [he]
  show ((s.stagedHeld n t.save).modCore n Core.released).core m = _
  rw [State.core_modCore_ne _ _ hm, (s.stagedHeld_alike n t.save).core]

theorem State.releaseContext_savedSets (h : (s.core n).staging ≠ Staging.empty) :
    Table.get none (s.releaseContext n t).savedSets t.save = some (s.core n).staging := by
  obtain ⟨seen, kept, he⟩ := s.releaseContext_eq n t
  rw [he]
  exact s.stagedHeld_savedSets n h

/-- The node of the task is suspended in its instance. -/
theorem State.releaseContext_inst? : ∃ seen kept, (s.releaseContext n t).inst? t.inst =
    (s.inst? t.inst).map fun g => g.modNode t.node fun x => x.saved t.pinned seen kept := by
  obtain ⟨seen, kept, he⟩ := s.releaseContext_eq n t
  refine ⟨seen, kept, ?_⟩
  rw [he, State.inst?_modInst _ _ (f := fun g => g.modNode t.node _) fun _ => rfl]
  have hheld := (s.stagedHeld_alike n t.save).inst? t.inst
  rw [← hheld]
  rfl

/-- An instance that may go on has not come to its end with a suspended node. -/
theorem State.settle_releaseContext (h : s.sound t.inst t.node) : (s.releaseContext n t).settle t.inst = s.releaseContext n t := by
  obtain ⟨seen, kept, hinst⟩ := s.releaseContext_inst? n t
  cases hg : s.inst? t.inst with
  | none => exact State.settle_none (by rw [hinst, hg]; rfl)
  | some g =>
    obtain ⟨hborn, hfault, hrev, hnode⟩ := h g hg
    rw [hg] at hinst
    exact State.settle_going (i := t.node) hinst hborn hfault hrev (GInst.modNode_same _ (List.getElem?_eq_getElem hnode)) rfl

/-! ### The mapper leaves the held sets alone -/

theorem fillSlots_savedSets (d fuel : Nat) (s : State) : (fillSlots d fuel s).savedSets = s.savedSets := by
  induction fuel generalizing s with
  | zero => rfl
  | succ k ih =>
    rw [fillSlots]
    split
    · exact ih _
    · rfl

theorem savedSets_foldl {β : Type} (l : List β) (g : State → β → State) (h : ∀ s b, (g s b).savedSets = s.savedSets) (s : State) :
    (l.foldl g s).savedSets = s.savedSets :=
  List.foldlRecOn (motive := fun t => t.savedSets = s.savedSets) l g rfl fun t ht b _ => (h t b).trans ht

theorem State.idleQueues_savedSets : s.idleQueues.savedSets = s.savedSets := rfl

theorem State.mapDie_savedSets (d : Nat) : (s.mapDie d).savedSets = s.savedSets := by
  rw [State.mapDie, fillSlots_savedSets, State.idleQueues_savedSets]
  refine savedSets_foldl _ _ (fun t i => ?_) s
  split
  · split
    · split <;> rfl
    · rfl
  · rfl

/-! ### What `ctx.save` leaves -/

/-- The state that `ctx.save` leaves with its area written: an instance that can end ends, and the mapper looks again. -/
def State.contextLeft : State := ((s.releaseContext n t).settle t.inst).mapDie (dieOf n)

/-- Whatever comes of the instance, the context has left the core (R305). -/
theorem State.contextLeft_core : (s.core n).LeftBy ((s.contextLeft n t).core n) := by
  have hend := (((s.releaseContext n t).sameApart_settle t.inst).trans (State.alike_mapDie _ (dieOf n)).sameApart).core n
  rw [s.releaseContext_core] at hend
  exact Core.leftBy_of_apart hend

variable (hsound : s.sound t.inst t.node)
include hsound

theorem State.contextLeft_sound : s.contextLeft n t = (s.releaseContext n t).mapDie (dieOf n) := by
  rw [State.contextLeft, s.settle_releaseContext n t hsound]

theorem State.contextLeft_alike : (s.releaseContext n t).Alike (s.contextLeft n t) := by
  rw [s.contextLeft_sound n t hsound]
  exact State.alike_mapDie _ _

theorem State.contextLeft_savedSets (h : (s.core n).staging ≠ Staging.empty) :
    Table.get none (s.contextLeft n t).savedSets t.save = some (s.core n).staging := by
  rw [s.contextLeft_sound n t hsound, State.mapDie_savedSets, s.releaseContext_savedSets n t h]

theorem State.contextLeft_node {g : GInst} {x : NodeSt} (hg : s.inst? t.inst = some g) (hx : g.nodes[t.node]? = some x) :
    ∃ g' x', (s.contextLeft n t).inst? t.inst = some g' ∧ g'.nodes[t.node]? = some x' ∧ x'.phase = .suspended := by
  obtain ⟨seen, kept, hinst⟩ := s.releaseContext_inst? n t
  rw [hg] at hinst
  exact ⟨_, _, ((s.contextLeft_alike n t hsound).inst? _).trans hinst, GInst.modNode_same _ hx, rfl⟩

end

/-! ### The run of `ctx.save` -/

section
variable {s s1 s2 : State} {n : Nat} {r1 : Reg} {t : TaskSt}

theorem ctxSaveOp_refuses (h : (s.core n).task = none ∨ (s.core n).hart.priv ≠ .s ∨ (s.core n).suspended = false ∨
    ((s.core n).hart.get r1).toNat % 4096 ≠ 0 ∨ (s.core n).fq ≠ []) : (ctxSaveOp r1 n).run s = (.error (.trap { code := 2 }), s) := by
  cases ht : (s.core n).task with
  | none => simp only [ctxSaveOp, M.run_bind_get, ht, run_illegal]
  | some t =>
    rw [ht] at h
    simp only [ctxSaveOp, M.run_bind_get, ht, if_pos (h.resolve_left nofun), run_bind_illegal]

section
variable (ht : (s.core n).task = some t) (hp : (s.core n).hart.priv = .s) (hsus : (s.core n).suspended = true)
  (hva : ((s.core n).hart.get r1).toNat % 4096 = 0) (hfq : (s.core n).fq = [])
include ht hp hsus hva hfq

/-- A context that can be saved: the queue of stores drains, then the swap engine is asked (R125), then the area is written. -/
theorem ctxSaveOp_run (hdrain : Ok (drainAll n) s () s1) : (ctxSaveOp r1 n).run s =
    (if s1.swapHolds n = true then throw .stall else do
      saveArea n ((s.core n).hart.get r1).toNat (s.core n) t
      modify fun u => u.contextLeft n t
      pure none : M (Option W64)).run s1 := by
  have hgood : ¬((s.core n).hart.priv ≠ .s ∨ (s.core n).suspended = false ∨ ((s.core n).hart.get r1).toNat % 4096 ≠ 0 ∨ (s.core n).fq ≠ []) := by
    simp [hp, hsus, hva, hfq]
  simp only [ctxSaveOp, M.run_bind_get, ht, if_neg hgood]
  rw [hdrain.bind_run, M.run_bind_get]
  split
  · rw [M.run_bind_throw]; rfl
  · rfl

theorem ctxSaveOp_stalls (hdrain : Ok (drainAll n) s () s1) (hheld : s1.swapHolds n = true) :
    (ctxSaveOp r1 n).run s = (.error .stall, s1) := by
  rw [ctxSaveOp_run ht hp hsus hva hfq hdrain, if_pos hheld, M.run_throw]

theorem ctxSaveOp_ok (hdrain : Ok (drainAll n) s () s1) (hheld : s1.swapHolds n = false)
    (harea : Ok (saveArea n ((s.core n).hart.get r1).toNat (s.core n) t) s1 () s2) :
    Ok (ctxSaveOp r1 n) s none (s2.contextLeft n t) := by
  rw [Ok, ctxSaveOp_run ht hp hsus hva hfq hdrain, if_neg (by simp [hheld]), harea.bind_run, M.run_bind_modify, M.run_pure]

end

end

/-- Settles O33: what `ctx.save` refuses and waits for, and what it leaves of the core and of the node, whatever the end of an instance
that can go on no more then writes. -/
theorem contextSave : Obligations.ContextSave := by
  intro s n r1 hcore
  refine ⟨fun hbad => runCore_trap hcore (ctxSaveOp_refuses hbad), fun t s1 s2 ht hp hsus hva hfq hdrain => ⟨fun hheld => ?stall, fun hheld harea => ?save⟩⟩
  case stall => exact (runCore_at hcore).trans (congrArg _ (runFor_stall (ctxSaveOp_stalls ht hp hsus hva hfq hdrain hheld)))
  case save =>
    have hleft := s2.contextLeft_core n t
    refine ⟨s2.contextLeft n t, runCore_ok hcore (ctxSaveOp_ok ht hp hsus hva hfq hdrain hheld harea), hleft.task, hleft.suspended, hleft.frozen,
      hleft.staging, hleft.sem, hleft.cb, hleft.v, hleft.k, hleft.pj, hleft.acc, fun e => ?ring, hleft.pending, fun hsound => ?sound⟩
    case ring =>
      have hring : (s2.contextLeft n t).ring n e = _ := hleft.ring e
      rw [hring]
      exact ⟨rfl, rfl, rfl, rfl, rfl, rfl, rfl⟩
    case sound =>
      have hsame := s2.contextLeft_alike n t hsound
      have hcoreN : (s2.contextLeft n t).core n = (s2.core n).released := by rw [hsame.core, s2.releaseContext_core]
      have hhart : ((s2.contextLeft n t).core n).hart = (s2.core n).hart.noLocal := by rw [hcoreN, Core.released_hart]
      refine ⟨by rw [hsame.mem, s2.releaseContext_mem], ?_, ?_, ?_, fun m hm => ?_, s2.contextLeft_savedSets n t hsound,
        fun g x hg hx => s2.contextLeft_node n t hsound hg hx⟩
      · rw [hhart]; rfl
      · rw [hhart]; rfl
      · rw [hhart]; rfl
      · rw [hsame.core, s2.releaseContext_core_ne n t hm]

end Sys2Proof.Machine
end
